-- ==== Sys2Proof/Word.lean ====
section
/-!
DEFINITION. The word types of the ZX-1604M / ZX-1600M block.
Registers are 32 bits wide and little-endian (spec 00 R5).
-/
namespace Sys2Proof

/-- A 32-bit register, point or memory word (spec 00 R5). -/
abbrev Word := BitVec 32

/-- A byte. -/
abbrev Byte := BitVec 8

/-- A 64-bit word: a Sextant program word or an I64 pair (spec 00 R12, 11 R278). -/
abbrev DWord := BitVec 64

end Sys2Proof
end

