-- ==== Sys2Proof/SxSyntax.lean ====
section
/-!
DEFINITION. The instruction words of the Sextant clusters (spec 12): the three slots of a word and their operations.
-/
namespace Sys2Proof

/-- Operations of the lane form (spec 12 Table 12-3, OPC 0x01 to 0x1F but SHA). -/
inductive LaneK where
  | add | sub | abs | neg | max | min | mov | and | or | xor | lsl | lsr | asr | cmpeq | cmplt | cmple | sel
  | mpy | mac | msu | mpyr | clra | lda | adda | suba | movxa | exp | norm | bcast | extr
  deriving DecidableEq, Repr

/-- Operations of the scalar form (Table 12-3, OPC 0x20 to 0x29). -/
inductive ScalK where
  | sadd | ssub | sand | sor | sxor | slsl | slsr | sasr | scmp | smov
  deriving DecidableEq, Repr

/-- Operations of the scalar immediate form. -/
inductive ImmK where
  | sldi | sldh | saddi
  deriving DecidableEq, Repr

/-- The arithmetic slot (Table 12-2). NOP keeps the bits below OPC, which no table constrains. -/
inductive Arith where
  | nop (low : Fin 4194304)
  | lane (k : LaneK) (fmt : Fin 4) (msk : Bool) (d a b : Fin 32) (aux : Fin 16)
  | sha (fmt : Fin 4) (msk : Bool) (d : Fin 32) (cnt : Fin 128) (low : Fin 128)
  | scal (k : ScalK) (sd sa sb : Fin 16) (i : Bool) (imm : Fin 32) (low : Fin 16)
  | simm (k : ImmK) (sd : Fin 16) (gap : Fin 4) (imm : Fin 65536)
  | srd (srn : Fin 64) (sd : Fin 16) (low : Fin 4096)
  | swr (srn : Fin 64) (sa : Fin 16) (low : Fin 4096)
  | swri (srn : Fin 64) (imm : Fin 65536)
  deriving DecidableEq, Repr

/-- Memory operations (Table 12-5). -/
inductive MemK where
  | ldb | ldv | stl | stv | lds | sts | stav
  deriving DecidableEq, Repr

/-- A memory operation of a move slot (R306): register field, pointer, post-modify, LF and IDX. -/
structure MemOp where
  k : MemK
  reg : Fin 32
  p : Fin 8
  pm : Bool
  lf : Fin 4
  idx : Fin 16
  deriving DecidableEq, Repr

/-- The X-move slot: none, or a memory operation. -/
inductive XSlot where
  | none
  | mem (m : MemOp)
  deriving DecidableEq, Repr

/-- The Y-move/control slot (R306, Table 12-6). -/
inductive YSlot where
  | none
  | mem (m : MemOp)
  | duty (reg : Fin 32) (port : Fin 64) (v : Bool) (lane : Fin 4)
  | ext (data addr : Fin 16) (st pi sb : Bool) (low : Fin 8)
  | loopI (rot : Bool) (count : Fin 256) (len : Fin 16)
  | loopS (rot : Bool) (len : Fin 256) (s : Fin 16)
  | br (cond : Fin 16) (ofs : Fin 1024)
  | jmp (top : Bool) (a : Fin 8192)
  | ret (low : Fin 16384)
  | ldag (n : Fin 8) (a : Fin 2048)
  deriving DecidableEq, Repr

/-- A word: its three slots (Table 12-1). -/
structure SxWord where
  ar : Arith
  xs : XSlot
  ys : YSlot
  deriving DecidableEq, Repr

end Sys2Proof
end

