-- ==== Sys2Proof/Syntax.lean ====
section
/-!
DEFINITION. The commands of the block, one constructor per row of the opcode table, with what the row leaves to the
outside as operands: ship times in ns, measured values, received contents and check results, and the instruction words
of the clusters.
-/
namespace Sys2Proof

/-- What the receiver of a serial encoder frame samples on the data line (spec 08 R205): whether the line was high before the frame, the
clocks from the acknowledge to the START bit (BiSS-C; none without one), and the bits it clocked in, in order: behind START for BiSS-C. -/
structure SerialFrame where
  ready : Bool
  start : Option Nat
  bits : List Bool
  deriving DecidableEq, Repr

/-- A slot record of a drive-link SCHED frame (spec 10 Table 10-4): switch states at the boundary and four edge times in
ticks, 0xFF_FFFF = no such edge. -/
structure SlotRec where
  sth : Bool
  stl : Bool
  hon : BitVec 24
  hoff : BitVec 24
  lon : BitVec 24
  loff : BitVec 24
  deriving DecidableEq, Repr

/-- A SCHED frame (spec 10 Table 10-3, R250): release, forced, sequence, period index and the sixteen slot records in
the order axis 0 slot A to axis 3 slot D. -/
structure SchedFrame where
  rel : Bool
  forced : Bool
  seq : Byte
  pidx : BitVec 16
  slots : List SlotRec
  deriving DecidableEq, Repr

/-- What a trip event reports (spec 09 R232, 07 R182): the level of pin TRIPn or TRIPG(g), or that the over-current filter of input k of
the axis has taken the modulator bits `bits`, newest first: its
result rests on the first 2·FOSR − 1 of them. -/
inductive TripSrc where
  | pin (level : Bool)
  | overCurrent (k : Fin 3) (bits : List Bool)
  deriving DecidableEq, Repr

/-- Levels of the data line SDD of one sense input at the edges of its modulator clock since the last period centre of the group, up to the end of the
sample window, oldest first (spec 07 R175, R177): at the rising edges and at the falling ones. -/
structure SdRaw where
  rise : List Bool
  fall : List Bool
  deriving DecidableEq, Repr

/-- What a device appends to ENUM (spec 15 Table 15-1, R362, R373): slot size in bytes, point words in its slot, T_R in ns,
HEALREQ. -/
structure RingDev where
  slot : Nat
  npts : Nat
  tr : Nat
  heal : Bool
  deriving DecidableEq, Repr

/-- What CONFIG brings a device (spec 15 Table 15-1, R361, R370): the devices in ascending address, the master's RING_CFG and
WAKE_STEP, the master's ship time, and this device's forward and reverse path delays in ps. -/
structure RingSetup where
  devs : List RingDev
  cfg : Word
  step : Nat
  time : Nat
  fwd : Nat
  back : Nat
  deriving DecidableEq, Repr

/-- A latch record in a slot (spec 15 R366, 04 Table 4-4): axis, kind (true = actual position), its eight words. -/
structure RingRec where
  axis : Fin 16
  act : Bool
  words : List Word
  deriving DecidableEq, Repr

/-- A slot as a device finds it (spec 15 Table 15-3): header fields, records, points, and the CRC-32 in its last four bytes. -/
structure RingSlot where
  addr : BitVec 12
  valid : Bool
  crc : Word
  alert : Bool
  mode : BitVec 3
  relay : Bool
  looped : Bool
  recs : List RingRec
  pts : List Word
  deriving DecidableEq, Repr

/-- A mailbox packet in a frame (spec 15 R375): source address, destination, broadcast, TYPE, the items after the header,
and its CRC-32. -/
structure MailPkt where
  src : BitVec 12
  dest : BitVec 12
  bc : Bool
  kind : BitVec 3
  items : List Word
  crc : Word
  deriving DecidableEq, Repr

/-- A ring frame (spec 15 Table 15-2): number, DIR (true = reverse), FOLD, UNFOLD, WAVE, t_M and t_w in ns, the CRC-32 of the
header, the slots and the mailbox area. -/
structure RingFrame where
  j : BitVec 16
  back : Bool
  fold : Bool
  unfold : Bool
  wave : Bool
  tM : Nat
  tw : Nat
  crc : Word
  slots : List RingSlot
  mail : List MailPkt
  deriving DecidableEq, Repr

/-- A received CAN frame (spec 16 R391, R397-R402): identifier, remote frame or not, format bits, DLC, payload, and the ship time
of its start. -/
structure CanFrame where
  id : BitVec 29
  rtr : Bool
  xtd : Bool
  fdf : Bool
  brs : Bool
  esi : Bool
  dlc : BitVec 4
  data : List Byte
  sof : Nat
  deriving DecidableEq, Repr

/-- The fields of a slot header whose marker, format version and CRC are good (spec 19 Table 19-2). -/
structure SlotHdr where
  pkg : Byte
  mode : BitVec 3
  qdiv : Byte
  gen : Word
  len : Word
  crc : Word
  build : Word
  deriving DecidableEq, Repr

/-- What the boot loader finds at BOOT (spec 19 R466-R477, 15 R360): log2 of the flash size, the 64 header bytes of the two slots, the
RINGMASTER ball, the result of the Helm ROM CRC and the ROM's build. -/
structure BootView where
  size : Nat
  slotA : List Byte
  slotB : List Byte
  ringMaster : Bool
  romOk : Bool
  build : Word
  deriving DecidableEq, Repr

/-- An image record of a TYPE that Table 19-3 does not list (spec 19 R471): TYPE, FLAGS, the stored payload and the CRC. -/
structure OtherRec where
  ty : BitVec 16
  flags : BitVec 16
  body : List Byte
  crc : Word
  deriving DecidableEq, Repr

/-- The head of an image record (spec 19 R471, R472): the records of unlisted TYPE stored before it, its FLAGS, stored length in bytes
and CRC. The payload words stand beside it, the last one padded with zero bytes. -/
structure RecHead where
  before : List OtherRec
  flags : BitVec 16
  len : Nat
  crc : Word
  deriving DecidableEq, Repr

/-- The commands: one constructor per row of spec/opcode_table.json, in its order. -/
inductive Instr where
  /-- POWER_UP (R493). -/
  | powerUp
  /-- RAIL_TMO (R493). -/
  | railTmo (r : Fin 5)
  /-- BROWNOUT (R494). -/
  | brownout (c : Fin 3) (r : Fin 5)
  /-- RESETN_EXTERNAL_LOW (R493). -/
  | resetnExternalLow
  /-- RESETN_RELEASE (R479). -/
  | resetnRelease (v : BootView)
  /-- FLASH_NO_RESPONSE (R468). -/
  | flashNoResponse (stage : Fin 3) (t : Nat)
  /-- SEAL_IN_FORCE (R37). -/
  | sealInForce (code : BitVec 3) (t : Nat)
  /-- REG (R473). -/
  | reg (h : RecHead) (p : List Word) (t : Nat)
  /-- MEM (R473). -/
  | mem (h : RecHead) (p : List Word) (t : Nat)
  /-- KERNEL (R473). -/
  | kernel (h : RecHead) (p : List Word) (t : Nat)
  /-- POINTS (R473). -/
  | points (h : RecHead) (p : List Word) (t : Nat)
  /-- PROT (R335). -/
  | prot (h : RecHead) (p : List Word) (t : Nat)
  /-- QUEUE (R355). -/
  | queue (h : RecHead) (p : List Word) (t : Nat)
  /-- CANMAP (R472). -/
  | canmap (h : RecHead) (p : List Word) (t : Nat)
  /-- RINGMAP (R502). -/
  | ringmap (h : RecHead) (p : List Word) (t : Nat)
  /-- OWNER (R43). -/
  | owner (h : RecHead) (p : List Word) (t : Nat)
  /-- SAFETY (R457). -/
  | safety (h : RecHead) (p : List Word) (t : Nat)
  /-- PATCH (R47). -/
  | patch (h : RecHead) (p : List Word) (t : Nat)
  /-- KEYFUSE (R476). -/
  | keyfuse (h : RecHead) (p : List Word) (t : Nat)
  /-- SIGN (R475). -/
  | sign (h : RecHead) (p : List Word) (t : Nat)
  /-- END (R479). -/
  | imgEnd (h : RecHead) (t : Nat)
  /-- DRV_LINK_TRAINED (R253). -/
  | drvLinkTrained (t : Nat)
  /-- DRV_LINK_FAIL (R253). -/
  | drvLinkFail (stage : Nat) (t : Nat)
  /-- FIO_LINK_TRAINED (R417). -/
  | fioLinkTrained (t : Nat)
  /-- FIO_LINK_FAIL (R417). -/
  | fioLinkFail (stage : Nat) (t : Nat)
  /-- PORT_LOCK (R361). -/
  | portLock (p : Fin 2) (delay : Nat) (t : Nat)
  /-- ENUM (R361). -/
  | enum (own : Bool) (addr : Nat) (devs : List RingDev) (t : Nat)
  /-- CONFIG (R361). -/
  | config (c : RingSetup) (t : Nat)
  /-- RING_WATCH_ZERO (R361). -/
  | ringWatchZero (t : Nat)
  /-- RING_START_FAIL (R361). -/
  | ringStartFail (t : Nat)
  /-- MODE_REQ_STANDBY (R39). -/
  | modeReqStandby (t : Nat)
  /-- MODE_REQ_RUN (R39). -/
  | modeReqRun (t : Nat)
  /-- MODE_REQ_SLEEP (R500). -/
  | modeReqSleep (t : Nat)
  /-- FAULT_ACK (R58). -/
  | faultAck (t : Nat)
  /-- THAW (R60). -/
  | thaw (t : Nat)
  /-- MODE_REQ_UNDEFINED (R41). -/
  | modeReqUndefined (t : Nat)
  /-- RUN_RELEASE_WAVE (R384). -/
  | runReleaseWave (t : Nat)
  /-- OWNER_LOST (R45). -/
  | ownerLost (t : Nat)
  /-- HELM_QUEUE0_TAKE (R51). -/
  | helmQueue0Take (err : Fin 3) (t : Nat)
  /-- POSTMORTEM_WRITE_DONE (R61). -/
  | postmortemWriteDone (ok : Bool) (cause : Fin 4) (t : Nat)
  /-- AXIS_STOP_TIMEOUT (R52). -/
  | axisStopTimeout (n : Fin 16) (t : Nat)
  /-- SAFE_STOP_ENTRY (R444). -/
  | safeStopEntry (t : Nat)
  /-- PERIOD_BOUNDARY (R28). -/
  | periodBoundary (g : Fin 4) (t : Nat)
  /-- PERIOD_CENTRE (R22). -/
  | periodCentre (g : Fin 4) (t : Nat) (raws : List SdRaw)
  /-- STEP_HOLD_CURRENT (R147). -/
  | stepHoldCurrent (n : Fin 16) (t : Nat)
  /-- PWM_CENTRE_TRIGGER (R165). -/
  | pwmCentreTrigger (g : Fin 4) (t : Nat)
  /-- DUTY_DEADLINE (R23). -/
  | dutyDeadline (g : Fin 4) (t : Nat)
  /-- LATE_DUTY (R25). -/
  | lateDuty (g : Fin 4) (t : Nat)
  /-- DUTY_WD (R237). -/
  | dutyWd (g : Fin 4) (t : Nat)
  /-- EDGE_COMPUTE (R226). -/
  | edgeCompute (g : Fin 4) (t : Nat)
  /-- WATCH_BOUNDARY (R28). -/
  | watchBoundary (g : Fin 4) (t : Nat)
  /-- LATE_WATCH (R27). -/
  | lateWatch (g : Fin 4) (t : Nat)
  /-- DEVICE_BOUNDARY (R562). -/
  | deviceBoundary (t : Nat)
  /-- WATCH_TRIGGER (R165). -/
  | watchTrigger (g : Fin 4) (t : Nat)
  /-- HOME_TIMEOUT (R136). -/
  | homeTimeout (n : Fin 16) (t : Nat)
  /-- HOME_NOT_FOUND (R136). -/
  | homeNotFound (n : Fin 16) (t : Nat)
  /-- HARDSTOP_DETECT (R138). -/
  | hardstopDetect (n : Fin 16) (t : Nat)
  /-- GEAR_MASTER_STALE (R108). -/
  | gearMasterStale (n : Fin 16) (t : Nat)
  /-- SUPER_STALE (R117). -/
  | superStale (n : Fin 16) (t : Nat)
  /-- ENABLE (R563). -/
  | enable (n : Fin 16) (t : Nat)
  /-- ENABLE_CLEAR (R66). -/
  | enableClear (n : Fin 16) (t : Nat)
  /-- ACK (R57). -/
  | ack (n : Fin 16) (t : Nat)
  /-- QSTOP (R89). -/
  | qstop (n : Fin 16) (t : Nat)
  /-- QSTOP_RELEASE (R89). -/
  | qstopRelease (n : Fin 16) (t : Nat)
  /-- HOLD (R88). -/
  | hold (n : Fin 16) (t : Nat)
  /-- HOLD_RELEASE (R88). -/
  | holdRelease (n : Fin 16) (t : Nat)
  /-- CLEARQ (R73). -/
  | clearq (n : Fin 16) (t : Nat)
  /-- HOME (R132). -/
  | home (n : Fin 16) (t : Nat)
  /-- HOME_CLEAR (R133). -/
  | homeClear (n : Fin 16) (t : Nat)
  /-- GEAR (R104). -/
  | gear (n : Fin 16) (t : Nat)
  /-- GEAR_CLEAR (R105). -/
  | gearClear (n : Fin 16) (t : Nat)
  /-- SUPER (R116). -/
  | super (n : Fin 16) (t : Nat)
  /-- SUPER_CLEAR (R116). -/
  | superClear (n : Fin 16) (t : Nat)
  /-- APPEND (R73). -/
  | append (n : Fin 16) (t : Nat)
  /-- REPLACE (R85). -/
  | replace (n : Fin 16) (t : Nat)
  /-- CUT (R73). -/
  | cut (n : Fin 16) (t : Nat)
  /-- CHAIN_DISPATCH (R166). -/
  | chainDispatch (g : Fin 4) (t : Nat)
  /-- SOFTWARE_TRIGGER (R165). -/
  | softwareTrigger (v : Word)
  /-- COEFF_CONVERSION_DONE (R163). -/
  | coeffConversionDone (n : Fin 16) (t : Nat)
  /-- NOP (R298). -/
  | nop (g : Fin 4) (t : Nat)
  /-- ADD (R300). -/
  | add (g : Fin 4) (t : Nat)
  /-- SUB (R300). -/
  | sub (g : Fin 4) (t : Nat)
  /-- ABS (R300). -/
  | abs (g : Fin 4) (t : Nat)
  /-- NEG (R300). -/
  | neg (g : Fin 4) (t : Nat)
  /-- MAX (R300). -/
  | max (g : Fin 4) (t : Nat)
  /-- MIN (R300). -/
  | min (g : Fin 4) (t : Nat)
  /-- MOV (R300). -/
  | mov (g : Fin 4) (t : Nat)
  /-- AND (R300). -/
  | and (g : Fin 4) (t : Nat)
  /-- OR (R300). -/
  | or (g : Fin 4) (t : Nat)
  /-- XOR (R300). -/
  | xor (g : Fin 4) (t : Nat)
  /-- LSL (R301). -/
  | lsl (g : Fin 4) (t : Nat)
  /-- LSR (R301). -/
  | lsr (g : Fin 4) (t : Nat)
  /-- ASR (R301). -/
  | asr (g : Fin 4) (t : Nat)
  /-- CMPEQ (R300). -/
  | cmpeq (g : Fin 4) (t : Nat)
  /-- CMPLT (R300). -/
  | cmplt (g : Fin 4) (t : Nat)
  /-- CMPLE (R300). -/
  | cmple (g : Fin 4) (t : Nat)
  /-- SEL (R300). -/
  | sel (g : Fin 4) (t : Nat)
  /-- MPY (R302). -/
  | mpy (g : Fin 4) (t : Nat)
  /-- MAC (R302). -/
  | mac (g : Fin 4) (t : Nat)
  /-- MSU (R302). -/
  | msu (g : Fin 4) (t : Nat)
  /-- MPYR (R302). -/
  | mpyr (g : Fin 4) (t : Nat)
  /-- CLRA (R300). -/
  | clra (g : Fin 4) (t : Nat)
  /-- LDA (R302). -/
  | lda (g : Fin 4) (t : Nat)
  /-- ADDA (R300). -/
  | adda (g : Fin 4) (t : Nat)
  /-- SUBA (R300). -/
  | suba (g : Fin 4) (t : Nat)
  /-- SHA (R302). -/
  | sha (g : Fin 4) (t : Nat)
  /-- MOVXA (R302). -/
  | movxa (g : Fin 4) (t : Nat)
  /-- EXP (R302). -/
  | exp (g : Fin 4) (t : Nat)
  /-- NORM (R302). -/
  | norm (g : Fin 4) (t : Nat)
  /-- BCAST (R300). -/
  | bcast (g : Fin 4) (t : Nat)
  /-- EXTR (R300). -/
  | extr (g : Fin 4) (t : Nat)
  /-- SADD (R304). -/
  | sadd (g : Fin 4) (t : Nat)
  /-- SSUB (R304). -/
  | ssub (g : Fin 4) (t : Nat)
  /-- SAND (R304). -/
  | sand (g : Fin 4) (t : Nat)
  /-- SOR (R304). -/
  | sor (g : Fin 4) (t : Nat)
  /-- SXOR (R304). -/
  | sxor (g : Fin 4) (t : Nat)
  /-- SLSL (R304). -/
  | slsl (g : Fin 4) (t : Nat)
  /-- SLSR (R304). -/
  | slsr (g : Fin 4) (t : Nat)
  /-- SASR (R304). -/
  | sasr (g : Fin 4) (t : Nat)
  /-- SCMP (R304). -/
  | scmp (g : Fin 4) (t : Nat)
  /-- SMOV (R300). -/
  | smov (g : Fin 4) (t : Nat)
  /-- SLDI (R300). -/
  | sldi (g : Fin 4) (t : Nat)
  /-- SLDH (R300). -/
  | sldh (g : Fin 4) (t : Nat)
  /-- SADDI (R304). -/
  | saddi (g : Fin 4) (t : Nat)
  /-- SRD (R305). -/
  | srd (g : Fin 4) (t : Nat)
  /-- SWR (R305). -/
  | swr (g : Fin 4) (t : Nat)
  /-- SWRI (R305). -/
  | swri (g : Fin 4) (t : Nat)
  /-- LDB (R306). -/
  | ldb (g : Fin 4) (t : Nat)
  /-- LDV (R306). -/
  | ldv (g : Fin 4) (t : Nat)
  /-- STL (R306). -/
  | stl (g : Fin 4) (t : Nat)
  /-- STV (R306). -/
  | stv (g : Fin 4) (t : Nat)
  /-- LDS (R307). -/
  | lds (g : Fin 4) (t : Nat)
  /-- STS (R307). -/
  | sts (g : Fin 4) (t : Nat)
  /-- STAV (R306). -/
  | stav (g : Fin 4) (t : Nat)
  /-- DUTY (R309). -/
  | duty (g : Fin 4) (t : Nat)
  /-- EXT_LOAD (R310). -/
  | extLoad (g : Fin 4) (t : Nat)
  /-- EXT_STORE (R310). -/
  | extStore (g : Fin 4) (t : Nat)
  /-- EXT_READ_RETURN (R287). -/
  | extReadReturn (g : Fin 4) (err : Fin 3) (t : Nat)
  /-- POSTED_WRITE_DRAIN (R290). -/
  | postedWriteDrain (g : Fin 4) (t : Nat)
  /-- LOOP (R312). -/
  | loop (g : Fin 4) (t : Nat)
  /-- BR (R313). -/
  | br (g : Fin 4) (t : Nat)
  /-- JMP (R313). -/
  | jmp (g : Fin 4) (t : Nat)
  /-- RET (R314). -/
  | ret (g : Fin 4) (t : Nat)
  /-- LDAG (R311). -/
  | ldag (g : Fin 4) (t : Nat)
  /-- SX_RUN (R291). -/
  | sxRun (m : Fin 10) (g : Fin 4) (v : Word) (t : Nat)
  /-- SX_RESTART (R294). -/
  | sxRestart (m : Fin 10) (g : Fin 4) (v : Word) (t : Nat)
  /-- SX_PROBE_WRITE (R296). -/
  | sxProbeWrite (m : Fin 10) (g : Fin 4) (v : Word) (t : Nat)
  /-- CHART_WRITE (R330). -/
  | chartWrite (m : Fin 10) (i : BitVec 17) (v : Word) (own : Bool) (t : Nat)
  /-- CHART_EVEN_READ (R326). -/
  | chartEvenRead (m : Fin 10) (k : BitVec 16) (err : Fin 3) (t : Nat)
  /-- SNAPSHOT_READ (R209). -/
  | snapshotRead (m : Fin 10) (a : BitVec 30) (t : Nat)
  /-- COMMIT_ARM (R9). -/
  | commitArm (m : Fin 10) (a : BitVec 30) (v : Word) (t : Nat)
  /-- REGISTER_WRITE (R7). -/
  | registerWrite (m : Fin 10) (a : BitVec 30) (v : Word) (t : Nat)
  /-- QUE_PUSH (R346). -/
  | quePush (m : Fin 10) (q : Fin 64) (prio : Fin 8) (fin : Bool) (w : Word) (t : Nat)
  /-- QUE_POP (R347). -/
  | quePop (m : Fin 10) (q : Fin 64) (err : Fin 3) (t : Nat)
  /-- QUE_READ_COMPLETE (R348). -/
  | queReadComplete (q : Fin 64) (err : Fin 3) (t : Nat)
  /-- QUE_SPILL (R349). -/
  | queSpill (q : Fin 64) (k : Fin 9) (t : Nat)
  /-- QUE_REFILL (R349). -/
  | queRefill (q : Fin 64) (err : Fin 3) (t : Nat)
  /-- PWM_FORCE_WRITE (R230). -/
  | pwmForceWrite (n : Fin 16) (v : Word)
  /-- PWM_TRIPCLR (R235). -/
  | pwmTripclr (v : Word)
  /-- TRIP_ACTIVE (R233): at t the trip source has shown for `held` ticks what it shows with this event. -/
  | tripActive (u : Fin 20) (src : TripSrc) (held : Nat) (t : Nat)
  /-- OUT_INTERLOCK (R229). -/
  | outInterlock (n : Fin 16) (slot : Fin 4) (t : Nat)
  /-- SD_STUCK (R180). -/
  | sdStuck (n : Fin 16) (k : Fin 3) (clocks : Nat) (t : Nat)
  /-- HK_CONVERSION (R184). -/
  | hkConversion (c : Fin 24) (raw : BitVec 12) (t : Nat)
  /-- HELM_1MS_UPDATE (R465). -/
  | helm1msUpdate (t : Nat)
  /-- ENC_EDGE (R193): at sample t the lines that change have shown their levels for `held` consecutive samples. -/
  | encEdge (c : Fin 16) (lines : BitVec 3) (held : Nat) (t : Nat)
  /-- CMP_PULSE_END (R211). -/
  | cmpPulseEnd (m : Fin 8) (t : Nat)
  /-- LATCH_PIN_EDGE (R207): at t the pin has held its new level for `held` ticks of 2 ns. -/
  | latchPinEdge (m : Fin 8) (rising : Bool) (held : Nat) (t : Nat)
  /-- ENC_SWLATCH (R207). -/
  | encSwlatch (v : Word)
  /-- ENC_ARM (R207). -/
  | encArm (v : Word)
  /-- ENC_WIRE (R201): up to t the wires of a pair have read one level for `run` consecutive samples, and still do or not. -/
  | encWire (c : Fin 16) (pair : Fin 3) (run : Nat) (lasts : Bool) (t : Nat)
  /-- SERIAL_POLL_START (R204). -/
  | serialPollStart (c : Fin 16) (t : Nat)
  /-- SERIAL_FRAME_DONE (R205). -/
  | serialFrameDone (c : Fin 16) (t : Nat) (r : SerialFrame)
  /-- SCHED (R251). -/
  | sched (bytes : List Byte) (t : Nat)
  /-- OFF (R255). -/
  | drvOff (copy1 : List Byte) (copy2 : List Byte) (t : Nat)
  /-- CFG (R268). -/
  | cfg (bytes : List Byte) (t : Nat)
  /-- IDLE (R250). -/
  | idle (bytes : List Byte) (t : Nat)
  /-- STAT (R250). -/
  | stat (volts : List Nat) (bytes : List Byte) (t : Nat)
  /-- DRV_LINK_LOST (R254). -/
  | drvLinkLost (clock : Bool) (t : Nat)
  /-- DRV_DESAT (R260). -/
  | drvDesat (n : Fin 4) (b : Fin 8) (mv : Nat) (dur : Nat) (t : Nat)
  /-- DRV_DSCLR (R261). -/
  | drvDsclr (v : Word)
  /-- BS_LOW (R262). -/
  | bsLow (n : Fin 4) (k : Fin 4) (mv : Nat) (dur : Nat) (t : Nat)
  /-- VGD_OUT_OF_RANGE (R247). -/
  | vgdOutOfRange (dv : Nat) (t : Nat)
  /-- DRV_VBR_OV (R248). -/
  | drvVbrOv (n : Fin 4) (dv : Nat) (t : Nat)
  /-- DRV_OVERTEMP (R249). -/
  | drvOvertemp (t : Nat)
  /-- SHOOT_GATE (R258). -/
  | shootGate (n : Fin 4) (b : Fin 8) (t : Nat)
  /-- PRECHARGE_END (R263). -/
  | prechargeEnd (n : Fin 4) (volts : List Nat) (t : Nat)
  /-- DRV_RB_WRITE (R264). -/
  | drvRbWrite (v : Word)
  /-- RB_FAULT (R264). -/
  | rbFault (dv : Nat) (dur : Nat) (t : Nat)
  /-- FIO_DOWNSTREAM_FRAME (R416). -/
  | fioDownstreamFrame (t : Nat)
  /-- FIO_UPSTREAM_FRAME (R421). -/
  | fioUpstreamFrame (raw : BitVec 32) (dv : Nat) (temp : BitVec 12) (iload : List Nat) (bytes : List Byte) (t : Nat)
  /-- FIELD_GOOD_SETTLED (R415). -/
  | fieldGoodSettled (t : Nat)
  /-- FIO_UPSTREAM_MISSING (R418). -/
  | fioUpstreamMissing (cause : Nat) (t : Nat)
  /-- FIO_DOWNSTREAM_SILENT (R419). -/
  | fioDownstreamSilent (t : Nat)
  /-- DI_FILTER_CHANGE (R420). -/
  | diFilterChange (i : Fin 32) (samples : List Bool) (t : Nat)
  /-- DO_OVERLOAD (R425). -/
  | doOverload (o : Fin 16) (cur dur : Nat) (t : Nat)
  /-- DO_OVERTEMP (R425). -/
  | doOvertemp (o : Fin 16) (t : Nat)
  /-- DO_OPENLOAD (R425). -/
  | doOpenload (o : Fin 16) (cur dur : Nat) (t : Nat)
  /-- DO_OPENOFF (R425). -/
  | doOpenoff (o : Fin 16) (dv dur : Nat) (t : Nat)
  /-- DO_BACKFEED (R425). -/
  | doBackfeed (o : Fin 16) (dv dur : Nat) (t : Nat)
  /-- TPS_PULSE (R428). -/
  | tpsPulse (n : Fin 4) (start : Bool) (raw : BitVec 32) (t : Nat)
  /-- TPS_OVERLOAD (R428). -/
  | tpsOverload (n : Fin 4) (dur : Nat) (t : Nat)
  /-- TPS_RETRY (R428). -/
  | tpsRetry (n : Fin 4) (t : Nat)
  /-- FIO_FORCE_WRITE (R430). -/
  | fioForceWrite (v : Word)
  /-- SAFETY_CYCLE (R441). -/
  | safetyCycle (fb : BitVec 4) (den : Bool) (code : BitVec 3) (t : Nat)
  /-- SAFE_DEMAND (R443). -/
  | safeDemand (k : Fin 8) (t : Nat)
  /-- SS1_RAMP_END (R445). -/
  | ss1RampEnd (g : Fin 4) (t : Nat)
  /-- SS1_TIMEOUT (R445). -/
  | ss1Timeout (g : Fin 4) (t : Nat)
  /-- SF_HELM_WD (R451). -/
  | sfHelmWd (t : Nat)
  /-- SF_CLOCK (R451). -/
  | sfClock (lost : Bool) (dev dur : Nat) (t : Nat)
  /-- SAFETY_MEMORY_TEST (R451). -/
  | safetyMemoryTest (rom : Bool) (ok : Bool) (t : Nat)
  /-- SAFETY_PARAM_CRC (R451). -/
  | safetyParamCrc (w : Fin 128) (x : Word) (t : Nat)
  /-- SF_STO_FB (R451). -/
  | sfStoFb (g : Fin 4) (level : Bool) (t : Nat)
  /-- SF_DEN_FB (R451). -/
  | sfDenFb (level : Bool) (t : Nat)
  /-- SBC_DELAY_EXPIRY (R448). -/
  | sbcDelayExpiry (b : Fin 4) (t : Nat)
  /-- SBC_FEEDBACK (R449). -/
  | sbcFeedback (b : Fin 4) (t : Nat)
  /-- SAFETY_RESET (R450). -/
  | safetyReset (t : Nat)
  /-- STOTEST (R462). -/
  | stotest (m : BitVec 4) (t : Nat)
  /-- STO_TEST_END (R462). -/
  | stoTestEnd (t : Nat)
  /-- STO_TEST_DUE (R462). -/
  | stoTestDue (g : Fin 4) (t : Nat)
  /-- SAFE_EDIT_WRITE (R458). -/
  | safeEditWrite (ctl : Word) (v : Word) (t : Nat)
  /-- SAFE_EDIT_CONFIRM (R459). -/
  | safeEditConfirm (ctl : Word) (v : Word) (t : Nat)
  /-- SAFE_RECORD_WRITTEN (R459). -/
  | safeRecordWritten (ok : Bool) (stage : Nat) (t : Nat)
  /-- RING_FRAME_LAUNCH (R359). -/
  | ringFrameLaunch (t : Nat)
  /-- RING_FRAME_PASS (R366). -/
  | ringFramePass (p : Fin 2) (f : RingFrame) (t : Nat)
  /-- RING_WATCH_BOUNDARY (R386). -/
  | ringWatchBoundary (t : Nat)
  /-- MAILBOX_PACKET_TAKE (R374). -/
  | mailboxPacketTake (err : Fin 3) (t : Nat)
  /-- SPAN_DOWN (R378). -/
  | spanDown (p : Fin 3) (t : Nat)
  /-- SPAN_RELOCK (R382). -/
  | spanRelock (p : Fin 3) (delay : Nat) (t : Nat)
  /-- RING_LOST (R383). -/
  | ringLost (t : Nat)
  /-- RING_STALE (R368). -/
  | ringStale (a : BitVec 12) (t : Nat)
  /-- TLOCK (R371). -/
  | tlock (t : Nat)
  /-- RING_TIME_ERR (R371). -/
  | ringTimeErr (t : Nat)
  /-- RING_WAKE_PATTERN (R385). -/
  | ringWakePattern (t : Nat)
  /-- CAN_FRAME_RECEIVED (R397). -/
  | canFrameReceived (c : Fin 2) (f : CanFrame) (t : Nat)
  /-- CAN_TX_START (R403). -/
  | canTxStart (c : Fin 2) (torn : Bool) (t : Nat)
  /-- CAN_TX_COMPLETE (R405). -/
  | canTxComplete (c : Fin 2) (sof : Nat) (t : Nat)
  /-- CAN_BUS_ERROR (R394). -/
  | canBusError (c : Fin 2) (tec : BitVec 9) (rec_ : BitVec 8) (lec : Fin 7) (dlec : Fin 7) (t : Nat)
  /-- CAN_CYCLIC_TX (R401). -/
  | canCyclicTx (c : Fin 2) (t : Nat)
  /-- CAN_INIT_SET (R394). -/
  | canInitSet (m : Fin 10) (c : Fin 2) (t : Nat)
  /-- CAN_INIT_ENTERED (R394). -/
  | canInitEntered (c : Fin 2) (t : Nat)
  /-- CAN_INIT_CLEAR (R394). -/
  | canInitClear (m : Fin 10) (c : Fin 2) (t : Nat)
  /-- CAN_ACTIVE (R394). -/
  | canActive (c : Fin 2) (t : Nat)
  /-- BOREC (R406). -/
  | borec (m : Fin 10) (c : Fin 2) (t : Nat)
  /-- CAN_RECOVERED (R406). -/
  | canRecovered (c : Fin 2) (t : Nat)
  /-- STBREQ (R409). -/
  | stbreq (m : Fin 10) (c : Fin 2) (on : Bool) (t : Nat)
  /-- CAN_TXREQ (R401). -/
  | canTxreq (m : Fin 10) (c : Fin 2) (k : Fin 4) (v : Word) (t : Nat)
  /-- CAN_WAKE (R409). -/
  | canWake (c : Fin 2) (held : Nat) (t : Nat)
  /-- WAKE_PIN (R501). -/
  | wakePin (level : Bool) (held : Nat) (t : Nat)
  /-- SLEEP_ENTERED (R500). -/
  | sleepEntered (t : Nat)
  /-- BEGIN (R483). -/
  | updBegin (seq : BitVec 16) (len : Word) (crc : Word) (t : Nat)
  /-- DATA (R483). -/
  | updData (seq : BitVec 16) (ofs : Word) (cnt : Word) (bytes : List Byte) (t : Nat)
  /-- FINISH (R483). -/
  | updFinish (seq : BitVec 16) (t : Nat)
  /-- ABORT (R484). -/
  | updAbort (seq : BitVec 16) (t : Nat)
  /-- UPDATE_TIMEOUT (R484). -/
  | updateTimeout (t : Nat)
  /-- FLASH_OPERATION_DONE (R488). -/
  | flashOperationDone (ok : Bool) (ofs op : Word) (t : Nat)
  /-- ADMISSION_EVALUATION (R503). -/
  | admissionEvaluation (t : Nat)
  /-- START_TIMEOUT (R505). -/
  | startTimeout (t : Nat)
  /-- PMU_START_BUDGET_WRITE (R506). -/
  | pmuStartBudgetWrite (v : Word)
  /-- REFCLK_LOST (R495). -/
  | refclkLost (t : Nat)
  /-- DPLL_UNLOCK (R496). -/
  | dpllUnlock (i : Fin 9) (t : Nat)
  /-- CHRON_INIT_HI (R498). -/
  | chronInitHi (m : Fin 10) (v : Word) (t : Nat)
  /-- PROT_LOCK (R335). -/
  | protLock (m : Fin 10) (v : Word) (t : Nat)
  /-- PROF_CLIPPK_WRITE (R119). -/
  | profClippkWrite (m : Fin 10) (n : Fin 16) (v : Word) (t : Nat)
  /-- LOOP_LOADCLR (R172). -/
  | loopLoadclr (v : Word)
  /-- SCRUB_READ (R322). -/
  | scrubRead (w : BitVec 30) (err : Fin 3) (t : Nat)
  /-- EDRAM_REFRESH (R323). -/
  | edramRefresh (row : Nat) (t : Nat)
  /-- LOG_ENTRY_WRITE (R552). -/
  | logEntryWrite (err : Fin 3) (t : Nat)
  /-- LOG_REQUEST (R556). -/
  | logRequest (t : Nat)
  /-- TESTEN_HIGH (R525). -/
  | testenHigh
  /-- EXTEST (R529). -/
  | extest (cells : List Bool)
  /-- IDCODE (R527). -/
  | idcode
  /-- SAMPLE_PRELOAD (R527). -/
  | samplePreload (cap : List Bool) (cells : List Bool)
  /-- CLAMP (R529). -/
  | clamp
  /-- HIGHZ (R529). -/
  | highz
  /-- BYPASS (R527). -/
  | bypass
  /-- UNDEFINED_ENCODING (R318). -/
  | undefinedEncoding (g : Fin 4) (t : Nat)
  /-- VGD_BACK_IN_RANGE (R247). -/
  | vgdBackInRange (dv : Nat) (t : Nat)
  /-- VBR_BACK_BELOW_64V (R248). -/
  | vbrBackBelow64v (n : Fin 4) (t : Nat)
  /-- OVP_RELEASE (R491). -/
  | ovpRelease
  /-- RAIL_SEQUENCE_RESTART (R493). -/
  | railSequenceRestart
  /-- WAKE_STEP_ELAPSED (R385). -/
  | wakeStepElapsed (t : Nat)
  /-- TESTEN_RELEASE (R525). -/
  | testenRelease
  /-- TEST_LOGIC_RESET (R529). -/
  | testLogicReset
  /-- DO_DIAGNOSTIC_CLEAR (R425). -/
  | doDiagnosticClear (o : Fin 16) (k : Fin 5) (x dur : Nat) (t : Nat)
  deriving DecidableEq, Repr

end Sys2Proof
end

