-- ==== Sys2Proof/WellFormed.lean ====
section
/-!
DEFINITION. Well-formedness: of the slots of a Sextant word, which of its encodings are defined (spec 12 R299, R306, R308, R317,
R318); of commands, what their operands must satisfy (frames of CAN and ring, packets).
-/
namespace Sys2Proof

/-! ### Sextant words -/

/-- Operations that write an accumulator selected by D. -/
def LaneK.toAcc : LaneK → Bool
  | .mpy | .mac | .msu | .clra | .lda | .adda | .suba => true
  | _ => false
/-- Operations that select an accumulator by A. -/
def LaneK.fromAcc : LaneK → Bool
  | .movxa | .exp | .norm => true
  | _ => false
/-- Operations without a lane destination (R303). -/
def LaneK.noLane : LaneK → Bool
  | .cmpeq | .cmplt | .cmple | .extr => true
  | _ => false
/-- The AUX values an operation may carry (R299). -/
def LaneK.auxOk (k : LaneK) (aux : Nat) : Bool :=
  match k with
  | .adda | .suba | .extr => decide (aux < 4)
  | .lsl | .lsr | .asr => decide (aux < 2)
  | .norm => aux == 0 || aux == 8
  | _ => aux == 0

/-- Special registers that may be written: all but TIX and the reserved numbers (Table 12-4). -/
def srnWritable (n : Nat) : Bool := decide (n < 0x2A) && n != 0x22

/-- The arithmetic slot is defined. -/
def Arith.wf : Arith → Bool
  | .nop _ => true
  | .lane k fmt msk d a _ aux =>
    fmt.val != 3 && k.auxOk aux.val && !(msk && k.noLane) && !(k.toAcc && decide (4 ≤ d.val)) && !(k.fromAcc && decide (4 ≤ a.val)) &&
      !(k == .bcast && decide (16 ≤ a.val)) && !(k == .extr && decide (16 ≤ d.val))
  | .sha fmt _ d _ low => fmt.val != 3 && decide (d.val < 4) && low.val == 0
  | .scal k _ _ _ i _ low => low.val == 0 && !(i && !(k == .slsl || k == .slsr || k == .sasr))
  | .simm _ _ gap _ => gap.val == 0
  | .srd srn _ low => decide (srn.val < 0x2A) && low.val == 0
  | .swr srn _ low => srnWritable srn.val && low.val == 0
  | .swri srn _ => srnWritable srn.val

/-- A memory operation is defined (Table 12-5). -/
def MemOp.wf (m : MemOp) : Bool :=
  match m.k with
  | .ldb | .ldv | .stv => m.lf.val == 0 && m.idx.val == 0
  | .stl => m.idx.val == 0
  | .lds | .sts => decide (m.reg.val < 16 ∧ m.lf.val < 2) && !(m.lf.val == 1 && m.pm)
  | .stav => decide (m.reg.val < 4) && m.lf.val != 3 && m.idx.val == 0

/-- The X-move slot is defined. -/
def XSlot.wf : XSlot → Bool
  | .none => true
  | .mem m => m.wf

/-- The Y-move/control slot is defined. Its IDX has three bits. -/
def YSlot.wf : YSlot → Bool
  | .none => true
  | .mem m => m.wf && decide (m.idx.val < 8)
  | .duty _ port v _ => !v || decide (port.val < 4) || port.val == 0x10
  | .ext _ _ _ _ _ low => low.val == 0
  | .loopI _ _ _ => true
  | .loopS _ _ _ => true
  | .br cond _ => cond.val != 15
  | .jmp top _ => !top
  | .ret low => low.val == 0
  | .ldag _ _ => true

/-- A register that a slot may write: lane register X, accumulator, scalar, or a special register by its number. -/
inductive SxReg where
  | x (n : Nat)
  | acc (n : Nat)
  | s (n : Nat)
  | sp (n : Nat)
  deriving DecidableEq, Repr

/-- Registers the arithmetic slot writes. -/
def Arith.writes : Arith → List SxReg
  | .nop _ => []
  | .lane k _ _ d a _ _ =>
    if k.toAcc then [.acc d.val] else if k == .norm then [.acc a.val] else if k == .extr then [.s d.val]
    else if k.noLane then [] else [.x d.val]
  | .sha _ _ d _ _ => [.acc d.val]
  | .scal k sd _ _ _ _ _ => if k == .scmp then [] else [.s sd.val]
  | .simm _ sd _ _ => [.s sd.val]
  | .srd _ sd _ => [.s sd.val]
  | .swr srn _ _ => [.sp srn.val]
  | .swri srn _ => [.sp srn.val]

/-- Registers a memory operation loads. -/
def MemOp.loads (m : MemOp) : List SxReg :=
  match m.k with
  | .ldb | .ldv => [.x m.reg.val]
  | .lds => [.s m.reg.val]
  | _ => []

/-- Pointer that a memory operation post-modifies. -/
def MemOp.post (m : MemOp) : Option Nat := if m.pm then some m.p.val else none

/-- Registers the X-move slot loads. -/
def XSlot.writes : XSlot → List SxReg
  | .none => []
  | .mem m => m.loads
/-- Pointer the X-move slot post-modifies. -/
def XSlot.post : XSlot → Option Nat
  | .none => Option.none
  | .mem m => m.post

/-- Registers the Y slot writes, its post-modified pointer apart. -/
def YSlot.writes : YSlot → List SxReg
  | .mem m => m.loads
  | .ext data addr st pi sb _ => (if st then [] else [.s data.val] ++ if sb then [.sp 0x29] else []) ++ if pi then [.s addr.val] else []
  | .ldag n _ => [.sp n.val, .sp (8 + n.val), .sp (16 + n.val), .sp (24 + n.val)]
  | _ => []
/-- Pointer the Y slot post-modifies. -/
def YSlot.post : YSlot → Option Nat
  | .mem m => m.post
  | _ => Option.none

/-- Two slots write one register (R317); both move slots may post-modify one pointer. -/
def SxWord.clash (w : SxWord) : Bool :=
  let a := w.ar.writes
  let x := w.xs.writes
  let y := w.ys.writes
  let p := w.xs.post.toList ++ w.ys.post.toList
  a.any (fun r => x.contains r || y.contains r) || x.any (fun r => y.contains r) ||
    p.any (fun n => a.contains (.sp n) || y.contains (.sp n))

/-- A word is defined (R318). -/
def SxWord.wf (w : SxWord) : Bool := w.ar.wf && w.xs.wf && w.ys.wf && !w.clash

/-! ### Commands -/

/-- A mailbox packet has at most 63 items after its header (15 Table 15-6). -/
def MailPkt.wf (p : MailPkt) : Bool := decide (p.items.length ≤ 63)
/-- A latch record has eight words (04 Table 4-4). -/
def RingRec.wf (r : RingRec) : Bool := r.words.length == 8
/-- A slot carries at most six records (15 R367). -/
def RingSlot.wf (x : RingSlot) : Bool := decide (x.recs.length ≤ 6) && x.recs.all RingRec.wf
/-- A ring frame: its slots and packets. -/
def RingFrame.wf (f : RingFrame) : Bool := f.slots.all RingSlot.wf && f.mail.all MailPkt.wf
/-- A CAN frame: at most 64 bytes in an FD frame, 8 in another (16 R391). -/
def CanFrame.wf (f : CanFrame) : Bool := decide (f.data.length ≤ if f.fdf then 64 else 8)
/-- What BOOT finds: a flash of 2 to 128 MiB with two slot headers of 64 bytes (19 R466, R470). -/
def BootView.wf (v : BootView) : Bool := decide (21 ≤ v.size ∧ v.size ≤ 27) && v.slotA.length == 64 && v.slotB.length == 64
/-- A record of unlisted TYPE: no TYPE of Table 19-3, and a length that fits LEN (19 R471). -/
def OtherRec.wf (o : OtherRec) : Bool :=
  !(decide ((1 ≤ o.ty.toNat ∧ o.ty.toNat ≤ 0xC) ∨ o.ty.toNat = 0xFE ∨ o.ty.toNat = 0xFF)) && decide (o.body.length < 2 ^ 32)
/-- A record's head with its payload words: as many as LEN takes (19 R471). -/
def RecHead.wf (h : RecHead) (p : List Word) : Bool := h.before.all OtherRec.wf && decide (h.len < 2 ^ 32) && p.length == (h.len + 3) / 4

/-- A command is well-formed. The other operands are bounded by their types. -/
def Instr.wf : Instr → Bool
  | .canFrameReceived _ f _ => f.wf
  | .ringFramePass _ f _ => f.wf
  | .resetnRelease v => v.wf
  | .stat volts _ _ => volts.length == 16
  | .prechargeEnd _ volts _ => volts.length == 4
  | .fioUpstreamFrame _ _ _ iload _ _ => iload.length == 16
  | .reg h p _ | .mem h p _ | .kernel h p _ | .points h p _ | .prot h p _ | .queue h p _ | .canmap h p _ | .ringmap h p _ => h.wf p
  | .owner h p _ | .safety h p _ | .patch h p _ | .keyfuse h p _ | .sign h p _ => h.wf p
  | .imgEnd h _ => h.wf [] && h.len == 0
  | _ => true

end Sys2Proof
end

