-- ==== Sys2Proof/Decode.lean ====
section
/-!
DEFINITION. Decoding: of a Sextant program word (spec 12), total and rejecting what R318 calls undefined, with the encoder beside it;
and of a command by the bits of the opcode table, which gives its rows none.
-/
namespace Sys2Proof

/-! ### Fields -/

/-- Bits [lo+n-1 : lo] of a number. -/
def nf (w lo n : Nat) : Nat := w / 2 ^ lo % 2 ^ n
/-- A field as a bounded number. -/
def ff (k : Nat) [NeZero k] (w lo : Nat) : Fin k := Fin.ofNat k (w / 2 ^ lo)
/-- One bit. -/
def fb (w lo : Nat) : Bool := w / 2 ^ lo % 2 == 1
/-- One or zero. -/
def bn (b : Bool) : Nat := if b then 1 else 0

/-! ### Operation codes (Table 12-3, Table 12-5) -/

/-- OPC of the lane operations; SHA, 0x1A, has a form of its own. -/
def LaneK.code : LaneK → Nat
  | .add => 0x01 | .sub => 0x02 | .abs => 0x03 | .neg => 0x04 | .max => 0x05 | .min => 0x06 | .mov => 0x07
  | .and => 0x08 | .or => 0x09 | .xor => 0x0A | .lsl => 0x0B | .lsr => 0x0C | .asr => 0x0D
  | .cmpeq => 0x0E | .cmplt => 0x0F | .cmple => 0x10 | .sel => 0x11 | .mpy => 0x12 | .mac => 0x13 | .msu => 0x14
  | .mpyr => 0x15 | .clra => 0x16 | .lda => 0x17 | .adda => 0x18 | .suba => 0x19 | .movxa => 0x1B | .exp => 0x1C
  | .norm => 0x1D | .bcast => 0x1E | .extr => 0x1F
/-- The lane operation of an OPC. -/
def LaneK.ofCode : Nat → Option LaneK
  | 0x01 => some .add | 0x02 => some .sub | 0x03 => some .abs | 0x04 => some .neg | 0x05 => some .max | 0x06 => some .min
  | 0x07 => some .mov | 0x08 => some .and | 0x09 => some .or | 0x0A => some .xor | 0x0B => some .lsl | 0x0C => some .lsr
  | 0x0D => some .asr | 0x0E => some .cmpeq | 0x0F => some .cmplt | 0x10 => some .cmple | 0x11 => some .sel
  | 0x12 => some .mpy | 0x13 => some .mac | 0x14 => some .msu | 0x15 => some .mpyr | 0x16 => some .clra | 0x17 => some .lda
  | 0x18 => some .adda | 0x19 => some .suba | 0x1B => some .movxa | 0x1C => some .exp | 0x1D => some .norm
  | 0x1E => some .bcast | 0x1F => some .extr
  | _ => none

/-- OPC of the scalar operations. -/
def ScalK.code : ScalK → Nat
  | .sadd => 0x20 | .ssub => 0x21 | .sand => 0x22 | .sor => 0x23 | .sxor => 0x24 | .slsl => 0x25 | .slsr => 0x26
  | .sasr => 0x27 | .scmp => 0x28 | .smov => 0x29
/-- The scalar operation of an OPC. -/
def ScalK.ofCode : Nat → Option ScalK
  | 0x20 => some .sadd | 0x21 => some .ssub | 0x22 => some .sand | 0x23 => some .sor | 0x24 => some .sxor
  | 0x25 => some .slsl | 0x26 => some .slsr | 0x27 => some .sasr | 0x28 => some .scmp | 0x29 => some .smov
  | _ => none

/-- OPC of the scalar immediate operations. -/
def ImmK.code : ImmK → Nat
  | .sldi => 0x2A | .sldh => 0x2B | .saddi => 0x2C
/-- The scalar immediate operation of an OPC. -/
def ImmK.ofCode : Nat → Option ImmK
  | 0x2A => some .sldi | 0x2B => some .sldh | 0x2C => some .saddi
  | _ => none

/-- XOP and YOP of the memory operations. -/
def MemK.code : MemK → Nat
  | .ldb => 1 | .ldv => 2 | .stl => 3 | .stv => 4 | .lds => 5 | .sts => 6 | .stav => 7
/-- The memory operation of a code. -/
def MemK.ofCode : Nat → Option MemK
  | 1 => some .ldb | 2 => some .ldv | 3 => some .stl | 4 => some .stv | 5 => some .lds | 6 => some .sts | 7 => some .stav
  | _ => none

/-! ### The slots as their fields (Tables 12-2, 12-6; R306) -/

/-- The fields of an arithmetic slot, 28 bits; none for an OPC without an operation. -/
def parseArith (w : Nat) : Option Arith :=
  let opc := nf w 22 6
  if opc = 0 then some (.nop (ff _ w 0))
  else if opc = 0x1A then some (.sha (ff 4 w 20) (fb w 19) (ff 32 w 14) (ff 128 w 7) (ff 128 w 0))
  else if opc < 0x20 then
    (LaneK.ofCode opc).map fun k => .lane k (ff 4 w 20) (fb w 19) (ff 32 w 14) (ff 32 w 9) (ff 32 w 4) (ff 16 w 0)
  else if opc < 0x2A then
    (ScalK.ofCode opc).map fun k => .scal k (ff 16 w 18) (ff 16 w 14) (ff 16 w 10) (fb w 9) (ff 32 w 4) (ff 16 w 0)
  else if opc < 0x2D then (ImmK.ofCode opc).map fun k => .simm k (ff 16 w 18) (ff 4 w 16) (ff 65536 w 0)
  else if opc = 0x2D then some (.srd (ff 64 w 16) (ff 16 w 12) (ff 4096 w 0))
  else if opc = 0x2E then some (.swr (ff 64 w 16) (ff 16 w 12) (ff 4096 w 0))
  else if opc = 0x2F then some (.swri (ff 64 w 16) (ff 65536 w 0))
  else none

/-- The word of an arithmetic slot. -/
def Arith.bits : Arith → Nat
  | .nop low => low.val
  | .lane k fmt msk d a b aux =>
    k.code * 2 ^ 22 + fmt.val * 2 ^ 20 + bn msk * 2 ^ 19 + d.val * 2 ^ 14 + a.val * 2 ^ 9 + b.val * 2 ^ 4 + aux.val
  | .sha fmt msk d cnt low => 0x1A * 2 ^ 22 + fmt.val * 2 ^ 20 + bn msk * 2 ^ 19 + d.val * 2 ^ 14 + cnt.val * 2 ^ 7 + low.val
  | .scal k sd sa sb i imm low =>
    k.code * 2 ^ 22 + sd.val * 2 ^ 18 + sa.val * 2 ^ 14 + sb.val * 2 ^ 10 + bn i * 2 ^ 9 + imm.val * 2 ^ 4 + low.val
  | .simm k sd gap imm => k.code * 2 ^ 22 + sd.val * 2 ^ 18 + gap.val * 2 ^ 16 + imm.val
  | .srd srn sd low => 0x2D * 2 ^ 22 + srn.val * 2 ^ 16 + sd.val * 2 ^ 12 + low.val
  | .swr srn sa low => 0x2E * 2 ^ 22 + srn.val * 2 ^ 16 + sa.val * 2 ^ 12 + low.val
  | .swri srn imm => 0x2F * 2 ^ 22 + srn.val * 2 ^ 16 + imm.val

/-- The fields of an X-move slot, 18 bits; XOP 0 asks every bit 0. -/
def parseX (w : Nat) : Option XSlot :=
  if nf w 15 3 = 0 then (if nf w 0 15 = 0 then some .none else none)
  else (MemK.ofCode (nf w 15 3)).map fun k => .mem { k := k, reg := ff 32 w 10, p := ff 8 w 7, pm := fb w 6, lf := ff 4 w 4, idx := ff 16 w 0 }

/-- The word of an X-move slot. -/
def XSlot.bits : XSlot → Nat
  | .none => 0
  | .mem m => m.k.code * 2 ^ 15 + m.reg.val * 2 ^ 10 + m.p.val * 2 ^ 7 + bn m.pm * 2 ^ 6 + m.lf.val * 2 ^ 4 + m.idx.val

/-- The fields of a Y slot, 18 bits; YOP 0 asks every bit 0, YOP 15 is undefined. -/
def parseY (w : Nat) : Option YSlot :=
  let yop := nf w 14 4
  if yop = 0 then (if nf w 0 14 = 0 then some .none else none)
  else if yop < 8 then
    (MemK.ofCode yop).map fun k => .mem { k := k, reg := ff 32 w 9, p := ff 8 w 6, pm := fb w 5, lf := ff 4 w 3, idx := Fin.ofNat 16 (nf w 0 3) }
  else if yop = 8 then some (.duty (ff 32 w 9) (ff 64 w 3) (fb w 2) (ff 4 w 0))
  else if yop = 9 then some (.ext (ff 16 w 10) (ff 16 w 6) (fb w 5) (fb w 4) (fb w 3) (ff 8 w 0))
  else if yop = 10 then
    (if fb w 12 then some (.loopS (fb w 13) (ff 256 w 4) (ff 16 w 0)) else some (.loopI (fb w 13) (ff 256 w 4) (ff 16 w 0)))
  else if yop = 11 then some (.br (ff 16 w 10) (ff 1024 w 0))
  else if yop = 12 then some (.jmp (fb w 13) (ff 8192 w 0))
  else if yop = 13 then some (.ret (ff 16384 w 0))
  else if yop = 14 then some (.ldag (ff 8 w 11) (ff 2048 w 0))
  else none

/-- The word of a Y slot. -/
def YSlot.bits : YSlot → Nat
  | .none => 0
  | .mem m => m.k.code * 2 ^ 14 + m.reg.val * 2 ^ 9 + m.p.val * 2 ^ 6 + bn m.pm * 2 ^ 5 + m.lf.val * 2 ^ 3 + m.idx.val % 8
  | .duty reg port v lane => 8 * 2 ^ 14 + reg.val * 2 ^ 9 + port.val * 2 ^ 3 + bn v * 2 ^ 2 + lane.val
  | .ext data addr st pi sb low =>
    9 * 2 ^ 14 + data.val * 2 ^ 10 + addr.val * 2 ^ 6 + bn st * 2 ^ 5 + bn pi * 2 ^ 4 + bn sb * 2 ^ 3 + low.val
  | .loopI rot count len => 10 * 2 ^ 14 + bn rot * 2 ^ 13 + count.val * 2 ^ 4 + len.val
  | .loopS rot len s => 10 * 2 ^ 14 + bn rot * 2 ^ 13 + 2 ^ 12 + len.val * 2 ^ 4 + s.val
  | .br cond ofs => 11 * 2 ^ 14 + cond.val * 2 ^ 10 + ofs.val
  | .jmp top a => 12 * 2 ^ 14 + bn top * 2 ^ 13 + a.val
  | .ret low => 13 * 2 ^ 14 + low.val
  | .ldag n a => 14 * 2 ^ 14 + n.val * 2 ^ 11 + a.val

/-! ### Words -/

/-- The fields of a 64-bit program word (Table 12-1). -/
def parseWord (w : Nat) : Option SxWord :=
  match parseArith (nf w 36 28), parseX (nf w 18 18), parseY (nf w 0 18) with
  | some a, some x, some y => some { ar := a, xs := x, ys := y }
  | _, _, _ => none

/-- The instruction a program word spells; none where the encoding is undefined (R318). -/
def decodeWord (w : Nat) : Option SxWord :=
  match parseWord w with
  | some x => if x.wf then some x else none
  | none => none

/-- The program word of an instruction. -/
def encodeWord (x : SxWord) : Nat := x.ar.bits * 2 ^ 36 + x.xs.bits * 2 ^ 18 + x.ys.bits

/-- The opcode table gives its rows no bits: no word spells a command. -/
def decodeTableWord (_nbits _w : Nat) : Option Instr := none

end Sys2Proof
end

