-- ==== Sys2Proof/Config.lean ====
section
/-!
DEFINITION. The free values: what the spec leaves open and the machine goes on. Each is an opaque constant WITHOUT a
body, applied to the operands it depends on or to the counter State.fresh. Nothing can be proved of their values.
-/
namespace Sys2Proof.Config

/-- Rounding of a real result to a neighbour where the spec does not name the rounding: true takes the neighbour
further from minus infinity. The first argument names the place of use (log entry 5). -/
opaque roundUp : Nat → Rat → Bool

/-- An F32 word written where the value lies outside the F32 range (log entry 5). -/
opaque f32Over : Rat → Word

/-- A 32-bit value the spec leaves open, one for each value of the counter State.fresh (log entry 5). -/
opaque freeWord : Nat → Word

/-- An integer the spec leaves open, one for each value of the counter State.fresh (log entry 5). -/
opaque freeInt : Nat → Int

/-- A Boolean the spec leaves open, one for each value of the counter State.fresh (log entry 5). -/
opaque freeBool : Nat → Bool

/-- Contents of the 512 KiB Helm ROM, which the spec does not give (log entry 5; spec 13 Table 13-1). -/
opaque helmRom : Nat → Byte

/-- The numbered real functions that spec 06 and 05 use on real arguments: sine and cosine of a fraction of a turn,
exponential and square root, each to a precision the spec does not give (log entry 5). -/
opaque sinTurn : Rat → Rat
/-- Cosine of a fraction of a turn (log entry 5). -/
opaque cosTurn : Rat → Rat
/-- The ratio of a circle's circumference to its diameter, to the precision the machine keeps (log entry 5). -/
opaque piReal : Rat
/-- Angle of a vector (x, y) as a fraction of a turn in 0 to 1 (log entry 5). -/
opaque angleTurn : Rat → Rat → Rat
/-- Exponential (log entry 5). -/
opaque expReal : Rat → Rat
/-- Square root of a real that is no square (log entry 5). -/
opaque sqrtReal : Rat → Rat

/-- The estimates (resistance, inductance scale) after one step of the recursive least squares of spec 06 R158, whose regressors and gain the spec does
not give: a function of a step number, the forgetting factor, the present estimates, the prediction error in d and q and the current (log entry 57). -/
opaque rlsStep : Nat → Rat → Rat × Rat → Rat × Rat → Rat × Rat → Rat × Rat

/-- The watch length in ns of axis RAXIS of the device at a ring address, which R108 names and no register of this device holds (spec 04 R107,
R108; log entry 55). -/
opaque masterWatch : Nat → Nat → Nat

/-- Manufacturer code, bits [11:1] of IDCODE, given only in the BSDL file (spec 21 R527; log entry 5). -/
opaque jtagMaker : BitVec 11


end Sys2Proof.Config
end

