-- ==== Sys2Proof/Machine/Bits.lean ====
section
/-!
DEFINITION. Bit-field helpers over 32-bit words, sign extension, byte order and saturating counters. They stand here
and not in Word.lean so that a repair can mend them.
-/
namespace Sys2Proof.Machine

/-- Bits [lo+n-1 : lo] of a word, as a natural number. -/
def fld (w : Word) (lo n : Nat) : Nat := (w.toNat >>> lo) % 2 ^ n

/-- One bit of a word. -/
def bit (w : Word) (i : Nat) : Bool := w.getLsbD i

/-- The mask of n bits at lo. -/
def maskAt (lo n : Nat) : Word := BitVec.ofNat 32 ((2 ^ n - 1) <<< lo)

/-- A word with bits [lo+n-1 : lo] replaced by v mod 2^n. -/
def setFld (w : Word) (lo n v : Nat) : Word :=
  (w &&& ~~~ maskAt lo n) ||| BitVec.ofNat 32 ((v % 2 ^ n) <<< lo)

/-- A word with one bit replaced. -/
def setBit (w : Word) (i : Nat) (b : Bool) : Word := setFld w i 1 (if b then 1 else 0)

/-- One or zero. -/
def b2n (b : Bool) : Nat := if b then 1 else 0

/-- A field counter that saturates: add k to the n-bit field at lo (spec: "saturating", "saturates"). -/
def satAdd (w : Word) (lo n k : Nat) : Word := setFld w lo n (min (fld w lo n + k) (2 ^ n - 1))

/-- A natural number held in 32 bits, saturating. -/
def satWord (n : Nat) : Word := BitVec.ofNat 32 (min n (2 ^ 32 - 1))

/-- A word from a natural number, modulo 2^32. -/
def wd (n : Nat) : Word := BitVec.ofNat 32 n

/-- Signed value of the low n bits of a number. -/
def sext (n v : Nat) : Int :=
  let x := v % 2 ^ n
  if 2 * x ≥ 2 ^ n then (x : Int) - (2 : Int) ^ n else x

/-- Two's complement pair (low word, high word) of an I64 (spec 00 R12: the low word at the even index). -/
def loWord (x : Int) : Word := BitVec.ofInt 32 x
/-- High word of an I64. -/
def hiWord (x : Int) : Word := BitVec.ofInt 32 (x / (2 : Int) ^ 32)
/-- The I64 that a low and a high word spell. -/
def i64Of (lo hi : Word) : Int := hi.toInt * (2 : Int) ^ 32 + lo.toNat

/-- Byte k (0 = lowest address) of a little-endian word. -/
def byteOf (w : Word) (k : Nat) : Byte := BitVec.ofNat 8 (w.toNat >>> (8 * k))

/-- Little-endian word of a list of bytes, missing bytes 0. -/
def leWord : List Byte → Nat → Nat
  | _, 0 => 0
  | [], _ => 0
  | b :: bs, n + 1 => b.toNat + 256 * leWord bs n

/-- Clamp an integer into lo..hi. -/
def iclamp (lo hi x : Int) : Int := if x < lo then lo else if hi < x then hi else x

/-- Saturate an integer to I32. -/
def sat32 (x : Int) : Int := iclamp (-(2 : Int) ^ 31) ((2 : Int) ^ 31 - 1) x

/-- A 16-bit mask with the bits of the axes for which p holds. -/
def axMask (p : Fin 16 → Bool) : BitVec 16 :=
  (List.finRange 16).foldl (fun m n => if p n then m ||| (1#16 <<< n.val) else m) 0#16

/-- Group of an axis: group g = axes 4g..4g+3 (spec 00 Table 0-4). -/
def grpOf (n : Fin 16) : Fin 4 := ⟨n.val / 4, by omega⟩

/-- Axis j of group g. -/
def axOf (g : Fin 4) (j : Fin 4) : Fin 16 := ⟨4 * g.val + j.val, by omega⟩

/-- The four axes of a group, ascending. -/
def grpAxes (g : Fin 4) : List (Fin 16) := (List.finRange 4).map (axOf g)

/-- The mask of the four axes of a group. -/
def grpMask (g : Fin 4) : BitVec 16 := 0xF#16 <<< (4 * g.val)

/-- All axes, ascending. -/
def allAxes : List (Fin 16) := List.finRange 16

/-- All groups, ascending. -/
def allGroups : List (Fin 4) := List.finRange 4

end Sys2Proof.Machine
end

