-- ==== Sys2Proof/Machine/Num.lean ====
section
/-!
DEFINITION. Numbers: F32 words as exact rationals, and the narrowing back to F32, to integers and to fixed point.
Arithmetic inside the motion and loop engines is computed exactly on rationals; where the spec does not name the
rounding of a result, the neighbour taken is free (Config.roundUp, log entry 5).
-/
namespace Sys2Proof.Machine

/-- 2 to an integer power. -/
def pow2 (e : Int) : Rat := if 0 ≤ e then ((2 ^ e.toNat : Nat) : Rat) else mkRat 1 (2 ^ (-e).toNat)

/-- Magnitude of a finite F32 word. -/
def f32Mag (w : Word) : Rat :=
  let e := fld w 23 8
  let m := fld w 0 23
  if e = 0 then (m : Rat) * pow2 (-149) else ((m + 2 ^ 23 : Nat) : Rat) * pow2 ((e : Int) - 150)

/-- The value of an F32 word (IEEE 754 binary32, spec 00 Table 0-7); none where it is not a finite number. -/
def f32? (w : Word) : Option Rat :=
  if fld w 23 8 = 255 then none else some (if bit w 31 then -(f32Mag w) else f32Mag w)

/-- The value of an F32 word, a word that is not a finite number read as 0. -/
def f32 (w : Word) : Rat := (f32? w).getD 0

/-- A finite F32 that is at least 0 (spec: "finite", "≥ 0"). -/
def f32NonNeg (w : Word) : Bool := match f32? w with | some x => decide (0 ≤ x) | none => false

/-- A finite F32 above 0. -/
def f32Pos (w : Word) : Bool := match f32? w with | some x => decide (0 < x) | none => false

/-- Integer rounding of a rational: exact where it is an integer, else a free neighbour at the given site. -/
def roundFree (site : Nat) (x : Rat) : Int :=
  if x.den = 1 then x.num else x.floor + (if Config.roundUp site x then 1 else 0)

/-- Rounding to the nearest integer, halves away from zero. -/
def roundNear (x : Rat) : Int :=
  if 0 ≤ x then (x + mkRat 1 2).floor else -((-x + mkRat 1 2).floor)

/-- Truncation toward zero. -/
def truncI (x : Rat) : Int := if 0 ≤ x then x.floor else -((-x).floor)

/-- floor(log2 a) of a positive rational. -/
def log2Floor (a : Rat) : Int :=
  let e : Int := (Nat.log2 a.num.natAbs : Int) - (Nat.log2 a.den : Int)
  if pow2 e ≤ a then e else e - 1

/-- Absolute value of a rational. -/
def rabs (x : Rat) : Rat := if x < 0 then -x else x

/-- Narrow a rational to F32: exact where F32 holds it, else a free neighbour (log entry 5). -/
def toF32 (site : Nat) (x : Rat) : Word :=
  if x = 0 then 0#32 else
    let a := rabs x
    let e := max (log2Floor a) (-126)
    let q := a / pow2 (e - 23)
    let up := if x < 0 then !(Config.roundUp site x) else Config.roundUp site x
    let m : Int := if q.den = 1 then q.num else q.floor + (if up then 1 else 0)
    let bits : Int := (e + 126) * 2 ^ 23 + m
    if bits ≥ 255 * 2 ^ 23 then Config.f32Over x
    else BitVec.ofInt 32 bits ||| (if x < 0 then 0x80000000#32 else 0#32)

/-- Narrow a rational to a signed fixed-point word Q1.31 of a full scale, saturating (spec 00 Table 0-8). -/
def toQ31 (site : Nat) (x : Rat) : Word := BitVec.ofInt 32 (sat32 (roundFree site (x * pow2 31)))

/-- Value of a Q1.31 word. -/
def q31 (w : Word) : Rat := (w.toInt : Rat) * pow2 (-31)

/-- Value of a Q1.15 field. -/
def q15 (v : Nat) : Rat := (sext 16 v : Rat) * pow2 (-15)

/-- Clamp a rational. -/
def rclamp (lo hi x : Rat) : Rat := if x < lo then lo else if hi < x then hi else x

/-- Smaller of two rationals. -/
def rmin (a b : Rat) : Rat := if a ≤ b then a else b
/-- Larger of two rationals. -/
def rmax (a b : Rat) : Rat := if a ≤ b then b else a

/-- Integer square root by bisection on bits (structural). -/
def isqrtAux (n : Nat) : Nat → Nat → Nat
  | 0, r => r
  | k + 1, r => let r' := r + 2 ^ k; isqrtAux n k (if r' * r' ≤ n then r' else r)

/-- Integer square root. -/
def isqrt (n : Nat) : Nat := isqrtAux n (Nat.log2 n / 2 + 1) 0

/-- A real value that the machine keeps to a precision the spec does not give: free, but within tol of a rational approximation (log entry 5). -/
def nearReal (approx tol free : Rat) : Rat := rclamp (approx - tol) (approx + tol) free

/-- Square root of a rational: exact on squares, else free within 2^-40 above the root's floor on that grid (log entry 5); 0 below 0. -/
def rsqrt (x : Rat) : Rat :=
  if x ≤ 0 then 0 else
    let a := isqrt x.num.natAbs
    let b := isqrt x.den
    if a * a = x.num.natAbs ∧ b * b = x.den then mkRat a b
    else
      let lo := mkRat (isqrt (x * 2 ^ 80).floor.natAbs) (2 ^ 40)
      rclamp lo (lo + pow2 (-40)) (Config.sqrtReal x)

/-! ### Real functions (log entry 5)

Each is exact where its value is rational, and elsewhere free within a tolerance of a rational approximation, a truncated power series on a grid. -/

/-- The multiple of 2^-60 at or below a rational. -/
def grid60 (x : Rat) : Rat := mkRat (x * 2 ^ 60).floor (2 ^ 60)

/-- A rational approximation of π, right to 20 places. -/
def piApprox : Rat := mkRat 314159265358979323846 100000000000000000000

/-- The ratio of a circle's circumference to its diameter as the machine keeps it. -/
def realPi : Rat := nearReal piApprox (pow2 (-22)) Config.piReal

/-- Terms of a power series: term k + 1 is term k times x over the product of divisors f k. -/
def seriesAux (x : Rat) (f : Nat → Rat) : Nat → Nat → Rat → Rat → Rat
  | 0, _, _, acc => acc
  | n + 1, k, term, acc =>
    let term := grid60 (term * x / f k)
    seriesAux x f n (k + 1) term (acc + term)

/-- Sine of an angle y between −π and π. -/
def sinSeries (y : Rat) : Rat := seriesAux (-(y * y)) (fun k => ((2 * k + 2) * (2 * k + 3) : Nat)) 14 0 y y
/-- Cosine of an angle between −π and π. -/
def cosSeries (y : Rat) : Rat := seriesAux (-(y * y)) (fun k => ((2 * k + 1) * (2 * k + 2) : Nat)) 14 0 1 1

/-- A fraction of a turn brought to −1/2 up to 1/2. -/
def halfTurn (x : Rat) : Rat := x - (x + mkRat 1 2).floor

/-- Cosine of a fraction of a turn. -/
def cosTurn (x : Rat) : Rat :=
  let h := halfTurn x
  if h = 0 then 1 else if h = -(mkRat 1 2) then -1 else if rabs h = mkRat 1 4 then 0
  else nearReal (cosSeries (grid60 (2 * piApprox * h))) (pow2 (-22)) (Config.cosTurn x)

/-- Sine of a fraction of a turn. -/
def sinTurn (x : Rat) : Rat :=
  let h := halfTurn x
  if h = 0 ∨ h = -(mkRat 1 2) then 0 else if h = mkRat 1 4 then 1 else if h = -(mkRat 1 4) then -1
  else nearReal (sinSeries (grid60 (2 * piApprox * h))) (pow2 (-22)) (Config.sinTurn x)

/-- e^x from e^(x/2) by k squarings. -/
def expAux : Nat → Rat → Rat
  | 0, x => seriesAux x (fun k => ((k + 1 : Nat) : Rat)) 12 0 1 1
  | k + 1, x => let y := expAux k (x / 2); grid60 (y * y)

/-- Exponential, of arguments up to 64 in magnitude; 0 below. -/
def expReal (x : Rat) : Rat :=
  if x = 0 then 1
  else if x < -64 then nearReal 0 (pow2 (-22)) (Config.expReal x)
  else
    let a := expAux 7 (rmin x 64)
    nearReal a (rmax a 1 * pow2 (-22)) (Config.expReal x)

/-- Fraction of a turn in 0 to 1/4 whose direction is that of (x, y) in the first quadrant, by bisection. -/
def angleAux (x y : Rat) : Nat → Rat → Rat → Rat
  | 0, lo, _ => lo
  | k + 1, lo, w =>
    let m := lo + w / 2
    let a := 2 * piApprox * m
    angleAux x y k (if x * sinSeries a ≤ y * cosSeries a then m else lo) (w / 2)

/-- Angle of a vector (x, y) as a fraction of a turn, 0 up to 1; 0 for the zero vector. -/
def angleTurn (x y : Rat) : Rat :=
  if y = 0 then (if x < 0 then mkRat 1 2 else 0)
  else if x = 0 then (if y < 0 then mkRat 3 4 else mkRat 1 4)
  else
    let (q, u, v) : Rat × Rat × Rat :=
      if 0 < x ∧ 0 < y then (0, x, y) else if x < 0 ∧ 0 < y then (mkRat 1 4, y, -x)
      else if x < 0 then (mkRat 1 2, -x, -y) else (mkRat 3 4, -y, x)
    nearReal (q + angleAux u v 40 0 (mkRat 1 4)) (pow2 (-22)) (Config.angleTurn x y)

end Sys2Proof.Machine
end

