-- ==== Sys2Proof/Machine/RegMap.lean ====
section
/-!
DEFINITION. The register map: one row per register of the map tables of the spec's chapters, with its access masks
(spec 00 R7 Table 0-5) and reset value, the address of each, and the reset value of every register address.
The registers are held as one sparse list of (address, word) pairs whose default is the reset value (log entry 1).
-/
namespace Sys2Proof.Machine

/-- The peripheral blocks in the order of spec 13 Table 13-1, and the cluster control registers (spec 11). -/
inductive Blk where

  | sys
  | pmu
  | boot
  | chron
  | prot
  | que
  | prof
  | loop
  | enc
  | sdm
  | pwm
  | drv
  | fio
  | can0
  | can1
  | ring
  | safe
  | log
  | hk
  | step
  | home
  | sx
  deriving DecidableEq, Repr

/-- The block number b of spec 13 Table 13-1; the cluster control registers count as 21. -/
def Blk.num : Blk → Nat
  | .sys => 0
  | .pmu => 1
  | .boot => 2
  | .chron => 3
  | .prot => 4
  | .que => 5
  | .prof => 6
  | .loop => 7
  | .enc => 8
  | .sdm => 9
  | .pwm => 10
  | .drv => 11
  | .fio => 12
  | .can0 => 13
  | .can1 => 14
  | .ring => 15
  | .safe => 16
  | .log => 17
  | .hk => 18
  | .step => 19
  | .home => 20
  | .sx => 21

/-- A register of the map: offset, count and stride of an array, instance range (none = block level), the masks of
RW, W1C, W1S and RWS bits, and the reset value. Bits in no mask are read-only or reserved. -/
structure RegRow where
  name : String
  inst : Option (Nat × Nat)
  off : Nat
  cnt : Nat := 1
  stride : Nat := 4
  rw : Word := 0#32
  w1c : Word := 0#32
  w1s : Word := 0#32
  rws : Word := 0#32
  reset : Word := 0#32
  deriving DecidableEq, Repr

/-- Registers of the SYS block. -/
def rowsSys : List RegRow := [
  { name := "SYS_ID", inst := none, off := 0x0, reset := 0x04E08042#32 },
  { name := "SYS_OWNER", inst := none, off := 0x20 },
  { name := "SYS_REFUSED", inst := none, off := 0x24 },
  { name := "SYS_FREEZE", inst := none, off := 0x28 }]

/-- Registers of the PMU block. -/
def rowsPmu : List RegRow := [
  { name := "PMU_STATUS", inst := none, off := 0x0, reset := 0x1F#32 },
  { name := "PMU_COMMIT", inst := none, off := 0x10, w1s := 0xFFFF#32 },
  { name := "PMU_START_BUDGET", inst := none, off := 0x20, rw := 0xFFFF#32, reset := 0x3E8#32 },
  { name := "PMU_ADMIT", inst := none, off := 0x24 },
  { name := "PMU_HEAD", inst := none, off := 0x28 },
  { name := "PMU_RESETCAUSE", inst := none, off := 0x30, w1c := 0x1FF#32, reset := 1#32 },
  { name := "PMU_WAKECFG", inst := none, off := 0x34, rw := 0xFF07#32 },
  { name := "PMU_WAKECAUSE", inst := none, off := 0x38 },
  { name := "PMU_TMOCNT", inst := none, off := 0x3C },
  { name := "PMU_BUCK", inst := none, off := 0x40, rw := 0x1#32 },
  { name := "PMU_AXSTART", inst := some (0, 15), off := 0x0, rws := 0x0FFFFFFF#32 },
  { name := "PMU_AXSTAT", inst := some (0, 15), off := 0x240 }]

/-- Registers of the BOOT block. -/
def rowsBoot : List RegRow := [
  { name := "BOOT_STATUS", inst := none, off := 0x0 },
  { name := "BOOT_FLASH", inst := none, off := 0x20 },
  { name := "BOOT_SLOTSZ", inst := none, off := 0x24 },
  { name := "BOOT_SLOTST", inst := none, off := 0x28 },
  { name := "BOOT_GENA", inst := none, off := 0x2C },
  { name := "BOOT_GENB", inst := none, off := 0x30 },
  { name := "BOOT_TIME", inst := none, off := 0x34 },
  { name := "BOOT_PMSEQ", inst := none, off := 0x38 },
  { name := "BOOT_SFSEQ", inst := none, off := 0x3C },
  { name := "BOOT_UPD", inst := none, off := 0x40 },
  { name := "BOOT_UPDOFS", inst := none, off := 0x44 },
  { name := "BOOT_UPDCFG", inst := none, off := 0x48 },
  { name := "BOOT_UPDRSP", inst := none, off := 0x4C },
  { name := "BOOT_CNT", inst := none, off := 0x50 },
  { name := "BOOT_FUSE", inst := none, off := 0x60, reset := 1#32 },
  { name := "BOOT_KEYHASH", inst := none, off := 0x70, cnt := 8, stride := 4 }]

/-- Registers of the CHRON block. -/
def rowsChron : List RegRow := [
  { name := "CHRON_STATUS", inst := none, off := 0x0 },
  { name := "CHRON_NOW", inst := none, off := 0x20, cnt := 2, stride := 4 },
  { name := "CHRON_INIT", inst := none, off := 0x28, cnt := 2, stride := 4, rw := 0xFFFFFFFF#32 },
  { name := "CHRON_TRIM", inst := none, off := 0x30, rw := 0xFFFF#32 },
  { name := "CHRON_FREQ", inst := none, off := 0x34 }]

/-- Registers of the PROT block. -/
def rowsProt : List RegRow := [
  { name := "PROT_STATUS", inst := none, off := 0x0 },
  { name := "PROT_COMMIT", inst := none, off := 0x10, w1s := 0x1FE#32 },
  { name := "PROT_LOCK", inst := none, off := 0x14, w1s := 0x1#32 },
  { name := "PROT_ECC", inst := none, off := 0x20, cnt := 3, stride := 4 },
  { name := "PROT_ECCADDR", inst := none, off := 0x30, cnt := 3, stride := 4 },
  { name := "PROT_ATTRREF", inst := none, off := 0x40 },
  { name := "PROT_DECERR", inst := none, off := 0x44 },
  { name := "PROT_RBASE", inst := some (0, 9), off := 0x0, cnt := 16, stride := 8, rws := 0xFFFFFFEF#32 },
  { name := "PROT_RTOP", inst := some (0, 9), off := 0x4, cnt := 16, stride := 8, rws := 0xFFFFFFE0#32 },
  { name := "PROT_VADDR", inst := some (0, 9), off := 0x280 },
  { name := "PROT_VINFO", inst := some (0, 9), off := 0x284 },
  { name := "PROT_VTIME", inst := some (0, 9), off := 0x288, cnt := 2, stride := 4 }]

/-- Registers of the QUE block. -/
def rowsQue : List RegRow := [
  { name := "QUE_STATUS", inst := none, off := 0x0 },
  { name := "QUE_COMMIT", inst := none, off := 0x10, w1s := 0xFFFF0000#32 },
  { name := "QUE_COMMIT_HI", inst := none, off := 0x14, w1s := 0xFFFFFFFF#32 },
  { name := "QUE_READY", inst := none, off := 0x20, cnt := 2, stride := 4 },
  { name := "QUE_UNC", inst := none, off := 0x28, cnt := 2, stride := 4, w1c := 0xFFFFFFFF#32 },
  { name := "QUE_SPILLUSE", inst := none, off := 0x30 },
  { name := "QUE_CFG", inst := some (0, 63), off := 0x0, rws := 0x1F#32 },
  { name := "QUE_CAP", inst := some (0, 63), off := 0x4, rws := 0x3FFFFF#32 },
  { name := "QUE_SPBASE", inst := some (0, 63), off := 0x8, rws := 0xFFF#32 },
  { name := "QUE_IDLE", inst := some (0, 63), off := 0xC, rws := 0xFFFFFFFF#32 },
  { name := "QUE_STAT", inst := some (0, 63), off := 0x240 },
  { name := "QUE_PKTS", inst := some (0, 63), off := 0x244 },
  { name := "QUE_ERR", inst := some (0, 63), off := 0x248 },
  { name := "QUE_DROP", inst := some (0, 63), off := 0x24C },
  { name := "QUE_PUSH", inst := some (0, 63), off := 0x300, cnt := 16, stride := 4 },
  { name := "QUE_POP", inst := some (0, 63), off := 0x340 },
  { name := "QUE_SIDE", inst := some (0, 63), off := 0x344 }]

/-- Registers of the PROF block. -/
def rowsProf : List RegRow := [
  { name := "PROF_STATUS", inst := none, off := 0x0, reset := 0xFFFF0000#32 },
  { name := "PROF_DEFER", inst := none, off := 0x4 },
  { name := "PROF_COMMIT", inst := none, off := 0x10, w1s := 0xFFFFF#32 },
  { name := "PROF_STARVED", inst := none, off := 0x20, w1c := 0xFFFF#32 },
  { name := "PROF_REDUCED", inst := none, off := 0x24, w1c := 0xFFFF#32 },
  { name := "PROF_REJECTS", inst := none, off := 0x28 },
  { name := "PROF_VLIM", inst := some (0, 15), off := 0x0, rws := 0xFFFFFFFF#32 },
  { name := "PROF_ALIM", inst := some (0, 15), off := 0x4, rws := 0xFFFFFFFF#32 },
  { name := "PROF_JLIM", inst := some (0, 15), off := 0x8, rws := 0xFFFFFFFF#32 },
  { name := "PROF_QSDEC", inst := some (0, 15), off := 0xC, rws := 0xFFFFFFFF#32 },
  { name := "PROF_QSJERK", inst := some (0, 15), off := 0x10, rws := 0xFFFFFFFF#32 },
  { name := "PROF_CFG", inst := some (0, 15), off := 0x14, rws := 0x003FFFFF#32, reset := 0x00200000#32 },
  { name := "PROF_PPOS", inst := some (0, 15), off := 0x240, cnt := 2, stride := 4 },
  { name := "PROF_PVEL", inst := some (0, 15), off := 0x248 },
  { name := "PROF_PACC", inst := some (0, 15), off := 0x24C },
  { name := "PROF_SEG", inst := some (0, 15), off := 0x250 },
  { name := "PROF_GSRC", inst := some (0, 15), off := 0x80, rws := 0x0FFFFFFF#32 },
  { name := "PROF_GNUM", inst := some (0, 15), off := 0x84, rws := 0xFFFFFFFF#32, reset := 1#32 },
  { name := "PROF_GDEN", inst := some (0, 15), off := 0x88, rws := 0xFFFF#32, reset := 1#32 },
  { name := "PROF_GENG", inst := some (0, 15), off := 0x8C, rws := 0x1#32 },
  { name := "PROF_GEDIST", inst := some (0, 15), off := 0x90, cnt := 2, stride := 4, rws := 0xFFFFFFFF#32 },
  { name := "PROF_GDDIST", inst := some (0, 15), off := 0x98, cnt := 2, stride := 4, rws := 0xFFFFFFFF#32 },
  { name := "PROF_EVLIM", inst := some (0, 15), off := 0xA0, rws := 0xFFFFFFFF#32 },
  { name := "PROF_EALIM", inst := some (0, 15), off := 0xA4, rws := 0xFFFFFFFF#32 },
  { name := "PROF_EJLIM", inst := some (0, 15), off := 0xA8, rws := 0xFFFFFFFF#32 },
  { name := "PROF_SCFG", inst := some (0, 15), off := 0xAC, rws := 0xFFFF001F#32 },
  { name := "PROF_SOFF", inst := some (0, 15), off := 0xB0, cnt := 2, stride := 4, rws := 0xFFFFFFFF#32 },
  { name := "PROF_SVEL", inst := some (0, 15), off := 0xB8, rws := 0xFFFFFFFF#32 },
  { name := "PROF_SSEQ", inst := some (0, 15), off := 0xBC, rws := 0xFFFFFFFF#32 },
  { name := "PROF_GSTAT", inst := some (0, 15), off := 0x2C0 },
  { name := "PROF_GPOS", inst := some (0, 15), off := 0x2C4, cnt := 2, stride := 4 },
  { name := "PROF_MPOS", inst := some (0, 15), off := 0x2CC, cnt := 2, stride := 4 },
  { name := "PROF_MAGE", inst := some (0, 15), off := 0x2D4 },
  { name := "PROF_CLIP", inst := some (0, 15), off := 0x2D8, cnt := 2, stride := 4 },
  { name := "PROF_ESTAT", inst := some (0, 15), off := 0x2E0 },
  { name := "PROF_CLIPPK", inst := some (0, 15), off := 0x2E4, rw := 0xFFFFFFFF#32 },
  { name := "PROF_IGMEM", inst := some (16, 19), off := 0x0, rws := 0xFF07FFFF#32 },
  { name := "PROF_IGSTAT", inst := some (16, 19), off := 0x240 },
  { name := "PROF_IGVEL", inst := some (16, 19), off := 0x244 }]

/-- Registers of the LOOP block. -/
def rowsLoop : List RegRow := [
  { name := "LOOP_STATUS", inst := none, off := 0x0 },
  { name := "LOOP_COMMIT", inst := none, off := 0x10, w1s := 0xFFFFF#32 },
  { name := "LOOP_LATE", inst := none, off := 0x20, w1c := 0xFFFFFFFF#32 },
  { name := "LOOP_OVR", inst := none, off := 0x24 },
  { name := "LOOP_SWTRIG", inst := none, off := 0x28, w1s := 0xFFFFFFFF#32 },
  { name := "LOOP_LOAD", inst := none, off := 0x30, cnt := 4, stride := 4 },
  { name := "LOOP_LOADCLR", inst := none, off := 0x40, w1s := 0xF#32 },
  { name := "LOOP_CFG", inst := some (0, 15), off := 0x0, rws := 0xFFFF7F7F#32 },
  { name := "LOOP_IFS", inst := some (0, 15), off := 0x4, rws := 0xFFFFFFFF#32 },
  { name := "LOOP_GAIN", inst := some (0, 15), off := 0x8, cnt := 16, stride := 4, rws := 0xFFFFFFFF#32 },
  { name := "LOOP_NOTCH", inst := some (0, 15), off := 0x48, cnt := 12, stride := 4, rws := 0xFFFFFFFF#32 },
  { name := "LOOP_LAMBDA", inst := some (0, 15), off := 0x78, rws := 0xFFFFFFFF#32, reset := 0x3F800000#32 },
  { name := "LOOP_CNT", inst := some (0, 15), off := 0x280 },
  { name := "LOOP_REST", inst := some (0, 15), off := 0x284 },
  { name := "LOOP_LEST", inst := some (0, 15), off := 0x288 },
  { name := "LOOP_FERR", inst := some (0, 15), off := 0x28C },
  { name := "LOOP_FLAGS", inst := some (0, 15), off := 0x290 },
  { name := "LOOP_TRIG", inst := some (16, 19), off := 0x0, cnt := 8, stride := 4, rws := 0x1FFF03F7#32 },
  { name := "LOOP_TARG", inst := some (16, 19), off := 0x20, cnt := 8, stride := 4, rws := 0xFFFFFFFF#32 }]

/-- Registers of the ENC block. -/
def rowsEnc : List RegRow := [
  { name := "ENC_STATUS", inst := none, off := 0x0 },
  { name := "ENC_COMMIT", inst := none, off := 0x10, w1s := 0xFFFF#32 },
  { name := "ENC_SWLATCH", inst := none, off := 0x18, w1s := 0xFFFFFFFF#32 },
  { name := "ENC_ARM", inst := none, off := 0x1C, w1s := 0xFFFFFFFF#32 },
  { name := "ENC_LATPIN", inst := none, off := 0x20, cnt := 8, stride := 4, rw := 0x1FF#32 },
  { name := "ENC_CMPPIN", inst := none, off := 0x40, cnt := 8, stride := 4, rw := 0xFFFF0007#32 },
  { name := "ENC_CFG", inst := some (0, 15), off := 0x0, rws := 0xFFFF1F3F#32 },
  { name := "ENC_CPR", inst := some (0, 15), off := 0x4, rws := 0xFFFFFFFF#32 },
  { name := "ENC_LINES", inst := some (0, 15), off := 0x8, rws := 0xFFFFFFFF#32 },
  { name := "ENC_SER", inst := some (0, 15), off := 0xC, rws := 0xFF7FFFFF#32 },
  { name := "ENC_SERT", inst := some (0, 15), off := 0x10, rws := 0xFFFFFFFF#32 },
  { name := "ENC_JUMP", inst := some (0, 15), off := 0x14, rws := 0xFFFFFFFF#32 },
  { name := "ENC_CHK", inst := some (0, 15), off := 0x18, rws := 0xFFFF#32 },
  { name := "ENC_LCFG", inst := some (0, 15), off := 0x20, cnt := 2, stride := 4, rws := 0x1FF#32 },
  { name := "ENC_CCFG", inst := some (0, 15), off := 0x28, cnt := 2, stride := 4, rws := 0x3F#32 },
  { name := "ENC_CV", inst := some (0, 15), off := 0x30, cnt := 4, stride := 4, rws := 0xFFFFFFFF#32 },
  { name := "ENC_CINC", inst := some (0, 15), off := 0x40, cnt := 2, stride := 4, rws := 0xFFFFFFFF#32 },
  { name := "ENC_STAT", inst := some (0, 15), off := 0x280, w1c := 0x18#32 },
  { name := "ENC_POS", inst := some (0, 15), off := 0x284, cnt := 2, stride := 4 },
  { name := "ENC_VEL", inst := some (0, 15), off := 0x28C },
  { name := "ENC_TEDGE", inst := some (0, 15), off := 0x290, cnt := 2, stride := 4 },
  { name := "ENC_CNT", inst := some (0, 15), off := 0x298 },
  { name := "ENC_FERR", inst := some (0, 15), off := 0x29C },
  { name := "ENC_IDXDIFF", inst := some (0, 15), off := 0x2A0 },
  { name := "ENC_LOVR", inst := some (0, 15), off := 0x2A4 },
  { name := "ENC_DIRT", inst := some (0, 15), off := 0x2A8, cnt := 2, stride := 4 },
  { name := "ENC_L1REC", inst := some (0, 15), off := 0x2B0, cnt := 6, stride := 4 },
  { name := "ENC_L2REC", inst := some (0, 15), off := 0x2C8, cnt := 6, stride := 4 }]

/-- Registers of the SDM block. -/
def rowsSdm : List RegRow := [
  { name := "SDM_COMMIT", inst := none, off := 0x10, w1s := 0xFFFFFF#32 },
  { name := "SDM_OCSTAT", inst := none, off := 0x20, w1c := 0xFFFFFFFF#32 },
  { name := "SDM_STUCK0", inst := none, off := 0x24, w1c := 0xFFFFFFFF#32 },
  { name := "SDM_STUCK1", inst := none, off := 0x28, w1c := 0xFFFF#32 },
  { name := "SDM_CLK", inst := some (16, 23), off := 0x0, rws := 0x1FF#32 },
  { name := "SDM_CFG", inst := some (0, 15), off := 0x0, rws := 0x01FF3F07#32 },
  { name := "SDM_KS", inst := some (0, 15), off := 0x4, cnt := 3, stride := 4, rws := 0xFFFFFFFF#32 },
  { name := "SDM_OFS", inst := some (0, 15), off := 0x10, cnt := 3, stride := 4, rws := 0xFFFFFFFF#32 },
  { name := "SDM_OCTH", inst := some (0, 15), off := 0x1C, rws := 0xFFFFFFFF#32 },
  { name := "SDM_SAMP", inst := some (0, 15), off := 0x240, cnt := 3, stride := 4 },
  { name := "SDM_MON", inst := some (0, 15), off := 0x24C, cnt := 3, stride := 4 }]

/-- Registers of the PWM block. -/
def rowsPwm : List RegRow := [
  { name := "PWM_STATUS", inst := none, off := 0x0 },
  { name := "PWM_COMMIT", inst := none, off := 0x10, w1s := 0xFFFFF#32 },
  { name := "PWM_TRIPCLR", inst := none, off := 0x18, w1s := 0xFFFFF#32 },
  { name := "PWM_STICKY", inst := none, off := 0x1C, w1c := 0xFFFFFFFF#32 },
  { name := "PWM_GSTICKY", inst := none, off := 0x20, w1c := 0xFF#32 },
  { name := "PWM_TRIPIN", inst := none, off := 0x24 },
  { name := "PWM_GTIME", inst := some (16, 19), off := 0x0, rws := 0x7F7FFFFF#32, reset := 0x01000000#32 },
  { name := "PWM_GPHASE", inst := some (16, 19), off := 0x4, rws := 0x80FFFFFF#32, reset := 0x80000000#32 },
  { name := "PWM_GTRIP", inst := some (16, 19), off := 0x8, rws := 0xFF03FF#32 },
  { name := "PWM_GWD", inst := some (16, 19), off := 0xC, rws := 0xFF#32 },
  { name := "PWM_GSTAT", inst := some (16, 19), off := 0x240 },
  { name := "PWM_ACFG", inst := some (0, 15), off := 0x0, rws := 0xF7#32, reset := 0xF0#32 },
  { name := "PWM_DT", inst := some (0, 15), off := 0x4, rws := 0x03FF03FF#32 },
  { name := "PWM_MINP", inst := some (0, 15), off := 0x8, rws := 0x3FF#32 },
  { name := "PWM_BSREF", inst := some (0, 15), off := 0xC, rws := 0xF03FF#32, reset := 0x800C8#32 },
  { name := "PWM_TRIP", inst := some (0, 15), off := 0x10, rws := 0xFF03FF#32 },
  { name := "PWM_FORCE", inst := some (0, 15), off := 0x100, rw := 0xFF#32 },
  { name := "PWM_ASTAT", inst := some (0, 15), off := 0x240 },
  { name := "PWM_DUTY", inst := some (0, 15), off := 0x250, cnt := 4, stride := 4, reset := 0x40000000#32 },
  { name := "PWM_MPCNT", inst := some (0, 15), off := 0x260, cnt := 2, stride := 4 },
  { name := "PWM_BSCNT", inst := some (0, 15), off := 0x268 }]

/-- Registers of the DRV block. -/
def rowsDrv : List RegRow := [
  { name := "DRV_STATUS", inst := none, off := 0x0 },
  { name := "DRV_COMMIT", inst := none, off := 0x10, w1s := 0xF#32 },
  { name := "DRV_DSCLR", inst := none, off := 0x18, w1s := 0xFFFFFFFF#32 },
  { name := "DRV_RB", inst := none, off := 0x20, rw := 0x3#32 },
  { name := "DRV_LINKCNT", inst := none, off := 0x24 },
  { name := "DRV_STICKY", inst := none, off := 0x28, w1c := 0x1FFFFF#32 },
  { name := "DRV_DSCFG", inst := some (0, 3), off := 0x0, rws := 0x07FF0FFF#32, reset := 0x026407FF#32 },
  { name := "DRV_DSLAT", inst := some (0, 3), off := 0x4, rws := 0xF#32, reset := 0x3#32 },
  { name := "DRV_BSCFG", inst := some (0, 3), off := 0x8, rws := 0xFFFF3F0F#32, reset := 0x00C8180F#32 },
  { name := "DRV_ASTAT", inst := some (0, 3), off := 0x240 },
  { name := "DRV_DSCNT", inst := some (0, 3), off := 0x244 },
  { name := "DRV_EVCNT", inst := some (0, 3), off := 0x248 },
  { name := "DRV_BSV", inst := some (0, 3), off := 0x24C }]

/-- Registers of the FIO block. -/
def rowsFio : List RegRow := [
  { name := "FIO_STATUS", inst := none, off := 0x0 },
  { name := "FIO_COMMIT", inst := none, off := 0x10, w1s := 0xFFFFFFFF#32 },
  { name := "FIO_COMMIT_HI", inst := none, off := 0x14, w1s := 0xFFFF#32 },
  { name := "FIO_DI", inst := none, off := 0x20 },
  { name := "FIO_DIVALID", inst := none, off := 0x24 },
  { name := "FIO_DIRAW", inst := none, off := 0x28 },
  { name := "FIO_FORCE", inst := none, off := 0x30, rw := 0xFFFF#32 },
  { name := "FIO_VFIELD", inst := none, off := 0x34 },
  { name := "FIO_LINKCNT", inst := none, off := 0x38 },
  { name := "FIO_DICFG", inst := some (0, 31), off := 0x0, rws := 0x3FF#32 },
  { name := "FIO_DISTAT", inst := some (0, 31), off := 0x240 },
  { name := "FIO_DOCFG", inst := some (32, 47), off := 0x0, rws := 0xF#32 },
  { name := "FIO_DOSTART", inst := some (32, 47), off := 0x4, rws := 0xFFFF0FFF#32 },
  { name := "FIO_DOSTAT", inst := some (32, 47), off := 0x240 }]

/-- Registers of the CAN0 block (and of CAN1). -/
def rowsCan0 : List RegRow := [
  { name := "CAN_STAT", inst := none, off := 0x0 },
  { name := "CAN_ERR", inst := none, off := 0x4 },
  { name := "CAN_CTRL", inst := none, off := 0x8, rw := 0xD#32, w1s := 0x2#32, reset := 1#32 },
  { name := "CAN_COMMIT", inst := none, off := 0x10, w1s := 0x1F#32 },
  { name := "CAN_CNT", inst := none, off := 0x20, cnt := 3, stride := 4 },
  { name := "CAN_TXREQ", inst := none, off := 0x30, cnt := 4, stride := 4, w1s := 0xFFFFFFFF#32 },
  { name := "CAN_WAKE", inst := none, off := 0x40, rw := 0xFF#32 },
  { name := "CAN_NBT", inst := some (0, 0), off := 0x0, rws := 0x7FFFFFFF#32 },
  { name := "CAN_DBT", inst := some (0, 0), off := 0x4, rws := 0x0F0F1F1F#32 },
  { name := "CAN_TDC", inst := some (0, 0), off := 0x8, rws := 0x7F01#32 },
  { name := "CAN_OBJ_CFG", inst := some (1, 4), off := 0x0, cnt := 32, stride := 16, rws := 0xFFFF07FF#32 },
  { name := "CAN_OBJ_ID", inst := some (1, 4), off := 0x4, cnt := 32, stride := 16, rws := 0x1FFFFFFF#32 },
  { name := "CAN_OBJ_MASK", inst := some (1, 4), off := 0x8, cnt := 32, stride := 16, rws := 0x7FFFFFFF#32 },
  { name := "CAN_OBJ_MAP", inst := some (1, 4), off := 0xC, cnt := 32, stride := 16, rws := 0x1FFFF#32 }]

/-- Registers of the RING block. -/
def rowsRing : List RegRow := [
  { name := "RING_STATUS", inst := none, off := 0x0 },
  { name := "RING_COMMIT", inst := none, off := 0x10, w1s := 0x1F#32 },
  { name := "RING_N", inst := none, off := 0x20 },
  { name := "RING_BREAK", inst := none, off := 0x24 },
  { name := "RING_TERR", inst := none, off := 0x28 },
  { name := "RING_CNT0", inst := none, off := 0x30 },
  { name := "RING_CNT1", inst := none, off := 0x34 },
  { name := "RING_LINKU", inst := none, off := 0x38 },
  { name := "RING_LINKD", inst := none, off := 0x3C },
  { name := "RING_MINTR", inst := none, off := 0x40, cnt := 2, stride := 4 },
  { name := "RING_CFG", inst := some (0, 0), off := 0x0, rws := 0xFF1F1F03#32 },
  { name := "RING_TR", inst := some (0, 0), off := 0x4, rws := 0xFFFFFF#32 },
  { name := "RING_NDEV", inst := some (0, 0), off := 0x8, rws := 0x1FFF#32 },
  { name := "RING_TIM", inst := some (0, 0), off := 0xC, rws := 0xFFFFFFFF#32, reset := 0xC8#32 },
  { name := "RING_PUBAX", inst := some (0, 0), off := 0x10, rws := 0xFFFFFFFF#32 },
  { name := "RING_ASYMU", inst := some (0, 0), off := 0x14, rws := 0xFFFFFFFF#32 },
  { name := "RING_ASYMD", inst := some (0, 0), off := 0x18, rws := 0xFFFFFFFF#32 },
  { name := "RING_SUB", inst := some (1, 4), off := 0x0, cnt := 64, stride := 4, rws := 0xFFFF9FFF#32 }]

/-- Registers of the SAFE block. -/
def rowsSafe : List RegRow := [
  { name := "SAFE_STATUS", inst := none, off := 0x0, reset := 0xF#32 },
  { name := "SAFE_DEMAND", inst := none, off := 0x4 },
  { name := "SAFE_CRC", inst := none, off := 0x20 },
  { name := "SAFE_CONFIRM", inst := none, off := 0x24 },
  { name := "SAFE_PCRC", inst := none, off := 0x28 },
  { name := "SAFE_FAULT", inst := none, off := 0x30 },
  { name := "SAFE_SS1", inst := none, off := 0x40, cnt := 4, stride := 4 },
  { name := "SAFE_TESTAGE", inst := none, off := 0x50, cnt := 4, stride := 4 },
  { name := "SAFE_CNT", inst := none, off := 0x60 },
  { name := "SAFE_BLOCK", inst := none, off := 0x400, cnt := 128, stride := 4 },
  { name := "SAFE_WORK", inst := none, off := 0x600, cnt := 128, stride := 4 }]

/-- Registers of the LOG block. -/
def rowsLog : List RegRow := [
  { name := "LOG_STATUS", inst := none, off := 0x0 },
  { name := "LOG_HEAD", inst := none, off := 0x20 },
  { name := "LOG_OLDEST", inst := none, off := 0x24 },
  { name := "LOG_LOST", inst := none, off := 0x28 }]

/-- Registers of the HK block. -/
def rowsHk : List RegRow := [
  { name := "HK_COMMIT", inst := none, off := 0x10, w1s := 0xFFFFFF#32 },
  { name := "HK_CHCFG", inst := some (0, 2), off := 0x0, rws := 0x1E#32 },
  { name := "HK_CHCFG", inst := some (3, 23), off := 0x0, rws := 0x1F#32 },
  { name := "HK_LIM", inst := some (0, 23), off := 0x4, rws := 0x0FFF0FFF#32 },
  { name := "HK_RAW", inst := some (0, 23), off := 0x240 },
  { name := "HK_VAL", inst := some (0, 23), off := 0x244 }]

/-- Registers of the STEP block. -/
def rowsStep : List RegRow := [
  { name := "STEP_COMMIT", inst := none, off := 0x10, w1s := 0xFFFFF#32 },
  { name := "STEP_SDSEL", inst := none, off := 0x20, rw := 0xFFFFFFFF#32 },
  { name := "STEP_SDPOL", inst := none, off := 0x24, rw := 0xFFFF#32 },
  { name := "STEP_OVSPD", inst := none, off := 0x28, w1c := 0xFFFF#32 },
  { name := "STEP_CFG", inst := some (0, 15), off := 0x0, rws := 0xFFFF001F#32 },
  { name := "STEP_USPC", inst := some (0, 15), off := 0x4, rws := 0xFFFFFFFF#32, reset := 0x10000#32 },
  { name := "STEP_IRUN", inst := some (0, 15), off := 0x8, rws := 0xFFFFFFFF#32 },
  { name := "STEP_IHOLD", inst := some (0, 15), off := 0xC, rws := 0xFFFFFFFF#32 },
  { name := "STEP_OFS", inst := some (0, 15), off := 0x10, rws := 0x3FF#32 },
  { name := "STEP_STAT", inst := some (0, 15), off := 0x240 },
  { name := "STEP_USPOS", inst := some (0, 15), off := 0x248, cnt := 2, stride := 4 }]

/-- Registers of the HOME block. -/
def rowsHome : List RegRow := [
  { name := "HOME_STATUS", inst := none, off := 0x0 },
  { name := "HOME_COMMIT", inst := none, off := 0x10, w1s := 0xFFFF#32 },
  { name := "HOME_CFG", inst := some (0, 15), off := 0x0, rws := 0xFF3FFF#32 },
  { name := "HOME_LIM", inst := some (0, 15), off := 0x4, rws := 0xFFFFFF7F#32 },
  { name := "HOME_VFAST", inst := some (0, 15), off := 0x8, rws := 0xFFFFFFFF#32 },
  { name := "HOME_VSLOW", inst := some (0, 15), off := 0xC, rws := 0xFFFFFFFF#32 },
  { name := "HOME_ACC", inst := some (0, 15), off := 0x10, rws := 0xFFFFFFFF#32 },
  { name := "HOME_JERK", inst := some (0, 15), off := 0x14, rws := 0xFFFFFFFF#32 },
  { name := "HOME_BACKOFF", inst := some (0, 15), off := 0x18, rws := 0xFFFFFFFF#32 },
  { name := "HOME_MAXDIST", inst := some (0, 15), off := 0x1C, rws := 0xFFFFFFFF#32 },
  { name := "HOME_POS", inst := some (0, 15), off := 0x20, cnt := 2, stride := 4, rws := 0xFFFFFFFF#32 },
  { name := "HOME_TGT", inst := some (0, 15), off := 0x28, cnt := 2, stride := 4, rws := 0xFFFFFFFF#32 },
  { name := "SLIM_POS", inst := some (0, 15), off := 0x30, cnt := 2, stride := 4, rws := 0xFFFFFFFF#32 },
  { name := "SLIM_NEG", inst := some (0, 15), off := 0x38, cnt := 2, stride := 4, rws := 0xFFFFFFFF#32 },
  { name := "HOME_HSCUR", inst := some (0, 15), off := 0x40, rws := 0xFFFFFFFF#32 },
  { name := "HOME_TMO", inst := some (0, 15), off := 0x44, rws := 0xFFFF#32 },
  { name := "HOME_STAT", inst := some (0, 15), off := 0x280 },
  { name := "HOME_SHIFT", inst := some (0, 15), off := 0x288, cnt := 2, stride := 4 },
  { name := "HOME_REF", inst := some (0, 15), off := 0x290, cnt := 2, stride := 4 }]

/-- Registers of the SX block. -/
def rowsSx : List RegRow := [
  { name := "SX_CTRL", inst := none, off := 0x0, rw := 0x1#32, w1s := 0x2#32 },
  { name := "SX_STAT", inst := none, off := 0x4 },
  { name := "SX_PC", inst := none, off := 0x8 },
  { name := "SX_ST", inst := none, off := 0xC },
  { name := "SX_FRAME", inst := none, off := 0x10, cnt := 3, stride := 4 },
  { name := "SX_FAULT", inst := none, off := 0x20 },
  { name := "SX_STICKY", inst := none, off := 0x24, w1c := 0x3#32 },
  { name := "SX_IDLE", inst := none, off := 0x28, rw := 0x1FFF#32 },
  { name := "SX_BUSY", inst := none, off := 0x30, cnt := 2, stride := 4 },
  { name := "SX_PROBE", inst := none, off := 0x38, rw := 0xF#32 },
  { name := "SX_PROBEMAX", inst := none, off := 0x3C },
  { name := "SX_XBUF", inst := none, off := 0x40 }]

/-- The rows of a block. -/
def blkRows : Blk → List RegRow
  | .sys => rowsSys
  | .pmu => rowsPmu
  | .boot => rowsBoot
  | .chron => rowsChron
  | .prot => rowsProt
  | .que => rowsQue
  | .prof => rowsProf
  | .loop => rowsLoop
  | .enc => rowsEnc
  | .sdm => rowsSdm
  | .pwm => rowsPwm
  | .drv => rowsDrv
  | .fio => rowsFio
  | .can0 => rowsCan0
  | .can1 => rowsCan0
  | .ring => rowsRing
  | .safe => rowsSafe
  | .log => rowsLog
  | .hk => rowsHk
  | .step => rowsStep
  | .home => rowsHome
  | .sx => rowsSx

/-- Base address of a peripheral block (spec 13 Table 13-1); of the control registers of cluster 0 (spec 11). -/
def Blk.base (b : Blk) : Nat := if b = .sx then 0x30F00000 else 0x60000000 + b.num * 0x10000

/-- Spacing of the instances of a block: 0x3C0 for QUE, else 0x400 (spec 00 R7). -/
def Blk.instStride (b : Blk) : Nat := if b = .que then 0x3C0 else 0x400

/-- Address of a block-level register. -/
def bAddr (b : Blk) (off : Nat) : Nat := b.base + off

/-- Address of a register of instance n (spec 00 R7). -/
def iAddr (b : Blk) (n off : Nat) : Nat := b.base + 0x1000 + n * b.instStride + off

/-- Address of a control register of cluster g (spec 11). -/
def sxAddr (g off : Nat) : Nat := 0x30F00000 + g * 0x1000000 + off

/-- The block of a register address. -/
def blkOf (a : Nat) : Option Blk :=
  if 0x60000000 ≤ a ∧ a < 0x60150000 then
    match (a - 0x60000000) / 0x10000 with

    | 0 => some .sys
    | 1 => some .pmu
    | 2 => some .boot
    | 3 => some .chron
    | 4 => some .prot
    | 5 => some .que
    | 6 => some .prof
    | 7 => some .loop
    | 8 => some .enc
    | 9 => some .sdm
    | 10 => some .pwm
    | 11 => some .drv
    | 12 => some .fio
    | 13 => some .can0
    | 14 => some .can1
    | 15 => some .ring
    | 16 => some .safe
    | 17 => some .log
    | 18 => some .hk
    | 19 => some .step
    | 20 => some .home
    | _ => none
  else if 0x30F00000 ≤ a ∧ a < 0x34000000 ∧ (a - 0x30000000) % 0x1000000 ≥ 0xF00000 ∧ (a - 0x30000000) % 0x1000000 < 0xF01000 then
    some .sx
  else none

/-- What an address of a register block names. -/
structure RegHit where
  blk : Blk
  row : RegRow
  inst : Nat
  idx : Nat
  active : Bool
  deriving DecidableEq, Repr

/-- Does a row hold an offset, and at which index of its array? -/
def RegRow.at? (r : RegRow) (o : Nat) : Option Nat :=
  if o < r.off then none
  else if r.cnt = 1 then (if o = r.off then some 0 else none)
  else if (o - r.off) % r.stride = 0 ∧ (o - r.off) / r.stride < r.cnt then some ((o - r.off) / r.stride) else none

/-- Does a row serve an instance (none = block level)? -/
def RegRow.serves (r : RegRow) (i : Option Nat) : Bool :=
  match r.inst, i with
  | none, none => true
  | some (lo, hi), some n => decide (lo ≤ n ∧ n ≤ hi)
  | _, _ => false

/-- The first row of a list that holds the offset: the register itself, or the active copy 0x200 above it (R8). -/
def findRow (b : Blk) (i : Option Nat) (o : Nat) : List RegRow → Option RegHit
  | [] => none
  | r :: rs =>
    if r.serves i then
      match r.at? o with
      | some k => some { blk := b, row := r, inst := i.getD 0, idx := k, active := false }
      | none =>
        if r.rws ≠ 0#32 ∧ 0x200 ≤ o then
          match r.at? (o - 0x200) with
          | some k => some { blk := b, row := r, inst := i.getD 0, idx := k, active := true }
          | none => findRow b i o rs
        else findRow b i o rs
    else findRow b i o rs

/-- The register at an address of a register block; none where no register lies there. -/
def findReg (a : Nat) : Option RegHit :=
  match blkOf a with
  | none => none
  | some b =>
    let o := if b = .sx then (a - 0x30000000) % 0x1000000 - 0xF00000 else a % 0x10000
    if b = .sx ∨ o < 0x1000 then findRow b none o (blkRows b)
    else findRow b (some ((o - 0x1000) / b.instStride)) ((o - 0x1000) % b.instStride) (blkRows b)

/-- Capacities of the reserved queues 0 to 7 (spec 14 Table 14-1). -/
def resCap : Nat → Nat
  | 0 => 1024 | 1 => 4096 | 2 => 65536 | 3 => 8192 | 4 => 8192 | 5 => 4096 | 6 => 16384 | 7 => 16384 | _ => 0

/-- QUE_CFG of the reserved queues: EMPTY = IDLE and IEND = 1 for queues 0, 1, 2, 5 and 7, ORD for 3 and 4. -/
def resCfg (q : Nat) : Word :=
  if q = 0 ∨ q = 1 ∨ q = 2 ∨ q = 5 ∨ q = 7 then 0x11#32 else if q = 3 ∨ q = 4 then 0x20#32 else 0#32

/-- Reset LO of a housekeeping channel (spec 07 Table 7-3). -/
def hkLo : Nat → Nat
  | 3 => 750 | 4 => 3040 | 5 => 3420 | 6 => 3135 | 7 => 1900 | 8 => 1900 | 9 => 2500 | 10 => 2450 | _ => 0

/-- Reset HI of a housekeeping channel (spec 07 Table 7-3). -/
def hkHi : Nat → Nat
  | 0 => 3300 | 1 => 3300 | 2 => 3300 | 3 => 3000 | 4 => 3360 | 5 => 3780 | 6 => 3465 | 7 => 2100 | 8 => 2100
  | 9 => 3750 | 10 => 2550 | 11 => 20 | _ => 0

/-- Entries 0 on of round(32,767 sin(πi/512)) (spec 05 R146). -/
def sinTab0 : List Nat := [0, 201, 402, 603, 804, 1005, 1206, 1407, 1608, 1809, 2009, 2210, 2410, 2611, 2811, 3012, 3212, 3412, 3612, 3811, 4011, 4210, 4410, 4609, 4808, 5007, 5205, 5404, 5602, 5800, 5998, 6195]

/-- Entries 32 on of round(32,767 sin(πi/512)) (spec 05 R146). -/
def sinTab1 : List Nat := [6393, 6590, 6786, 6983, 7179, 7375, 7571, 7767, 7962, 8157, 8351, 8545, 8739, 8933, 9126, 9319, 9512, 9704, 9896, 10087, 10278, 10469, 10659, 10849, 11039, 11228, 11417, 11605, 11793, 11980, 12167, 12353]

/-- Entries 64 on of round(32,767 sin(πi/512)) (spec 05 R146). -/
def sinTab2 : List Nat := [12539, 12725, 12910, 13094, 13279, 13462, 13645, 13828, 14010, 14191, 14372, 14553, 14732, 14912, 15090, 15269, 15446, 15623, 15800, 15976, 16151, 16325, 16499, 16673, 16846, 17018, 17189, 17360, 17530, 17700, 17869, 18037]

/-- Entries 96 on of round(32,767 sin(πi/512)) (spec 05 R146). -/
def sinTab3 : List Nat := [18204, 18371, 18537, 18703, 18868, 19032, 19195, 19357, 19519, 19680, 19841, 20000, 20159, 20317, 20475, 20631, 20787, 20942, 21096, 21250, 21403, 21554, 21705, 21856, 22005, 22154, 22301, 22448, 22594, 22739, 22884, 23027]

/-- Entries 128 on of round(32,767 sin(πi/512)) (spec 05 R146). -/
def sinTab4 : List Nat := [23170, 23311, 23452, 23592, 23731, 23870, 24007, 24143, 24279, 24413, 24547, 24680, 24811, 24942, 25072, 25201, 25329, 25456, 25582, 25708, 25832, 25955, 26077, 26198, 26319, 26438, 26556, 26674, 26790, 26905, 27019, 27133]

/-- Entries 160 on of round(32,767 sin(πi/512)) (spec 05 R146). -/
def sinTab5 : List Nat := [27245, 27356, 27466, 27575, 27683, 27790, 27896, 28001, 28105, 28208, 28310, 28411, 28510, 28609, 28706, 28803, 28898, 28992, 29085, 29177, 29268, 29358, 29447, 29534, 29621, 29706, 29791, 29874, 29956, 30037, 30117, 30195]

/-- Entries 192 on of round(32,767 sin(πi/512)) (spec 05 R146). -/
def sinTab6 : List Nat := [30273, 30349, 30424, 30498, 30571, 30643, 30714, 30783, 30852, 30919, 30985, 31050, 31113, 31176, 31237, 31297, 31356, 31414, 31470, 31526, 31580, 31633, 31685, 31736, 31785, 31833, 31880, 31926, 31971, 32014, 32057, 32098]

/-- Entries 224 on of round(32,767 sin(πi/512)) (spec 05 R146). -/
def sinTab7 : List Nat := [32137, 32176, 32213, 32250, 32285, 32318, 32351, 32382, 32412, 32441, 32469, 32495, 32521, 32545, 32567, 32589, 32609, 32628, 32646, 32663, 32678, 32692, 32705, 32717, 32728, 32737, 32745, 32752, 32757, 32761, 32765, 32766]

/-- Entries 256 on of round(32,767 sin(πi/512)) (spec 05 R146). -/
def sinTab8 : List Nat := [32767]

/-- round(32,767 sin(πi/512)) for i = 0 to 256 (spec 05 R146). -/
def sinTab : List Nat := sinTab0 ++ sinTab1 ++ sinTab2 ++ sinTab3 ++ sinTab4 ++ sinTab5 ++ sinTab6 ++ sinTab7 ++ sinTab8

/-- Reset content of entry i of a shaping table: ta = cosine in [15:0], tb = sine in [31:16] (spec 05 R146). -/
def stepTabReset (i : Nat) : Word := wd (sinTab.getD (256 - i) 0 + 65536 * sinTab.getD i 0)


/-- Reset value of a register address: the row's, but for the tables of spec 07 Table 7-3, 14 Table 14-1 and 05 R146;
an address with no register reads 0. The active copy has the reset value of its pending register (log entry 1). -/
def regReset (a : Nat) : Word :=
  if 0x60138000 ≤ a ∧ a < 0x6013A000 then stepTabReset ((a - 0x60138000) % 0x400 / 4)
  else match findReg a with
    | none => 0#32
    | some h =>
      match h.blk, h.row.off with
      | .hk, 0x0 => if h.inst < 12 then 1#32 else 0#32
      | .hk, 0x4 => setFld (wd (hkLo h.inst)) 16 12 (hkHi h.inst)
      | .que, 0x0 => if h.row.inst = none then 0#32 else resCfg h.inst
      | .que, 0x4 => wd (resCap h.inst)
      | _, _ => h.row.reset

end Sys2Proof.Machine
end

