-- ==== Sys2Proof/Machine/Sparse.lean ====
section
/-!
DEFINITION. Sparse data by key: a list of (key, value) pairs in ONE canonical form, keys strictly rising and no
entry equal to the default of its key, so that equal contents are equal lists. The registers, the Chart, the
attribute array, shared SRAM, eDRAM and the cluster memories are held this way (log entry 4).
-/
namespace Sys2Proof.Machine

variable {α : Type}

/-- The value at a key; an unlisted key reads as its default. -/
def sget (d : Nat → α) : List (Nat × α) → Nat → α
  | [], k => d k
  | (k', v) :: l, k => if k = k' then v else sget d l k

/-- The list without any entry at a key. -/
def sdel : List (Nat × α) → Nat → List (Nat × α)
  | [], _ => []
  | (k', v) :: l, k => if k = k' then sdel l k else (k', v) :: sdel l k

/-- The list with a value put at a key, in key order. -/
def sput : List (Nat × α) → Nat → α → List (Nat × α)
  | [], k, v => [(k, v)]
  | (k', v') :: l, k, v =>
    if k < k' then (k, v) :: (k', v') :: l
    else if k = k' then (k, v) :: l
    else (k', v') :: sput l k v

/-- Write a value: writing the default removes the entry, so the canonical form is kept. -/
def sset [DecidableEq α] (d : Nat → α) (l : List (Nat × α)) (k : Nat) (v : α) : List (Nat × α) :=
  if v = d k then sdel l k else sput l k v

/-- Every key of the list is above a bound, keys rise strictly, and no entry holds its default. -/
def swfFrom [DecidableEq α] (d : Nat → α) : Option Nat → List (Nat × α) → Bool
  | _, [] => true
  | b, (k, v) :: l =>
    (match b with | none => true | some n => decide (n < k)) && decide (v ≠ d k) && swfFrom d (some k) l

/-- The canonical form of a sparse list. -/
def swf [DecidableEq α] (d : Nat → α) (l : List (Nat × α)) : Bool := swfFrom d none l

end Sys2Proof.Machine
end

