-- ==== Sys2Proof/Machine/State.lean ====
section
/-!
DEFINITION. The state of the block as plain data, its faults and refusals, and the state right after reset.
The register file (spec chapters' register maps), the Chart, the memories, the queues, the Helm's records, and for
each unit the state the spec gives it beside its registers. The queue of waiting commands is State.pending.
-/
namespace Sys2Proof.Machine

/-- Ends of a run by a fault. The spec gives every error of the block an effect on its state (spec 02 R50), so no
command raises one; the constructor names what an absolute-maximum violation would be (spec 20 R491) and stands
unused. Safe: it stops the model where the spec gives no machine any more. -/
inductive Fault where
  | deviceDestroyed
  deriving DecidableEq, Repr

/-- Refusals of the model. -/
inductive Refusal where
  /-- Raised by an arm of Dispatch whose command has no meaning yet. Safe: the model stops where the hardware goes on. -/
  | notModelled (mnemonic : String)
  deriving DecidableEq, Repr

/-- A fault or event as it is raised and reported: code (spec 00 R14), level (spec 02 Table 2-10), the axes it acts
on, axis byte (spec 23 Table 23-1), ship time of detection and data words (spec 23 R565). -/
structure FaultRec where
  code : BitVec 16
  level : Nat
  axes : BitVec 16
  axis : Byte
  time : Nat
  data : List Word
  deriving DecidableEq, Repr

/-- Where a queue item is held: head or tail registers, or spill in eDRAM (spec 14 R349). -/
inductive Place where
  | head
  | spill
  | tail
  deriving DecidableEq, Repr

/-- A queue item: word and side bits (spec 14 R341), where it is held, and, of a fault item of queues 0 and 1, the ship time of its
fault, by which R54 orders it (spec 02). -/
structure QItem where
  word : Word
  prio : Nat
  fin : Bool
  place : Place
  time : Nat := 0
  deriving DecidableEq, Repr

/-- A queue: readable packets in the order in which they became readable, each writer's open packet, and the rest of
the packet being read (spec 14 R342, R343). -/
structure Queue where
  pkts : List (List QItem)
  opens : List (Nat × List QItem)
  rest : List QItem
  deriving DecidableEq, Repr

/-- A stalled read of a queue: master, queue, side bits asked, and X register or S register context (spec 14 R348). -/
structure Stall where
  master : Nat
  queue : Nat
  deriving DecidableEq, Repr

/-- What the Helm firmware keeps (spec 02): unacknowledged faults of level 1 or above, the FAULTN pin, the time from
which the owner timeout runs and whether OWNER_LOST was raised for it (R45), the ship time at which FIRST was taken (R54, R56), a transition under way (R41), HALT due when the ramps end (R38), a RUN request
waiting for its release wave (spec 15 R384), the postmortem record (R61), the faults already logged in this second
(R44), a seal code in force (R37), the transfers held by frozen masters (spec 23 R553), the ROM build, corrected errors counted in the
last second and at its start (13 Table 13-5, point 15), dumps made (master, state words), the flags of the record, the time at which BOOT was left, and the ship time
from which the planner is free (spec 03 R71). -/
structure Helm where
  latched : List FaultRec
  faultnLow : Bool
  ownerFrom : Nat
  ownerOut : Bool
  firstAt : Nat
  toStandby : Bool
  toSleep : Bool
  haltAfterRamps : Bool
  runWait : Bool
  haltCode : BitVec 16
  haltTime : Nat
  haltPrev : Nat
  pmPending : Bool
  pmDone : Bool
  pmInhibit : Bool
  pmRecord : List Byte
  once : List (Nat × Nat)
  sealSeen : Bool
  frozenXfer : List (Nat × (Nat × Nat × Nat))
  build : Word
  corrSec : Nat
  corrMark : Nat
  dumps : List (Nat × List Word)
  pmFlags : Nat
  bootLeft : Nat
  planFree : Nat
  deriving DecidableEq, Repr

/-- A profile segment with constant jerk: number 1-7 of spec 03 Table 3-9, signed jerk in counts/s³, whole ns, and
whether it belongs to the return part of an overshoot (R87); with the planned velocity and acceleration at its end on the grids of R90. -/
structure Seg where
  idx : Nat
  jerk : Rat
  dur : Nat
  rev : Bool
  v1 : Int
  a1 : Int
  deriving DecidableEq, Repr

/-- The line of a path move of an interpolation group (spec 04 R111-R113): an arc or not; each member's start and end
coordinates in 1/65,536 count; length in counts; the arc's centre, radius in counts, signed sweep in turns, and its
members P and Q. -/
structure IPath where
  arc : Bool
  start : List Int
  stop : List Int
  len : Rat
  cp : Int
  cq : Int
  radius : Rat
  sweep : Rat
  pm : Nat
  qm : Nat
  deriving DecidableEq, Repr

/-- A move as accepted from the staging points (spec 03 R67, R70): TYPE, target in 1/65,536 count, limits after the
clamps, target velocity, dwell in µs, BLEND, NOOVER and TAG; for a path move its line, and the velocity
cap at the joint before it (spec 04 R114). -/
structure Move where
  kind : Nat
  target : Int
  vmax : Rat
  amax : Rat
  dmax : Rat
  jmax : Rat
  vtgt : Rat
  dwell : Nat
  blend : Nat
  noover : Bool
  tag : Nat
  path : Option IPath
  jcap : Option Rat
  deriving DecidableEq, Repr

/-- The running move: its end position where it has one, the joint velocity planned for its end, the dwell time left in
ns and whether it has begun to run, the rounding residual still to spread in 1/65,536 count (spec 03 R91), and done: a VEL
move that has completed and runs on at VTGT (R73). -/
structure Running where
  mv : Move
  endPos : Option Int
  ve : Rat
  dwellLeft : Nat
  dwellRun : Bool
  resid : Int
  done : Bool
  deriving DecidableEq, Repr

/-- An accepted move on its way to the queue (spec 03 R71): the move, its ACTION, the boundary at which it is due, and the ship time
at which the planner is done with it. -/
structure Entering where
  mv : Move
  act : Nat
  due : Nat
  ready : Nat
  deriving DecidableEq, Repr

/-- The profile engine of one axis (spec 03 R73, R90): planned position in 1/65,536 count, velocity in 2^-32 count/s
and acceleration in 2^-24 count/s² at the last boundary; the start state and ship time of the segment in progress;
the segments from it on; the running and waiting moves; moves accepted and on their way to the queue
(R71); quick stop and HOLD in effect; the target of the last move; a validly committed set (R96); and the boundary of a re-plan that
lowered limits ask for (R94). -/
structure Motion where
  p : Int
  v : Int
  a : Int
  t0 : Nat
  p0 : Int
  v0 : Int
  a0 : Int
  segs : List Seg
  run : Option Running
  wait : List Move
  enter : List Entering
  qstop : Bool
  hold : Bool
  starved : Bool
  lastTarget : Option Int
  doneTag : Nat
  committed : Bool
  replan : Option Nat
  deriving DecidableEq, Repr

/-- The axis's own sequence (spec 02 R564, AX_STATE codes 0 to 4). -/
inductive Seq where
  | disabled
  | enabling
  | ready
  | moving
  | stopping
  deriving DecidableEq, Repr

/-- Sequence state of one axis: its own state, ENABLE as the Helm last read it (spec 03 R563), a level-1 stop in effect
and since when (spec 02 R51, R52), torque to be removed at standstill (03 R66), the start request it waits for (spec 20 R504), and the boundary at
which a submission was last taken (03 R68). -/
structure AxisSeq where
  seq : Seq
  lastEnable : Bool
  faultStop : Bool
  offAtRest : Bool
  stopSince : Nat
  precharge : Nat
  granted : Bool
  lastCode : BitVec 16
  subAt : Option Nat
  deriving DecidableEq, Repr

/-- A latch record: t_L in ns, p_L in 1/65,536 count, v_L and a_L, and the master's AX_STATE word (spec 04 R108). -/
structure LatchRec where
  t : Nat
  p : Int
  v : Rat
  a : Rat
  st : Word
  deriving DecidableEq, Repr

/-- Gearing of one axis (spec 04 R101-R109): PHASE 0-3, term g in 1/65,536 count and what its divisions left over, master
positions at engage and at disengage, factor k0 at the disengage, master position last used, NUM and DEN in use for the
travel, newest remote record and its age, missed ring watches, the stale flag, whether GEAR was rewritten after a
fold (R105), a change of GEAR whose master position the coming advance takes (1 engage, 2 disengage), and a removal of torque that has still
to fold. -/
structure Gear where
  phase : Nat
  g : Int
  gRem : Rat
  gf : Int
  me : Int
  md : Int
  k0 : Rat
  mp : Int
  num : Int
  den : Nat
  recd : Option LatchRec
  age : Nat
  missed : Nat
  stale : Bool
  armed : Bool
  mark : Nat
  foldDue : Bool
  deriving DecidableEq, Repr

/-- Superposition of one axis (spec 04 R116, R117): in effect, term s, captured s_0, in 1/65,536 count, the velocity of s,
SSEQ last seen and its age in boundaries, the offset held, and whether SUPER was rewritten after a fold. -/
structure Super where
  on : Bool
  s : Int
  s0 : Int
  vs : Rat
  seq : Option Word
  age : Nat
  held : Bool
  armed : Bool
  deriving DecidableEq, Repr

/-- The envelope limiter of one axis (spec 04 R118, R119): limited command y in 1/65,536 count, its velocity and
acceleration, the ship time of its last boundary, following or not, the command sum u of that boundary with its velocity
and acceleration, the peak clip of the episode and CLIP_EXCESS raised in this excess. -/
structure Env where
  y : Int
  vy : Rat
  ay : Rat
  t : Nat
  follow : Bool
  u : Int
  vu : Rat
  au : Rat
  peak : Nat
  excess : Bool
  deriving DecidableEq, Repr

/-- State of one interpolation group (spec 04 R110-R115): the path profile as a Motion over path length, the line it is
on with the path coordinate of its start, what folds have added to each member, and a stop of the path that a loss of torque asks for. -/
structure IGroup where
  mot : Motion
  cur : Option IPath
  base : Int
  offs : List Int
  stopDue : Bool
  deriving DecidableEq, Repr

/-- Homing and limits of one axis (spec 05 R124-R139): STATE 0-9 of Table 5-2, what the state does (0 moving, 1 stopping,
2 running on over HOME_BACKOFF, 3 stopping at a limit), ship time of the start, planned position at the state's start or
at the edge, switch seen active in REVERSE, captured reference in POS_ACT coordinates, hard-stop count, REVERSED, HOMED,
HOME refusal already logged, limit and home switch levels, HW_LIMIT, LIMIT_BOTH and SOFT_LIMIT episodes, transitions
(input, ship time) in the chatter window, CHATTER, and latch unit 1 armed before homing took it over (R137). -/
structure Homing where
  state : Nat
  sub : Nat
  t0 : Nat
  from_ : Int
  seen : Bool
  cap : Option Int
  hsCount : Nat
  reversed : Bool
  homed : Bool
  refused : Bool
  limP : Bool
  limN : Bool
  hsw : Bool
  hwEp : Bool
  bothEp : Bool
  softEp : Bool
  trans : List (Nat × Nat)
  chatter : Bool
  lArm : Bool
  deriving DecidableEq, Repr

/-- Stepper state of one axis (spec 05 R145-R148): microsteps at the last centre, the command set used (y, vy, ay, W),
the ship time since which vy = 0, and hold current in use. -/
structure Stepper where
  us : Int
  valid : Bool
  y : Int
  vy : Rat
  ay : Rat
  w : Nat
  still : Option Nat
  holdCur : Bool
  deriving DecidableEq, Repr

/-- The profile engine at rest at 0 with an empty queue and no committed set. -/
def motionReset : Motion :=
  { p := 0, v := 0, a := 0, t0 := 0, p0 := 0, v0 := 0, a0 := 0, segs := [], run := none, wait := [], enter := [],
    qstop := false, hold := false, starved := false, lastTarget := none, doneTag := 0, committed := false, replan := none }

/-- What a slot does in one period (spec 09 R222-R231): OFF, LOW, edges of an owned interval, or a forced state. -/
inductive SlotKind where
  | off
  | low
  | pwm
  | forced
  deriving DecidableEq, Repr

/-- Computed edges of a slot in one period: what the slot does, its switch states at the boundary and its edge times
(spec 09 R224, R226; the record of spec 10 Table 10-4 holds the same for pin and drive-die axes), a second on-edge of the low side, the
frozen word, and HPOL and LPOL of its computation (R240). -/
structure Edge where
  kind : SlotKind
  r : SlotRec
  lon2 : BitVec 24
  word : Word
  pol : Nat
  deriving DecidableEq, Repr

/-- One half-bridge slot (spec 09 R226): accumulator in 1/16 tick, refresh count, the previous computation (s, D', low
pulse, required low length), the switches on at the end of the last computed period, the tick of the next period at which the dead time of
a low pulse under way ends (R225), edges waiting for their boundary and edges active. -/
structure Slot where
  acc : Int
  nref : Nat
  sprev : Int
  dprev : Int
  lowprev : Bool
  lprev : Int
  endH : Bool
  endL : Bool
  lonAt : Option Nat
  next : Edge
  cur : Edge
  deriving DecidableEq, Repr

/-- PWM state of one axis: duty shadows and completion mark, the frozen set (spec 01 R23), consecutive misses (R25) and
watchdog count (09 R237), the four slots, the level of pin TRIPn and the over-current source (R232; the filtered source is PWM_TRIPIN), the trip acting in this
period, and an accepted clear waiting for the boundary (R235). -/
structure PwmAxis where
  shadow : Vector Word 4
  mark : Bool
  frozen : Vector Word 4
  miss : Nat
  wd : Nat
  slots : Vector Slot 4
  pin : Bool
  oc : Bool
  acting : Bool
  clear : Bool
  deriving DecidableEq, Repr

/-- PWM state of one group: ship time of its period 0 (spec 09 R221), the period boundary and the watch boundary last taken, group off by DUTY_WD at
level 0 (R237), level of pin TRIPG(g), acting in this period, clear waiting; the ship time at which the group's command sets are
on the command path, and whether their watch trigger is still to be raised (spec 01 R26); and the boundary that a LATE_DUTY belongs to, with the
axes that were active before it (spec 06 R171). -/
structure PwmGroup where
  start : Nat
  lastPb : Option Nat
  lastWb : Option Nat
  wd0 : Bool
  pin : Bool
  acting : Bool
  clear : Bool
  served : Nat
  trigDue : Bool
  lateAct : Nat × BitVec 16
  deriving DecidableEq, Repr

/-- A record with both switches off and no edge. -/
def recOff : SlotRec :=
  { sth := false, stl := false, hon := 0xFFFFFF#24, hoff := 0xFFFFFF#24, lon := 0xFFFFFF#24, loff := 0xFFFFFF#24 }

/-- An edge that keeps both switches off, with the OFF word. -/
def edgeOff : Edge := { kind := .off, r := recOff, lon2 := 0xFFFFFF#24, word := 0x40000000#32, pol := 0 }

/-- A slot after reset: OFF, accumulator 0 (spec 09 R222). -/
def slotReset : Slot :=
  { acc := 0, nref := 0, sprev := 0, dprev := 0, lowprev := false, lprev := 0, endH := false, endL := false,
    lonAt := none, next := edgeOff, cur := edgeOff }

/-- Histories of one notch biquad (spec 06 R161). -/
structure Notch where
  x1 : Rat
  x2 : Rat
  y1 : Rat
  y2 : Rat
  deriving DecidableEq, Repr

/-- Coefficients of one notch as the Helm derives them at conversion (spec 06 R161); a1 = b1. A notch with F = 0 is off. -/
structure NotchCo where
  on : Bool
  b0 : Rat
  b1 : Rat
  b2 : Rat
  a2 : Rat
  deriving DecidableEq, Repr

/-- A coefficient block of a kernel (spec 06 R163): the F32 words it was converted from, and the notches. -/
structure Coefs where
  words : List Word
  notch : List NotchCo
  deriving DecidableEq, Repr

/-- Kernel state of one axis (spec 06 R156-R168): d and q (or first and second bridge) integrators, the two voltages in
the stationary frame, previous electrical angle, filtered velocity and previous position, velocity integrator, notch
histories, estimator (resistance, inductance scale, each with its clamp state, and the current predicted for the coming sample), periods of the
present saturation episode, V/f or slip angle, rotor flux, current reference computed and in use (Q1.31), the watch whose kernels were last
done and consecutive watch misses, following error beyond its limit at the last boundary, the adopted coefficient block and one complete but not
yet adopted (R163). -/
structure LoopAx where
  int0 : Rat
  int1 : Rat
  uk : Rat × Rat
  uk1 : Rat × Rat
  thPrev : Option Rat
  vf : Rat
  paPrev : Option Int
  s : Rat
  notches : Vector Notch 4
  rest : Rat
  kl : Rat
  pred : Option (Rat × Rat)
  clampR : Bool
  clampL : Bool
  satRun : Nat
  angle : Rat
  flux : Rat
  iqNext : Word
  iqAct : Word
  watchDone : Option Nat
  watchMiss : Nat
  follow : Bool
  ferr : Rat
  coeff : Coefs
  newCoeff : Option Coefs
  deriving DecidableEq, Repr

/-- A trigger source of a cluster (spec 06 Table 6-4) with its SEL, or the entry of a software trigger. -/
structure Trig where
  src : Nat
  sel : Nat
  deriving DecidableEq, Repr

/-- A chain: its trigger, the entries still to run, the entry running (none while Brass runs or at its end), and the watch of its dispatch (spec 01
R27). -/
structure Chain where
  trig : Trig
  rest : List Nat
  entry : Nat
  widx : Nat := 0
  deriving DecidableEq, Repr

/-- A frame of the save stack (spec 11 R286), the chain it belongs to, its cycles so far, and which of its loops rotate (log entry 22). -/
structure Frame where
  pc : Nat
  st : Word
  chain : Chain
  cyc : Nat
  rot : Vector Bool 2
  deriving DecidableEq, Repr

/-- An external access of a cluster still to complete, in issue order (spec 11 R290): a posted write, with its side bits where
SB = 1, or the place of an external read (its priority level). -/
structure Posted where
  addr : Nat
  word : Word
  side : Option Nat
  read : Option Nat
  deriving DecidableEq, Repr

/-- An outstanding or parked external read (spec 11 R287): address, destination scalar register, SB, the priority level
that issued it, its data and side bits once returned, and since when its word has stalled. -/
structure ExtRead where
  addr : Nat
  reg : Nat
  sb : Bool
  prio : Nat
  data : Option (Word × Nat)
  t0 : Nat
  deriving DecidableEq, Repr

/-- Execution state of a cluster (spec 11 Table 11-16). -/
inductive CState where
  | idle
  | running
  | frozen
  | halted
  deriving DecidableEq, Repr

/-- Registers of one lane (spec 11 R273): physical X0-X31 and A0-A3. -/
structure Lane where
  x : Vector Word 32
  a : Vector (BitVec 72) 4
  deriving DecidableEq, Repr

/-- An issued word for the hazards of spec 12 R316: the word, the RRB it issued under, the X and Y memory words it stored to. -/
structure Issued where
  word : DWord
  rrb : Nat
  xs : List Nat
  ys : List Nat
  deriving DecidableEq, Repr

/-- A Sextant cluster (spec 11): scalar, address, loop and lane registers, rotating base, TIX, QSB, execution state, save
stack, running chain, waiting triggers, posted writes, external reads, first word of an entry still to issue (R285),
words issued last, newest first, program, X and Y memory, busy cycles and the probe run. -/
structure Cluster where
  pc : Nat
  st : Word
  lc : Vector Nat 2
  ls : Vector Nat 2
  le : Vector Nat 2
  rrb : Nat
  tix : Word
  qsb : Nat
  s : Vector Word 16
  p : Vector (BitVec 16) 8
  m : Vector (BitVec 16) 8
  b : Vector (BitVec 16) 8
  l : Vector (BitVec 16) 8
  lanes : Vector Lane 4
  rot : Vector Bool 2
  state : CState
  frames : List Frame
  chain : Option Chain
  waiting : List Trig
  posted : List Posted
  hist : List Issued
  reads : List ExtRead
  first : Bool
  prog : List (Nat × DWord)
  x : List (Nat × Word)
  y : List (Nat × Word)
  busy : Nat
  busyMark : Nat
  runCyc : Nat
  deriving DecidableEq, Repr

/-- A cluster with every register and memory word 0 and idle (log entry 3). -/
def clusterReset : Cluster :=
  { pc := 0, st := 0#32, lc := Vector.replicate 2 0, ls := Vector.replicate 2 0, le := Vector.replicate 2 0, rrb := 0,
    tix := 0#32, qsb := 0, s := Vector.replicate 16 0#32, p := Vector.replicate 8 0#16, m := Vector.replicate 8 0#16,
    b := Vector.replicate 8 0#16, l := Vector.replicate 8 0#16,
    lanes := Vector.replicate 4 { x := Vector.replicate 32 0#32, a := Vector.replicate 4 0#72 },
    rot := Vector.replicate 2 false, state := .idle, frames := [], chain := none, waiting := [], posted := [],
    hist := [], reads := [], first := false, prog := [], x := [], y := [], busy := 0, busyMark := 0, runCyc := 0 }

/-- Kernel state at rest (spec 06 R168). -/
def loopAxReset : LoopAx :=
  { int0 := 0, int1 := 0, uk := (0, 0), uk1 := (0, 0), thPrev := none, vf := 0, paPrev := none, s := 0,
    notches := Vector.replicate 4 { x1 := 0, x2 := 0, y1 := 0, y2 := 0 }, rest := 0, kl := 1, pred := none,
    clampR := false, clampL := false, satRun := 0, angle := 0, flux := 0, iqNext := 0#32, iqAct := 0#32, watchDone := none, watchMiss := 0,
    follow := false, ferr := 0, coeff := { words := [], notch := [] }, newCoeff := none }

/-- The sample a feedback channel last took for one group (spec 08 R194, R195): count, edge time, velocity in counts/s,
position in 1/65,536 count, sample time. -/
structure EncSample where
  c : Int
  te : Nat
  v : Rat
  p : Int
  ts : Nat
  valid : Bool
  deriving DecidableEq, Repr

/-- A compare unit (spec 08 R210, R211): the V of its last new active set, whether the first sample of that set is still to come, and the
count changes of the last sample that cross V as advanced, so that the unit fires again. V itself is the active ENC_CuV, the armed flag
ENC_STAT.ARMu. The latch units have no state beside ENC_STAT and their records in the readbacks. -/
structure CmpU where
  base : Int
  first : Bool
  due : List (Int × Int)
  deriving DecidableEq, Repr

/-- What a channel put on the safety tap at the last group-0 sample (spec 08 R213): count, velocity, sample time, UNCERTAIN, WIRE,
index-error count, good index checks, FRAMEERR. -/
structure EncTap where
  c : Int
  v : Rat
  ts : Nat
  unc : Bool
  wire : Bool
  idxErr : Nat
  good : Nat
  frErr : Nat
  deriving DecidableEq, Repr

/-- A serial frame that runs (spec 08 R204, R215): its start, and ENC_SER and ENC_SERT as active then. -/
structure SerialRun where
  start : Nat
  ser : Word
  sert : Word
  deriving DecidableEq, Repr

/-- A feedback channel (spec 08): filtered line levels A, B, Z (bits 0-2) and whether Z was active at the last sample, count, edge time, the
counts and edge times before it, newest first, the samples per group, the safety tap, last index count and whether the direction changed
since, count moved against the held direction, compare units, good index checks, wire pairs found faulty and per pair since when its wires
disagree, serial value, poll and failures, frame running, and the value, poll time and width of a late frame still to be used. -/
structure EncCh where
  lines : Nat
  zact : Bool
  c : Int
  te : Nat
  hist : List (Int × Nat)
  tap : EncTap
  smp : Vector EncSample 4
  idx : Option Int
  idxDir : Bool
  against : Nat
  cmp : Vector CmpU 2
  goodIdx : Nat
  wirePairs : Nat
  wireAt : Vector (Option Nat) 3
  u : Option Nat
  tPoll : Nat
  pPoll : Int
  vPoll : Rat
  polled : Bool
  frame : Option SerialRun
  late : Option (Nat × Nat × Nat)
  fails : Nat
  deriving DecidableEq, Repr

/-- A CMP pin (spec 08 R211): level in effect and end of a pulse. -/
structure CmpPin where
  on : Bool
  ends : Option Nat
  deriving DecidableEq, Repr

/-- Current sensing of one axis (spec 07): per input stuck, over-range episode, over-current side (0 none, 1 high, 2
low); the coefficient sources KS0-KS2 and IFS in use (R179); per input the modulator bits last sampled, newest first, and how many were sampled
(R177, R181); the ship time since which the axis's clock runs with its present DIV (R175). -/
structure SdmAx where
  stuck : Vector Bool 3
  ovr : Vector Bool 3
  oc : Vector Nat 3
  coef : List Word
  bits : Vector (List Bool) 3
  count : Vector Nat 3
  clk0 : Nat
  deriving DecidableEq, Repr

/-- A housekeeping channel (spec 07 R184, R185): last conversions, newest first, consecutive hot results, and whether the last conversion slot was this
channel's. -/
structure HkCh where
  hist : List Nat
  hot : Nat
  last : Bool
  deriving DecidableEq, Repr

/-- The drive die behind the link and the core's end of it (spec 10): trained, lost, forwarded-clock stop; SEQ of the next
downstream frame; the frame shipped and the frame held; the records replayed and the slots held off for the period;
consecutive missing frames; OFF frame waiting to be sent (target bits 0-3 axes, 4 all), OFF named and not yet seen
latched; REL due; latched group and axis OFF; per axis: switches off awaiting re-arm, latched, DSCNT, switches with an
event in this period, event counts, BS_LOW, above BS_UV + hysteresis, measured BS − SW; precharge state; bridge
over-voltage; VGD out of range (0 no, 1 under, 2 over); over-temperature; enable present; the COMMIT bits at the last SCHED build and the
CFG held (period index and bits, R268); the last SCHED frame failed its CRC; ship time of the last good IDLE frame (R254); per axis the
switches that SHOOT_GATE keeps off in this period (R258) and the start of precharge (R263); reverse-battery switch on and its switch-off
pending. -/
structure Drive where
  locked : Bool
  lost : Bool
  clockStop : Bool
  seq : Nat
  tx : Option SchedFrame
  held : Option SchedFrame
  replay : List SlotRec
  slotOff : List Bool
  missing : Nat
  txOff : Nat
  offNamed : Nat
  relDue : Nat
  gOff : Bool
  axOff : Vector Bool 4
  dsOff : Vector Nat 4
  dsLat : Vector Nat 4
  dsCnt : Vector (Vector Nat 8) 4
  dsEv : Vector Nat 4
  evDesat : Vector Nat 4
  evBsLow : Vector Nat 4
  bsLow : Vector Nat 4
  bsOk : Vector Nat 4
  bsv : Vector (Vector Nat 4) 4
  pre : Vector Nat 4
  vbrOv : Vector Bool 4
  vgd : Nat
  overTemp : Bool
  enabled : Bool
  cfgDue : Nat
  cfgHeld : Option (Nat × Nat)
  crcBad : Bool
  idleAt : Nat
  gateOff : Vector Nat 4
  preAt : Vector Nat 4
  rbOn : Bool
  rbPend : Bool
  deriving DecidableEq, Repr

/-- A start request (spec 20 R502): source code of PMU_HEAD, cost in mA, settle time and grant timeout in ns (0 = none), the
ship time at which it was raised. -/
structure AdmReq where
  src : Nat
  cost : Nat
  settle : Nat
  tmo : Nat
  t0 : Nat
  deriving DecidableEq, Repr

/-- A grant whose cost is held: source, cost, and the ship time at which its settle time has run (spec 20 R503). -/
structure AdmGrant where
  src : Nat
  cost : Nat
  until_ : Nat
  deriving DecidableEq, Repr

/-- Start admission (spec 20 R502-R506): requests raised and not yet taken, the queue, costs held, islands powered up (bit =
source code 1 to 7), and field outputs granted and not yet switched on. -/
structure Adm where
  raised : List AdmReq
  queue : List AdmReq
  held : List AdmGrant
  islands : Nat
  outs : List Nat
  deriving DecidableEq, Repr

/-- The always-on domain (spec 20 R491-R501): rails up, consecutive failed rail sequences and off for good, VSUP above 40 V,
RESETN held low from outside, SLEEP entry begun, wake events latched since (bits as PMU_WAKECAUSE), a wake pending with the
ship time of its staggered step, this BOOT follows a SLEEP, the ring address stored, the first PWM commit of this BOOT made
(CHRON_INIT closed), and a brown-out not yet logged. -/
structure Power where
  up : Bool
  fails : Nat
  dead : Bool
  ovp : Bool
  resetLow : Bool
  sleepFrom : Option Nat
  woken : Nat
  wakeStep : Option Nat
  warm : Bool
  ringAddr : Option Nat
  sealed : Bool
  browned : Bool
  deriving DecidableEq, Repr

/-- Field I/O (spec 17): filtered levels held by the field die; filtered transitions of each input since the last upstream
frame; consecutive unused and good upstream frames; VFIELD state (0 GOOD, 1 LOW, 2 MISSING, 3 HIGH), since when it is GOOD,
and settled (R415); field die silent (R419); output states (0 off, 1 waiting for admission, 2 on, 3 start timed out) and
the states asked for at the last frame; TPS in a pulse window; counter of each input's filter; ship time of the downstream frame
received last; overheated outputs that have cooled; ship time at which a TPS turned off in overload, and
of the start of its last pulse window. -/
structure Fio where
  lvl : BitVec 32
  trans : Vector Nat 32
  missUp : Nat
  goodUp : Nat
  vstate : Nat
  goodSince : Option Nat
  settled : Bool
  silent : Bool
  outs : Vector Nat 16
  want : BitVec 16
  tpsWin : BitVec 4
  cnt : Vector Nat 32
  downAt : Nat
  cool : BitVec 16
  tpsAt : Vector Nat 4
  tpsFrom : Vector (Option Nat) 4
  deriving DecidableEq, Repr

/-- An SS1-r ramp of a group (spec 18 R444, R445): the cycle of its start, |v| of channels 0-3 at it, standstill cycles. -/
structure Ramp where
  ts : Nat
  v0 : List Rat
  still : Nat
  deriving DecidableEq, Repr

/-- What the safety tap of a privileged channel read at the last cycle (spec 18 R452, R453): sample time, index-error and
frame-error counts, good-index count and the count at which it last rose. -/
structure TapMem where
  ts : Nat
  idxErr : Nat
  frErr : Nat
  good : Nat
  pos : Int
  idx : Nat
  deriving DecidableEq, Repr

/-- The safety unit (spec 18): safety cycles done; groups on which a demand, a fault or an ended ramp holds STO; first safety
reset accepted since BOOT; Helm request for HALT; groups in an STO test and its end cycle; ramps; consecutive OFF cycles and
checked raw level of SIN0-7; a demand in this cycle; valid frame since the last cycle and cycles without one; safety faults
latched as (number, instance) and those whose cause is present; cycle of the last Helm kick; tap readings of channels 0-3;
cycle of the last change of each STO_OUT; SBC outputs: cycle at which the permission goes, and cycle and level of the output's
last change; test ages in cycles and groups whose test is due; requests passed by the Helm (SAFE_CMD; SAFE_EDIT_CTL with
SAFE_EDIT_VAL); refused resets; working copy held; a confirmation record being written (1) or read back (2) with its TAG; the
result word SAFE_EDIT_RES; CRC of the image's block (BASE) and the ship time of confirmation; the confirmation record in flash: sequence, BASE,
CONF, ship time and block, and its CRC-32; seal code sampled last and how many samples in a row agreed, up to eight (02 R37). -/
structure Safety where
  cyc : Nat
  held : BitVec 4
  firstReset : Bool
  haltReq : Bool
  test : BitVec 4
  testEnd : Nat
  ramps : Vector (Option Ramp) 4
  offCnt : Vector Nat 8
  sin : BitVec 8
  newDem : Bool
  frame : Bool
  noFrame : Nat
  faults : List (Nat × Nat)
  causes : List (Nat × Nat)
  kick : Nat
  tap : List (Option TapMem)
  outAt : Vector Nat 4
  sbcOff : Vector (Option Nat) 4
  sbcAt : Vector (Nat × Bool) 4
  testAge : Vector Nat 4
  due : BitVec 4
  cmd : Word
  edit : Option (Word × Word)
  refused : Nat
  copy : Bool
  writing : Nat
  tag : Nat
  res : Word
  base : Word
  confAt : Nat
  record : Option (Nat × (Word × (Word × (Nat × List Word))))
  recCrc : Word
  sealPin : Nat
  sealRun : Nat
  deriving DecidableEq, Repr

/-- The ring port (spec 15): stage of ring start (0 none, 1 ports, 2 enumerated, 3 configured, 4 running, 5 forwarding only);
devices by address; the master's RING_CFG; forward and reverse path delay in ps; WAKE_STEP of the master; ship times of the ring-watch boundary taken last and of ring watch 0;
frame number last launched or seen; slots received in this ring watch and, on the master, in the one before; a header seen in
this ring watch and its error e in ps still to be corrected; consecutive good and bad errors; consecutive ring watches without
a header; consecutive unused ring watches of a device; mailbox packets received and waiting to be sent, with the directions
still to take a broadcast; per direction whose frame has passed in this ring watch, the packets seen in it; a packet placed in the last frame of each direction; UNFOLD to be sent and seen; wave mark; RING_LOST standing; the slot content taken at the last
watch boundary and its ship time, and the content taken last before the present ring watch; consecutive frames with a failing header at
ports U and D; the forward and the reverse frame sent last. -/
structure Ring where
  stage : Nat
  devs : List RingDev
  mcfg : Word
  fwd : Nat
  back : Nat
  step : Nat
  cfgAt : Nat
  rw0 : Nat
  j : Nat
  rx : List RingSlot
  prev : List RingSlot
  hdr : Bool
  err : Option Int
  okRun : Nat
  badRun : Nat
  noHdr : Nat
  unused : List (Nat × Nat)
  seen : List (Bool × Nat)
  mailIn : List MailPkt
  mailOut : List (MailPkt × Nat)
  placed : Nat
  unfold : Bool
  unfoldDue : Bool
  wave : Option Nat
  lost : Bool
  slot : Option RingSlot
  slotAt : Nat
  slotOld : Option RingSlot
  badU : Nat
  badD : Nat
  frame : Option RingFrame
  rframe : Option RingFrame
  deriving DecidableEq, Repr

/-- The frame a CAN controller is sending (spec 16 R403, R404): the transmit object and its SEQ, or none for the first packet
of the transmit queue; identifier word as INFO shows it; NOTIFY, priority and TAG; payload words. -/
structure CanTx where
  obj : Option Nat
  seq : Nat
  info : Word
  notify : Bool
  prio : Nat
  tag : Nat
  data : List Word
  deriving DecidableEq, Repr

/-- A CAN controller beside its registers (spec 16 R394-R406): a frame on the bus; INIT asked and not yet entered; waiting for 11
recessive bits; the frame being sent; objects pending; SEQ of the last frame sent of an object; object groups replaced by a
commit since the last received frame: ship time, group, its words, oldest first. -/
structure CanCtl where
  busy : Bool
  initDue : Bool
  joining : Bool
  tx : Option CanTx
  pend : List Nat
  sent : List (Nat × Nat)
  oldObj : List (Nat × Nat × List Word)
  deriving DecidableEq, Repr

/-- Flash work of the boot loader in the order of spec 19 R488: postmortem record, sector pre-erase, update operation (OP and
SEQ). The safety confirmation record, between the first two, is Safety.writing. -/
inductive FlashJob where
  | pm
  | erase
  | upd (op seq : Nat)
  deriving DecidableEq, Repr

/-- An update session (spec 19 R483, R484): length, expected IMAGE_CRC, last accepted SEQ, next offset, the header bytes held,
the bytes written from slot offset 0x40 on, blocks erased, and ship time of the last message. -/
structure Upd where
  len : Nat
  crc : Word
  seq : Nat
  ofs : Nat
  hdr : List Byte
  body : List Byte
  blocks : Nat
  last : Nat
  deriving DecidableEq, Repr

/-- The boot loader (spec 19): ship time of BOOT time 0; what it found; first seal code in force and whether another came
during BOOT; slots found invalid; reasons of slots A and B; TYPEs of the records taken and the bytes read from slot offset 0x40 on; words of patch RAM used and
the patch RAM, sparse over 0 (spec 02 R47); the levels the image raises, by code (R50); SIGN found with the SHA-256 of its key and its result, KEYFUSE hash found; the image's safety block;
controllers the image enables; ring start awaited; the update session; flash work in progress with its retry; postmortem records in flash, newest first; words that REG, MEM and KERNEL records have
placed in Brass areas per cluster; last OP, SEQ and result answered (0 = none, else 1 + result + 16 OP + 4,096 SEQ). -/
structure BootSt where
  t0 : Int
  view : Option BootView
  code : Option Nat
  changed : Bool
  bad : Nat
  why : Nat × Nat
  recs : List Nat
  image : List Byte
  patch : Nat
  patchRam : List (Nat × Word)
  levels : List (Nat × Nat)
  sign : Option (List Word × Bool)
  key : Option (List Word)
  block : List Word
  cans : Nat
  waitRing : Bool
  waitSeal : Bool
  upd : Option Upd
  jobs : List FlashJob
  retried : Bool
  pms : List (Nat × List Byte)
  brass : List Nat
  answered : Nat
  wasHomed : BitVec 16
  deriving DecidableEq, Repr

/-- Straps and the test access port (spec 21): TESTEN, the RINGMASTER ball as sampled; the TAP instruction (opcode), the
boundary cells preloaded and captured, the data register as captured, and RESETN kept low by EXTEST, CLAMP or HIGHZ. -/
structure Pins where
  testen : Bool
  ringMaster : Bool
  ir : Nat
  preload : List Bool
  captured : List Bool
  dr : Word
  tapHold : Bool
  deriving DecidableEq, Repr

/-- The state of the block: everything the spec gives the machine (INVENTORY.md lists each piece with its rule). -/
structure State where
  /-- Ship time in ns (spec 20 R498), advanced by timed commands and by the idle tick. -/
  now : Nat
  /-- The registers, sparse over their reset values (log entry 1). -/
  regs : List (Nat × Word)
  /-- The Chart values, sparse over 0 (spec 13 R325, R338). -/
  pts : List (Nat × Word)
  /-- The Chart attribute words, sparse over the reset word 0xF30 of spec 13 Table 13-4. -/
  attrs : List (Nat × Word)
  /-- Low word of an I64 point held for each writing master: (master, (point, word)) (spec 13 R326). -/
  held : List (Nat × (Nat × Word))
  /-- Snapshots taken by reads of low words: (key of master and address, word) (spec 13 R326, 08 R209). -/
  snaps : List (Nat × Word)
  /-- Shared SRAM, eDRAM outside the queue spill region, as bytes over 0 (spec 13 Table 13-1). -/
  mem : List Host.Cell
  /-- Memory words with bad check bits: (word address, 1 single-bit, 2 uncorrectable) (spec 13 R321, R324). -/
  bad : List (Nat × Nat)
  /-- The last word a crossbar read returned to each master 0-9 (spec 13 R320, 14 R347). -/
  busData : Vector Word 10
  /-- The 64 queues (spec 14 R341-R350). -/
  queues : Vector Queue 64
  /-- Side bits of the last item each master popped of each queue, key 16 q + m (spec 14 R347). -/
  sides : List (Nat × Nat)
  /-- Stalled queue reads, oldest first (spec 14 R348). -/
  stalls : List Stall
  /-- Pending items of fault sources while queue 0 is full: (source, record) (spec 14 R352). -/
  q0pend : List (Nat × FaultRec)
  /-- The Helm's records (spec 02). -/
  helm : Helm
  /-- The MODEL'S OWN counter of free values (log entry 5), not the spec's. -/
  fresh : Nat
  /-- The profile engine per axis (spec 03). -/
  mot : Vector Motion 16
  /-- The axis sequences (spec 02 R564, 03 R563). -/
  ax : Vector AxisSeq 16
  /-- Gearing per axis (spec 04). -/
  gear : Vector Gear 16
  /-- Superposition per axis (spec 04). -/
  sup : Vector Super 16
  /-- Envelope limiter per axis (spec 04). -/
  env : Vector Env 16
  /-- Interpolation groups (spec 04). -/
  igrp : Vector IGroup 4
  /-- Homing and limits per axis (spec 05). -/
  homing : Vector Homing 16
  /-- Steppers per axis (spec 05). -/
  stp : Vector Stepper 16
  /-- PWM per axis (spec 09). -/
  pwmA : Vector PwmAxis 16
  /-- PWM per group (spec 09). -/
  pwmG : Vector PwmGroup 4
  /-- PWM pins driven low until the first PWM commit after power-up (spec 09 R228). -/
  pinsLow : Bool
  /-- Loop kernels per axis (spec 06). -/
  loop : Vector LoopAx 16
  /-- Sextant clusters (spec 11, 12). -/
  clu : Vector Cluster 4
  /-- Feedback channels (spec 08). -/
  enc : Vector EncCh 16
  /-- CMP pins (spec 08 R211). -/
  cmpPins : Vector CmpPin 8
  /-- Levels of the LATCH pins after their last accepted edge (spec 08 R207, 05 R137). -/
  latPins : Nat
  /-- Current sensing (spec 07). -/
  sdm : Vector SdmAx 16
  /-- Housekeeping (spec 07). -/
  hk : Vector HkCh 24
  /-- Drive die and drive link (spec 10; never acts on the ZX-1600M). -/
  drv : Drive
  /-- Start admission (spec 20). -/
  adm : Adm
  /-- Supply, reset and SLEEP (spec 20). -/
  pwr : Power
  /-- Field I/O (spec 17). -/
  fio : Fio
  /-- The safety unit (spec 18). -/
  safe : Safety
  /-- The ring port (spec 15). -/
  ring : Ring
  /-- The CAN controllers (spec 16). -/
  can : Vector CanCtl 2
  /-- The boot loader and its flash work (spec 19). -/
  boot : BootSt
  /-- Straps and the test access port (spec 21). -/
  pins : Pins
  /-- The commands that wait, first in, first out (the block's queue; it is the model's own, spec: commands from outside). -/
  pending : List Instr
  deriving DecidableEq, Repr

/-- The machine right after reset. -/
def State.reset : State where
  now := 0
  regs := []
  pts := (0, 1#32) :: (List.range 16).map fun n => (512 + 256 * n, 0x40#32)
  attrs := []
  held := []
  snaps := []
  mem := []
  bad := []
  busData := Vector.replicate 10 0#32
  queues := Vector.replicate 64 { pkts := [], opens := [], rest := [] }
  sides := []
  stalls := []
  q0pend := []
  helm := { latched := [], faultnLow := false, ownerFrom := 0, ownerOut := false, firstAt := 0, toStandby := false, toSleep := false, haltAfterRamps := false, runWait := false, haltCode := 0#16, haltTime := 0, haltPrev := 0, pmPending := false, pmDone := false, pmInhibit := false, pmRecord := [], once := [], sealSeen := false, frozenXfer := [], build := 0#32, corrSec := 0, corrMark := 0, dumps := [], pmFlags := 0, bootLeft := 0, planFree := 0 }
  fresh := 0
  mot := Vector.replicate 16 motionReset
  ax := Vector.replicate 16 { seq := .disabled, lastEnable := false, faultStop := false, offAtRest := false, stopSince := 0, precharge := 0, granted := false, lastCode := 0#16, subAt := none }
  gear := Vector.replicate 16 { phase := 0, g := 0, gRem := 0, gf := 0, me := 0, md := 0, k0 := 0, mp := 0, num := 1, den := 1, recd := none, age := 0, missed := 0, stale := false, armed := true, mark := 0, foldDue := false }
  sup := Vector.replicate 16 { on := false, s := 0, s0 := 0, vs := 0, seq := none, age := 0, held := false, armed := true }
  env := Vector.replicate 16 { y := 0, vy := 0, ay := 0, t := 0, follow := true, u := 0, vu := 0, au := 0, peak := 0, excess := false }
  igrp := Vector.replicate 4 { mot := motionReset, cur := none, base := 0, offs := [0, 0, 0, 0], stopDue := false }
  homing := Vector.replicate 16 { state := 0, sub := 0, t0 := 0, from_ := 0, seen := false, cap := none, hsCount := 0, reversed := false, homed := false, refused := false, limP := false, limN := false, hsw := false, hwEp := false, bothEp := false, softEp := false, trans := [], chatter := false, lArm := false }
  stp := Vector.replicate 16 { us := 0, valid := false, y := 0, vy := 0, ay := 0, w := 0, still := none, holdCur := false }
  pwmA := Vector.replicate 16 { shadow := Vector.replicate 4 0x40000000#32, mark := false, frozen := Vector.replicate 4 0x40000000#32, miss := 0, wd := 0, slots := Vector.replicate 4 slotReset, pin := false, oc := false, acting := false, clear := false }
  pwmG := Vector.replicate 4 { start := 0, lastPb := none, lastWb := none, wd0 := false, pin := false, acting := false, clear := false, served := 0, trigDue := false, lateAct := (0, 0#16) }
  pinsLow := true
  loop := Vector.replicate 16 loopAxReset
  clu := Vector.replicate 4 clusterReset
  enc := Vector.replicate 16 { lines := 0, zact := false, c := 0, te := 0, hist := [], tap := { c := 0, v := 0, ts := 0, unc := false, wire := false, idxErr := 0, good := 0, frErr := 0 }, smp := Vector.replicate 4 { c := 0, te := 0, v := 0, p := 0, ts := 0, valid := false }, idx := none, idxDir := false, against := 0, cmp := Vector.replicate 2 { base := 0, first := false, due := [] }, goodIdx := 0, wirePairs := 0, wireAt := Vector.replicate 3 (some 0), u := none, tPoll := 0, pPoll := 0, vPoll := 0, polled := false, frame := none, late := none, fails := 0 }
  cmpPins := Vector.replicate 8 { on := false, ends := none }
  latPins := 0
  sdm := Vector.replicate 16 { stuck := Vector.replicate 3 false, ovr := Vector.replicate 3 false, oc := Vector.replicate 3 0, coef := [], bits := Vector.replicate 3 [], count := Vector.replicate 3 0, clk0 := 0 }
  hk := Vector.replicate 24 { hist := [], hot := 0, last := false }
  drv := { locked := false, lost := false, clockStop := false, seq := 0, tx := none, held := none, replay := [], slotOff := [], missing := 0, txOff := 0, offNamed := 0, relDue := 0, gOff := false, axOff := Vector.replicate 4 false, dsOff := Vector.replicate 4 0, dsLat := Vector.replicate 4 0, dsCnt := Vector.replicate 4 (Vector.replicate 8 0), dsEv := Vector.replicate 4 0, evDesat := Vector.replicate 4 0, evBsLow := Vector.replicate 4 0, bsLow := Vector.replicate 4 0, bsOk := Vector.replicate 4 0, bsv := Vector.replicate 4 (Vector.replicate 4 0), pre := Vector.replicate 4 0, vbrOv := Vector.replicate 4 false, vgd := 0, overTemp := false, enabled := false, cfgDue := 0, cfgHeld := none, crcBad := false, idleAt := 0, gateOff := Vector.replicate 4 0, preAt := Vector.replicate 4 0, rbOn := false, rbPend := false }
  adm := { raised := [], queue := [], held := [], islands := 0, outs := [] }
  pwr := { up := true, fails := 0, dead := false, ovp := false, resetLow := false, sleepFrom := none, woken := 0, wakeStep := none, warm := false, ringAddr := none, sealed := false, browned := false }
  fio := { lvl := 0#32, trans := Vector.replicate 32 0, missUp := 0, goodUp := 0, vstate := 0, goodSince := none, settled := true, silent := true, outs := Vector.replicate 16 0, want := 0#16, tpsWin := 0#4, cnt := Vector.replicate 32 0, downAt := 0, cool := 0#16, tpsAt := Vector.replicate 4 0, tpsFrom := Vector.replicate 4 none }
  safe := { cyc := 0, held := 0#4, firstReset := false, haltReq := false, test := 0#4, testEnd := 0, ramps := Vector.replicate 4 none, offCnt := Vector.replicate 8 0, sin := 0#8, newDem := false, frame := false, noFrame := 0, faults := [], causes := [], kick := 0, tap := [], outAt := Vector.replicate 4 0, sbcOff := Vector.replicate 4 none, sbcAt := Vector.replicate 4 (0, false), testAge := Vector.replicate 4 0, due := 0#4, cmd := 0#32, edit := none, refused := 0, copy := false, writing := 0, tag := 0, res := 0#32, base := 0#32, confAt := 0, record := none, recCrc := 0#32, sealPin := 0, sealRun := 0 }
  ring := { stage := 0, devs := [], mcfg := 0#32, fwd := 0, back := 0, step := 0, cfgAt := 0, rw0 := 0, j := 0, rx := [], prev := [], hdr := false, err := none, okRun := 0, badRun := 0, noHdr := 0, unused := [], seen := [], mailIn := [], mailOut := [], placed := 0, unfold := false, unfoldDue := false, wave := none, lost := false, slot := none, slotAt := 0, slotOld := none, badU := 0, badD := 0, frame := none, rframe := none }
  can := Vector.replicate 2 { busy := false, initDue := false, joining := false, tx := none, pend := [], sent := [], oldObj := [] }
  boot := { t0 := 0, view := none, code := none, changed := false, bad := 0, why := (0, 0), recs := [], image := [], patch := 0, patchRam := [], levels := [], sign := none, key := none, block := [], cans := 0, waitRing := false, waitSeal := false, upd := none, jobs := [], retried := false, pms := [], brass := [], answered := 0, wasHomed := 0#16 }
  pins := { testen := false, ringMaster := false, ir := 1, preload := [], captured := [], dr := 0#32, tapHold := false }
  pending := []

end Sys2Proof.Machine
end

