-- ==== Sys2Proof/Machine/Crc.lean ====
section
/-!
DEFINITION. The cyclic redundancy checks of spec 00 Table 0-9 and bytes in little-endian order (00 R5).
-/
namespace Sys2Proof.Machine

/-- k little-endian bytes of a number. -/
def leBytes (n : Nat) : Nat → List Byte
  | 0 => []
  | k + 1 => BitVec.ofNat 8 n :: leBytes (n / 256) k

/-- The number that little-endian bytes spell. -/
def leNum (l : List Byte) : Nat := l.foldr (fun b x => b.toNat + 256 * x) 0

/-- n bytes of a list from position o on, as a number. -/
def leAt (l : List Byte) (o n : Nat) : Nat := leNum ((l.drop o).take n)

/-- One bit of CRC-32: polynomial 0x04C11DB7, reflected (19 R470). -/
def crc32Bit (c : Nat) : Nat := if c % 2 = 1 then (c / 2) ^^^ 0xEDB88320 else c / 2
/-- One byte of CRC-32. -/
def crc32Byte (c : Nat) (b : Byte) : Nat :=
  let c := c ^^^ b.toNat
  crc32Bit (crc32Bit (crc32Bit (crc32Bit (crc32Bit (crc32Bit (crc32Bit (crc32Bit c)))))))
/-- CRC-32 of bytes: initial value and final XOR 0xFFFF_FFFF (19 R470). -/
def crc32 (bs : List Byte) : Word := BitVec.ofNat 32 ((bs.foldl crc32Byte 0xFFFFFFFF) ^^^ 0xFFFFFFFF)

/-- One bit of CRC-8: polynomial 0x2F, most significant bit first (10 R250). -/
def crc8Bit (c : Nat) : Nat := if 128 ≤ c then (c * 2) % 256 ^^^ 0x2F else c * 2
/-- One byte of CRC-8. -/
def crc8Byte (c : Nat) (b : Byte) : Nat :=
  let c := c ^^^ b.toNat
  crc8Bit (crc8Bit (crc8Bit (crc8Bit (crc8Bit (crc8Bit (crc8Bit (crc8Bit c)))))))
/-- CRC-8 of bytes: initial value 0xFF, no final XOR (10 R250). -/
def crc8 (bs : List Byte) : Byte := BitVec.ofNat 8 (bs.foldl crc8Byte 0xFF)

/-- Bytes whose last one is the CRC-8 of the others, n in all. -/
def crc8Ok (n : Nat) (bs : List Byte) : Bool := bs.length == n && bs.getLast? == some (crc8 bs.dropLast)

end Sys2Proof.Machine
end

