-- ==== Sys2Proof/Machine/Ops.lean ====
section
/-!
DEFINITION. The named operations over registers, Chart points, memory, queues and the fault reporting path. Every read
and write of these goes through here.
-/
namespace Sys2Proof.Machine

/-! ### Registers -/

/-- The word a register address holds (spec 00 R5). -/
def rd (s : State) (a : Nat) : Word := sget regReset s.regs a

/-- Put a word at a register address, as the hardware does (no access rule applies). -/
def wr (s : State) (a : Nat) (v : Word) : State := { s with regs := sset regReset s.regs a v }

/-- A block-level register. -/
def br (s : State) (b : Blk) (o : Nat) : Word := rd s (bAddr b o)
/-- Put a block-level register. -/
def bw (s : State) (b : Blk) (o : Nat) (v : Word) : State := wr s (bAddr b o) v
/-- A register of instance n (pending copy of an RWS register). -/
def ir (s : State) (b : Blk) (n o : Nat) : Word := rd s (iAddr b n o)
/-- Put a register of instance n. -/
def iw (s : State) (b : Blk) (n o : Nat) (v : Word) : State := wr s (iAddr b n o) v
/-- The active copy of an RWS register of instance n (spec 00 R8). -/
def ar (s : State) (b : Blk) (n o : Nat) : Word := rd s (iAddr b n (o + 0x200))
/-- Put an active copy. -/
def aw (s : State) (b : Blk) (n o : Nat) (v : Word) : State := wr s (iAddr b n (o + 0x200)) v
/-- A control register of cluster g. -/
def sr (s : State) (g : Fin 4) (o : Nat) : Word := rd s (sxAddr g.val o)
/-- Put a control register of cluster g. -/
def sw (s : State) (g : Fin 4) (o : Nat) (v : Word) : State := wr s (sxAddr g.val o) v

/-- An I64 readback pair of instance n, low word at the offset (spec 00 R12). -/
def iw64 (s : State) (b : Blk) (n o : Nat) (x : Int) : State := iw (iw s b n o (loWord x)) b n (o + 4) (hiWord x)
/-- The active I64 of a pair of RWS registers. -/
def ar64 (s : State) (b : Blk) (n o : Nat) : Int := i64Of (ar s b n o) (ar s b n (o + 4))
/-- Put the active I64 of a pair of RWS registers. -/
def aw64 (s : State) (b : Blk) (n o : Nat) (x : Int) : State := aw (aw s b n o (loWord x)) b n (o + 4) (hiWord x)
/-- The I64 that a readback pair holds. -/
def ir64 (s : State) (b : Blk) (n o : Nat) : Int := i64Of (ir s b n o) (ir s b n (o + 4))

/-- Set or clear one bit of a block-level register. -/
def bwBit (s : State) (b : Blk) (o i : Nat) (v : Bool) : State := bw s b o (setBit (br s b o) i v)
/-- Set or clear one bit of an instance register. -/
def iwBit (s : State) (b : Blk) (n o i : Nat) (v : Bool) : State := iw s b n o (setBit (ir s b n o) i v)
/-- Saturating count in a field of a block-level register. -/
def bwSat (s : State) (b : Blk) (o lo n : Nat) : State := bw s b o (satAdd (br s b o) lo n 1)
/-- Saturating count in a field of an instance register. -/
def iwSat (s : State) (b : Blk) (i o lo n : Nat) : State := iw s b i o (satAdd (ir s b i o) lo n 1)

/-- The offsets of the RWS registers that instance n of a block has, ascending: none of the reserved queues, whose registers are fixed. -/
def rwsOffs (b : Blk) (n : Nat) : List Nat :=
  if b = .que ∧ n < 16 then []
  else (blkRows b).flatMap fun r =>
    if r.serves (some n) ∧ r.rws ≠ 0#32 then (List.range r.cnt).map fun k => r.off + k * r.stride else []

/-- Copy the whole pending set of an instance into its active set (spec 00 R9). -/
def copySet (b : Blk) (n : Nat) (s : State) : State :=
  (rwsOffs b n).foldl (fun s o => aw s b n o (ir s b n o)) s

/-! ### Which part -/

/-- The part is a ZX-1604M: SYS_ID.PKG = 0x04 (spec 00 R3). -/
def hasDrive (s : State) : Bool := fld (br s .sys 0) 24 8 == 4

/-! ### Chart points -/

/-- The value of a point (spec 13 R325). -/
def pt (s : State) (i : Nat) : Word := sget (fun _ => 0#32) s.pts i
/-- Put a point. -/
def setPt (s : State) (i : Nat) (v : Word) : State := { s with pts := sset (fun _ => 0#32) s.pts i v }
/-- The attribute word of a point; reset WR = 3, OWNER = 15 (spec 13 Table 13-4). -/
def attr (s : State) (i : Nat) : Word := sget (fun _ => 0xF30#32) s.attrs i
/-- Put an attribute word. -/
def setAttr (s : State) (i : Nat) (v : Word) : State := { s with attrs := sset (fun _ => 0xF30#32) s.attrs i v }
/-- An I64 point at an even index (spec 00 R12). -/
def pt64 (s : State) (i : Nat) : Int := i64Of (pt s i) (pt s (i + 1))
/-- Put an I64 point. -/
def setPt64 (s : State) (i : Nat) (x : Int) : State := setPt (setPt s i (loWord x)) (i + 1) (hiWord x)
/-- Point index of offset o of the band of axis n: 512 + 256 n + o (spec 13 Table 13-5). -/
def axPt (n : Fin 16) (o : Nat) : Nat := 512 + 256 * n.val + o
/-- Value of offset o of the band of axis n. -/
def ap (s : State) (n : Fin 16) (o : Nat) : Word := pt s (axPt n o)
/-- Put offset o of the band of axis n. -/
def setAp (s : State) (n : Fin 16) (o : Nat) (v : Word) : State := setPt s (axPt n o) v

/-! ### Memory bytes -/

/-- What a byte of memory that nothing has written reads as (log entry 4). -/
def memDefault (_ : Nat) : Byte := 0#8
/-- Read one byte of shared SRAM or eDRAM; the Helm ROM reads its contents, which the spec does not give. -/
def readByte (s : State) (a : Nat) : Byte := if a < 0x80000 then Config.helmRom a else sget memDefault s.mem a
/-- Write one byte. -/
def writeByte (s : State) (a : Nat) (v : Byte) : State :=
  if a < 0x80000 then s else { s with mem := sset memDefault s.mem a v }
/-- Read a little-endian word at a word-aligned address (spec 00 R5). -/
def readWord (s : State) (a : Nat) : Word :=
  wd (leWord [readByte s a, readByte s (a + 1), readByte s (a + 2), readByte s (a + 3)] 4)
/-- Write a little-endian word. -/
def writeWord (s : State) (a : Nat) (v : Word) : State :=
  writeByte (writeByte (writeByte (writeByte s a (byteOf v 0)) (a + 1) (byteOf v 1)) (a + 2) (byteOf v 2)) (a + 3) (byteOf v 3)
/-- Write consecutive words. -/
def writeWords (s : State) (a : Nat) : List Word → State
  | [] => s
  | w :: ws => writeWords (writeWord s a w) (a + 4) ws

/-! ### Modes (spec 02 R34) -/

/-- Mode codes of Table 2-1. -/
def mSleep : Nat := 0
/-- BOOT. -/
def mBoot : Nat := 1
/-- COMMISSION. -/
def mComm : Nat := 2
/-- STANDBY. -/
def mStandby : Nat := 3
/-- RUN. -/
def mRun : Nat := 4
/-- SAFE-STOP. -/
def mSafeStop : Nat := 5
/-- HALT. -/
def mHalt : Nat := 6
/-- SERVICE. -/
def mService : Nat := 7

/-- The mode: MODE point, bits [7:0]. -/
def mode (s : State) : Nat := fld (pt s 0) 0 8
/-- RECOVERY of the MODE point. -/
def recovery (s : State) : Bool := bit (pt s 0) 8
/-- Seal code in force. -/
def sealOf (s : State) : Nat := fld (pt s 0) 9 3
/-- A mode change: MODE and PREV written, other fields kept (R34). -/
def setMode (m : Nat) (s : State) : State :=
  let w := pt s 0
  setPt s 0 (setFld (setFld w 16 4 (fld w 0 8)) 0 8 m)

/-- Master m is frozen (spec 02 Table 2-13). -/
def frozen (s : State) (m : Nat) : Bool := bit (br s .sys 0x28) m
/-- The Helm runs: not frozen. -/
def helmUp (s : State) : Bool := !(frozen s 0)

/-! ### Once per second -/

/-- First occurrence of a key in the present second of ship time: the test, and the state that remembers it. -/
def onceSec (key : Nat) (s : State) : Bool × State :=
  let sec := s.now / 1000000000 + 1
  if sget (fun _ => 0) s.helm.once key = sec then (false, s)
  else (true, { s with helm := { s.helm with once := sset (fun _ => 0) s.helm.once key sec } })

/-- Read the counter of free values and advance it (log entry 5). -/
def takeFresh (s : State) : Nat × State := (s.fresh, { s with fresh := s.fresh + 1 })

/-- Fold a state change over a list. -/
def forEach {α : Type} (l : List α) (f : α → State → State) (s : State) : State := l.foldl (fun s a => f a s) s

/-! ### Queues (spec 14) -/

/-- Items of a queue in the given place. -/
def Queue.items (q : Queue) : List QItem := q.rest ++ q.pkts.flatten ++ (q.opens.map (·.2)).flatten
/-- Items held, open packets included (spec 14 R349). -/
def Queue.fill (q : Queue) : Nat := q.items.length
/-- Items in one place. -/
def Queue.inPlace (q : Queue) (p : Place) : Nat := (q.items.filter (fun i => i.place = p)).length

/-- Change every item of a queue by a counter-carrying function, in the order read part, readable packets, open packets. -/
def mapItems {β : Type} (f : β → QItem → β × QItem) : β → List QItem → β × List QItem
  | b, [] => (b, [])
  | b, i :: is => let (b, i') := f b i; let (b, is') := mapItems f b is; (b, i' :: is')

/-- Map a counter through a list of packets. -/
def mapPkts {β : Type} (f : β → QItem → β × QItem) : β → List (List QItem) → β × List (List QItem)
  | b, [] => (b, [])
  | b, p :: ps => let (b, p') := mapItems f b p; let (b, ps') := mapPkts f b ps; (b, p' :: ps')

/-- Map a counter through the open packets. -/
def mapOpens {β : Type} (f : β → QItem → β × QItem) : β → List (Nat × List QItem) → β × List (Nat × List QItem)
  | b, [] => (b, [])
  | b, (m, p) :: ps => let (b, p') := mapItems f b p; let (b, ps') := mapOpens f b ps; (b, (m, p') :: ps')

/-- Map a counter through every item of a queue. -/
def Queue.mapQ {β : Type} (f : β → QItem → β × QItem) (b : β) (q : Queue) : Queue :=
  let (b, r) := mapItems f b q.rest
  let (b, p) := mapPkts f b q.pkts
  let (_, o) := mapOpens f b q.opens
  { pkts := p, opens := o, rest := r }

/-- Move up to k items from one place to another, oldest first. -/
def Queue.move (a b : Place) (k : Nat) (q : Queue) : Queue :=
  q.mapQ (fun (n : Nat) i => if n ≠ 0 ∧ i.place = a then (n - 1, { i with place := b }) else (n, i)) k

/-- With nothing in spill, the tail feeds the head registers (8 entries). -/
def Queue.settle (q : Queue) : Queue :=
  if q.inPlace .spill = 0 then q.move .tail .head (8 - q.inPlace .head) else q

/-- Active capacity of a queue (spec 14 Table 14-6). -/
def qCap (s : State) (q : Fin 64) : Nat := fld (ar s .que q.val 0x4) 0 22

/-- May a master write the queue (spec 14 Table 14-1)? Masters 0-9; hardware sources and the protection unit are 10. -/
def qWriter (q : Fin 64) (m : Nat) : Bool :=
  match q.val with
  | 0 => m == 0 || m == 10
  | 1 => m == 0
  | 2 => m == 0 || m == 10
  | 3 => decide (m ≤ 4)
  | 4 => decide (m ≤ 4)
  | 5 => m == 7 || m == 8
  | 6 => decide (m ≤ 4)
  | 7 => m == 6
  | n => decide (16 ≤ n)

/-- Put a queue. -/
def setQ (s : State) (q : Fin 64) (x : Queue) : State := { s with queues := s.queues.set q.val x }

/-- Room for n more items: within CAP, and in the tail while the mover is frozen (spec 14 R346, R350). -/
def qRoom (s : State) (q : Fin 64) (n : Nat) : Bool :=
  let x := s.queues[q]
  decide (x.fill + n ≤ qCap s q) &&
    (!(frozen s 5) || decide (qCap s q ≤ 16) || decide ((x.settle).inPlace .tail + n ≤ 8))

/-- Make room in the tail: while the mover runs, the oldest tail items of a queue with CAP > 16 go to spill (R349). -/
def Queue.makeRoom (cap : Nat) (frz : Bool) (n : Nat) (x : Queue) : Queue :=
  let y := x.settle
  if cap ≤ 16 ∨ frz then y else y.move .tail .spill (y.inPlace .tail + n - 8)

/-- The items of a whole packet of words at a priority, in the tail. -/
def mkPkt (prio : Nat) : List Word → List QItem
  | [] => []
  | [w] => [{ word := w, prio := prio, fin := true, place := .tail }]
  | w :: ws => { word := w, prio := prio, fin := false, place := .tail } :: mkPkt prio ws

/-- Append a whole packet of a hardware source or mover, where there is room (spec 14 R342); the test says if it entered. -/
def pushRaw (q : Fin 64) (m prio : Nat) (ws : List Word) (s : State) : Bool × State :=
  if qWriter q m ∧ qRoom s q ws.length then
    let x := (s.queues[q]).makeRoom (qCap s q) (frozen s 5) ws.length
    (true, setQ s q { x with pkts := x.pkts ++ [mkPkt prio ws] }.settle)
  else (false, iwSat s .que q.val 0x248 16 16)

/-! ### Raising faults and events (spec 02 R50, R54-R56; 23 R552, R554) -/

/-- A fault code: class [15:12], instance [11:8], code [7:0] (spec 00 R14). -/
def mkCode (cls inst num : Nat) : BitVec 16 := BitVec.ofNat 16 ((cls % 16) * 4096 + (inst % 16) * 256 + num % 256)

/-- Class of a code. -/
def codeCls (c : BitVec 16) : Nat := c.toNat / 4096
/-- Instance of a code. -/
def codeInst (c : BitVec 16) : Nat := c.toNat / 256 % 16
/-- Number of a code. -/
def codeNum (c : BitVec 16) : Nat := c.toNat % 256

/-- The word of a fault item in queues 0 and 1: code, level, axis byte (log entry 7). -/
def faultWord (f : FaultRec) : Word := wd (f.code.toNat + 65536 * f.level + 16777216 * f.axis.toNat)

/-- The Logbook words of a record before it is logged, byte 10 carrying the level until then (log entry 7). -/
def logWords (f : FaultRec) : List Word :=
  let d := f.data ++ List.replicate 5 0#32
  [wd f.time, wd (f.time / 2 ^ 32), faultWord f, d.getD 0 0, d.getD 1 0, d.getD 2 0, d.getD 3 0, d.getD 4 0]

/-- Group g has torque removed by a fault: PWM group off, or a loop deadline off (spec 02 Table 2-11). -/
def grpOff (s : State) (g : Nat) : Bool :=
  bit (br s .pwm 0) (20 + g) || bit (br s .loop 0) (16 + g) || bit (br s .loop 0) (20 + g)

/-- FAULT_SUMMARY point 2 from the unacknowledged faults, the groups off and HALT (spec 02 Table 2-11). -/
def summaryWord (s : State) : Word :=
  let cls := s.helm.latched.foldl (fun w f => setBit w (codeCls f.code) true) 0#32
  let w := (List.range 4).foldl (fun w g => setBit w (16 + g) (grpOff s g)) cls
  setBit (setBit w 20 (mode s == mHalt)) 21 (s.helm.latched.any (fun f => f.level == 1))

/-- The Helm writes FAULT_SUMMARY point 2 anew; a frozen Helm writes nothing (spec 02 R34). -/
def sumUpd (s : State) : State := if helmUp s then setPt s 2 (summaryWord s) else s

/-- FAULTN from the faults still unacknowledged, and HALT (spec 02 R55). -/
def faultnUpd (s : State) : State :=
  { s with helm := { s.helm with faultnLow := s.helm.latched.any (fun f => decide (2 ≤ f.level)) || mode s == mHalt } }

/-- Does a fault item a go before b where both carry one ship time (spec 02 R54)? -/
def faultBefore (a b : FaultRec) : Bool :=
  decide (b.level < a.level) || (a.level == b.level && decide (a.code.toNat ≤ b.code.toNat))

/-- The level the image gives a code: its chapter's minimum, or a higher one that the image raises it to (spec 02 R50). -/
def imgLevel (s : State) (c : BitVec 16) (lvl : Nat) : Nat := max lvl (sget (fun _ => 0) s.boot.levels c.toNat)

/-- The axes a fault acts on at a level: at its own level those it names; raised to level 1 the axis of its axis byte, to level 2 the groups of
its axes, to level 3 all (spec 02 Table 2-10). -/
def levelAxes (f : FaultRec) (lvl : Nat) : BitVec 16 :=
  if lvl = f.level then f.axes
  else
    let own := if f.axes = 0#16 ∧ f.axis.toNat < 16 then 1#16 <<< f.axis.toNat else f.axes
    if lvl = 1 then own
    else if lvl = 2 then allGroups.foldl (fun m g => if own &&& grpMask g ≠ 0#16 then m ||| grpMask g else m) 0#16
    else 0xFFFF#16

/-- A record at the level the image gives its code. -/
def atLevel (s : State) (f : FaultRec) : FaultRec :=
  let l := imgLevel s f.code f.level
  { f with level := l, axes := levelAxes f l }

/-- The record of a fault item, among the unacknowledged ones. -/
def recOf (s : State) (w : Word) : Option FaultRec := s.helm.latched.find? (fun f => faultWord f = w)

/-- Order the readable packets of queue 0 or 1 after a fault item was appended: it carries its ship time, and goes before items of the
same ship time that rank after it (spec 02 R54). -/
def orderFault (f : FaultRec) (ps : List (List QItem)) : List (List QItem) :=
  match ps.getLast? with
  | none => ps
  | some new =>
    let old := ps.dropLast
    let keep := fun (p : List QItem) =>
      let i := p.headD { word := 0#32, prio := 0, fin := true, place := .tail }
      decide (i.time ≠ f.time) || decide (f.level < fld i.word 16 8) || (fld i.word 16 8 == f.level && decide (fld i.word 0 16 ≤ f.code.toNat))
    old.takeWhile keep ++ (new.map fun i => { i with time := f.time }) :: old.dropWhile keep

/-- Order queue 2 after a log packet was appended: before packets of the same ship time that rank after it (R54). -/
def orderLog (f : FaultRec) (ps : List (List QItem)) : List (List QItem) :=
  match ps.getLast? with
  | none => ps
  | some new =>
    let old := ps.dropLast
    let keep := fun (p : List QItem) =>
      let ws := p.map (·.word)
      let t := (ws.getD 0 0).toNat + (ws.getD 1 0).toNat * 2 ^ 32
      let w := ws.getD 2 0
      decide (t ≠ f.time) || decide (f.level < fld w 16 2) || (fld w 16 2 == f.level && decide (fld w 0 16 ≤ f.code.toNat))
    old.takeWhile keep ++ new :: old.dropWhile keep

/-- Enter a record into queue 0, 1 or 2 in the order of R54. -/
def enterRaw (q : Fin 64) (m : Nat) (f : FaultRec) (ws : List Word) (s : State) : Bool × State :=
  let (ok, s) := pushRaw q m 0 ws s
  if ok then
    let x := s.queues[q]
    let ps := if q.val = 2 then orderLog f x.pkts else orderFault f x.pkts
    (true, setQ s q { x with pkts := ps })
  else (false, s)

/-- Log a record: into queue 2; where queue 2 refuses it the entry is lost (spec 23 R554). -/
def logRaw (f : FaultRec) (s : State) : State :=
  let (ok, s) := enterRaw 2 10 f (logWords f) s
  if ok then s else
    let s := bwSat s .log 0x28 0 16
    setPt s 70 (setFld (pt s 70) 0 16 (fld (br s .log 0x28) 0 16))

/-! ### Loop engine triggers (spec 06 R165-R167, 11 R291-R293) -/

/-- The active trigger-table entry e of cluster g. -/
def trigWord (s : State) (g : Fin 4) (e : Nat) : Word := ar s .loop (16 + g.val) (4 * e)

/-- Does entry e of cluster g belong to a trigger's chain? -/
def inChain (s : State) (g : Fin 4) (tr : Trig) (e : Nat) : Bool :=
  let w := trigWord s g e
  if tr.src = 6 then fld w 0 3 == 6 && e == tr.sel
  else if tr.src ≤ 3 then fld w 0 3 == tr.src && tr.src != 0
  else fld w 0 3 == tr.src && fld w 4 6 == tr.sel

/-- The entries of a trigger's chain, ascending. -/
def chainEntries (s : State) (g : Fin 4) (tr : Trig) : List Nat := (List.range 8).filter (inChain s g tr)

/-- Priority of a source (spec 06 Table 6-4). -/
def trigPrio (tr : Trig) : Nat := if tr.src = 1 then 3 else if tr.src = 2 then 2 else if tr.src = 3 then 1 else 0

/-- Triggers are raised in every mode but SLEEP and BOOT (R167). -/
def trigMode (s : State) : Bool := mode s != mSleep && mode s != mBoot

/-- Raise a trigger on a cluster: discarded with TRIGLOST while the cluster is frozen, halted or not running (11 R293);
counted as an overrun, and logged, while it still waits (06 R166); else it waits. A source with no entry and no Brass chain
has nothing to raise. -/
def raiseTrigBy (log : FaultRec → State → State) (g : Fin 4) (tr : Trig) (s : State) : State :=
  if !(trigMode s) then s
  else if (chainEntries s g tr).isEmpty && decide (tr.src ≠ 1 ∧ tr.src ≠ 2) then s
  else
    let c := s.clu[g]
    if c.state = .frozen ∨ c.state = .halted ∨ !(bit (sr s g 0) 0) then
      sw s g 0x24 (setBit (sr s g 0x24) 1 true)
    else if c.waiting.contains tr then
      log { code := mkCode 6 g.val 5, level := 0, axes := 0#16, axis := 0xFF#8, time := s.now,
            data := [wd ((chainEntries s g tr).headD 0)] } (bwSat s .loop 0x24 (8 * g.val) 8)
    else { s with clu := s.clu.set g.val { c with waiting := c.waiting ++ [tr] } }

/-- Log a record; a trigger on queue 2 is raised as its packet counter leaves 0 (14 R345). An overrun logged by that trigger
finds the counter above 0. -/
def logRec (f : FaultRec) (s : State) : State :=
  let was := (s.queues[(2 : Fin 64)]).pkts.isEmpty
  let s := logRaw f s
  if was && !((s.queues[(2 : Fin 64)]).pkts.isEmpty) then forEach allGroups (fun g s => raiseTrigBy logRaw g { src := 4, sel := 2 } s) s
  else s

/-- Raise a trigger on a cluster (06 R166). -/
def raiseTrig (g : Fin 4) (tr : Trig) (s : State) : State := raiseTrigBy logRec g tr s

/-- Queue trigger: the packet counter of queue q left 0 (spec 06 Table 6-4, 14 R345). -/
def raiseQueue (q : Fin 64) (s : State) : State :=
  forEach allGroups (fun g s => raiseTrig g { src := 4, sel := q.val } s) s

/-- Append a whole packet and raise the queue's trigger as its counter leaves 0. -/
def pushPkt (q : Fin 64) (m prio : Nat) (ws : List Word) (s : State) : Bool × State :=
  let was := (s.queues[q]).pkts.isEmpty
  let (ok, s) := pushRaw q m prio ws s
  (ok, if ok && was then raiseQueue q s else s)

/-- Enter a fault item into queue 0 or 1 in the order of R54, and raise its trigger. -/
def enterFault (q : Fin 64) (m : Nat) (f : FaultRec) (s : State) : Bool × State :=
  let was := (s.queues[q]).pkts.isEmpty
  let (ok, s) := enterRaw q m f [faultWord f] s
  (ok, if ok && was then raiseQueue q s else s)

/-- Enter a level-2 or level-3 record into queue 0; a full queue holds one pending item per source, a further one is
lost and sets Q0LOST (spec 14 R352). FAULTN goes low as the item enters (spec 02 R55). -/
def toQueue0 (f : FaultRec) (s : State) : State :=
  let (ok, s) := enterFault 0 10 f s
  if ok then { s with helm := { s.helm with faultnLow := true } }
  else
    let src := f.code.toNat
    if s.q0pend.any (fun p => p.1 = src) then bwBit s .que 0 0 true
    else { s with q0pend := s.q0pend ++ [(src, f)] }

/-- Does FIRST take a fault: FIRST is empty, or it was taken at the same ship time by a fault that R54 takes later (R54, R56)? -/
def firstTakes (s : State) (f : FaultRec) : Bool :=
  let w := pt s 3
  fld w 0 16 == 0 || (s.helm.firstAt == f.time && (decide (fld w 16 2 < f.level) || (fld w 16 2 == f.level && decide (f.code.toNat < fld w 0 16))))

/-- The Helm writes FIRST and LEVEL of FAULT_SUMMARY, where a fault is the first (R56). -/
def firstPut (f : FaultRec) (s : State) : State :=
  if helmUp s && firstTakes s f then
    { setPt s 3 (wd (f.code.toNat + 65536 * f.level)) with helm := { s.helm with firstAt := f.time } }
  else s

/-- Raise a fault or event record at the level the image gives its code: logged in queue 2, level 1 also in queue 1, levels 2 and 3 also
in queue 0; a fault of level 1 or above stands until acknowledged, and FIRST takes it while FIRST is empty (spec 02 R50, R55, R56). -/
def raiseRec (f : FaultRec) (s : State) : State :=
  let f := atLevel s f
  if f.level = 0 then logRec f s
  else
    let s := { s with helm := { s.helm with latched := s.helm.latched ++ [f] },
                      ax := s.ax.mapIdx (fun i a => if f.axes.getLsbD i then { a with lastCode := f.code } else a) }
    let s := logRec f s
    let s := if f.level = 1 then (enterFault 1 0 f s).2 else toQueue0 f s
    sumUpd (firstPut f s)

/-- Raise a fault at the present ship time. -/
def raise (lvl : Nat) (code : BitVec 16) (axes : BitVec 16) (axis : Nat) (data : List Word) (s : State) : State :=
  raiseRec { code := code, level := lvl, axes := axes, axis := BitVec.ofNat 8 axis, time := s.now, data := data } s

/-- No axis in the axis byte (spec 23 Table 23-1). -/
def noAxis : Nat := 255

/-- A level-0 event. -/
def ev (cls inst num axis : Nat) (data : List Word) (s : State) : State :=
  raise 0 (mkCode cls inst num) 0#16 axis data s

/-- A level-0 event logged only the first time in each second for its key. -/
def evOnce (key cls inst num axis : Nat) (data : List Word) (s : State) : State :=
  let (first, s) := onceSec key s
  if first then ev cls inst num axis data s else s

/-- A fault on one axis: level 1 acts on the axis, level 2 on its group (spec 02 Table 2-10). -/
def raiseAx (lvl cls num : Nat) (n : Fin 16) (data : List Word) (s : State) : State :=
  raise lvl (mkCode cls n.val num) (if lvl = 1 then 1#16 <<< n.val else grpMask (grpOf n)) n.val data s

/-- A fault on a group. -/
def raiseGrp (lvl cls num : Nat) (g : Fin 4) (data : List Word) (s : State) : State :=
  raise lvl (mkCode cls g.val num) (grpMask g) noAxis data s

/-- A fault on the device. -/
def raiseDev (lvl cls inst num : Nat) (data : List Word) (s : State) : State :=
  raise lvl (mkCode cls inst num) 0xFFFF#16 noAxis data s

/-- Items that waited for queue 0 enter it in their order as space frees (spec 13 R336, 14 R352). -/
def drainQ0 (s : State) : State :=
  match s.q0pend with
  | [] => s
  | (_, f) :: rest =>
    if qRoom s 0 1 then toQueue0 f { s with q0pend := rest } else s

/-! ### Time -/

/-- Ship time runs forward: a timed command sets it to its instant; it never steps back (spec 01 R31). -/
def atTime (t : Nat) (s : State) : State := if s.now < t then { s with now := t } else s

/-- SHIP_TIME point 4-5 (spec 13 Table 13-5) and CHRON_NOW follow the Chronometer at each update. -/
def shipTimeUpd (s : State) : State := setPt64 s 4 s.now

end Sys2Proof.Machine
end

