-- ==== Sys2Proof/Machine/AxisOps.lean ====
section
/-!
DEFINITION. Shared operations over axes and groups: the shown state of an axis (spec 02 R564), torque and kind, timing
of a group (spec 01 R22), updates of one element of the per-axis vectors, and the loop engine's trigger queue
(spec 06 R165, R166; 11 R293).
-/
namespace Sys2Proof.Machine

/-! ### Updates of one element -/

/-- Change the profile engine of an axis. -/
def modMot (n : Fin 16) (f : Motion → Motion) (s : State) : State := { s with mot := s.mot.set n.val (f s.mot[n]) }
/-- Change the sequence of an axis. -/
def modAx (n : Fin 16) (f : AxisSeq → AxisSeq) (s : State) : State := { s with ax := s.ax.set n.val (f s.ax[n]) }
/-- Change the gearing of an axis. -/
def modGear (n : Fin 16) (f : Gear → Gear) (s : State) : State := { s with gear := s.gear.set n.val (f s.gear[n]) }
/-- Change the superposition of an axis. -/
def modSup (n : Fin 16) (f : Super → Super) (s : State) : State := { s with sup := s.sup.set n.val (f s.sup[n]) }
/-- Change the envelope limiter of an axis. -/
def modEnv (n : Fin 16) (f : Env → Env) (s : State) : State := { s with env := s.env.set n.val (f s.env[n]) }
/-- Change an interpolation group. -/
def modIg (i : Fin 4) (f : IGroup → IGroup) (s : State) : State := { s with igrp := s.igrp.set i.val (f s.igrp[i]) }
/-- Change the homing of an axis. -/
def modHom (n : Fin 16) (f : Homing → Homing) (s : State) : State := { s with homing := s.homing.set n.val (f s.homing[n]) }
/-- Change the stepper of an axis. -/
def modStp (n : Fin 16) (f : Stepper → Stepper) (s : State) : State := { s with stp := s.stp.set n.val (f s.stp[n]) }
/-- Change the PWM state of an axis. -/
def modPa (n : Fin 16) (f : PwmAxis → PwmAxis) (s : State) : State := { s with pwmA := s.pwmA.set n.val (f s.pwmA[n]) }
/-- Change the PWM state of a group. -/
def modPg (g : Fin 4) (f : PwmGroup → PwmGroup) (s : State) : State := { s with pwmG := s.pwmG.set g.val (f s.pwmG[g]) }
/-- Change the kernel state of an axis. -/
def modLoop (n : Fin 16) (f : LoopAx → LoopAx) (s : State) : State := { s with loop := s.loop.set n.val (f s.loop[n]) }
/-- Change a cluster. -/
def modClu (g : Fin 4) (f : Cluster → Cluster) (s : State) : State := { s with clu := s.clu.set g.val (f s.clu[g]) }
/-- Change a feedback channel. -/
def modEnc (n : Fin 16) (f : EncCh → EncCh) (s : State) : State := { s with enc := s.enc.set n.val (f s.enc[n]) }
/-- Change the current sensing of an axis. -/
def modSdm (n : Fin 16) (f : SdmAx → SdmAx) (s : State) : State := { s with sdm := s.sdm.set n.val (f s.sdm[n]) }
/-- Change a housekeeping channel. -/
def modHk (c : Fin 24) (f : HkCh → HkCh) (s : State) : State := { s with hk := s.hk.set c.val (f s.hk[c]) }

/-! ### Axis views -/

/-- Current kernel of an axis (spec 06 Table 6-1). -/
def ckind (s : State) (n : Fin 16) : Nat := fld (ar s .loop n.val 0) 0 4
/-- Outer structure of an axis (spec 06 R160). -/
def outer (s : State) (n : Fin 16) : Nat := fld (ar s .loop n.val 0) 4 2
/-- Full-scale current AX_IFS of an axis in amperes. -/
def axIfs (s : State) (n : Fin 16) : Rat := f32 (ar s .loop n.val 4)
/-- Torque on: LOOP_STATUS.TQ (spec 06 Table 6-9). -/
def tq (s : State) (n : Fin 16) : Bool := bit (br s .loop 0) n.val
/-- Some axis of a group has torque on. -/
def grpTq (s : State) (g : Fin 4) : Bool := (grpAxes g).any (tq s)
/-- STO applies to a group: SAFE_STATUS.STO (spec 18 Table 18-12). -/
def stoOn (s : State) (g : Fin 4) : Bool := bit (br s .safe 0) g.val
/-- SS1-r in progress on a group. -/
def ss1On (s : State) (g : Fin 4) : Bool := bit (br s .safe 0) (4 + g.val)
/-- A fault record acts on an axis. -/
def FaultRec.hits (f : FaultRec) (n : Fin 16) : Bool := f.axes.getLsbD n.val
/-- An unacknowledged level-2 fault stands on the axis's group. -/
def l2Stands (s : State) (n : Fin 16) : Bool := s.helm.latched.any (fun f => f.level == 2 && f.hits n)
/-- An unacknowledged fault of level 1 or above stands on the axis, or one of level 2 or above on its group. -/
def faultStands (s : State) (n : Fin 16) : Bool := s.helm.latched.any (fun f => decide (1 ≤ f.level) && f.hits n)
/-- Code of the axis's own sequence. -/
def Seq.code : Seq → Nat
  | .disabled => 0 | .enabling => 1 | .ready => 2 | .moving => 3 | .stopping => 4
/-- The state AX_STATE shows: the first that applies (spec 02 R564). -/
def shown (s : State) (n : Fin 16) : Nat :=
  if stoOn s (grpOf n) then 7
  else if l2Stands s n then 6
  else if s.ax[n].faultStop then 5
  else s.ax[n].seq.code
/-- AX_STATE is ENABLING, READY, MOVING, STOPPING or FAULT_STOP. -/
def axActive (s : State) (n : Fin 16) : Bool := decide (1 ≤ shown s n ∧ shown s n ≤ 5)
/-- Some axis of a group is active. -/
def grpActive (s : State) (g : Fin 4) : Bool := (grpAxes g).any (axActive s)

/-- The feedback channel that serves an axis (spec 08 R197): the first channel with AXEN = 1 naming it. -/
def chanOf (s : State) (n : Fin 16) : Option (Fin 16) :=
  allAxes.find? fun c => let w := ar s .enc c.val 0; bit w 12 && fld w 16 4 == n.val

/-- HOMED of an axis is cleared and logged with its cause (05 R140, Table 5-5). -/
def homedLost (cause : Nat) (n : Fin 16) (s : State) : State :=
  if s.homing[n].homed then
    let s := modHom n (fun h => { h with homed := false }) s
    let s := iwBit (bwBit s .home 0 (16 + n.val) false) .home n.val 0x280 4 false
    ev 5 n.val 0x49 n.val [wd cause] s
  else s

/-- Homing in progress: STATE 1 to 7 (AX_STATE.HOMING). -/
def homingOn (s : State) (n : Fin 16) : Bool := decide (1 ≤ s.homing[n].state ∧ s.homing[n].state ≤ 7)

/-- Feedback position uncertain on the axis's channel. -/
def axUncertain (s : State) (n : Fin 16) : Bool :=
  match chanOf s n with
  | some c => bit (ir s .enc c.val 0x280) 1
  | none => false

/-! ### Interpolation groups (spec 04 R110) -/

/-- Active PROF_IGMEM of an interpolation group. -/
def igMem (s : State) (i : Fin 4) : Word := ar s .prof (16 + i.val) 0
/-- NAX of a PROF_IGMEM word. -/
def naxOf (w : Word) : Nat := fld w 16 3
/-- Member j of a PROF_IGMEM word. -/
def memOf (w : Word) (j : Nat) : Fin 16 := ⟨fld w (4 * j) 4 % 16, Nat.mod_lt _ (by decide)⟩
/-- Members of a PROF_IGMEM word in order, lead first; none where the group is disabled. -/
def membersOf (w : Word) : List (Fin 16) := if naxOf w ≤ 4 then (List.range (naxOf w)).map (memOf w) else []
/-- Members of a group. -/
def igMembers (s : State) (i : Fin 4) : List (Fin 16) := membersOf (igMem s i)
/-- The enabled interpolation group that an axis belongs to. -/
def igOf (s : State) (n : Fin 16) : Option (Fin 4) := (List.finRange 4).find? fun i => (igMembers s i).contains n
/-- The axis leads its group. -/
def igLeads (s : State) (i : Fin 4) (n : Fin 16) : Bool := (igMembers s i).head? == some n

/-! ### Group timing (spec 01 R22, 09 R219, R220) -/

/-- PRESC of a PWM_GTIME word. -/
def prescOf (w : Word) : Nat := 2 ^ fld w 20 2
/-- P of a PWM_GTIME word: the period in 2 ns ticks. -/
def ticksOf (w : Word) : Nat := fld w 0 20 * prescOf w
/-- The period P of a group in 2 ns ticks. -/
def gTicks (s : State) (g : Fin 4) : Nat := ticksOf (ar s .pwm (16 + g.val) 0)
/-- The period T of a group in ns. -/
def gT (s : State) (g : Fin 4) : Nat := 2 * gTicks s g
/-- The watch multiple N. -/
def gN (s : State) (g : Fin 4) : Nat := fld (ar s .pwm (16 + g.val) 0) 24 7
/-- PHASE of a group in ns: the committed offset, or floor(g P / 4) ticks with AUTO = 1 (spec 09 R220). -/
def phaseOf (gtime gphase : Word) (g : Nat) : Nat :=
  if bit gphase 31 then 2 * (g * ticksOf gtime / 4) else 2 * fld gphase 0 24
/-- PHASE of group g in ns. -/
def gPhase (s : State) (g : Fin 4) : Nat := phaseOf (ar s .pwm (16 + g.val) 0) (ar s .pwm (16 + g.val) 4) g.val
/-- The group is configured to run: PERIOD ≠ 0. -/
def gOn (s : State) (g : Fin 4) : Bool := fld (ar s .pwm (16 + g.val) 0) 0 20 != 0
/-- (t − PHASE) mod m = 0. -/
def onGrid (t phase m : Nat) : Bool := m != 0 && ((t : Int) - phase) % m == 0
/-- t is a period boundary of the running group (spec 01 R22; after a restart not before its start, spec 09 R221). -/
def isPb (s : State) (g : Fin 4) (t : Nat) : Bool :=
  gOn s g && decide (s.pwmG[g].start ≤ t) && onGrid t (gPhase s g) (gT s g)
/-- t is a watch boundary of the running group. -/
def isWb (s : State) (g : Fin 4) (t : Nat) : Bool :=
  gOn s g && decide (s.pwmG[g].start ≤ t) && onGrid t (gPhase s g) (gN s g * gT s g)
/-- t is the given offset after a period boundary of the running group. -/
def afterPb (s : State) (g : Fin 4) (t off : Nat) : Bool :=
  gOn s g && decide (s.pwmG[g].start + off ≤ t) && onGrid t (gPhase s g + off) (gT s g)
/-- Device boundary: group 0's watch boundary while it runs, else each multiple of 25,000 ns (spec 01 R562). -/
def isDevB (s : State) (t : Nat) : Bool := if gOn s 0 then isWb s 0 t else t % 25000 == 0
/-- Watch length of a group in ns. -/
def gW (s : State) (g : Fin 4) : Nat := gN s g * gT s g
/-- Index of the watch of a group that holds a ship time. -/
def watchIdx (s : State) (g : Fin 4) (t : Nat) : Nat := if gW s g = 0 then 0 else (t - s.pwmG[g].start) / gW s g
/-- First ship time after t that is a watch boundary for given values (spec 09 R221). -/
def nextWb (t phase w : Nat) : Nat :=
  if w = 0 then t
  else if t < phase then phase - (phase - t - 1) / w * w
  else t + w - (t - phase) % w

/-- AXVREDn and AXTREDn of the block in use (18 R35): word 44 + n and 60 + n. -/
def axVred (s : State) (n : Fin 16) : Rat := f32 (br s .safe (0x400 + 4 * (44 + n.val)))
/-- AXTREDn. -/
def axTred (s : State) (n : Fin 16) : Rat := f32 (br s .safe (0x400 + 4 * (60 + n.val)))
/-- A speed as COMMISSION allows it (02 R35). -/
def commV (s : State) (n : Fin 16) (v : Rat) : Rat := if mode s = mComm then rmin v (axVred s n) else v

/-- STEP_CFG.EN of an axis, active. -/
def stepOn (s : State) (n : Fin 16) : Bool := bit (ar s .step n.val 0) 0
/-- Open-loop stepper: FB = 0. -/
def stepOpen (s : State) (n : Fin 16) : Bool := stepOn s n && !(bit (ar s .step n.val 0) 3)

/-- T_R in ns of the ring's active set. -/
def trOf (s : State) : Nat := fld (ar s .ring 0 4) 0 24

/-! ### Encoder events and cluster restart -/

/-- Encoder event of a channel: 0 latch 1, 1 latch 2, 2 compare, 3 direction change (spec 06 Table 6-4). -/
def raiseEnc (ch : Fin 16) (e : Nat) (s : State) : State :=
  forEach allGroups (fun g s => raiseTrig g { src := 5, sel := e + 4 * ch.val } s) s

/-- A cluster restarts idle: save stack empty, no chain, ST cleared, PC at its idle entry, memories kept (02 R60, 11 R292,
R294). -/
def cluRestart (g : Fin 4) (s : State) : State :=
  modClu g (fun c => { c with state := .idle, frames := [], chain := none, waiting := [], st := 0#32, pc := fld (sr s g 0x28) 0 13, reads := [], posted := c.posted.filter (fun p => p.read.isNone), hist := [], first := false, lc := Vector.replicate 2 0, rot := Vector.replicate 2 false }) s

end Sys2Proof.Machine
end

