-- ==== Sys2Proof/Machine/Torque.lean ====
section
/-!
DEFINITION. Removal of torque from an axis and from a group, and what ends it (spec 01 R25, 02 R50, 06 R168, 09 R236,
10 R255, 03 R71, 04 R105).
-/
namespace Sys2Proof.Machine

/-- Change one of the four entries of a drive-die vector. -/
def upd4 {α : Type} (v : Vector α 4) (i : Fin 4) (x : α) : Vector α 4 := v.set i.val x

/-- The profile engine discards its queue and rests at the planned position (spec 03 R71, R89). -/
def Motion.clear (m : Motion) : Motion :=
  { m with v := 0, a := 0, p0 := m.p, v0 := 0, a0 := 0, segs := [], run := none, wait := [], enter := [],
           qstop := false, hold := false, replan := none }

/-- The kernel state of an axis is cleared: integrators, histories, stored voltages and th_prev (spec 06 R168). -/
def LoopAx.clear (x : LoopAx) : LoopAx :=
  { x with int0 := 0, int1 := 0, uk := (0, 0), uk1 := (0, 0), thPrev := none, vf := 0, paPrev := none, s := 0,
           notches := Vector.replicate 4 { x1 := 0, x2 := 0, y1 := 0, y2 := 0 }, pred := none, satRun := 0, angle := 0, flux := 0,
           iqNext := 0#32, iqAct := 0#32 }

/-- A saturation episode ends; VOLT_SAT where it lasted longer than one watch (spec 06 R157). -/
def satEnd (n : Fin 16) (s : State) : State :=
  let r := s.loop[n].satRun
  let s := modLoop n (fun x => { x with satRun := 0 }) s
  if gN s (grpOf n) < r then ev 6 n.val 9 n.val [wd r] s else s

/-- The reverse-battery switch turns off (spec 10 R264). -/
def rbOff (s : State) : State :=
  bwBit (bwBit { s with drv := { s.drv with rbOn := false, rbPend := false } } .drv 0 5 false) .drv 0 6 false

/-- Entry to HALT with HALTOFF = 1 turns the switch off (spec 10 R264). -/
def rbHalt (s : State) : State := if hasDrive s && bit (br s .drv 0x20) 1 then rbOff s else s

/-- The reverse-battery switch turns off once no axis of group 0 has torque, where that was pending (spec 10 R264). -/
def rbCheck (s : State) : State :=
  if s.drv.rbPend ∧ !(grpTq s 0) then rbOff s else s

/-- A member of an interpolation group loses torque: the path's queue is discarded, and a path in motion stops along its line from the
next boundary (spec 03 R66, 04 R115). -/
def pathOff (n : Fin 16) (s : State) : State :=
  match igOf s n with
  | some i => modIg i (fun g =>
      if g.mot.v == 0 && g.mot.a == 0 && g.mot.segs.isEmpty then { g with mot := { g.mot.clear with qstop := g.mot.qstop } }
      else { g with mot := { g.mot with wait := [], enter := [] }, stopDue := true }) s
  | none => s

/-- Torque of an axis is removed: its sequence is DISABLED, the queue is discarded, homing ends in ABORTED (05 R133), and an
open-loop stepper loses HOMED (05 R140). Its waiting start request is withdrawn (20 R504). Gearing and superposition fold at the next
boundary, unless a quick stop has folded them (04 R105). -/
def torqueOff (n : Fin 16) (s : State) : State :=
  let due := tq s n && !s.mot[n].qstop
  let s := pathOff n (modGear n (fun g => { g with foldDue := g.foldDue || due }) s)
  let s := modAx n (fun a => { a with seq := .disabled, faultStop := false, offAtRest := false, precharge := 0, granted := false }) s
  let s := modMot n Motion.clear s
  let s := { s with adm := { s.adm with raised := s.adm.raised.filter (fun r => r.src != 16 + n.val), queue := s.adm.queue.filter (fun r => r.src != 16 + n.val) } }
  let s := modHom n (fun h => if h.state ≠ 0 ∧ h.state ≠ 8 ∧ h.state ≠ 9 then { h with state := 9 } else h) s
  let s := modLoop n LoopAx.clear (satEnd n s)
  let s := if h : n.val < 4 then { s with drv := { s.drv with pre := upd4 s.drv.pre ⟨n.val, h⟩ 0 } } else s
  let w := ar s .step n.val 0
  let s := if bit w 0 && !(bit w 3) then homedLost 4 n s else s
  rbCheck (bwBit s .loop 0 n.val false)

/-- The PWM block sends an OFF frame naming axes of group 0 (bits 0-3) or all (bit 4) (spec 10 R255). -/
def sendOff (target : Nat) (s : State) : State :=
  if hasDrive s then
    let s := { s with drv := { s.drv with txOff := s.drv.txOff ||| target, offNamed := s.drv.offNamed ||| target } }
    bwSat s .drv 0x24 16 8
  else s

/-- The accumulators and refresh counts of an axis's slots are cleared (spec 09 R236). -/
def clearSlots (n : Fin 16) (s : State) : State :=
  modPa n (fun p => { p with slots := p.slots.map (fun x => { x with acc := 0, nref := 0 }) }) s

/-- A group enters group off: all its switches off, torque of every axis removed (spec 09 R236). -/
def groupOff (g : Fin 4) (s : State) : State :=
  let s := iwBit (bwBit s .pwm 0 (20 + g.val) true) .pwm (16 + g.val) 0x240 16 true
  let s := forEach (grpAxes g) (fun n s => torqueOff n (clearSlots n s)) s
  let s := if g = 0 then sendOff 16 s else s
  sumUpd s

/-- The Helm clears the group off when it accepts the acknowledge (spec 09 R236): GOFF, WDOFF, LD_OFF and LW_OFF. -/
def groupOn (g : Fin 4) (s : State) : State :=
  let s := iwBit (iwBit s .pwm (16 + g.val) 0x240 16 false) .pwm (16 + g.val) 0x240 17 false
  let s := bwBit (bwBit s .pwm 0 (20 + g.val) false) .pwm 0 (24 + g.val) false
  let s := bwBit (bwBit s .loop 0 (16 + g.val) false) .loop 0 (20 + g.val) false
  let s := modPg g (fun p => { p with wd0 := false }) s
  let s := if g = 0 then { s with drv := { s.drv with relDue := s.drv.relDue ||| 16 } } else s
  sumUpd s

end Sys2Proof.Machine
end

