-- ==== Sys2Proof/Machine/Drive.lean ====
section
/-!
DEFINITION. The drive die and the drive link (spec 10): frames and what the die does with them, protection events,
precharge, the reverse-battery switch, the DRV commit, and the meanings of the DRV commands. On the ZX-1600M nothing
here acts (R271).
-/
namespace Sys2Proof.Machine

/-- Change the drive die. -/
def modDrv (f : Drive → Drive) (s : State) : State := { s with drv := f s.drv }

/-- A drive-die fault: level 2 on group 0 while some axis of group 0 is active, else logged at level 0 (R270). -/
def drvFault (inst num axis : Nat) (data : List Word) (s : State) : State :=
  if grpActive s 0 then raise 2 (mkCode 10 inst num) (grpMask 0) axis data s
  else ev 10 inst num axis data s

/-- A group-0 axis number as an axis. -/
def ax4 (n : Fin 4) : Fin 16 := ⟨n.val, by omega⟩

/-! ### Slot records (R251, R257) -/

/-- No such edge. -/
def noEdge : BitVec 24 := 0xFFFFFF#24

/-- An edge time is absent or below P. -/
def edgeIn (p : Nat) (e : BitVec 24) : Bool := e == noEdge || decide (e.toNat < p)

/-- State of a switch just before tick t, from its state at the boundary and its two edges, applied in time order (an
off-edge and an on-edge at one tick: the state the later field order gives is not needed, both count as before t). -/
def swAt (st : Bool) (on off : BitVec 24) (t : Nat) : Bool :=
  let o := on != noEdge && decide (on.toNat < t)
  let f := off != noEdge && decide (off.toNat < t)
  if o && f then decide (off.toNat < on.toNat) else if o then true else if f then false else st

/-- A record is valid: times below P, no on-edge of a switch already on, no off-edge of one already off (R251). -/
def recValid (p : Nat) (r : SlotRec) : Bool :=
  edgeIn p r.hon && edgeIn p r.hoff && edgeIn p r.lon && edgeIn p r.loff &&
  (r.hon == noEdge || !(swAt r.sth r.hon r.hoff r.hon.toNat)) && (r.hoff == noEdge || swAt r.sth r.hon r.hoff r.hoff.toNat) &&
  (r.lon == noEdge || !(swAt r.stl r.lon r.loff r.lon.toNat)) && (r.loff == noEdge || swAt r.stl r.lon r.loff r.loff.toNat)

/-- State of a switch from tick t on. -/
def swFrom (st : Bool) (on off : BitVec 24) (t : Nat) : Bool := swAt st on off (t + 1)

/-- At some instant both switches of the record are on (R257): at the boundary or just after one of its edges. -/
def recOverlap (r : SlotRec) : Bool :=
  let both := fun (t : Nat) => swFrom r.sth r.hon r.hoff t && swFrom r.stl r.lon r.loff t
  (r.sth && r.stl && r.hoff != 0#24 && r.loff != 0#24) || both 0 ||
    (r.hon != noEdge && both r.hon.toNat) || (r.lon != noEdge && both r.lon.toNat)

/-! ### Frames (R250, Tables 10-2 to 10-4) -/

/-- The sixteen slot records of a frame's bytes behind the header. -/
def slotsOf (bs : List Byte) : List SlotRec :=
  (List.range 16).map fun i =>
    let o := 4 + 13 * i
    { sth := (bs.getD o 0#8).getLsbD 0, stl := (bs.getD o 0#8).getLsbD 1, hon := BitVec.ofNat 24 (leAt bs (o + 1) 3), hoff := BitVec.ofNat 24 (leAt bs (o + 4) 3),
      lon := BitVec.ofNat 24 (leAt bs (o + 7) 3), loff := BitVec.ofNat 24 (leAt bs (o + 10) 3) }

/-- The bytes after the preamble of a frame of a type with n of them are whole: length, TYPE and CRC-8 (R250). -/
def frameOk (type n : Nat) (bs : List Byte) : Bool := crc8Ok n bs && (bs.getD 0 0#8).toNat % 16 == type

/-- The SCHED frame that bytes spell (Tables 10-3, 10-4). -/
def schedOf (bs : List Byte) : SchedFrame :=
  { rel := (bs.getD 0 0#8).getLsbD 4, forced := (bs.getD 0 0#8).getLsbD 5, seq := bs.getD 1 0#8, pidx := BitVec.ofNat 16 (leAt bs 2 2), slots := slotsOf bs }

/-- Bytes of a slot record. -/
def slotBytes (r : SlotRec) : List Byte :=
  BitVec.ofNat 8 (b2n r.sth + 2 * b2n r.stl) :: (leBytes r.hon.toNat 3 ++ leBytes r.hoff.toNat 3 ++ leBytes r.lon.toNat 3 ++ leBytes r.loff.toNat 3)

/-- Bytes with their CRC-8 behind them. -/
def withCrc8 (bs : List Byte) : List Byte := bs ++ [crc8 bs]

/-- The bytes of a SCHED frame after the preamble. -/
def schedBytes (f : SchedFrame) : List Byte :=
  withCrc8 ([BitVec.ofNat 8 (1 + 16 * b2n f.rel + 32 * b2n f.forced), f.seq] ++ leBytes f.pidx.toNat 2 ++ f.slots.flatMap slotBytes)

/-- The bytes of an OFF frame that names a target (R255). -/
def offBytes (seq target : Nat) : List Byte := withCrc8 [2#8, BitVec.ofNat 8 seq, 0#8, 0#8, BitVec.ofNat 8 target]

/-- A bad or missing downstream frame: BADFR, and DRV_LINK_FRAME on the first in each second (R254). -/
def badFrame (seq cause : Nat) (s : State) : State :=
  evOnce 0xA00200 10 0 2 noAxis [wd seq, wd cause] (bwSat s .drv 0x24 0 16)

/-- The link is lost: every gate off, LINKLOST, the fault, and retraining (R254). -/
def linkLost (cause : Nat) (s : State) : State :=
  if s.drv.lost then s
  else
    let s := modDrv (fun d => { d with lost := true, locked := false, clockStop := cause == 2, held := none, missing := 0, crcBad := false }) s
    let s := bwBit (bwBit s .drv 0 0 false) .drv 0 1 true
    drvFault 0 3 noAxis [wd cause] s

/-- No valid frame is held at a boundary: it counts as missing unless it was counted when its CRC failed, and three in a row lose the link
(R254). -/
def missFrame (seq : Nat) (s : State) : State :=
  let s := if s.drv.crcBad then modDrv (fun d => { d with crcBad := false }) s else badFrame seq 2 s
  let k := s.drv.missing + 1
  let s := modDrv (fun d => { d with missing := k }) s
  if 3 ≤ k then linkLost 1 s else s

/-- Slots of a frame held off for the period, with SCHED_BAD and SHOOT_CMD raised (R251, R257). -/
def checkSlots (p pidx : Nat) : Nat → List SlotRec → State → List Bool × State
  | _, [], s => ([], s)
  | k, r :: rs, s =>
    let n := k / 4
    let (off, s) :=
      if !(recValid p r) then
        (true, drvFault n 8 n [wd (k % 4), wd pidx] (bwBit s .drv 0x28 (8 + n) true))
      else if recOverlap r then
        (true, drvFault n 7 n [wd (k % 4), wd pidx] (bwBit s .drv 0x28 n true))
      else (false, s)
    let (l, s) := checkSlots p pidx (k + 1) rs s
    (off :: l, s)

/-- The drive die takes a SCHED frame (R251, R254). -/
def takeSched (bs : List Byte) (s : State) : State :=
  let f := schedOf bs
  if !(hasDrive s) || s.drv.lost || !s.drv.locked then s
  else if !(frameOk 1 213 bs) then badFrame f.seq.toNat 1 (modDrv (fun d => { d with crcBad := true }) s)
  else
    let (off, s) := checkSlots (gTicks s 0) f.pidx.toNat 0 f.slots s
    modDrv (fun d => { d with held := some f, slotOff := off }) s

/-- The switches of axis n that a boundary's records command on with an edge (bit 2s high, 2s + 1 low). -/
def onEdges (rs : List SlotRec) (n : Nat) : Nat :=
  (List.range 4).foldl (fun m k =>
    match rs[4 * n + k]? with
    | some r => m ||| (if r.hon ≠ noEdge then 1 <<< (2 * k) else 0) ||| (if r.lon ≠ noEdge then 1 <<< (2 * k + 1) else 0)
    | none => m) 0

/-- A switch completes an on-interval in a period: it has an off-edge there, or is on at the period's end and the next records do not carry
it on. -/
def onDone (rs next : List SlotRec) (n b : Nat) : Bool :=
  match rs[4 * n + b / 2]? with
  | none => false
  | some r =>
    let (st, on, off) := if b % 2 = 0 then (r.sth, r.hon, r.hoff) else (r.stl, r.lon, r.loff)
    let carry := match next[4 * n + b / 2]? with | some q => if b % 2 = 0 then q.sth else q.stl | none => false
    off != noEdge || (swAt st on off 0xFFFFFF && !carry)

/-- DSCNT at the end of a period: counted up where the switch had an event, cleared where it completed an on-interval
without one (R261). -/
def dsCntEnd (rs next : List SlotRec) (n : Fin 4) (d : Drive) : Vector Nat 8 :=
  Vector.ofFn fun b =>
    let c := d.dsCnt[n][b]
    if Nat.testBit d.dsEv[n] b.val then min (c + 1) 15
    else if onDone rs next n.val b.val && !(Nat.testBit d.dsOff[n] b.val) then 0 else c

/-- Commit check of a DRV axis instance (R269). -/
def drvCheck (s : State) (n : Fin 4) : Option Nat :=
  let p := ir s .drv n.val 0
  let a := ar s .drv n.val 0
  let pb := ir s .drv n.val 8
  let ab := ar s .drv n.val 8
  if tq s (ax4 n) ∧ fld a 0 8 &&& (255 - fld p 0 8) ≠ 0 then some 0
  else if 10000 < fld pb 16 16 ∨ (tq s (ax4 n) ∧ fld ab 0 4 &&& (15 - fld pb 0 4) ≠ 0) then some 8
  else none

/-- The DRV commit of an axis instance (R268, R269). -/
def drvCommit (n : Fin 4) (s : State) : State :=
  let bad := drvCheck s n
  let s := bwBit s .drv 0x10 n.val false
  match bad with
  | some o => ev 10 n.val 0x10 n.val [wd o] s
  | none => copySet .drv n.val s

/-- Commit every armed DRV instance of a mask. -/
def drvCommits (mask : Nat) (s : State) : State :=
  forEach (List.finRange 4) (fun n s => if Nat.testBit mask n.val && bit (br s .drv 0x10) n.val then drvCommit n s else s) s

/-- The drive die at a group-0 period boundary with the given period index: the set held in a CFG frame, the frame held
for this boundary or a missing one (none is due at the group's first boundary: the first one sent names period 1, DEDUCED from Table 10-5),
release of latched OFF states, re-arming at on-edges (R252, R254, R255, R260-R262,
R267, R268). -/
def driveBoundary (pidx : Nat) (s : State) : State :=
  if !(hasDrive s) || s.drv.lost || !s.drv.locked then s
  else
    let d0 := s.drv
    let old := d0.replay
    let next := match d0.held with | some f => if f.pidx.toNat = pidx % 65536 then f.slots else [] | none => []
    let cnts : Vector (Vector Nat 8) 4 := Vector.ofFn fun n => dsCntEnd old next n d0
    let s := modDrv (fun d => { d with dsCnt := cnts, dsEv := Vector.replicate 4 0, gateOff := Vector.replicate 4 0 }) s
    let s := match s.drv.cfgHeld with
      | some m => if m.1 = pidx % 65536 then drvCommits m.2 (modDrv (fun d => { d with cfgHeld := none }) s) else s
      | none => s
    match s.drv.held with
    | some f =>
      if f.pidx.toNat = pidx % 65536 then
        modDrv (fun d =>
          let edges := fun (n : Fin 4) => onEdges f.slots n.val
          { d with
            replay := f.slots, held := none, missing := 0, crcBad := false
            gOff := d.gOff && !f.rel
            axOff := if f.rel then Vector.replicate 4 false else d.axOff
            dsOff := Vector.ofFn fun n => d.dsOff[n] &&& (255 - edges n) ||| (d.dsOff[n] &&& d.dsLat[n])
            bsLow := Vector.ofFn fun n =>
              (List.range 4).foldl (fun m k =>
                if Nat.testBit (edges n) (2 * k) && Nat.testBit d.bsOk[n] k then m &&& (15 - 1 <<< k) else m) d.bsLow[n] }) s
      else
        missFrame d0.seq (modDrv (fun d => { d with replay := [], slotOff := List.replicate 16 true }) s)
    | none =>
      let s := modDrv (fun d => { d with replay := [], slotOff := List.replicate 16 true }) s
      if pidx = 0 then s else missFrame d0.seq s

/-- SCHED (R251). -/
def execSched (bytes : List Byte) (t : Nat) (s : State) : Host.Outcome State Fault Refusal :=
  .next (takeSched bytes (atTime t s))

/-- Precharge of an axis ends without READY: the axis returns to DISABLED (R263). -/
def preEnd (n : Fin 4) (st : Nat) (s : State) : State :=
  let s := modDrv (fun d => { d with pre := upd4 d.pre n st }) s
  if s.ax[ax4 n].seq = .enabling then modAx (ax4 n) (fun a => { a with seq := .disabled, granted := false }) s else s

/-- A copy of an OFF frame passes: its CRC-8, and its reserved bits at 0 (R255). -/
def offOk (bs : List Byte) : Bool := frameOk 2 6 bs && (bs.getD 0 0#8).toNat / 64 == 0 && (bs.getD 4 0#8).toNat / 32 == 0

/-- The drive die acts on a good OFF copy with a target byte: what it names is off and latched, and a running precharge of a named axis ends
(R255, R263). -/
def offAct (target : Byte) (s : State) : State :=
  let all := target.getLsbD 4
  let s := modDrv (fun d => { d with gOff := d.gOff || all, axOff := Vector.ofFn fun n => d.axOff[n] || target.getLsbD n.val }) s
  forEach (List.finRange 4) (fun n s => if (all || target.getLsbD n.val) ∧ s.drv.pre[n] = 1 then preEnd n 0 s else s) s

/-- The drive die takes the two copies of an OFF frame: it acts on the first that passes, and a copy that fails is counted (R255). -/
def takeOff (c1 c2 : List Byte) (s : State) : State :=
  if !(hasDrive s) then s
  else
    let s := modDrv (fun d => { d with txOff := 0, seq := d.seq + 2 }) s
    if s.drv.lost || !s.drv.locked then s
    else
      let s := if offOk c1 then s else bwSat s .drv 0x24 0 16
      let s := if offOk c2 then s else bwSat s .drv 0x24 0 16
      if offOk c1 then offAct (c1.getD 4 0#8) s else if offOk c2 then offAct (c2.getD 4 0#8) s else s

/-- OFF (R255). -/
def execDrvOff (copy1 copy2 : List Byte) (t : Nat) (s : State) : Host.Outcome State Fault Refusal :=
  .next (takeOff copy1 copy2 (atTime t s))

/-- CFG (R268): the sets that were armed when the SCHED frame was built travel to the die and take effect at the frame's boundary; a frame
that fails its CRC is not used. -/
def execCfg (bytes : List Byte) (t : Nat) (s : State) : Host.Outcome State Fault Refusal :=
  let s := atTime t s
  .next (if !(hasDrive s) || s.drv.lost || !s.drv.locked then s
    else modDrv (fun d => { d with seq := d.seq + 1, cfgHeld := if frameOk 3 53 bytes then some (leAt bytes 2 2, d.cfgDue) else d.cfgHeld }) s)

/-- An IDLE frame while group 0 is stopped: a good one keeps the link and lets armed sets take effect, a bad one is counted; 30 µs without a
good one lose the link (R250, R254, R268). -/
def takeIdle (bs : List Byte) (t : Nat) (s : State) : State :=
  if !(hasDrive s) || gOn s 0 || s.drv.lost || !s.drv.locked then s
  else
    let s := modDrv (fun d => { d with seq := d.seq + 1 }) s
    if frameOk 4 5 bs then drvCommits 15 (modDrv (fun d => { d with missing := 0, idleAt := t }) s)
    else
      let s := badFrame (bs.getD 1 0#8).toNat 1 s
      if s.drv.idleAt + 30000 ≤ t then linkLost 1 s else s

/-- IDLE (R250). -/
def execIdle (bytes : List Byte) (t : Nat) (s : State) : Host.Outcome State Fault Refusal := .next (takeIdle bytes t (atTime t s))

/-- DRV_STATUS from the die and the link (Table 10-10). -/
def drvStatus (s : State) : Word :=
  let d := s.drv
  let w := setFld 0#32 0 8 (b2n d.locked + 2 * b2n d.lost + 4 * b2n d.enabled + 8 * b2n (d.vgd == 0) + 16 * b2n d.overTemp
    + 32 * b2n d.rbOn + 64 * b2n d.rbPend + 128 * b2n d.gOff)
  let ax := (List.finRange 4).foldl (fun a n => a + (b2n d.axOff[n] <<< n.val) + (b2n d.vbrOv[n] <<< (n.val + 4))) 0
  setFld w 8 8 ax

/-- DRV_ASTAT of an axis (Table 10-15). -/
def drvAstat (d : Drive) (n : Fin 4) : Word :=
  wd (d.dsOff[n] % 256 + 256 * (d.dsLat[n] % 256) + 65536 * (d.bsLow[n] % 16) + 2 ^ 20 * (d.bsOk[n] % 16) + 2 ^ 24 * (d.pre[n] % 4) + 2 ^ 26 * b2n d.vbrOv[n])

/-- Little-endian packing of small fields. -/
def pack (w : Nat) (l : List Nat) : Nat := l.foldr (fun x acc => x % 2 ^ w + 2 ^ w * acc) 0

/-- The core takes a STAT frame with the measured bootstrap voltages in 0.1 V (axis-major): the readbacks follow, and an
OFF state named but not latched is sent again (R250, R255, Table 10-15). -/
def takeStat (volts : List Nat) (s : State) : State :=
  if !(hasDrive s) then s
  else
    let s := modDrv (fun d => { d with
      bsv := Vector.ofFn fun n => Vector.ofFn fun k => volts.getD (4 * n.val + k.val) (d.bsv[n][k])
      bsOk := Vector.ofFn fun n =>
        let c := ar s .drv n.val 8
        let lim := 240 + 10 * fld c 8 4 + 10 * (fld c 12 2 + 1)
        (List.finRange 4).foldl (fun m k => if lim < 4 * (volts.getD (4 * n.val + k.val) (d.bsv[n][k])) then m ||| (1 <<< k.val) else m) 0 }) s
    let s := bw s .drv 0 (drvStatus s)
    let s := forEach (List.finRange 4) (fun n s =>
      let d := s.drv
      let s := iw s .drv n.val 0x240 (drvAstat d n)
      let s := iw s .drv n.val 0x244 (wd (pack 4 d.dsCnt[n].toList))
      let s := iw s .drv n.val 0x248 (wd (pack 16 [min d.evDesat[n] 65535, min d.evBsLow[n] 65535]))
      iw s .drv n.val 0x24C (wd (pack 8 d.bsv[n].toList))) s
    let d := s.drv
    let left := (List.finRange 4).foldl (fun m n => if Nat.testBit d.offNamed n.val && !d.axOff[n] then m ||| (1 <<< n.val) else m)
      (if Nat.testBit d.offNamed 4 && !d.gOff then 16 else 0)
    if left = 0 then modDrv (fun d => { d with offNamed := 0 }) s
    else sendOff left (modDrv (fun d => { d with offNamed := 0 }) s)

/-- STAT (R250): the upstream frame with its check; a frame that fails its CRC is not used. -/
def execStat (volts : List Nat) (bytes : List Byte) (t : Nat) (s : State) : Host.Outcome State Fault Refusal :=
  let s := atTime t s
  .next (if frameOk 8 36 bytes then takeStat volts s else s)

/-- The reverse-battery switch turns on while it is requested and VGD is in range (R264). -/
def rbOn (s : State) : State :=
  if bit (br s .drv 0x20) 0 ∧ s.drv.vgd = 0 then
    bwBit (bwBit (modDrv (fun d => { d with rbOn := true, rbPend := false }) s) .drv 0 5 true) .drv 0 6 false
  else s

/-! ### Link events -/

/-- DRV_LINK_TRAINED: lock is reached (R253). -/
def execDrvLinkTrained (t : Nat) (s : State) : Host.Outcome State Fault Refusal :=
  let s := atTime t s
  .next (if hasDrive s then
    bwBit (bwBit (modDrv (fun d => { d with locked := true, lost := false, clockStop := false, missing := 0, idleAt := t }) s) .drv 0 0 true) .drv 0 1 false
    else s)

/-- DRV_LINK_FAIL: no lock within 200 µs; level 3 ends BOOT in HALT (R253). -/
def execDrvLinkFail (stage t : Nat) (s : State) : Host.Outcome State Fault Refusal :=
  let s := atTime t s
  .next (if hasDrive s && !s.drv.locked && mode s == mBoot then raiseDev 3 10 0 1 [wd stage] s else s)

/-- DRV_LINK_LOST: the forwarded clock stopped, or no good IDLE frame for 30 µs while group 0 is stopped (R254); three missing SCHED frames
lose the link at their boundary. -/
def execDrvLinkLost (clock : Bool) (t : Nat) (s : State) : Host.Outcome State Fault Refusal :=
  let s := atTime t s
  .next (if !(hasDrive s) || !s.drv.locked then s
    else if clock then linkLost 2 s
    else if !(gOn s 0) && decide (s.drv.idleAt + 30000 ≤ t) then linkLost 1 s
    else s)

/-! ### Precedence (R256) -/

/-- The start of the period that runs on the drive die, and the tick in it, at ship time t. -/
def drvTick (s : State) (t : Nat) : Nat := match s.pwmG[(0 : Fin 4)].lastPb with | some b => (t - b) / 2 | none => 0

/-- State of switch b of axis n at ship time t, by the first row of Table 10-6 that applies. Row 7 beyond SHOOT_GATE, and the end of a soft
turn-off, are times below the model's (log entry 60). -/
def drvSwitch (s : State) (n : Fin 4) (b : Fin 8) (t : Nat) : Bool :=
  let d := s.drv
  let i := 4 * n.val + b.val / 2
  let high := b.val % 2 == 0
  if !d.enabled then false
  else if d.overTemp || d.vgd != 0 || d.lost || d.clockStop then false
  else if d.gOff || d.axOff[n] then false
  else if d.vbrOv[n] || Nat.testBit d.dsLat[n] b.val then false
  else if d.slotOff.getD i false then false
  else if Nat.testBit d.dsOff[n] b.val || (high && Nat.testBit d.bsLow[n] (b.val / 2)) then false
  else if Nat.testBit d.gateOff[n] b.val then false
  else if d.pre[n] == 1 && !high && bit (ar s .drv n.val 8) (b.val / 2) then true
  else match d.replay[i]? with
    | some r => if high then swFrom r.sth r.hon r.hoff (drvTick s t) else swFrom r.stl r.lon r.loff (drvTick s t)
    | none => false

/-! ### Protection -/

/-- The on-edge of a switch in the running period is at most blanking old at tick k (R259). -/
def blanked (s : State) (n : Fin 4) (b : Fin 8) (k dur : Nat) : Bool :=
  match s.drv.replay[4 * n.val + b.val / 2]? with
  | some r =>
    let on := if b.val % 2 = 0 then r.hon else r.lon
    on != noEdge && decide (on.toNat ≤ k) && decide (2 * k < 2 * on.toNat + 10 * fld (ar s .drv n.val 0) 16 8 + dur)
  | none => false

/-- A switch is desaturated: it is checked and on, and its sense node has been above the threshold of 0.5 V × (DSTH + 1) for 40 ns after the
blanking time of its on-edge (R259, R267). -/
def desatSeen (s : State) (n : Fin 4) (b : Fin 8) (mv dur t : Nat) : Bool :=
  bit (ar s .drv n.val 0) b.val && drvSwitch s n b t && decide (500 * (fld (ar s .drv n.val 0) 8 4 + 1) < mv) && decide (40 ≤ dur) &&
    !(blanked s n b (drvTick s t) 40)

/-- A switch is desaturated with its sense node at mv for dur ns (R259-R261). -/
def desat (n : Fin 4) (b : Fin 8) (mv dur t : Nat) (s : State) : State :=
  if !(hasDrive s) || !(desatSeen s n b mv dur t) then s
  else
    let d := s.drv
    let cnt := d.dsCnt[n][b]
    let again := Nat.testBit d.dsEv[n] b.val
    let s := modDrv (fun d => { d with
      dsOff := upd4 d.dsOff n (d.dsOff[n] ||| (1 <<< b.val)), dsEv := upd4 d.dsEv n (d.dsEv[n] ||| (1 <<< b.val))
      evDesat := upd4 d.evDesat n (d.evDesat[n] + 1) }) s
    let s := if cnt = 0 ∧ !again then ev 10 n.val 4 n.val [wd b.val] s else s
    if cnt = fld (ar s .drv n.val 4) 0 4 ∧ !(Nat.testBit d.dsLat[n] b.val) then
      let s := modDrv (fun d => { d with dsLat := upd4 d.dsLat n (d.dsLat[n] ||| (1 <<< b.val)) }) s
      drvFault n.val 5 n.val [wd b.val, wd cnt] s
    else s

/-- DRV_DESAT (R260). -/
def execDrvDesat (n : Fin 4) (b : Fin 8) (mv dur t : Nat) (s : State) : Host.Outcome State Fault Refusal :=
  .next (desat n b mv dur t (atTime t s))

/-- A write of DRV_DSCLR: bit 8n + b clears the latch of switch b of axis n; it acts again from its next on-edge (R261). -/
def dsClr (v : Word) (s : State) : State :=
  if hasDrive s then
    modDrv (fun d => { d with
      dsOff := Vector.ofFn fun n => d.dsOff[n] ||| (d.dsLat[n] &&& fld v (8 * n.val) 8)
      dsLat := Vector.ofFn fun n => d.dsLat[n] &&& (255 - fld v (8 * n.val) 8) }) s
  else s

/-- DRV_DSCLR (R261). -/
def execDrvDsclr (v : Word) (s : State) : Host.Outcome State Fault Refusal := .next (dsClr v s)

/-- The high side of a slot has its on-edge at ship time t. -/
def onEdgeAt (s : State) (n k : Fin 4) (t : Nat) : Bool :=
  match s.drv.replay[4 * n.val + k.val]? with | some r => r.hon != noEdge && r.hon.toNat == drvTick s t | none => false

/-- BS_LOW: BS − SW of a monitored slot in mV has been below BS_UV for dur ns while its high side is on, or is so at its on-edge: the high
side turns off or stays off until it re-arms (R262). -/
def bsLow (n k : Fin 4) (mv dur t : Nat) (s : State) : State :=
  let c := ar s .drv n.val 8
  let seen := decide (mv < 6000 + 250 * fld c 8 4) && (onEdgeAt s n k t || (decide (200 ≤ dur) && drvSwitch s n ⟨2 * k.val, by omega⟩ t))
  if !(hasDrive s) || !(bit c k.val) || !seen then s
  else
    let again := Nat.testBit s.drv.bsLow[n] k.val
    let s := modDrv (fun d => { d with bsLow := upd4 d.bsLow n (d.bsLow[n] ||| (1 <<< k.val)), evBsLow := upd4 d.evBsLow n (d.evBsLow[n] + 1) }) s
    let s := bwBit s .drv 0x28 (12 + n.val) true
    if again then s else ev 10 n.val 6 n.val [wd k.val, wd (mv / 100)] s

/-- BS_LOW (R262). -/
def execBsLow (n k : Fin 4) (mv dur t : Nat) (s : State) : Host.Outcome State Fault Refusal := .next (bsLow n k mv dur t (atTime t s))

/-- VGD_OUT_OF_RANGE with VGD in 0.1 V (R247). -/
def execVgdOutOfRange (dv t : Nat) (s : State) : Host.Outcome State Fault Refusal :=
  let s := atTime t s
  .next (if !(hasDrive s) then s
    else if dv < 90 ∧ s.drv.vgd ≠ 1 then drvFault 0 9 noAxis [wd dv] (bwBit (modDrv (fun d => { d with vgd := 1 }) s) .drv 0 3 false)
    else if 160 < dv ∧ s.drv.vgd ≠ 2 then drvFault 0 0xA noAxis [wd dv] (bwBit (modDrv (fun d => { d with vgd := 2 }) s) .drv 0 3 false)
    else s)

/-- VGD_BACK_IN_RANGE with VGD in 0.1 V: within 9.5 V to 15.5 V the cause is gone, and a requested reverse-battery switch turns on (R247,
R264). -/
def execVgdBackInRange (dv t : Nat) (s : State) : Host.Outcome State Fault Refusal :=
  let s := atTime t s
  .next (if hasDrive s && decide (95 ≤ dv ∧ dv ≤ 155) then
    rbOn (bwBit (modDrv (fun d => { d with vgd := 0 }) s) .drv 0 3 true) else s)

/-- DRV_VBR_OV with VBRn in 0.1 V: above 66 V the axis's gates turn off (R248). -/
def execDrvVbrOv (n : Fin 4) (dv t : Nat) (s : State) : Host.Outcome State Fault Refusal :=
  let s := atTime t s
  .next (if hasDrive s && decide (660 < dv) && !s.drv.vbrOv[n] then
    drvFault n.val 0xB n.val [wd dv] (bwBit (modDrv (fun d => { d with vbrOv := upd4 d.vbrOv n true }) s) .drv 0 (12 + n.val) true)
    else s)

/-- VBR_BACK_BELOW_64V: the cause of DRV_VBR_OV on axis n is gone (R248). -/
def execVbrBackBelow64v (n : Fin 4) (t : Nat) (s : State) : Host.Outcome State Fault Refusal :=
  let s := atTime t s
  .next (if hasDrive s then bwBit (modDrv (fun d => { d with vbrOv := upd4 d.vbrOv n false }) s) .drv 0 (12 + n.val) false else s)

/-- DRV_OVERTEMP: the die reaches 150 °C (R249). -/
def execDrvOvertemp (t : Nat) (s : State) : Host.Outcome State Fault Refusal :=
  let s := atTime t s
  .next (if hasDrive s && !s.drv.overTemp then raiseDev 3 10 0 0xC [0#32] (bwBit (modDrv (fun d => { d with overTemp := true }) s) .drv 0 4 true) else s)

/-- SHOOT_GATE: 500 ns after the on-edge of switch b the other gate is still above 2 V; the switch stays off for the period (R258). -/
def execShootGate (n : Fin 4) (b : Fin 8) (t : Nat) (s : State) : Host.Outcome State Fault Refusal :=
  let s := atTime t s
  .next (if hasDrive s then
    let s := modDrv (fun d => { d with gateOff := upd4 d.gateOff n (d.gateOff[n] ||| (1 <<< b.val)) }) s
    drvFault n.val 0xF n.val [wd (b.val / 2)] (bwBit s .drv 0x28 (4 + n.val) true) else s)

/-- Precharge ends on axis n after PRECHG µs with the measured bootstrap voltages in 0.1 V: every monitored slot must exceed BS_UV plus
hysteresis (R263). READY follows at the next watch boundary. -/
def prechargeEnd (n : Fin 4) (volts : List Nat) (t : Nat) (s : State) : State :=
  let wait := s.drv.preAt[n] + 1000 * fld (ar s .drv n.val 8) 16 16
  if !(hasDrive s) || s.ax[ax4 n].seq != .enabling || s.drv.pre[n] != 1 || decide (t < wait) then s
  else
    let c := ar s .drv n.val 8
    let lim := 240 + 10 * fld c 8 4 + 10 * (fld c 12 2 + 1)
    match (List.range 4).find? (fun k => bit c k && decide (4 * volts.getD k 0 < lim)) with
    | none => modAx (ax4 n) (fun a => { a with precharge := 2 }) (modDrv (fun d => { d with pre := upd4 d.pre n 2 }) s)
    | some k =>
      let s := bwBit s .drv 0x28 (16 + n.val) true
      let s := ev 10 n.val 0xD n.val [wd k, wd (volts.getD k 0)] s
      preEnd n 3 s

/-- PRECHARGE_END (R263). -/
def execPrechargeEnd (n : Fin 4) (volts : List Nat) (t : Nat) (s : State) : Host.Outcome State Fault Refusal :=
  .next (prechargeEnd n volts t (atTime t s))

/-! ### Reverse-battery switch (R264) -/

/-- A write of DRV_RB. -/
def drvRbWrite (v : Word) (s : State) : State :=
  if !(hasDrive s) then s
  else
    let was := bit (br s .drv 0x20) 0
    let s := bw s .drv 0x20 (v &&& 3#32)
    if bit v 0 then rbOn s
    else if was ∧ grpTq s 0 then bwBit (modDrv (fun d => { d with rbPend := true }) s) .drv 0 6 true
    else rbOff s

/-- DRV_RB_WRITE (R264). -/
def execDrvRbWrite (v : Word) (s : State) : Host.Outcome State Fault Refusal := .next (drvRbWrite v s)

/-- RB_FAULT: RBG − RBS, in 0.1 V, has been below 8 V for dur ns; 10 µs of it turn the switch off (R264). -/
def execRbFault (dv dur t : Nat) (s : State) : Host.Outcome State Fault Refusal :=
  let s := atTime t s
  .next (if hasDrive s && s.drv.rbOn && decide (dv < 80) && decide (10000 ≤ dur) then
    drvFault 0 0xE noAxis [wd dv] (bwBit (rbOff s) .drv 0x28 20 true) else s)

end Sys2Proof.Machine
end

