-- ==== Sys2Proof/Machine/Admission.lean ====
section
/-!
DEFINITION. Start admission (spec 20 R502-R506): requests, withdrawal, the evaluation at every 10 µs, grants, timeouts, the
PMU commit, and the meanings of ADMISSION_EVALUATION, START_TIMEOUT and PMU_START_BUDGET_WRITE.
-/
namespace Sys2Proof.Machine

/-- Source code of an axis. -/
def srcAx (n : Fin 16) : Nat := 16 + n.val

/-- The axis that a source code names. -/
def srcAx? (k : Nat) : Option (Fin 16) := if h : 16 ≤ k ∧ k < 32 then some ⟨k - 16, by omega⟩ else none

/-- H: the cost still held. -/
def Adm.heldCost (a : Adm) : Nat := (a.held.map (·.cost)).foldl (· + ·) 0

/-- PMU_ADMIT, PMU_HEAD and PMU_AXSTAT follow. -/
def admPublish (s : State) : State :=
  let a := s.adm
  let s := bw s .pmu 0x24 (wd (min a.heldCost 65535 + 65536 * min (a.queue.length + a.raised.length) 255))
  let s := bw s .pmu 0x28 (match a.queue with
    | r :: _ => wd (r.src + 65536 * min ((s.now - r.t0) / 1000000) 65535)
    | [] => 0#32)
  forEach allAxes (fun n s =>
    let w := (s.adm.queue ++ s.adm.raised).any (fun r => r.src == srcAx n)
    let h := s.adm.held.any (fun r => r.src == srcAx n)
    iw s .pmu n.val 0x240 (wd (b2n w + 2 * b2n h))) s

/-- A granted request acts as its source specifies (R504): an island powers up, a drive-die axis precharges, a pin axis is
ready for its next watch boundary, an output waits for its next downstream frame. -/
def grantAct (src : Nat) (s : State) : State :=
  match srcAx? src with
  | some n =>
    if s.ax[n].seq ≠ .enabling then s
    else if h : hasDrive s = true ∧ n.val < 4 then
      { s with drv := { s.drv with pre := upd4 s.drv.pre ⟨n.val, h.2⟩ 1, preAt := upd4 s.drv.preAt ⟨n.val, h.2⟩ s.now } }
    else modAx n (fun a => { a with granted := true }) s
  | none =>
    if 32 ≤ src then { s with adm := { s.adm with outs := s.adm.outs ++ [src - 32] } }
    else { s with adm := { s.adm with islands := s.adm.islands ||| (1 <<< src) } }

/-- A request is raised; with cost 0 it is granted at once and never enters the queue (R502). -/
def admRequest (src cost settle tmo : Nat) (s : State) : State :=
  if cost = 0 then grantAct src s
  else admPublish { s with adm := { s.adm with raised := s.adm.raised ++ [{ src := src, cost := cost, settle := settle, tmo := tmo, t0 := s.now }] } }

/-- The request of an axis with the values of PMU_AXSTART. -/
def axRequest (n : Fin 16) (s : State) : State :=
  let w := ar s .pmu n.val 0
  admRequest (srcAx n) (fld w 0 12) (fld w 12 8 * 100000) (fld w 20 8 * 10000000) s

/-- A request withdrawn while it waits leaves the queue (R504). -/
def admWithdraw (src : Nat) (s : State) : State :=
  admPublish { s with adm := { s.adm with raised := s.adm.raised.filter (fun r => r.src != src), queue := s.adm.queue.filter (fun r => r.src != src), outs := s.adm.outs.filter (fun o => o + 32 != src) } }

/-- Order in which new requests are taken: islands, then axes, then outputs, each ascending (R503). -/
def takeOrder (l : List AdmReq) : List AdmReq := l.mergeSort (fun a b => decide (a.src ≤ b.src))

/-- Instance of the PMU codes for a source: axis, output or 0. -/
def srcInst (src : Nat) : Nat := if 32 ≤ src then src - 32 else if 16 ≤ src then src - 16 else 0

/-- A request not granted within its timeout is withdrawn and raises START_TIMEOUT (R505). -/
def startTimeout (r : AdmReq) (s : State) : State :=
  let s := bwSat (admWithdraw r.src s) .pmu 0x3C 0 16
  let data := [wd r.src, wd ((s.now - r.t0) / 1000000)]
  match srcAx? r.src with
  | some n =>
    let s := if s.ax[n].seq = .enabling then modAx n (fun a => { a with seq := .disabled, granted := false, precharge := 0 }) s else s
    raiseAx 1 1 0x10 n data s
  | none => if r.src < 16 then raiseDev 3 1 0 0x10 data s else ev 1 (srcInst r.src) 0x10 noAxis data s

/-- Withdraw every waiting request whose timeout has run before t, or at t. -/
def timeouts (incl : Bool) (t : Nat) (s : State) : State :=
  forEach ((s.adm.queue ++ s.adm.raised).filter (fun r => r.tmo != 0 && (decide (r.t0 + r.tmo < t) || (incl && r.t0 + r.tmo == t)))) startTimeout s

/-- Step 3 of R503: grants at the head while the budget allows; with BUDGET = 0 every request (R506). The cost of an output with SETTLE = 0 is
released at the grant (17 Table 17-8). -/
def grants (t : Nat) : Nat → State → State
  | 0, s => s
  | k + 1, s =>
    match s.adm.queue with
    | [] => s
    | r :: q =>
      let b := fld (br s .pmu 0x20) 0 16
      let h := s.adm.heldCost
      if b = 0 ∨ h + r.cost ≤ b ∨ h = 0 then
        let s := { s with adm := { s.adm with queue := q, held := if 32 ≤ r.src ∧ r.settle = 0 then s.adm.held else s.adm.held ++ [{ src := r.src, cost := r.cost, until_ := t + r.settle }] } }
        let s := if b ≠ 0 ∧ b < r.cost then ev 1 (srcInst r.src) 0x11 noAxis [wd r.src, wd r.cost] s else s
        grants t k (grantAct r.src s)
      else s

/-- PMU commit of an axis at an evaluation: refused whole where COST is above 4,000. -/
def pmuCommit (n : Fin 16) (s : State) : State :=
  let bad := decide (4000 < fld (ir s .pmu n.val 0) 0 12)
  let s := bwBit s .pmu 0x10 n.val false
  if bad then ev 1 n.val 0x12 n.val [0#32] s else copySet .pmu n.val s

/-- The admission evaluation (R503). -/
def admEvaluate (t : Nat) (s : State) : State :=
  let s := forEach allAxes (fun n s => if bit (br s .pmu 0x10) n.val then pmuCommit n s else s) s
  let s := timeouts false t s
  let s := { s with adm := { s.adm with held := s.adm.held.filter (fun g => decide (t < g.until_)) } }
  let s := { s with adm := { s.adm with queue := s.adm.queue ++ takeOrder s.adm.raised, raised := [] } }
  admPublish (timeouts true t (grants t s.adm.queue.length s))

/-- ADMISSION_EVALUATION at a multiple of 10 µs of ship time (R503). -/
def execAdmissionEvaluation (t : Nat) (s : State) : Host.Outcome State Fault Refusal :=
  let s := atTime t s
  .next (if t % 10000 = 0 then admEvaluate t s else s)

/-- START_TIMEOUT: waiting requests whose timeout has run by t (R505). -/
def execStartTimeout (t : Nat) (s : State) : Host.Outcome State Fault Refusal := .next (admPublish (timeouts true t (atTime t s)))

/-- PMU_START_BUDGET_WRITE: the budget takes effect at the next evaluation (R506). -/
def execPmuStartBudgetWrite (v : Word) (s : State) : Host.Outcome State Fault Refusal :=
  .next (bw s .pmu 0x20 (v &&& 0xFFFF#32))

end Sys2Proof.Machine
end

