-- ==== Sys2Proof/Machine/Exchange.lean ====
section
/-!
DEFINITION. The exchange area of the cluster X memories (spec 11 R282, Table 11-8) and the copy of the status blocks to
the Chart.
-/
namespace Sys2Proof.Machine

/-- Default of cluster memory words (log entry 3). -/
def xyDefault (_ : Nat) : Word := 0#32
/-- A word of X memory of cluster g. -/
def getX (s : State) (g : Fin 4) (a : Nat) : Word := sget xyDefault s.clu[g].x a
/-- Put a word of X memory. -/
def putX (g : Fin 4) (a : Nat) (v : Word) (s : State) : State := modClu g (fun c => { c with x := sset xyDefault c.x a v }) s
/-- First word of the exchange block of an axis: 15,360 + 256j. -/
def xBlk (n : Fin 16) : Nat := 15360 + 256 * (n.val % 4)
/-- A word of an axis's exchange block. -/
def getXb (s : State) (n : Fin 16) (o : Nat) : Word := getX s (grpOf n) (xBlk n + o)
/-- Put a word of an axis's exchange block. -/
def putXb (n : Fin 16) (o : Nat) (v : Word) (s : State) : State := putX (grpOf n) (xBlk n + o) v s
/-- An I64 of an axis's exchange block, low word first. -/
def getXb64 (s : State) (n : Fin 16) (o : Nat) : Int := i64Of (getXb s n o) (getXb s n (o + 1))
/-- Put an I64, low word first. -/
def putXb64 (n : Fin 16) (o : Nat) (x : Int) (s : State) : State := putXb n (o + 1) (hiWord x) (putXb n o (loWord x) s)

/-- Base of the sample buffer of a period index. -/
def sampBuf (pidx : Nat) : Nat := 16 * (pidx % 2)
/-- Base of the command buffer of a watch index. -/
def cmdBuf (widx : Nat) : Nat := 32 + 16 * (widx % 2)
/-- SEQ or WSEQ word of an index: VALID set. -/
def seqWord (i : Nat) : Word := wd (i % 65536 + 65536)

/-- Period index that the last PWM-centre trigger carried, TIX[15:0]. -/
def tixP (s : State) (g : Fin 4) : Nat := fld s.clu[g].tix 0 16
/-- Watch index of the last watch trigger, TIX[31:16]. -/
def tixW (s : State) (g : Fin 4) : Nat := fld s.clu[g].tix 16 16

/-- The sample path writes buffer PIDX mod 2 of an axis: currents, position, angle word, velocity, time, then SEQ. -/
def writeSample (n : Fin 16) (pidx : Nat) (i0 i1 i2 : Word) (pos : Int) (ang vel : Word) (t0 : Nat) (s : State) : State :=
  let b := sampBuf pidx
  let s := putXb n (b + 3) i2 (putXb n (b + 2) i1 (putXb n (b + 1) i0 s))
  let s := putXb n (b + 7) vel (putXb n (b + 6) ang (putXb64 n (b + 4) pos s))
  putXb n b (seqWord pidx) (putXb64 n (b + 8) t0 s)

/-- The command path writes buffer WIDX mod 2 of an axis: position, velocity, acceleration, torque limit, flags, then
WSEQ. -/
def writeCommand (n : Fin 16) (widx : Nat) (pos : Int) (vel acc tl flags : Word) (s : State) : State :=
  let b := cmdBuf widx
  let s := putXb n (b + 4) acc (putXb n (b + 3) vel (putXb64 n (b + 1) pos s))
  putXb n b (seqWord widx) (putXb n (b + 6) flags (putXb n (b + 5) tl s))

/-- The loop engine copies an axis's status block to POS_ACT, VEL_ACT, IQ_ACT and ID_ACT (points 2-3, 6, 8 and 9 of the
axis band). -/
def statusCopy (n : Fin 16) (s : State) : State :=
  let s := setPt64 s (axPt n 2) (getXb64 s n 64)
  setAp (setAp (setAp s n 6 (getXb s n 66)) n 8 (getXb s n 67)) n 9 (getXb s n 68)

end Sys2Proof.Machine
end

