-- ==== Sys2Proof/Machine/Feedback.lean ====
section
/-!
DEFINITION. Position feedback channels (spec 08): counting, the period-centre sample, latch and compare units, the
direction flag, serial frames, the ENC commit, and the meanings of the ENC commands.
-/
namespace Sys2Proof.Machine

/-! ### Fields -/

/-- MODE of a channel (spec 08 Table 8-1). -/
def encMode (s : State) (c : Fin 16) : Nat := fld (ar s .enc c.val 0) 0 3
/-- ENC_STAT of a channel. -/
def encStat (s : State) (c : Fin 16) : Word := ir s .enc c.val 0x280
/-- Put a bit of ENC_STAT. -/
def setStat (c : Fin 16) (i : Nat) (v : Bool) (s : State) : State := iwBit s .enc c.val 0x280 i v
/-- The channel decodes STEP/DIR (spec 05 R149). -/
def stepDir (s : State) (c : Fin 16) : Bool := encMode s c == 1 && bit (br s .step 0x20) c.val
/-- Channels run in every mode except SLEEP and BOOT (R213). -/
def encUp (s : State) : Bool := mode s != mSleep && mode s != mBoot
/-- A channel runs. -/
def encRuns (s : State) (c : Fin 16) : Bool := encUp s && encMode s c != 0
/-- The channel checks index intervals: mode 1 with LINES ≠ 0 (R200). -/
def idxChecked (s : State) (c : Fin 16) : Bool := encMode s c == 1 && fld (ar s .enc c.val 8) 0 24 != 0
/-- The group whose sample the readbacks show: the assigned axis's, or group 0 (R194). -/
def encGrp (s : State) (c : Fin 16) : Fin 4 :=
  let w := ar s .enc c.val 0
  if bit w 12 then ⟨fld w 16 4 / 4 % 4, Nat.mod_lt _ (by decide)⟩ else 0
/-- The assigned axis of a channel (R197). -/
def encAxis (s : State) (c : Fin 16) : Option (Fin 16) :=
  let w := ar s .enc c.val 0
  if bit w 12 then some ⟨fld w 16 4 % 16, Nat.mod_lt _ (by decide)⟩ else none
/-- An axis uses a channel: assigned, or geared to it with KIND 2 or 3 (R203). -/
def usesCh (s : State) (c : Fin 16) (n : Fin 16) : Bool :=
  encAxis s c == some n ||
    (s.gear[n].phase != 0 &&
      (let w := ar s .prof n.val 0x80
       (fld w 0 3 == 3 && fld w 3 4 == c.val) ||
       (fld w 0 3 == 2 && (encAxis s c).elim false (fun a => fld w 3 4 == a.val))))

/-- A channel fault acts on each axis that uses the channel, at its level only where the axis is active; with no such
axis it is logged at level 0 (R203). -/
def encFault (lvl num : Nat) (c : Fin 16) (data : List Word) (s : State) : State :=
  let users := allAxes.filter (usesCh s c)
  if users.isEmpty then ev 7 c.val num noAxis data s
  else forEach users (fun n s =>
    if axActive s n then
      raise lvl (mkCode 7 c.val num) (if lvl = 2 then grpMask (grpOf n) else 1#16 <<< n.val) n.val data s
    else ev 7 c.val num n.val data s) s

/-- Set UNCERTAIN (R199-R202): the flag, ENC_STATUS, HOMED of the assigned axis cleared (05 R140), POS_UNCERTAIN. -/
def setUncertain (cause : Nat) (c : Fin 16) (s : State) : State :=
  if bit (encStat s c) 1 then s
  else
    let s := bwBit (setStat c 1 true s) .enc 0 c.val true
    let s := match encAxis s c with
      | some n => homedLost 1 n s
      | none => s
    encFault 1 2 c [wd cause] s

/-- Clear UNCERTAIN; with index checking disabled the skip interval starts again (R199). -/
def clearUncertain (c : Fin 16) (s : State) : State :=
  let s := bwBit (setStat c 1 false s) .enc 0 c.val false
  if idxChecked s c then s else iw s .enc c.val 0x298 (setFld (ir s .enc c.val 0x298) 16 8 0)

/-! ### Samples (R195, R204) -/

/-- Position and velocity of an incremental or Hall channel at ts, from the previous sample of the group (R195). -/
def sampleInc (e : EncCh) (prev : EncSample) (ts : Nat) : EncSample :=
  let dt : Int := (ts : Int) - e.te
  let v : Rat :=
    if prev.valid ∧ e.te ≠ prev.te then ((e.c - prev.c : Int) : Rat) / (((e.te : Int) - prev.te : Int) : Rat) * 1000000000
    else if dt ≥ 2 ^ 26 then 0
    else if dt ≤ 0 then prev.v
    else (if prev.v < 0 then -1 else 1) * rmin (rabs prev.v) (1000000000 / (dt : Rat))
  let lim : Rat := 1 - pow2 (-16)
  let f := rclamp (-lim) lim (v * (dt : Rat) / 1000000000)
  { c := e.c, te := e.te, v := v, p := e.c * 65536 + truncI (f * 65536), ts := ts, valid := true }

/-- Position and velocity of a serial channel at ts, extrapolated from the last good poll (R204). -/
def sampleSer (e : EncCh) (ts : Nat) : EncSample :=
  let p := (e.pPoll : Rat) + e.vPoll * (((ts : Int) - e.tPoll : Int) : Rat) * 65536 / 1000000000
  { c := e.c, te := e.tPoll, v := e.vPoll, p := roundFree 801 p, ts := ts, valid := true }

/-- The sample of a channel at ts for a group. -/
def encSampleAt (s : State) (c : Fin 16) (g : Fin 4) (ts : Nat) : EncSample :=
  let e := s.enc[c]
  if encMode s c = 3 ∨ encMode s c = 4 then sampleSer e ts else sampleInc e e.smp[g] ts

/-- The angle word: floor(((p / 65,536) mod CPR) × 65,536 / CPR), 0 with CPR = 0 (R196). -/
def angleWord (cpr : Nat) (p : Int) : Nat :=
  if cpr = 0 then 0 else ((p % ((cpr : Int) * 65536)) / cpr).toNat % 65536

/-- A channel takes its group-g sample at ts (R194); the readbacks follow the assigned axis's group, the safety tap group 0 (R213). -/
def encTake (g : Fin 4) (ts : Nat) (c : Fin 16) (s : State) : State :=
  if encRuns s c then
    let x := encSampleAt s c g ts
    let st := encStat s c
    let y : EncTap := { c := x.c, v := x.v, ts := ts, unc := bit st 1, wire := bit st 2, idxErr := fld (ir s .enc c.val 0x298) 24 8, good := s.enc[c].goodIdx, frErr := fld (ir s .enc c.val 0x29C) 0 16 }
    let s := modEnc c (fun e => { e with smp := e.smp.set g.val x, tap := if g = 0 then y else e.tap }) s
    if encGrp s c = g then
      iw64 (iw (iw64 s .enc c.val 0x284 x.p) .enc c.val 0x28C (toF32 802 x.v)) .enc c.val 0x290 x.te
    else s
  else s

/-- Position, angle word and velocity of an axis on the sample path of its group: those of its channel, 0 without one (R194, R196, R197). -/
def pathSample (s : State) (n : Fin 16) : Int × Word × Word :=
  match chanOf s n with
  | some c => let x := s.enc[c].smp[grpOf n]; (x.p, wd (angleWord (ar s .enc c.val 4).toNat x.p), toF32 802 x.v)
  | none => (0, 0#32, 0#32)

/-! ### Latch units (R207, R208) -/

/-- The axis that homes on a channel, if its homing has taken latch unit 1 over (05 R137). -/
def homingOf (s : State) (c : Fin 16) : Option (Fin 16) :=
  match encAxis s c with
  | some n => if homingOn s n then some n else none
  | none => none

/-- The configuration of latch unit u in force: homing takes over latch 1 with the index edge in INDEX and in the APPROACH
of method 7, else with the home switch on a latch pin, its edge to the active level (05 R137). -/
def latchCfg (s : State) (c : Fin 16) (u : Nat) : Word :=
  match u, homingOf s c with
  | 0, some n =>
    let w := ar s .home n.val 0
    let m := fld w 0 4
    if s.homing[n].state = 5 ∨ m = 7 then 2#32
    else if bit w 7 ∧ (m = 3 ∨ m = 4) then wd (1 + 8 * (fld w 8 5 % 8) + 64 * fld w 13 1)
    else 0#32
  | _, _ => ar s .enc c.val (0x20 + 4 * u)

/-- A capture of latch unit 1 during homing is the reference, in POS_ACT coordinates (05 R137, R139). -/
def homeRef (c : Fin 16) (u : Nat) (p : Int) (s : State) : State :=
  match u, homingOf s c with
  | 0, some n => modHom n (fun h => if h.cap.isSome then h else { h with cap := some (p + ir64 s .home n.val 0x288) }) s
  | _, _ => s

/-- A channel as it stood at ship time t: the count with the last accepted edge at or before t (R195, R208). -/
def encBack (e : EncCh) (t : Nat) : EncCh :=
  match (((e.c, e.te) :: e.hist).find? fun x => decide (x.2 ≤ t)) with
  | some x => { e with c := x.1, te := x.2 }
  | none => e

/-- Capture of an armed latch unit u (0 or 1) at ship time t: the record, overwrite count, disarm in SINGLE mode, latch event. -/
def latchCapture (c : Fin 16) (u : Nat) (t : Nat) (s : State) : State :=
  let cfg := latchCfg s c u
  if bit (encStat s c) (11 + u) then
    let e := encBack s.enc[c] t
    let x := if encMode s c = 3 ∨ encMode s c = 4 then sampleSer e t else sampleInc e e.smp[encGrp s c] t
    let s := if bit (encStat s c) (9 + u) then
        ev 7 c.val 8 noAxis [wd (u + 1)] (iwSat s .enc c.val 0x2A4 (8 * u) 8) else s
    let o := 0x2B0 + 0x18 * u
    let s := iw64 (iw64 (iw64 s .enc c.val o x.p) .enc c.val (o + 8) t) .enc c.val (o + 16) x.te
    let s := setStat c (9 + u) true s
    let s := if bit cfg 8 then s else setStat c (11 + u) false s
    raiseEnc c u (homeRef c u x.p s)
  else s

/-! ### Compare units (R210, R211) -/

/-- MODE 0, or PW = 0 in mode 1, leaves a CMP pin inactive (R211). -/
def cmpPinIdle (pc : Word) : Bool := fld pc 0 2 == 0 || (fld pc 0 2 == 1 && fld pc 16 16 == 0)

/-- A write of ENC_CMPPINm has taken effect. -/
def cmpPinSet (m : Fin 8) (s : State) : State :=
  if cmpPinIdle (br s .enc (0x40 + 4 * m.val)) then { s with cmpPins := s.cmpPins.set m.val { on := false, ends := none } } else s

/-- Level of pin CMPm: POL = 1 makes it active low (Table 8-10). -/
def cmpLevel (s : State) (m : Fin 8) : Bool := xor s.cmpPins[m].on (bit (br s .enc (0x40 + 4 * m.val)) 2)

/-- Action of a firing unit on its CMP pin. -/
def cmpPinFire (c : Fin 16) (u t : Nat) (s : State) : State :=
  let cfg := ar s .enc c.val (0x28 + 4 * u)
  if bit cfg 2 then
    let m : Fin 8 := ⟨fld cfg 3 3 % 8, Nat.mod_lt _ (by decide)⟩
    let pc := br s .enc (0x40 + 4 * m.val)
    let q := s.cmpPins[m]
    let q' : CmpPin :=
      match fld pc 0 2 with
      | 1 => if fld pc 16 16 = 0 then q else { on := true, ends := some (t + 2 * fld pc 16 16) }
      | 2 => { on := !q.on, ends := none }
      | 3 => { on := u == 0, ends := none }
      | _ => q
    { s with cmpPins := s.cmpPins.set m.val q' }
  else s

/-- A count change crosses a value (R210). -/
def crosses (v : Int) (p : Int × Int) : Bool := decide (p.1 < v ∧ v ≤ p.2) || decide (v < p.1 ∧ p.2 ≤ v)

/-- One compare unit in a sample at t with its count change, if any; the result says whether it fired. A crossing of the advanced V in the
same sample makes it fire again in the next one (R210, R211). -/
def cmpUnit (c : Fin 16) (u : Fin 2) (span : Option (Int × Int)) (t : Nat) (s : State) : Bool × State :=
  let cfg := ar s .enc c.val (0x28 + 4 * u.val)
  let m := fld cfg 0 2
  let x := s.enc[c].cmp[u]
  let v := ar64 s .enc c.val (0x30 + 8 * u.val)
  let k := s.enc[c].c
  let down := bit (encStat s c) 0
  let s := if x.first then setStat c (5 + u.val) (m != 0 && (if down then decide (k < v) else decide (v < k))) s else s
  let passed := x.first && m == 2 && (if down then decide (k ≤ v) else decide (v ≤ k))
  let spans := x.due ++ span.toList
  let put := fun (y : CmpU) (s : State) => modEnc c (fun e => { e with cmp := e.cmp.set u.val y }) s
  if m ≠ 0 ∧ bit (encStat s c) (7 + u.val) ∧ (passed || spans.any (crosses v)) then
    let inc := (ar s .enc c.val (0x40 + 4 * u.val)).toInt
    let s := if inc = 0 then setStat c (7 + u.val) false s else aw64 s .enc c.val (0x30 + 8 * u.val) (v + inc)
    let v := ar64 s .enc c.val (0x30 + 8 * u.val)
    let s := put { x with first := false, due := if inc = 0 then [] else spans.filter (crosses v) } s
    (true, raiseEnc c 2 (cmpPinFire c u.val t s))
  else (false, put { x with first := false, due := [] } s)

/-! ### Counting (R193, R198-R200, R212, R214) -/

/-- Position of a quadrature state in the up sequence 00, 10, 11, 01 of (A, B) (A leads B counts up). -/
def quadPos (l : Nat) : Nat := match l % 4 with | 0 => 0 | 1 => 1 | 3 => 2 | _ => 3
/-- Position of a Hall code H3 H2 H1 in the up sequence 001, 011, 010, 110, 100, 101; none if invalid. -/
def hallPos (l : Nat) : Option Nat := match l % 8 with
  | 1 => some 0 | 3 => some 1 | 2 => some 2 | 6 => some 3 | 4 => some 4 | 5 => some 5 | _ => none

/-- What a change of the lines does to the count. -/
inductive CountStep where
  | none
  | by (d : Int)
  | skip (hallBad : Bool)
  deriving DecidableEq, Repr

/-- The count step of a line change in the channel's mode. -/
def countStep (s : State) (c : Fin 16) (old new : Nat) : CountStep :=
  let inv : Int := if bit (ar s .enc c.val 0) 4 then -1 else 1
  if stepDir s c then
    let fall := bit (br s .step 0x24) c.val
    let was := old % 2 == 1
    let is := new % 2 == 1
    let act := if fall then was && !is else !was && is
    if act then
      let dir := xor (new / 2 % 2 == 1) (bit (br s .step 0x20) (16 + c.val))
      .by (inv * (if dir then -1 else 1))
    else .none
  else if encMode s c = 1 then
    match (quadPos new + 4 - quadPos old) % 4 with
    | 0 => .none
    | 1 => .by inv
    | 3 => .by (-inv)
    | _ => .skip false
  else if encMode s c = 2 then
    if old % 8 = new % 8 then .none
    else match hallPos old, hallPos new with
      | some a, some b =>
        if (b + 6 - a) % 6 = 1 then .by inv else if (b + 6 - a) % 6 = 5 then .by (-inv) else .skip false
      | _, none => .skip true
      | none, some _ => if (old ^^^ new) % 8 = 1 ∨ (old ^^^ new) % 8 = 2 ∨ (old ^^^ new) % 8 = 4 then .none else .skip false
  else .none

/-- Wrap a count to signed 48 bits (R193). -/
def wrap48 (x : Int) : Int := (x + 2 ^ 47) % 2 ^ 48 - 2 ^ 47

/-- Direction flag after a count change of sign d at time t (R212). -/
def dirStep (c : Fin 16) (d : Int) (t : Nat) (s : State) : State :=
  let down := bit (encStat s c) 0
  if (d < 0) = (down = true) then modEnc c (fun e => { e with against := 0 }) s
  else
    let k := s.enc[c].against + d.natAbs
    if fld (ar s .enc c.val 0) 20 8 + 1 ≤ k then
      let s := modEnc c (fun e => { e with against := 0, idxDir := true }) s
      let s := iw64 (setStat c 0 (!down) s) .enc c.val 0x2A8 t
      raiseEnc c 3 s
    else modEnc c (fun e => { e with against := k }) s

/-- Change the count by d at edge time t, with the wrap of R193. -/
def countBy (c : Fin 16) (d : Int) (t : Nat) (s : State) : State :=
  let c0 := s.enc[c].c
  let c1 := wrap48 (c0 + d)
  let s := modEnc c (fun e => { e with c := c1, te := t, hist := (e.c, e.te) :: e.hist.take 31 }) s
  if c1 ≠ c0 + d then encFault 1 7 c [if d < 0 then 1#32 else 0#32] s else s

/-- A skip (R198, R199). -/
def skipStep (c : Fin 16) (hallBad : Bool) (s : State) : State :=
  let s := setStat c 3 true s
  let s := if hallBad then setStat c 4 true s else s
  let first := fld (ir s .enc c.val 0x298) 16 8 == 0
  let s := iwSat (iwSat s .enc c.val 0x298 0 16) .enc c.val 0x298 16 8
  let k := fld (ir s .enc c.val 0x298) 16 8
  let cnt := s.enc[c].c
  let s := if first then ev 7 c.val 1 noAxis [loWord cnt, hiWord cnt, wd k] s else s
  if fld (ar s .enc c.val 0) 28 4 < k then setUncertain 1 c s else s

/-- The index edge and its check (R200): the interval of every two successive edges is shown, and checked with LINES ≠ 0 unless the
direction flag changed in it; the skip interval restarts (R199). -/
def indexEdge (c : Fin 16) (s : State) : State :=
  let lines := fld (ar s .enc c.val 8) 0 24
  let e := s.enc[c]
  let s := match e.idx with
    | some c0 =>
      let d := wrap48 (e.c - c0)
      let s := iw s .enc c.val 0x2A0 (BitVec.ofInt 32 d)
      if lines = 0 ∨ e.idxDir then s
      else if ((d.natAbs : Int) - lines).natAbs ≤ fld (ar s .enc c.val 8) 24 8 then
        modEnc c (fun e => { e with goodIdx := e.goodIdx + 1 }) (clearUncertain c s)
      else setUncertain 2 c (ev 7 c.val 3 noAxis [BitVec.ofInt 32 d, wd lines] (iwSat s .enc c.val 0x298 24 8))
    | none => s
  let s := if lines = 0 then s else iw s .enc c.val 0x298 (setFld (ir s .enc c.val 0x298) 16 8 0)
  modEnc c (fun e => { e with idx := some e.c, idxDir := false }) s

/-! ### Wires (R201) -/

/-- Every pair has disagreed for 1 ms at t. -/
def wireOk (s : State) (c : Fin 16) (t : Nat) : Bool :=
  s.enc[c].wireAt.toList.all fun x => match x with | some t0 => decide (t0 + 1000000 ≤ t) | none => false

/-- WIRE clears once the cause is gone. -/
def wireClear (c : Fin 16) (t : Nat) (s : State) : State :=
  if bit (encStat s c) 2 && wireOk s c t then
    modEnc c (fun e => { e with wirePairs := 0 }) (bwBit (setStat c 2 false s) .enc 0 (16 + c.val) false)
  else s

/-- The pair is an input pair of a privileged channel whose check is on: A, B and Z in mode 1, B in the serial modes (R201, Table 8-1). -/
def wireChecked (s : State) (c : Fin 16) (pair : Fin 3) : Bool :=
  let m := encMode s c
  encRuns s c && decide (c.val < 4) && (m == 1 || ((m == 3 || m == 4) && pair == 1)) && fld (ar s .enc c.val 0x18) 0 8 != 0

/-- The wires of a pair read one level for `run` samples up to t, and still do or not: more than WDT of them set WIRE and UNCERTAIN
(R201). -/
def encWire (c : Fin 16) (pair : Fin 3) (run : Nat) (lasts : Bool) (t : Nat) (s : State) : State :=
  if !(wireChecked s c pair) then s
  else
    let s := modEnc c (fun e => { e with wireAt := e.wireAt.set pair.val (if lasts then none else some t) }) s
    if fld (ar s .enc c.val 0x18) 0 8 < run then
      let was := s.enc[c].wirePairs
      let s := modEnc c (fun e => { e with wirePairs := was ||| (1 <<< pair.val) }) s
      let s := bwBit (setStat c 2 true s) .enc 0 (16 + c.val) true
      setUncertain 3 c (if was.testBit pair.val then s else encFault 2 4 c [wd pair.val] s)
    else s

/-! ### Serial data (R204-R206) -/

/-- A good frame's value is used: data u of n bits taken at the poll time tp set or move the count, and position and velocity of the last
poll (R204). -/
def frameUse (c : Fin 16) (u tp n : Nat) (s : State) : State :=
  let e := s.enc[c]
  let d0 := match e.u with | some u0 => sext n (u + 2 ^ n - u0) | none => 0
  let d := if bit (ar s .enc c.val 0) 4 then -d0 else d0
  let c1 := if e.u.isSome then wrap48 (e.c + d) else (u : Int)
  let p := c1 * 65536
  let v : Rat := if e.polled ∧ e.tPoll ≠ tp then
      ((p - e.pPoll : Int) : Rat) / (((tp : Int) - e.tPoll : Int) : Rat) * 1000000000 / 65536 else 0
  let s := modEnc c (fun e => { e with c := c1, te := tp, u := some u, tPoll := tp, pPoll := p, vPoll := v, polled := true }) s
  if e.u.isSome ∧ c1 ≠ e.c + d then encFault 1 7 c [if d < 0 then 1#32 else 0#32] s else s

/-! ### Commit (R214, R215, R218) -/

/-- First element of a list of (condition, offset) whose condition holds. -/
def firstBad : List (Bool × Nat) → Option Nat
  | [] => none
  | (true, o) :: _ => some o
  | (false, _) :: l => firstBad l

/-- Is the ENC pending set of a channel invalid, and at which register first (R218)? -/
def encCheck (s : State) (c : Fin 16) : Option Nat :=
  let n := c.val
  let w := ir s .enc n 0
  let m := fld w 0 3
  let priv := decide (n < 4) && (m == 1 || m == 3 || m == 4)
  let ser := ir s .enc n 0xC
  let serial := m == 3 || m == 4
  let a := ar s .enc n 0
  let busy := allAxes.any (fun x => usesCh s c x && tq s x)
  let taken := bit w 12 && allAxes.any (fun k => k != c && bit (ar s .enc k.val 0) 12 && fld (ar s .enc k.val 0) 16 4 == fld w 16 4)
  let latBad := fun (u : Nat) => let l := ir s .enc n (0x20 + 4 * u)
    decide (6 ≤ fld l 0 3) || (fld l 0 3 == 2 && m != 1) || fld l 6 2 == 3
  firstBad [
    (decide (4 < m) || (priv && bit w 3) || taken ||
      (busy && (fld w 0 3 != fld a 0 3 || bit w 4 != bit a 4 || bit w 3 != bit a 3)), 0),
    (busy && ir s .enc n 4 != ar s .enc n 4, 4),
    (busy && ir s .enc n 8 != ar s .enc n 8, 8),
    (serial && (decide (fld ser 0 8 < 50) || decide (250 < fld ser 0 8) || decide (fld ser 13 6 < 8) || decide (32 < fld ser 13 6)
      || decide (24 < fld ser 8 5) || decide (40 < fld ser 8 5 + fld ser 13 6) || fld ser 20 2 == 3)
      || (m == 4 && fld ser 24 8 == 0), 0xC),
    (priv && fld (ir s .enc n 0x18) 0 8 == 0, 0x18),
    (latBad 0, 0x20), (latBad 1, 0x24),
    (fld (ir s .enc n 0x28) 0 2 == 3, 0x28), (fld (ir s .enc n 0x2C) 0 2 == 3, 0x2C)]

/-- Reset of a channel (R215): count and velocity 0, latch and compare units disarmed, skip counters and UNCERTAIN cleared, unwrapping
restarted; unread records keep FULL. -/
def encReset (c : Fin 16) (s : State) : State :=
  let s := modEnc c (fun e => { e with c := 0, te := s.now, hist := [], smp := Vector.replicate 4 { c := 0, te := s.now, v := 0, p := 0, ts := s.now, valid := false }, idx := none, idxDir := false, against := 0, u := none, polled := false, pPoll := 0, vPoll := 0, fails := 0, frame := none, late := none }) s
  let s := clearUncertain c s
  let s := iw s .enc c.val 0x280 (encStat s c &&& 0x67F#32)
  iw s .enc c.val 0x298 (setFld (ir s .enc c.val 0x298) 0 24 0)

/-- The ENC commit of a channel: refused whole, or the set copied, changed units armed (R207, R210, R215, R218). A compare unit none of
whose registers the commit changes keeps V as advanced. -/
def encCommit (c : Fin 16) (s : State) : State :=
  let n := c.val
  let bad := encCheck s c
  let s := bwBit s .enc 0x10 n false
  match bad with
  | some o => ev 7 n 9 noAxis [wd o] s
  | none =>
    let diff := fun (o : Nat) => ir s .enc n o != ar s .enc n o
    let a := ar s .enc n 0
    let w := ir s .enc n 0
    let lat := [diff 0x20, diff 0x24]
    let cmp := fun (u : Fin 2) => diff (0x28 + 4 * u.val) || diff (0x40 + 4 * u.val) || ir64 s .enc n (0x30 + 8 * u.val) != s.enc[c].cmp[u].base
    let news := [(0 : Fin 2), 1].filter cmp
    let olds := ([(0 : Fin 2), 1].filter fun u => !(cmp u)).map fun u => (u, ar64 s .enc n (0x30 + 8 * u.val))
    let rst := fld w 0 3 != fld a 0 3 || bit w 4 != bit a 4
    let lose := fld w 0 3 != fld a 0 3 || bit w 12 != bit a 12 || fld w 16 4 != fld a 16 4
    let s := match encAxis s c with | some x => if lose then homedLost 2 x s else s | none => s
    let s := copySet .enc n s
    let s := match encAxis s c with | some x => if lose then homedLost 2 x s else s | none => s
    let s := if rst then encReset c s else s
    let s := if lat.getD 0 false then setStat c 11 true s else s
    let s := if lat.getD 1 false then setStat c 12 true s else s
    let s := forEach olds (fun x s => aw64 s .enc n (0x30 + 8 * x.1.val) x.2) s
    forEach news (fun u s =>
      let s := setStat c (7 + u.val) (fld (ar s .enc n (0x28 + 4 * u.val)) 0 2 != 0) s
      modEnc c (fun e => { e with cmp := e.cmp.set u.val { base := ir64 s .enc n (0x30 + 8 * u.val), first := true, due := [] } }) s) s

/-! ### One sample (R214, Table 8-5) -/

/-- What a sample of a channel brings: nothing new, accepted line levels with their edge time, or the value of a serial frame with its poll
time. -/
inductive SampleEv where
  | quiet
  | lines (l te : Nat)
  | frame (u tp n : Nat)
  deriving DecidableEq, Repr

/-- Steps 2 to 6 of a sample at t: count, index, direction flag, compare units, latch units. -/
def encSteps (c : Fin 16) (t : Nat) (x : SampleEv) (s : State) : State :=
  let old := s.enc[c].lines
  let c0 := s.enc[c].c
  let (l, te) : Nat × Nat := match x with | .lines l te => (l % 8, te) | _ => (old, t)
  let s := match x with
    | .frame u tp n => frameUse c u tp n s
    | .quiet => s
    | .lines .. =>
      let st := countStep s c old l
      let s := modEnc c (fun e => { e with lines := l }) s
      match st with | .none => s | .by d => countBy c d te s | .skip hb => skipStep c hb s
  let z := xor (l / 4 % 2 == 1) (bit (ar s .enc c.val 0) 5)
  let idx := encMode s c == 1 && !(stepDir s c) && z && !s.enc[c].zact
  let s := modEnc c (fun e => { e with zact := z }) s
  let s := if idx then indexEdge c s else s
  let d := wrap48 (s.enc[c].c - c0)
  let s := if d = 0 then s else dirStep c d t s
  let span := if s.enc[c].c = c0 then none else some (c0, s.enc[c].c)
  let (f0, s) := cmpUnit c 0 span t s
  let (f1, s) := cmpUnit c 1 span t s
  forEach [0, 1] (fun u s =>
    let src := fld (latchCfg s c u) 0 3
    if src = 2 ∧ idx then latchCapture c u te s
    else if (src = 3 ∧ f0) ∨ (src = 4 ∧ f1) then latchCapture c u t s
    else s) s

/-- A sample of a channel at t: an armed set is committed, then the steps of a channel that runs. Line levels are followed in every mode. -/
def encOrder (c : Fin 16) (t : Nat) (x : SampleEv) (s : State) : State :=
  let s := if encUp s && bit (br s .enc 0x10) c.val then encCommit c s else s
  let s := wireClear c t s
  if encRuns s c then encSteps c t x s
  else match x with
    | .lines l _ => modEnc c (fun e => { e with lines := l % 8 }) s
    | _ => s

/-- A sample without an event would do something: an armed set, the first sample of a compare set, a unit that fires again. -/
def encBusy (s : State) (c : Fin 16) : Bool :=
  encUp s && (bit (br s .enc 0x10) c.val || (encMode s c != 0 && s.enc[c].cmp.toList.any (fun x => x.first || !x.due.isEmpty)))

/-- The samples of a channel from x on and before t that do something. -/
def encRun (c : Fin 16) (t : Nat) : Nat → Nat → State → State
  | 0, _, s => s
  | k + 1, x, s => if encBusy s c && decide (x < t) then encRun c t k (x + 5) (encOrder c x .quiet s) else s

/-- The samples of all channels between the last command and t, at the multiples of 5 ns (R192). -/
def encSamples (t : Nat) (s : State) : State :=
  let x := (s.now / 5 + 1) * 5
  forEach allAxes (fun c s => encRun c t ((t - x) / 5 + 1) x s) s

/-- Ship time goes on to t, with the channel samples before it. -/
def encTime (t : Nat) (s : State) : State := atTime t (encSamples t s)

/-- A channel at the period centre of group g: the sample's earlier steps, with a late frame that is due, then step 7 (R194, R204). -/
def encCentre (g : Fin 4) (t : Nat) (c : Fin 16) (s : State) : State :=
  let x : SampleEv := match s.enc[c].late with
    | some f => if encGrp s c = g then .frame f.1 f.2.1 f.2.2 else .quiet
    | none => .quiet
  let s := if encGrp s c = g then modEnc c (fun e => { e with late := none }) s else s
  encTake g t c (encOrder c t x s)

/-! ### Rows -/

/-- FLEN samples a change must last, two more for a STEP pulse (R192; 05 R150). -/
def encHold (s : State) (c : Fin 16) : Nat := fld (ar s .enc c.val 0) 8 4 + if stepDir s c then 2 else 0

/-- ENC_EDGE: a line change that has lasted long enough is accepted at sample t and counted, timed at the sample in which it first showed
(R192, R193). -/
def execEncEdge (c : Fin 16) (lines : BitVec 3) (held : Nat) (t : Nat) (s : State) : Host.Outcome State Fault Refusal :=
  let s := encTime t s
  .next (if held < encHold s c then s else encOrder c t (.lines lines.toNat (t - 5 * held)) s)

/-- CMP_PULSE_END: the pulse of PW × 2 ns ends (R211). -/
def execCmpPulseEnd (m : Fin 8) (t : Nat) (s : State) : Host.Outcome State Fault Refusal :=
  let s := encTime t s
  .next (match s.cmpPins[m].ends with
    | some e => if e ≤ t then { s with cmpPins := s.cmpPins.set m.val { on := false, ends := none } } else s
    | none => s)

/-- LATCH_PIN_EDGE: a pin edge that has lasted GLITCH ticks captures in every armed unit that names the pin and the edge; the time kept is
the edge's own (R207). -/
def latchPin (m : Fin 8) (rising : Bool) (held : Nat) (t : Nat) (s : State) : State :=
  let pc := br s .enc (0x20 + 4 * m.val)
  let up := xor rising (bit pc 8)
  if held < fld pc 0 8 then s
  else
    let s := { s with latPins := (setBit (wd s.latPins) m.val up).toNat }
    forEach allAxes (fun c s => forEach [0, 1] (fun u s =>
      let cfg := latchCfg s c u
      let ed := fld cfg 6 2
      if encRuns s c ∧ fld cfg 0 3 = 1 ∧ fld cfg 3 3 = m.val ∧ (ed = 2 ∨ (ed = 0 ∧ up) ∨ (ed = 1 ∧ !up)) then
        latchCapture c u (t - 2 * held) s
      else s) s) s

/-- LATCH_PIN_EDGE (R207). -/
def execLatchPinEdge (m : Fin 8) (rising : Bool) (held : Nat) (t : Nat) (s : State) : Host.Outcome State Fault Refusal :=
  .next (latchPin m rising held t (encTime t s))

/-- A write of ENC_SWLATCH: bit 2n + u raises latch u + 1 of channel n when its SRC = 5, at the ship time of the write. -/
def swLatch (v : Word) (s : State) : State :=
  forEach allAxes (fun c s => forEach [0, 1] (fun u s =>
    if bit v (2 * c.val + u) ∧ encRuns s c ∧ fld (latchCfg s c u) 0 3 = 5 then latchCapture c u s.now s
    else s) s) s

/-- A write of ENC_ARM: bit 2n + u re-arms latch u + 1 of channel n (R207). -/
def encArm (v : Word) (s : State) : State :=
  forEach allAxes (fun c s => forEach [0, 1] (fun u s =>
    if bit v (2 * c.val + u) then setStat c (11 + u) true s else s) s) s

/-- ENC_SWLATCH (R207). -/
def execEncSwlatch (v : Word) (s : State) : Host.Outcome State Fault Refusal := .next (swLatch v s)
/-- ENC_ARM (R207). -/
def execEncArm (v : Word) (s : State) : Host.Outcome State Fault Refusal := .next (encArm v s)

/-- ENC_WIRE (R201). -/
def execEncWire (c : Fin 16) (pair : Fin 3) (run : Nat) (lasts : Bool) (t : Nat) (s : State) : Host.Outcome State Fault Refusal :=
  .next (encWire c pair run lasts t (encOrder c t .quiet (encTime t s)))

/-! ### Serial frames (R204-R206) -/

/-- Gray to binary. -/
def grayDec (x : Nat) : Nat → Nat
  | 0 => x
  | k + 1 => grayDec x k ^^^ (x >>> (k + 1))

/-- t + LEAD is the period centre before a watch boundary of the channel's group (R204). -/
def pollDue (s : State) (c : Fin 16) (t : Nat) : Bool :=
  let g := encGrp s c
  let half := gT s g / 2
  let tp := t + fld (ar s .enc c.val 0x10) 0 16
  afterPb s g tp half && isWb s g (tp + (gT s g - half))

/-- A serial frame starts, or is skipped while the previous one still runs (R204). -/
def pollStart (c : Fin 16) (t : Nat) (s : State) : State :=
  if encRuns s c ∧ (encMode s c = 3 ∨ encMode s c = 4) ∧ pollDue s c t then
    match s.enc[c].frame with
    | some _ => iwSat s .enc c.val 0x29C 16 16
    | none => modEnc c (fun e => { e with frame := some { start := t, ser := ar s .enc c.val 0xC, sert := ar s .enc c.val 0x10 } }) s
  else s

/-- A failed frame: FRAMEERR, ENC_FRAME, and UNCERTAIN past FRLIM (R206). -/
def frameFail (c : Fin 16) (cause : Nat) (s : State) : State :=
  let s := iwSat s .enc c.val 0x29C 0 16
  let s := evOnce (0x700500 + c.val) 7 c.val 5 noAxis [wd cause] s
  let k := s.enc[c].fails + 1
  let s := modEnc c (fun e => { e with fails := k }) s
  if fld (ar s .enc c.val 0x18) 8 8 + 1 ≤ k then setUncertain 4 c s else s

/-- The number that bits spell, most significant first. -/
def bitsNum (l : List Bool) : Nat := l.foldl (fun a b => 2 * a + b2n b) 0

/-- The CRC of BiSS-C: polynomial x⁶ + x + 1, initial value 0 (R205). -/
def crc6 (l : List Bool) : Nat :=
  l.foldl (fun r b => (r * 2) % 64 ^^^ (if xor (r / 32 % 2 == 1) b then 3 else 0)) 0

/-- What a frame's bits say: the cause of a failure (1 not ready, 2 no START, 3 CRC, 4 encoder error), or the data bits with the warning
status bits, nE in bit 1 and nW in bit 0 (R205). -/
inductive FrameRes where
  | good (data : Nat) (warn : Option Nat)
  | fail (cause : Nat) (warn : Option Nat)
  deriving DecidableEq, Repr

/-- The checks of a frame in a mode with the ENC_SER in force (R205). -/
def frameRead (m : Nat) (ser : Word) (r : SerialFrame) : FrameRes :=
  let n := fld ser 8 5 + fld ser 13 6
  let b := fun (k : Nat) => r.bits.getD k false
  if !r.ready then .fail 1 none
  else if m = 3 then
    let bad := (List.range (fld ser 20 2)).any fun k => b (n + k) == bit ser 22
    if bad then .fail 4 none else .good (bitsNum ((List.range n).map b)) none
  else if !(r.start.elim false fun k => decide (k ≤ fld ser 24 8)) then .fail 2 none
  else
    let data := (List.range n).map fun k => b (1 + k)
    let nE := b (1 + n)
    let nW := b (2 + n)
    if bitsNum ((List.range 6).map fun k => !(b (3 + n + k))) ≠ crc6 (data ++ [nE, nW]) then .fail 3 none
    else
      let warn := if nW then none else some (2 * b2n nE)
      if nE then .good (bitsNum data) warn else .fail 4 warn

/-- The samples taken from tp on are formed again with the poll of a frame that was complete in time (R204), on the sample path too. -/
def reform (c : Fin 16) (tp : Nat) (s : State) : State :=
  let s := forEach allGroups (fun g s =>
    let ts := s.enc[c].smp[g].ts
    if tp ≤ ts ∧ s.enc[c].smp[g].valid then encTake g ts c s else s) s
  match encAxis s c with
  | some n =>
    if chanOf s n = some c ∧ !(stepOpen s n) ∧ gT s (grpOf n) ≠ 0 then
      let ts := s.enc[c].smp[grpOf n].ts
      let g := grpOf n
      let b := sampBuf ((ts - gT s g / 2 - s.pwmG[g].start) / gT s g)
      let (pos, ang, vel) := pathSample s n
      let s := putXb n (b + 7) vel (putXb64 n (b + 4) pos s)
      if stepOn s n then s else putXb n (b + 6) ang s
    else s
  | none => s

/-- A serial frame completes at t: its checks, the jump check, and the use of its value at once or, for a late frame, at the next period
centre (R204 to R206, R202). -/
def frameDone (c : Fin 16) (t : Nat) (r : SerialFrame) (s : State) : State :=
  match s.enc[c].frame with
  | none => s
  | some f =>
    let tc := f.start + fld f.sert 0 16
    let tp := f.start + fld f.sert 16 16
    let n := fld f.ser 8 5 + fld f.ser 13 6
    let isLate := decide (tc + 300 < t)
    let s := modEnc c (fun e => { e with frame := none }) s
    let s := if isLate then iwSat s .enc c.val 0x29C 16 16 else s
    let warned := fun (w : Option Nat) (s : State) => match w with
      | some w => evOnce (0x700600 + c.val) 7 c.val 6 noAxis [wd w] s
      | none => s
    match frameRead (encMode s c) f.ser r with
    | .fail cause w => frameFail c cause (warned w s)
    | .good raw w =>
      let s := warned w s
      let u := if bit f.ser 19 then grayDec raw n else raw
      let d := match s.enc[c].u with | some u0 => sext n (u + 2 ^ n - u0) | none => 0
      let jump := (ar s .enc c.val 0x14).toNat
      if jump ≠ 0 ∧ jump < d.natAbs then frameFail c 5 s
      else
        let s := modEnc c (fun e => { e with fails := 0 }) s
        let s := if bit (encStat s c) 2 then s else clearUncertain c s
        if isLate then modEnc c (fun e => { e with late := some (u, tp, n) }) s
        else reform c tc (encSteps c t (.frame u tp n) s)

/-- SERIAL_POLL_START (R204). -/
def execSerialPollStart (c : Fin 16) (t : Nat) (s : State) : Host.Outcome State Fault Refusal :=
  .next (pollStart c t (encOrder c t .quiet (encTime t s)))
/-- SERIAL_FRAME_DONE (R205). -/
def execSerialFrameDone (c : Fin 16) (t : Nat) (r : SerialFrame) (s : State) : Host.Outcome State Fault Refusal :=
  .next (frameDone c t r (encOrder c t .quiet (encTime t s)))

end Sys2Proof.Machine
end

