-- ==== Sys2Proof/Machine/Planner.lean ====
section
/-!
DEFINITION. The seven-segment planner (spec 03 R77-R84, R87, R88-R92): velocity phases, the peak velocity, joints, the
profile as segments with constant jerk and whole-nanosecond durations, and its evaluation. Arithmetic is exact on
rationals in counts and seconds; segment durations are rounded to whole nanoseconds.
-/
namespace Sys2Proof.Machine

/-- Limits of a move: velocity, acceleration, deceleration, jerk. -/
structure Lim where
  v : Rat
  a : Rat
  d : Rat
  j : Rat
  deriving DecidableEq, Repr

/-- A state of motion in counts and seconds. -/
structure Kin where
  p : Rat
  v : Rat
  a : Rat
  deriving DecidableEq, Repr

/-- A planned piece: segment number, signed jerk, duration in s, part of the return of an overshoot. -/
structure Piece where
  idx : Nat
  j : Rat
  t : Rat
  rev : Bool
  deriving DecidableEq, Repr

/-- The state after constant jerk j for t seconds. -/
def Kin.adv (k : Kin) (j t : Rat) : Kin :=
  { p := k.p + k.v * t + k.a * t * t / 2 + j * t * t * t / 6, v := k.v + k.a * t + j * t * t / 2, a := k.a + j * t }

/-- The state after a list of pieces. -/
def Kin.run (k : Kin) (l : List Piece) : Kin := l.foldl (fun k x => k.adv x.j x.t) k

/-- Sign of a rational. -/
def rsign (x : Rat) : Rat := if x < 0 then -1 else if 0 < x then 1 else 0

/-- The velocity reached when acceleration a0 is brought to 0 at jerk j (R79). -/
def restVel (v0 a0 j : Rat) : Rat := v0 + a0 * rabs a0 / (2 * j)

/-- One velocity phase from (v0, a0) to v1 with final acceleration 0, limit A and jerk J (R77, R79): the acceleration
rises to its peak in segment i, holds in i + 1 and falls to 0 in i + 2; a start acceleration above the limit is first
brought to it. -/
def phase (i : Nat) (v0 a0 v1 aLim j : Rat) : List Piece :=
  let vb := restVel v0 a0 j
  let g := if v1 < vb then -1 else if vb < v1 then 1 else rsign a0
  let a := g * a0
  let dv := g * (v1 - v0)
  let mk := fun (k : Nat) (s t : Rat) => ({ idx := i + k, j := s * g * j, t := t, rev := false } : Piece)
  let l :=
    if aLim < a then [mk 0 (-1) ((a - aLim) / j), mk 1 0 ((dv - a * a / (2 * j)) / aLim), mk 2 (-1) (aLim / j)]
    else
      let sq := j * dv + a * a / 2
      if aLim * aLim ≤ sq then
        [mk 0 1 ((aLim - a) / j), mk 1 0 ((dv - (2 * aLim * aLim - a * a) / (2 * j)) / aLim), mk 2 (-1) (aLim / j)]
      else
        let ap := rsqrt sq
        [mk 0 1 ((ap - a) / j), mk 2 (-1) (ap / j)]
  l.filter (fun x => decide (0 < x.t))

/-- Distance of a list of pieces from a start velocity and acceleration. -/
def distOf (v0 a0 : Rat) (l : List Piece) : Rat := (({ p := 0, v := v0, a := a0 } : Kin).run l).p

/-- Change of velocity from (v0, a0) to v1: AMAX where |v| rises, DMAX where it falls, two phases through standstill where
the sign changes (R77). -/
def velChange (v0 a0 v1 : Rat) (l : Lim) : List Piece :=
  if v0 * v1 < 0 then phase 5 v0 a0 0 l.d l.j ++ phase 1 0 0 v1 l.a l.j
  else if rabs v0 ≤ rabs v1 then phase 1 v0 a0 v1 l.a l.j
  else phase 1 v0 a0 v1 l.d l.j

/-- The stop from (v0, a0) at deceleration d and jerk j (R88, R89). -/
def stopPieces (v0 a0 d j : Rat) : List Piece := phase 5 v0 a0 0 d j

/-- Largest n in [lo, lo + 2^k) with f n, f falling, by bisection; lo if none. -/
def bisect (f : Nat → Bool) : Nat → Nat → Nat
  | 0, lo => lo
  | k + 1, lo => bisect f k (if f (lo + 2 ^ k) then lo + 2 ^ k else lo)

/-- Largest velocity x ≥ lo on the grid 2^-32 above lo, at most hi, with f x (R78, R84). -/
def highest (f : Rat → Bool) (lo hi : Rat) : Rat :=
  let u := pow2 (-32)
  lo + (bisect (fun n => decide (lo + (n : Rat) * u ≤ hi) && f (lo + (n : Rat) * u)) 66 0 : Nat) * u

/-- Up phase to the peak and down phase from it, for motion in the positive direction. -/
def upDown (v a vp ve : Rat) (l : Lim) : List Piece × List Piece :=
  (if vp < v then phase 1 v a vp l.d l.j else phase 1 v a vp l.a l.j, phase 5 vp 0 ve l.d l.j)

/-- Distance that a peak velocity needs. -/
def need (v a ve : Rat) (l : Lim) (vp : Rat) : Rat :=
  let (u, d) := upDown v a vp ve l
  distOf v a u + distOf vp 0 d

/-- Pieces with a cruise of the rest of the distance. -/
def withCruise (v a ve : Rat) (l : Lim) (vp d : Rat) : List Piece :=
  let (u, dn) := upDown v a vp ve l
  let rest := d - distOf v a u - distOf vp 0 dn
  u ++ (if 0 < vp ∧ 0 < rest then [{ idx := 4, j := 0, t := rest / vp, rev := false }] else []) ++ dn

/-- What planning toward a target yields: pieces in the positive direction, end velocity used, reduced joint, or no plan
because the move cannot stop before its target. -/
inductive Ahead where
  | plan (l : List Piece) (ve : Rat) (reduced : Bool)
  | overshoot
  deriving DecidableEq, Repr

/-- Plan a distance d ≥ 0 ahead, in the positive direction, from (v, a) to the end velocity ve (R78, R79, R84). -/
def planAhead (v a d ve : Rat) (l : Lim) : Ahead :=
  let vs := rmax 0 (restVel v a l.j)
  let lo := rmax vs ve
  if ve ≤ l.v ∧ need v a ve l l.v ≤ d ∧ 0 < l.v then .plan (withCruise v a ve l l.v d) ve false
  else if need v a ve l lo ≤ d then
    let vp := highest (fun x => decide (need v a ve l x ≤ d)) lo (rmax l.v lo)
    if l.v < lo then .plan (withCruise v a ve l lo d) ve false
    else let (u, dn) := upDown v a vp ve l; .plan (u ++ dn) ve false
  else if vs ≤ ve ∧ distOf v a (phase 1 v a vs l.a l.j) ≤ d then
    let v1 := highest (fun x => decide (distOf v a (phase 1 v a x l.a l.j) ≤ d)) vs ve
    .plan (phase 1 v a v1 l.a l.j) v1 true
  else .overshoot

/-- Reverse the direction of pieces. -/
def flip (s : Rat) (l : List Piece) : List Piece := l.map (fun x => { x with j := s * x.j })

/-- A plan to a target: pieces, signed end velocity, joint reduced, overshoot case of R87, and where it stands still before it returns. -/
structure Plan where
  pieces : List Piece
  ve : Rat
  reduced : Bool
  past : Bool
  turn : Option Rat := none
  deriving DecidableEq, Repr

/-- Plan from rest at p to a target; the joint velocity depends on the direction of motion. -/
def planRest (p target : Rat) (l : Lim) (ve : Rat → Rat) : Plan :=
  let s := rsign (target - p)
  if s = 0 then { pieces := [], ve := 0, reduced := false, past := false }
  else match planAhead 0 0 (s * (target - p)) (ve s) l with
    | .plan x v1 r => { pieces := flip s x, ve := s * v1, reduced := r, past := false }
    | .overshoot => { pieces := [], ve := 0, reduced := false, past := false }

/-- Plan an ABS or REL move from a state to a target (R78, R79, R85, R87). -/
def planTo (k : Kin) (target : Rat) (l : Lim) (ve : Rat → Rat) : Plan :=
  if k.v = 0 ∧ k.a = 0 then planRest k.p target l ve
  else
    let s := if k.v ≠ 0 then rsign k.v else rsign k.a
    let d := s * (target - k.p)
    let ret := fun (past : Bool) =>
      let st := stopPieces k.v k.a l.d l.j
      let p1 := (k.run st).p
      let r := planRest p1 target l ve
      ({ pieces := st ++ r.pieces.map (fun x => { x with rev := past }), ve := r.ve, reduced := r.reduced, past := past, turn := some p1 } : Plan)
    if 0 < d then
      match planAhead (s * k.v) (s * k.a) d (ve s) l with
      | .plan x v1 r => { pieces := flip s x, ve := s * v1, reduced := r, past := false }
      | .overshoot => ret true
    else ret false

/-! ### Segments with whole-nanosecond durations, evaluation on the grids of R90

Each segment starts from the planned velocity and acceleration, so that the rounding of segment times leaves a residual in the position
alone (DEDUCED from R91). -/


/-- The exact state that grid values stand for. -/
def kinOf (p v a : Int) : Kin := { p := (p : Rat) / 65536, v := (v : Rat) * pow2 (-32), a := (a : Rat) * pow2 (-24) }

/-- A state on the grids: 2^-16 count, 2^-32 count/s, 2^-24 count/s² (R90). -/
def toGrid (k : Kin) : Int × Int × Int :=
  (roundFree 302 (k.p * 65536), roundFree 303 (k.v * pow2 32), roundFree 304 (k.a * pow2 24))

/-- Pieces from a state as segments, each with the planned velocity and acceleration at its end. -/
def segsFrom : Kin → List Piece → List Seg
  | _, [] => []
  | k, x :: l =>
    let k := k.adv x.j x.t
    let (_, v, a) := toGrid k
    { idx := x.idx, jerk := x.j, dur := (roundFree 301 (x.t * 1000000000)).toNat, rev := x.rev, v1 := v, a1 := a } :: segsFrom k l

/-- Pieces from a state as segments; a segment of zero duration is omitted. -/
def toSegs (k : Kin) (l : List Piece) : List Seg := (segsFrom k l).filter (fun s => s.dur != 0)

/-- Evaluate from a grid state with constant jerk for a time in ns. -/
def gridAdv (p v a : Int) (j : Rat) (ns : Nat) : Int × Int × Int := toGrid ((kinOf p v a).adv j ((ns : Rat) / 1000000000))

/-- Grid position at the end of segments. -/
def endGrid (p v a : Int) : List Seg → Int
  | [] => p
  | x :: l => endGrid (gridAdv p v a x.jerk x.dur).1 x.v1 x.a1 l

/-- Limits of a move. -/
def Move.lim (m : Move) : Lim := { v := m.vmax, a := m.amax, d := m.dmax, j := m.jmax }

/-! ### Joints (R80-R84) -/

/-- The joint velocity of Table 3-11, never above V1. -/
def blendVel (blend : Nat) (v1 v2 : Rat) : Rat :=
  rmin v1 (match blend with
    | 1 => rmin v1 v2
    | 2 => v1
    | 3 => v2
    | 4 => rmax v1 v2
    | _ => 0)

/-- Distance and direction of a queued move that starts at a position: none for VEL, STOP and DWELL. -/
def moveDist (p : Int) (m : Move) : Option Int :=
  match m.kind with
  | 0 => some (m.target - p)
  | 1 => some m.target
  | _ => none

/-- Direction in which a queued move starts. -/
def moveDir (p : Int) (m : Move) : Rat :=
  match m.kind with
  | 0 => rsign (m.target - p : Int)
  | 1 => rsign (m.target : Int)
  | 2 => rsign m.vtgt
  | _ => 0

/-- A null move at a position (R75). -/
def isNull (p : Int) (m : Move) : Bool := moveDist p m == some 0

/-- Joint velocity at the end of a move that ends at position p with motion in direction dir, given its BLEND, its V1 and
the moves after it; with whether R84 lowered it (R80-R84). A null move takes the joint's place with its own BLEND and
caps it at its VMAX. -/
def jointVel (p : Int) (dir : Rat) : Nat → Rat → List Move → Rat × Bool
  | _, _, [] => (0, false)
  | blend, v1, m :: ms =>
    if isNull p m then
      if ms.isEmpty then (0, false) else jointVel p dir m.blend (rmin v1 m.vmax) ms
    else if m.kind = 3 ∨ m.kind = 4 ∨ dir = 0 ∨ moveDir p m = -dir then (0, false)
    else
      let j := rmin (blendVel blend v1 m.vmax) (m.jcap.getD v1)
      match moveDist p m with
      | none => (j, false)
      | some d =>
        let (ve, _) := jointVel (p + d) dir m.blend m.vmax ms
        let dist : Rat := ((d.natAbs : Nat) : Rat) / 65536
        let ok := fun (x : Rat) => if x ≤ ve then true else decide (distOf x 0 (phase 5 x 0 ve m.dmax m.jmax) ≤ dist)
        if ok j then (j, false) else (highest ok (rmin j ve) j, true)

end Sys2Proof.Machine
end

