-- ==== Sys2Proof/Machine/Profile.lean ====
section
/-!
DEFINITION. The profile engine of one axis or path as operations on its Motion (spec 03 R70-R94): evaluation at a ship
time, completions, starts, joints, HOLD, quick stop, re-planning and the application of a planned submission.
-/
namespace Sys2Proof.Machine

/-- What planning needs beside the queue: soft limits in force (R130) and the watch length in ns. -/
structure PCtx where
  soft : Option (Int × Int)
  watch : Nat
  deriving DecidableEq, Repr

/-- Events of planning: a reduced joint with the velocity used (R84), a starved joint (R82). -/
inductive MEv where
  | reduced (tag : Nat) (v : Rat)
  | starved (tag : Nat)
  deriving DecidableEq, Repr

/-- A Motion with the events of what was done to it. -/
structure MRes where
  m : Motion
  evs : List MEv
  deriving DecidableEq, Repr

/-- No event. -/
def Motion.ok (m : Motion) : MRes := { m := m, evs := [] }

/-- Chain two operations. -/
def MRes.bind (x : MRes) (f : Motion → MRes) : MRes := let y := f x.m; { m := y.m, evs := x.evs ++ y.evs }

/-- The segment number in progress (PROF_SEG.SEG). -/
def Motion.segNo (m : Motion) : Nat := match m.run, m.segs with | some _, x :: _ => x.idx | _, _ => 0
/-- A running move: not a VEL move that has completed and runs on. -/
def Motion.running (m : Motion) : Option Running := match m.run with | some r => if r.done then none else some r | none => none
/-- Moves in the queue, the running move and a move accepted and on its way included (R71, R73). -/
def Motion.qfill (m : Motion) : Nat := b2n m.running.isSome + m.wait.length + m.enter.length
/-- In the return part of an overshoot. -/
def Motion.rev (m : Motion) : Bool := match m.running, m.segs with | some _, x :: _ => x.rev | _, _ => false
/-- Planned velocity and acceleration are 0. -/
def Motion.rest (m : Motion) : Bool := m.v == 0 && m.a == 0
/-- Moving: a running move, or not at rest. -/
def Motion.moving (m : Motion) : Bool := m.running.isSome || !m.rest
/-- TAG of the running move, 0 with none. -/
def Motion.runTag (m : Motion) : Nat := match m.running with | some r => r.mv.tag % 65536 | none => 0

/-! ### Evaluation (R90) -/

/-- Run through the segments that end at or before t. -/
def Motion.advSegs (t : Nat) : List Seg → Motion → Motion
  | [], m => { m with segs := [] }
  | x :: l, m =>
    if m.t0 + x.dur ≤ t then
      advSegs t l { m with t0 := m.t0 + x.dur, p0 := (gridAdv m.p0 m.v0 m.a0 x.jerk x.dur).1, v0 := x.v1, a0 := x.a1 }
    else { m with segs := x :: l }

/-- The planned state at t inside the segment in progress, its planned end state at its end; after the last segment the velocity
stays. -/
def Motion.at (t : Nat) (m : Motion) : Motion :=
  let (p, v, a) := gridAdv m.p0 m.v0 m.a0 (match m.segs with | x :: _ => x.jerk | [] => 0) (t - m.t0)
  match m.segs with
  | x :: _ => if m.t0 + x.dur = t then { m with p := p, v := x.v1, a := x.a1 } else { m with p := p, v := v, a := a }
  | [] => { m with p := p, v := v, a := a }

/-- Start anew from the state at t. -/
def Motion.rebase (t : Nat) (m : Motion) : Motion :=
  let m := m.at t
  { m with t0 := t, p0 := m.p, v0 := m.v, a0 := m.a }

/-! ### Planning of the running move -/

/-- VTGT clamped to ±VMAX (Table 3-7). -/
def Move.vt (m : Move) : Rat := rclamp (-m.vmax) m.vmax m.vtgt

/-- The plan of a VEL move to the soft limit ahead, where one is in force (R130). -/
def velStop (c : PCtx) (k : Kin) (mv : Move) : Option Plan :=
  let vt := mv.vt
  match c.soft with
  | some (lo, hi) =>
    let lim : Rat := ((if 0 < vt then hi else lo : Int) : Rat) / 65536
    if vt ≠ 0 ∧ 0 ≤ rsign vt * (lim - k.p) then some (planTo k lim { mv.lim with v := rabs vt } (fun _ => 0)) else none
  | none => none

/-- Pieces of a VEL move, with the implied stop at the soft limit ahead (R77, R130). -/
def velPieces (c : PCtx) (k : Kin) (mv : Move) : List Piece :=
  match velStop c k mv with
  | some p => p.pieces
  | none => velChange k.v k.a mv.vt mv.lim

/-- Positions at which a move stands still or ends, planned from a state: the target, the standstill before a return, and of a VEL move where it turns,
where it stops before a soft limit is passed, or its start where it already lies beyond (05 R129). -/
def Move.reaches (c : PCtx) (k : Kin) (e : Option Rat) (mv : Move) : List Rat :=
  match e with
  | some e => e :: (planTo k e mv.lim (fun _ => 0)).turn.toList
  | none =>
    if mv.kind = 2 then
      let turn := if k.v * mv.vt < 0 ∨ mv.vt = 0 then [(k.run (stopPieces k.v k.a mv.dmax mv.jmax)).p] else []
      turn ++ (match velStop c k mv with
        | some p => p.turn.toList
        | none => if c.soft.isSome ∧ mv.vt ≠ 0 then [k.p] else [])
    else []

/-- Plan the running move from the state at t0, under HOLD to standstill (R78-R88). -/
def Motion.planRun (c : PCtx) (r : Running) (m : Motion) : MRes :=
  let mv := r.mv
  let k := kinOf m.p0 m.v0 m.a0
  let stop := toSegs k (stopPieces k.v k.a mv.dmax mv.jmax)
  if m.hold ∧ mv.kind ≠ 3 then Motion.ok { m with segs := stop, run := some { r with resid := 0 } }
  else match mv.kind with
    | 0 | 1 =>
      let tgt := r.endPos.getD m.p0
      let pl := planTo k ((tgt : Rat) / 65536) mv.lim (fun dir => (jointVel tgt dir mv.blend mv.vmax m.wait).1)
      let segs := toSegs k pl.pieces
      let dir := if pl.ve ≠ 0 then rsign pl.ve else rsign ((tgt - m.p0 : Int) : Rat)
      let red := pl.reduced || (jointVel tgt dir mv.blend mv.vmax m.wait).2
      { m := { m with segs := segs, run := some { r with ve := pl.ve, resid := tgt - endGrid m.p0 m.v0 m.a0 segs } },
        evs := if red then [.reduced mv.tag pl.ve] else [] }
    | 2 => Motion.ok { m with segs := toSegs k (velPieces c k mv), run := some { r with ve := mv.vt } }
    | _ => Motion.ok { m with segs := stop, run := some r }

/-- Whole watches that hold a dwell time in µs, in ns. -/
def dwellNs (c : PCtx) (us : Nat) : Nat := if c.watch = 0 then us * 1000 else (us * 1000 + c.watch - 1) / c.watch * c.watch

/-- End position of a move that starts with the planned position p, its REL reference ref (R74). -/
def Move.endFrom (mv : Move) (ref : Int) : Option Int :=
  match mv.kind with | 0 => some mv.target | 1 => some (ref + mv.target) | _ => none

/-- A move becomes the running move at t0 (R74, R79). -/
def Motion.startMove (c : PCtx) (ref : Option Int) (mv : Move) (m : Motion) : MRes :=
  let e := mv.endFrom (ref.getD m.p0)
  let r : Running := { mv := mv, endPos := e, ve := 0, dwellLeft := dwellNs c mv.dwell, dwellRun := false, resid := 0, done := false }
  Motion.planRun c r { m with run := some r, lastTarget := if e.isSome then e else m.lastTarget }

/-- Internal moves of homing and of a fold carry the TAG 65,536, which MV_PROGRESS never shows. -/
def internTag : Nat := 65536
/-- TAG of the last completed move once this one is done. -/
def Move.doneTag (mv : Move) (m : Motion) : Nat := if mv.tag < internTag then mv.tag else m.doneTag

/-- A running move is complete at t0: the planned position equals its target, the velocity its joint velocity (R91). -/
def Motion.finish (r : Running) (m : Motion) : Motion :=
  { m with p0 := r.endPos.getD m.p0, v0 := roundFree 305 (r.ve * pow2 32), a0 := 0, segs := [], run := none, doneTag := r.mv.doneTag m }

/-- The next waiting move starts. A null move reached at rest, or with a move behind it, completes at once and keeps the velocity of the
joint it stands for (R75, R83). -/
def Motion.startFrom (c : PCtx) : List Move → Motion → MRes
  | [], m => Motion.ok { m with wait := [] }
  | mv :: ws, m =>
    if isNull m.p0 mv ∧ !m.hold ∧ (!ws.isEmpty ∨ m.v0 = 0 ∧ m.a0 = 0) then
      Motion.startFrom c ws { m with doneTag := mv.doneTag m, lastTarget := some m.p0 }
    else Motion.startMove c none mv { m with wait := ws }

/-- The head of the waiting moves starts. -/
def Motion.startNext (c : PCtx) (m : Motion) : MRes := m.startFrom c m.wait

/-- A completed move hands over to the next. -/
def Motion.complete (c : PCtx) (r : Running) (m : Motion) : MRes := (m.finish r).startNext c

/-- Segments and completions up to t; the count bounds the completions of one call. A REL move behind a VEL move starts at a boundary
(R74): at t where t is one (atB). -/
def Motion.settle (c : PCtx) (t : Nat) (atB : Bool) : Nat → Motion → MRes
  | 0, m => Motion.ok m
  | k + 1, m =>
    let m := m.advSegs t m.segs
    match m.run with
    | none => Motion.ok (if m.segs.isEmpty then { m with v0 := 0, a0 := 0 } else m)
    | some r =>
      let still := fun (m : Motion) => ({ m with v0 := 0, a0 := 0 } : Motion)
      if m.hold ∧ r.mv.kind ≠ 3 then Motion.ok (if m.segs.isEmpty then still m else m)
      else match r.mv.kind with
        | 0 | 1 => if m.segs.isEmpty then (m.complete c r).bind (Motion.settle c t atB k) else Motion.ok m
        | 2 =>
          if m.segs.any (fun x => decide (x.idx ≤ 3)) then Motion.ok m
          else match m.wait with
            | nx :: _ =>
              let rel := nx.kind == 1
              if rel && !atB then Motion.ok m
              else
                let m := if rel then m.rebase t else m
                ({ m with run := none, segs := [], doneTag := if r.done then m.doneTag else r.mv.doneTag m }.startNext c).bind (Motion.settle c t atB k)
            | [] =>
              let m := { m with doneTag := if r.done then m.doneTag else r.mv.doneTag m, run := some { r with done := true } }
              if m.segs.isEmpty ∧ (r.mv.vt = 0 ∨ c.soft.isSome ∧ m.v0 = 0) then Motion.ok (still { m with run := none }) else Motion.ok m
        | 3 => if m.segs.isEmpty then ((still m).complete c { r with ve := 0 }).bind (Motion.settle c t atB k) else Motion.ok m
        | _ => Motion.ok (if m.segs.isEmpty then still m else m)

/-- The planned state at the boundary t, with the moves that complete before it; what completes at t does so in order 6 (R93). -/
def Motion.evalTo (c : PCtx) (t : Nat) (m : Motion) : MRes :=
  let x := m.settle c (t - 1) false (m.wait.length + 2)
  { x with m := x.m.at t }

/-- Order 6: what completes at the boundary t, and the state at t after it. -/
def Motion.settleAt (c : PCtx) (t : Nat) (m : Motion) : MRes :=
  (m.settle c t true (m.wait.length + 2)).bind (fun m => Motion.ok (m.at t))

/-- One boundary of a DWELL at rest: its time begins at the first boundary at rest and runs in whole watches; HOLD pauses
it (R85, R88). -/
def Motion.dwellTick (c : PCtx) (t : Nat) (m : Motion) : MRes :=
  match m.run with
  | some r =>
    if r.mv.kind = 4 ∧ m.segs.isEmpty ∧ !m.hold then
      let left := if r.dwellRun then r.dwellLeft - c.watch else r.dwellLeft
      if left = 0 then ({ m with t0 := t }.complete c { r with ve := 0 }).bind (Motion.settleAt c t)
      else Motion.ok { m with run := some { r with dwellLeft := left, dwellRun := true } }
    else Motion.ok m
  | none => Motion.ok m

/-- The rounding residual is spread by at most one unit a watch over segment 4, or over the last segment when there is no
cruise to come (R91). -/
def Motion.spread (m : Motion) : Motion :=
  match m.run, m.segs with
  | some r, x :: l =>
    if r.resid ≠ 0 ∧ (x.idx = 4 ∨ l.isEmpty) then
      let d := r.resid.sign
      { m with p0 := m.p0 + d, p := m.p + d, run := some { r with resid := r.resid - d } }
    else m
  | _, _ => m

/-! ### Order 4: CLEARQ and HOLD (R73, R88) -/

/-- Re-plan the running move from the state at t. -/
def Motion.replanAt (c : PCtx) (t : Nat) (m : Motion) : MRes :=
  match m.run with
  | some r => (m.rebase t).planRun c r
  | none => Motion.ok m

/-- Waiting moves are discarded; a running move planned for a joint gets an EXACT end. -/
def Motion.dropWait (c : PCtx) (t : Nat) (m : Motion) : MRes :=
  let had := !m.wait.isEmpty
  let m := { m with wait := [] }
  match m.run with
  | some r => if had ∧ (r.mv.kind = 2 ∨ r.ve ≠ 0) ∧ r.mv.kind ≤ 2 ∧ !m.hold then m.replanAt c t else Motion.ok m
  | none => Motion.ok m

/-- CLEARQ: every move not yet started is discarded (R71, R73). -/
def Motion.clearq (c : PCtx) (t : Nat) (m : Motion) : MRes := { m with enter := [] }.dropWait c t

/-- HOLD comes into effect at t. -/
def Motion.holdOn (c : PCtx) (t : Nat) (m : Motion) : MRes :=
  let m := { m with hold := true }
  match m.run with
  | some r => if r.mv.kind = 3 ∨ (r.mv.kind = 4 ∧ m.segs.isEmpty) then Motion.ok m else m.replanAt c t
  | none => Motion.ok m

/-- HOLD ends at t. -/
def Motion.holdOff (c : PCtx) (t : Nat) (m : Motion) : MRes :=
  let m := { m with hold := false }
  match m.run with
  | some r =>
    if r.mv.kind = 3 ∨ (r.mv.kind = 4 ∧ m.segs.isEmpty) then Motion.ok m
    else m.replanAt c t
  | none => Motion.ok m

/-! ### Orders 2 and 3: quick stop (R89) -/

/-- Quick stop from the state at t: the queue is discarded, HOLD cleared. -/
def Motion.quickStop (d j : Rat) (t : Nat) (m : Motion) : Motion :=
  let m := m.rebase t
  let k := kinOf m.p0 m.v0 m.a0
  { m with segs := toSegs k (stopPieces k.v k.a d j), run := none, wait := [], enter := [], qstop := true, hold := false,
           replan := none }

/-- The planned state is set, at rest or not, with an empty queue (R65, R105, R138). -/
def Motion.setPlanned (t : Nat) (p v a : Int) (m : Motion) : Motion :=
  { m with p := p, v := v, a := a, t0 := t, p0 := p, v0 := v, a0 := a, segs := [], run := none, wait := [], enter := [],
           replan := none }

/-- A shift of the coordinates moves every position the engine holds but the targets of waiting moves (05 R139). -/
def Motion.shift (d : Int) (m : Motion) : Motion :=
  { m with p := m.p + d, p0 := m.p0 + d, lastTarget := m.lastTarget.map (· + d),
           run := m.run.map (fun r => { r with endPos := r.endPos.map (· + d) }) }

/-! ### Order 5: application of a planned submission (R71, R73, R82, R87) -/

/-- The R74 reference with REPLACE: the target of the discarded running move; none where it has no target (VEL, STOP, DWELL), which the
model reads as the present planned position (DESIGN CHOICE, log entry 52). -/
def Motion.replRef (act : Nat) (m : Motion) : Option Int :=
  if act = 2 then m.run.bind (·.endPos) else none

/-- State after moves that follow each other from a state (R77, R80-R85). -/
def endKin : Kin → List Move → Kin
  | k, [] => k
  | k, x :: l =>
    let e : Rat := if x.kind = 0 then (x.target : Rat) / 65536 else k.p + (x.target : Rat) / 65536
    let dir := rsign (e - k.p)
    let k1 : Kin := match x.kind with
      | 0 | 1 => { p := e, v := dir * (jointVel (roundFree 306 (e * 65536)) dir x.blend x.vmax l).1, a := 0 }
      | 2 => k.run (velChange k.v k.a x.vt x.lim)
      | _ => k.run (stopPieces k.v k.a x.dmax x.jmax)
    endKin k1 l

/-- State after the segments of a running move that R82 and R77 let it end with: those of a VEL move to its target velocity, else all. -/
def Motion.runEnd (m : Motion) : Kin :=
  let vel := match m.run with | some r => r.mv.kind == 2 | none => false
  let l := if vel then m.segs.filter (fun x => decide (x.idx ≤ 3)) else m.segs
  match l.getLast? with
  | some x => kinOf (endGrid m.p0 m.v0 m.a0 l) x.v1 x.a1
  | none => kinOf m.p m.v m.a

/-- State from which a move that enters under an ACTION would start: the present one with REPLACE or nothing before it, the end of the VEL move
right before it; none behind any other move, whose joint R80-R84 fits to it. -/
def Motion.entryKin (act : Nat) (m : Motion) : Option Kin :=
  let before := if act = 1 then m.wait ++ m.enter.map (·.mv) else []
  if act = 2 then some (kinOf m.p m.v m.a)
  else match before.getLast?, m.run with
    | none, none => some (kinOf m.p m.v m.a)
    | none, some r => if r.done && !m.hold then some (kinOf m.p m.v m.a) else if r.mv.kind = 2 then some m.runEnd else none
    | some x, _ => if x.kind = 2 then some (endKin m.runEnd before) else none

/-- End position in counts of a move that starts from a state, its REL reference ref where it is known (R74). -/
def Move.goal (mv : Move) (k : Kin) (ref : Option Int) : Option Rat :=
  match mv.kind with
  | 0 => some ((mv.target : Rat) / 65536)
  | 1 => some ((match ref with | some r => (r : Rat) / 65536 | none => k.p) + (mv.target : Rat) / 65536)
  | _ => none

/-- Overshoot case of R87 for a move that enters under an ACTION, its REL reference ref where it is known. -/
def Motion.overshoots (act : Nat) (mv : Move) (ref : Option Int) (m : Motion) : Bool :=
  match m.entryKin act with
  | some k => match mv.goal k ref with
    | some e => (planTo k e mv.lim (fun _ => 0)).past
    | none => false
  | none => false

/-- The running move ends at or before the boundary t (R86). -/
def Motion.endsBy (c : PCtx) (t : Nat) (m : Motion) : Bool :=
  match m.run with
  | some r =>
    let l := (m.advSegs t m.segs).segs
    !r.done && (!m.hold || r.mv.kind == 3) && (match r.mv.kind with
      | 2 => !(l.any fun x => decide (x.idx ≤ 3))
      | 4 => m.segs.isEmpty && r.dwellRun && decide (r.dwellLeft ≤ c.watch)
      | _ => l.isEmpty)
  | none => false

/-- The joint of the running move after a successor arrived: re-planned where segment 5 has not begun, else kept, with STARVED where it
stays EXACT (R82). -/
def Motion.rejoin (c : PCtx) (t : Nat) (m : Motion) : MRes :=
  match m.run with
  | some r =>
    if m.hold ∨ 1 < r.mv.kind then
      if r.mv.kind = 2 ∧ !m.hold then (m.replanAt c t) else Motion.ok m
    else
      let tgt := r.endPos.getD m.p
      let last := m.segs.getLastD { idx := 0, jerk := 0, dur := 0, rev := false, v1 := 0, a1 := 0 }
      let dir := if last.idx = 7 then rsign last.jerk else rsign ((tgt - m.p : Int) : Rat)
      let (ve, _) := jointVel tgt dir r.mv.blend r.mv.vmax m.wait
      if dir * ve = r.ve then Motion.ok m
      else if (m.advSegs t m.segs).segs.any (fun x => decide (x.idx ≤ 4)) then m.replanAt c t
      else if ve = 0 ∨ r.ve ≠ 0 then Motion.ok m
      else { m := { m with starved := true }, evs := [.starved r.mv.tag] }
  | none => Motion.ok m

/-- A planned submission takes effect at t. A move that a REPLACE discards where it ends counts as completed (R86). -/
def Motion.apply (c : PCtx) (t act : Nat) (mv : Move) (m : Motion) : MRes :=
  if act = 2 then
    let ref := if mv.path.isSome then none else m.replRef 2
    let done := match m.run with | some r => if m.endsBy c t then r.mv.doneTag m else m.doneTag | none => m.doneTag
    ({ m.rebase t with wait := [], run := none, segs := [], doneTag := done }).startMove c ref mv
  else
    (if act = 3 then m.dropWait c t else Motion.ok m).bind fun m =>
      match m.run with
      | none => (m.rebase t).startMove c none mv
      | some r =>
        if r.done ∧ !m.hold ∧ m.wait.isEmpty then ({ m.rebase t with run := none, segs := [] }).startMove c none mv
        else Motion.rejoin c t { m with wait := m.wait ++ [mv] }

/-! ### Order 1: lowered limits (R94) -/

/-- A move with its limits clamped (R70); the test says whether one was reduced. -/
def Move.clampTo (v a j : Rat) (m : Move) : Move × Bool :=
  ({ m with vmax := rmin m.vmax v, amax := rmin m.amax a, dmax := rmin m.dmax a, jmax := rmin m.jmax j },
   decide (v < m.vmax ∨ a < m.amax ∨ a < m.dmax ∨ j < m.jmax))

/-- Some move in use has a limit above the given ones. -/
def Motion.above (v a j : Rat) (m : Motion) : Bool :=
  (m.run.map (fun (r : Running) => (Move.clampTo v a j r.mv).2)).getD false || m.wait.any (fun x => (Move.clampTo v a j x).2)

/-- A move with its limits clamped, alone. -/
def Move.clamped (v a j : Rat) (m : Move) : Move := (Move.clampTo v a j m).1

/-- The active PROF set has been validly committed (R96). -/
def Motion.setCommitted (m : Motion) : Motion := { m with committed := true }

/-- Moves on their way to the queue changed by a function. -/
def Motion.mapEnter (f : Move → Move) (m : Motion) : Motion := { m with enter := m.enter.map (fun e => { e with mv := f e.mv }) }

/-- A re-plan falls due at a boundary; one that is due already stays. -/
def Motion.askReplan (due : Nat) (want : Bool) (m : Motion) : Motion :=
  { m with replan := match m.replan with | some d => some d | none => if want then some due else none }

/-- A re-plan is due at t. -/
def Motion.replanDue (t : Nat) (m : Motion) : Bool := match m.replan with | some d => decide (d ≤ t) | none => false

/-- Re-plan the running move but for a DWELL that stands. -/
def Motion.replanMoving (c : PCtx) (t : Nat) (m : Motion) : MRes :=
  match m.run with
  | some r => if r.mv.kind = 4 ∧ m.segs.isEmpty then Motion.ok m else m.replanAt c t
  | none => Motion.ok m

/-- The re-plan of R94 at the boundary t: targets kept, limits clamped. -/
def Motion.relimit (c : PCtx) (v a j : Rat) (t : Nat) (m : Motion) : MRes :=
  let m := { m with replan := none, wait := m.wait.map (Move.clamped v a j),
                    run := m.run.map (fun (r : Running) => { r with mv := r.mv.clamped v a j }) }
  m.replanMoving c t

/-- POS_RANGE: is the planned position outside I64 (R92)? -/
def Motion.outOfRange (m : Motion) : Bool := decide (m.p < -(2 : Int) ^ 63 ∨ (2 : Int) ^ 63 - 1 < m.p)

/-- The planned position is held at the limit. -/
def Motion.holdRange (t : Nat) (m : Motion) : Motion := m.setPlanned t (iclamp (-(2 : Int) ^ 63) ((2 : Int) ^ 63 - 1) m.p) 0 0

end Sys2Proof.Machine
end

