-- ==== Sys2Proof/Machine/Gearing.lean ====
section
/-!
DEFINITION. Gearing, superposition and the envelope limiter (spec 04 R99-R109, R116-R120): the terms of the command sum
of one axis, engage and disengage, folds, and the limiter.
-/
namespace Sys2Proof.Machine

/-- A 64-bit data item of a Logbook entry, low word first (spec 23 R565). -/
def d64 (x : Int) : List Word := [loWord x, hiWord x]

/-- Watch length of an axis's group in seconds. -/
def axT (s : State) (n : Fin 16) : Rat := (gW s (grpOf n) : Rat) / 1000000000

/-- Soft limits in force on an axis (05 R129). -/
def softLim (s : State) (n : Fin 16) : Option (Int × Int) :=
  if bit (ar s .home n.val 4) 15 && s.homing[n].homed then some (ar64 s .home n.val 0x38, ar64 s .home n.val 0x30) else none

/-- What planning of an axis needs. -/
def axCtx (s : State) (n : Fin 16) : PCtx := { soft := softLim s n, watch := gW s (grpOf n) }

/-- A word of the active PROF set of an axis as a number. -/
def pf (s : State) (n : Fin 16) (o : Nat) : Rat := f32 (ar s .prof n.val o)

/-- AX_STATE is READY or MOVING. -/
def readyOrMoving (s : State) (n : Fin 16) : Bool := shown s n == 2 || shown s n == 3

/-! ### Grids of R90 -/

/-- A velocity on the grid of 2^-32 count/s. -/
def gridV (v : Rat) : Rat := (roundFree 411 (v * pow2 32) : Rat) * pow2 (-32)
/-- An acceleration on the grid of 2^-24 count/s². -/
def gridA (a : Rat) : Rat := (roundFree 412 (a * pow2 24) : Rat) * pow2 (-24)
/-- Velocity of a Motion in counts/s. -/
def Motion.vel (m : Motion) : Rat := (m.v : Rat) * pow2 (-32)
/-- Acceleration of a Motion in counts/s². -/
def Motion.acc (m : Motion) : Rat := (m.a : Rat) * pow2 (-24)

/-! ### Folds (R105) -/

/-- End of a clipping episode: ENVELOPE_CLIP with the peak in whole counts (R119). -/
def endClip (n : Fin 16) (s : State) : State :=
  if s.env[n].follow then s
  else
    let pk := s.env[n].peak / 65536
    let s := modEnv n (fun e => { e with follow := true, peak := 0, excess := false }) s
    ev 5 n.val 0x24 n.val [satWord pk] s

/-- Gearing or superposition contributes, or is engaged or in effect. -/
def hasTerms (s : State) (n : Fin 16) : Bool :=
  s.gear[n].phase != 0 || s.gear[n].g != 0 || s.sup[n].on || s.sup[n].s != 0

/-- g, g_f, s and s_f are zero, superposition ends and the limiter is reset; after a quick stop or a removal of torque
GEAR and SUPER must be written 0 and then 1 again. -/
def clearTerms (rewrite : Bool) (n : Fin 16) (s : State) : State :=
  let s := ev 5 n.val 0x23 n.val (d64 s.gear[n].g ++ d64 s.sup[n].s) s
  let s := modGear n (fun g => { g with phase := 0, g := 0, gRem := 0, gf := 0, mark := 0, armed := g.armed && !rewrite }) s
  let s := modSup n (fun x => { x with on := false, s := 0, vs := 0, held := false, armed := x.armed && !rewrite }) s
  endClip n s

/-- The planned state of a fold: y of the previous boundary carried forward over one watch. -/
def foldState (s : State) (n : Fin 16) : Int × Int × Int :=
  let e := s.env[n]
  let dt := axT s n
  (e.y + roundFree 413 ((e.vy * dt + e.ay * dt * dt / 2) * 65536), roundFree 414 ((e.vy + e.ay * dt) * pow2 32),
   roundFree 415 (e.ay * pow2 24))

/-- A fold at t that sets the planned state; the limiter starts from it. -/
def fold (rewrite : Bool) (n : Fin 16) (t : Nat) (s : State) : State :=
  let (p, v, a) := foldState s n
  modEnv n (fun e => { e with t := t, y := p, vy := (v : Rat) * pow2 (-32), ay := (a : Rat) * pow2 (-24), u := p, vu := (v : Rat) * pow2 (-32), au := (a : Rat) * pow2 (-24) })
    (modMot n (Motion.setPlanned t p v a) (clearTerms rewrite n s))

/-- A removal of torque by another cause than a quick stop folds at the first boundary at which the axis has no torque (R105). -/
def foldOff (n : Fin 16) (s : State) : State :=
  if !(tq s n) && (s.gear[n].foldDue || hasTerms s n) then modGear n (fun g => { g with foldDue := false }) (clearTerms true n s) else s

/-! ### Masters (R100, R106) -/

/-- A position carried forward by a time in ns with velocity and acceleration, in 1/65,536 count. -/
def extrap (p : Int) (v a : Rat) (ns : Int) : Int :=
  let dt : Rat := (ns : Rat) / 1000000000
  p + roundFree 421 ((v * dt + a * dt * dt / 2) * 65536)

/-- Master position, velocity, acceleration and age in ns of axis n at its boundary W (Table 4-2); none for KIND 0 and for a
source that has delivered nothing yet. -/
def master (s : State) (n : Fin 16) (w : Nat) : Option (Int × Rat × Rat × Nat) :=
  let src := ar s .prof n.val 0x80
  let loc : Fin 16 := ⟨fld src 3 4 % 16, Nat.mod_lt _ (by decide)⟩
  let chan := fun (c : Fin 16) (sh : Int) =>
    let x := s.enc[c].smp[grpOf n]
    let p := x.p + sh
    let age := w - x.ts
    some (if bit src 7 then extrap p x.v 0 age else p, x.v, (0 : Rat), age)
  match fld src 0 3 with
  | 1 =>
    let e := s.env[loc]
    let ns : Int := (w : Int) - e.t
    some (extrap e.y e.vy e.ay ns, e.vy + e.ay * ((ns : Rat) / 1000000000), e.ay, 0)
  | 2 => match chanOf s loc with
    | some c => chan c (ir64 s .home loc.val 0x288)
    | none => some (ir64 s .home loc.val 0x288, 0, 0, 0)
  | 3 => chan loc 0
  | 4 => match s.gear[n].recd with
    | some r => some (extrap r.p r.v r.a ((w : Int) - r.t), r.v + r.a * ((((w : Int) - r.t : Int) : Rat) / 1000000000), r.a, w - r.t)
    | none => none
  | _ => none

/-! ### Engage and disengage ramps (R104, R105) -/

/-- F(x) for x ≥ 0, dF/dx and its derivative (Table 4-3). -/
def rampPos (catchup : Bool) (e x : Rat) : Rat × Rat × Rat :=
  if e ≤ 0 then (x, 1, 0)
  else if x ≤ e then (x * x / (2 * e), x / e, 1 / e)
  else if !catchup then (x - e / 2, 1, 0)
  else if x ≤ 3 * e / 2 then let v := x - e; (e / 2 + v + v * v / e, 1 + 2 * v / e, 2 / e)
  else if x ≤ 2 * e then let w := x - 3 * e / 2; (5 * e / 4 + 2 * w - w * w / e, 2 - 2 * w / e, -2 / e)
  else (x, 1, 0)

/-- F(−x) = −F(x). -/
def ramp (catchup : Bool) (e x : Rat) : Rat × Rat × Rat :=
  if 0 ≤ x then rampPos catchup e x else let (f, k, c) := rampPos catchup e (-x); (-f, k, -c)

/-- Travel of the slave image over the disengage ramp, factor, and its derivative: k = k0 (1 − |z| / D), odd in z. -/
def fall (k0 d z : Rat) : Rat × Rat × Rat :=
  let y := rclamp (-d) d z
  (k0 * (y - y * rabs y / (2 * d)), k0 * (1 - rabs y / d), if y < 0 then k0 / d else -k0 / d)

/-- E and D of the active set. -/
def gEdist (s : State) (n : Fin 16) : Rat := ar64 s .prof n.val 0x90
/-- GDDIST. -/
def gDdist (s : State) (n : Fin 16) : Rat := ar64 s .prof n.val 0x98
/-- MODE = CATCHUP. -/
def gCatch (s : State) (n : Fin 16) : Bool := bit (ar s .prof n.val 0x8C) 0
/-- NUM of the active set. -/
def gNum (s : State) (n : Fin 16) : Int := (ar s .prof n.val 0x84).toInt
/-- DEN of the active set. -/
def gDen (s : State) (n : Fin 16) : Nat := fld (ar s .prof n.val 0x88) 0 16

/-- GEARED: phases 1 to 3. -/
def geared (s : State) (n : Fin 16) : Bool := s.gear[n].phase != 0

/-- Change of GEAR at a boundary: engage, start the disengage ramp, or fold and stop (R104, R105). The master position m_e or m_d of the
change is taken when the axis is advanced (R100). A GEAR that reads 0 arms it again. -/
def gearChange (n : Fin 16) (on : Bool) (w : Nat) (s : State) : State :=
  let s := if !on then modGear n (fun g => { g with armed := true }) s else s
  let g := s.gear[n]
  if on && g.phase == 0 && g.armed && fld (ar s .prof n.val 0x80) 0 3 != 0 && readyOrMoving s n then
    modGear n (fun g => { g with phase := if 0 < gEdist s n then 1 else 2, mark := 1, gf := g.g, gRem := 0, stale := false }) s
  else if !on && (g.phase == 1 || g.phase == 2) && g.mark != 2 then
    if 0 < gDdist s n then modGear n (fun g => { g with mark := 2 }) s
    else
      let s := fold false n w s
      let mv : Move := { kind := 3, target := 0, vmax := pf s n 0, amax := pf s n 4, dmax := pf s n 4, jmax := pf s n 8, vtgt := 0, dwell := 0, blend := 0, noover := false, tag := internTag, path := none, jcap := none }
      modMot n (fun m => (m.startMove (axCtx s n) none mv).m) s
  else s

/-- Master position, velocity, acceleration and age for the gear term: those of R100, or the last position held where the source has delivered
nothing yet (DESIGN CHOICE, log entry 53). -/
def masterOr (s : State) (n : Fin 16) (w : Nat) : Int × Rat × Rat × Nat := (master s n w).getD (s.gear[n].mp, 0, 0, 0)

/-- Travel of the slave's image of the master from mp to m in the phase at hand (R101, R104, R105). -/
def gearTravel (s : State) (n : Fin 16) (m : Int) : Rat :=
  let g := s.gear[n]
  let e := gEdist s n
  let cu := gCatch s n
  match g.phase with
  | 1 => (ramp cu e (m - g.me : Int)).1 - (ramp cu e (g.mp - g.me : Int)).1
  | 2 => (m - g.mp : Int)
  | _ => (fall g.k0 (gDdist s n) (m - g.md : Int)).1 - (fall g.k0 (gDdist s n) (g.mp - g.md : Int)).1

/-- Phase after the master stands at m: the engage ends at E or 2E, the disengage at D (R104, R105). -/
def gearPhase (s : State) (n : Fin 16) (m : Int) : Nat :=
  let g := s.gear[n]
  match g.phase with
  | 1 => if (if gCatch s n then 2 * gEdist s n else gEdist s n) ≤ rabs (m - g.me : Int) then 2 else 1
  | 3 => if gDdist s n ≤ rabs (m - g.md : Int) then 0 else 3
  | p => p

/-- Factor and its derivative at m in a phase. -/
def gearFactor (s : State) (n : Fin 16) (ph : Nat) (m : Int) : Rat × Rat :=
  match ph with
  | 1 => (ramp (gCatch s n) (gEdist s n) (m - s.gear[n].me : Int)).2
  | 2 => (1, 0)
  | 3 => (fall s.gear[n].k0 (gDdist s n) (m - s.gear[n].md : Int)).2
  | _ => (0, 0)

/-- The marks of a change of GEAR at master position m: m_e at an engage, m_d and k0 at the start of the disengage ramp (R104, R105). -/
def gearMark (n : Fin 16) (m : Int) (s : State) : State :=
  match s.gear[n].mark with
  | 1 => modGear n (fun g => { g with me := m, mp := m, mark := 0 }) s
  | 2 => modGear n (fun g => { g with phase := 3, md := m, k0 := (gearFactor s n g.phase m).1, mark := 0 }) s
  | _ => s

/-- The gear term at boundary W: g, its velocity and acceleration (R101, R103-R105). The travel up to W moves g by the
ratio in use; a newly committed ratio acts from W on. An engage starts from the master position at W, a disengage ramp follows the travel
that the engaged term still makes up to W. -/
def gearAdvance (n : Fin 16) (w : Nat) (s : State) : State × Rat × Rat :=
  let num := gNum s n
  let den := gDen s n
  let use := fun (s : State) => modGear n (fun g => { g with num := num, den := den }) s
  if s.gear[n].phase = 0 then (use s, 0, 0)
  else
    let (m, vm, am, age) := masterOr s n w
    let s := if s.gear[n].mark = 1 then gearMark n m s else s
    let g := s.gear[n]
    let ex : Rat := (g.g : Rat) + g.gRem + (if g.den = 0 then 0 else gearTravel s n m * g.num / g.den)
    let g1 := roundFree 422 ex
    let ph := gearPhase s n m
    let s := modGear n (fun g => { g with g := g1, gRem := ex - g1, gf := if ph = 0 then g1 else g.gf, mp := m, phase := ph, age := age }) (use s)
    let s := gearMark n m s
    let s := iw (iw64 s .prof n.val 0x2CC m) .prof n.val 0x2D4 (satWord age)
    let r : Rat := if den = 0 then 0 else (num : Rat) / den
    let (k, c) := gearFactor s n s.gear[n].phase m
    (s, r * k * vm, r * (k * am + c * 65536 * vm * vm))

/-- Age in ns at t of the latch record in use; 0 with none. -/
def recAge (s : State) (n : Fin 16) (t : Nat) : Nat := match s.gear[n].recd with | some r => t - r.t | none => 0

/-- The age that R108 allows: 2 T_R + T_Wm − T_Ws + H T_R, with the master's watch T_Wm, which no register of this device holds (log entry 55). -/
def staleBound (s : State) (n : Fin 16) : Int :=
  let src := ar s .prof n.val 0x80
  let tr : Int := trOf s
  2 * tr + (Config.masterWatch (fld src 8 12) (fld src 20 4) : Int) - gW s (grpOf n) + fld src 24 4 * tr

/-- GEAR_MASTER_STALE at the first boundary t where the age of the record exceeds the bound of R108. -/
def gearStale (n : Fin 16) (t : Nat) (s : State) : State :=
  let src := ar s .prof n.val 0x80
  if geared s n && fld src 0 3 == 4 && decide (staleBound s n < recAge s n t) && !s.gear[n].stale then
    let s := modGear n (fun g => { g with stale := true }) s
    raiseAx 1 5 0x21 n [wd (fld src 8 12), wd (fld src 20 4), satWord (recAge s n t)] s
  else s

/-! ### Superposition (R116, R117) -/

/-- SOFF of the active set. -/
def soff (s : State) (n : Fin 16) : Int := ar64 s .prof n.val 0xB0

/-- Change of SUPER at a boundary (R116). -/
def superChange (n : Fin 16) (on : Bool) (s : State) : State :=
  let s := if !on then modSup n (fun x => { x with armed := true }) s else s
  let x := s.sup[n]
  if on && !x.on && x.armed && readyOrMoving s n then
    modSup n (fun x => { x with on := true, s0 := soff s n - x.s, seq := none, age := 0, held := false, vs := 0 }) s
  else if !on && x.on then modSup n (fun x => { x with on := false, held := false, vs := 0 }) s
  else s

/-- One value of SSEQ beyond the STALE-th boundary after its change holds s, once (R117). -/
def superStale (n : Fin 16) (s : State) : State :=
  let x := s.sup[n]
  let lim := fld (ar s .prof n.val 0xAC) 0 4
  if x.on ∧ lim ≠ 0 ∧ lim < x.age ∧ !x.held then
    ev 5 n.val 0x26 n.val [x.seq.getD 0#32] (modSup n (fun x => { x with held := true, vs := 0 }) s)
  else s

/-- The boundary's look at SSEQ: a new value resumes, the same value ages (R117). -/
def superSeq (n : Fin 16) (s : State) : State :=
  let q := ar s .prof n.val 0xBC
  if !s.sup[n].on then s
  else if s.sup[n].seq ≠ some q then modSup n (fun x => { x with seq := some q, age := 0, held := false }) s
  else superStale n (modSup n (fun x => { x with age := x.age + 1 }) s)

/-- The superposition term at a boundary: s with its velocity and acceleration. -/
def superAdvance (n : Fin 16) (s : State) : State × Rat × Rat :=
  let s := superSeq n s
  let x := s.sup[n]
  if !x.on ∨ x.held then (modSup n (fun x => { x with vs := 0 }) s, 0, 0)
  else
    let dt := axT s n
    let s1 := soff s n - x.s0
    let diff : Rat := if dt = 0 then 0 else ((s1 - x.s : Int) : Rat) / 65536 / dt
    let v := if bit (ar s .prof n.val 0xAC) 4 then (f32? (ar s .prof n.val 0xB8)).getD diff else diff
    let a := if dt = 0 then 0 else (v - x.vs) / dt
    (modSup n (fun x => { x with s := s1, vs := v }) s, v, a)

/-! ### Envelope limiter (R118, R119) -/

/-- A command sum with velocity and acceleration. -/
structure Sum where
  u : Int
  v : Rat
  a : Rat
  deriving DecidableEq, Repr

/-- One boundary of the limiter procedure with limits vl, al, jl and watch length dt. -/
def Env.limit (e : Env) (x : Sum) (vl al jl dt : Rat) : Env :=
  let uc : Rat := (x.u : Rat) / 65536
  let vreach := x.v + x.a * rabs x.a / (2 * jl)
  if e.follow ∧ rabs vreach ≤ vl ∧ rabs x.a ≤ al ∧ rabs (x.a - e.au) ≤ jl * dt then
    { e with y := x.u, vy := x.v, ay := x.a, follow := true }
  else
    let y : Rat := (e.y : Rat) / 65536
    let vt := rclamp (-vl) vl (x.v + rsign (uc - y) * rsqrt (al * rabs (uc - y)))
    let at_ := rclamp (-al) al (rsign (vt - e.vy) * rsqrt (2 * jl * rabs (vt - e.vy)))
    let jt := rclamp (-jl) jl ((at_ - e.ay) / dt)
    let y1 := y + e.vy * dt + e.ay * dt * dt / 2 + jt * dt * dt * dt / 6
    let v1 := gridV (e.vy + e.ay * dt + jt * dt * dt / 2)
    let a1 := gridA (e.ay + jt * dt)
    if rabs (uc - y1) ≤ mkRat 1 65536 ∧ rabs (x.v - v1) ≤ al * dt ∧ rabs (x.a - a1) ≤ jl * dt then
      { e with y := x.u, vy := x.v, ay := x.a, follow := true }
    else { e with y := roundFree 416 (y1 * 65536), vy := v1, ay := a1, follow := false }

/-- Stage 5 for axis n at W: the limiter, its velocity held to AXVRED in COMMISSION (02 R35), in its reset where the axis has no torque (or leaves ENABLING), then CLIPPED,
the peak, ENVELOPE_CLIP and CLIP_EXCESS. -/
def envAdvance (n : Fin 16) (w : Nat) (x : Sum) (reset : Bool) (s : State) : State :=
  let e := s.env[n]
  let e1 := if reset then { e with y := x.u, vy := x.v, ay := x.a, follow := true }
    else e.limit x (commV s n (pf s n 0xA0)) (pf s n 0xA4) (pf s n 0xA8) (axT s n)
  let clip := x.u - e1.y
  let pk := if e1.follow then e.peak else max e.peak clip.natAbs
  let s := modEnv n (fun _ => { e1 with t := w, u := x.u, vu := x.v, au := x.a, peak := if e1.follow then 0 else pk }) s
  let s := if !e.follow ∧ e1.follow then ev 5 n.val 0x24 n.val [satWord (pk / 65536)] s else s
  let lim := fld (ar s .prof n.val 0xAC) 16 16
  let exc := decide (lim ≠ 0 ∧ lim * 16 * 65536 < clip.natAbs)
  let s := if exc ∧ !e.excess then raiseAx 1 5 0x25 n (d64 clip) s else s
  let s := modEnv n (fun e => { e with excess := exc }) s
  let s := iw64 s .prof n.val 0x2D8 clip
  iw s .prof n.val 0x2E4 (satWord (max (ir s .prof n.val 0x2E4).toNat (clip.natAbs / 65536)))

/-- PROF_GSTAT of an axis (Table 4-11). -/
def gstat (s : State) (n : Fin 16) : Word :=
  let g := s.gear[n]
  wd (g.phase + 4 * b2n g.stale + 8 * min g.missed 255)
/-- PROF_ESTAT of an axis. -/
def estat (s : State) (n : Fin 16) : Word := wd (b2n (!s.env[n].follow) + 2 * b2n s.sup[n].held + 4 * b2n s.sup[n].on)

/-- The readbacks of gearing and superposition and, while the Helm runs, their points GR_POS, GR_STAT, SP_CLIP and SP_STAT
(Table 4-7). -/
def gearPublish (n : Fin 16) (s : State) : State :=
  let s := iw (iw (iw64 s .prof n.val 0x2C4 s.gear[n].g) .prof n.val 0x2C0 (gstat s n)) .prof n.val 0x2E0 (estat s n)
  if helmUp s then
    let s := setAp (setPt64 s (axPt n 60) s.gear[n].g) n 63 (gstat s n)
    setAp (setPt64 s (axPt n 72) (ir64 s .prof n.val 0x2D8)) n 74 (estat s n)
  else s

end Sys2Proof.Machine
end

