-- ==== Sys2Proof/Machine/Interp.lean ====
section
/-!
DEFINITION. Interpolation groups (spec 04 R110-R115): members, lines and arcs, path limits, corner caps, the path's state
mirrored into its members, the path stop, and the commit of PROF_IGMEM.
-/
namespace Sys2Proof.Machine

/-! ### Lines and arcs (R111-R113) -/

/-- Sum of squares. -/
def sumSq (l : List Rat) : Rat := l.foldl (fun acc x => acc + x * x) 0
/-- Differences in counts of two lists of coordinates. -/
def deltas (a b : List Int) : List Rat := (List.zip a b).map fun x => ((x.2 - x.1 : Int) : Rat) / 65536

/-- A linear path (R112). -/
def linPath (start stop : List Int) : IPath :=
  { arc := false, start := start, stop := stop, len := rsqrt (sumSq (deltas start stop)), cp := 0, cq := 0, radius := 0, sweep := 0,
    pm := 0, qm := 0 }

/-- An arc of members p and q about a centre, positive from P toward Q (PATH 1) or negative (PATH 2), full turn with FULL
(R113); none where the submission is refused. Its length is the arc's, the other members follow in proportion; a null arc moves no member (DESIGN
CHOICE, log entry 54). -/
def arcPath (start stop : List Int) (p q : Nat) (cp cq : Int) (neg full : Bool) : Option IPath :=
  let c := fun (l : List Int) (k : Nat) => l.getD k 0
  let v := fun (l : List Int) => ((c l p - cp : Int) : Rat) / 65536
  let w := fun (l : List Int) => ((c l q - cq : Int) : Rat) / 65536
  let r0 := sumSq [v start, w start]
  let r1 := sumSq [v stop, w stop]
  let same := c start p == c stop p && c start q == c stop q
  let far := decide (0 < r0 + r1 - 1 ∧ 4 * r0 * r1 < (r0 + r1 - 1) * (r0 + r1 - 1))
  if r0 = 0 ∨ far ∨ (full ∧ !same) then none
  else
    let d := angleTurn (v stop) (w stop) - angleTurn (v start) (w start)
    let d := if neg then -d else d
    let turns : Rat := if same then (if full then 1 else 0) else if d ≤ 0 then d + 1 else d
    let r := rsqrt r0
    let stop := if turns = 0 then start else stop
    some { arc := true, start := start, stop := stop, len := 2 * realPi * r * turns, cp := cp, cq := cq, radius := r,
           sweep := if neg then -turns else turns, pm := p, qm := q }

/-- Change of member j per count of path, at the start of a linear member (Δi / L). -/
def IPath.share (x : IPath) (j : Nat) : Rat :=
  if x.len = 0 then 0 else (((x.stop.getD j 0 - x.start.getD j 0 : Int) : Rat) / 65536) / x.len

/-- Member j turns on the arc. -/
def IPath.turns (x : IPath) (j : Nat) : Bool := x.arc && (j == x.pm || j == x.qm)

/-- Position in 1/65,536 count, velocity and acceleration of member j at path length d with path velocity v and
acceleration a. -/
def IPath.member (x : IPath) (j : Nat) (d v a : Rat) : Int × Rat × Rat :=
  if x.turns j then
    let sx := ((x.start.getD x.pm 0 - x.cp : Int) : Rat)
    let sy := ((x.start.getD x.qm 0 - x.cq : Int) : Rat)
    let f := if x.len = 0 then 0 else d / x.len
    let co := cosTurn (x.sweep * f)
    let si := sinTurn (x.sweep * f)
    let px := sx * co - sy * si
    let py := sx * si + sy * co
    let om := if x.len = 0 then 0 else 2 * realPi * x.sweep / x.len
    let (r, tn, cen) := if j = x.pm then (px, -py, x.cp) else (py, px, x.cq)
    let pos := if d = x.len then x.stop.getD j 0 else cen + roundFree 431 r
    (pos, om * v * tn / 65536, (om * a * tn - om * om * v * v * r) / 65536)
  else
    let k := x.share j
    (if d = x.len then x.stop.getD j 0 else x.start.getD j 0 + roundFree 432 (k * d * 65536), k * v, k * a)

/-- Unit tangent at the start or the end of a path. -/
def IPath.tangent (x : IPath) (atEnd : Bool) : List Rat :=
  let v := (List.range x.start.length).map fun j => (x.member j (if atEnd then x.len else 0) 1 0).2.1
  let n := rsqrt (sumSq v)
  if n = 0 then v else v.map (· / n)

/-- Joint cap between two paths: 0 where the angle exceeds CORNER, none for tangent paths, else the velocity whose step
stays within every member's ALIM × T_W (R114). -/
def cornerCap (s : State) (i : Fin 4) (a b : IPath) : Option Rat :=
  let ta := a.tangent true
  let tb := b.tangent false
  let corner := fld (igMem s i) 24 8
  let dot := ((List.zip ta tb).map fun x => x.1 * x.2).foldl (· + ·) 0
  let step := rsqrt (sumSq ((List.zip ta tb).map fun x => x.1 - x.2))
  if ta = tb then none
  else if corner = 0 ∨ dot < cosTurn ((corner : Rat) / 360) then some 0
  else if step = 0 then none
  else some ((igMembers s i).foldl (fun m n => rmin m (pf s n 4 * axT s n / step)) (pf s ((igMembers s i).headD 0) 4 * axT s ((igMembers s i).headD 0) / step))

/-- Largest v on the grid with v³ ≤ x. -/
def cubeRoot (x : Rat) : Rat := highest (fun v => decide (v * v * v ≤ x)) 0 1000000000

/-- Path limits lowered to the members' limits (R112, R113), with a velocity ceiling per member. -/
def pathLimits (s : State) (i : Fin 4) (x : IPath) (vmaxOf : Fin 16 → Rat) (l : Lim) : Lim :=
  let ms := igMembers s i
  let lin := fun (l : Lim) (j : Nat) =>
    let n := ms.getD j 0
    let k := rabs (x.share j)
    if x.turns j ∨ k = 0 then l
    else { v := rmin l.v (vmaxOf n / k), a := rmin l.a (pf s n 4 / k), d := rmin l.d (pf s n 4 / k), j := rmin l.j (pf s n 8 / k) }
  let l := (List.range ms.length).foldl lin l
  if x.arc then
    let p := ms.getD x.pm 0
    let q := ms.getD x.qm 0
    let a := rmin (pf s p 4) (pf s q 4) / 2
    let j := rmin (pf s p 8) (pf s q 8) / 2
    let v := rmin (rmin (vmaxOf p) (vmaxOf q)) (rmin (rsqrt (a * x.radius)) (cubeRoot (j * x.radius * x.radius)))
    { v := rmin l.v v, a := rmin l.a a, d := rmin l.d a, j := rmin l.j j }
  else l

/-! ### The path in motion -/

/-- What planning of a path needs: the lead's watch. -/
def igCtx (s : State) (i : Fin 4) : PCtx :=
  { soft := none, watch := gW s (grpOf ((igMembers s i).headD 0)) }

/-- The line follows the running path move. -/
def IGroup.track (g : IGroup) : IGroup :=
  match g.mot.run with
  | some r => match r.mv.path, r.endPos with
    | some x, some e => { g with cur := some x, base := e - r.mv.target }
    | _, _ => g
  | none => g

/-- State of member j of a path: position with what folds added, velocity, acceleration. -/
def IGroup.member (g : IGroup) (j : Nat) : Option (Int × Int × Int) :=
  g.cur.map fun x =>
    let d := ((g.mot.p - g.base : Int) : Rat) / 65536
    let d := if g.mot.run.isNone ∧ rabs (d - x.len) * 65536 < 1 then x.len else d
    let (p, v, a) := x.member j d g.mot.vel g.mot.acc
    (p + g.offs.getD j 0, roundFree 433 (v * pow2 32), roundFree 434 (a * pow2 24))

/-- The members' profile engines show the path's state. -/
def igMirror (i : Fin 4) (s : State) : State :=
  let ms := igMembers s i
  forEach (List.range ms.length) (fun j s =>
    match s.igrp[i].member j with
    | some (p, v, a) => modMot (ms.getD j 0) (fun m => { m with p := p, v := v, a := a, t0 := s.igrp[i].mot.t0, p0 := p, v0 := v, a0 := a, segs := [], run := none, wait := [] }) s
    | none => s) s

/-- Events of planning of axis n, or of a path's lead (R82, R84). -/
def planEvents (n : Fin 16) (evs : List MEv) (s : State) : State :=
  forEach evs (fun e s => match e with
    | .reduced tag v => ev 5 n.val 3 n.val [wd (tag % 65536), toF32 441 v] (bwBit s .prof 0x24 n.val true)
    | .starved tag => ev 5 n.val 2 n.val [wd (tag % 65536)] (bwBit s .prof 0x20 n.val true)) s

/-- Change the path's Motion by an operation with events, and mirror it. -/
def igDo (i : Fin 4) (f : Motion → MRes) (s : State) : State :=
  let x := f s.igrp[i].mot
  let s := modIg i (fun g => IGroup.track { g with mot := x.m }) s
  igMirror i (planEvents ((igMembers s i).headD 0) x.evs s)

/-- The least of some rationals. -/
def least (l : List Rat) : Option Rat := l.foldl (fun acc v => match acc with | none => some v | some a => some (rmin a v)) none

/-- What a member's ceiling leaves for the stop after a part of it is taken; the ceiling itself where nothing is left. -/
def leaves (lim part : Rat) : Rat := if part < lim then lim - part else lim

/-- Deceleration and jerk of a path stop: the highest at which no member exceeds its PROF_QSDEC and PROF_QSJERK (R115). On an arc the acceleration
v²/r toward the centre and the jerk 3va/r and v³/r² that go with it are taken off at the velocity at which the stop begins (log entry 54). -/
def igStopLim (s : State) (i : Fin 4) (x : IPath) : Rat × Rat :=
  let ms := igMembers s i
  let v := rabs s.igrp[i].mot.vel
  let r := x.radius
  let js := List.range ms.length
  let dec := least (js.filterMap fun j =>
    let lim := pf s (ms.getD j 0) 0xC
    if x.turns j ∧ r ≠ 0 then
      let cen := v * v / r
      some (if cen < lim then rsqrt (lim * lim - cen * cen) else lim)
    else if x.share j = 0 then none else some (lim / rabs (x.share j)))
  let d := dec.getD (pf s (ms.headD 0) 0xC)
  let jerk := least (js.filterMap fun j =>
    let lim := pf s (ms.getD j 0) 0x10
    if x.turns j ∧ r ≠ 0 then some (leaves lim (v * v * v / (r * r) + 3 * v * d / r))
    else if x.share j = 0 then none else some (lim / rabs (x.share j)))
  (d, jerk.getD (pf s (ms.headD 0) 0x10))

/-- Stop of the whole path along its line; the lead's queue is discarded (R115). -/
def igStop (i : Fin 4) (t : Nat) (s : State) : State :=
  let s := match s.igrp[i].cur with
    | some x => let (d, j) := igStopLim s i x; modIg i (fun g => { g with mot := g.mot.quickStop d j t }) s
    | none => modIg i (fun g => { g with mot := g.mot.quickStop 1 1 t }) s
  igMirror i s

/-- A quick stop of an axis (R89, R105, R115): gearing and superposition fold first; a path member stops its path. -/
def quickStop (n : Fin 16) (t : Nat) (s : State) : State :=
  match igOf s n with
  | some i =>
    let p0 := s.mot[n].p
    let s := fold true n t s
    let d := s.mot[n].p - p0
    let j := (igMembers s i).idxOf n
    let s := modIg i (fun g => { g with offs := g.offs.set j (g.offs.getD j 0 + d) }) s
    modMot n (fun m => { m with qstop := true, hold := false }) (igStop i t s)
  | none =>
    let s := fold true n t s
    modMot n (Motion.quickStop (pf s n 0xC) (pf s n 0x10) t) s

/-- PROF_IGSTAT and PROF_IGVEL of a group. -/
def igPublish (i : Fin 4) (s : State) : State :=
  let g := s.igrp[i]
  let arc := match g.cur with | some x => x.arc | none => false
  let s := iw s .prof (16 + i.val) 0x240 (wd (g.mot.segNo + 8 * b2n arc + 16 * b2n g.mot.moving))
  iw s .prof (16 + i.val) 0x244 (toF32 442 g.mot.vel)

/-! ### Commit (R110) -/

/-- An axis has a move running or queued, of its own or on its path. -/
def moveBusy (s : State) (n : Fin 16) : Bool :=
  let has := fun (m : Motion) => m.run.isSome || !m.wait.isEmpty || !m.enter.isEmpty
  has s.mot[n] || (match igOf s n with | some k => has s.igrp[k].mot | none => false)

/-- Bit offset of the first invalid field of the pending PROF_IGMEM (Table 4-12): a member that repeats an earlier one, belongs to another group,
differs from the lead in watch or phase or is busy; NAX; CORNER. Members of the active set that are busy count for the lead's field. -/
def igCheck (s : State) (i : Fin 4) : Option Nat :=
  let w := ir s .prof (16 + i.val) 0
  let ms := membersOf w
  let other := fun (n : Fin 16) => (List.finRange 4).any fun k => k != i && (igMembers s k).contains n
  let lead := grpOf (ms.headD 0)
  let badMember := fun (j : Nat) =>
    let n := ms.getD j 0
    (ms.take j).contains n || other n || moveBusy s n || decide (gW s (grpOf n) ≠ gW s lead ∨ gPhase s (grpOf n) ≠ gPhase s lead)
  firstBad (((igMembers s i).any (moveBusy s), 0) :: (List.range ms.length).map (fun j => (badMember j, 4 * j)) ++
    [(decide (4 < naxOf w), 16), (decide (90 < fld w 24 8), 24)])

/-- Commit of an interpolation group: refused whole, or the group starts anew at rest. -/
def igCommit (i : Fin 4) (s : State) : State :=
  let bad := igCheck s i
  let s := bwBit s .prof 0x10 (16 + i.val) false
  match bad with
  | some o => ev 5 i.val 0x27 noAxis [wd o] s
  | none => modIg i (fun _ => { mot := motionReset, cur := none, base := 0, offs := [0, 0, 0, 0], stopDue := false }) (copySet .prof (16 + i.val) s)

/-- The group at whose boundary the commit falls: that of the pending lead, or of the active lead when it is disabled. -/
def igHome (s : State) (i : Fin 4) : Fin 4 :=
  let w := ir s .prof (16 + i.val) 0
  grpOf (memOf (if naxOf w = 0 then igMem s i else w) 0)

end Sys2Proof.Machine
end

