-- ==== Sys2Proof/Machine/Homing.lean ====
section
/-!
DEFINITION. Limits and homing (spec 05 R123-R143, R152): sampled limits, HW_LIMIT, LIMIT_BOTH, LIMIT_CHATTER, SOFT_LIMIT,
the homing states of Table 5-2, the shift of coordinates, and the HOME commit.
-/
namespace Sys2Proof.Machine

/-- Actual position of an axis: POS_ACT, axis points 2-3. -/
def posAct (s : State) (n : Fin 16) : Int := pt64 s (axPt n 2)

/-! ### Inputs (R123, R124) -/

/-- Filtered level of a field input; none while it is invalid (17 R421). -/
def diLevel (s : State) (i : Nat) : Option Bool := if bit (br s .fio 0x24) i then some (bit (br s .fio 0x20) i) else none
/-- A limit input of HOME_LIM: assigned and active; an invalid input counts as active. -/
def limActive (s : State) (n : Fin 16) (pos : Bool) : Bool :=
  let w := ar s .home n.val 4
  let b := if pos then 0 else 8
  bit w (b + 5) && (match diLevel s (fld w b 5) with | some l => xor l (bit w (b + 6)) | none => true)
/-- The home switch; an invalid input keeps its state (DESIGN CHOICE: the spec says nothing of it). -/
def hswActive (s : State) (n : Fin 16) : Bool :=
  let w := ar s .home n.val 0
  if bit w 7 then xor (bit (wd s.latPins) (fld w 8 5 % 8)) (bit w 13)
  else match diLevel s (fld w 8 5) with | some l => xor l (bit w 13) | none => s.homing[n].hsw

/-- METHOD of the active set. -/
def homeMethod (s : State) (n : Fin 16) : Nat := fld (ar s .home n.val 0) 0 4
/-- +1 in the positive direction, −1 in the negative. -/
def homeDir (s : State) (n : Fin 16) : Int := if bit (ar s .home n.val 0) 4 then -1 else 1
/-- The switch of methods 3 to 6. -/
def homeSwitch (s : State) (n : Fin 16) : Bool :=
  let h := s.homing[n]
  if homeMethod s n = 5 ∨ homeMethod s n = 6 then (if homeDir s n = 1 then h.limP else h.limN) else h.hsw
/-- The limit on the side of a direction. -/
def sideLim (s : State) (n : Fin 16) (d : Int) : Bool := if d = 1 then s.homing[n].limP else s.homing[n].limN

/-- HOME_STAT of an axis. -/
def homeStat (s : State) (n : Fin 16) : Word :=
  let h := s.homing[n]
  wd (h.state + 16 * b2n h.homed + 32 * b2n h.chatter + 64 * b2n h.limP + 128 * b2n h.limN + 256 * b2n h.hsw + 512 * b2n h.reversed)
/-- HOME_STAT and HOME_STATUS follow. -/
def homePublish (n : Fin 16) (s : State) : State :=
  let s := iw s .home n.val 0x280 (homeStat s n)
  bwBit (bwBit s .home 0 n.val (homingOn s n)) .home 0 (16 + n.val) s.homing[n].homed

/-- The states are sampled at the boundary (R124). -/
def sampleLimits (n : Fin 16) (s : State) : State :=
  let p := limActive s n true
  let m := limActive s n false
  let w := hswActive s n
  modHom n (fun h => { h with limP := p, limN := m, hsw := w }) s

/-! ### Limit faults (R125-R128, R131) -/

/-- Homing takes the limit on a side without a fault: the DIR-side limit as the switch of methods 5 and 6 (R135), and in SEEK of methods 3 and 4
(R136). -/
def homeTakes (s : State) (n : Fin 16) (d : Int) : Bool :=
  let m := homeMethod s n
  homingOn s n && d == homeDir s n && (m == 5 || m == 6 || ((m == 3 || m == 4) && s.homing[n].state == 1))

/-- HW_LIMIT, once in each episode (R125). -/
def hwLimit (n : Fin 16) (s : State) : State :=
  let h := s.homing[n]
  let vy := s.env[n].vy
  let pos := h.limP && decide (0 < vy) && !(homeTakes s n 1)
  let neg := h.limN && decide (vy < 0) && !(homeTakes s n (-1))
  let on := pos || neg
  let s := modHom n (fun h => { h with hwEp := on }) s
  if on ∧ !h.hwEp then raiseAx 1 5 0x45 n [wd (b2n neg), toF32 503 vy] s else s

/-- LIMIT_BOTH, once while both limits stay active (R127). -/
def limitBoth (n : Fin 16) (s : State) : State :=
  let h := s.homing[n]
  let w := ar s .home n.val 4
  let both := h.limP && h.limN
  let s := modHom n (fun h => { h with bothEp := both }) s
  if both ∧ !h.bothEp then raiseAx 1 5 0x46 n [wd (fld w 0 5), wd (fld w 8 5)] s else s

/-- The inputs whose transitions are counted: assigned limits, and a home switch on a field input with METHOD 3 or 4. -/
def countedInputs (s : State) (n : Fin 16) : List Nat :=
  let w := ar s .home n.val 4
  let c := ar s .home n.val 0
  (if bit w 5 then [fld w 0 5] else []) ++ (if bit w 13 then [fld w 8 5] else []) ++
    (if !(bit c 7) && (homeMethod s n == 3 || homeMethod s n == 4) then [fld c 8 5] else [])

/-- A filtered transition of field input i at ship time t is counted by every axis that counts the input (R128). -/
def inputEdge (i t : Nat) (s : State) : State :=
  forEach allAxes (fun n s =>
    if (countedInputs s n).contains i then modHom n (fun h => { h with trans := h.trans ++ [(i, t)] }) s else s) s

/-- CHATWIN of an axis in ns. -/
def chatWin (s : State) (n : Fin 16) : Nat := fld (ar s .home n.val 4) 20 12 * 1000000
/-- The input that has more than CHATLIM transitions in the window that ends at t, with their number. -/
def chatOver (s : State) (n : Fin 16) (t : Nat) : Option (Nat × Nat) :=
  let lim := fld (ar s .home n.val 4) 16 4
  let cnt := fun (i : Nat) => (s.homing[n].trans.filter (fun x => x.1 == i && decide (t < x.2 + chatWin s n))).length
  if lim = 0 ∨ chatWin s n = 0 then none
  else ((countedInputs s n).find? (fun i => decide (lim < cnt i))).map fun i => (i, cnt i)

/-- The homing of an axis ends in a state (8 DONE, 9 ABORTED); latch unit 1 is given back (R137). -/
def homeEnd (st : Nat) (n : Fin 16) (s : State) : State :=
  let s := if homingOn s n then
      match chanOf s n with
      | some c => setStat c 11 s.homing[n].lArm s
      | none => s
    else s
  modHom n (fun h => { h with state := st, sub := 0, cap := none }) s

/-- LIMIT_CHATTER: CHATTER is set and homing aborted (R128). -/
def chatter (n : Fin 16) (t : Nat) (s : State) : State :=
  let s := modHom n (fun h => { h with trans := h.trans.filter (fun x => decide (t < x.2 + chatWin s n)) }) s
  match chatOver s n t with
  | some (i, k) =>
    if s.homing[n].chatter then s
    else
      let s := modHom n (fun h => { h with chatter := true }) s
      let s := if homingOn s n then homeEnd 9 n s else s
      raiseAx 1 5 0x47 n [wd i, wd k] s
  | none => s

/-- SOFT_LIMIT: y passes a soft limit in force (R131). -/
def softCheck (n : Fin 16) (s : State) : State :=
  let y := s.env[n].y
  let out : Bool := match softLim s n with | some (lo, hi) => decide (y < lo ∨ hi < y) | none => false
  let was := s.homing[n].softEp
  let s := modHom n (fun h => { h with softEp := out }) s
  if out ∧ !was then raiseAx 1 5 0x48 n (d64 y) s else s

/-- A submission toward an active limit (R126, R127): dir of the motion, 0 where it does not move. -/
def limRefuses (s : State) (n : Fin 16) (dir : Int) : Bool :=
  let h := s.homing[n]
  (h.limP && h.limN) || (h.limP && decide (0 < dir)) || (h.limN && decide (dir < 0))

/-! ### Homing motion (R134) -/

/-- An internal move with homing's limits. -/
def homeMove (s : State) (n : Fin 16) (kind : Nat) (target : Int) (v : Rat) : Move :=
  let a := f32 (ar s .home n.val 0x10)
  { kind := kind, target := target, vmax := commV s n (rabs v), amax := a, dmax := a, jmax := f32 (ar s .home n.val 0x14), vtgt := v,
    dwell := 0, blend := 0, noover := false, tag := internTag, path := none, jcap := none }

/-- Start an internal move at t. -/
def homeGo (n : Fin 16) (t : Nat) (mv : Move) (s : State) : State := modMot n (fun m => (m.apply (axCtx s n) t 2 mv).m) s
/-- HOME_VFAST. -/
def vFast (s : State) (n : Fin 16) : Rat := f32 (ar s .home n.val 8)
/-- HOME_VSLOW. -/
def vSlow (s : State) (n : Fin 16) : Rat := f32 (ar s .home n.val 0xC)
/-- Move in a direction at a speed. -/
def homeRun (n : Fin 16) (t : Nat) (d : Int) (v : Rat) (s : State) : State := homeGo n t (homeMove s n 2 0 ((d : Rat) * v)) s
/-- Stop at HOME_ACC and HOME_JERK. -/
def homeStop (n : Fin 16) (t : Nat) (s : State) : State := homeGo n t (homeMove s n 3 0 0) s
/-- Stop at PROF_QSDEC and PROF_QSJERK without a fault. -/
def homeQuick (n : Fin 16) (t : Nat) (s : State) : State :=
  modMot n (fun m => { m.quickStop (pf s n 0xC) (pf s n 0x10) t with qstop := false }) s

/-- Enter a state at the present planned position. -/
def homeState (st sub : Nat) (n : Fin 16) (s : State) : State :=
  modHom n (fun h => { h with state := st, sub := sub, from_ := s.mot[n].p, seen := false }) s

/-- Arm latch unit 1 of the axis's channel for the capture to come. -/
def homeArm (n : Fin 16) (s : State) : State :=
  let s := modHom n (fun h => { h with cap := none }) s
  match chanOf s n with | some c => setStat c 11 true s | none => s

/-- Enter APPROACH. -/
def homeApproach (n : Fin 16) (t : Nat) (s : State) : State :=
  homeArm n (homeRun n t (homeDir s n) (vSlow s n) (homeState 4 0 n s))

/-- Enter BACK_OFF from rest: moving until the switch is inactive. -/
def homeBackOff (n : Fin 16) (t : Nat) (s : State) : State := homeRun n t (-(homeDir s n)) (vSlow s n) (homeState 3 0 n s)

/-- The shift of R139: HOME_SHIFT, POS_ACT, the planned position, y and POS_CMD move together. -/
def homeShift (d : Int) (n : Fin 16) (s : State) : State :=
  let s := iw64 s .home n.val 0x288 (ir64 s .home n.val 0x288 + d)
  let s := setPt64 s (axPt n 2) (posAct s n + d)
  let s := modMot n (Motion.shift d) s
  let s := modEnv n (fun e => { e with y := e.y + d, u := e.u + d }) s
  let s := modStp n (fun x => { x with y := x.y + d }) s
  let s := modLoop n (fun x => { x with paPrev := x.paPrev.map (· + d) }) s
  modHom n (fun h => { h with from_ := h.from_ + d }) s

/-- Entry to DONE: HOMED is set. -/
def homeDone (n : Fin 16) (s : State) : State := modHom n (fun h => { h with homed := true }) (homeEnd 8 n s)

/-- The reference p_ref is used: HOME_REF, the shift, then FINAL or DONE. -/
def homeFinish (ref : Int) (n : Fin 16) (t : Nat) (s : State) : State :=
  let s := iw64 s .home n.val 0x290 ref
  let s := homeShift (ar64 s .home n.val 0x20 - ref) n s
  if bit (ar s .home n.val 0) 6 then homeGo n t (homeMove s n 0 (ar64 s .home n.val 0x28) (vFast s n)) (homeState 7 0 n s)
  else homeDone n s

/-! ### Start and end (R132, R133) -/

/-- Reason for which homing does not start, the lowest of Table 5-5; 0 where it starts. -/
def homeReason (s : State) (n : Fin 16) : Nat :=
  let m := homeMethod s n
  let mt := s.mot[n]
  let master : Bool := allAxes.any fun k =>
    geared s k && (let w := ar s .prof k.val 0x80; (fld w 0 3 == 1 || fld w 0 3 == 2) && fld w 3 4 == n.val)
  let cm : Nat := match chanOf s n with | some c => encMode s c | none => 0
  let index : Bool := match chanOf s n with | some c => encMode s c == 1 && !(stepDir s c) | none => false
  let l1 : Bool := s.helm.latched.any (fun f => f.level == 1 && f.hits n)
  (firstBad [
    (m == 0, 1),
    (shown s n != 2 || mt.qfill != 0, 2),
    (s.homing[n].chatter, 3),
    (geared s n || s.sup[n].on || (igOf s n).isSome || master, 4),
    ((mode s != mRun && mode s != mComm) || (mode s == mComm && decide (axVred s n ≤ 0)), 5),
    (mt.qstop || l1, 6),
    (!mt.committed, 7),
    ((m == 2 && cm != 3 && cm != 4) || ((m == 4 || m == 6 || m == 7) && !index), 8)]).getD 0

/-- Methods 1 and 2 complete at the end of order 6 of the boundary at which they start (R134, R139): POS_ACT there becomes HOME_POS, or HOME_SHIFT
does. -/
def homeAtOnce (n : Fin 16) (s : State) : State :=
  match homeMethod s n with
  | 2 => homeDone n (homeShift (ar64 s .home n.val 0x20 - ir64 s .home n.val 0x288) n s)
  | _ =>
    let ref := s.homing[n].cap.getD 0
    homeDone n (homeShift (ar64 s .home n.val 0x20 - ref) n (iw64 s .home n.val 0x290 ref))

/-- Homing starts at boundary t. -/
def homeStart (n : Fin 16) (t : Nat) (s : State) : State :=
  let m := homeMethod s n
  let la := match chanOf s n with | some c => bit (encStat s c) 11 | none => false
  let s := modHom n (fun h => { h with homed := false, t0 := t, reversed := false, hsCount := 0, cap := none, lArm := la, refused := false }) s
  match m with
  | 1 | 2 => modHom n (fun h => { h with cap := some (posAct s n) }) (homeState 4 5 n s)
  | 7 => homeApproach n t s
  | 8 => homeRun n t (homeDir s n) (vSlow s n) (homeState 6 0 n s)
  | _ =>
    if homeSwitch s n then homeBackOff n t (homeState 1 0 n s)
    else homeRun n t (homeDir s n) (vFast s n) (homeState 1 0 n s)

/-- AX_CMD.HOME at a boundary: a start or a refusal, logged once for each time HOME is set, while it is 1; while it is 0 the
end of DONE or ABORTED, or an abort (R132, R133). -/
def homeChange (n : Fin 16) (on : Bool) (t : Nat) (s : State) : State :=
  let h := s.homing[n]
  if on then
    if h.state ≠ 0 then s
    else match homeReason s n with
      | 0 => homeStart n t s
      | r => if h.refused then s else ev 5 n.val 0x40 n.val [wd r] (modHom n (fun h => { h with refused := true }) s)
  else
    let s := modHom n (fun h => { h with refused := false }) s
    if homingOn s n then ev 5 n.val 0x41 n.val [wd h.state] (homeEnd 9 n (homeStop n t s))
    else modHom n (fun h => { h with state := 0 }) s

/-! ### Aborts (R136) -/

/-- An abort at level 1: the quick stop follows as for every level-1 fault, homing is ABORTED. -/
def homeAbort (num : Nat) (data : List Word) (n : Fin 16) (s : State) : State := raiseAx 1 5 num n data (homeEnd 9 n s)

/-- SS1-r, STO or a level-2 fault on the group ends homing in ABORTED (R133). -/
def homeGroupEnd (n : Fin 16) (s : State) : State :=
  if homingOn s n && (ss1On s (grpOf n) || stoOn s (grpOf n) || l2Stands s n) then homeEnd 9 n s else s

/-- Limits met while homing (R136): the stop without a fault in SEEK, after which REVOK = 0 aborts (DEDUCED, log entry 56), or the abort. -/
def homeLimits (n : Fin 16) (t : Nat) (s : State) : State :=
  let h := s.homing[n]
  let m := homeMethod s n
  let d := homeDir s n
  let v := s.mot[n].v
  let into := fun (k : Int) => sideLim s n k && decide (0 < k * v)
  let side := fun (k : Int) => wd (if k = 1 then 0 else 1)
  if !(homingOn s n) then s
  else if h.state = 1 ∧ h.sub ≠ 3 ∧ (m = 3 ∨ m = 4) ∧ into d then modHom n (fun h => { h with sub := 3 }) (homeQuick n t s)
  else if h.state = 1 ∧ h.sub = 3 ∧ s.mot[n].rest ∧ s.mot[n].segs.isEmpty ∧ !(bit (ar s .home n.val 0) 5) then homeAbort 0x42 [wd h.state, side d] n s
  else if h.sub = 3 then s
  else if (m = 3 ∨ m = 4 ∨ m = 7 ∨ m = 8) ∧ into d then homeAbort 0x42 [wd h.state, side d] n s
  else if into (-d) then homeAbort 0x42 [wd h.state, side (-d)] n s
  else s

/-- HOME_NOT_FOUND: a state that waits for an edge has travelled more than HOME_MAXDIST counts. -/
def homeNotFound (n : Fin 16) (s : State) : State :=
  let h := s.homing[n]
  let lim := (ar s .home n.val 0x1C).toNat
  let tr := s.mot[n].p - h.from_
  if 1 ≤ h.state ∧ h.state ≤ 5 ∧ h.sub = 0 ∧ lim ≠ 0 ∧ lim * 65536 < tr.natAbs then homeAbort 0x43 (wd h.state :: d64 tr) n s else s

/-- HOME_TIMEOUT: homing has lasted longer than HOME_TMO ms. -/
def homeTimeout (n : Fin 16) (t : Nat) (s : State) : State :=
  let h := s.homing[n]
  let tmo := fld (ar s .home n.val 0x44) 0 16
  if homingOn s n ∧ tmo ≠ 0 ∧ h.t0 + tmo * 1000000 < t then homeAbort 0x44 [wd h.state] n s else s

/-! ### The states of Table 5-2 -/

/-- HARDSTOP: |IQ_ACT| ≥ HOME_HSCUR for HSTIME + 1 consecutive watches; then the planned position is POS_ACT at rest (R138). -/
def hardStop (n : Fin 16) (t : Nat) (s : State) : State :=
  let h := s.homing[n]
  let iq := (ap s n 8).toInt
  let cur := (ar s .home n.val 0x40).toInt
  if h.state ≠ 6 then s
  else if iq.natAbs < cur.natAbs then modHom n (fun h => { h with hsCount := 0 }) s
  else if h.hsCount < fld (ar s .home n.val 0) 16 8 then modHom n (fun h => { h with hsCount := h.hsCount + 1 }) s
  else
    let ref := posAct s n
    homeFinish ref n t (modMot n (Motion.setPlanned t ref 0 0) s)

/-- One boundary of the homing states (R135-R139), at the end of order 6. -/
def homeStep (n : Fin 16) (t : Nat) (s : State) : State :=
  let h := s.homing[n]
  let m := homeMethod s n
  let sw := homeSwitch s n
  let d := homeDir s n
  let rest := s.mot[n].rest && s.mot[n].segs.isEmpty
  let bo : Nat := (ar s .home n.val 0x18).toNat * 65536
  let lat := bit (ar s .home n.val 0) 7 && (m == 3 || m == 4)
  let stopping := fun (s : State) => modHom n (fun h => { h with sub := 1 }) (homeStop n t s)
  let runOn := fun (s : State) =>
    let s := homeState 3 2 n s
    if bo = 0 then stopping s else s
  match h.state, h.sub with
  | 1, 0 => if sw then stopping s else s
  | 1, 1 => if rest then homeBackOff n t s else s
  | 1, 3 => if rest then homeRun n t (-d) (vFast s n) (homeState 2 0 n (modHom n (fun h => { h with reversed := true }) s)) else s
  | 2, _ => if sw then modHom n (fun h => { h with seen := true }) s else if h.seen then runOn s else s
  | 3, 0 => if !sw then runOn s else s
  | 3, 2 => if bo ≤ (s.mot[n].p - h.from_).natAbs then stopping s else s
  | 3, _ => if rest then homeApproach n t s else s
  | 4, 5 => homeAtOnce n s
  | 4, 0 =>
    let got := if m = 7 ∨ lat then h.cap else if sw then some (posAct s n) else none
    match got with
    | some r =>
      if m = 4 ∨ m = 6 then homeArm n (homeState 5 0 n s)
      else modHom n (fun h => { h with cap := some r }) (stopping s)
    | none => s
  | 5, 0 => if h.cap.isSome then stopping s else s
  | 4, _ | 5, _ => if rest then homeFinish (h.cap.getD 0) n t s else s
  | 6, _ => hardStop n t s
  | 7, _ => if rest ∧ s.mot[n].run.isNone then homeDone n s else s
  | _, _ => s

/-! ### Commit (R140, R152) -/

/-- Is the pending HOME set invalid, and at which register first (R152)? -/
def homeCheck (s : State) (n : Fin 16) : Option Nat :=
  let w := ir s .home n.val 0
  let l := ir s .home n.val 4
  let m := fld w 0 4
  let p := fun o => f32Pos (ir s .home n.val o)
  firstBad [
    (decide (8 < m) || homingOn s n, 0),
    (bit l 5 && bit l 13 && fld l 0 5 == fld l 8 5, 4),
    (decide (3 ≤ m) && !(p 8), 8),
    (decide (3 ≤ m) && (!(p 0xC) || decide (f32 (ir s .home n.val 8) < f32 (ir s .home n.val 0xC))), 0xC),
    (decide (3 ≤ m) && !(p 0x10), 0x10), (decide (3 ≤ m) && !(p 0x14), 0x14),
    (bit l 15 && decide (i64Of (ir s .home n.val 0x30) (ir s .home n.val 0x34) ≤ i64Of (ir s .home n.val 0x38) (ir s .home n.val 0x3C)), 0x30),
    (m == 8 && decide ((ir s .home n.val 0x40).toInt ≤ 0), 0x40)]

/-- HOME commit of an axis. -/
def homeCommit (n : Fin 16) (s : State) : State :=
  let bad := homeCheck s n
  let s := bwBit s .home 0x10 n.val false
  match bad with
  | some o => ev 5 n.val 0x4A n.val [wd o] s
  | none =>
    let s := if fld (ir s .home n.val 0) 0 4 ≠ homeMethod s n then homedLost 3 n s else s
    copySet .home n.val s

end Sys2Proof.Machine
end

