-- ==== Sys2Proof/Machine/Pwm.lean ====
section
/-!
DEFINITION. The PWM generator (spec 09, 01 R22-R25, 06 R169-R171): edges of one period, delivery, force, trips, group
off and the duty watchdog, the PWM commit, and the meanings of the PWM commands.
-/
namespace Sys2Proof.Machine

/-! ### Edges of one period (R220, R222-R226) -/

/-- The edge fields that govern a computation: P, PRESC, CMODE edge-aligned, DTH, DTL, MINP, MPOL STRETCH, BSMIN, BSK. -/
structure EdgeCfg where
  p : Int
  presc : Int
  edge : Bool
  dth : Int
  dtl : Int
  minp : Int
  stretch : Bool
  bsmin : Int
  bsk : Nat
  deriving DecidableEq, Repr

/-- The active edge fields of an axis. -/
def edgeCfg (s : State) (n : Fin 16) : EdgeCfg :=
  let gt := ar s .pwm (16 + (grpOf n).val) 0
  let dt := ar s .pwm n.val 4
  let bs := ar s .pwm n.val 0xC
  { p := ticksOf gt, presc := prescOf gt, edge := bit gt 22, dth := fld dt 0 10, dtl := fld dt 16 10,
    minp := fld (ar s .pwm n.val 8) 0 10, stretch := bit (ar s .pwm n.val 0) 0, bsmin := fld bs 0 10, bsk := fld bs 16 4 }

/-- ACCLIM of R226. -/
def EdgeCfg.acclim (c : EdgeCfg) : Int := 16 * (c.dth + c.dtl + c.minp + c.bsmin + 16)

/-- Start of the high-side owned interval (R220). -/
def EdgeCfg.start (c : EdgeCfg) (d : Int) : Int := if c.edge then 0 else (c.p - d) / 2

/-- What the procedure of R226 yields: D', low pulse present, refresh period, accumulator, nref, counts of MPCNT, and
accumulator saturated. -/
structure EdgeCalc where
  d : Int
  lowOn : Bool
  refresh : Bool
  acc : Int
  nref : Nat
  mp : Nat
  sat : Bool
  deriving DecidableEq, Repr

/-- The cap of R225: D and whether it was applied. -/
def capLow (c : EdgeCfg) (x : Slot) (d : Int) : Int × Nat :=
  if !c.edge && x.lowprev then
    let smin := x.lprev - (c.p - x.sprev - x.dprev - c.dtl)
    if 0 < smin then (max 0 (min d (c.p - 2 * smin)), 1) else (d, 0)
  else (d, 0)

/-- The high-pulse rule of R226: D and the count. -/
def highRule (c : EdgeCfg) (d : Int) : Int × Nat :=
  if 0 < d ∧ d - c.dth ≤ 0 then (0, 0)
  else if 0 < d ∧ d - c.dth < c.minp then (if c.stretch then c.minp + c.dth else 0, 1)
  else (d, 0)

/-- The low-pulse rule of R226: D, low pulse present and the count. -/
def lowRule (c : EdgeCfg) (d : Int) : Int × Bool × Nat :=
  if d < c.p then
    if c.p - d - c.dtl ≤ 0 then (d, false, 0)
    else if c.p - d - c.dtl < c.minp then
      if c.stretch then (c.p - c.dtl - c.minp, true, 1) else (d, false, 1)
    else (d, true, 0)
  else (d, false, 0)

/-- The procedure of R226 for one slot in one period with the ON field of its word; bsen is its BSEN bit. -/
def edgeProc (c : EdgeCfg) (bsen : Bool) (x : Slot) (on : Nat) : EdgeCalc :=
  let q := (on : Int) * c.presc + x.acc
  let d0 := iclamp 0 c.p (q / 16)
  let (d1, m1) := capLow c x d0
  let refresh := bsen && c.bsk != 0 && decide (0 < c.bsmin) && decide (c.bsk - 1 ≤ x.nref)
  let d2 := if refresh then min d1 (c.p - c.dtl - c.bsmin) else d1
  let (d3, m3) := highRule c d2
  let (d4, lowOn, m4) := lowRule c d3
  let e := q - 16 * d4
  let acc := iclamp (-c.acclim) c.acclim e
  let nref := if lowOn ∧ c.bsmin ≤ c.p - d4 - c.dtl then 0 else x.nref + 1
  { d := d4, lowOn := lowOn, refresh := refresh, acc := acc, nref := nref, mp := m1 + m3 + m4
    sat := decide (acc = c.acclim ∨ acc = -c.acclim) }

/-- A tick as an edge-time field. -/
def tick (x : Int) : BitVec 24 := BitVec.ofInt 24 x

/-- What the computation of a period gives for its edges: the record, a second on-edge of the low side, and for the next period the switches
on at its start and the tick at which a low pulse that has begun turns on. -/
structure PulseRec where
  r : SlotRec
  lon2 : BitVec 24
  endH : Bool
  endL : Bool
  lonAt : Option Nat
  deriving DecidableEq, Repr

/-- A low-side interval that begins at tick b with the switch off: its on-edge in this period, or its tick in the next one (R224, R225). -/
def lowOnset (c : EdgeCfg) (b : Int) : BitVec 24 × Bool × Option Nat :=
  if b + c.dtl < c.p then (tick (b + c.dtl), true, none) else (noEdge, false, some (b + c.dtl - c.p).toNat)

/-- The edges of a period with high-side owned time d (R224): a switch off at the start of its interval turns on after its dead time, one
that is on stays on, and each turns off at the end of its interval. A low pulse of the period before goes on to a, after its dead time. -/
def pwmRec (c : EdgeCfg) (x : Slot) (lowOn : Bool) (d : Int) : PulseRec :=
  let a := c.start d
  let b := a + d
  let late := match x.lonAt with | some k => if (k : Int) < a then tick k else noEdge | none => noEdge
  let low := x.endL || late != noEdge
  if 0 < d then
    let carry := x.endH && a == 0
    let stl := x.endL && decide (0 < a)
    let (lon, endL, lonAt) := if lowOn then lowOnset c b else (noEdge, false, none)
    { r := { sth := carry, stl := stl
             hon := if carry then noEdge else if a + c.dth < b then tick (a + c.dth) else noEdge
             hoff := if b < c.p then tick b else noEdge
             lon := if late == noEdge then lon else late
             loff := if low && decide (0 < a) then tick a else noEdge }
      lon2 := if late == noEdge then noEdge else lon
      endH := decide (b = c.p), endL := endL, lonAt := lonAt }
  else if lowOn then
    match x.endL, x.lonAt with
    | true, _ => { r := { recOff with stl := true }, lon2 := noEdge, endH := false, endL := true, lonAt := none }
    | false, some k => { r := { recOff with lon := tick k }, lon2 := noEdge, endH := false, endL := true, lonAt := none }
    | false, none =>
      let (lon, endL, lonAt) := lowOnset c a
      { r := { recOff with lon := lon }, lon2 := noEdge, endH := false, endL := endL, lonAt := lonAt }
  else
    { r := { recOff with stl := x.endL && decide (0 < a), lon := late, loff := if low && decide (0 < a) then tick a else noEdge }
      lon2 := noEdge, endH := false, endL := false, lonAt := none }

/-- The record of a slot whose one switch is on for the whole period, after its dead time dt if it was off (LOW, forces). -/
def holdRec (high was : Bool) (dt : Int) : SlotRec :=
  if high then { recOff with sth := was, hon := if was then noEdge else tick dt }
  else { recOff with stl := was, lon := if was then noEdge else tick dt }

/-- Tick at which the low side of a slot that is to be on all period turns on: after its dead time, which may be under way. -/
def lowDead (c : EdgeCfg) (x : Slot) : Int := match x.lonAt with | some k => k | none => c.dtl

/-- Code of a duty word, 3 taken as OFF (Table 9-1). -/
def dutyCode (w : Word) : Nat := let k := fld w 30 2; if k = 3 then 1 else k

/-- The slot after the computation of one period from its frozen word and force state, with the pin polarities of the axis (R222-R226,
R231), and the procedure's counts where it ran. -/
def slotCompute (c : EdgeCfg) (bsen service : Bool) (force pol : Nat) (w : Word) (x : Slot) : Slot × Option EdgeCalc :=
  let edge := fun (kind : SlotKind) (r : SlotRec) => ({ kind := kind, r := r, lon2 := noEdge, word := w, pol := pol } : Edge)
  if service ∧ force ≠ 0 then
    let r := if force = 1 then holdRec true x.endH c.dth else if force = 2 then holdRec false x.endL (lowDead c x) else recOff
    ({ x with acc := 0, nref := x.nref + 1, lowprev := false, endH := force == 1, endL := force == 2, lonAt := none,
              next := edge .forced r }, none)
  else if service ∨ dutyCode w = 1 then
    ({ x with acc := 0, nref := x.nref + 1, lowprev := false, endH := false, endL := false, lonAt := none,
              next := edge .off recOff }, none)
  else if dutyCode w = 2 then
    ({ x with acc := 0, nref := 0, lowprev := true, sprev := c.start 0, dprev := 0, lprev := c.minp,
              endH := false, endL := true, lonAt := none, next := edge .low (holdRec false x.endL (lowDead c x)) }, none)
  else
    let e := edgeProc c bsen x (fld w 0 24)
    let q := pwmRec c x e.lowOn e.d
    ({ x with acc := e.acc, nref := e.nref, sprev := c.start e.d, dprev := e.d, lowprev := e.lowOn,
              lprev := if e.refresh then c.bsmin else c.minp, endH := q.endH, endL := q.endL, lonAt := q.lonAt,
              next := { edge .pwm q.r with lon2 := q.lon2 } }, some e)

/-- Edge computation of one slot of an axis, with the counters MPCNT, BSCNT and ACCSAT (R226, R227). -/
def axisSlot (n : Fin 16) (k : Fin 4) (s : State) : State :=
  let service := mode s == mService
  let c := edgeCfg s n
  let bsen := bit (ar s .pwm n.val 0) (4 + k.val)
  let x := s.pwmA[n].slots[k]
  let (y, e) := slotCompute c bsen service (fld (ir s .pwm n.val 0x100) (2 * k.val) 2) (fld (ar s .pwm n.val 0) 1 2) s.pwmA[n].frozen[k] x
  let s := modPa n (fun p => { p with slots := p.slots.set k.val y }) s
  match e with
  | none => iwBit s .pwm n.val 0x240 (12 + k.val) false
  | some e =>
    let o := 0x260 + 4 * (k.val / 2)
    let s := iw s .pwm n.val o (satAdd (ir s .pwm n.val o) (16 * (k.val % 2)) 16 e.mp)
    let s := if e.refresh then iw s .pwm n.val 0x268 (satWord ((ir s .pwm n.val 0x268).toNat + 1)) else s
    iwBit s .pwm n.val 0x240 (12 + k.val) e.sat

/-- The axis's switches are held off: group off or a latched trip (Table 9-6). -/
def heldOff (s : State) (n : Fin 16) : Bool :=
  bit (br s .pwm 0) (20 + (grpOf n).val) || bit (br s .pwm 0) n.val || bit (br s .pwm 0) (16 + (grpOf n).val)

/-- A latched trip of unit u waits only for an accepted clear (R235). -/
def clearing (s : State) (n : Fin 16) : Bool :=
  !(bit (br s .pwm 0) (20 + (grpOf n).val)) && (!(bit (br s .pwm 0) n.val) || s.pwmA[n].clear) &&
    (!(bit (br s .pwm 0) (16 + (grpOf n).val)) || s.pwmG[grpOf n].clear)

/-- The SCHED frame of a group-0 period of the ZX-1604M (spec 10 Table 10-3): REL for the first period in which the
switches may act again, FORCED in SERVICE, and OFF records for an axis that stays held off. -/
def shipSched (pidx : Nat) (s : State) : State :=
  if hasDrive s && s.drv.locked then
    let recs := (grpAxes 0).flatMap fun n =>
      s.pwmA[n].slots.toList.map fun x => if heldOff s n && !(clearing s n) then recOff else x.next.r
    let f : SchedFrame :=
      { rel := s.drv.relDue != 0, forced := mode s == mService && recs.any (fun r => r != recOff),
        seq := BitVec.ofNat 8 s.drv.seq, pidx := BitVec.ofNat 16 pidx, slots := recs }
    modDrv (fun d => { d with tx := some f, seq := d.seq + 1, relDue := 0, cfgDue := fld (br s .drv 0x10) 0 4 }) s
  else s

/-- EDGE_COMPUTE at t0 + T − 300 ns: the edges of period k + 2 from the frozen set (Table 1-5, R226), and the schedule of
drive-die axes. -/
def edgeCompute (g : Fin 4) (t : Nat) (s : State) : State :=
  let off := gT s g / 2 + gT s g - 300
  if afterPb s g t off then
    let pidx := (t - off - s.pwmG[g].start) / gT s g + 2
    let s := forEach (grpAxes g) (fun n s => forEach (List.finRange 4) (fun k s => axisSlot n k s) s) s
    if g = 0 then shipSched pidx s else s
  else s

/-- EDGE_COMPUTE (R226). -/
def execEdgeCompute (g : Fin 4) (t : Nat) (s : State) : Host.Outcome State Fault Refusal :=
  .next (edgeCompute g t (atTime t s))

/-! ### Duty deadline (01 R23-R25; 06 R169-R171; 09 R237) -/

/-- Duties and watches of an axis are counted: an active current kernel, in a mode in which triggers run (06 R169). -/
def counted (s : State) (n : Fin 16) : Bool := ckind s n != 0 && trigMode s

/-- The second consecutive miss of an axis that is active at the deadline t removes torque on the group and raises LATE_DUTY (01 R25, 06 R169); the
period boundary that the late duties were due at remembers which axes were active (06 R171). -/
def lateDutyCheck (g : Fin 4) (t : Nat) (s : State) : State :=
  let act := axMask (axActive s)
  let hit := fun (s : State) (n : Fin 16) => decide (2 ≤ s.pwmA[n].miss) && act.getLsbD n.val
  let s := if (grpAxes g).any (hit s) then modPg g (fun p => { p with lateAct := (t + 500, act) }) s else s
  forEach (grpAxes g) (fun n s =>
    if hit s n then
      let late := fld (ir s .loop n.val 0x280) 0 16
      raise 2 (mkCode 6 n.val 1) (grpMask g) n.val [wd g.val, wd late] (groupOff g (bwBit s .loop 0 (16 + g.val) true))
    else s) s

/-- WDLIM of a group. -/
def wdLim (s : State) (g : Fin 4) : Nat := fld (ar s .pwm (16 + g.val) 0xC) 0 8

/-- The duty watchdog of a group: the first axis whose count reached WDLIM puts the group into group off and raises
DUTY_WD, at level 2 while an axis of the group is active, else at level 0 (R237). -/
def dutyWdCheck (g : Fin 4) (s : State) : State :=
  if bit (br s .pwm 0) (24 + g.val) || wdLim s g == 0 then s
  else match (grpAxes g).find? (fun n => decide (wdLim s g ≤ s.pwmA[n].wd)) with
    | none => s
    | some n =>
      let act := grpActive s g
      let data := [wd n.val, wd (wdLim s g)]
      let s := iwBit (bwBit s .pwm 0 (24 + g.val) true) .pwm (16 + g.val) 0x240 17 true
      let s := modPg g (fun p => { p with wd0 := !act }) (groupOff g s)
      if act then raiseGrp 2 9 7 g data s else ev 9 g.val 7 noAxis data s

/-- The freeze of one axis at the duty deadline: the shadows where its mark has arrived, else the previous set repeats
and the axis is counted (R23, R169). A period whose centre t0 fell in BOOT, where no trigger is raised (06 R167), is not counted (DEDUCED).
DUTY_REPEATED names the period in which the deadline falls. -/
def freezeAxis (pidx t0 : Nat) (n : Fin 16) (s : State) : State :=
  let p := s.pwmA[n]
  let wdRuns := ckind s n != 0 && trigMode s && mode s != mService
  if p.mark then
    let s := modPa n (fun p => { p with frozen := p.shadow, mark := false, miss := 0, wd := 0 }) s
    iwBit s .loop n.val 0x290 4 false
  else
    let s := modPa n (fun p => { p with wd := if wdRuns then p.wd + 1 else p.wd }) s
    if counted s n ∧ s.helm.bootLeft ≤ t0 then
      let s := modPa n (fun p => { p with miss := p.miss + 1 }) s
      let s := iwSat s .loop n.val 0x280 0 16
      let s := iwBit (bwBit s .loop 0x20 n.val true) .loop n.val 0x290 4 true
      if p.miss = 0 then ev 6 n.val 3 n.val [wd (pidx + 1)] s else s
    else s

/-- DUTY_DEADLINE at t0 + T − 500 ns (R23). -/
def dutyDeadline (g : Fin 4) (t : Nat) (s : State) : State :=
  let off := gT s g / 2 + gT s g - 500
  if afterPb s g t off then
    let pidx := (t - off - s.pwmG[g].start) / gT s g
    dutyWdCheck g (lateDutyCheck g t (forEach (grpAxes g) (freezeAxis pidx (t + 500 - gT s g)) s))
  else s

/-- DUTY_DEADLINE (01 R23). -/
def execDutyDeadline (g : Fin 4) (t : Nat) (s : State) : Host.Outcome State Fault Refusal :=
  .next (dutyDeadline g t (atTime t s))
/-- LATE_DUTY: what the deadline's second consecutive miss does (01 R25); nothing more where the deadline has done it. -/
def execLateDuty (g : Fin 4) (t : Nat) (s : State) : Host.Outcome State Fault Refusal :=
  .next (lateDutyCheck g t (atTime t s))
/-- DUTY_WD: what the deadline's count reaching WDLIM does (R237); nothing more where the deadline has done it. -/
def execDutyWd (g : Fin 4) (t : Nat) (s : State) : Host.Outcome State Fault Refusal :=
  .next (dutyWdCheck g (atTime t s))

/-! ### Force registers (R230) -/

/-- Some slot of a force word holds state 3. -/
def forceBad (v : Word) : Bool := (List.range 4).any fun k => fld v (2 * k) 2 == 3

/-- A write of PWM_FORCE: only in SERVICE; a word with state 3 is rejected whole (R230). -/
def forceWrite (n : Fin 16) (v : Word) (s : State) : State :=
  if mode s ≠ mService then s
  else if forceBad v then ev 9 n.val 6 n.val [v] (bwBit s .pwm 0x1C n.val true)
  else iw s .pwm n.val 0x100 (v &&& 0xFF#32)

/-- PWM_FORCE_WRITE (R230). -/
def execPwmForceWrite (n : Fin 16) (v : Word) (s : State) : Host.Outcome State Fault Refusal := .next (forceWrite n v s)

/-! ### Trips (R232-R235) -/

/-- Instance of a trip unit: axis n, or 16 + g for TRIPG(g). -/
abbrev TripUnit := Fin 20
/-- Group of a trip unit. -/
def unitGrp (u : TripUnit) : Fin 4 := if h : u.val < 16 then grpOf ⟨u.val, h⟩ else ⟨u.val - 16, by omega⟩
/-- Axis of a trip unit. -/
def unitAx? (u : TripUnit) : Option (Fin 16) := if h : u.val < 16 then some ⟨u.val, h⟩ else none
/-- The trip unit of an axis. -/
def axUnit (n : Fin 16) : TripUnit := ⟨n.val, by omega⟩
/-- The trip unit of a group. -/
def grpUnit (g : Fin 4) : TripUnit := ⟨16 + g.val, by omega⟩

/-- Trip configuration of a unit: PWM_TRIP or PWM_GTRIP, active. -/
def tripCfg (s : State) (u : TripUnit) : Word := ar s .pwm u.val (if u.val < 16 then 0x10 else 8)
/-- The pin input of the source: EN = 1 and the pin at the polarity POL (R232). -/
def pinOn (s : State) (u : TripUnit) : Bool :=
  bit (tripCfg s u) 9 && xor (match unitAx? u with | some n => s.pwmA[n].pin | none => s.pwmG[unitGrp u].pin) (bit (tripCfg s u) 8)
/-- The trip source of a unit before its filter (R232). -/
def srcRaw (s : State) (u : TripUnit) : Bool :=
  pinOn s u || (match unitAx? u with | some n => s.pwmA[n].oc | none => false)
/-- The filtered trip source of a unit: PWM_TRIPIN (R232). -/
def srcOn (s : State) (u : TripUnit) : Bool := bit (br s .pwm 0x24) u.val
/-- The trip acts in this period. -/
def acting (s : State) (u : TripUnit) : Bool :=
  match unitAx? u with | some n => s.pwmA[n].acting | none => s.pwmG[unitGrp u].acting
/-- Put acting. -/
def setActing (u : TripUnit) (v : Bool) (s : State) : State :=
  match unitAx? u with
  | some n => modPa n (fun p => { p with acting := v }) s
  | none => modPg (unitGrp u) (fun p => { p with acting := v }) s
/-- An accepted clear waits for the boundary. -/
def clearDue (s : State) (u : TripUnit) : Bool :=
  match unitAx? u with | some n => s.pwmA[n].clear | none => s.pwmG[unitGrp u].clear
/-- Put it. -/
def setClear (u : TripUnit) (v : Bool) (s : State) : State :=
  match unitAx? u with
  | some n => modPa n (fun p => { p with clear := v }) s
  | none => modPg (unitGrp u) (fun p => { p with clear := v }) s
/-- Latched: PWM_STATUS.TLATCH or GLATCH. -/
def latched (s : State) (u : TripUnit) : Bool := bit (br s .pwm 0) u.val
/-- Put the latch bits. -/
def setLatched (u : TripUnit) (v : Bool) (s : State) : State :=
  iwBit (bwBit s .pwm 0 u.val v) .pwm u.val 0x240 (if u.val < 16 then 0 else 18) v
/-- TCNT of a unit. -/
def tcnt (s : State) (u : TripUnit) : Nat := fld (ir s .pwm u.val 0x240) (if u.val < 16 then 3 else 20) 8
/-- Put TCNT, saturating. -/
def setTcnt (u : TripUnit) (k : Nat) (s : State) : State :=
  iw s .pwm u.val 0x240 (setFld (ir s .pwm u.val 0x240) (if u.val < 16 then 3 else 20) 8 (min k 255))
/-- The filter accepts the source: PWM_TRIPIN and TIN follow. -/
def tinUpd (u : TripUnit) (s : State) : State :=
  iwBit (bwBit s .pwm 0x24 u.val (srcRaw s u)) .pwm u.val 0x240 (if u.val < 16 then 2 else 28) (srcRaw s u)

/-- The OFF target on the drive link that a unit of group 0 stands for. -/
def unitOff (u : TripUnit) : Nat := if u.val < 4 then 1 <<< u.val else if u.val = 16 then 16 else 0

/-- The trip acts: every switch of the axis or group turns off; the first period of an episode is logged, and a trip
that acts while TCNT equals N latches and raises the level-2 fault (R233, R234). -/
def tripAct (u : TripUnit) (s : State) : State :=
  if acting s u || mode s == mSleep || mode s == mBoot then s
  else
    let s := setActing u true s
    let s := if unitOff u ≠ 0 then sendOff (unitOff u) s else s
    let src := b2n (!(pinOn s u))
    let k := tcnt s u
    if latched s u then s
    else
      let s := if k = 0 then
          (match unitAx? u with
           | some n => ev 9 n.val 1 n.val [wd src] s
           | none => ev 9 (unitGrp u).val 3 noAxis [0#32] s)
        else s
      if k = fld (tripCfg s u) 16 8 then
        let s := setLatched u true s
        match unitAx? u with
        | some n => raise 2 (mkCode 9 n.val 2) (grpMask (unitGrp u)) n.val [wd src, wd k] s
        | none => raiseGrp 2 9 4 (unitGrp u) [wd k] s
      else s

/-- A trip source has shown its level for `held` ticks: its filter accepts it after FLEN of them, and one that becomes active acts (R232,
R233). -/
def srcChange (u : TripUnit) (held : Nat) (s : State) : State :=
  if held < fld (tripCfg s u) 0 8 then s
  else
    let s := tinUpd u s
    if srcOn s u then tripAct u s else s

/-- The clock that serves an axis runs: DIV ≠ 0, and not in SLEEP (07 R175, R176). -/
def sdClkOn (s : State) (n : Fin 16) : Bool := fld (ar s .sdm (16 + n.val / 2) 0) 0 8 != 0 && mode s != mSleep

/-- Output of a sinc2 filter of OSR r over modulator bits, newest first, 0 to r² (07 R182). -/
def sinc2 (r : Nat) (bits : List Bool) : Nat :=
  ((bits.take (2 * r - 1)).zipIdx.map fun x => if x.1 then min (x.2 + 1) (2 * r - 1 - x.2) else 0).foldl (· + ·) 0

/-- Side of the thresholds that the fast path of an axis sees for modulator bits: 1 above OCHI, 2 below OCLO, 0 between (07 R182). -/
def ocSide (s : State) (n : Fin 16) (bits : List Bool) : Nat :=
  let r := fld (ar s .sdm n.val 0) 8 6
  let th := ar s .sdm n.val 0x1C
  let x := roundFree 703 (((2 * sinc2 r bits : Nat) : Rat) * 32768 / ((r * r : Nat) : Rat) - 32768)
  if sext 16 (fld th 0 16) < x then 1 else if x < sext 16 (fld th 16 16) then 2 else 0

/-- The over-current side of input k of an axis becomes v: none while the input is off, FOSR is 0 or the clock stands (07 R182, R187). -/
def ocPut (n : Fin 16) (k : Fin 3) (v : Nat) (s : State) : State :=
  let cfg := ar s .sdm n.val 0
  let v := if bit cfg k.val && fld cfg 8 6 != 0 && sdClkOn s n then v else 0
  let s := modSdm n (fun x => { x with oc := x.oc.set k.val v }) s
  let s := if v = 1 then bwBit s .sdm 0x20 n.val true else if v = 2 then bwBit s .sdm 0x20 (16 + n.val) true else s
  let on := s.sdm[n].oc.toList.any (fun x => x != 0)
  modPa n (fun p => { p with oc := on }) s

/-- One evaluation of the fast path of input k at a modulator clock. -/
def ocEvent (n : Fin 16) (k : Fin 3) (bits : List Bool) (s : State) : State := ocPut n k (ocSide s n bits) s

/-- The sides of an axis are judged again after its configuration or its clock changed (07 R183, R187). -/
def ocAgain (n : Fin 16) (s : State) : State :=
  srcChange (axUnit n) 0 (forEach (List.finRange 3) (fun k s => ocPut n k s.sdm[n].oc[k] s) s)

/-- TRIP_ACTIVE (R232, R233). -/
def tripEvent (u : TripUnit) (src : TripSrc) (held : Nat) (s : State) : State :=
  srcChange u held (match src, unitAx? u with
    | .pin v, some n => modPa n (fun p => { p with pin := v }) s
    | .pin v, none => modPg (unitGrp u) (fun p => { p with pin := v }) s
    | .overCurrent k bits, some n => ocEvent n k bits s
    | .overCurrent _ _, none => s)

/-- TRIP_ACTIVE (R233). -/
def execTripActive (u : Fin 20) (src : TripSrc) (held : Nat) (t : Nat) (s : State) : Host.Outcome State Fault Refusal :=
  .next (tripEvent u src held (atTime t s))

/-- A clear of one unit: refused while the filtered source is active (R235). -/
def tripClear (u : TripUnit) (s : State) : State :=
  if !(latched s u) then s
  else if srcOn s u then
    let s := if u.val < 16 then bwBit s .pwm 0x1C (16 + u.val) true else bwBit s .pwm 0x20 (u.val - 16) true
    ev 9 u.val 5 (match unitAx? u with | some n => n.val | none => noAxis) [0#32] s
  else setClear u true (setTcnt u 0 s)

/-- A write of PWM_TRIPCLR. -/
def tripClrWrite (v : Word) (s : State) : State :=
  forEach (List.finRange 20) (fun u s => if bit v u.val then tripClear u s else s) s

/-- PWM_TRIPCLR (R235). -/
def execPwmTripclr (v : Word) (s : State) : Host.Outcome State Fault Refusal := .next (tripClrWrite v s)

/-- OUT_INTERLOCK on a pin half-bridge (R229). -/
def outInterlock (n : Fin 16) (k : Fin 4) (s : State) : State :=
  if hasDrive s && decide (n.val < 4) then s
  else raise 2 (mkCode 9 n.val 8) (grpMask (grpOf n)) n.val [wd k.val] (bwBit s .pwm 0x20 (4 + (grpOf n).val) true)

/-- OUT_INTERLOCK (R229). -/
def execOutInterlock (n : Fin 16) (slot : Fin 4) (t : Nat) (s : State) : Host.Outcome State Fault Refusal :=
  .next (outInterlock n slot (atTime t s))

/-! ### Commit (R221, R240, R241) -/

/-- T_R where the device takes part in a ring (15 R360). -/
def ringTR (s : State) : Option Nat :=
  if bit (ar s .ring 0 0) 0 ∧ fld (ar s .ring 0 4) 0 24 ≠ 0 then some (fld (ar s .ring 0 4) 0 24) else none

/-- What an axis set asks of P: DTH + DTL + 2 (MINP + BSMIN), BSMIN with refresh enabled (R241). -/
def needTicks (acfg dt minp bs : Word) : Nat :=
  let ref := fld acfg 4 4 != 0 && fld bs 16 4 != 0
  fld dt 0 10 + fld dt 16 10 + 2 * (fld minp 0 10 + (if ref then fld bs 0 10 else 0))

/-- Is the pending set of group g invalid, and at which register first (R221, R241)? -/
def grpCheck (s : State) (g : Fin 4) : Option Nat :=
  let i := 16 + g.val
  let gt := ir s .pwm i 0
  let ph := ir s .pwm i 4
  let p := ticksOf gt
  let n := fld gt 24 7
  let timing := gt != ar s .pwm i 0 || ph != ar s .pwm i 4
  let need := (grpAxes g).any fun a =>
    decide (p < needTicks (ar s .pwm a.val 0) (ar s .pwm a.val 4) (ar s .pwm a.val 8) (ar s .pwm a.val 0xC))
  let ringBad : Bool := match ringTR s with | some tr => decide (p ≠ 0 ∧ tr % (n * (2 * p)) ≠ 0) | none => false
  if (p ≠ 0 ∧ 2 * p < 6250) ∨ n = 0 ∨ 64 < n ∨ (p ≠ 0 ∧ n * (2 * p) < 25000) ∨ (gt ≠ ar s .pwm i 0 ∧ grpTq s g) ∨ (timing ∧ ringBad)
      ∨ (p ≠ 0 ∧ need) then some 0
  else if (ph ≠ ar s .pwm i 4 ∧ grpTq s g) ∨ (p ≠ 0 ∧ !(bit ph 31) ∧ p ≤ fld ph 0 24) then some 4
  else none

/-- Is the pending set of axis n invalid, and at which register first (R241)? -/
def axCheck (s : State) (n : Fin 16) : Option Nat :=
  let acfg := ir s .pwm n.val 0
  let bs := ir s .pwm n.val 0xC
  let minp := fld (ir s .pwm n.val 8) 0 10
  let ref := fld acfg 4 4 != 0 && fld bs 16 4 != 0
  let pol := fld acfg 1 2 != fld (ar s .pwm n.val 0) 1 2
  if pol ∧ tq s n then some 0
  else if gOn s (grpOf n) ∧ gTicks s (grpOf n) < needTicks acfg (ir s .pwm n.val 4) (ir s .pwm n.val 8) bs then some 4
  else if ref ∧ minp ≠ 0 ∧ fld bs 0 10 ≠ 0 ∧ fld bs 0 10 < minp then some 0xC
  else none

/-- The group stops at the commit boundary, all its switches off on pins and drive die, and restarts at the first watch boundary after it
with the new values (R221). -/
def grpRestart (g : Fin 4) (s : State) : State :=
  let start := nextWb s.now (gPhase s g) (gN s g * gT s g)
  let s := modPg g (fun p => { p with start := start, lastPb := none }) s
  let s := iw s .pwm (16 + g.val) 0x240 (setFld (ir s .pwm (16 + g.val) 0x240) 0 16 0)
  forEach (grpAxes g) (fun n s => modPa n (fun p => { p with slots := p.slots.map (fun x =>
    { x with endH := false, endL := false, lonAt := none, lowprev := false, next := edgeOff, cur := edgeOff }) })
    (if h : n.val < 4 then modDrv (fun d => { d with replay := [], slotOff := List.replicate 16 true, held := none, gateOff := upd4 d.gateOff ⟨n.val, h⟩ 0, idleAt := s.now }) s else s)) s

/-- PWM commit of an instance: refused whole, or copied; timing fields restart the group (R221, R240, R241). The first
PWM commit lets the pins leave the low level they have from power-up (R228). -/
def pwmCommit (i : TripUnit) (s : State) : State :=
  let bad := match unitAx? i with | some n => axCheck s n | none => grpCheck s (unitGrp i)
  let s := bwBit s .pwm 0x10 i.val false
  match bad with
  | some o => ev 9 i.val 9 (match unitAx? i with | some n => n.val | none => noAxis) [wd o] s
  | none =>
    let timing := decide (16 ≤ i.val) && (ir s .pwm i.val 0 != ar s .pwm i.val 0 || ir s .pwm i.val 4 != ar s .pwm i.val 4)
    let s := { copySet .pwm i.val s with pinsLow := false }
    let s := if timing then grpRestart (unitGrp i) s else s
    srcChange i 0 s

/-- The units of a group, axes first. -/
def grpUnits (g : Fin 4) : List TripUnit := (grpAxes g).map axUnit ++ [grpUnit g]

/-- PWM commits of the armed instances of a group, axes first. -/
def pwmCommits (g : Fin 4) (s : State) : State :=
  forEach (grpUnits g) (fun u s => if bit (br s .pwm 0x10) u.val then pwmCommit u s else s) s

/-! ### Period boundary (R234, R235, R237, R239) -/

/-- Release test and TCNT for the ending period, accepted clear, and a source still active acting in the new period. -/
def unitBoundary (u : TripUnit) (s : State) : State :=
  let was := acting s u
  let s := setTcnt u (if was then tcnt s u + 1 else 0) s
  let s := iwBit s .pwm u.val 0x240 (if u.val < 16 then 1 else 19) was
  let cleared := clearDue s u
  let s := if cleared then setClear u false (setTcnt u 0 (setLatched u false s)) else s
  let s := setActing u false s
  if srcOn s u then tripAct u s
  else if (was ∧ !(latched s u)) ∨ cleared then
    { s with drv := { s.drv with relDue := s.drv.relDue ||| unitOff u } }
  else s

/-- A group off by DUTY_WD at level 0 ends once every counted axis has sent its mark again (R237). -/
def wdRelease (g : Fin 4) (s : State) : State :=
  if s.pwmG[g].wd0 ∧ (grpAxes g).all (fun n => ckind s n == 0 || s.pwmA[n].wd == 0) then groupOn g s else s

/-- The computed edges of the axis become active; without a computation both switches stay off (Table 1-7 step 3). -/
def activate (n : Fin 16) (s : State) : State :=
  let p := s.pwmA[n]
  let s := modPa n (fun p => { p with slots := p.slots.map fun x => { x with cur := x.next, next := edgeOff } }) s
  let s := forEach (List.finRange 4) (fun k s => iw s .pwm n.val (0x250 + 4 * k.val) p.slots[k].next.word) s
  iwBit s .pwm n.val 0x240 11 (p.slots.toList.any fun x => x.next.kind == .forced)

/-- Steps 3 and 4 of Table 1-7 at a period boundary of group g, in the order of Table 9-7. -/
def pwmBoundary (g : Fin 4) (t : Nat) (s : State) : State :=
  let pidx := (t - s.pwmG[g].start) / gT s g
  let s := iw s .pwm (16 + g.val) 0x240 (setFld (ir s .pwm (16 + g.val) 0x240) 0 16 pidx)
  let s := forEach (grpUnits g) unitBoundary s
  let s := wdRelease g s
  let s := if g = 0 then driveBoundary pidx s else s
  let s := forEach (grpAxes g) activate s
  pwmCommits g s

/-! ### The state of a half-bridge (R228, R238, Table 9-6) -/

/-- What the active edges of a slot command at a tick of the period: the high and the low switch. -/
def edgeState (x : Edge) (k : Nat) : Bool × Bool :=
  (swFrom x.r.sth x.r.hon x.r.hoff k,
   swFrom x.r.stl x.r.lon x.r.loff k || (x.lon2 != noEdge && decide (x.lon2.toNat ≤ k)))

/-- The high and the low switch of a half-bridge at ship time t, by the first row of Table 9-6 that applies: group off, a latched trip and a
trip that acts turn both off; then the force or the computed edges; the output interlock never lets both on. In SLEEP and BOOT, and in a
stopped group, both are off (R242, R243). -/
def bridgeState (s : State) (n : Fin 16) (k : Fin 4) (t : Nat) : Bool × Bool :=
  let g := grpOf n
  if mode s == mSleep || mode s == mBoot || !(gOn s g) || heldOff s n || s.pwmA[n].acting || s.pwmG[g].acting then (false, false)
  else match s.pwmG[g].lastPb with
    | none => (false, false)
    | some b =>
      let (h, l) := edgeState s.pwmA[n].slots[k].cur ((t - b) / 2)
      if h && l then (false, false) else (h, l)

/-- HPOL and LPOL in force on the pins of a slot: those of its edges, or of the active set where no edges are computed (R228, R240). -/
def pinPol (s : State) (n : Fin 16) (k : Fin 4) : Nat :=
  let x := s.pwmA[n].slots[k].cur
  if gOn s (grpOf n) && x.kind != .off then x.pol else fld (ar s .pwm n.val 0) 1 2

/-- Level of pin PWnn_sH (high) or PWnn_sL at ship time t: off is the inverse of the active level; before the first PWM commit every pin is
low (R228). Axes 0-3 of the ZX-1604M have no pins. -/
def pwmPin (s : State) (n : Fin 16) (k : Fin 4) (high : Bool) (t : Nat) : Bool :=
  let (h, l) := bridgeState s n k t
  !s.pinsLow && xor (if high then h else l) (Nat.testBit (pinPol s n k) (if high then 0 else 1))

end Sys2Proof.Machine
end

