-- ==== Sys2Proof/Machine/Faults.lean ====
section
/-!
DEFINITION. Acknowledges (spec 02 R57, R58): which causes are still present, what clearing a fault ends, and the acknowledge
of a set of faults.
-/
namespace Sys2Proof.Machine

/-- UNCERTAIN of a channel clears only with its cause: mode 1 with LINES ≠ 0 and serial modes (08 R202). -/
def uncertainHolds (s : State) (c : Fin 16) : Bool :=
  bit (encStat s c) 1 && (idxChecked s c || encMode s c == 3 || encMode s c == 4)

/-- The cause of a fault is still present, so that its acknowledge is refused (R58 and the rules it points to). -/
def causePresent (s : State) (f : FaultRec) : Bool :=
  let i := codeInst f.code
  let n : Fin 16 := ⟨i % 16, Nat.mod_lt _ (by decide)⟩
  let g : Fin 4 := ⟨i % 4, Nat.mod_lt _ (by decide)⟩
  match codeCls f.code, codeNum f.code with
  | 0, 4 => (sealOf s) == 3 || decide (5 ≤ sealOf s)
  | 0, 6 | 0, 8 | 2, 3 | 2, 4 => true
  | 1, 2 => !(bit (br s .chron 0) 9)
  | 1, 3 => !(bit (br s .chron 0) i)
  | 3, 0x10 => frozen s i
  | 5, 0x45 => (s.homing[n].limP && decide (0 < s.env[n].vy)) || (s.homing[n].limN && decide (s.env[n].vy < 0))
  | 5, 0x46 => s.homing[n].limP && s.homing[n].limN
  | 5, 0x47 => (chatOver s n s.now).isSome
  | 6, 7 => s.loop[n].follow
  | 7, 2 => uncertainHolds s n
  | 7, 4 => !(wireOk s n s.now)
  | 8, 1 => s.sdm[n].stuck.toList.getD (f.data.getD 0 0).toNat false
  | 8, 0x10 => bit (ir s .hk (f.data.getD 0 0).toNat 0x240) 16
  | 8, 0x11 => bit (ir s .hk (f.data.getD 0 0).toNat 0x240) 17
  | 9, 2 => srcOn s (axUnit n)
  | 9, 4 => srcOn s (grpUnit g)
  | 0xA, 1 => !s.drv.locked
  | 0xA, 3 => s.drv.lost
  | 0xA, 9 => s.drv.vgd == 1
  | 0xA, 0xA => s.drv.vgd == 2
  | 0xA, 0xB => s.drv.vbrOv[g]
  | 0xB, 1 => !(bit (br s .fio 0) 0)
  | 0xB, 3 => bit (br s .fio 0) 1
  | 0xB, 4 | 0xB, 5 => !s.fio.settled
  | 0xD, 7 => s.ring.lost
  | 0xD, 0xA => !(bit (br s .ring 0) 3)
  | 0xE, k => s.safe.faults.contains (k, i)
  | _, _ => false

/-- What ends with a fault that is cleared: a latched trip (09 R235), a latched CHATTER (05 R128), a halted cluster (11 R294). -/
def clearEnds (f : FaultRec) (s : State) : State :=
  let i := codeInst f.code
  let n : Fin 16 := ⟨i % 16, Nat.mod_lt _ (by decide)⟩
  let g : Fin 4 := ⟨i % 4, Nat.mod_lt _ (by decide)⟩
  match codeCls f.code, codeNum f.code with
  | 5, 0x47 => modHom n (fun h => { h with chatter := false }) s
  | 9, 2 => tripClear (axUnit n) s
  | 9, 4 => tripClear (grpUnit g) s
  | 6, 0x10 | 6, 0x11 | 6, 0x12 | 6, 0x13 => if s.clu[g].state = .halted then cluRestart g s else s
  | _, _ => s

/-- A level-1 fault stands on an axis. -/
def l1Stands (s : State) (n : Fin 16) : Bool := s.helm.latched.any (fun f => f.level == 1 && f.hits n)

/-- After an acknowledge: an axis whose level-1 stop has no fault left is DISABLED (R58); a group whose level-2 faults are
gone leaves group off (09 R236); FIRST is empty once no fault of level 1 or above stands (R56). -/
def ackSettle (s : State) : State :=
  let s := forEach allAxes (fun n s => if s.ax[n].faultStop ∧ !(l1Stands s n) then torqueOff n s else s) s
  let s := forEach allGroups (fun g s =>
    if bit (br s .pwm 0) (20 + g.val) && !(s.pwmG[g].wd0) && !((grpAxes g).any (l2Stands s)) then groupOn g s else s) s
  let s := if s.helm.latched.isEmpty then setPt s 3 0#32 else s
  sumUpd (faultnUpd s)

/-- Acknowledge of the faults that a test covers and that were logged before ship time t, each on the axes of its mask: those whose
cause is gone are cleared on those axes, the others stay; the code of the first that stays, which is logged once (R57, R58). -/
def acknowledge (covers : FaultRec → Bool) (mask : FaultRec → BitVec 16) (t : Nat) (s : State) : Option (BitVec 16) × State :=
  let cov := fun (f : FaultRec) => covers f && decide (f.time < t)
  let stay := s.helm.latched.filter (fun f => cov f && causePresent s f)
  let gone := s.helm.latched.filter (fun f => cov f && !(causePresent s f))
  let keep := s.helm.latched.filterMap fun f =>
    if cov f && !(causePresent s f) then
      let m := f.axes &&& ~~~ (mask f)
      if m = 0#16 then none else some { f with axes := m }
    else some f
  let s := { s with helm := { s.helm with latched := keep } }
  let s := ackSettle (forEach gone clearEnds s)
  match stay with
  | [] => (none, s)
  | f :: _ => (some f.code, ev 0 0 0xA noAxis [wd f.code.toNat] s)

/-- UNCERTAIN of the channels that an acknowledge covers and for which the last row of 08 R202 applies. -/
def ackUncertain (covers : Fin 16 → Bool) (s : State) : State :=
  forEach allAxes (fun c s =>
    let inc := (encMode s c == 1 && fld (ar s .enc c.val 8) 0 24 == 0) || encMode s c == 2
    if inc && bit (encStat s c) 1 && covers c then clearUncertain c s else s) s

/-- AX_CMD.ACK on an axis at boundary t: level 1 on the axis, level 2 on its group (R57). -/
def ackAxis (n : Fin 16) (t : Nat) (s : State) : State :=
  let s := ackUncertain (fun c => usesCh s c n) s
  (acknowledge (fun f => (f.level == 1 || f.level == 2) && f.hits n) (fun f => if f.level = 1 then 1#16 <<< n.val else grpMask (grpOf n)) t s).2

end Sys2Proof.Machine
end

