-- ==== Sys2Proof/Machine/Sensing.lean ====
section
/-!
DEFINITION. Sigma-delta current sensing and housekeeping (spec 07): samples, stuck inputs, SDM and HK commits,
housekeeping results, and the meanings of SD_STUCK and HK_CONVERSION.
-/
namespace Sys2Proof.Machine

/-! ### Sigma-delta (R175-R183, R189) -/

/-- Ticks of 2 ns for which clock output SDC of an axis is high and low in one period: with an odd DIV the high phase is one tick longer (R175). -/
def sdcTicks (s : State) (n : Fin 16) : Nat × Nat :=
  let d := fld (ar s .sdm (16 + n.val / 2) 0) 0 8
  ((d + 1) / 2, d / 2)

/-- Level of the clock output that serves an axis at ship time t; low while the clock stands (R175, R176). -/
def sdcLevel (s : State) (n : Fin 16) (t : Nat) : Bool :=
  let (h, l) := sdcTicks s n
  sdClkOn s n && decide ((t - s.sdm[n].clk0) / 2 % (h + l) < h)

/-- Bits of a data line as the clock edge selected by EDGE samples them (R175). -/
def sdEdge (s : State) (n : Fin 16) (raw : SdRaw) : List Bool := if bit (ar s .sdm (16 + n.val / 2) 0) 8 then raw.fall else raw.rise

/-- Pairs of numbers up to m: (m + 1)(m + 2) / 2, 0 for a negative m. -/
def tri (m : Int) : Int := if m < 0 then 0 else (m + 1) * (m + 2) / 2

/-- Output of a sinc3 decimator of OSR r over modulator bits, newest first, 0 to r³ (R177, R181). Bits from before the clock ran count 0 (DESIGN CHOICE,
log entry 58). -/
def sinc3 (r : Nat) (bits : List Bool) : Nat :=
  let w := fun (i : Nat) => tri i - 3 * tri ((i : Int) - r) + 3 * tri ((i : Int) - 2 * r)
  (((bits.take (3 * r - 2)).zipIdx.map fun x => if x.1 then w x.2 else 0).foldl (· + ·) (0 : Int)).toNat

/-- Longest history of a line: three intervals of the monitor decimator at MOSR 256 and one more. -/
def bitKeep : Nat := 1024

/-- Input k of an axis is enabled and clocked. -/
def sdOn (s : State) (n : Fin 16) (k : Fin 3) : Bool := bit (ar s .sdm n.val 0) k.val && sdClkOn s n

/-- The sense inputs a current kernel reads (06 Table 6-1); for CKIND 8 those enabled (R180). -/
def readsInput (s : State) (n : Fin 16) (k : Fin 3) : Bool :=
  match ckind s n with
  | 1 | 2 | 3 | 4 => true
  | 5 => k == 0
  | 6 | 7 => k != 2
  | 8 => bit (ar s .sdm n.val 0) k.val
  | _ => false

/-- The coefficient sources of an axis as they stand: KS0 to KS2 and AX_IFS, active (R179). -/
def coefNow (s : State) (n : Fin 16) : List Word :=
  [ar s .sdm n.val 4, ar s .sdm n.val 8, ar s .sdm n.val 0xC, ar s .loop n.val 4]

/-- Form the coefficients of an axis (R179). -/
def formCoef (n : Fin 16) (s : State) : State := modSdm n (fun x => { x with coef := coefNow s n }) s

/-- I = r / 2,048 × KS / AX_IFS − OFS, rounded to the nearest Q1.31 code, halves up, saturated; 0 where AX_IFS is not a
positive finite number (R177, R179). -/
def sdScale (ks ifs ofs : Word) (yk yk1 : Nat) : Word :=
  if f32Pos ifs then
    let r : Int := 2 * (yk : Int) - yk1 - 2048
    let x : Rat := (r : Rat) / 2048 * f32 ks / f32 ifs * pow2 31 - (ofs.toInt : Rat)
    BitVec.ofInt 32 (sat32 (x + mkRat 1 2).floor)
  else 0#32

/-- New bits of input k of an axis, oldest first, while its clock runs: the history, and the free-running monitor decimator, whose output is taken each MOSR
clocks, centred on 0 (R181). -/
def sdFeed (n : Fin 16) (k : Fin 3) (new : List Bool) (s : State) : State :=
  if !(sdClkOn s n) then s
  else
    let m := fld (ar s .sdm n.val 0) 16 9
    let old := s.sdm[n].count[k]
    let cnt := old + new.length
    let s := modSdm n (fun x => { x with bits := x.bits.set k.val ((new.reverse ++ x.bits[k]).take bitKeep), count := x.count.set k.val cnt }) s
    if m ≠ 0 ∧ old / m ≠ cnt / m then
      iw s .sdm n.val (0x24C + 4 * k.val) (BitVec.ofInt 32 ((sinc3 m (s.sdm[n].bits[k].drop (cnt % m)) : Int) - (m * m * m / 2 : Nat)))
    else s

/-- y_k, or y_{k-1} sixteen clocks before, of the current decimator (R177). -/
def sdRaw (s : State) (n : Fin 16) (k : Fin 3) (back : Nat) : Nat := sinc3 16 (s.sdm[n].bits[k].drop back)

/-- The sample of input k of an axis for the period, delivered to SDM_SAMPk (R177, R180): the raw value is judged in every period, a stuck input's sample is
held. -/
def sdSample (n : Fin 16) (k : Fin 3) (raw : SdRaw) (s : State) : State :=
  let o := 0x240 + 4 * k.val
  let s := sdFeed n k (sdEdge s n raw) s
  if !(sdOn s n k) then iw s .sdm n.val o 0#32
  else
    let y := sdRaw s n k 0
    let out := y == 0 || y == 4096
    let first := out && !(s.sdm[n].ovr[k])
    let s := modSdm n (fun x => { x with ovr := x.ovr.set k.val out }) s
    let s := if first then ev 8 n.val 2 n.val [wd k.val, wd y] s else s
    let c := s.sdm[n].coef
    if s.sdm[n].stuck[k] then s
    else iw s .sdm n.val o (sdScale (c.getD k.val 0#32) (c.getD 3 0#32) (ar s .sdm n.val (0x10 + 4 * k.val)) y (sdRaw s n k 16))

/-- Line levels of input k of an axis in a list for its group. -/
def rawOf (raws : List SdRaw) (n : Fin 16) (k : Fin 3) : SdRaw := raws.getD (3 * (n.val % 4) + k.val) { rise := [], fall := [] }

/-- The samples of an axis at a period centre: new coefficients where LOOP_IFS changed, then the three inputs. -/
def sdAxis (n : Fin 16) (raws : List SdRaw) (s : State) : State :=
  let s := if s.sdm[n].coef ≠ [] ∧ s.sdm[n].coef.getD 3 0#32 ≠ ar s .loop n.val 4 then formCoef n s else s
  forEach (List.finRange 3) (fun k s => sdSample n k (rawOf raws n k) s) s

/-- Bits of an axis of a stopped group: the monitor decimators run on. -/
def sdIdle (n : Fin 16) (raws : List SdRaw) (s : State) : State :=
  forEach (List.finRange 3) (fun k s => sdFeed n k (sdEdge s n (rawOf raws n k)) s) s

/-- SD_STUCK: the data line of input k has made no transition for a number of clocks while its clock runs; 64 are a stuck input, fewer end the condition
(R180). -/
def sdStuck (n : Fin 16) (k : Fin 3) (clocks : Nat) (s : State) : State :=
  if clocks < 64 then modSdm n (fun x => { x with stuck := x.stuck.set k.val false }) s
  else if !(sdClkOn s n) || s.sdm[n].stuck[k] then s
  else
    let i := 3 * n.val + k.val
    let s := modSdm n (fun x => { x with stuck := x.stuck.set k.val true }) s
    let s := if i < 32 then bwBit s .sdm 0x24 i true else bwBit s .sdm 0x28 (i - 32) true
    if readsInput s n k && axActive s n then raiseAx 2 8 1 n [wd k.val, wd i] s else ev 8 n.val 1 n.val [wd k.val, wd i] s

/-- SD_STUCK (R180). -/
def execSdStuck (n : Fin 16) (k : Fin 3) (clocks t : Nat) (s : State) : Host.Outcome State Fault Refusal :=
  .next (sdStuck n k clocks (atTime t s))

/-- Is the pending SDM set of axis n invalid, and at which register first (R189)? -/
def sdmCheck (s : State) (n : Fin 16) : Option Nat :=
  let c := ir s .sdm n.val 0
  let fosr := fld c 8 6
  let mosr := fld c 16 9
  let th := ir s .sdm n.val 0x1C
  firstBad [
    (decide ((0 < fosr ∧ fosr < 4) ∨ 32 < fosr ∨ (0 < mosr ∧ mosr < 16) ∨ 256 < mosr), 0),
    (bit c 0 && !(f32Pos (ir s .sdm n.val 4)), 4), (bit c 1 && !(f32Pos (ir s .sdm n.val 8)), 8),
    (bit c 2 && !(f32Pos (ir s .sdm n.val 0xC)), 0xC),
    (fosr != 0 && decide (sext 16 (fld th 0 16) ≤ sext 16 (fld th 16 16)), 0x1C)]
where
  /-- The offset of the first failing check. -/
  firstBad : List (Bool × Nat) → Option Nat
    | [] => none
    | (true, o) :: _ => some o
    | (false, _) :: l => firstBad l

/-- SDM commit of an axis instance. -/
def sdmCommit (n : Fin 16) (s : State) : State :=
  let bad := sdmCheck s n
  let s := bwBit s .sdm 0x10 n.val false
  match bad with
  | some o => ev 8 n.val 3 n.val [wd o] s
  | none => ocAgain n (formCoef n (copySet .sdm n.val s))

/-- The clock of an axis runs anew with another DIV, or stands: bit histories begin anew, and without a clock no input is stuck or over-current (R175, R187). -/
def sdClkAgain (n : Fin 16) (s : State) : State :=
  let on := sdClkOn s n
  let s := modSdm n (fun x => { x with clk0 := s.now, bits := Vector.replicate 3 [], count := Vector.replicate 3 0,
                                       stuck := if on then x.stuck else Vector.replicate 3 false }) s
  ocAgain n s

/-- SDM commit of clock c: refused for a DIV out of range, or changed while an axis it serves has torque on (R176). -/
def sdmClkCommit (c : Fin 8) (s : State) : State :=
  let i := 16 + c.val
  let d := fld (ir s .sdm i 0) 0 8
  let axes := allAxes.filter (fun n => n.val / 2 == c.val)
  let new := d != fld (ar s .sdm i 0) 0 8
  let bad := decide ((0 < d ∧ d < 20) ∨ 250 < d) || (new && axes.any (tq s))
  let s := bwBit s .sdm 0x10 i false
  if bad then ev 8 i 3 noAxis [0#32] s
  else
    let s := copySet .sdm i s
    if new then forEach axes sdClkAgain s else s

/-- SLEEP stops every modulator clock (R176). -/
def sdmSleep (s : State) : State := forEach allAxes sdClkAgain s

/-- SDM commits at a period boundary of group g: its armed axes, and clocks c with c div 2 = g. -/
def sdmCommits (g : Fin 4) (s : State) : State :=
  let s := forEach (grpAxes g) (fun n s => if bit (br s .sdm 0x10) n.val then sdmCommit n s else s) s
  forEach (List.finRange 8) (fun c s => if c.val / 2 = g.val ∧ bit (br s .sdm 0x10) (16 + c.val) then sdmClkCommit c s else s) s

/-! ### Housekeeping (R184-R186, R189) -/

/-- Step per code and value at raw 0 of a channel (Table 7-3). -/
def hkScale (c : Nat) : Rat × Rat :=
  if c < 3 then (mkRat 1 20, -55)
  else if c = 3 then (mkRat 12 1000, 0)
  else if c = 4 then (mkRat 1 4000, 0)
  else if c = 5 ∨ c = 7 ∨ c = 8 ∨ c = 10 then (mkRat 1 2000, 0)
  else if c = 9 then (mkRat 4 1000, 0)
  else if 12 ≤ c ∧ c < 16 then (mkRat 16 1000, 0)
  else (mkRat 1 1000, 0)

/-- The channel is converted: EN = 1; channels 0-2 always. -/
def hkOn (s : State) (c : Fin 24) : Bool := decide (c.val < 3) || bit (ar s .hk c.val 0) 0
/-- Channels 2 and 9 read 0 and are not checked on the ZX-1600M. -/
def hkAbsent (s : State) (c : Fin 24) : Bool := !(hasDrive s) && (c == 2 || c == 9)

/-- A result outside a limit at the level of Table 7-3. -/
def hkRaise (c : Fin 24) (num r : Nat) (s : State) : State :=
  let data := [wd c.val, wd r]
  if c.val = 10 ∨ c.val = 11 then raiseDev 3 8 0 num data s
  else if 12 ≤ c.val ∧ c.val ≤ 15 then
    raise 2 (mkCode 8 0 num) (grpMask ⟨fld (ar s .hk c.val 0) 3 2 % 4, Nat.mod_lt _ (by decide)⟩) noAxis data s
  else ev 8 0 num noAxis data s

/-- The averaged result of a channel: HK_RAW, HK_VAL, the limit checks and the over-temperature check (R184, R185). -/
def hkResult (c : Fin 24) (raw : Nat) (s : State) : State :=
  if hkAbsent s c then iw (iw s .hk c.val 0x240 0#32) .hk c.val 0x244 0#32
  else
    let k := match fld (ar s .hk c.val 0) 1 2 with | 0 => 1 | 1 => 4 | _ => 16
    let hist := (raw :: s.hk[c].hist).take 16
    let l := hist.take k
    let r := (roundFree 701 ((l.foldl (· + ·) 0 : Nat) / (l.length : Rat))).toNat
    let hot := if 3600 ≤ r then s.hk[c].hot + 1 else 0
    let s := modHk c (fun x => { x with hist := hist, hot := hot }) s
    let lim := ar s .hk c.val 4
    let lo := fld lim 0 12
    let hi := fld lim 16 12
    let was := ir s .hk c.val 0x240
    let low := decide (lo ≠ 0) && (decide (r < lo) || (bit was 16 && decide (r < lo + 64)))
    let high := decide (hi ≠ 0) && (decide (hi < r) || (bit was 17 && decide (hi < r + 64)))
    let w := setBit (setBit (wd (r % 4096)) 16 low) 17 high
    let (step, base) := hkScale c.val
    let s := iw (iw s .hk c.val 0x240 w) .hk c.val 0x244 (toF32 702 (base + r * step))
    let s := if low ∧ !(bit was 16) then hkRaise c 0x10 r s else s
    let s := if high ∧ !(bit was 17) then hkRaise c 0x11 r s else s
    if hot = 2 ∧ c.val < 3 then raiseDev 3 8 0 0x12 [wd c.val, wd r] s else s

/-- Is the pending HK set of a channel invalid, and at which register first (R189)? -/
def hkCheck (s : State) (c : Fin 24) : Option Nat :=
  let l := ir s .hk c.val 4
  if fld (ir s .hk c.val 0) 1 2 = 3 then some 0
  else if fld l 0 12 ≠ 0 ∧ fld l 16 12 ≠ 0 ∧ fld l 16 12 ≤ fld l 0 12 then some 4 else none

/-- HK commit of a channel. -/
def hkCommit (c : Fin 24) (s : State) : State :=
  let bad := hkCheck s c
  let s := bwBit s .hk 0x10 c.val false
  match bad with
  | some o => ev 8 0 0x13 noAxis [wd o] s
  | none => copySet .hk c.val s

/-- HK commits at the start of a scan. -/
def hkCommits (s : State) : State :=
  forEach (List.finRange 24) (fun c s => if bit (br s .hk 0x10) c.val then hkCommit c s else s) s

/-- The channel whose turn it is: the next converted one in ascending order behind the last, else channel 0. Channel 1 takes no slot (R184). -/
def hkTurn (s : State) : Fin 24 :=
  let behind : Fin 24 → Bool := fun c => (List.finRange 24).all fun k => !s.hk[k].last || decide (k.val < c.val)
  ((List.finRange 24).find? fun c => c != 1 && hkOn s c && behind c).getD 0

/-- A conversion of a channel when its turn has come; channel 0 starts a scan. The value of channel 1 comes with the field link. -/
def hkConversion (c : Fin 24) (raw : Nat) (s : State) : State :=
  if mode s = mSleep || hkTurn s != c then s
  else
    let s := if c = 0 then hkCommits s else s
    hkResult c raw (modHk c (fun x => { x with last := true }) { s with hk := s.hk.map fun x => { x with last := false } })

/-- HK_CONVERSION (R184). -/
def execHkConversion (c : Fin 24) (raw : BitVec 12) (t : Nat) (s : State) : Host.Outcome State Fault Refusal :=
  .next (hkConversion c raw.toNat (atTime t s))

end Sys2Proof.Machine
end

