-- ==== Sys2Proof/Machine/Stepping.lean ====
section
/-!
DEFINITION. Step generation (spec 05 R144-R148): evaluation of a stepper axis at a period centre, shaping tables, hold
current, the STEP commit, and the meaning of STEP_HOLD_CURRENT.
-/
namespace Sys2Proof.Machine


/-- Entry i of active shaping table tab: (ta, tb) in Q1.15 (R146). -/
def stepTable (s : State) (tab i : Nat) : Rat × Rat :=
  let w := rd s (0x60138000 + tab * 0x800 + 0x400 + 4 * (i % 256))
  (q15 (fld w 0 16), q15 (fld w 16 16))

/-- The quadrant rule of R145: the phase pair before the amplitude. -/
def stepPair (q : Nat) (ta tb : Rat) : Rat × Rat :=
  match q with
  | 0 => (ta, tb)
  | 1 => (-tb, ta)
  | 2 => (-ta, -tb)
  | _ => (tb, -ta)

/-- A value as a Q1.15 field. -/
def toQ15 (site : Nat) (x : Rat) : Nat := (iclamp (-32768) 32767 (roundFree site (x * 32768)) % 65536).toNat

/-- The position yc of a stepper axis at time tc, in 1/65,536 count (R145). -/
def stepYc (x : Stepper) (tc : Nat) : Rat :=
  let dt : Rat := (((tc : Int) - x.w : Int) : Rat) / 1000000000
  (x.y : Rat) + (x.vy * dt + x.ay * dt * dt / 2) * 65536

/-- us = floor(yc × USPC / 2^32), negated with INV (R145). -/
def stepUs (uspc : Nat) (inv : Bool) (yc : Rat) : Int :=
  let us := (yc * uspc / 4294967296).floor
  if inv then -us else us

/-- vy has been 0 for HOLDT ms at time t (R147; HOLDT = 0 never). -/
def holdDue (s : State) (n : Fin 16) (t : Nat) : Bool :=
  let holdt := fld (ar s .step n.val 0) 16 16
  match s.stp[n].still with
  | some t0 => holdt != 0 && decide (t0 + holdt * 1000000 ≤ t)
  | none => false

/-- Hold current per R147 at time t. -/
def stepHold (n : Fin 16) (t : Nat) (s : State) : State :=
  let x := s.stp[n]
  let s := modStp n (fun y => { y with still := if x.vy ≠ 0 then none else some (x.still.getD t) }) s
  let hold := x.vy == 0 && holdDue s n t
  let s := modStp n (fun y => { y with holdCur := hold }) s
  iw s .step n.val 0x240 (setBit (ir s .step n.val 0x240) 10 hold)

/-- STEP block evaluation of a stepper axis at the period centre (R145, R147, R148): STEP_STAT, STEP_USPOS, and the
shaped pair in the angle word. -/
def stepEvaluate (n : Fin 16) (tc : Nat) (s : State) : State × Word :=
  let s := stepHold n tc s
  let x := s.stp[n]
  let cfg := ar s .step n.val 0
  let us := stepUs (ar s .step n.val 4).toNat (bit cfg 4) (stepYc x tc)
  let e := ((us + fld (ar s .step n.val 0x10) 0 10) % 1024).toNat
  let (ta, tb) := stepTable s (fld cfg 1 2) (e % 256)
  let (pa, pb) := stepPair (e / 256) ta tb
  let i := q31 (if x.holdCur then ar s .step n.val 0xC else ar s .step n.val 8)
  let ang := wd (toQ15 501 (pa * i) + 65536 * toQ15 502 (pb * i))
  let d := us - x.us
  let fast := x.valid && decide (128 < d.natAbs)
  let s := modStp n (fun y => { y with us := us, valid := true }) s
  let s := iw64 (iw s .step n.val 0x240 (setBit (setFld (ir s .step n.val 0x240) 0 10 e) 11 fast)) .step n.val 0x248 us
  let s := if fast then raiseAx 1 5 0x50 n [BitVec.ofInt 32 d] (bwBit s .step 0x28 n.val true) else s
  (s, ang)

/-- STEP_HOLD_CURRENT: the amplitude changes to STEP_IHOLD once vy has been 0 for HOLDT ms (R147). -/
def execStepHoldCurrent (n : Fin 16) (t : Nat) (s : State) : Host.Outcome State Fault Refusal :=
  let s := atTime t s
  .next (if stepOn s n then stepHold n t s else s)

/-- Copy of shaping table tab to its active copy (R146). -/
def stepTabCopy (tab : Nat) (s : State) : State :=
  let b := 0x60138000 + tab * 0x800
  bwBit ((List.range 256).foldl (fun s i => wr s (b + 0x400 + 4 * i) (rd s (b + 4 * i))) s) .step 0x10 (16 + tab) false

/-- Table commits at a period boundary of group 0. -/
def stepTabCommits (s : State) : State :=
  forEach (List.range 4) (fun t s => if bit (br s .step 0x10) (16 + t) then stepTabCopy t s else s) s

/-- STEP commit of an axis (R152). -/
def stepCommit (n : Fin 16) (s : State) : State :=
  let w := ir s .step n.val 0
  let bad := if bit w 0 != bit (ar s .step n.val 0) 0 && s.ax[n].seq != .disabled then some 0
    else if bit w 0 && ir s .step n.val 4 == 0#32 then some 4 else none
  let s := bwBit s .step 0x10 n.val false
  match bad with
  | some o => ev 5 n.val 0x51 n.val [wd o] s
  | none => copySet .step n.val s

end Sys2Proof.Machine
end

