-- ==== Sys2Proof/Machine/AxisCmd.lean ====
section
/-!
DEFINITION. What the Helm does for one axis at a boundary of its group (spec 02 R51, R57; 03 R63-R74, R85-R89, R93; 04
R104, R111-R116; 05 R132): ENABLE, ACK, QSTOP, HOLD, CLEARQ, HOME, GEAR, SUPER, submissions and their application, the
level-1 stop; and the meanings of the rows that stand for each.
-/
namespace Sys2Proof.Machine

/-- AX_CMD of an axis (Table 3-1). -/
def axCmd (s : State) (n : Fin 16) : Word := ap s n 1

/-- t is a boundary at which the Helm acts for the axes of a group: its watch boundary, or the device boundary while the
group is stopped (01 R562). -/
def isAxB (s : State) (g : Fin 4) (t : Nat) : Bool := if gOn s g then isWb s g t else isDevB s t

/-- Torque is permitted on an axis: RUN or COMMISSION, or SAFE-STOP from one of them on a group that does not ramp, and no
RECOVERY (Table 2-2, R36). -/
def torqueMode (s : State) (n : Fin 16) : Bool :=
  let m := if mode s = mSafeStop then (if ss1On s (grpOf n) then mStandby else fld (pt s 0) 16 4) else mode s
  (m == mRun || m == mComm) && !(recovery s)

/-- The queue an axis's flags show: its own, or for the lead of an interpolation group the path's (04 R111). -/
def motQ (s : State) (n : Fin 16) : Motion :=
  match igOf s n with
  | some i => if igLeads s i n then s.igrp[i].mot else s.mot[n]
  | none => s.mot[n]

/-- Standstill of an axis: planned profile and limited command at rest. -/
def axStill (s : State) (n : Fin 16) : Bool :=
  s.mot[n].rest && s.env[n].vy == 0 &&
    (match igOf s n with | some i => s.igrp[i].mot.segs.isEmpty | none => s.mot[n].segs.isEmpty)

/-- Change a Motion by an operation with events on axis n, or on the path it leads. -/
def motDo (n : Fin 16) (f : Motion → MRes) (s : State) : State :=
  match igOf s n with
  | some i => if igLeads s i n then igDo i f s else s
  | none =>
    let x := f s.mot[n]
    planEvents n x.evs (modMot n (fun _ => x.m) s)

/-- Planning context of an axis or of the path it leads. -/
def ctxQ (s : State) (n : Fin 16) : PCtx :=
  match igOf s n with
  | some i => if igLeads s i n then igCtx s i else axCtx s n
  | none => axCtx s n

/-- The planned state at the boundary t of an axis, or of the path it is a member of, before what completes at t (R90, R93). -/
def motAt (n : Fin 16) (t : Nat) (s : State) : State :=
  match igOf s n with
  | some i => if s.igrp[i].cur.isSome then igDo i (Motion.evalTo (igCtx s i) t) s else s
  | none => motDo n (Motion.evalTo (axCtx s n) t) s

/-! ### ENABLE (R563, R65, R66) -/

/-- Sense inputs that a current kernel reads are enabled and served by a clock of DIV 20 or 21 (07 R178). -/
def senseOk (s : State) (n : Fin 16) : Bool :=
  let k := ckind s n
  let d := fld (ar s .sdm (16 + n.val / 2) 0) 0 8
  k == 8 || (List.finRange 3).all fun i => !(readsInput s n i) || (bit (ar s .sdm n.val 0) i.val && (d == 20 || d == 21))

/-- The feedback channel allows torque: CKIND 1, 2 and 4 need a channel with CPR and MODE (08 R196). -/
def channelOk (s : State) (n : Fin 16) : Bool :=
  let k := ckind s n
  if k = 1 ∨ k = 2 ∨ k = 4 then
    match chanOf s n with
    | some c => encMode s c != 0 && ar s .enc c.val 4 != 0#32
    | none => false
  else true

/-- Cause of Table 3-13 that refuses an enable request; 0 where it is allowed (R563). -/
def enableCause (s : State) (n : Fin 16) : Nat :=
  (firstBad [(!(torqueMode s n), 1), (stoOn s (grpOf n), 2), (faultStands s n, 3), (!s.mot[n].committed, 4),
    (ckind s n == 0, 5), (!(senseOk s n), 6), (!(channelOk s n), 7)]).getD 0

/-- ENABLE as read at a boundary (R563): a change from 0 to 1 on a DISABLED axis is a request. -/
def enableRead (n : Fin 16) (s : State) : State :=
  let on := bit (axCmd s n) 0
  let was := s.ax[n].lastEnable
  let s := modAx n (fun a => { a with lastEnable := on }) s
  if on && !was && s.ax[n].seq == .disabled then
    match enableCause s n with
    | 0 => axRequest n (modAx n (fun a => { a with seq := .enabling, granted := false, precharge := 0 }) s)
    | c => ev 5 n.val 7 n.val [wd c] s
  else s

/-- ENABLE is 0, or the mode takes torque away: an axis at standstill loses torque, another makes a quick stop first; an
axis in ENABLING becomes DISABLED at once (R66, 02 Table 2-4, 20 R504). -/
def enableOff (n : Fin 16) (t : Nat) (s : State) : State :=
  match s.ax[n].seq with
  | .disabled => s
  | .enabling => torqueOff n s
  | _ =>
    if axStill s n then torqueOff n s
    else if s.ax[n].offAtRest then s
    else
      let s := if s.mot[n].qstop then s else quickStop n t s
      modAx n (fun a => { a with offAtRest := true, seq := .stopping }) s

/-- Torque must go from the axis: ENABLE reads 0, RUN is being left, or the mode permits none. -/
def mustOff (s : State) (n : Fin 16) : Bool :=
  !(bit (axCmd s n) 0) || s.helm.toStandby || (!(torqueMode s n) && !(ss1On s (grpOf n)))

/-- The limiter is reset: y is the command sum (04 R118). -/
def Env.reset (e : Env) (t : Nat) : Env := { e with y := e.u, vy := e.vu, ay := e.au, t := t, follow := true, peak := 0 }

/-- ENABLING ends in READY at a boundary: planned position POS_ACT at rest, torque on (R65), the
estimates restarted (06 R158). -/
def readyAt (n : Fin 16) (t : Nat) (s : State) : State :=
  let pre : Bool := if h : hasDrive s = true ∧ n.val < 4 then s.drv.pre[(⟨n.val, h.2⟩ : Fin 4)] == 2 else s.ax[n].granted
  if s.ax[n].seq == .enabling && pre then
    let p := posAct s n
    let s := modMot n (fun m => { m.setPlanned t p 0 0 with qstop := false, hold := false, lastTarget := none }) s
    let s := match igOf s n with
      | some i => if s.igrp[i].mot.moving then s else modIg i (fun g => { g with cur := none, offs := [0, 0, 0, 0] }) s
      | none => s
    let s := modEnv n (fun e => e.reset t) s
    let s := modLoop n (fun x => { x with rest := f32 (ar s .loop n.val 0x28), kl := 1, clampR := false, clampL := false }) s
    bwBit (modAx n (fun a => { a with seq := .ready, granted := false }) s) .loop 0 n.val true
  else s

/-! ### Level-1 stops and QSTOP (02 R50-R53, R89) -/

/-- The first unacknowledged level-1 fault that acts on an axis by t. -/
def l1Due (s : State) (n : Fin 16) (t : Nat) : Option FaultRec :=
  s.helm.latched.find? (fun f => f.level == 1 && f.hits n && decide (f.time ≤ t))

/-- A level-1 fault takes effect at a boundary: quick stop, FAULT_STOP (R50, R51). -/
def levelOne (n : Fin 16) (t : Nat) (s : State) : State :=
  if s.ax[n].faultStop then s
  else match l1Due s n t, s.ax[n].seq with
    | none, _ | _, .disabled => s
    | some _, .enabling => torqueOff n s
    | some f, _ =>
      let s := if s.mot[n].qstop then s else quickStop n t s
      modAx n (fun a => { a with faultStop := true, stopSince := t, lastCode := f.code, seq := .stopping }) s

/-- A path in motion stops along its line where a member has lost torque (04 R115). -/
def pathFault (i : Fin 4) (t : Nat) (s : State) : State :=
  let go := s.igrp[i].stopDue && !s.igrp[i].mot.qstop
  let s := modIg i (fun g => { g with stopDue := false }) s
  if go then igStop i t s else s

/-- The stop of a path has ended: the path is at rest and no member is held in a quick stop. -/
def pathStopEnd (i : Fin 4) (s : State) : State :=
  let m := s.igrp[i].mot
  if m.qstop && m.rest && m.segs.isEmpty && !((igMembers s i).any fun n => s.mot[n].qstop) then
    modIg i (fun g => { g with mot := { g.mot with qstop := false } }) s
  else s

/-- The stop line is held on an axis: AX_CMD.QSTOP, or SS1-r on its group (18 R444). -/
def stopHeld (s : State) (n : Fin 16) : Bool := (bit (axCmd s n) 2 && helmUp s) || ss1On s (grpOf n)

/-- QSTOP comes into effect at a boundary (Table 3-12 order 2). -/
def qstopOn (n : Fin 16) (t : Nat) (s : State) : State :=
  match s.ax[n].seq with
  | .disabled | .enabling => s
  | _ => if s.mot[n].qstop then s else modAx n (fun a => { a with seq := .stopping }) (quickStop n t s)

/-- A quick stop has ended: nothing holds it and the axis is at standstill; moves are accepted again. -/
def qstopEnd (n : Fin 16) (s : State) : State :=
  if s.mot[n].qstop && !(stopHeld s n) && !s.ax[n].faultStop && !s.ax[n].offAtRest && axStill s n then
    let s := modMot n (fun m => { m with qstop := false }) s
    match igOf s n with
    | some i => pathStopEnd i s
    | none => s
  else s

/-- The axis's own sequence follows the motion: STOPPING ends at standstill in READY, or in DISABLED with torque off;
READY and MOVING show whether the profile moves (R66, R89, R564). -/
def seqUpdate (n : Fin 16) (s : State) : State :=
  let moves := (motQ s n).moving || s.mot[n].moving
  match s.ax[n].seq with
  | .stopping =>
    if axStill s n then
      if s.ax[n].offAtRest then torqueOff n s else modAx n (fun a => { a with seq := .ready }) s
    else s
  | .ready => if moves then modAx n (fun a => { a with seq := .moving }) s else s
  | .moving => if moves then s else modAx n (fun a => { a with seq := .ready }) s
  | _ => s

/-- AXIS_STOP_TIMEOUT: a level-1 stop lasts longer than PROF_CFG.STOP_TMO without standstill (02 R52). -/
def stopTimeout (n : Fin 16) (t : Nat) (s : State) : State :=
  let tmo := fld (ar s .prof n.val 0x14) 0 16
  if s.ax[n].faultStop && tmo != 0 && !(axStill s n) && decide (s.ax[n].stopSince + tmo * 1000000 ≤ t) &&
      !(s.helm.latched.any (fun f => f.code == mkCode 0 n.val 7)) then
    raiseAx 2 0 7 n [] s
  else s

/-! ### ACK, CLEARQ and HOLD -/

/-- The Helm clears a one-shot bit of AX_CMD. -/
def clearCmd (n : Fin 16) (b : Nat) (s : State) : State := setAp s n 1 (setBit (axCmd s n) b false)

/-- AX_CMD.ACK at a boundary (02 R57). -/
def ackTake (n : Fin 16) (t : Nat) (s : State) : State := if bit (axCmd s n) 1 then ackAxis n t (clearCmd n 1 s) else s

/-- AX_CMD.CLEARQ at a boundary (R73). -/
def clearqTake (n : Fin 16) (t : Nat) (s : State) : State :=
  if bit (axCmd s n) 4 then motDo n (Motion.clearq (ctxQ s n) t) (clearCmd n 4 s) else s

/-- Does HOLD change at this boundary? HOLD acts on the running sequence only; a quick stop ignores it (R88, R115). -/
def holdChanges (s : State) (n : Fin 16) : Bool :=
  let m := motQ s n
  let leads := match igOf s n with | some i => igLeads s i n | none => true
  leads && readyOrMoving s n && !m.qstop && !(homingOn s n) && bit (axCmd s n) 3 != m.hold

/-- HOLD at a boundary (R88). -/
def holdTake (n : Fin 16) (t : Nat) (s : State) : State :=
  if holdChanges s n then
    let c := ctxQ s n
    motDo n (if bit (axCmd s n) 3 then Motion.holdOn c t else Motion.holdOff c t) s
  else s

/-! ### GEAR, SUPER and HOME -/

/-- A fold on a path member moves the member against its path. -/
def withOffs (n : Fin 16) (f : State → State) (s : State) : State :=
  let p0 := s.mot[n].p
  let s := f s
  match igOf s n with
  | some i =>
    let j := (igMembers s i).idxOf n
    modIg i (fun g => { g with offs := g.offs.set j (g.offs.getD j 0 + s.mot[n].p - p0) }) s
  | none => s

/-- AX_CMD.GEAR at a boundary (04 R104, R105). -/
def gearTake (n : Fin 16) (t : Nat) (s : State) : State := withOffs n (gearChange n (bit (axCmd s n) 6) t) s
/-- AX_CMD.SUPER at a boundary (04 R116). -/
def superTake (n : Fin 16) (s : State) : State := superChange n (bit (axCmd s n) 7) s
/-- AX_CMD.HOME at a boundary (05 R132, R133). -/
def homeTake (n : Fin 16) (t : Nat) (s : State) : State := homePublish n (homeChange n (bit (axCmd s n) 5) t s)

/-! ### Submissions (R67-R75, 04 R111-R114) -/

/-- A submission as the Helm copies it from the staging points (Table 3-3). -/
structure Sub where
  kind : Nat
  blend : Nat
  noover : Bool
  act : Nat
  tag : Nat
  target : Int
  vmax : Word
  amax : Word
  dmax : Word
  jmax : Word
  vtgt : Word
  dwell : Nat
  deriving DecidableEq, Repr

/-- Copy the staging points of an axis. -/
def readSub (s : State) (n : Fin 16) : Sub :=
  let c := ap s n 16
  { kind := fld c 0 4, blend := fld c 4 3, noover := bit c 7, act := fld c 8 2, tag := fld c 16 16, target := pt64 s (axPt n 18),
    vmax := ap s n 20, amax := ap s n 21, dmax := ap s n 22, jmax := ap s n 23, vtgt := ap s n 24, dwell := (ap s n 25).toNat }

/-- A positive finite F32 not above a bound. -/
def inLimit (w : Word) (hi : Rat) : Bool := match f32? w with | some x => decide (0 < x ∧ x ≤ hi) | none => false

/-- The end position of the queue where it is known (R74): the reference of a REL move that comes after it. -/
def Motion.queueEnd (m : Motion) : Option Int :=
  let run : Option Int := match m.running with
    | some r => if r.mv.kind = 2 then none else some (r.endPos.getD (endGrid m.p0 m.v0 m.a0 m.segs))
    | none => if m.rest then some m.p else none
  (m.wait ++ m.enter.map (·.mv)).foldl (fun e x => match x.kind with
    | 0 => some x.target
    | 1 => e.map (· + x.target)
    | 2 => none
    | _ => e) run

/-- Reference of a REL move under an ACTION, from the state predicted for its application (R74). -/
def Motion.relRef (act : Nat) (m : Motion) : Option Int :=
  if act = 2 then (match m.run.bind (·.endPos) with | some e => some e | none => some m.p)
  else if act = 3 then { m with wait := [], enter := [] }.queueEnd
  else m.queueEnd

/-- The move of a submission with the axis's limits applied, and whether one was reduced (R70, R35). -/
def subMove (s : State) (n : Fin 16) (x : Sub) : Move × Bool :=
  let mv : Move := { kind := x.kind, target := x.target, vmax := f32 x.vmax, amax := f32 x.amax, dmax := f32 x.dmax,
                     jmax := f32 x.jmax, vtgt := f32 x.vtgt, dwell := x.dwell, blend := x.blend, noover := x.noover, tag := x.tag,
                     path := none, jcap := none }
  let (mv, c) := mv.clampTo (pf s n 0) (pf s n 4) (pf s n 8)
  ({ mv with vmax := commV s n mv.vmax }, c)

/-- Turns θ + k lie on an arc from a0 over a signed sweep, for some whole k. -/
def arcHits (a0 sweep th : Rat) : Bool :=
  let d := if 0 ≤ sweep then th - a0 else a0 - th
  decide (d - d.floor ≤ rabs sweep)

/-- Lowest and highest position of member j on a path (05 R129). -/
def IPath.range (x : IPath) (j : Nat) : Int × Int :=
  let a := x.start.getD j 0
  let b := x.stop.getD j 0
  let lo := min a b
  let hi := max a b
  if x.turns j ∧ x.len ≠ 0 then
    let a0 := angleTurn ((x.start.getD x.pm 0 - x.cp : Int) : Rat) ((x.start.getD x.qm 0 - x.cq : Int) : Rat)
    let top : Rat := if j = x.pm then 0 else mkRat 1 4
    let c := if j = x.pm then x.cp else x.cq
    let r := roundFree 436 (x.radius * 65536)
    (if arcHits a0 x.sweep (top + mkRat 1 2) then c - r else lo, if arcHits a0 x.sweep top then c + r else hi)
  else (lo, hi)

/-- The last line in a path's queue, after any discard of an ACTION. -/
def IGroup.lastPath (g : IGroup) (act : Nat) : Option IPath :=
  let run := (g.mot.run.bind (·.mv.path)).toList
  let l := if act = 1 then run ++ (g.mot.wait ++ g.mot.enter.map (·.mv)).filterMap (·.path) else run
  l.getLast?

/-- The last line of some length in a path's queue: the one whose end tangent meets the next line, null moves left out (R83, R114). -/
def IGroup.lastLine (g : IGroup) (act : Nat) : Option IPath :=
  let run := (g.mot.run.bind (·.mv.path)).toList
  let l := if act = 1 then run ++ (g.mot.wait ++ g.mot.enter.map (·.mv)).filterMap (·.path) else run
  (l.filter fun x => decide (x.len ≠ 0)).getLast?

/-- Where the path comes to its end under the segments it has: the end of a running STOP, or of the stop before a DWELL (03 R74). -/
def IGroup.endPos (g : IGroup) (j : Nat) : Option Int :=
  g.cur.map fun x =>
    let d := ((endGrid g.mot.p0 g.mot.v0 g.mot.a0 g.mot.segs - g.base : Int) : Rat) / 65536
    (x.member j d 0 0).1

/-- The line of an ABS or REL path move from the lead's staging points, IP_CTRL and IP_CTR, in the path's own coordinates
(R111-R113); none where it is refused with RESULT 4. -/
def subPath (s : State) (i : Fin 4) (x : Sub) : Option IPath :=
  let g := s.igrp[i]
  let ms := igMembers s i
  let lead := ms.headD 0
  let here := (List.range ms.length).map fun j => s.mot[ms.getD j 0].p - g.offs.getD j 0
  let ends := (List.range ms.length).map fun j => if g.mot.run.isSome then (g.endPos j).getD (here.getD j 0) else here.getD j 0
  let ref := match g.lastPath x.act with | some l => l.stop | none => if x.act = 2 then here else ends
  let start := if x.act = 2 then here else ref
  let stop := (List.range ms.length).map fun j =>
    let tg := pt64 s (axPt (ms.getD j 0) 18)
    if x.kind = 0 then tg - g.offs.getD j 0 else ref.getD j 0 + tg
  let c := ap s lead 62
  if fld c 0 2 = 0 then some (linPath start stop)
  else
    let p := fld c 2 2
    let q := fld c 4 2
    let org := fun (k : Nat) => if x.kind = 0 then -(g.offs.getD k 0) else start.getD k 0
    if fld c 0 2 = 3 ∨ p = q ∨ ms.length ≤ p ∨ ms.length ≤ q then none
    else arcPath start stop p q (pt64 s (axPt lead 56) + org p) (pt64 s (axPt lead 58) + org q) (fld c 0 2 == 2) (bit c 6)

/-- A path move with its limits and the cap of its joint; the test says whether a limit was lowered (R112-R114). -/
def pathMove (s : State) (i : Fin 4) (x : Sub) (line : IPath) : Move × Bool :=
  let l := pathLimits s i line (fun n => commV s n (pf s n 0)) { v := f32 x.vmax, a := f32 x.amax, d := f32 x.dmax, j := f32 x.jmax }
  let cap := match s.igrp[i].lastLine x.act with | some a => if x.act = 2 ∨ line.len = 0 then none else cornerCap s i a line | none => none
  let mv : Move := { kind := 1, target := roundFree 437 (line.len * 65536), vmax := l.v, amax := l.a, dmax := l.d, jmax := l.j,
                     vtgt := 0, dwell := x.dwell, blend := x.blend, noover := x.noover, tag := x.tag, path := some line, jcap := cap }
  (mv, decide (l.v < f32 x.vmax ∨ l.a < f32 x.amax ∨ l.d < f32 x.dmax ∨ l.j < f32 x.jmax))

/-- A STOP or DWELL of a path: its limits lowered to those of the members on the line it stops on (R112). -/
def pathStop (s : State) (i : Fin 4) (x : Sub) : Move × Bool :=
  let l0 : Lim := { v := f32 x.vmax, a := f32 x.amax, d := f32 x.dmax, j := f32 x.jmax }
  let line := match s.igrp[i].lastLine x.act with | some l => some l | none => s.igrp[i].cur
  let l := match line with | some y => pathLimits s i y (fun n => commV s n (pf s n 0)) l0 | none => l0
  ({ kind := x.kind, target := 0, vmax := l.v, amax := l.a, dmax := l.d, jmax := l.j, vtgt := 0, dwell := x.dwell, blend := x.blend,
     noover := x.noover, tag := x.tag, path := none, jcap := none },
   decide (l.v < l0.v ∨ l.a < l0.a ∨ l.d < l0.d ∨ l.j < l0.j))

/-- What a submission becomes: the move, CLAMPED, the predicted state it starts from, and for each axis it moves the lowest
and highest position it plans with the direction of its motion. -/
structure Cand where
  mv : Move
  clamped : Bool
  pred : Motion
  spans : List (Fin 16 × Option (Int × Int) × Int)
  deriving DecidableEq, Repr

/-- Lowest and highest of some positions in counts, on the grid of R90. -/
def hull (l : List Rat) : Option (Int × Int) :=
  l.foldl (fun acc x =>
    let lo := (x * 65536).floor
    let hi := (x * 65536).ceil
    match acc with
    | some (a, b) => some (min a lo, max b hi)
    | none => some (lo, hi)) none

/-- Span of a move of one axis: positions it plans (05 R129), and its direction seen from the planned position p (05 R126). -/
def moveSpan (n : Fin 16) (c : PCtx) (mv : Move) (act : Nat) (p : Int) (pred : Motion) : Fin 16 × Option (Int × Int) × Int :=
  let ref := pred.relRef act
  let reach := match pred.entryKin act with
    | some k => hull (mv.reaches c k (mv.goal k ref))
    | none => (mv.endFrom (ref.getD 0)).bind fun e => if mv.kind = 0 ∨ ref.isSome then some (e, e) else none
  let dir : Int := match mv.kind with
    | 0 => mv.target - p
    | 1 => match ref with | some r => r + mv.target - p | none => mv.target
    | 2 => if 0 < mv.vtgt then 1 else if mv.vtgt < 0 then -1 else 0
    | _ => 0
  (n, reach, dir)

/-- The candidate of a submission at boundary t; none where its line is refused (RESULT 4). -/
def candidate (n : Fin 16) (x : Sub) (t : Nat) (s : State) : Option Cand :=
  match igOf s n with
  | some i =>
    let w := gW s (grpOf n)
    let s1 := igDo i (fun m => { Motion.evalTo (igCtx s i) (t + w) m with evs := [] }) s
    let pred := (Motion.evalTo (igCtx s i) (t + w) s.igrp[i].mot).m
    if x.kind = 3 ∨ x.kind = 4 then
      some { mv := (pathStop s1 i x).1, clamped := (pathStop s1 i x).2, pred := pred, spans := [] }
    else
      match subPath s1 i x with
      | none => none
      | some line =>
        let (mv, c) := pathMove s i x line
        let ms := igMembers s i
        let o := s.igrp[i].offs
        let spans := (List.range ms.length).map fun j =>
          let (lo, hi) := line.range j
          let f := o.getD j 0
          let p := s.mot[ms.getD j 0].p - f
          (ms.getD j 0, some (lo + f, hi + f), if p < hi then (if lo < p then 2 else 1) else if lo < p then -1 else 0)
        some { mv := mv, clamped := c, pred := pred, spans := spans }
  | none =>
    let (mv, c) := subMove s n x
    let pred := (Motion.evalTo (axCtx s n) (t + gW s (grpOf n)) s.mot[n]).m
    some { mv := mv, clamped := c, pred := pred, spans := [moveSpan n (axCtx s n) mv x.act s.mot[n].p pred] }

/-- The candidate needs the overshoot of R87. -/
def Cand.past (c : Cand) (act : Nat) : Bool :=
  c.pred.overshoots act c.mv (if c.mv.path.isSome then none else c.pred.replRef act)

/-- An axis accepts submissions as far as its state goes: READY or MOVING, or a stop that RESULT 6 names (DEDUCED, log entry
20). -/
def seqAccepts (s : State) (n : Fin 16) : Bool :=
  readyOrMoving s n || shown s n == 5 || (shown s n == 4 && !s.ax[n].offAtRest)

/-- A direction leads to an active limit; 2 = both ways (a path that turns). -/
def dirRefused (s : State) (n : Fin 16) (d : Int) : Bool :=
  if d = 2 then limRefuses s n 1 || limRefuses s n (-1) else limRefuses s n d

/-- MV_STAT.RESULT of a submission: the first condition in the order of R68; 0 = accepted. -/
def subResult (s : State) (n : Fin 16) (x : Sub) (c : Option Cand) : Nat :=
  let m := motQ s n
  let lead := match igOf s n with | some i => igLeads s i n | none => true
  let path := (igOf s n).isSome
  let qd := fld (ar s .prof n.val 0x14) 16 6
  let badLine := (match c with | none => true | some _ => false)
  let limHit := (match c with | some c => c.spans.any (fun q => dirRefused s q.1 q.2.2) | none => false) || limRefuses s n 0
  let soft := match c with
    | some c => c.spans.any (fun q => match softLim s q.1, q.2.1 with
        | some (lo, hi), some (a, b) => decide (a < lo ∨ hi < b)
        | _, _ => false)
    | none => false
  let past8 := match c with
    | some c => x.noover && c.past x.act
    | none => false
  (firstBad [
    (!(seqAccepts s n) || !(torqueMode s n) || (mode s == mComm && decide (axVred s n ≤ 0)) || !lead, 5),
    (s.mot[n].qstop || m.qstop || s.ax[n].faultStop || l1Stands s n, 6),
    (homingOn s n, 9),
    (decide (4 < x.kind) || decide (4 < x.blend) || (path && x.kind == 2) || badLine, 4),
    (!(inLimit x.vmax 1000000000), 2),
    (!(inLimit x.amax 100000000000) || !(inLimit x.dmax 100000000000) || !(inLimit x.jmax 10000000000000), 3),
    (qd == 0 || (x.act == 1 && decide (qd ≤ m.qfill)), 1),
    (limHit, 10), (soft, 7), (past8, 8)]).getD 0

/-- A refused submission: MV_STAT, MOVE_REJECTED, PROF_REJECTS (R69). -/
def subReject (n : Fin 16) (r tag : Nat) (s : State) : State :=
  let w := satAdd (br s .prof 0x28) 0 16 1
  let s := bw s .prof 0x28 (setFld (setFld w 16 4 n.val) 20 4 r)
  ev 5 n.val 1 n.val [wd r, wd tag] s

/-- Time in ns that the planner takes for one move: its greatest, 1.2 µs (R71; DESIGN CHOICE, log entry 51). -/
def planNs : Nat := 1200

/-- Ship time at which the shared planner is done with a move passed to it at t (R71). -/
def planDone (s : State) (t : Nat) : Nat := max t s.helm.planFree + planNs

/-- The planner takes one more move at t. -/
def planOne (t : Nat) (s : State) : State := { s with helm := { s.helm with planFree := planDone s t } }

/-- The Helm takes the submission of an axis at boundary t, one at most (R68-R71). -/
def subTake (n : Fin 16) (t : Nat) (s : State) : State :=
  let x := readSub s n
  if x.act = 0 ∨ s.ax[n].subAt = some t then s
  else
    let s := modAx n (fun a => { a with subAt := some t }) s
    let c := candidate n x t s
    let r := subResult s n x c
    let s := setAp s n 16 (setFld (ap s n 16) 8 2 0)
    match r, c with
    | 0, some c =>
      let s := setAp s n 17 (wd (16 * b2n c.clamped + 32 * b2n (c.past x.act) + 65536 * x.tag))
      let e : Entering := { mv := c.mv, act := x.act, due := t + gW s (grpOf n), ready := planDone s t }
      planOne t (motDo n (fun m => Motion.ok { m with starved := false, enter := (if x.act = 1 then m.enter else []) ++ [e] }) s)
    | r, _ => subReject n r x.tag (setAp s n 17 (wd (r + 65536 * x.tag)))

/-! ### Application of planned submissions (R71, R93 order 5) -/

/-- Entries that take effect at t, a later REPLACE or CUT discarding what came before it. -/
def dueEntries (t : Nat) (l : List Entering) : List Entering :=
  (l.filter (fun e => decide (e.due ≤ t))).foldl (fun acc e => if e.act = 1 then acc ++ [e] else [e]) []

/-- An entry that is due and has to wait one watch more: its planning is not complete, or an earlier event of the boundary changed the state
that a REPLACE or CUT was planned from (R71). -/
def Entering.waits (e : Entering) (t : Nat) (change : Bool) : Bool :=
  decide (e.due ≤ t) && ((change && e.act != 1) || decide (t < e.ready))

/-- Deferral of due entries by one watch w, counted and logged; a REPLACE or CUT whose state changed is planned again (R71). -/
def deferEntries (n : Fin 16) (t w : Nat) (change : Bool) (s : State) : State :=
  let late := (motQ s n).enter.filter (·.waits t change)
  if late.isEmpty then s
  else
    let again := late.any fun e => change && e.act != 1
    let rdy := planDone s t
    let move := fun (e : Entering) =>
      if e.waits t change then { e with due := t + w, ready := if change && e.act != 1 then rdy else e.ready } else e
    let s := motDo n (fun m => Motion.ok { m with enter := m.enter.map move }) s
    let s := if again then planOne t s else s
    forEach late (fun e s => ev 5 n.val 6 n.val [wd (e.mv.tag % 65536)] (bwSat s .prof 4 0 16)) s

/-- Apply the planned submissions of an axis at t; one that now overshoots under NOOVER is discarded with RESULT 8. -/
def enterApply (n : Fin 16) (t : Nat) (s : State) : State :=
  let c := ctxQ s n
  let es := dueEntries t (motQ s n).enter
  let s := if es.isEmpty then s
    else motDo n (fun m => Motion.ok { m with enter := m.enter.filter (fun e => decide (t < e.due)) }) s
  forEach es (fun e s =>
    let m := motQ s n
    if e.mv.noover && m.overshoots e.act e.mv (if e.mv.path.isSome then none else m.replRef e.act) then
      subReject n 8 (e.mv.tag % 65536) s
    else motDo n (Motion.apply c t e.act e.mv) s) s

/-! ### The rows -/

/-- A boundary action of one axis by the Helm: nothing where t is no boundary of the axis's group or the Helm is frozen. -/
def atAxB (n : Fin 16) (t : Nat) (f : State → State) (s : State) : Host.Outcome State Fault Refusal :=
  let s := atTime t s
  .next (if isAxB s (grpOf n) t && helmUp s then f (motAt n t s) else s)

/-- ENABLE: AX_CMD.ENABLE read at a boundary (R563). -/
def execEnable (n : Fin 16) (t : Nat) (s : State) : Host.Outcome State Fault Refusal := atAxB n t (enableRead n) s
/-- ENABLE_CLEAR: ENABLE read as 0 at a boundary (R66). -/
def execEnableClear (n : Fin 16) (t : Nat) (s : State) : Host.Outcome State Fault Refusal :=
  atAxB n t (fun s => let s := enableRead n s; if mustOff s n then enableOff n t s else s) s
/-- ACK at a boundary (02 R57). -/
def execAck (n : Fin 16) (t : Nat) (s : State) : Host.Outcome State Fault Refusal := atAxB n t (ackTake n t) s
/-- QSTOP at a boundary (R89). -/
def execQstop (n : Fin 16) (t : Nat) (s : State) : Host.Outcome State Fault Refusal :=
  atAxB n t (fun s => if stopHeld s n then qstopOn n t s else s) s
/-- QSTOP_RELEASE: QSTOP read as 0 at a boundary (R89). -/
def execQstopRelease (n : Fin 16) (t : Nat) (s : State) : Host.Outcome State Fault Refusal := atAxB n t (qstopEnd n) s
/-- HOLD at a boundary (R88). -/
def execHold (n : Fin 16) (t : Nat) (s : State) : Host.Outcome State Fault Refusal :=
  atAxB n t (fun s => if bit (axCmd s n) 3 then holdTake n t s else s) s
/-- HOLD_RELEASE: HOLD read as 0 at a boundary (R88). -/
def execHoldRelease (n : Fin 16) (t : Nat) (s : State) : Host.Outcome State Fault Refusal :=
  atAxB n t (fun s => if bit (axCmd s n) 3 then s else holdTake n t s) s
/-- CLEARQ at a boundary (R73). -/
def execClearq (n : Fin 16) (t : Nat) (s : State) : Host.Outcome State Fault Refusal := atAxB n t (clearqTake n t) s
/-- HOME at a boundary (05 R132). -/
def execHome (n : Fin 16) (t : Nat) (s : State) : Host.Outcome State Fault Refusal :=
  atAxB n t (fun s => if bit (axCmd s n) 5 then homeTake n t s else s) s
/-- HOME_CLEAR: HOME read as 0 at a boundary (05 R133). -/
def execHomeClear (n : Fin 16) (t : Nat) (s : State) : Host.Outcome State Fault Refusal :=
  atAxB n t (fun s => if bit (axCmd s n) 5 then s else homeTake n t s) s
/-- GEAR at a boundary (04 R104). -/
def execGear (n : Fin 16) (t : Nat) (s : State) : Host.Outcome State Fault Refusal :=
  atAxB n t (fun s => if bit (axCmd s n) 6 then gearTake n t s else s) s
/-- GEAR_CLEAR: GEAR read as 0 at a boundary (04 R105). -/
def execGearClear (n : Fin 16) (t : Nat) (s : State) : Host.Outcome State Fault Refusal :=
  atAxB n t (fun s => if bit (axCmd s n) 6 then s else gearTake n t s) s
/-- SUPER at a boundary (04 R116). -/
def execSuper (n : Fin 16) (t : Nat) (s : State) : Host.Outcome State Fault Refusal :=
  atAxB n t (fun s => if bit (axCmd s n) 7 then superTake n s else s) s
/-- SUPER_CLEAR: SUPER read as 0 at a boundary (04 R116). -/
def execSuperClear (n : Fin 16) (t : Nat) (s : State) : Host.Outcome State Fault Refusal :=
  atAxB n t (fun s => if bit (axCmd s n) 7 then s else superTake n s) s
/-- A submission with the given ACTION, taken at a boundary (R68). -/
def subRow (act : Nat) (n : Fin 16) (t : Nat) (s : State) : Host.Outcome State Fault Refusal :=
  atAxB n t (fun s => if fld (ap s n 16) 8 2 = act then subTake n t s else s) s
/-- APPEND (R73). -/
def execAppend (n : Fin 16) (t : Nat) (s : State) : Host.Outcome State Fault Refusal := subRow 1 n t s
/-- REPLACE (R73). -/
def execReplace (n : Fin 16) (t : Nat) (s : State) : Host.Outcome State Fault Refusal := subRow 2 n t s
/-- CUT (R73). -/
def execCut (n : Fin 16) (t : Nat) (s : State) : Host.Outcome State Fault Refusal := subRow 3 n t s
/-- AXIS_STOP_TIMEOUT (02 R52). -/
def execAxisStopTimeout (n : Fin 16) (t : Nat) (s : State) : Host.Outcome State Fault Refusal :=
  let s := atTime t s
  .next (stopTimeout n t s)
/-- HOME_TIMEOUT at a boundary (05 R136). -/
def execHomeTimeout (n : Fin 16) (t : Nat) (s : State) : Host.Outcome State Fault Refusal := atAxB n t (homeTimeout n t) s
/-- HOME_NOT_FOUND at a boundary (05 R136). -/
def execHomeNotFound (n : Fin 16) (t : Nat) (s : State) : Host.Outcome State Fault Refusal := atAxB n t (homeNotFound n) s
/-- HARDSTOP_DETECT at a boundary (05 R138). -/
def execHardstopDetect (n : Fin 16) (t : Nat) (s : State) : Host.Outcome State Fault Refusal := atAxB n t (hardStop n t) s
/-- GEAR_MASTER_STALE at a boundary (04 R108). -/
def execGearMasterStale (n : Fin 16) (t : Nat) (s : State) : Host.Outcome State Fault Refusal := atAxB n t (gearStale n t) s
/-- SUPER_STALE at a boundary (04 R117). -/
def execSuperStale (n : Fin 16) (t : Nat) (s : State) : Host.Outcome State Fault Refusal := atAxB n t (superStale n) s

end Sys2Proof.Machine
end

