-- ==== Sys2Proof/Machine/Image.lean ====
section
/-!
DEFINITION. The form of an image (spec 19 Tables 19-2, 19-3, R470 to R472, R475): slot header, records with their CRC-32, SHA-256 and
ECDSA P-256, and the checks that need the stored bytes alone.
-/
namespace Sys2Proof.Machine

/-! ### Bytes -/

/-- The little-endian bytes of words. -/
def bytesOf (ws : List Word) : List Byte := ws.flatMap fun w => leBytes w.toNat 4

/-- The words that bytes hold, little-endian; the last is padded with zeros. -/
def wordsOf : Nat → List Byte → List Word
  | 0, _ => []
  | _, [] => []
  | k + 1, bs => BitVec.ofNat 32 (leNum (bs.take 4)) :: wordsOf k (bs.drop 4)

/-- The number that big-endian bytes spell. -/
def beNum (l : List Byte) : Nat := l.foldl (fun x b => x * 256 + b.toNat) 0

/-! ### SHA-256 (R475, R476) -/

/-- The 64 round constants of SHA-256. -/
def shaK : List Word :=
  [0x428a2f98#32, 0x71374491#32, 0xb5c0fbcf#32, 0xe9b5dba5#32, 0x3956c25b#32, 0x59f111f1#32, 0x923f82a4#32, 0xab1c5ed5#32,
   0xd807aa98#32, 0x12835b01#32, 0x243185be#32, 0x550c7dc3#32, 0x72be5d74#32, 0x80deb1fe#32, 0x9bdc06a7#32, 0xc19bf174#32] ++
  [0xe49b69c1#32, 0xefbe4786#32, 0x0fc19dc6#32, 0x240ca1cc#32, 0x2de92c6f#32, 0x4a7484aa#32, 0x5cb0a9dc#32, 0x76f988da#32,
   0x983e5152#32, 0xa831c66d#32, 0xb00327c8#32, 0xbf597fc7#32, 0xc6e00bf3#32, 0xd5a79147#32, 0x06ca6351#32, 0x14292967#32] ++
  [0x27b70a85#32, 0x2e1b2138#32, 0x4d2c6dfc#32, 0x53380d13#32, 0x650a7354#32, 0x766a0abb#32, 0x81c2c92e#32, 0x92722c85#32,
   0xa2bfe8a1#32, 0xa81a664b#32, 0xc24b8b70#32, 0xc76c51a3#32, 0xd192e819#32, 0xd6990624#32, 0xf40e3585#32, 0x106aa070#32] ++
  [0x19a4c116#32, 0x1e376c08#32, 0x2748774c#32, 0x34b0bcb5#32, 0x391c0cb3#32, 0x4ed8aa4a#32, 0x5b9cca4f#32, 0x682e6ff3#32,
   0x748f82ee#32, 0x78a5636f#32, 0x84c87814#32, 0x8cc70208#32, 0x90befffa#32, 0xa4506ceb#32, 0xbef9a3f7#32, 0xc67178f2#32]

/-- The initial hash words. -/
def shaInit : List Word :=
  [0x6a09e667#32, 0xbb67ae85#32, 0x3c6ef372#32, 0xa54ff53a#32, 0x510e527f#32, 0x9b05688c#32, 0x1f83d9ab#32, 0x5be0cd19#32]

/-- Further words of the message schedule, newest first. -/
def shaMore : Nat → List Word → List Word
  | 0, ws => ws
  | k + 1, ws =>
    let g := fun (i : Nat) => ws.getD i 0#32
    let s0 := (g 14).rotateRight 7 ^^^ (g 14).rotateRight 18 ^^^ (g 14) >>> 3
    let s1 := (g 1).rotateRight 17 ^^^ (g 1).rotateRight 19 ^^^ (g 1) >>> 10
    shaMore k ((g 15 + s0 + g 6 + s1) :: ws)

/-- One round on the eight working words, with the sum of its constant and its schedule word. -/
def shaRound (v : List Word) (kw : Word) : List Word :=
  match v with
  | [a, b, c, d, e, f, g, h] =>
    let s1 := e.rotateRight 6 ^^^ e.rotateRight 11 ^^^ e.rotateRight 25
    let t1 := h + s1 + ((e &&& f) ^^^ (~~~ e &&& g)) + kw
    let s0 := a.rotateRight 2 ^^^ a.rotateRight 13 ^^^ a.rotateRight 22
    let t2 := s0 + ((a &&& b) ^^^ (a &&& c) ^^^ (b &&& c))
    [t1 + t2, a, b, c, d + t1, e, f, g]
  | v => v

/-- One block of 64 bytes. -/
def shaBlock (v : List Word) (bs : List Byte) : List Word :=
  let w := (List.range 16).map fun i => BitVec.ofNat 32 (beNum ((bs.drop (4 * i)).take 4))
  let ws := (shaMore 48 w.reverse).reverse
  List.zipWith (· + ·) v ((List.zipWith (· + ·) shaK ws).foldl shaRound v)

/-- The blocks of a padded message. -/
def shaBlocks : Nat → List Word → List Byte → List Word
  | 0, v, _ => v
  | k + 1, v, bs => shaBlocks k (shaBlock v (bs.take 64)) (bs.drop 64)

/-- SHA-256: the 32 bytes of the digest. -/
def sha256 (m : List Byte) : List Byte :=
  let n := m.length
  let p := m ++ [0x80#8] ++ List.replicate ((119 - n % 64) % 64) 0#8 ++ (leBytes (8 * n) 8).reverse
  (shaBlocks (p.length / 64) shaInit p).flatMap fun w => (leBytes w.toNat 4).reverse

/-! ### ECDSA P-256 (R475) -/

/-- The field prime of P-256. -/
def p256P : Nat := 2 ^ 256 - 2 ^ 224 + 2 ^ 192 + 2 ^ 96 - 1
/-- The order of its group. -/
def p256N : Nat := 0xFFFFFFFF00000000FFFFFFFFFFFFFFFFBCE6FAADA7179E84F3B9CAC2FC632551
/-- The coefficient b. -/
def p256B : Nat := 0x5AC635D8AA3A93E7B3EBBD55769886BC651D06B0CC53B0F63BCE3C3E27D2604B
/-- The base point. -/
def p256G : Nat × Nat :=
  (0x6B17D1F2E12C4247F8BCE6E563A440F277037D812DEB33A0F4A13945D898C296, 0x4FE342E2FE1A7F9B8EE7EB4A7C0F9E162BCE33576B315ECECBB6406837BF51F5)

/-- x to the power e modulo m, over k bits of e. -/
def powMod (m : Nat) : Nat → Nat → Nat → Nat
  | 0, _, _ => 1 % m
  | k + 1, x, e => let r := powMod m k (x * x % m) (e / 2); if e % 2 = 1 then x * r % m else r

/-- The inverse modulo a prime of at most 256 bits. -/
def invMod (m x : Nat) : Nat := powMod m 256 (x % m) (m - 2)

/-- x − y modulo the field prime. -/
def subP (x y : Nat) : Nat := (x % p256P + (p256P - y % p256P)) % p256P

/-- The sum of two points of the curve y² = x³ − 3x + b; none is the point at infinity. -/
def ecAdd : Option (Nat × Nat) → Option (Nat × Nat) → Option (Nat × Nat)
  | none, q => q
  | p, none => p
  | some (x1, y1), some (x2, y2) =>
    if x1 = x2 ∧ (y1 + y2) % p256P = 0 then none
    else
      let l := if x1 = x2 then subP (3 * x1 * x1) 3 * invMod p256P (2 * y1) % p256P
        else subP y2 y1 * invMod p256P (subP x2 x1) % p256P
      let x3 := subP (subP (l * l) x1) x2
      some (x3, subP (l * subP x1 x3) y1)

/-- A multiple of a point, over k bits of the factor. -/
def ecMul : Nat → Nat → Option (Nat × Nat) → Option (Nat × Nat)
  | 0, _, _ => none
  | k + 1, e, p => let r := ecMul k (e / 2) (ecAdd p p); if e % 2 = 1 then ecAdd p r else r

/-- A point of the curve. -/
def onCurve (x y : Nat) : Bool :=
  decide (x < p256P) && decide (y < p256P) && y * y % p256P == (subP (x * x % p256P * x) (3 * x) + p256B) % p256P

/-- The signature (r, s) verifies over a digest with the public key (x, y). -/
def ecdsaOk (x y r s z : Nat) : Bool :=
  onCurve x y && decide (0 < r ∧ r < p256N ∧ 0 < s ∧ s < p256N) &&
    (let w := invMod p256N s
     match ecAdd (ecMul 256 (z * w % p256N) (some p256G)) (ecMul 256 (r * w % p256N) (some (x, y))) with
     | none => false
     | some (u, _) => u % p256N == r)

/-- What a SIGN payload says over the bytes before it: the SHA-256 of its 64-byte key, as the fuses hold it, and whether its signature
verifies over their SHA-256 (R475). -/
def signOf (payload before : List Byte) : List Word × Bool :=
  let f := fun (i : Nat) => beNum ((payload.drop (32 * i)).take 32)
  (wordsOf 8 (sha256 (payload.take 64)), ecdsaOk (f 0) (f 1) (f 2) (f 3) (beNum (sha256 before)))

/-! ### Slot header (R470) -/

/-- The header in the 64 bytes of a slot; none where marker, format version or header CRC is wrong. -/
def readHdr (bs : List Byte) : Option SlotHdr :=
  if bs.length == 64 && leAt bs 0 4 == 0x49475A58 && leAt bs 4 2 == 1 && leAt bs 0x3C 4 == (crc32 (bs.take 0x3C)).toNat then
    some { pkg := bs.getD 6 0#8, mode := BitVec.ofNat 3 (leAt bs 7 1), qdiv := bs.getD 8 0#8, gen := BitVec.ofNat 32 (leAt bs 0xC 4),
           len := BitVec.ofNat 32 (leAt bs 0x10 4), crc := BitVec.ofNat 32 (leAt bs 0x14 4), build := BitVec.ofNat 32 (leAt bs 0x18 4) }
  else none

/-! ### Records (R471, R472) -/

/-- A record as it is stored: TYPE, FLAGS, LEN, payload with its padding, CRC, and the slot offset it starts at. -/
structure RawRec where
  ty : Nat
  flags : Nat
  len : Nat
  body : List Byte
  crc : Nat
  ofs : Nat
  deriving DecidableEq, Repr

/-- The bytes that the record's CRC covers: header, payload and padding. -/
def RawRec.sum (r : RawRec) : List Byte := leBytes r.ty 2 ++ leBytes r.flags 2 ++ leBytes r.len 4 ++ r.body
/-- The record's bytes in the slot. -/
def RawRec.bytes (r : RawRec) : List Byte := r.sum ++ leBytes r.crc 4

/-- At most so many records of a TYPE (Table 19-3); 0 = any. -/
def recMax (ty : Nat) : Nat :=
  if ty = 5 ∨ ty = 8 ∨ ty = 9 ∨ ty = 0xA ∨ ty = 0xC ∨ ty = 0xFE then 1 else if ty = 7 then 2 else if ty = 0xB then 32 else 0

/-- The types of Table 19-3. -/
def knownType (ty : Nat) : Bool := decide ((1 ≤ ty ∧ ty ≤ 0xC) ∨ ty = 0xFE ∨ ty = 0xFF)

/-- The reason for which a record's form makes the slot invalid, 0 = none: its CRC, an unknown mandatory TYPE, FLAGS, the counts of
Table 19-3, SIGN elsewhere than before END, a record past LENGTH, END elsewhere than at LENGTH (R471 to R473, Table 19-4). `seen` are the
types before it. -/
def recForm (length : Nat) (seen : List Nat) (r : RawRec) : Nat :=
  if r.crc ≠ (crc32 r.sum).toNat then 2
  else if seen.contains 0xFE ∧ r.ty ≠ 0xFF then 3
  else if length < r.ofs + r.bytes.length then 3
  else if !(knownType r.ty) then (if r.ty < 0x8000 then 3 else 0)
  else if 2 ≤ r.flags ∨ (r.flags = 1 ∧ r.ty ≠ 2 ∧ r.ty ≠ 3 ∧ r.ty ≠ 4) then 3
  else if recMax r.ty ≠ 0 ∧ recMax r.ty ≤ seen.count r.ty then 3
  else if r.ty = 0xFF ∧ r.ofs + r.bytes.length ≠ length then 3
  else 0

/-- The build and the size of a PATCH record do not fit, k words of patch RAM being used (02 R47). -/
def patchBad (build : Word) (k : Nat) (ws : List Word) : Bool :=
  ws.getD 0 0#32 != build || decide (8192 < k + (ws.length - 2)) || decide (32768 < (ws.getD 1 0#32).toNat + 4 * (ws.length - 2))

/-- The first record in bytes that start at a slot offset. -/
def readRec (ofs : Nat) (bs : List Byte) : RawRec :=
  let n := (leAt bs 4 4 + 3) / 4 * 4
  { ty := leAt bs 0 2, flags := leAt bs 2 2, len := leAt bs 4 4, body := (bs.drop 8).take n, crc := leAt bs (8 + n) 4, ofs := ofs }

/-- The walk through the records of a slot read back: the reason of checks 2, 3 and 6 at the first record that fails, 0 = none, and
what SIGN says. -/
def walkRecs (length : Nat) (build : Word) (all : List Byte) : Nat → List Nat → Nat → Option (List Word × Bool) → Nat → Nat × Option (List Word × Bool)
  | 0, _, _, sg, _ => (3, sg)
  | k + 1, seen, patch, sg, ofs =>
    let bs := all.drop (ofs - 0x40)
    let r := readRec ofs bs
    let ws := wordsOf r.body.length r.body
    if bs.length < 12 ∨ bs.length < r.bytes.length ∨ r.body.length ≠ (r.len + 3) / 4 * 4 then (3, sg)
    else if recForm length seen r ≠ 0 then (recForm length seen r, sg)
    else if r.ty = 0xFF then (0, sg)
    else if r.ty = 0xB ∧ r.len ≠ 0 ∧ patchBad build patch ws then (6, sg)
    else
      walkRecs length build all k (r.ty :: seen) (if r.ty = 0xB then patch + (ws.length - 2) else patch)
        (if r.ty = 0xFE then some (signOf r.body (all.take (ofs - 0x40))) else sg) (ofs + r.bytes.length)

/-- Check 10: with programmed fuses, a SIGN record whose key has the fused hash and whose signature verifies (R475). -/
def signFails (blank : Bool) (key : List Word) (sg : Option (List Word × Bool)) : Bool :=
  !blank && (match sg with | some (h, ok) => !ok || h != key | none => true)

/-- Checks 1 to 6 and 10 of Table 19-4 on a slot read back (R483): header bytes, the bytes from 0x40 on, the slot size S, SYS_ID.PKG, the
Helm ROM build, the fuses, and the IMAGE_CRC to meet. -/
def slotCheck (hdr all : List Byte) (size pkg : Nat) (build : Word) (blank : Bool) (key : List Word) (want : Word) : Nat :=
  match readHdr hdr with
  | none => 1
  | some h =>
    if size < h.len.toNat ∨ h.len.toNat < 0x48 then 4
    else if h.pkg.toNat ≠ pkg then 5
    else
      let img := all.take (h.len.toNat - 0x40)
      let (r, sg) := walkRecs h.len.toNat build img (img.length + 1) [] 0 none 0x40
      if r ≠ 0 then r
      else if crc32 img ≠ h.crc ∨ h.crc ≠ want then 2
      else if signFails blank key sg then 10
      else 0

end Sys2Proof.Machine
end

