-- ==== Sys2Proof/Machine/SxSeq.lean ====
section
/-!
DEFINITION. The sequencer of a cluster: loop levels and the end of a word (spec 11 R274, R284), completion of external reads and the
resumption of a pre-empted chain (R286, R287).
-/
namespace Sys2Proof.Machine

/-! ### Loop levels (R284) -/

/-- Level k is active: LA of ST. -/
def Cluster.lvl (c : Cluster) (k : Fin 2) : Bool := bit c.st (10 + k.val)

/-- A level closes, with any level nested inside it. -/
def Cluster.shut (k : Fin 2) (c : Cluster) : Cluster :=
  let c := { c with st := setBit c.st 11 false, rot := c.rot.set 1 false }
  if k = 0 then { c with st := setBit c.st 10 false, rot := c.rot.set 0 false } else c

/-- The word at PC is the last of an active level's body. -/
def Cluster.atEnd (c : Cluster) (k : Fin 2) : Bool := c.lvl k && c.pc == c.le[k]

/-- A level goes on: LC above 1. LC = 0 at the end of a body, which only a write of LC can leave, is open: j (log entry 23). -/
def Cluster.again (j : Bool) (c : Cluster) (k : Fin 2) : Bool := decide (1 < c.lc[k]) || (c.lc[k] == 0 && j)

/-- The next iteration of a level. -/
def Cluster.iterate (k : Fin 2) (c : Cluster) : Cluster := { c with lc := c.lc.set k.val ((c.lc[k] + 65535) % 65536), pc := c.ls[k] }

/-- The end of a word: the inner level first, the outer where the inner closes; else the next word follows. RRB goes down by one
where a rotating level ends an iteration (R274). -/
def Cluster.finish (j : Bool) (c : Cluster) : Cluster :=
  let i := c.atEnd 1
  let iGo := i && c.again j 1
  let o := c.atEnd 0 && !iGo
  let oGo := o && c.again j 0
  let turn := (i && c.rot[(1 : Fin 2)]) || (o && c.rot[(0 : Fin 2)])
  let d : Cluster := if iGo then c.iterate 1
    else
      let d := if i then c.shut 1 else c
      if oGo then d.iterate 0 else { (if o then d.shut 0 else d) with pc := (c.pc + 1) % 8192 }
  if turn then { d with rrb := (d.rrb + 15) % 16 } else d

/-- A taken branch: levels whose body it leaves close (R284). -/
def Cluster.jump (a : Nat) (c : Cluster) : Cluster :=
  let out := fun (k : Fin 2) => c.lvl k && decide (a < c.ls[k] ∨ c.le[k] < a)
  let c := if out 0 then c.shut 0 else if out 1 then c.shut 1 else c
  { c with pc := a }

/-! ### External reads (R287, R290) -/

/-- Cycles of 2.5 ns between two ship times. -/
def cycles (t0 t1 : Nat) : Nat := (t1 - t0) * 2 / 5

/-- The external read of a priority level. -/
def Cluster.readOf (c : Cluster) (p : Nat) : Option ExtRead := c.reads.find? (fun r => r.prio == p)

/-- Cycles for which the word of a level has stalled on its read by now. -/
def Cluster.stalled (c : Cluster) (now p : Nat) : Nat :=
  match c.readOf p with
  | some r => if r.data.isNone then cycles r.t0 now else 0
  | none => 0

/-- A stalled word completes with its data: the data register and, with SB, QSB. Register number 16 + S: the load's register is also
its address register with PI = 1, and what it holds is open (log entry 23). -/
def Cluster.readDone (k : Nat) (r : ExtRead) (v : Word) (side : Nat) (c : Cluster) : Cluster :=
  let v := if 16 ≤ r.reg then Config.freeWord k else v
  let c := { c with s := c.s.setIfInBounds (r.reg % 16) v, reads := c.reads.filter (fun x => x.prio != r.prio) }
  (if r.sb then { c with qsb := side } else c).finish (Config.freeBool k)

/-- A chain of priority p goes on: its word completes with the data parked for it, or stalls on. -/
def Cluster.resume (k now p : Nat) (c : Cluster) : Cluster :=
  match c.readOf p with
  | some r =>
    match r.data with
    | some (v, side) => c.readDone k r v side
    | none => { c with reads := c.reads.map (fun x => if x.prio = p then { x with t0 := now } else x) }
  | none => c

end Sys2Proof.Machine
end

