-- ==== Sys2Proof/Machine/Loops.lean ====
section
/-!
DEFINITION. The Brass kernels and the loop engine (spec 06 R153-R171; 11 R282, R285, R286, R291): current kernels at the
PWM-centre trigger, watch kernels at the watch trigger, dispatch and return of chains, adoption of coefficients, late
watches, LOOP commits, and the rows CHAIN_DISPATCH, SOFTWARE_TRIGGER, COEFF_CONVERSION_DONE and LOOP_LOADCLR.
-/
namespace Sys2Proof.Machine

/-! ### Coefficients (R155, R163) -/

/-- Offsets of the F32 registers of an axis instance that make a coefficient block: LOOP_IFS to LOOP_LAMBDA. -/
def coefOffs : List Nat := (List.range 30).map fun k => 4 + 4 * k

/-- A converted coefficient: Q1.31 mantissa with an exponent of at least −16, so a grid of 2^-47 (R163). -/
def coefRat (w : Word) : Rat := (roundFree 601 (f32 w * pow2 47) : Rat) * pow2 (-47)

/-- A coefficient in use by register offset; 0 while no block has been adopted. -/
def LoopAx.cf (x : LoopAx) (o : Nat) : Rat := coefRat (x.coeff.words.getD ((o - 4) / 4) 0#32)

/-- The F32 set of the active window. -/
def activeSet (s : State) (n : Fin 16) : List Word := coefOffs.map fun o => ar s .loop n.val o

/-- Coefficients of a notch of centre f, bandwidth w and depth d at the watch rate fw (R161). -/
def notchCo (f w d fw : Rat) : NotchCo :=
  if f = 0 ∨ w = 0 ∨ fw = 0 then { on := false, b0 := 1, b1 := 0, b2 := 0, a2 := 0 }
  else
    let a := f / fw / 2
    let kk := sinTurn a / cosTurn a
    let q := f / w
    let nn := 1 + kk / q + kk * kk
    { on := true, b0 := (1 + d * kk / q + kk * kk) / nn, b1 := 2 * (kk * kk - 1) / nn, b2 := (1 - d * kk / q + kk * kk) / nn,
      a2 := (1 - kk / q + kk * kk) / nn }

/-- Conversion of the active set by the Helm: the F32 words, and the notches at the watch rate of the moment (R161, R163). -/
def coefConvert (s : State) (n : Fin 16) : Coefs :=
  let tw : Rat := (gW s (grpOf n) : Rat) / 1000000000
  let fw := if tw = 0 then 0 else 1 / tw
  let x := fun (o : Nat) => f32 (ar s .loop n.val o)
  { words := activeSet s n, notch := (List.range 4).map fun k => notchCo (x (0x48 + 12 * k)) (x (0x4C + 12 * k)) (x (0x50 + 12 * k)) fw }

/-- A new block that changes MOT_R, MOT_LD or MOT_LQ restarts the estimates with it (R158, R163). -/
def LoopAx.take (x : LoopAx) (c : Coefs) : LoopAx :=
  let ch := [0x28, 0x2C, 0x30].any fun o => x.coeff.words.getD ((o - 4) / 4) 0#32 != c.words.getD ((o - 4) / 4) 0#32
  let y := { x with coeff := c, newCoeff := none }
  if ch then { y with rest := y.cf 0x28, kl := 1, clampR := false, clampL := false } else y

/-- A kernel adopts a complete block at the start of its run (R163). -/
def adopt (n : Fin 16) (s : State) : State :=
  modLoop n (fun x => match x.newCoeff with | some c => x.take c | none => x) s

/-- LOOP_CFG.ESTEN. -/
def estOn (s : State) (n : Fin 16) : Bool := bit (ar s .loop n.val 0) 6
/-- Resistance in use: the estimate, or MOT_R with ESTEN = 0 (R158). -/
def restUse (s : State) (n : Fin 16) : Rat := if estOn s n then s.loop[n].rest else s.loop[n].cf 0x28
/-- Inductance scale in use. -/
def klUse (s : State) (n : Fin 16) : Rat := if estOn s n then s.loop[n].kl else 1

/-! ### Vectors -/

/-- Rotation of a vector by an angle in turns. -/
def rot (v : Rat × Rat) (th : Rat) : Rat × Rat :=
  let c := cosTurn th
  let s := sinTurn th
  (v.1 * c - v.2 * s, v.1 * s + v.2 * c)

/-- Square root of 3. -/
def sqrt3 : Rat := rsqrt 3

/-- Phase currents to the stationary frame, amplitude-invariant (PRESUMED, log entry 21). -/
def clarke (u v w : Rat) : Rat × Rat := ((2 * u - v - w) / 3, (v - w) / sqrt3)

/-- Magnitude clamp that keeps the direction, and whether it acted (R157). -/
def vlimit (v : Rat × Rat) (lim : Rat) : (Rat × Rat) × Bool :=
  let m2 := v.1 * v.1 + v.2 * v.2
  if lim * lim < m2 then let k := lim / rsqrt m2; ((v.1 * k, v.2 * k), true) else (v, false)

/-- Min-max injection: duties of slots A, B, C as fractions of the period (R156). -/
def svm (v : Rat × Rat) : List Rat :=
  let a := v.1
  let b := (sqrt3 * v.2 - v.1) / 2
  let c := (-(sqrt3 * v.2) - v.1) / 2
  let off := (rmax a (rmax b c) + rmin a (rmin b c)) / 2
  [a, b, c].map fun x => mkRat 1 2 + x - off

/-- A fraction of turns brought onto −1/2 to 1/2. -/
def wrapTurn (x : Rat) : Rat := x - (x + mkRat 1 2).floor

/-! ### Duty path -/

/-- The off code. -/
def offWord : Word := 0x40000000#32

/-- PWM word for a fraction of the period of an axis's group (09 Table 9-1). -/
def dutyOf (s : State) (n : Fin 16) (d : Rat) : Word :=
  let full : Int := 16 * fld (ar s .pwm (16 + (grpOf n).val) 0) 0 20
  BitVec.ofInt 32 (iclamp 0 full (roundFree 611 (d * full)))

/-- A write of one duty shadow. -/
def putDuty (n : Fin 16) (k : Fin 4) (w : Word) (s : State) : State := modPa n (fun p => { p with shadow := p.shadow.set k.val w }) s

/-- The completion mark of an axis. -/
def putMark (n : Fin 16) (s : State) : State := modPa n (fun p => { p with mark := true }) s

/-- A Brass kernel's duties: four slots, the off code where its kind drives none, then the mark; in SERVICE no duty is
written (R154, R167). -/
def brassDuties (n : Fin 16) (ws : List Word) (s : State) : State :=
  let s := if mode s = mService then s
    else forEach (List.finRange 4) (fun k s => putDuty n k (ws.getD k.val offWord) s) s
  putMark n s

/-- Currents in amperes of a sample buffer, I0 to I2. -/
def currents (s : State) (n : Fin 16) (ifs : Rat) : Rat × Rat × Rat :=
  let b := sampBuf (tixP s (grpOf n))
  let i := fun k => q31 (getXb s n (b + k)) * ifs
  (i 1, i 2, i 3)

/-- Angle word of the sample buffer. -/
def angIn (s : State) (n : Fin 16) : Word := getXb s n (sampBuf (tixP s (grpOf n)) + 6)

/-- Electrical angle in turns: POLEPAIRS × ang + EOFS (R156). -/
def elecAngle (s : State) (n : Fin 16) : Rat :=
  let c := ar s .loop n.val 0
  (((fld c 8 7 * fld (angIn s n) 0 16 + fld c 16 16) % 65536 : Nat) : Rat) / 65536

/-- ST_IQ and ST_ID in Q1.31 of AX_IFS. -/
def putStatusI (n : Fin 16) (iq id_ ifs : Rat) (s : State) : State :=
  let q := fun (x : Rat) => if ifs = 0 then 0#32 else toQ31 612 (x / ifs)
  putXb n 68 (q id_) (putXb n 67 (q iq) s)

/-- The period in seconds. -/
def tSec (s : State) (n : Fin 16) : Rat := (gT s (grpOf n) : Rat) / 1000000000

/-- A saturation episode continues or ends (R157). -/
def satStep (n : Fin 16) (sat : Bool) (s : State) : State :=
  let s := iwBit s .loop n.val 0x290 0 sat
  if sat then modLoop n (fun x => { x with satRun := x.satRun + 1 }) s else satEnd n s

/-- EST_FROZEN and EST_CLAMP of LOOP_FLAGS. -/
def estFlags (frozen : Bool) (n : Fin 16) (s : State) : State :=
  iwBit (iwBit s .loop n.val 0x290 1 frozen) .loop n.val 0x290 2 (s.loop[n].clampR || s.loop[n].clampL)

/-- The estimator after a period (R158): the committed values without ESTEN; held without torque, below 5 % of AX_IFS or in saturation; else one step
of the recursive least squares on the prediction error of the previous period, whose result is free where that error is not 0, clamped to half and
twice the committed values, with EST_BOUND on each entry to a clamp. -/
def estStep (n : Fin 16) (i : Rat × Rat) (ifs : Rat) (sat : Bool) (s : State) : State :=
  let x := s.loop[n]
  let r0 := x.cf 0x28
  if !(estOn s n) then estFlags false n (modLoop n (fun x => { x with rest := r0, kl := 1, clampR := false, clampL := false }) s)
  else if sat ∨ !(tq s n) ∨ i.1 * i.1 + i.2 * i.2 < (ifs / 20) * (ifs / 20) then estFlags true n s
  else
    let err := match x.pred with | some p => (i.1 - p.1, i.2 - p.2) | none => (0, 0)
    let (f, s) := takeFresh s
    let e : Rat × Rat := if err = (0, 0) then (x.rest, x.kl) else Config.rlsStep f (x.cf 0x78) (x.rest, x.kl) err i
    let r := rclamp (r0 / 2) (2 * r0) e.1
    let k := rclamp (mkRat 1 2) 2 e.2
    let cr := decide (r ≠ e.1)
    let ck := decide (k ≠ e.2)
    let s := estFlags false n (modLoop n (fun x => { x with rest := r, kl := k, clampR := cr, clampL := ck }) s)
    if (cr && !x.clampR) || (ck && !x.clampL) then ev 6 n.val 8 n.val [toF32 613 r, toF32 614 k] s else s

/-- Coefficients a and b of one rotor-frame axis over a period (R156); b = T / L with Rest = 0. -/
def plant (rest l ts : Rat) : Rat × Rat :=
  let a := if l = 0 then 0 else expReal (-(rest * ts) / l)
  (a, if rest = 0 then (if l = 0 then 0 else ts / l) else (1 - a) / rest)

/-- One axis of the deadbeat prediction (R156): the current predicted for t0 + T, and the voltage of period k + 2 before the clamp. -/
def deadbeat (rest l ts db i iref e u0 u1 : Rat) : Rat × Rat :=
  let (a, b) := plant rest l ts
  let ip1 := a * i + b * ((u0 + u1) / 2 - e)
  let it := ip1 + db * (iref - ip1)
  (ip1, if b = 0 then 0 else 2 * ((it - a * ip1) / b + e) - u1)

/-- One PI controller: output before any clamp, and the integrator after the period (R159). -/
def piStep (kp ki err int ts : Rat) : Rat × Rat := (kp * err + int, int + ki * err * ts)

/-- Active current reference in amperes. -/
def iqRef (s : State) (n : Fin 16) (ifs : Rat) : Rat := q31 s.loop[n].iqAct * ifs

/-- Voltage limit of the three-phase kinds. -/
def triLimit (x : LoopAx) : Rat := x.cf 0x40 / sqrt3 * mkRat 49 50

/-- Duties of slots A to C for a voltage in the stationary frame, with its saturation. -/
def triDuties (n : Fin 16) (u : Rat × Rat) (sat : Bool) (s : State) : State :=
  let vb := s.loop[n].cf 0x40
  satStep n sat (brassDuties n ((svm (u.1 / vb, u.2 / vb)).map (dutyOf s n)) s)

/-- Change of an electrical angle since the last run, in turns: 0 at the first. -/
def angleStep (x : LoopAx) (th : Rat) : Rat := match x.thPrev with | some p => wrapTurn (th - p) | none => 0

/-- Electrical speed in rad/s from a change of angle in turns over a period. -/
def radPerS (dth ts : Rat) : Rat := if ts = 0 then 0 else dth * 2 * realPi / ts

/-- Back-EMF and cross-coupling in d and q (R156). -/
def backEmf (w ld lq flux : Rat) (i : Rat × Rat) : Rat × Rat := (-w * lq * i.2, w * ld * i.1 + w * flux)

/-- The PI structure of PIFOC in a frame at angle th (R159): PI on d and q, feed-forward e, the clamp of R157 with the integrators held, and the
advance by 2wT. -/
def piFoc (n : Fin 16) (th : Rat) (i e : Rat × Rat) (s : State) : State :=
  let x := s.loop[n]
  let ts := tSec s n
  let (ud, nd) := piStep (x.cf 0x20) (x.cf 0x24) (x.cf 0x38 - i.1) x.int0 ts
  let (uq, nq) := piStep (x.cf 0x20) (x.cf 0x24) (iqRef s n (x.cf 4) - i.2) x.int1 ts
  let (u2, sat) := vlimit (ud + e.1, uq + e.2) (triLimit x)
  let s := modLoop n (fun y => { y with int0 := if sat then y.int0 else nd, int1 := if sat then y.int1 else nq, thPrev := some th }) s
  triDuties n (rot u2 (th + 2 * angleStep x th)) sat s

/-- DBFOC (R156, R157). -/
def dbFoc (n : Fin 16) (th : Rat) (i : Rat × Rat) (s : State) : State :=
  let x := s.loop[n]
  let ifs := x.cf 4
  let ts := tSec s n
  let dth := angleStep x th
  let ld := klUse s n * x.cf 0x2C
  let lq := klUse s n * x.cf 0x30
  let e := backEmf (radPerS dth ts) ld lq (x.cf 0x34) i
  let u0 := rot x.uk (-th)
  let u1 := rot x.uk1 (-th)
  let k := x.cf 0x3C
  let (pd, ud) := deadbeat (restUse s n) ld ts k i.1 (x.cf 0x38) e.1 u0.1 u1.1
  let (pq, uq) := deadbeat (restUse s n) lq ts k i.2 (iqRef s n ifs) e.2 u0.2 u1.2
  let (u2, sat) := vlimit (ud, uq) (triLimit x)
  let uk2 := rot u2 (th + 2 * dth)
  let s := estStep n i ifs sat s
  let s := modLoop n (fun y => { y with uk := y.uk1, uk1 := uk2, thPrev := some th, pred := some (pd, pq) }) s
  triDuties n uk2 sat s

/-- An axis without torque: the off code and the mark (R167); a DBFOC estimator is held. -/
def kernelOff (n : Fin 16) (s : State) : State :=
  let s := satStep n false (brassDuties n [] s)
  if ckind s n = 1 then estStep n (0, 0) 1 false s else s

/-- DBFOC and PIFOC (R156, R157, R159). -/
def kernelFoc (db : Bool) (n : Fin 16) (s : State) : State :=
  let x := s.loop[n]
  let ifs := x.cf 4
  let (iu, iv, iw) := currents s n ifs
  let th := elecAngle s n
  let i := rot (clarke iu iv iw) (-th)
  let s := putStatusI n i.2 i.1 ifs s
  if !(tq s n) then kernelOff n s
  else if db then dbFoc n th i s
  else piFoc n th i (backEmf (radPerS (angleStep x th) (tSec s n)) (x.cf 0x2C) (x.cf 0x30) (x.cf 0x34) i) s

/-- A bridge voltage under PI control: the voltage clamped to VBUS_NOM × 0.98 with the integrator held while it is clamped. -/
def bridge (x : LoopAx) (ref i int ts : Rat) (lo : Rat) : Rat × Rat × Bool :=
  let lim := x.cf 0x40 * mkRat 49 50
  let (u, nx) := piStep (x.cf 0x20) (x.cf 0x24) (ref - i) int ts
  let v := rclamp (lo * lim) lim u
  (v, if v = u then nx else int, v != u)

/-- Duties of a full bridge for a voltage. -/
def fullBridge (s : State) (n : Fin 16) (u vb : Rat) : List Word :=
  [dutyOf s n (mkRat 1 2 + u / (2 * vb)), dutyOf s n (mkRat 1 2 - u / (2 * vb))]

/-- DC, VALVE and STEPPER (R159). VSAT marks the voltage limit, not the zero end of a VALVE half-bridge (DEDUCED from R157). -/
def kernelBridge (n : Fin 16) (s : State) : State :=
  let x := s.loop[n]
  let ifs := x.cf 4
  let ts := tSec s n
  let vb := x.cf 0x40
  let (i0, i1, _) := currents s n ifs
  let kind := ckind s n
  let s := match kind with
    | 5 => putStatusI n i0 0 ifs s
    | 6 => putStatusI n (i0 - i1) 0 ifs s
    | _ => putStatusI n i0 i1 ifs s
  if !(tq s n) then kernelOff n s
  else match kind with
    | 5 =>
      let (u, nx, sat) := bridge x (iqRef s n ifs) i0 x.int0 ts (-1)
      let s := modLoop n (fun y => { y with int0 := nx }) s
      satStep n sat (brassDuties n (fullBridge s n u vb) s)
    | 6 =>
      let ref := iqRef s n ifs
      let (ua, na, sa) := bridge x ref i0 x.int0 ts 0
      let (ub, nb, sb) := bridge x (-ref) i1 x.int1 ts 0
      let sa := sa && decide (0 < ua)
      let sb := sb && decide (0 < ub)
      if 0 < ref then
        satStep n sa (brassDuties n [dutyOf s n (ua / vb)] (modLoop n (fun y => { y with int0 := na, int1 := 0 }) s))
      else if ref < 0 then
        satStep n sb (brassDuties n [offWord, dutyOf s n (ub / vb)] (modLoop n (fun y => { y with int0 := 0, int1 := nb }) s))
      else satStep n false (brassDuties n [] (modLoop n (fun y => { y with int0 := 0, int1 := 0 }) s))
    | _ =>
      let a := angIn s n
      let (ua, na, sa) := bridge x (q15 (fld a 0 16) * ifs) i0 x.int0 ts (-1)
      let (ub, nb, sb) := bridge x (q15 (fld a 16 16) * ifs) i1 x.int1 ts (-1)
      let s := modLoop n (fun y => { y with int0 := na, int1 := nb }) s
      satStep n (sa || sb) (brassDuties n (fullBridge s n ua vb ++ fullBridge s n ub vb) s)

/-- Command set of the axis's watch in use: word k. -/
def cmdWord (s : State) (n : Fin 16) (k : Nat) : Word := getXb s n (cmdBuf (tixW s (grpOf n)) + k)

/-- Electrical speed of VEL_CMD in turns/s: pole pairs times the counts of the axis's channel in one revolution (DEDUCED, log entry 57); free where no
channel gives that number. -/
def cmdTurns (n : Fin 16) (s : State) : Rat × State :=
  let v := f32 (cmdWord s n 3)
  let cpr : Nat := match chanOf s n with | some c => (ar s .enc c.val 4).toNat | none => 0
  if cpr = 0 then let (k, s) := takeFresh s; (f32 (Config.freeWord k), s)
  else (v * fld (ar s .loop n.val 0) 8 7 / cpr, s)

/-- IM_VF (R159): the angle integrates VEL_CMD, |u| = MOT_PSI w + MOT_R |i|, and w falls where the stator current reaches TORQUE_LIM × AX_IFS, by a
factor the spec does not give (free in 0 to 1; 0 at TORQUE_LIM = 0). IQ_ACT and ID_ACT of this kind are free, R154 names none. -/
def kernelVf (n : Fin 16) (s : State) : State :=
  let x := s.loop[n]
  let ifs := x.cf 4
  let ts := tSec s n
  let (iu, iv, iw) := currents s n ifs
  let i := clarke iu iv iw
  let mag := rsqrt (i.1 * i.1 + i.2 * i.2)
  let (f0, s) := takeFresh s
  let (f1, s) := takeFresh s
  let s := putXb n 68 (Config.freeWord f1) (putXb n 67 (Config.freeWord f0) s)
  if !(tq s n) then kernelOff n s
  else
    let tl := rabs (q31 (cmdWord s n 5))
    let (v, s) := cmdTurns n s
    let (k, s) := takeFresh s
    let w := v * (if tl = 0 then 0 else if tl * ifs ≤ mag then rclamp 0 1 (f32 (Config.freeWord k)) else 1)
    let th := wrapTurn (x.angle + w * ts)
    let u := if tl = 0 then 0 else x.cf 0x34 * rabs (w * 2 * realPi) + x.cf 0x28 * mag
    let (u2, sat) := vlimit (rot (u, 0) th) (triLimit x)
    triDuties n u2 sat (modLoop n (fun y => { y with angle := th }) s)

/-- IM_RFOC (R159): rotor flux and slip from the current model, with MOT_LD the magnetising inductance and MOT_PSI the rotor time constant (Table 6-3), and
the PI structure of PIFOC in the rotor-flux frame with the transient inductance MOT_LQ. The discrete form is PRESUMED (log entry 57). -/
def kernelRfoc (n : Fin 16) (s : State) : State :=
  let x := s.loop[n]
  let ifs := x.cf 4
  let ts := tSec s n
  let lm := x.cf 0x2C
  let tr := x.cf 0x34
  let (iu, iv, iw) := currents s n ifs
  let th := elecAngle s n + x.angle
  let i := rot (clarke iu iv iw) (-th)
  let s := putStatusI n i.2 i.1 ifs s
  if !(tq s n) then kernelOff n s
  else
    let flux := if tr = 0 then lm * i.1 else x.flux + ts * (lm * i.1 - x.flux) / tr
    let slip := if flux = 0 ∨ tr = 0 then 0 else lm * i.2 / (tr * flux)
    let w := radPerS (angleStep x th) ts
    let s := modLoop n (fun y => { y with flux := flux, angle := wrapTurn (y.angle + slip * ts / (2 * realPi)) }) s
    piFoc n th i (backEmf w (x.cf 0x30) (x.cf 0x30) flux i) s

/-- Time of a Brass current kernel in cycles of 2.5 ns (Table 6-1). -/
def brassCycles (kind : Nat) : Nat :=
  match kind with | 1 => 272 | 2 => 168 | 3 => 120 | 4 => 300 | 5 => 100 | 6 => 88 | 7 => 180 | _ => 0

/-- Busy cycles of a cluster. -/
def addBusy (g : Fin 4) (k : Nat) (s : State) : State := modClu g (fun c => { c with busy := c.busy + k }) s

/-- The Brass current kernel of an axis (R153); none for CKIND 0 and 8. -/
def brassCurrent (n : Fin 16) (s : State) : State :=
  let k := ckind s n
  if k = 0 ∨ 7 < k then s
  else
    let s := addBusy (grpOf n) (brassCycles k) (adopt n s)
    match k with
    | 1 => kernelFoc true n s
    | 2 => kernelFoc false n s
    | 3 => kernelVf n s
    | 4 => kernelRfoc n s
    | _ => kernelBridge n s

/-! ### Watch kernels (R160, R161) -/

/-- One notch (R161). -/
def notchStep (co : NotchCo) (h : Notch) (x : Rat) : Rat × Notch :=
  if !co.on then (x, h)
  else
    let y := co.b0 * x + co.b1 * h.x1 + co.b2 * h.x2 - co.b1 * h.y1 - co.a2 * h.y2
    (y, { x1 := x, x2 := h.x1, y1 := y, y2 := h.y1 })

/-- Notch k of the block in use. -/
def LoopAx.notchAt (x : LoopAx) (k : Nat) : NotchCo := x.coeff.notch.getD k { on := false, b0 := 1, b1 := 0, b2 := 0, a2 := 0 }

/-- The four notches in turn. -/
def notchAll (n : Fin 16) (iq : Rat) (s : State) : Rat × State :=
  (List.finRange 4).foldl (fun (acc : Rat × State) k =>
    let x := acc.2.loop[n]
    let (y, h) := notchStep (x.notchAt k.val) x.notches[k] acc.1
    (y, modLoop n (fun x => { x with notches := x.notches.set k.val h }) acc.2)) (iq, s)

/-- Velocity filter: first order at VEL_LPF Hz (PRESUMED form, log entry 21); 0 bypasses it. -/
def lpf (f tw prev x : Rat) : Rat :=
  if f ≤ 0 then x else prev + (1 - expReal (-2 * realPi * f * tw)) * (x - prev)

/-- Enabled notches of an axis. -/
def notchCount (x : LoopAx) : Nat := ((List.range 4).filter fun k => (x.notchAt k).on).length

/-- Time of the Brass watch kernel of an axis in cycles (Table 6-5, the dispatch of the chain included). -/
def watchCycles (o : Nat) (x : LoopAx) : Nat := if o = 2 then 40 else (if o = 0 then 80 else 0) + 120 + 40 * notchCount x

/-- POS_ACT and VEL_ACT of an axis at the watch trigger, as the watch kernel writes them (R160; 05 R145; 08 R197): those of its channel or of its open-loop
stepper; 0 without either. -/
def watchStatus (n : Fin 16) (s : State) : State :=
  let x := s.loop[n]
  let tw := axT s n
  let has := stepOpen s n || (chanOf s n).isSome
  let pa := if has then getXb64 s n (sampBuf (tixP s (grpOf n)) + 4) + ir64 s .home n.val 0x288 else 0
  let raw : Rat := match x.paPrev with | some p => if tw = 0 then 0 else ((pa - p : Int) : Rat) / 65536 / tw | none => 0
  let vf := if stepOpen s n then s.stp[n].vy else if has then lpf (x.cf 0x1C) tw x.vf raw else 0
  let pw := (pa : Rat) / 65536 + vf * tSec s n / 2
  let p : Rat := ((getXb64 s n (cmdBuf (tixW s (grpOf n)) + 1) : Int) : Rat) / 65536
  modLoop n (fun y => { y with vf := vf, paPrev := if has then some pa else none, ferr := p - pw })
    (putXb n 66 (toF32 621 vf) (putXb64 n 64 pa s))

/-- The Brass watch kernel of an axis (R160): POS_ACT and VEL_ACT, and the reference for the next watch. -/
def brassWatch (n : Fin 16) (s : State) : State :=
  let s := adopt n s
  let o := if ckind s n = 7 then 2 else outer s n
  let s := watchStatus n (addBusy (grpOf n) (watchCycles o s.loop[n]) s)
  let x := s.loop[n]
  let tw := axT s n
  let v := f32 (cmdWord s n 3)
  let a := f32 (cmdWord s n 4)
  let tl := q31 (cmdWord s n 5)
  if !(tq s n) ∨ ckind s n = 7 then modLoop n (fun y => { y with iqNext := 0#32 }) s
  else if o = 2 then modLoop n (fun y => { y with iqNext := toQ31 622 (rclamp (-1) 1 tl) }) s
  else
    let ifs := x.cf 4
    let vref := if o = 0 then x.cf 0xC * v + x.cf 8 * x.ferr else v
    let e := vref - x.vf
    let (iq, s) := notchAll n (x.cf 0x10 * a + x.cf 0x14 * e + x.s) s
    let lim := tl * ifs
    let hit := decide (lim < rabs iq)
    let iq := if hit then rsign iq * lim else iq
    let s := modLoop n (fun y => { y with s := if hit then y.s else y.s + x.cf 0x18 * e * tw,
                                          iqNext := if ifs = 0 then 0#32 else toQ31 623 (iq / ifs) }) s
    iwBit s .loop n.val 0x290 3 hit

/-! ### Chains (R165, R166; 11 R285, R286) -/

/-- The next entry of the running chain starts: entry address into PC, argument into S0, ST cleared. -/
def startEntry (g : Fin 4) (e : Nat) (s : State) : State :=
  let arg := ar s .loop (16 + g.val) (0x20 + 4 * e)
  modClu g (fun c => { c with pc := fld (trigWord s g e) 16 13, st := 0#32, s := c.s.set 0 arg, first := true, state := .running,
                              rot := Vector.replicate 2 false, runCyc := 0, hist := [] }) s

/-- What the return of a whole chain does: the watch chain copies the status blocks and its references count as computed (R27,
11 R282); a queue chain is raised again while packets remain (Table 6-4). -/
def chainDone (g : Fin 4) (c : Chain) (s : State) : State :=
  let tr := c.trig
  if tr.src = 2 then forEach (grpAxes g) (fun n s => statusCopy n (modLoop n (fun x => { x with watchDone := some c.widx }) s)) s
  else if tr.src = 4 then
    (if (s.queues[(⟨tr.sel % 64, Nat.mod_lt _ (by decide)⟩ : Fin 64)]).pkts.isEmpty then s else raiseTrig g tr s)
  else s

/-- The chain goes on with its next entry, or returns: the interrupted chain resumes, or the cluster goes idle (R286). -/
def chainNext (g : Fin 4) (s : State) : State :=
  match s.clu[g].chain with
  | none => s
  | some c =>
    match c.rest with
    | e :: es => startEntry g e (modClu g (fun x => { x with chain := some { c with rest := es, entry := e } }) s)
    | [] =>
      let s := match s.clu[g].frames with
        | f :: fs =>
          let (k, s) := takeFresh s
          modClu g (fun x => Cluster.resume k s.now (trigPrio f.chain.trig) { x with frames := fs, pc := f.pc, st := f.st, rot := f.rot, chain := some f.chain, first := false, state := .running, runCyc := f.cyc, hist := [], busy := x.busy + (if c.trig.src = 1 then 40 else 0) }) s
        | [] => modClu g (fun x => { x with chain := none, state := .idle, first := false }) s
      chainDone g c s

/-- The waiting trigger that goes first: highest priority, then lowest entry number. -/
def bestTrig (s : State) (g : Fin 4) : Option Trig :=
  let key := fun (t : Trig) => (3 - trigPrio t) * 64 + (chainEntries s g t).headD 0
  s.clu[g].waiting.foldl (fun acc t => match acc with
    | none => some t
    | some b => if key t < key b then some t else some b) none

/-- Dispatch on cluster g: the best waiting trigger, if no chain of equal or higher priority runs and the first word of the
running entry has been executed (R166; 11 R285, R286). The Brass kernels of a PWM-centre or watch chain lead it. -/
def chainDispatch (g : Fin 4) (s : State) : State :=
  let c := s.clu[g]
  match bestTrig s g with
  | none => s
  | some tr =>
    let run := match c.chain with | some x => some (trigPrio x.trig) | none => none
    let free : Bool := match run with | some p => decide (p < trigPrio tr) && !c.first | none => true
    if !free || c.state == .halted || c.state == .frozen || !(bit (sr s g 0) 0) then s
    else
      let frames := match c.chain with
        | some x => { pc := c.pc, st := c.st, chain := x, cyc := c.runCyc + c.stalled s.now (trigPrio x.trig), rot := c.rot } :: c.frames
        | none => c.frames
      let s := modClu g (fun x => { x with waiting := x.waiting.erase tr, frames := frames, state := .running, busy := x.busy + (if tr.src = 2 then 0 else 20),
                                           chain := some { trig := tr, rest := chainEntries s g tr, entry := 0, widx := watchIdx s g s.now } }) s
      let s := if tr.src = 1 then forEach (grpAxes g) brassCurrent s else if tr.src = 2 then forEach (grpAxes g) brassWatch s else s
      chainNext g s

/-- CHAIN_DISPATCH (R166). -/
def execChainDispatch (g : Fin 4) (t : Nat) (s : State) : Host.Outcome State Fault Refusal := .next (chainDispatch g (atTime t s))

/-- A write of LOOP_SWTRIG: bit 8g + e raises entry e of cluster g if its SRC is 6 (Table 6-4). -/
def swTrig (v : Word) (s : State) : State :=
  forEach allGroups (fun g s => forEach (List.range 8) (fun e s =>
    if bit v (8 * g.val + e) && fld (trigWord s g e) 0 3 == 6 then raiseTrig g { src := 6, sel := e } s else s) s) s

/-- SOFTWARE_TRIGGER: a write of LOOP_SWTRIG (Table 6-4). -/
def execSoftwareTrigger (v : Word) (s : State) : Host.Outcome State Fault Refusal := .next (swTrig v s)

/-- COEFF_CONVERSION_DONE: the Helm has converted the active set of an axis; the block is complete (R163). -/
def execCoeffConversionDone (n : Fin 16) (t : Nat) (s : State) : Host.Outcome State Fault Refusal :=
  let s := atTime t s
  .next (if helmUp s then modLoop n (fun x => { x with newCoeff := some (coefConvert s n) }) s else s)

/-- A write of LOOP_LOADCLR: bit g clears PEAK of cluster g. -/
def loadClr (v : Word) (s : State) : State :=
  forEach allGroups (fun g s => if bit v g.val then bw s .loop (0x30 + 4 * g.val) (setFld (br s .loop (0x30 + 4 * g.val)) 16 10 0) else s) s

/-- LOOP_LOADCLR (Table 6-11). -/
def execLoopLoadclr (v : Word) (s : State) : Host.Outcome State Fault Refusal := .next (loadClr v s)

/-! ### Watch boundary: references, late watches, following error, load (R27, R162, R169) -/

/-- The second consecutive missed watch of an axis active at the boundary t removes torque on the group and raises LATE_WATCH, also where LATE_DUTY took
the torque at the same boundary (01 R27; R169, R171). -/
def lateWatchCheck (g : Fin 4) (t : Nat) (s : State) : State :=
  let act := axMask (axActive s) ||| (if s.pwmG[g].lateAct.1 = t then s.pwmG[g].lateAct.2 else 0#16)
  forEach (grpAxes g) (fun n s =>
    if 2 ≤ s.loop[n].watchMiss ∧ act.getLsbD n.val then
      let late := fld (ir s .loop n.val 0x280) 16 16
      raise 2 (mkCode 6 n.val 2) (grpMask g) n.val [wd g.val, wd late] (groupOff g (bwBit s .loop 0 (20 + g.val) true))
    else s) s

/-- The watch kernels of the watch that ends at t have finished (01 R27). -/
def watchEnded (s : State) (n : Fin 16) (t : Nat) : Bool := s.loop[n].watchDone == some (watchIdx s (grpOf n) t - 1)

/-- The references of the ending watch become active on an axis, or repeat and are counted (R27, R169). A watch that
began in BOOT, where no trigger is raised (R167), or before the group started is not counted (DEDUCED). -/
def refAxis (t : Nat) (n : Fin 16) (s : State) : State :=
  let x := s.loop[n]
  let w0 := t - gW s (grpOf n)
  if watchEnded s n t then
    let s := modLoop n (fun x => { x with iqAct := x.iqNext, watchMiss := 0 }) s
    iwBit s .loop n.val 0x290 5 false
  else if counted s n ∧ s.helm.bootLeft ≤ w0 ∧ s.pwmG[grpOf n].start + gW s (grpOf n) ≤ t then
    let s := modLoop n (fun x => { x with watchMiss := x.watchMiss + 1 }) s
    let s := iwSat s .loop n.val 0x280 16 16
    let s := iwBit (bwBit s .loop 0x20 (16 + n.val) true) .loop n.val 0x290 5 true
    if x.watchMiss = 0 then ev 6 n.val 4 n.val (d64 t) s else s
  else s

/-- FOLLOW_ERR of an axis at a watch boundary: |p − pw| of the last watch against FOLLOW_LIM (R162). -/
def followCheck (n : Fin 16) (s : State) : State :=
  let x := s.loop[n]
  let lim := f32 (ar s .loop n.val 0x44)
  let on := decide (0 < lim ∧ lim < rabs x.ferr)
  let s := iw s .loop n.val 0x28C (toF32 631 x.ferr)
  let s := modLoop n (fun x => { x with follow := on }) s
  if on then raiseAx 1 6 7 n [toF32 631 x.ferr] s else s

/-- LOOP_REST, LOOP_LEST and the load of the cluster (R158, R172). -/
def loopReadbacks (g : Fin 4) (s : State) : State :=
  let s := forEach (grpAxes g) (fun n s =>
    iw (iw s .loop n.val 0x284 (toF32 632 (restUse s n))) .loop n.val 0x288 (toF32 633 (klUse s n * f32 (ar s .loop n.val 0x30)))) s
  let c := s.clu[g]
  let w := gW s g
  let pm := if w = 0 then 0 else min 1000 ((c.busy - c.busyMark) * 5 / 2 * 1000 / w)
  let o := 0x30 + 4 * g.val
  let s := bw s .loop o (wd (pm + 65536 * max pm (fld (br s .loop o) 16 10)))
  modClu g (fun c => { c with busyMark := c.busy }) s

/-- Step 6 of Table 1-7 for a group. -/
def refsActive (g : Fin 4) (t : Nat) (s : State) : State :=
  let s := forEach (grpAxes g) (refAxis t) s
  lateWatchCheck g t (forEach (grpAxes g) followCheck (loopReadbacks g s))

/-! ### Commits (R161, R164) -/

/-- A converted magnitude stays below 2^15. -/
def gainOk (w : Word) : Bool := match f32? w with | some x => decide (rabs x < 32768) | none => false

/-- Is the pending LOOP set of an axis invalid, and at which register first (R164)? -/
def loopCheck (s : State) (n : Fin 16) : Option Nat :=
  let c := ir s .loop n.val 0
  let k := fld c 0 4
  let r := fun o => ir s .loop n.val o
  let x := fun o => f32 (r o)
  let tw := axT s n
  let notch := fun (j : Nat) =>
    let fo := 0x48 + 12 * j
    let f := x fo
    let num := fun (o : Nat) (p : Rat → Bool) => match f32? (r o) with | some y => p y | none => false
    let on := (match f32? (r fo) with | some y => decide (0 < y) | none => true)
    [(!(num fo fun _ => true) || (on && tw != 0 && decide (mkRat 45 100 ≤ f * tw)), fo),
     (on && !(num (fo + 4) fun y => decide (0 < y)), fo + 4),
     (on && !(num (fo + 8) fun y => decide (0 ≤ y ∧ y ≤ 1)), fo + 8)]
  firstBad ([
    (decide (8 < k) || fld c 4 2 == 3 || ((k == 1 || k == 2 || k == 4) && fld c 8 7 == 0) || (k == 7 && !(stepOn s n)) ||
      (k != ckind s n && s.ax[n].seq != .disabled), 0),
    (!(f32Pos (r 4)), 4)] ++
    ([0x8, 0xC, 0x10, 0x14, 0x18, 0x1C, 0x20, 0x24].map fun o => (!(gainOk (r o)), o)) ++ [
    (!(gainOk (r 0x28)) || (decide (1 ≤ k ∧ k ≤ 7) && decide (x 0x28 < 0)), 0x28),
    (!(gainOk (r 0x2C)) || (decide (1 ≤ k ∧ k ≤ 7) && decide (x 0x2C ≤ 0)), 0x2C),
    (!(gainOk (r 0x30)) || ((k == 1 || k == 2 || k == 4) && decide (x 0x30 ≤ 0)), 0x30),
    (!(gainOk (r 0x34)), 0x34), (!(gainOk (r 0x38)), 0x38),
    (!(gainOk (r 0x3C)) || (k == 1 && decide (x 0x3C ≤ 0 ∨ 1 < x 0x3C)), 0x3C),
    (!(gainOk (r 0x40)) || (decide (1 ≤ k ∧ k ≤ 7) && decide (x 0x40 ≤ 0)), 0x40),
    (!(gainOk (r 0x44)), 0x44)] ++ (List.range 4).flatMap notch ++
    [(bit c 6 && decide (x 0x78 < mkRat 9 10 ∨ 1 < x 0x78), 0x78)])

/-- LOOP commit of an axis: refused whole, or copied into the active window, which the Helm converts thereafter (R163, R164). -/
def loopCommit (n : Fin 16) (s : State) : State :=
  let bad := loopCheck s n
  let s := bwBit s .loop 0x10 n.val false
  match bad with
  | some o => ev 6 n.val 6 n.val [wd o] s
  | none => copySet .loop n.val s

/-- Trigger-table commit of cluster g, between chains (Table 6-15). -/
def trigCommit (g : Fin 4) (s : State) : State :=
  let bad := (List.range 8).find? fun e =>
    let w := ir s .loop (16 + g.val) (4 * e)
    fld w 0 3 == 7 || (fld w 0 3 == 4 && decide (fld w 4 6 < 16))
  let s := bwBit s .loop 0x10 (16 + g.val) false
  match bad with
  | some e => ev 6 (g.val) 6 noAxis [wd (4 * e)] s
  | none => copySet .loop (16 + g.val) s

end Sys2Proof.Machine
end

