-- ==== Sys2Proof/Machine/Engine.lean ====
section
/-!
DEFINITION. The profile engine at a watch boundary (spec 03 R64, R93, R97, R98; 04 R99; Table 1-7 steps 2, 5 and 7): bound
point copies, PROF commits, the order of Table 3-12, the stages of Table 4-1, the command sets and the axis points.
-/
namespace Sys2Proof.Machine

/-! ### Bound points (13 R329) -/

/-- Watch group of a point: that of the axis whose band holds it, else group 0. -/
def ptGroup (i : Nat) : Fin 4 := if 512 ≤ i ∧ i < 4608 then ⟨(i - 512) / 1024 % 4, Nat.mod_lt _ (by decide)⟩ else 0

/-- Word 29 of an attribute word: WRITTEN. -/
def writtenBit : Nat := 29

/-- A block by its number b. -/
def blkNum (b : Nat) : Option Blk := blkOf (0x60000000 + b * 0x10000)

/-! ### PROF commit (03 R96, R94; 04 R102, R118) -/

/-- The chain of KIND-1 masters from axis m leads back to n. -/
def chainBack (s : State) (n : Fin 16) : Nat → Fin 16 → Bool
  | 0, _ => false
  | k + 1, m =>
    if m = n then true
    else
      let w := ar s .prof m.val 0x80
      if fld w 0 3 = 1 then chainBack s n k ⟨fld w 3 4 % 16, Nat.mod_lt _ (by decide)⟩ else false

/-- First invalid gearing register of a pending PROF set (04 R102). -/
def gearCheck (s : State) (n : Fin 16) : Option Nat :=
  let w := ir s .prof n.val 0x80
  let k := fld w 0 3
  let loc : Fin 16 := ⟨fld w 3 4 % 16, Nat.mod_lt _ (by decide)⟩
  firstBad [
    (decide (4 < k) || ((k == 1 || k == 2) && loc == n) || (k == 1 && chainBack s n 16 loc) ||
      (geared s n && (w &&& 0x00FFFF7F#32) != (ar s .prof n.val 0x80 &&& 0x00FFFF7F#32)), 0x80),
    (fld (ir s .prof n.val 0x88) 0 16 == 0, 0x88),
    (decide (ir64 s .prof n.val 0x90 < 0), 0x90), (decide (ir64 s .prof n.val 0x98 < 0), 0x98)]

/-- First invalid register of a pending PROF set outside gearing (03 R96, 04 R118). -/
def profCheck (s : State) (n : Fin 16) : Option Nat :=
  let p := fun o => (!(f32Pos (ir s .prof n.val o)), o)
  firstBad [p 0, p 4, p 8, p 0xC, p 0x10, (decide (32 < fld (ir s .prof n.val 0x14) 16 6), 0x14), p 0xA0, p 0xA4, p 0xA8]

/-- A path move with its limits lowered to its members' limits. -/
def relimitPath (s : State) (i : Fin 4) (mv : Move) : Move :=
  match mv.path with
  | some x => let l := pathLimits s i x (fun n => commV s n (pf s n 0)) mv.lim; { mv with vmax := l.v, amax := l.a, dmax := l.d, jmax := l.j }
  | none => mv

/-- A commit that changes the master drops the latch record of the old one (04 R100, R102). -/
def dropRecord (n : Fin 16) (old : Word) (s : State) : State :=
  if (old &&& 0x00FFFF07#32) == (ar s .prof n.val 0x80 &&& 0x00FFFF07#32) then s
  else modGear n (fun g => { g with recd := none, age := 0, missed := 0 }) s

/-- PROF commit of an axis at its boundary: refused whole, or taken. Lowered limits below values in use ask for a re-plan at
the next boundary; moves on their way to the queue take them at once (R94). -/
def profCommit (n : Fin 16) (s : State) : State :=
  let gb := gearCheck s n
  let pb := profCheck s n
  let s := bwBit s .prof 0x10 n.val false
  match gb, pb with
  | some o, _ => ev 5 n.val 0x20 n.val [wd o] s
  | none, some o => ev 5 n.val 4 n.val [wd o] s
  | none, none =>
    let old := ar s .prof n.val 0x80
    let s := dropRecord n old (copySet .prof n.val s)
    let (v, a, j) := (pf s n 0, pf s n 4, pf s n 8)
    let due := s.now + gW s (grpOf n)
    let s := modMot n (fun m => ((m.askReplan due (m.above v a j)).mapEnter (Move.clamped v a j)).setCommitted) s
    match igOf s n with
    | some i => modIg i (fun g => { g with mot := (g.mot.askReplan due g.mot.moving).mapEnter (relimitPath s i) }) s
    | none => s

/-- Step 5 of Table 1-7: the LOOP, PROF, HOME and STEP commits of the group's armed instances, the trigger table between
chains, and the interpolation groups whose lead lies in the group. -/
def watchCommits (g : Fin 4) (s : State) : State :=
  let s := forEach (grpAxes g) (fun n s => if bit (br s .step 0x10) n.val then stepCommit n s else s) s
  let s := forEach (grpAxes g) (fun n s => if bit (br s .loop 0x10) n.val then loopCommit n s else s) s
  let s := if bit (br s .loop 0x10) (16 + g.val) && s.clu[g].chain.isNone then trigCommit g s else s
  let s := forEach (grpAxes g) (fun n s => if bit (br s .prof 0x10) n.val then profCommit n s else s) s
  let s := forEach (List.finRange 4) (fun i s => if bit (br s .prof 0x10) (16 + i.val) && igHome s i == g then igCommit i s else s) s
  forEach (grpAxes g) (fun n s => if bit (br s .home 0x10) n.val then homeCommit n s else s) s

/-! ### Re-plans (R94) -/

/-- The re-plan of an axis, or of the path it leads, that an earlier commit asked for. -/
def relimitAxis (n : Fin 16) (t : Nat) (s : State) : State :=
  match igOf s n with
  | some i =>
    if igLeads s i n then
      let c := igCtx s i
      igDo i (fun m => { m with replan := none, wait := m.wait.map (relimitPath s i), run := m.run.map (fun (r : Running) => { r with mv := relimitPath s i r.mv }) }.replanMoving c t) s
    else s
  | none => motDo n (Motion.relimit (axCtx s n) (pf s n 0) (pf s n 4) (pf s n 8) t) s

/-! ### Orders 2 to 6 of Table 3-12 for one axis -/

/-- The Helm's part of orders 2 to 5 for one axis. -/
def axisHelm (n : Fin 16) (t : Nat) (s : State) : State :=
  let s := ackTake n t s
  let s := levelOne n t s
  let s := if stopHeld s n then qstopOn n t s else qstopEnd n s
  let s := enableRead n s
  let s := if mustOff s n then enableOff n t s else s
  let s := clearqTake n t s
  let s := holdTake n t s
  let s := foldOff n s
  let s := gearTake n t s
  homeTake n t (superTake n s)

/-- A PROF commit or a change of HOLD at this boundary: a planned REPLACE or CUT that is due waits one watch (R71). -/
def mustDefer (s : State) (n : Fin 16) (committed held : Bool) : Bool := committed || (held != (motQ s n).hold)

/-- Order 6 for an axis or the path it leads: completions at t, the DWELL, the rounding residual, and POS_RANGE with the position held at the limit
(R91-R93). -/
def axisComplete (n : Fin 16) (t : Nat) (s : State) : State :=
  let s := motDo n (Motion.settleAt (ctxQ s n) t) s
  let s := motDo n (Motion.dwellTick (ctxQ s n) t) s
  let s := motDo n (fun m => Motion.ok m.spread) s
  if s.mot[n].outOfRange then
    let s := modMot n (Motion.holdRange t) s
    raiseAx 1 5 5 n (d64 s.mot[n].p) s
  else s

/-- Order 2 conditions of the HOME block at a boundary. -/
def axisLimits (n : Fin 16) (t : Nat) (s : State) : State :=
  let s := chatter n t (homeGroupEnd n s)
  let s := limitBoth n s
  let s := hwLimit n s
  let s := homeLimits n t s
  let s := homeNotFound n s
  let s := homeTimeout n t s
  gearStale n t s

/-- One axis at its boundary in the order of Table 3-12, a re-plan of R94 that falls due before all else; comm: a PROF commit fell on this
boundary. -/
def axisBoundary (n : Fin 16) (t : Nat) (comm : Bool) (s : State) : State :=
  let s := motAt n t s
  let s := if (motQ s n).replanDue t then relimitAxis n t s else s
  let s := axisLimits n t s
  let hold0 := (motQ s n).hold
  let s := if (l1Due s n t).isSome then s else readyAt n t s
  let s := if helmUp s then axisHelm n t s else levelOne n t (foldOff n s)
  let s := enterApply n t (deferEntries n t (gW s (grpOf n)) (mustDefer s n comm hold0) s)
  let s := if helmUp s then subTake n t s else s
  homeStep n t (axisComplete n t s)

/-! ### Stages of Table 4-1 and the command set -/

/-- Torque cap of HARDSTOP: 1.25 × HOME_HSCUR (05 R138). -/
def hardCap (s : State) (n : Fin 16) : Rat := rabs (q31 (ar s .home n.val 0x40)) * mkRat 5 4

/-- Torque limit of the command set (R98), capped in HARDSTOP (05 R138). -/
def torqueLim (s : State) (n : Fin 16) : Word :=
  let x := f32 (ap s n 10)
  let x := if outer s n = 2 then rclamp (-1) 1 x else rmin (rabs x) 1
  let x := if s.homing[n].state = 6 then let c := hardCap s n; rclamp (-c) c x else x
  let x := if mode s = mComm then rclamp (-(axTred s n)) (axTred s n) x else x
  toQ31 441 x

/-- CFLG: torque on, COMMISSION limits in force (11 Table 11-8). -/
def cflg (s : State) (n : Fin 16) : Word := wd (b2n (tq s n) + 2 * b2n (mode s == mComm))

/-- Stages 1 to 6 for one axis at W; had: the axis had torque before this boundary. -/
def axisAdvance (n : Fin 16) (t : Nat) (had : Bool) (s : State) : State :=
  let (s, gv, ga) := gearAdvance n t s
  let (s, sv, sa) := superAdvance n s
  let m := s.mot[n]
  let x : Sum := { u := m.p + s.gear[n].g + s.sup[n].s, v := gridV (m.vel + gv + sv), a := gridA (m.acc + ga + sa) }
  let s := envAdvance n t x (!(had && tq s n)) s
  let s := softCheck n s
  let e := s.env[n]
  let s := writeCommand n (watchIdx s (grpOf n) t) e.y (toF32 442 e.vy) (toF32 443 e.ay) (torqueLim s n) (cflg s n) s
  let s := if stepOn s n then modStp n (fun p => { p with y := e.y, vy := e.vy, ay := e.ay, w := t }) s else s
  gearPublish n s

/-- The planned position rests at a soft limit in force (05 R130). -/
def atSoft (s : State) (n : Fin 16) : Bool :=
  match softLim s n with
  | some (lo, hi) => s.mot[n].rest && (s.mot[n].p == lo || s.mot[n].p == hi)
  | none => false

/-- AX_STATE (Table 3-2). -/
def axStateWord (s : State) (n : Fin 16) : Word :=
  let m := motQ s n
  let h := s.homing[n]
  let q := m.qfill
  let inpos := s.mot[n].rest && q == 0 && (match m.lastTarget with | some p => p == m.p | none => false)
  wd (shown s n + 16 * b2n inpos + 32 * b2n m.hold + 64 * b2n (q == 0) + 128 * b2n (decide (fld (ar s .prof n.val 0x14) 16 6 ≤ q)) +
      256 * min q 63 + 16384 * b2n m.rev + 32768 * b2n (!s.env[n].follow) + 65536 * b2n (geared s n) + 131072 * b2n (homingOn s n) +
      262144 * b2n h.homed + 524288 * b2n h.limP + 1048576 * b2n h.limN + 2097152 * b2n (atSoft s n) +
      4194304 * b2n (axUncertain s n) + 8388608 * b2n m.starved)

/-- PROF readbacks of an axis (Tables 3-14, 3-21). -/
def profReadbacks (n : Fin 16) (s : State) : State :=
  let m := s.mot[n]
  let q := motQ s n
  let s := iw64 s .prof n.val 0x240 m.p
  let s := iw (iw s .prof n.val 0x248 (toF32 444 m.vel)) .prof n.val 0x24C (toF32 445 m.acc)
  let s := iw s .prof n.val 0x250 (wd (q.segNo + 8 * b2n q.rev + 16 * min q.qfill 63 + 65536 * q.runTag))
  bwBit (bwBit s .prof 0 n.val q.running.isSome) .prof 0 (16 + n.val) (q.qfill == 0)

/-- What the Helm writes at a boundary: AX_STATE, POS_CMD, VEL_CMD and MV_PROGRESS (R64, R97). -/
def axisPoints (n : Fin 16) (s : State) : State :=
  if helmUp s then
    let e := s.env[n]
    let q := motQ s n
    let s := setAp (setPt64 s (axPt n 4) e.y) n 7 (toF32 442 e.vy)
    let s := setAp s n 26 (wd (q.doneTag % 65536 + 65536 * q.runTag))
    setAp s n 0 (axStateWord s n)
  else s

/-- Queue 1 is taken by the Helm: its items name the faults that the axes act on (02 R51). -/
def drainQ1 (s : State) : State :=
  if helmUp s then setQ s 1 { pkts := [], opens := s.queues[(1 : Fin 64)].opens, rest := [] } else s

/-- Step 7 of Table 1-7 for a group at W. -/
def profileEngine (g : Fin 4) (t : Nat) (comm : BitVec 16) (s : State) : State :=
  let had := axMask (tq s)
  let s := drainQ1 s
  let s := forEach (grpAxes g) sampleLimits s
  let s := forEach (List.finRange 4) (fun i s => if (igMembers s i).any (fun n => grpOf n == g) then pathStopEnd i (pathFault i t s) else s) s
  let s := forEach (grpAxes g) (fun n s => axisBoundary n t (comm.getLsbD n.val) s) s
  let s := forEach (grpAxes g) (fun n s => axisAdvance n t (had.getLsbD n.val) s) s
  let s := forEach (grpAxes g) (fun n s => stopTimeout n t (seqUpdate n s)) s
  let s := forEach (List.finRange 4) (fun i s => igPublish i s) s
  forEach (grpAxes g) (fun n s => axisPoints n (profReadbacks n (homePublish n s))) s

/-- The actions of a stopped group's axes at the device boundary (01 R562): AX_CMD, submissions and acknowledges are taken and
the points written; nothing moves. -/
def stoppedAxes (g : Fin 4) (t : Nat) (s : State) : State :=
  let s := drainQ1 s
  let s := forEach (grpAxes g) (fun n s =>
    let s := sampleLimits n s
    if helmUp s then subTake n t (axisHelm n t s) else foldOff n s) s
  forEach (grpAxes g) (fun n s => axisPoints n (profReadbacks n (homePublish n (seqUpdate n s)))) s

end Sys2Proof.Machine
end

