-- ==== Sys2Proof/Machine/Fio.lean ====
section
/-!
DEFINITION. Field I/O (spec 17 R413-R435): the field link, inputs, outputs and their admission, diagnostics, test-pulse
supplies, forces, the FIO commit, and the rows that stand for them.
-/
namespace Sys2Proof.Machine

/-- Change the field I/O state. -/
def modFio (f : Fio → Fio) (s : State) : State := { s with fio := f s.fio }

/-- Word w of the safety parameter block in use (18 Table 18-6). -/
def safeBlk (s : State) (w : Nat) : Word := br s .safe (0x400 + 4 * w)

/-- The field link is trained and the field die powered. -/
def fioUp (s : State) : Bool := bit (br s .fio 0) 0 && mode s != mSleep

/-- FIO_STATUS from the field state; TPS overload bits are kept. -/
def fioStatus (s : State) : State := bw s .fio 0 (setFld (br s .fio 0) 2 2 s.fio.vstate)

/-- DI_VALID: not stale, VFIELD neither LOW nor MISSING (R421). -/
def validWord (s : State) : Word :=
  if bit (br s .fio 0) 1 || s.fio.vstate == 1 || s.fio.vstate == 2 then 0#32 else 0xFFFFFFFF#32

/-- FIO_DIVALID and point 6,145 follow. -/
def diValidUpd (s : State) : State := setPt (bw s .fio 0x24 (validWord s)) 6145 (validWord s)

/-! ### Link training (R417) -/

/-- The link trains once the field die's power-up start, admission source 6, is granted. -/
def linkTrained (s : State) : State :=
  if s.adm.islands.testBit 6 then modFio (fun f => { f with missUp := 0, goodUp := 0 }) (bwBit s .fio 0 0 true) else s

/-- FIO_LINK_TRAINED. -/
def execFioLinkTrained (t : Nat) (s : State) : Host.Outcome State Fault Refusal := .next (linkTrained (atTime t s))

/-- FIO_LINK_FAIL: no lock within 500 µs in BOOT; level 3 ends BOOT in HALT. -/
def execFioLinkFail (stage t : Nat) (s : State) : Host.Outcome State Fault Refusal :=
  let s := atTime t s
  .next (if mode s = mBoot ∧ !(bit (br s .fio 0) 0) then raiseDev 3 0xB 0 1 [wd stage] s else s)

/-! ### Upstream frames (R415, R418, R421) -/

/-- VFIELD state from the measured supply in 0.1 V and the state before (Table 17-1). -/
def vNext (old dv : Nat) : Nat :=
  if 320 < dv ∨ (old = 3 ∧ 315 ≤ dv) then 3
  else if dv < 90 then 2
  else if 192 ≤ dv ∨ ((old = 0 ∨ old = 3) ∧ 180 ≤ dv) then 0
  else 1

/-- A level-1 fault on all axes. -/
def raiseAll (cls num : Nat) (data : List Word) (s : State) : State := raise 1 (mkCode cls 0 num) 0xFFFF#16 noAxis data s

/-- The field supply state changes: FIELD_LOW or FIELD_HIGH, and the time of GOOD. -/
def fieldState (dv t : Nat) (s : State) : State :=
  let old := s.fio.vstate
  let new := vNext old dv
  let s := modFio (fun f => { f with vstate := new, goodSince := if new = 0 then (if old = 0 then f.goodSince else some t) else none,
                                     settled := f.settled && new == 0 }) s
  if (new = 1 ∨ new = 2) ∧ (old = 0 ∨ old = 3) then raiseAll 0xB 4 [if new = 2 then 0#32 else wd dv] s
  else if new = 3 ∧ old ≠ 3 then raiseAll 0xB 5 [wd dv] s
  else s

/-- The checked raw levels of the safety inputs, levels inside a pulse window of their TPS skipped (18 R441). -/
def sinSample (raw : BitVec 32) (s : State) : State :=
  let sin := (List.range 8).foldl (fun (m : BitVec 8) k =>
    let w := safeBlk s (3 + k)
    if bit w 5 && !(s.fio.tpsWin.getLsbD (fld w 6 2)) then
      (if raw.getLsbD (fld w 0 5) then m ||| (1#8 <<< k) else m &&& ~~~(1#8 <<< k))
    else m) s.safe.sin
  { s with safe := { s.safe with sin := sin, frame := true } }

/-- A used upstream frame: field supply, input images (DI_LEVEL holds while the inputs are invalid), transitions for the HOME block, load
currents, the die temperature; the link leaves stale after 16 in a row (R418, R421). -/
def upstream (raw : BitVec 32) (dv : Nat) (temp : Nat) (iload : List Nat) (t : Nat) (s : State) : State :=
  if !(fioUp s) then s
  else
    let s := modFio (fun f => { f with missUp := 0, goodUp := f.goodUp + 1 }) s
    let s := if bit (br s .fio 0) 1 && decide (16 ≤ s.fio.goodUp) then bwBit s .fio 0 1 false else s
    let s := fioStatus (fieldState dv t s)
    let tr := s.fio.trans
    let s := bw (bw s .fio 0x28 raw) .fio 0x34 (toF32 711 (mkRat dv 10))
    let s := bw s .fio 0x20 s.fio.lvl
    let s := if validWord s = 0#32 then s else setPt s 6144 s.fio.lvl
    let s := forEach (List.finRange 32) (fun i s =>
      let k := tr[i] % 4
      let s := iw s .fio i.val 0x240 (setBit (satAdd (ir s .fio i.val 0x240) 0 16 k) 16 (s.fio.lvl.getLsbD i.val))
      forEach (List.range k) (fun _ s => inputEdge i.val t s) s) s
    let s := modFio (fun f => { f with trans := Vector.replicate 32 0 }) s
    let s := forEach (List.finRange 16) (fun o s => iw s .fio (32 + o.val) 0x240 (setFld (ir s .fio (32 + o.val) 0x240) 24 8 (iload.getD o.val 0))) s
    hkResult 1 temp (sinSample raw (diValidUpd s))

/-- FIO_UPSTREAM_MISSING: a frame fails its CRC (cause 1) or is missing (2); three in a row make the link stale (R418). -/
def upMissing (cause : Nat) (s : State) : State :=
  if !(fioUp s) then s
  else
    let s := bwSat (modFio (fun f => { f with missUp := f.missUp + 1, goodUp := 0 }) s) .fio 0x38 0 16
    let s := evOnce 0xB02 0xB 0 2 noAxis [wd cause] s
    if s.fio.missUp = 3 && !(bit (br s .fio 0) 1) then
      let s := diValidUpd (bwSat (bwBit s .fio 0 1 true) .fio 0x38 16 16)
      raiseAll 0xB 3 [wd (fld (br s .fio 0x38) 0 16)] s
    else s

/-- FIO_UPSTREAM_FRAME: the frame's bytes after the preamble with what they carry; a frame that fails its CRC-8 is not used (R416, R418, R421). -/
def execFioUpstreamFrame (raw : BitVec 32) (dv : Nat) (temp : BitVec 12) (iload : List Nat) (bytes : List Byte) (t : Nat) (s : State) :
    Host.Outcome State Fault Refusal :=
  let s := atTime t s
  .next (if crc8Ok bytes.length bytes then upstream raw dv temp.toNat iload t s else upMissing 1 s)

/-- FIO_UPSTREAM_MISSING (R418). -/
def execFioUpstreamMissing (cause t : Nat) (s : State) : Host.Outcome State Fault Refusal := .next (upMissing cause (atTime t s))

/-- FIELD_GOOD_SETTLED: VFIELD has been GOOD for 10 ms at t (R415). -/
def execFieldGoodSettled (t : Nat) (s : State) : Host.Outcome State Fault Refusal :=
  let s := atTime t s
  .next (match s.fio.goodSince with
    | some t0 => if t0 + 10000000 ≤ t then modFio (fun f => { f with settled := true }) s else s
    | none => s)

/-- One sample of an input's up/down counter filter (R420): counter, filtered level and transitions after it. FLEN = 0 bypasses it. -/
def diSample (flen : Nat) (on : Bool) (x : Nat × Bool × Nat) : Nat × Bool × Nat :=
  let c := if flen = 0 then 0 else if on then min flen (x.1 + 1) else x.1 - 1
  let l := if flen = 0 then on else if c = flen then true else if c = 0 then false else x.2.1
  (c, l, x.2.2 + b2n (l != x.2.1))

/-- Input i meets raw pin levels at its next FTB ticks; each filtered change is a transition (R420). -/
def diFilter (i : Fin 32) (samples : List Bool) (s : State) : State :=
  let w := ar s .fio i.val 0
  let (c, l, n) := samples.foldl (fun x b => diSample (fld w 0 8) (b != bit w 9) x) (s.fio.cnt[i], s.fio.lvl.getLsbD i.val, s.fio.trans[i])
  modFio (fun f => { f with lvl := (if l then f.lvl ||| (1#32 <<< i.val) else f.lvl &&& ~~~(1#32 <<< i.val)), trans := f.trans.set i.val n, cnt := f.cnt.set i.val c }) s

/-- DI_FILTER_CHANGE: the raw levels of input i sampled at its FTB ticks since the last such command, oldest first (R420). -/
def execDiFilterChange (i : Fin 32) (samples : List Bool) (t : Nat) (s : State) : Host.Outcome State Fault Refusal :=
  let s := atTime t s
  .next (if mode s = mSleep then s else diFilter i samples s)

/-! ### Outputs (R422-R427, R430, R431) -/

/-- A bit of FIO_DOSTAT of output o. -/
def doBit (o : Fin 16) (b : Nat) (v : Bool) (s : State) : State := iwBit s .fio (32 + o.val) 0x240 b v
/-- FIO_DOSTAT of output o. -/
def doStat (s : State) (o : Fin 16) : Word := ir s .fio (32 + o.val) 0x240
/-- Admission source of output o. -/
def srcOut (o : Fin 16) : Nat := 32 + o.val

/-- The output is named by an enabled SBC output of the safety block, with its number b (R431). -/
def sbcOf (s : State) (o : Fin 16) : Option Nat :=
  (List.range 4).find? fun b => let w := safeBlk s (39 + b); bit w 4 && fld w 0 4 == o.val

/-- The safety field holds the output off. -/
def sbcHolds (s : State) (o : Fin 16) : Bool :=
  match sbcOf s o with | some b => !(bit (br s .safe 4) (24 + b)) | none => false

/-- The command of an output: DO_CMD, FIO_FORCE in SERVICE, INIT in BOOT with KEEP (R424, R430). -/
def doCmd (s : State) (o : Fin 16) : Bool :=
  let c := ar s .fio (32 + o.val) 0
  if mode s = mService then bit (br s .fio 0x30) o.val
  else if mode s = mBoot ∧ bit c 1 then bit c 0
  else bit (pt s 6146) o.val

/-- Rows 1 to 5 and 7 of Table 17-5: the state asked for before admission. -/
def doWant (s : State) (o : Fin 16) : Bool :=
  let off := mode s == mSleep || mode s == mBoot || mode s == mHalt || recovery s
  s.fio.vstate == 0 && !s.fio.silent && !(sbcHolds s o) && !(off && !(bit (ar s .fio (32 + o.val) 0) 1)) &&
    !(bit (doStat s o) 4) && doCmd s o

/-- Put the state of an output, with ON and PENDING. -/
def doPut (o : Fin 16) (st : Nat) (s : State) : State :=
  doBit o 1 (st == 1) (doBit o 0 (st == 2) (modFio (fun f => { f with outs := f.outs.set o.val st }) s))

/-- A start of an output: a request with COST, SETTLE and TMO, or a switch-on without one (R426). -/
def doStart (o : Fin 16) (s : State) : State :=
  let w := ar s .fio (32 + o.val) 4
  if fld w 0 12 = 0 then doPut o 2 s
  else doPut o 1 (admRequest (srcOut o) (fld w 0 12) (fld w 16 8 * 1000000) (fld w 24 8 * 10000000) s)

/-- One output at a downstream frame. A thermal shutdown ends below 150 °C with a new off-to-on command (Table 17-6). A timed-out start stays off until
its command goes off (R426). -/
def doStep (o : Fin 16) (s : State) : State :=
  let s := if bit (doStat s o) 4 && s.fio.cool.getLsbD o.val && doCmd s o && !(s.fio.want.getLsbD o.val) then doBit o 3 false (doBit o 4 false s) else s
  let w := doWant s o
  let cmd := doCmd s o
  let s := doBit o 8 (sbcHolds s o) s
  let s := if !w then
      (if s.fio.outs[o] = 0 ∨ (s.fio.outs[o] = 3 ∧ cmd) then s else doPut o 0 (if s.fio.outs[o] = 1 then admWithdraw (srcOut o) s else s))
    else match s.fio.outs[o] with
      | 0 => doStart o s
      | 1 =>
        if s.adm.outs.contains o.val then doPut o 2 { s with adm := { s.adm with outs := s.adm.outs.erase o.val } }
        else if (s.adm.queue ++ s.adm.raised).any (fun r => r.src == srcOut o) then s
        else doPut o 3 s
      | _ => s
  modFio (fun f => { f with want := if cmd then f.want ||| (1#16 <<< o.val) else f.want &&& ~~~(1#16 <<< o.val) }) s

/-- Is the pending FIO set of output instance i refused: KEEP on an SBC output (R424, R435)? -/
def fioCheck (s : State) (o : Fin 16) : Bool := bit (ir s .fio (32 + o.val) 0) 1 && (sbcOf s o).isSome

/-- Commit of an input: a change of FLEN, FTB or INV restarts its counter at 0 with the filtered level kept (R435). -/
def diCommit (i : Nat) (s : State) : State :=
  let ch := (ir s .fio i 0 ^^^ ar s .fio i 0) &&& 0x3FF#32 != 0#32
  let s := copySet .fio i s
  if ch then modFio (fun f => { f with cnt := f.cnt.setIfInBounds i 0 }) s else s

/-- FIO commits at a downstream frame (R435). -/
def fioCommits (s : State) : State :=
  let s := forEach (List.range 32) (fun i s => if bit (br s .fio 0x10) i then diCommit i (bwBit s .fio 0x10 i false) else s) s
  forEach (List.finRange 16) (fun o s =>
    if bit (br s .fio 0x14) o.val then
      let bad := fioCheck s o
      let s := bwBit s .fio 0x14 o.val false
      if bad then ev 0xB o.val 0x16 noAxis [wd (32 + o.val), 0#32] s else copySet .fio (32 + o.val) s
    else s) s

/-- A downstream frame: commits, then the sixteen outputs; a valid frame ends the silence of R419 (R416). -/
def downstream (s : State) : State :=
  if !(fioUp s) then s
  else
    let s := modFio (fun f => { f with silent := false, downAt := s.now }) (fioCommits s)
    forEach (List.finRange 16) doStep s

/-- FIO_DOWNSTREAM_FRAME at a multiple of 10 µs (R416). -/
def execFioDownstreamFrame (t : Nat) (s : State) : Host.Outcome State Fault Refusal :=
  let s := atTime t s
  .next (if t % 10000 = 0 then downstream s else s)

/-- The field die has received no valid frame for 50 µs and turns every output off (R419). -/
def fioSilent (s : State) : State :=
  forEach (List.finRange 16) (fun o s => if s.fio.outs[o] = 0 then s else doPut o 0 (if s.fio.outs[o] = 1 then admWithdraw (srcOut o) s else s))
    (modFio (fun f => { f with silent := true }) s)

/-- FIO_DOWNSTREAM_SILENT (R419). -/
def execFioDownstreamSilent (t : Nat) (s : State) : Host.Outcome State Fault Refusal :=
  let s := atTime t s
  .next (if s.fio.downAt + 50000 ≤ t then fioSilent s else s)

/-! ### Diagnostics (R425, Table 17-6) -/

/-- A report that is logged the first time of an episode. -/
def doReport (o : Fin 16) (b num : Nat) (data : List Word) (s : State) : State :=
  if bit (doStat s o) b then s else ev 0xB o.val num noAxis data (doBit o b true s)

/-- The output is on. -/
def doOn (s : State) (o : Fin 16) : Bool := s.fio.outs[o] == 2

/-- 1 ms and 50 ms, the times of Table 17-6, in ns. -/
def ms1 : Nat := 1000000
/-- 50 ms. -/
def ms50 : Nat := 50000000

/-- DO_OVERLOAD: in current limit for dur ns, with the current in 10 mA. -/
def execDoOverload (o : Fin 16) (cur dur t : Nat) (s : State) : Host.Outcome State Fault Refusal :=
  let s := atTime t s
  .next (if doOn s o && decide (ms1 ≤ dur) then doReport o 2 0x10 [wd o.val, wd cur] s else s)

/-- DO_OVERTEMP: the channel turns off and latches. -/
def execDoOvertemp (o : Fin 16) (t : Nat) (s : State) : Host.Outcome State Fault Refusal :=
  let s := atTime t s
  .next (if doOn s o then modFio (fun f => { f with cool := f.cool &&& ~~~ (1#16 <<< o.val) }) (doPut o 0 (doBit o 4 true (doReport o 3 0x11 [wd o.val] s)))
    else s)

/-- DO_OPENLOAD: the current in mA over dur ns; below 5 mA for 50 ms with OLEN = 1. -/
def execDoOpenload (o : Fin 16) (cur dur t : Nat) (s : State) : Host.Outcome State Fault Refusal :=
  let s := atTime t s
  .next (if doOn s o && bit (ar s .fio (32 + o.val) 0) 2 && decide (cur < 5 ∧ ms50 ≤ dur) then doReport o 5 0x12 [wd o.val] s else s)

/-- DO_OPENOFF: the pin in 0.1 V over dur ns; between 2 V and 12 V for 50 ms with OFDEN = 1. -/
def execDoOpenoff (o : Fin 16) (dv dur t : Nat) (s : State) : Host.Outcome State Fault Refusal :=
  let s := atTime t s
  .next (if !(doOn s o) && bit (ar s .fio (32 + o.val) 0) 3 && decide (20 ≤ dv ∧ dv ≤ 120 ∧ ms50 ≤ dur) then doReport o 6 0x13 [wd o.val, wd dv] s else s)

/-- DO_BACKFEED: the pin in 0.1 V over dur ns; above 12 V for 1 ms. -/
def execDoBackfeed (o : Fin 16) (dv dur t : Nat) (s : State) : Host.Outcome State Fault Refusal :=
  let s := atTime t s
  .next (if !(doOn s o) && decide (120 < dv ∧ ms1 ≤ dur) then doReport o 7 0x14 [wd o.val, wd dv] s else s)

/-- Bit of FIO_DOSTAT that a diagnostic of Table 17-6 sets: OVERLOAD, OVERTEMP, OPENLOAD, OPENOFF, BACKFEED. -/
def diagBit (k : Fin 5) : Nat := match k.val with | 0 => 2 | 1 => 3 | 2 => 5 | 3 => 6 | _ => 7

/-- The clearing condition of a report over dur ns (Table 17-6): x is the channel's temperature in °C, its current in mA or the pin in 0.1 V, as
the report needs it. The off-state reports clear in an off-state check (R427). -/
def diagClears (s : State) (o : Fin 16) (k : Fin 5) (x dur : Nat) : Bool :=
  match k.val with
  | 0 => decide (ms1 ≤ dur)
  | 1 => decide (x < 150)
  | 2 => decide (5 ≤ x)
  | 3 => !(doOn s o) && decide (x < 20)
  | _ => !(doOn s o) && decide (x < 120 ∧ ms1 ≤ dur)

/-- The clearing condition holds. OVERTEMP and OTLATCH wait for a new off-to-on command once the channel is below 150 °C. -/
def diagClear (o : Fin 16) (k : Fin 5) (s : State) : State :=
  if k = 1 then modFio (fun f => { f with cool := f.cool ||| (1#16 <<< o.val) }) s else doBit o (diagBit k) false s

/-- DO_DIAGNOSTIC_CLEAR: report k of output o with the value x held for dur ns (Table 17-6). -/
def execDoDiagnosticClear (o : Fin 16) (k : Fin 5) (x dur t : Nat) (s : State) : Host.Outcome State Fault Refusal :=
  let s := atTime t s
  .next (if diagClears s o k x dur then diagClear o k s else s)

/-! ### Test-pulse supplies (R428; 18 R442) -/

/-- A TPS is switched on: enabled in the safety block, VFIELD in GOOD, the field die not silent, and not off in overload (R415, R419, R428). -/
def tpsOn (s : State) (n : Fin 4) : Bool :=
  bit (safeBlk s (11 + n.val)) 16 && fioUp s && s.fio.vstate == 0 && !s.fio.silent && !(bit (br s .fio 0) (4 + n.val))

/-- TPS_OVERLOAD: in current limit for dur ns; from 1 ms on it turns off for 100 ms and is reported, first of an episode. -/
def execTpsOverload (n : Fin 4) (dur t : Nat) (s : State) : Host.Outcome State Fault Refusal :=
  let s := atTime t s
  .next (if tpsOn s n && decide (ms1 ≤ dur) then
      ev 0xB 0 0x15 noAxis [wd n.val] (bwBit (modFio (fun f => { f with tpsAt := f.tpsAt.set n.val t }) s) .fio 0 (4 + n.val) true)
    else s)

/-- TPS_RETRY: the 100 ms have passed and the supply is switched on again. -/
def execTpsRetry (n : Fin 4) (t : Nat) (s : State) : Host.Outcome State Fault Refusal :=
  let s := atTime t s
  .next (if s.fio.tpsAt[n] + 100000000 ≤ t then bwBit s .fio 0 (4 + n.val) false else s)

/-! ### Forces (R430) -/

/-- A write of FIO_FORCE acts only in SERVICE. -/
def fioForce (v : Word) (s : State) : State := if mode s = mService then bw s .fio 0x30 (v &&& 0xFFFF#32) else s

/-- FIO_FORCE_WRITE (R430). -/
def execFioForceWrite (v : Word) (s : State) : Host.Outcome State Fault Refusal := .next (fioForce v s)

/-- The status points of Table 17-7 that the Helm writes every 1 ms. -/
def fioPoints (s : State) : State :=
  let l := List.finRange 16
  let on := l.foldl (fun w o => setBit (setBit w o.val (bit (doStat s o) 0)) (16 + o.val) (bit (doStat s o) 1)) 0#32
  let fl := l.foldl (fun w o => setBit (setBit w o.val ([2, 3, 5, 6, 7].any fun b => bit (doStat s o) b)) (16 + o.val) (bit (doStat s o) 4)) 0#32
  let st := br s .fio 0
  let s := setPt (setPt s 6147 on) 6148 fl
  setPt (setPt s 6149 (wd (fld st 2 2 + 4 * fld st 1 1 + 16 * fld st 4 4))) 6150 (br s .fio 0x34)

end Sys2Proof.Machine
end

