-- ==== Sys2Proof/Machine/SafetyUnit.lean ====
section
/-!
DEFINITION. The safety unit (spec 18): the parameter block and its check value, loading, editing and confirmation, safety
inputs, SS1-r, STO, SBC, diagnostics, reset, tests, the 250 µs cycle, and the rows that stand for its parts.
-/
namespace Sys2Proof.Machine

/-- Change the safety unit's state. -/
def modSafe (f : Safety → Safety) (s : State) : State := { s with safe := f s.safe }

/-- Put a bit of SAFE_STATUS. -/
def sstat (i : Nat) (v : Bool) (s : State) : State := bwBit s .safe 0 i v
/-- Put a bit of SAFE_DEMAND. -/
def sdem (i : Nat) (v : Bool) (s : State) : State := bwBit s .safe 4 i v

/-- Draw a word that the spec leaves open (log entry 5). -/
def freeW (s : State) : Word × State := let (k, s) := takeFresh s; (Config.freeWord k, s)

/-! ### The parameter block (R455, R456) -/

/-- One bit of CRC-32C in reflected form. -/
def crcBit (c : Nat) : Nat := if c % 2 = 1 then (c / 2) ^^^ 0x82F63B78 else c / 2
/-- One byte of CRC-32C. -/
def crcByte (c : Nat) (b : Nat) : Nat :=
  crcBit (crcBit (crcBit (crcBit (crcBit (crcBit (crcBit (crcBit (c ^^^ b))))))))
/-- One little-endian word of CRC-32C. -/
def crcWord (c : Nat) (w : Word) : Nat :=
  crcByte (crcByte (crcByte (crcByte c (byteOf w 0).toNat) (byteOf w 1).toNat) (byteOf w 2).toNat) (byteOf w 3).toNat
/-- CRC-32C of words: initial value and final XOR 0xFFFF_FFFF (R456). -/
def crc32c (ws : List Word) : Word := wd ((ws.foldl crcWord 0xFFFFFFFF) ^^^ 0xFFFFFFFF)

/-- Bits that Table 18-6 gives a word of the block. -/
def blkMask (w : Nat) : Word :=
  if w = 0 then 0xFFFF#32 else if w = 1 then 0xF0F#32 else if w = 2 then 0xFFFFFF#32
  else if w < 11 then 0xFFFF#32 else if w < 15 then 0x1FFFF#32 else if w < 19 then 0xFFFFFF0F#32
  else if w < 39 then 0xFFFFFFFF#32 else if w < 43 then 0xFF1FFFFF#32 else if w = 43 then 0#32
  else if w < 76 then 0xFFFFFFFF#32 else if w < 127 then 0#32 else 0xFFFFFFFF#32

/-- A list of numbers without repeats. -/
def noRepeat : List Nat → Bool
  | [] => true
  | x :: xs => !(xs.contains x) && noRepeat xs

/-- The first word that makes a block invalid (R455), none for a valid block. -/
def blkBad (b : List Word) : Option Nat :=
  let w := fun (i : Nat) => b.getD i 0#32
  let sins := (List.range 8).filter (fun k => bit (w (3 + k)) 5)
  let chs := (List.range 4).filter (fun k => bit (w (15 + k)) 0)
  let sbcs := (List.range 4).filter (fun k => bit (w (39 + k)) 4)
  let dis := sins.map (fun k => fld (w (3 + k)) 0 5) ++ (sbcs.filter (fun k => bit (w (39 + k)) 7)).map (fun k => fld (w (39 + k)) 16 5)
  let hw := fld (w 2) 0 8
  firstBad ((w 0 != 1#32, 0) ::
    ((List.range 127).map fun i => (w i &&& ~~~ (blkMask i) != 0#32, i)) ++
    [(w 127 == 0#32 || w 127 != crc32c (b.take 127), 127)] ++
    (sins.map fun k => (!(bit (w (11 + fld (w (3 + k)) 6 2)) 16), 3 + k)) ++
    [(!(noRepeat dis), 3)] ++
    ((List.range 4).map fun g => (bit (w 1) g && !(chs.any fun k => fld (w (15 + k)) 1 2 == g), 1)) ++
    ((List.range 16).map fun i => (!(f32NonNeg (w (19 + i))), 19 + i)) ++
    ((List.range 32).map fun i => (!(f32NonNeg (w (44 + i))), 44 + i)) ++
    (chs.flatMap fun k => [19, 23, 27].map fun o => (!(f32Pos (w (o + k))), o + k)) ++
    [(decide (hw < 2 ∨ 100 < hw), 2), (fld (w 1) 8 4 != 0 && fld (w 2) 8 8 == 0, 2)] ++
    ((List.range 4).map fun n => let x := w (11 + n)
      (bit x 16 && !(decide (1 ≤ fld x 0 8 ∧ fld x 0 8 ≤ 20 ∧ 1 ≤ fld x 8 8 ∧ fld x 8 8 ≤ 100)), 11 + n)) ++
    ((List.range 4).map fun g => let x := w (35 + g)
      (bit (w 1) g && !(decide (fld x 0 8 < 4 * fld x 16 16)), 35 + g)) ++
    [(!(noRepeat (sbcs.map fun k => fld (w (39 + k)) 0 4)), 39)])

/-- The words of the block in use. -/
def useBlk (s : State) : List Word := (List.range 128).map (safeBlk s)
/-- The words of the working copy. -/
def workBlk (s : State) : List Word := (List.range 128).map (fun w => br s .safe (0x600 + 4 * w))

/-- The safety unit holds a valid block: SAFE_STATUS.VALID. -/
def sValid (s : State) : Bool := bit (br s .safe 0) 13
/-- Seal code in force as the safety unit holds it. -/
def sSeal (s : State) : Nat := fld (br s .safe 0) 15 3

/-- SAFE_CRC = SAFE_CONFIRM. -/
def confirmedUpd (s : State) : State := sstat 14 (br s .safe 0x20 == br s .safe 0x24) s

/-- The working copy becomes the given words, its check value shown. -/
def putWork (ws : List Word) (s : State) : State :=
  bw ((List.range 128).foldl (fun s w => bw s .safe (0x600 + 4 * w) (ws.getD w 0#32)) s) .safe 0x28 (crc32c (ws.take 127))

/-- A block becomes the block in use, with CONF (0 = unconfirmed). -/
def useBlock (ws : List Word) (conf : Word) (s : State) : State :=
  let s := (List.range 128).foldl (fun s w => bw s .safe (0x400 + 4 * w) (ws.getD w 0#32)) s
  let s := bw (bw s .safe 0x20 (crc32c (ws.take 127))) .safe 0x24 conf
  let s := setPt (setPt s 8 (crc32c (ws.take 127))) 9 conf
  confirmedUpd (sstat 13 true s)

/-! ### STO (R438-R440) -/

/-- Groups of a mask of axes. -/
def grpsMask (m : BitVec 4) : BitVec 16 :=
  allGroups.foldl (fun x g => if m.getLsbD g.val then x ||| grpMask g else x) 0#16

/-- Safety faults of level 3 (Table 18-9). -/
def sLvl3 (k : Nat) : Bool := decide (1 ≤ k ∧ k ≤ 6) || k == 0xD || k == 0xE

/-- STO is called for on group g (R439, R443, R446, R462). -/
def stoWant (s : State) (g : Fin 4) : Bool :=
  let m := mode s
  !(sValid s) || !(s.safe.firstReset) || m == mBoot || m == mSleep || m == mHalt || (m == mStandby && recovery s) ||
    s.safe.haltReq || s.safe.faults.any (fun f => sLvl3 f.1) || s.safe.held.getLsbD g.val || s.safe.test.getLsbD g.val

/-- The ramp of a group ends. -/
def rampOver (g : Fin 4) (s : State) : State :=
  sstat (4 + g.val) false (modSafe (fun x => { x with ramps := x.ramps.set g.val none }) s)

/-- The ramp of a group ends in STO. -/
def rampSto (g : Fin 4) (s : State) : State :=
  rampOver g (modSafe (fun x => { x with held := x.held ||| (1#4 <<< g.val) }) s)

/-- The enabled SBC outputs of group g. -/
def sbcOfGrp (s : State) (g : Fin 4) : List (Fin 4) :=
  allGroups.filter fun b => let w := safeBlk s (39 + b.val); bit w 4 && fld w 5 2 == g.val

/-- STO is applied to group g: pin, drive-die enable of group 0, torque of its axes, SBC delays, the end of its ramp (R438,
R448, R460). -/
def stoApply (g : Fin 4) (s : State) : State :=
  let s := if s.safe.ramps[g].isSome then rampSto g s else s
  let s := modSafe (fun x => { x with outAt := x.outAt.set g.val x.cyc }) (sstat g.val true s)
  let s := if g = 0 then modDrv (fun d => { d with enabled := false }) s else s
  let s := forEach (grpAxes g) torqueOff s
  forEach (sbcOfGrp s g) (fun b s =>
    let d := fld (safeBlk s (39 + b.val)) 8 8
    if d = 0 then sdem (24 + b.val) false s
    else modSafe (fun x => { x with sbcOff := x.sbcOff.set b.val (some (x.cyc + 4 * d)) }) s) s

/-- STO is released on group g (R450). -/
def stoRelease (g : Fin 4) (s : State) : State :=
  let s := modSafe (fun x => { x with outAt := x.outAt.set g.val x.cyc }) (sstat g.val false s)
  if g = 0 then modDrv (fun d => { d with enabled := hasDrive s }) s else s

/-- The STO decision of group g. -/
def stoGrp (g : Fin 4) (s : State) : State :=
  if stoWant s g then (if stoOn s g then s else stoApply g s)
  else if stoOn s g then stoRelease g s else s

/-- The STO decisions (step 5 of R460). -/
def stoDecide (s : State) : State := forEach allGroups stoGrp s

/-- The delay of SBC output b after STO has run: the permission goes (R448). -/
def sbcDelay (b : Fin 4) (s : State) : State :=
  match s.safe.sbcOff[b] with
  | some c => if stoOn s ⟨fld (safeBlk s (39 + b.val)) 5 2 % 4, by omega⟩ && decide (c ≤ s.safe.cyc) then
      modSafe (fun x => { x with sbcOff := x.sbcOff.set b.val none }) (sdem (24 + b.val) false s) else s
  | none => s

/-- The SBC bits (step 6 of R460): permitted while STO is released and no SBC fault is latched; a delay that has run takes
the permission away (R448). -/
def sbcStep (s : State) : State :=
  forEach allGroups (fun b s =>
    let w := safeBlk s (39 + b.val)
    let g : Fin 4 := ⟨fld w 5 2 % 4, by omega⟩
    let s := sbcDelay b s
    if !(sValid s) || !(bit w 4) || bit (br s .safe 4) (28 + b.val) then sdem (24 + b.val) false s
    else if !(stoOn s g) then modSafe (fun x => { x with sbcOff := x.sbcOff.set b.val none }) (sdem (24 + b.val) true s)
    else s) s

/-! ### Safety faults (R463) -/

/-- A safety fault: latched, counted, reported once, and STO held on the groups given (R451, R463). -/
def safeFault (lvl num inst : Nat) (groups : BitVec 4) (data : List Word) (s : State) : State :=
  if s.safe.faults.contains (num, inst) then s
  else
    let code := mkCode 0xE inst num
    let w := satAdd (br s .safe 0x30) 16 16 1
    let s := bw s .safe 0x30 (if fld w 0 16 = 0 then setFld w 0 16 code.toNat else w)
    let s := modSafe (fun x => { x with faults := x.faults ++ [(num, inst)], held := x.held ||| groups }) s
    raise lvl code (if lvl = 3 then 0xFFFF#16 else grpsMask groups) noAxis data s

/-- A check whose cause is judged anew: the cause is noted or gone, and a cause that is present raises the fault. -/
def safeCheck (lvl num inst : Nat) (groups : BitVec 4) (data : List Word) (present : Bool) (s : State) : State :=
  let s := modSafe (fun x => { x with causes := (x.causes.filter (fun c => c != (num, inst))) ++ (if present then [(num, inst)] else []) }) s
  if present then safeFault lvl num inst groups data s else s

/-- Groups with an enabled privileged channel. -/
def chGrps (s : State) : BitVec 4 :=
  (List.range 4).foldl (fun m k => let w := safeBlk s (15 + k); if bit w 0 then m ||| (1#4 <<< fld w 1 2) else m) 0#4

/-- Groups in the mask of an enabled input or with an SBC output (Table 18-4). -/
def linkGrps (s : State) : BitVec 4 :=
  let m := (List.range 8).foldl (fun m k => let w := safeBlk s (3 + k); if bit w 5 then m ||| BitVec.ofNat 4 (fld w 8 4) else m) 0#4
  (List.range 4).foldl (fun m b => let w := safeBlk s (39 + b); if bit w 4 then m ||| (1#4 <<< fld w 5 2) else m) m

/-! ### SS1-r (R443-R447) -/

/-- Enabled privileged channels of group g. -/
def chansOf (s : State) (g : Fin 4) : List (Fin 4) :=
  allGroups.filter fun k => let w := safeBlk s (15 + k.val); bit w 0 && fld w 1 2 == g.val

/-- The encoder channel of a privileged channel. -/
def pch (k : Fin 4) : Fin 16 := ⟨k.val, by omega⟩
/-- |v| of a privileged channel on the tap. -/
def tapV (s : State) (k : Fin 4) : Rat := rabs s.enc[pch k].tap.v

/-- SS1-r starts on a group with STO released; STO at once where SS1EN = 0; a ramp under way is kept (R440, R443, R460). -/
def ss1Start (g : Fin 4) (s : State) : State :=
  if stoOn s g || s.safe.ramps[g].isSome then s
  else if !(bit (safeBlk s 1) g.val) || !(sValid s) then modSafe (fun x => { x with held := x.held ||| (1#4 <<< g.val) }) s
  else
    let r : Ramp := { ts := s.safe.cyc, v0 := allGroups.map (tapV s), still := 0 }
    let s := modSafe (fun x => { x with ramps := x.ramps.set g.val (some r) }) s
    let s := bw (sstat (4 + g.val) true s) .safe (0x40 + 4 * g.val) 0#32
    let (w, s) := freeW s
    ev 0xE g.val 0xC noAxis [wd g.val, w] s

/-- Limit of the envelope of channel k, d seconds after TDEL (R445). -/
def envLim (s : State) (k : Fin 4) (v0 d : Rat) : Rat :=
  let top := v0 + f32 (safeBlk s (27 + k.val))
  if d ≤ 0 then top else rmax (top - f32 (safeBlk s (23 + k.val)) * d) (f32 (safeBlk s (19 + k.val)))

/-- One evaluation of a ramp (R445, R446, R53). -/
def rampStep (g : Fin 4) (s : State) : State :=
  match s.safe.ramps[g] with
  | none => s
  | some r =>
    let n0 : Fin 16 := axOf g 0
    if stoWant s g || l2Stands s n0 then rampSto g s
    else
      let w := safeBlk s (35 + g.val)
      let el := s.safe.cyc - r.ts
      let d : Rat := (((el : Int) - (fld w 0 8 : Int) : Int) : Rat) * mkRat 1 4000
      let ks := chansOf s g
      match ks.find? (fun k => decide (envLim s k (r.v0.getD k.val 0) d < tapV s k)) with
      | some k =>
        let lim := envLim s k (r.v0.getD k.val 0) d
        rampSto g (safeFault 3 0xD k.val (1#4 <<< g.val) [wd k.val, toF32 801 (tapV s k), toF32 801 lim] s)
      | none =>
        let still := if ks.all (fun k => decide (tapV s k ≤ f32 (safeBlk s (19 + k.val)))) then r.still + 1 else 0
        let s := modSafe (fun x => { x with ramps := x.ramps.set g.val (some { r with still := still }) }) s
        let s := bw s .safe (0x40 + 4 * g.val) (wd (min (el / 4) 65535 + 65536 * min still 255))
        if fld w 8 8 + 1 ≤ still then rampSto g s
        else if 4 * fld w 16 16 ≤ el then rampSto g (safeFault 3 0xE g.val (1#4 <<< g.val) [wd g.val] s)
        else s

/-! ### Demands (R441-R443) -/

/-- The input reads OFF: its checked raw level, or VFIELD not GOOD (R441). -/
def sinOff (s : State) (k : Nat) : Bool := !(s.safe.sin.getLsbD k) || s.fio.vstate != 0

/-- A demand by SINk: latched, counted, logged; SS1-r on every group of its mask with STO released (R443). -/
def demand (k : Fin 8) (s : State) : State :=
  let w := safeBlk s (3 + k.val)
  if bit (br s .safe 4) (8 + k.val) then s
  else
    let s := bwSat (sdem (8 + k.val) true (modSafe (fun x => { x with newDem := true }) s)) .safe 0x60 0 16
    let s := ev 0xE k.val 0xB noAxis [wd k.val] s
    forEach allGroups (fun g s => if bit w (8 + g.val) then
      (if stoOn s g then modSafe (fun x => { x with held := x.held ||| (1#4 <<< g.val) }) s else ss1Start g s) else s) s

/-- One safety input in a cycle. -/
def sinStep (k : Fin 8) (s : State) : State :=
  let w := safeBlk s (3 + k.val)
  if !(bit w 5) then s
  else
    let off := sinOff s k.val
    let n := if off then min (s.safe.offCnt[k] + 1) 255 else 0
    let s := sdem k.val off (modSafe (fun x => { x with offCnt := x.offCnt.set k.val n }) s)
    if fld w 12 4 + 1 ≤ n then demand k s else s

/-- The end of a test-pulse window of TPS n: an input that reads ON has a cross-short (R442). -/
def pulseJudge (n : Fin 4) (raw : BitVec 32) (s : State) : State :=
  forEach (List.finRange 8) (fun k s =>
    let w := safeBlk s (3 + k.val)
    if bit w 5 && fld w 6 2 == n.val then
      let on := raw.getLsbD (fld w 0 5)
      let s := safeCheck 2 7 k.val (BitVec.ofNat 4 (fld w 8 4)) [wd k.val, wd n.val] on s
      if on then stoDecide (demand k (sdem (16 + n.val) true s)) else s
    else s) s

/-- A pulse window of TPS n may start: the supply is on, no other window is open, and TPPER × 10 ms have passed since the last one started. -/
def pulseMay (s : State) (n : Fin 4) (t : Nat) : Bool :=
  tpsOn s n && sValid s && s.fio.tpsWin == 0#4 &&
    (match s.fio.tpsFrom[n] with | some x => decide (x + fld (safeBlk s (11 + n.val)) 8 8 * 10000000 ≤ t) | none => true)

/-- A pulse window of TPS n that has lasted TPW × 100 µs. -/
def pulseRan (s : State) (n : Fin 4) (t : Nat) : Bool :=
  s.fio.tpsWin.getLsbD n.val &&
    (match s.fio.tpsFrom[n] with | some x => decide (x + fld (safeBlk s (11 + n.val)) 0 8 * 100000 ≤ t) | none => true)

/-- TPS_PULSE: a test-pulse window of an enabled TPS starts, or ends with the raw levels sampled then (17 R428, R442). -/
def execTpsPulse (n : Fin 4) (start : Bool) (raw : BitVec 32) (t : Nat) (s : State) : Host.Outcome State Fault Refusal :=
  let s := atTime t s
  let ovr := modFio (fun f => { f with tpsWin := f.tpsWin &&& ~~~ (1#4 <<< n.val) }) s
  .next (if start then
      (if pulseMay s n t then modFio (fun f => { f with tpsWin := f.tpsWin ||| (1#4 <<< n.val), tpsFrom := f.tpsFrom.set n.val (some t) }) s else s)
    else if !(pulseRan s n t) then s
    else if sValid s && tpsOn s n then pulseJudge n raw ovr else ovr)

/-! ### Channels and readbacks (R449, R451-R453) -/

/-- Privileged channel k in a cycle: SF_FEEDBACK with its cause, SF_TAP, COMM_OVERSPEED (R447, R452, R453). The test says that
the tap is stale. -/
def chanStep (k : Fin 4) (s : State) : Bool × State :=
  let w := safeBlk s (15 + k.val)
  if !(bit w 0) then (false, s)
  else
    let g : Fin 4 := ⟨fld w 1 2 % 4, by omega⟩
    let c := pch k
    let x := s.enc[c].tap
    let ie := x.idxErr
    let fe := x.frErr
    let old := s.safe.tap.getD k.val none
    let (goodPos, ie0, fe0) : Int × Nat × Nat := match old with
      | some o => (if o.good < x.good then x.c else o.pos, o.idxErr, o.frErr)
      | none => (x.c, ie, fe)
    let m := encMode s c
    let cause := firstBad [(x.unc || x.wire, 1), (m != 1 && m != 3 && m != 4, 2), (decide (ie0 < ie), 3),
      (decide (fe0 + 4 < fe), 4), (bit w 3 && decide (2 * fld w 8 24 < (x.c - goodPos).natAbs), 5)]
    let idx := if gT s 0 = 0 then (match old with | some o => o.idx | none => 0) else (x.ts - s.pwmG[(0 : Fin 4)].start) / gT s 0
    let mem : TapMem := { ts := x.ts, idxErr := ie, frErr := fe, good := x.good, pos := goodPos, idx := idx }
    let s := modSafe (fun y => { y with tap := y.tap.set k.val (some mem) }) s
    let s := safeCheck 2 8 k.val (1#4 <<< g.val) [wd k.val, wd (cause.getD 0)] cause.isSome s
    let s := sdem (20 + k.val) (s.safe.faults.contains (8, k.val)) s
    let vr := f32 (safeBlk s (31 + k.val))
    let s := if mode s == mComm && vr != 0 && decide (vr < tapV s k) && !(stoOn s g) && s.safe.ramps[g].isNone then
        ss1Start g (ev 0xE k.val 0x10 noAxis [wd k.val, toF32 801 (tapV s k)] s) else s
    (match old with | some o => o.ts == x.ts | none => false, s)

/-- The channels of a cycle; in BOOT nothing is sampled. -/
def chansStep (s : State) : State :=
  if mode s == mBoot then modSafe (fun x => { x with tap := [none, none, none, none] }) s
  else
    let s := if s.safe.tap.isEmpty then modSafe (fun x => { x with tap := [none, none, none, none] }) s else s
    let (stale, s) := allGroups.foldl (fun (p : Bool × State) k => let (b, s) := chanStep k p.2; (p.1 || b, s)) (false, s)
    let idx := match s.safe.tap.filterMap id with | m :: _ => m.idx | [] => 0
    safeCheck 2 9 0 (chGrps s) [wd idx] stale s

/-- SBC output b with feedback: it must follow the output within BFBT ms of each change (R449). -/
def sbcFb (b : Fin 4) (s : State) : State :=
  let w := safeBlk s (39 + b.val)
  if !(bit w 4 && bit w 7) then s
  else
    let o : Fin 16 := ⟨fld w 0 4 % 16, by omega⟩
    let lvl := s.fio.outs[o] == 2
    let s := if s.safe.sbcAt[b].2 != lvl then modSafe (fun x => { x with sbcAt := x.sbcAt.set b.val (x.cyc, lvl) }) s else s
    let bad := bit (br s .fio 0x28) (fld w 16 5) != lvl && decide (0 < s.safe.cyc - s.safe.sbcAt[b].1 ∧ 4 * fld w 24 8 ≤ s.safe.cyc - s.safe.sbcAt[b].1)
    let s := safeCheck 2 0xF b.val (1#4 <<< fld w 5 2) [wd b.val] bad s
    if bad then sdem (28 + b.val) true s else s

/-- STO_FBg must follow STO_OUTg within STOFBT ms of each change, where FBEN asks for it (R451). -/
def stoFb (g : Fin 4) (s : State) : State :=
  let fb := bit (br s .safe 0) (8 + g.val)
  safeCheck 3 5 g.val 0xF#4 [wd g.val, wd (b2n fb)]
    (bit (safeBlk s 1) (8 + g.val) && fb == stoOn s g && decide (4 * fld (safeBlk s 2) 8 8 ≤ s.safe.cyc - s.safe.outAt[g])) s

/-- The drive-die enable readback must follow the enable from the cycle after a change on (R451). -/
def denFb (den : Bool) (s : State) : State :=
  safeCheck 3 6 0 0xF#4 [wd (b2n den)] (den != s.drv.enabled && decide (0 < s.safe.cyc - s.safe.outAt[(0 : Fin 4)])) s

/-- The last Helm kick is more than HWDT ms ago. -/
def helmLate (s : State) : Bool := decide (4 * fld (safeBlk s 2) 0 8 < s.safe.cyc - s.safe.kick)

/-- The Helm watchdog (R451). -/
def helmWd (s : State) : State :=
  safeCheck 3 4 0 0xF#4 [wd ((s.safe.cyc - s.safe.kick) / 4)] (helmLate s) (sstat 18 (!(helmLate s)) s)

/-- The readbacks of a cycle: STO_FB, the drive-die enable, the Helm watchdog, the field link, the brakes (R449, R451). -/
def readbacks (den : Bool) (s : State) : State :=
  let s := forEach allGroups stoFb s
  let s := if hasDrive s then denFb den s else s
  if mode s == mBoot then s
  else
    let s := helmWd s
    let no := !(s.safe.frame) && linkGrps s != 0#4
    let s := modSafe (fun x => { x with noFrame := if no then x.noFrame + 1 else 0, frame := false }) s
    forEach allGroups sbcFb (safeCheck 2 0xA 0 (linkGrps s) [wd s.safe.noFrame] no s)

/-! ### Reset, tests, edits (R450, R458, R459, R462) -/

/-- The decision on a safety reset (R450). -/
def resetDecide (s : State) : State :=
  let x := s.safe
  let healthy := (List.range 8).all fun k => !(bit (br s .safe 4) (8 + k)) || !(sinOff s k)
  if sValid s && healthy && x.causes.isEmpty && !x.newDem then
    let keep := x.faults.filter (fun f => decide (1 ≤ f.1 ∧ f.1 ≤ 3))
    let s := modSafe (fun x => { x with faults := keep, held := if keep.isEmpty then 0#4 else 0xF#4, firstReset := true }) s
    let w := br s .safe 4
    let s := bw s .safe 4 (setFld (setFld (setFld w 8 8 0) 16 8 0) 28 4 0)
    sbcStep (stoDecide (sstat 19 false (bwSat s .safe 0x60 16 16)))
  else sstat 19 true (modSafe (fun x => { x with refused := x.refused + 1 }) s)

/-- STO test of the groups of a mask (R462): in STANDBY or SERVICE, every axis of the groups DISABLED. -/
def stoTest (m : BitVec 4) (s : State) : State :=
  let ok := (mode s == mStandby || mode s == mService) &&
    allGroups.all (fun g => !(m.getLsbD g.val) || (grpAxes g).all (fun n => shown s n == 0))
  if ok && m != 0#4 then
    stoDecide (modSafe (fun x => { x with test := x.test ||| m, testEnd := x.cyc + 80 + 4 * fld (safeBlk s 2) 8 8 }) s)
  else s

/-- The readback of group g is good: off, or not read (R462). -/
def fbGood (s : State) (g : Fin 4) : Bool := !(bit (safeBlk s 1) (8 + g.val)) || !(bit (br s .safe 0) (8 + g.val))

/-- A good STO test of group g: its age starts anew. -/
def testGood (g : Fin 4) (s : State) : State :=
  let s := modSafe (fun x => { x with testAge := x.testAge.set g.val 0, due := x.due &&& ~~~ (1#4 <<< g.val) }) s
  bw s .safe (0x50 + 4 * g.val) 0#32

/-- The end of an STO test: the readbacks are checked and the previous state restored (R462). -/
def testOver (s : State) : State :=
  let m := s.safe.test
  let s := forEach allGroups (fun g s => if m.getLsbD g.val && fbGood s g then testGood g s else s) s
  stoDecide (modSafe (fun x => { x with test := 0#4 }) s)

/-- Safety cycles in an hour. -/
def cycHour : Nat := 14400000

/-- A test age reaches STOTI: logged, and RUN is blocked while it stands. -/
def dueCheck (g : Fin 4) (s : State) : State :=
  let i := fld (safeBlk s 2) 16 8
  if i ≠ 0 ∧ i * cycHour ≤ s.safe.testAge[g] ∧ !(s.safe.due.getLsbD g.val) then
    ev 0xE g.val 0x11 noAxis [wd g.val] (modSafe (fun x => { x with due := x.due ||| (1#4 <<< g.val) }) s)
  else s

/-- Put the age of group g, in cycles, with its register in hours. -/
def putAge (g : Fin 4) (a : Nat) (s : State) : State :=
  bw (modSafe (fun x => { x with testAge := x.testAge.set g.val a }) s) .safe (0x50 + 4 * g.val) (wd (min (a / cycHour) 65535))

/-- The tests of a cycle: an STO application with good readback counts once STOFBT has run. -/
def testsStep (s : State) : State :=
  let s := if s.safe.test ≠ 0#4 ∧ s.safe.testEnd ≤ s.safe.cyc then testOver s else s
  forEach allGroups (fun g s =>
    let s := if stoOn s g && s.safe.cyc - s.safe.outAt[g] == 4 * fld (safeBlk s 2) 8 8 + 1 && fbGood s g then testGood g s
      else putAge g (s.safe.testAge[g] + 1) s
    dueCheck g s) s

/-- Put the result word of an edit request. -/
def editRes (code tag : Nat) (s : State) : State := modSafe (fun x => { x with res := wd (code + 65536 * tag) }) s

/-- An edit of one word of the working copy (R458). Word 127 follows as the copy's check value. -/
def editWrite (ctl v : Word) (s : State) : State :=
  let i := fld ctl 0 7
  let busy := s.safe.writing != 0
  if sSeal s != 1 || !(s.safe.copy) || i == 0 || i == 127 || busy then
    let (c, s) := freeW s
    ev 0xE 0 0x12 noAxis [wd i, c] (editRes (if busy then 2 else 1) (fld ctl 16 16) s)
  else
    let ws := (workBlk s).set i v
    editRes 0 (fld ctl 16 16) (putWork (ws.set 127 (crc32c (ws.take 127))) s)

/-- A request for confirmation (R459): accepted, the boot loader writes the record. -/
def editConfirm (ctl v : Word) (s : State) : State :=
  if s.safe.writing ≠ 0 ∨ sSeal s ≠ 1 ∨ !(s.safe.copy) ∨ v ≠ br s .safe 0x28 ∨ (blkBad (workBlk s)).isSome then
    ev 0xE 0 0x13 noAxis [v] (editRes (if s.safe.writing ≠ 0 then 2 else 1) (fld ctl 16 16) s)
  else editRes 2 (fld ctl 16 16) (modSafe (fun x => { x with writing := 1, tag := fld ctl 16 16, confAt := s.now }) s)

/-- What SAFE_EDIT_CTL asks with SAFE_EDIT_VAL: WRITE, CONFIRM. -/
def editRequest (ctl v : Word) (s : State) : State :=
  if bit ctl 9 then editConfirm ctl v s else if bit ctl 8 then editWrite ctl v s else s

/-- Bytes 0x000 to 0x21F of a safety confirmation record (Table 18-7). -/
def recordBytes (r : Nat × (Word × (Word × (Nat × List Word)))) : List Byte :=
  leBytes 0x53465A58 4 ++ leBytes 1 2 ++ leBytes 0 2 ++ leBytes r.1 4 ++ leBytes r.2.1.toNat 4 ++ leBytes r.2.2.2.1 8 ++
    leBytes r.2.2.1.toNat 4 ++ leBytes 0 4 ++ r.2.2.2.2.flatMap fun w => leBytes w.toNat 4

/-- The record is programmed and read back, or its write failed (R459, 19 R487). -/
def recordWritten (ok : Bool) (stage : Nat) (s : State) : State :=
  if s.safe.writing ≠ 1 then s
  else if ok then
    let seq := (br s .boot 0x3C).toNat + 1
    let ws := workBlk s
    let r : Nat × (Word × (Word × (Nat × List Word))) := (seq, (s.safe.base, (ws.getD 127 0#32, (s.safe.confAt, ws))))
    let s := modSafe (fun x => { x with writing := 2, record := some r, recCrc := crc32 (recordBytes r) }) s
    bw s .boot 0x3C (wd seq)
  else
    ev 0xE 0 0x15 noAxis [wd stage] (editRes 1 s.safe.tag (modSafe (fun x => { x with writing := 0 }) s))

/-- At the next cycle the confirmed copy becomes the block in use (R459). -/
def adoptCopy (s : State) : State :=
  if s.safe.writing ≠ 2 then s
  else
    let ws := workBlk s
    let conf := ws.getD 127 0#32
    let s := useBlock ws conf (editRes 0 s.safe.tag (modSafe (fun x => { x with writing := 0 }) s))
    ev 0xE 0 0x14 noAxis [conf] s

/-- The boot loader hands the image's block to the safety unit (R457): the confirmation record's block where its CRC-32 is correct, it is made from
this block and valid, else the image's; an invalid block raises SF_PARAM. -/
def loadBlock (img : List Word) (s : State) : State :=
  let b := crc32c (img.take 127)
  let s := modSafe (fun x => { x with base := b }) s
  let rec_ := match s.safe.record with
    | some (q, (base, (conf, (at_, ws)))) => if s.safe.recCrc = crc32 (recordBytes (q, (base, (conf, (at_, ws))))) ∧ base = b ∧ blkBad ws = none ∧ ws.getD 127 0#32 = conf then some (ws, conf) else none
    | none => none
  let (ws, conf) := rec_.getD (img, 0#32)
  match blkBad ws with
  | some w => stoDecide (safeCheck 3 1 0 0xF#4 [wd w] true s)
  | none => stoDecide (useBlock ws conf s)

/-- SEAL_CHANGE discards the working copy (R458). -/
def dropCopy (s : State) : State := putWork (useBlk s) (modSafe (fun x => { x with copy := false, writing := 0 }) s)

/-- Requests that the Helm passed (R465), decided at step 7. -/
def requests (s : State) : State :=
  let c := s.safe.cmd
  let s := modSafe (fun x => { x with cmd := 0#32 }) s
  let s := if bit c 0 then resetDecide s else s
  let s := if bit c 1 then stoTest (BitVec.ofNat 4 (fld c 4 4)) s else s
  match s.safe.edit with
  | some (ctl, v) => editRequest ctl v (modSafe (fun x => { x with edit := none }) s)
  | none => s

/-! ### The cycle (R460) -/

/-- One safety cycle: inputs, tap and readbacks; faults and demands; ramps; STO; SBC; requests. In SLEEP the island is off. -/
def safetyCycle (fb : BitVec 4) (den : Bool) (s : State) : State :=
  if mode s == mSleep then s
  else
    let s := adoptCopy (modSafe (fun x => { x with cyc := x.cyc + 1, newDem := false }) s)
    let s := bw s .safe 0 (setFld (br s .safe 0) 8 4 fb.toNat)
    let s := sstat 12 (den && hasDrive s) s
    let s := if sValid s then forEach allGroups rampStep (readbacks den (chansStep (forEach (List.finRange 8) sinStep s))) else s
    testsStep (requests (sbcStep (stoDecide s)))

/-! ### Rows that stand for one event of the unit -/

/-- The unit acts: it holds a valid block and is powered. -/
def sActs (s : State) : Bool := sValid s && mode s != mSleep

/-- SAFE_DEMAND: enabled SINk has read OFF in DEB + 1 consecutive cycles (R441, R443). -/
def execSafeDemand (k : Fin 8) (t : Nat) (s : State) : Host.Outcome State Fault Refusal :=
  let s := atTime t s
  let w := safeBlk s (3 + k.val)
  .next (if sActs s && bit w 5 && decide (fld w 12 4 + 1 ≤ s.safe.offCnt[k]) then stoDecide (demand k s) else s)

/-- SS1_RAMP_END: every channel of the ramping group has been at standstill in STILLN + 1 cycles (R445). -/
def execSs1RampEnd (g : Fin 4) (t : Nat) (s : State) : Host.Outcome State Fault Refusal :=
  let s := atTime t s
  .next (match s.safe.ramps[g] with
    | some r => if fld (safeBlk s (35 + g.val)) 8 8 + 1 ≤ r.still then stoDecide (rampSto g s) else s
    | none => s)

/-- SS1_TIMEOUT: the ramp of the group has lasted TMAX ms (R445, R446). -/
def execSs1Timeout (g : Fin 4) (t : Nat) (s : State) : Host.Outcome State Fault Refusal :=
  let s := atTime t s
  .next (match s.safe.ramps[g] with
    | some r => if 4 * fld (safeBlk s (35 + g.val)) 16 16 ≤ s.safe.cyc - r.ts then
        stoDecide (rampSto g (safeFault 3 0xE g.val (1#4 <<< g.val) [wd g.val] s)) else s
    | none => s)

/-- SF_HELM_WD: the last kick is more than HWDT ms ago (R451). -/
def execSfHelmWd (t : Nat) (s : State) : Host.Outcome State Fault Refusal :=
  let s := atTime t s
  .next (if sActs s && mode s != mBoot && helmLate s then stoDecide (helmWd s) else s)

/-- SF_CLOCK: the reference is lost, or the clocks have differed by more than 5 % for 10 µs, the deviation given in 0.1 % over dur ns (R451);
only RESETN or power-up ends it. -/
def execSfClock (lost : Bool) (dev dur t : Nat) (s : State) : Host.Outcome State Fault Refusal :=
  let s := atTime t s
  .next (if mode s != mSleep && (lost || decide (50 < dev ∧ 10000 ≤ dur)) then stoDecide (safeCheck 3 2 0 0xF#4 [wd dev] true s) else s)

/-- SAFETY_MEMORY_TEST: a pass of the SRAM march test or of the ROM CRC ends (R451). -/
def execSafetyMemoryTest (rom ok : Bool) (t : Nat) (s : State) : Host.Outcome State Fault Refusal :=
  let s := atTime t s
  .next (if ok then s else stoDecide (safeCheck 3 3 0 0xF#4 [wd (if rom then 2 else 1)] true s))

/-- The check of the block in use: its CRC-32C over words 0 to 126 against word 127 (R451, R456); the word that has changed is reported. -/
def paramCheck (w : Fin 128) (s : State) : State :=
  if sActs s && (crc32c ((useBlk s).take 127) != safeBlk s 127) then stoDecide (safeCheck 3 1 0 0xF#4 [wd w.val] true s) else s

/-- SAFETY_PARAM_CRC: the check of the block in use, of whose word w the safety island's memory has lost the bits of x since the last check (none
where x = 0). -/
def execSafetyParamCrc (w : Fin 128) (x : Word) (t : Nat) (s : State) : Host.Outcome State Fault Refusal :=
  let s := atTime t s
  .next (paramCheck w (bw s .safe (0x400 + 4 * w.val) (safeBlk s w.val ^^^ x)))

/-- SF_STO_FB of group g with the level read (R451). -/
def execSfStoFb (g : Fin 4) (level : Bool) (t : Nat) (s : State) : Host.Outcome State Fault Refusal :=
  let s := atTime t s
  .next (if sActs s then stoDecide (stoFb g (sstat (8 + g.val) level s)) else s)

/-- SF_DEN_FB with the level read; the ZX-1600M does not run this check (R451, R453). -/
def execSfDenFb (level : Bool) (t : Nat) (s : State) : Host.Outcome State Fault Refusal :=
  let s := atTime t s
  .next (if sActs s && hasDrive s then stoDecide (denFb level (sstat 12 level s)) else s)

/-- SBC_DELAY_EXPIRY: the delay after STO of SBC output b has run (R448). -/
def execSbcDelayExpiry (b : Fin 4) (t : Nat) (s : State) : Host.Outcome State Fault Refusal := .next (sbcDelay b (atTime t s))

/-- SBC_FEEDBACK of output b (R449). -/
def execSbcFeedback (b : Fin 4) (t : Nat) (s : State) : Host.Outcome State Fault Refusal :=
  let s := atTime t s
  .next (if sActs s then sbcStep (stoDecide (sbcFb b s)) else s)

/-- SAFETY_RESET: the unit decides on a reset (R450). -/
def execSafetyReset (t : Nat) (s : State) : Host.Outcome State Fault Refusal := .next (resetDecide (atTime t s))

/-- STOTEST of the groups of TGRP (R462). -/
def execStotest (m : BitVec 4) (t : Nat) (s : State) : Host.Outcome State Fault Refusal := .next (stoTest m (atTime t s))

/-- STO_TEST_END (R462). -/
def execStoTestEnd (t : Nat) (s : State) : Host.Outcome State Fault Refusal :=
  let s := atTime t s
  .next (if s.safe.test = 0#4 ∨ s.safe.cyc < s.safe.testEnd then s else testOver s)

/-- STO_TEST_DUE: the age of group g has reached STOTI hours (R462). -/
def execStoTestDue (g : Fin 4) (t : Nat) (s : State) : Host.Outcome State Fault Refusal :=
  let s := atTime t s
  .next (if sActs s then dueCheck g s else s)

/-- SAFE_EDIT_WRITE: an edit request reaches the unit (R458). -/
def execSafeEditWrite (ctl v : Word) (t : Nat) (s : State) : Host.Outcome State Fault Refusal := .next (editWrite ctl v (atTime t s))

/-- SAFE_EDIT_CONFIRM: a confirm request reaches the unit (R459). -/
def execSafeEditConfirm (ctl v : Word) (t : Nat) (s : State) : Host.Outcome State Fault Refusal :=
  .next (editConfirm ctl v (atTime t s))

/-- SAFE_RECORD_WRITTEN with the result of the write and its stage (R459). -/
def execSafeRecordWritten (ok : Bool) (stage t : Nat) (s : State) : Host.Outcome State Fault Refusal :=
  .next (recordWritten ok stage (atTime t s))

end Sys2Proof.Machine
end

