-- ==== Sys2Proof/Machine/Halt.lean ====
section
/-!
DEFINITION. HALT entry and the postmortem record (spec 02 R61, R62, Table 2-15), the flash work queue (19 R488) and the end
of an update session (19 R484).
-/
namespace Sys2Proof.Machine

/-! ### Flash work -/

/-- Change the boot loader's state. -/
def modBoot (f : BootSt → BootSt) (s : State) : State := { s with boot := f s.boot }
/-- Change the Helm's records. -/
def modHelm (f : Helm → Helm) (s : State) : State := { s with helm := f s.helm }

/-- Order of flash work (R488). -/
def FlashJob.rank : FlashJob → Nat
  | .pm => 0
  | .erase => 2
  | .upd _ _ => 3

/-- BOOT_STATUS.BUSY: flash erase or program in progress. -/
def busyUpd (s : State) : State := bwBit s .boot 0 8 (!s.boot.jobs.isEmpty)

/-- Add flash work behind the work of its rank and before lower ranks (R488). -/
def addJob (j : FlashJob) (s : State) : State :=
  busyUpd (modBoot (fun b => { b with jobs := b.jobs.filter (fun x => decide (x.rank ≤ j.rank)) ++ j :: b.jobs.filter (fun x => decide (j.rank < x.rank)) }) s)

/-- An update session closes with the inactive slot left invalid (R484). -/
def closeUpd (s : State) : State :=
  bwBit (busyUpd (modBoot (fun b => { b with upd := none, jobs := b.jobs.filter (fun x => decide (x.rank < 3)) }) s)) .boot 0 7 false

/-! ### The postmortem record (Table 2-15) -/

/-- Bytes of a word. -/
def wBytes (w : Word) : List Byte := leBytes w.toNat 4

/-- Bytes of Logbook entry n (23 R551). -/
def entryBytes (s : State) (n : Nat) : List Byte :=
  (List.range 32).map fun k => readByte s (0x40000000 + 32 * (n % 262144) + k)

/-- The counts of the last k entries held, oldest first. -/
def lastEntries (s : State) (k : Nat) : List Nat :=
  let h := (br s .log 0x20).toNat
  let o := max (br s .log 0x24).toNat (h - k)
  (List.range (h - o)).map (fun i => o + i)

/-- Bytes 0x030 to 0x1FF of a full record. -/
def pmState (s : State) : List Byte :=
  wBytes (pt s 2) ++ wBytes (br s .sys 0x28) ++ leBytes 0 8 ++
  (allAxes.flatMap fun n => wBytes (ap s n 0) ++ leBytes s.ax[n].lastCode.toNat 2 ++ wBytes (ir s .loop n.val 0x280) ++ leBytes 0 2) ++
  (let d := (List.range 10).findSome? (fun m => if frozen s m then (s.helm.dumps.find? (fun x => x.1 == m)).map (·.2) else none)
   ((d.getD []).flatMap wBytes ++ leBytes 0 256).take 256)

/-- The record as it is assembled: sequence number one more than the previous record's. -/
def pmBuild (reduced : Bool) (s : State) : List Byte :=
  let w := pt s 0
  let head := leBytes 0x4D505A58 4 ++ leBytes 1 2 ++ leBytes (b2n reduced) 2 ++ leBytes ((br s .boot 0x38).toNat + 1) 4 ++
    wBytes (br s .sys 0) ++ leBytes s.helm.haltTime 8 ++ leBytes s.helm.haltCode.toNat 2 ++ leBytes (fld (pt s 3) 0 16) 2 ++
    leBytes s.helm.haltPrev 1 ++ leBytes (fld w 9 3) 1 ++ leBytes 0 2 ++
    wBytes (pt s 7) ++ wBytes (pt s 8) ++ wBytes (pt s 12) ++ wBytes (pt s 11)
  let mid := if reduced then leBytes 0 464 else pmState s
  let logs := (lastEntries s 111).flatMap (entryBytes s)
  let body := head ++ mid ++ logs ++ leBytes 0 (3552 - logs.length) ++ leBytes 0 28
  body ++ wBytes (crc32 body)

/-- HALT (R61): what it records and the record to write, unless one has been written since the last accepted FAULT_ACK or
the HALT leaves none. The mode is already HALT. -/
def pmStart (reduced write : Bool) (code : BitVec 16) (prev : Nat) (s : State) : State :=
  let s := modHelm (fun h => { h with haltCode := code, haltTime := s.now, haltPrev := prev, pmFlags := b2n reduced }) s
  if s.helm.pmInhibit then s
  else if write then
    let s := addJob .pm (modHelm (fun h => { h with pmPending := true, pmDone := false, pmInhibit := true }) s)
    modHelm (fun h => { h with pmRecord := pmBuild reduced s }) s
  else modHelm (fun h => { h with pmPending := false, pmDone := true, pmInhibit := true }) s

/-- The Helm enters HALT (R34, R39, R61, Table 2-2): STO is requested of the safety unit, PWM forces are released (R38), MODE is
written and the record assembled; an update session closes after the record is written, at once where none is (19 R488). -/
def haltEntry (code : BitVec 16) (write : Bool) (s : State) : State :=
  if mode s = mHalt then s
  else
    let prev := mode s
    let s := forEach allAxes (fun n s => iw s .pwm n.val 0x100 0#32) (bw s .fio 0x30 0#32)
    let s := modSafe (fun x => { x with haltReq := true }) s
    let s := modHelm (fun h => { h with toStandby := false, toSleep := false, haltAfterRamps := false, runWait := false }) s
    let s := { bwBit s .pmu 0 5 false with pwr := { s.pwr with sleepFrom := none, woken := 0, wakeStep := none } }
    let s := stoDecide s
    let s := rbHalt (sumUpd (faultnUpd (setMode mHalt s)))
    let s := pmStart false write code prev s
    if s.helm.pmPending then s else closeUpd s

end Sys2Proof.Machine
end

