-- ==== Sys2Proof/Machine/Prot.lean ====
section
/-!
DEFINITION. Memory protection and memory errors (spec 13): the address map, the regions, violations and master freezing (02 R59),
ECC and the scrubber, and the rows PROT_LOCK, SCRUB_READ and EDRAM_REFRESH.
-/
namespace Sys2Proof.Machine

/-! ### Address map (R320) -/

/-- Some row of Table 13-1 decodes the address. -/
def decodes (a : Nat) : Bool :=
  decide (a < 0x80000) || decide (0x10000000 ≤ a ∧ a < 0x10200000) || decide (0x20000000 ≤ a ∧ a < 0x20100000) ||
  (decide (0x30000000 ≤ a ∧ a < 0x34000000) && decide (a % 0x1000000 < 0xF01000)) ||
  decide (0x40000000 ≤ a ∧ a < 0x42000000) || decide (0x60000000 ≤ a ∧ a < 0x60150000)

/-- KIND of an access: 1 read, 2 write, 3 fetch (Table 13-14). -/
def kRead : Nat := 1
/-- Write. -/
def kWrite : Nat := 2
/-- Fetch. -/
def kFetch : Nat := 3

/-! ### Regions (R333, R334) -/

/-- Region r of master m is enabled and holds the address. -/
def regionHit (s : State) (m r a : Nat) : Bool :=
  let b := ar s .prot m (8 * r)
  bit b 3 && decide (fld b 5 27 ≤ a / 32 ∧ a / 32 ≤ fld (ar s .prot m (8 * r + 4)) 5 27)

/-- What the firmware's regions grant the Helm, and the boot loader in BOOT (R334). -/
def helmGrant (kind a : Nat) : Bool :=
  !(kind == kWrite && (decide (a < 0x80000) || decide (0x60100000 ≤ a ∧ a < 0x60110000)))

/-- What they grant the boot loader after BOOT. -/
def bootGrant (kind a : Nat) : Bool :=
  (decide (a < 0x80000) && kind == kRead) ||
  (decide (0x10000000 ≤ a ∧ a < 0x10040000 ∨ 0x40000000 ≤ a ∧ a < 0x40800000) && (kind == kRead || kind == kWrite))

/-- Some matching region of master m granted the kind of access. -/
def granted (s : State) (m kind a : Nat) : Bool :=
  if m = 0 then helmGrant kind a
  else if m = 9 then (if mode s = mBoot then helmGrant kind a else bootGrant kind a)
  else kind != kFetch && (List.range 16).any fun r => regionHit s m r a && bit (ar s .prot m (8 * r)) (kind - 1)

/-- NMATCH: enabled regions of masters 1 to 8 that hold the address without granting the kind (Table 13-14). -/
def nMatch (s : State) (m kind a : Nat) : Nat :=
  ((List.range 16).filter fun r => regionHit s m r a && !(bit (ar s .prot m (8 * r)) (kind - 1))).length

/-! ### Commits of user queues (14 R355) -/

/-- Spill bytes of a capacity and base: first address and size (14 R349). -/
def spillOf (cap base : Word) : Nat × Nat := (0x40800000 + fld base 0 12 * 4096, (fld cap 0 22 - 16) * 8)

/-- Two ranges (start, size) share a byte. -/
def overlaps (a b : Nat × Nat) : Bool := decide (a.1 < b.1 + b.2 ∧ b.1 < a.1 + a.2)

/-- Offset of the first register of the pending set that breaks 14 R349. -/
def queCheck (s : State) (q : Fin 64) : Option Nat :=
  let cap := ir s .que q.val 4
  let r := spillOf cap (ir s .que q.val 8)
  if fld cap 0 22 ≤ 16 then none
  else if 16 + 1966080 < fld cap 0 22 then some 4
  else if r.1 < 0x40900000 ∨ 0x41800000 < r.1 + r.2 then some 8
  else if (List.finRange 64).any (fun p => decide (16 ≤ p.val) && p != q && decide (16 < qCap s p) &&
      overlaps r (spillOf (ar s .que p.val 4) (ar s .que p.val 8))) then some 8
  else none

/-- The COMMIT bit of a user queue. -/
def queArmed (s : State) (q : Fin 64) : Bool :=
  if q.val < 32 then bit (br s .que 0x10) q.val else bit (br s .que 0x14) (q.val - 32)

/-- A user queue takes its armed set once it holds no item and no open packet, or refuses it whole. -/
def queCommit (q : Fin 64) (s : State) : State :=
  if 16 ≤ q.val ∧ queArmed s q ∧ (s.queues[q]).fill = 0 then
    let s := if q.val < 32 then bwBit s .que 0x10 q.val false else bwBit s .que 0x14 (q.val - 32) false
    match queCheck s q with
    | some o => ev 4 0 8 noAxis [wd q.val, wd o] s
    | none => copySet .que q.val s
  else s

/-! ### Freezing a master (R336; 02 R59, R60) -/

/-- Open packets of a frozen master are discarded in every queue (14 R342), which may let a queue take its armed set. -/
def dropOpens (m : Nat) (s : State) : State :=
  forEach (List.finRange 64) (fun q s =>
    let x := s.queues[q]
    match x.opens.find? (fun o => o.1 == m) with
    | none => s
    | some o =>
      let s := setQ s q ({ x with opens := x.opens.filter (fun o => o.1 != m) }).settle
      queCommit q (ev 4 0 6 noAxis [wd q.val, wd m, wd o.2.length] (iwSat s .que q.val 0x24C 0 16))) s

/-- Level of MASTER_FROZEN and the axes it acts on (02 Table 2-12). -/
def frozenLevel (s : State) (m : Nat) : Nat × BitVec 16 :=
  if m = 0 ∨ m = 5 then (3, 0xFFFF#16)
  else if m ≤ 4 then (2, grpMask ⟨(m - 1) % 4, Nat.mod_lt _ (by decide)⟩)
  else if m = 6 then
    let ax := axMask fun n => s.gear[n].phase != 0 && fld (ar s .prof n.val 0x80) 0 3 == 4
    if ax = 0#16 then (0, ax) else (1, ax)
  else if m = 9 ∧ mode s = mBoot then (3, 0xFFFF#16)
  else (0, 0#16)

/-- MASTER_FROZEN goes into the tail of queue 0 at every level, and to the Logbook (R336). -/
def raiseFrozen (m : Nat) (data : List Word) (s : State) : State :=
  let (lvl, axes) := frozenLevel s m
  let f := atLevel s { code := mkCode 3 m 0x10, level := lvl, axes := axes, axis := BitVec.ofNat 8 noAxis, time := s.now, data := data }
  let s := if f.level = 0 then s else
    let s := modHelm (fun h => { h with latched := h.latched ++ [f] }) s
    let s := { s with ax := s.ax.mapIdx (fun i a => if f.axes.getLsbD i then { a with lastCode := f.code } else a) }
    firstPut f s
  sumUpd (faultnUpd (toQueue0 f (logRec f s)))

/-- What a freeze does to the master itself (02 Table 2-12). The frozen Helm leaves MODE = HALT by the unit's own write (02 R34)
and the boot loader's reduced record (02 R61); a frozen cluster stops at the end of its word and its external read is abandoned
(11 R292); a frozen boot loader abandons the flash write in progress: an update operation with its slot left invalid, a pre-erase, or a safety
confirmation record. -/
def freezeEffect (m : Nat) (s : State) : State :=
  if m = 0 then
    let prev := mode s
    let s := setPt (rbHalt (setMode mHalt s)) 2 (setBit (pt s 2) 20 true)
    if prev = mHalt then s else pmStart true true (mkCode 3 0 0x10) prev s
  else if m ≤ 4 then
    modClu ⟨(m - 1) % 4, Nat.mod_lt _ (by decide)⟩
      (fun c => { c with state := .frozen, reads := [], posted := c.posted.filter (fun p => p.read.isNone) }) s
  else if m = 9 then
    closeUpd (modSafe (fun x => { x with writing := 0 }) (modBoot (fun b => { b with retried := false, jobs := b.jobs.filter (· == .pm) }) s))
  else s

/-- The protection unit freezes master m at an access: the violation record, SYS_FREEZE and its point, the transfer for the dump
(23 R553), the held low word discarded (R326), open packets dropped, the effects, and MASTER_FROZEN. -/
def freezeMaster (m kind a : Nat) (side : Bool) (xfer : Nat × Nat × Nat) (s : State) : State :=
  let n := nMatch s m kind a
  let s := iw (iw s .prot m 0x280 (wd a)) .prot m 0x284 (wd (kind + 4 * b2n side + 256 * n))
  let s := bwBit (iw64 s .prot m 0x288 s.now) .prot 0 m true
  let s := bwBit s .sys 0x28 m true
  let s := if helmUp s then setPt s 13 (br s .sys 0x28) else s
  let s := { s with held := s.held.filter (fun h => h.1 != m) }
  let s := modHelm (fun h => { h with frozenXfer := (m, xfer) :: h.frozenXfer.filter (fun x => x.1 != m) }) s
  raiseFrozen m [wd a, wd kind] (freezeEffect m (dropOpens m s))

/-- A decode error: counted with its master and logged; of a cluster as SX_XBUS with XERR set (R320; 11 R290). -/
def decodeErr (m kind a : Nat) (s : State) : State :=
  let w := br s .prot 0x44
  let s := bw s .prot 0x44 (setFld (satAdd w 0 16 1) 16 4 m)
  let s := evOnce (0x300500 + m) 3 m 5 noAxis [wd a, wd kind] s
  if 1 ≤ m ∧ m ≤ 4 then
    let g : Fin 4 := ⟨(m - 1) % 4, Nat.mod_lt _ (by decide)⟩
    evOnce (0x601400 + g.val) 6 g.val 0x14 noAxis [wd a] (sw s g 0x24 (setBit (sr s g 0x24) 0 true))
  else s

/-- The check of one access: a frozen master makes none; outside its regions the master is frozen; an address that nothing decodes
is a decode error. A firmware region is never violated by an address that nothing decodes. The test says whether the access is
performed. -/
def access (m kind a : Nat) (side : Bool) (xfer : Nat × Nat × Nat) (s : State) : Bool × State :=
  if frozen s m then (false, s)
  else if (m = 0 ∨ m = 9) ∧ !(decodes a) then (false, decodeErr m kind a s)
  else if !(granted s m kind a) then (false, freezeMaster m kind a side xfer s)
  else if !(decodes a) then (false, decodeErr m kind a s)
  else (true, s)

/-- No queue, CAN object or ring slot position (23 R553). -/
def noXfer (a : Nat) : Nat × Nat × Nat := (a, 0xFFFFFFFF, 0)

/-! ### THAW (02 R60) -/

/-- THAW of a master: violation record and DUMPED cleared; a cluster restarts idle; a mover's transfer is abandoned. -/
def thawMaster (m : Nat) (s : State) : State :=
  let s := bwBit (bwBit s .sys 0x28 m false) .sys 0x28 (16 + m) false
  let s := setPt s 13 (br s .sys 0x28)
  let s := bwBit (iw64 (iw (iw s .prot m 0x280 0#32) .prot m 0x284 0#32) .prot m 0x288 0) .prot 0 m false
  let s := { s with stalls := s.stalls.filter (fun x => x.master != m) }
  let s := modHelm (fun h => { h with frozenXfer := h.frozenXfer.filter (fun x => x.1 != m), dumps := h.dumps.filter (fun x => x.1 != m) }) s
  if 1 ≤ m ∧ m ≤ 4 then cluRestart ⟨(m - 1) % 4, Nat.mod_lt _ (by decide)⟩ s else s

/-! ### Memory errors (R321, R324) -/

/-- Memory of an address: 0 shared SRAM, 1 Chart, 2 eDRAM. -/
def eccMem (a : Nat) : Nat := if a < 0x20000000 then 0 else if a < 0x30000000 then 1 else 2

/-- Is the address in a memory with SECDED check bits under R321 (the spill region has its own code)? -/
def eccAddr (a : Nat) : Bool :=
  decide (0x10000000 ≤ a ∧ a < 0x10200000) || decide (0x20000000 ≤ a ∧ a < 0x20100000) ||
  (decide (0x40000000 ≤ a ∧ a < 0x42000000) && !(decide (0x40800000 ≤ a ∧ a < 0x41800000)))

/-- Errors the word holds. -/
def badAt (s : State) (a : Nat) : Nat := sget (fun _ => 0) s.bad a
/-- Mark or clear the errors of a word. -/
def setBad (a k : Nat) (s : State) : State := { s with bad := sset (fun _ => 0) s.bad a k }

/-- The word at an address of an ECC memory is rewritten with 0. -/
def zeroWord (a : Nat) (s : State) : State :=
  if eccMem a = 1 then
    (if a < 0x20080000 then setPt s ((a - 0x20000000) / 4) 0#32 else setAttr s ((a - 0x20080000) / 4) 0#32)
  else writeWord s a 0#32

/-- Level of an uncorrectable error, and whether 0 is written (Table 13-3). -/
def uncLevel (a : Nat) : Nat × Bool :=
  if 0x20000000 ≤ a ∧ a < 0x20080000 then (if a < 0x20008000 then 3 else 0, true)
  else if eccMem a = 1 then (3, false)
  else if a < 0x10040000 then (3, false)
  else if 0x40000000 ≤ a ∧ a < 0x40800000 then (0, true)
  else (0, false)

/-- A corrected single-bit error (R321). -/
def corrErr (a : Nat) (s : State) : State :=
  let k := eccMem a
  let s := bwSat s .prot (0x20 + 4 * k) 0 16
  let s := modHelm (fun h => { h with corrSec := h.corrSec + 1 }) s
  evOnce 0x300100 3 0 1 noAxis [wd k, wd a] (setBad a 0 s)

/-- An uncorrectable error found by master who, or by the scrubber (15) (R324). -/
def uncErr (a who : Nat) (s : State) : State :=
  let k := eccMem a
  let s := bw (bwSat s .prot (0x20 + 4 * k) 16 8) .prot (0x30 + 4 * k) (wd a)
  let (lvl, zero) := uncLevel a
  let s := if zero then setBad a 0 (zeroWord a s) else setBad a 2 s
  let s := if 0x40000000 ≤ a ∧ a < 0x40800000 then bwSat s .log 0x28 0 16 else s
  let (first, s) := if zero then (true, s) else onceSec (0x300000000 + a) s
  if !first then s
  else if lvl = 0 then ev 3 0 2 noAxis [wd k, wd a, wd who] s
  else raiseDev lvl 3 0 2 [wd k, wd a, wd who] s

/-- A read of an ECC word meets an error: 0 none, 1 single-bit, 2 uncorrectable; the test says whether the data stands. -/
def eccRead (a who : Nat) (err : Nat) (s : State) : Bool × State :=
  let e := max err (badAt s a)
  if !(eccAddr a) || e = 0 then (true, s)
  else if e = 1 then (true, corrErr a s)
  else (false, uncErr a who s)

/-- Last word of each memory's scrub pass. -/
def lastWord (k : Nat) : Nat := if k = 0 then 0x101FFFFC else if k = 1 then 0x200FFFFC else 0x41FFFFFC

/-- The scrubber reads a word (R322); the last word of a memory completes its pass. It is stopped in SLEEP, and restarts at the end
of BOOT (R338). -/
def scrub (a err : Nat) (s : State) : State :=
  if mode s = mSleep ∨ mode s = mBoot ∨ !(eccAddr a) then s
  else
    let (_, s) := eccRead a 15 err s
    let k := eccMem a
    if a = lastWord k then
      let w := br s .prot (0x20 + 4 * k)
      bw s .prot (0x20 + 4 * k) (setFld w 24 8 (fld w 24 8 + 1))
    else s

/-- SCRUB_READ: the word and what its check bits show (R322). -/
def execScrubRead (w : BitVec 30) (err : Fin 3) (t : Nat) (s : State) : Host.Outcome State Fault Refusal :=
  .next (scrub (4 * w.toNat) err.val (atTime t s))

/-- EDRAM_REFRESH: a refresh interval was not kept (R323). -/
def execEdramRefresh (row t : Nat) (s : State) : Host.Outcome State Fault Refusal :=
  .next (raiseDev 3 3 0 3 [wd row] (atTime t s))

/-- A write of PROT_LOCK (R335). -/
def protLock (v : Word) (s : State) : State :=
  if bit v 0 then bwBit (bwBit s .prot 0x14 0 true) .prot 0 16 true else s

/-- PROT_LOCK (R335): a write by the boot loader or another master that may reach it. -/
def execProtLock (m : Fin 10) (v : Word) (t : Nat) (s : State) : Host.Outcome State Fault Refusal :=
  let (ok, s) := access m.val kWrite 0x60040014 false (noXfer 0x60040014) (atTime t s)
  .next (if ok then protLock v s else s)

/-- Regions are locked (R335). -/
def locked (s : State) : Bool := bit (br s .prot 0x14) 0

end Sys2Proof.Machine
end

