-- ==== Sys2Proof/Machine/Chart.lean ====
section
/-!
DEFINITION. The Chart as the crossbar reaches it (spec 13 R325-R330; 02 R42-R45): writes under the attribute word and the command
owner, I64 pairs, reads with snapshots; and the rows CHART_WRITE and CHART_EVEN_READ.
-/
namespace Sys2Proof.Machine

/-- Crossbar address of point i (13 Table 13-1). -/
def ptAddr (i : Nat) : Nat := 0x20000000 + 4 * i

/-- TYPE of the attribute word is I64. -/
def isI64 (a : Word) : Bool := fld a 0 3 == 5

/-- The writers that WR admits (Table 13-4). -/
def wrOk (a : Word) (m : Nat) : Bool :=
  match fld a 4 2 with
  | 0 => true
  | 1 => m == fld a 8 4
  | 2 => decide (m ≤ 5)
  | _ => false

/-! ### Transmit objects that follow a point (16 R401) -/

/-- Change a controller. -/
def modCan (c : Fin 2) (f : CanCtl → CanCtl) (s : State) : State := { s with can := s.can.set c.val (f s.can[c]) }
/-- The register block of a controller. -/
def cb (c : Fin 2) : Blk := if c = 0 then .can0 else .can1
/-- Word k (0 CFG, 1 ID, 2 MASK, 3 MAP) of object n, active. -/
def objW (s : State) (c : Fin 2) (n k : Nat) : Word := ar s (cb c) (1 + n / 32) (16 * (n % 32) + 4 * k)
/-- DIR of a CFG word. -/
def cfgDir (w : Word) : Nat := fld w 0 2
/-- PBASE of a MAP word. -/
def pbase (w : Word) : Nat := fld w 0 17

/-- SEQ of a block point. -/
def seqAt (s : State) (b : Nat) : Nat := fld (pt s b) 0 16

/-- An object's last frame sent had the sequence. -/
def seqSent (s : State) (c : Fin 2) (n q : Nat) : Bool := s.can[c].sent.any (fun x => x.1 == n && x.2 == q)

/-- Transmit objects with TXTRIG = 2 whose SEQ point becomes even with a value other than that of the last frame sent become pending (16
R401). -/
def seqPend (i : Nat) (s : State) : State :=
  let q := seqAt s i
  if i < 8192 ∨ i % 2 = 1 ∨ q % 2 = 1 then s
  else forEach (List.finRange 2) (fun c s =>
    let due := (List.range 128).filter fun n =>
      let w := objW s c n 0
      pbase (objW s c n 3) == i && cfgDir w == 2 && fld w 9 2 == 2 && !(seqSent s c n q) && !(s.can[c].pend.contains n)
    if due.isEmpty then s else modCan c (fun x => { x with pend := x.pend ++ due }) s) s

/-- A point takes a value from a crossbar write: value with good check bits (R324) and WRITTEN (R327); a
transmit object may follow it. -/
def storePt (i : Nat) (v : Word) (s : State) : State := seqPend i <| setBad (ptAddr i) 0 (setAttr (setPt s i v) i (setBit (attr s i) writtenBit true))

/-- LASTSRC of a master that brings writes from outside: CAN0, CAN1, ring (02 Table 2-7). -/
def srcCode (m : Nat) : Nat := if m = 7 then 0 else if m = 8 then 1 else 2

/-- Writes of masters 6, 7 and 8 come from outside the package (02 R42). -/
def external (m : Nat) : Bool := decide (6 ≤ m ∧ m ≤ 8)

/-- A refused command-point write (02 R44). -/
def refuseCmd (i m : Nat) (s : State) : State :=
  let w := br s .sys 0x24
  let s := bw s .sys 0x24 (setFld (setFld (satAdd w 0 16 1) 16 2 (srcCode m)) 18 14 i)
  evOnce (0x200 + srcCode m) 0 (srcCode m) 2 noAxis [wd i] s

/-- A write that the attribute word refuses (R330). -/
def refuseAttr (i m : Nat) (s : State) : State :=
  let w := br s .prot 0x40
  let s := bw s .prot 0x40 (setFld (satAdd w 0 16 1) 16 4 m)
  evOnce (0x300400 + m) 3 m 4 noAxis [wd i, wd (fld (attr s i) 4 2)] s

/-- The low word a master holds (R326). -/
def heldOf (s : State) (m : Nat) : Option (Nat × Word) := (s.held.find? (fun h => h.1 == m)).map (·.2)
/-- The held low word is gone. -/
def dropHeld (m : Nat) (s : State) : State := { s with held := s.held.filter (fun h => h.1 != m) }

/-- An accepted write of the owner to a command point restarts the owner timeout (02 R45). -/
def ownerSeen (i m : Nat) (own : Bool) (s : State) : State :=
  if external m && own && bit (attr s i) 3 then modHelm (fun h => { h with ownerFrom := s.now, ownerOut := false }) s else s

/-- The attribute word decides a write of master m, from the command owner or not; the test says whether it is accepted. -/
def admitPt (i m : Nat) (own : Bool) (s : State) : Bool × State :=
  let a := attr s i
  if external m && bit a 3 && (!own || !(wrOk a m)) then (false, refuseCmd i m s)
  else if !(wrOk a m) then (false, refuseAttr i m s)
  else (true, ownerSeen i m own s)

/-- The value of an accepted write: the even word of an I64 point is held, the odd word takes the held one with it (R326). -/
def takePt (i : Nat) (v : Word) (m : Nat) (low : Option (Nat × Word)) (s : State) : State :=
  if isI64 (attr s i) ∧ i % 2 = 0 then { s with held := (m, (i, v)) :: s.held }
  else match low with
    | some (j, w) => storePt i v (storePt j w s)
    | none => storePt i v s

/-- A crossbar write of point i by master m (R326, R330, R333). A low word that waits for another odd word is written alone
first. -/
def chartWrite (m i : Nat) (v : Word) (own : Bool) (xfer : Nat × Nat × Nat) (s : State) : State :=
  if frozen s m then s
  else
    let low := heldOf s m
    let s := dropHeld m s
    let (low, s) : Option (Nat × Word) × State := match low with
      | some (j, w) => if j + 1 = i then (some (j, w), s) else (none, storePt j w s)
      | none => (none, s)
    let (ok, s) := access m kWrite (ptAddr i) false xfer s
    if !ok then s
    else
      let (ok, s) := admitPt i m own s
      if ok then takePt i v m low s else s

/-- CHART_WRITE (R330): own = the write comes from the command owner. -/
def execChartWrite (m : Fin 10) (i : BitVec 17) (v : Word) (own : Bool) (t : Nat) (s : State) : Host.Outcome State Fault Refusal :=
  .next (chartWrite m.val i.toNat v own (noXfer (ptAddr i.toNat)) (atTime t s))

/-- Key of a snapshot that master m holds (R326). -/
def snapKey (m a : Nat) : Nat := (m + 1) * 2 ^ 32 + a

/-- Put the last word read by a master. -/
def putData (m : Fin 10) (v : Word) (s : State) : State := { s with busData := s.busData.set m.val v }

/-- The word a read of point i gives master m: of an I64 point the even word takes the snapshot and the next read of the odd word
returns it (R326). -/
def chartRead (m : Nat) (i err : Nat) (s : State) : Word × State :=
  let (ok, s) := eccRead (ptAddr i) m err s
  if !ok then (0#32, s)
  else if !(isI64 (attr s i)) then (pt s i, s)
  else if i % 2 = 0 then
    (pt s i, { s with snaps := (snapKey m (ptAddr (i + 1)), pt s (i + 1)) :: s.snaps.filter (fun x => x.1 != snapKey m (ptAddr (i + 1))) })
  else match s.snaps.find? (fun x => x.1 == snapKey m (ptAddr i)) with
    | some x => (x.2, { s with snaps := s.snaps.filter (fun y => y.1 != snapKey m (ptAddr i)) })
    | none => (pt s i, s)

/-- CHART_EVEN_READ of point 2k by a master; err = what the check bits show (R326, R321). -/
def execChartEvenRead (m : Fin 10) (k : BitVec 16) (err : Fin 3) (t : Nat) (s : State) : Host.Outcome State Fault Refusal :=
  let i := 2 * k.toNat
  let s := atTime t s
  if frozen s m.val then .next s
  else
    let (ok, s) := access m.val kRead (ptAddr i) false (noXfer (ptAddr i)) s
    let (v, s) := if ok then chartRead m.val i err.val s else (0#32, s)
    .next (putData m v s)

end Sys2Proof.Machine
end

