-- ==== Sys2Proof/Machine/Que.lean ====
section
/-!
DEFINITION. The queue engine (spec 14): pushes and packets, reads in priority or key order, stalled reads, errors of items, spill and
refill, commits of user queues; and the rows QUE_PUSH, QUE_POP, QUE_READ_COMPLETE, QUE_SPILL and QUE_REFILL.
-/
namespace Sys2Proof.Machine

/-- Address of offset o of queue q (14, QUE register map). -/
def queAddr (q : Fin 64) (o : Nat) : Nat := iAddr .que q.val o

/-- Queues 3 and 4 are key-ordered (R344). -/
def keyed (q : Fin 64) : Bool := q.val == 3 || q.val == 4

/-! ### Writes (R342, R346) -/

/-- The items of master m's open packet. -/
def Queue.openOf (x : Queue) (m : Nat) : List QItem := ((x.opens.find? (fun o => o.1 == m)).map (·.2)).getD []

/-- A refused write: counted, logged once per second for each queue and master, and the writer's open packet discarded. -/
def refuseItem (q : Fin 64) (m : Nat) (full : Bool) (s : State) : State :=
  let s := iwSat s .que q.val 0x248 16 16
  let x := s.queues[q]
  let s := if (x.openOf m).isEmpty then s
    else iwSat (setQ s q ({ x with opens := x.opens.filter (fun o => o.1 != m) }).settle) .que q.val 0x24C 0 16
  let s := if full then evOnce (0x400100000 + 64 * m + q.val) 4 0 1 noAxis [wd q.val, wd m] s
    else evOnce (0x400200000 + 64 * m + q.val) 4 0 2 noAxis [wd q.val, wd m] s
  queCommit q s

/-- An accepted item: it joins its writer's packet, which END closes; the 256th item closes it by force (R342). -/
def takeItem (q : Fin 64) (m prio : Nat) (fin : Bool) (w : Word) (s : State) : State :=
  let x := (s.queues[q]).makeRoom (qCap s q) (frozen s 5) 1
  let p := x.openOf m
  let long := p.length = 255 ∧ !fin
  let p := p ++ [{ word := w, prio := prio, fin := fin || long, place := .tail }]
  let rest := x.opens.filter (fun o => o.1 != m)
  let s := if fin ∨ long then
      let was := x.pkts.isEmpty
      let s := setQ s q ({ x with pkts := x.pkts ++ [p], opens := rest }).settle
      if was then raiseQueue q s else s
    else setQ s q ({ x with opens := rest ++ [(m, p)] }).settle
  if long then ev 4 0 5 noAxis [wd q.val, wd m] s else s

/-- A write of one item by master m through a PUSH port (R344, R346). -/
def pushItem (q : Fin 64) (m prio : Nat) (fin : Bool) (w : Word) (s : State) : State :=
  let x := s.queues[q]
  if qCap s q = 0 ∨ !(qWriter q m) then refuseItem q m false s
  else if !(qRoom s q 1) then refuseItem q m true s
  else if keyed q ∧ 64 ≤ x.pkts.length ∧ (x.openOf m).isEmpty then refuseItem q m true s
  else takeItem q m prio fin w s

/-- QUE_PUSH: master, queue, side bits as the PUSH address gives them, item word (R346). -/
def execQuePush (m : Fin 10) (q : Fin 64) (prio : Fin 8) (fin : Bool) (w : Word) (t : Nat) (s : State) :
    Host.Outcome State Fault Refusal :=
  let a := queAddr q (0x300 + 4 * (2 * prio.val + b2n fin))
  let (ok, s) := access m.val kWrite a false (a, q.val, 0) (atTime t s)
  .next (if ok then pushItem q m.val prio.val fin w s else s)

/-! ### Reads (R343-R348, R351) -/

/-- The first item of a packet. -/
def headItem (p : List QItem) : QItem := p.headD { word := 0#32, prio := 0, fin := true, place := .head }

/-- Does packet b go before packet a, which became readable earlier? -/
def goesFirst (k : Bool) (a b : List QItem) : Bool :=
  if k then decide (fld (headItem b).word 0 29 < fld (headItem a).word 0 29) else decide ((headItem a).prio < (headItem b).prio)

/-- Index of the packet that the read side delivers next. -/
def bestPkt (k : Bool) (ps : List (List QItem)) : Nat :=
  ((List.range ps.length).foldl (fun b i => if goesFirst k (ps.getD b []) (ps.getD i []) then i else b) 0)

/-- The queue with its next packet opened for reading: the rest of the packet in delivery, or the packet that goes first. -/
def Queue.openRead (k : Bool) (x : Queue) : Queue :=
  if x.rest.isEmpty then
    let i := bestPkt k x.pkts
    { x with rest := x.pkts.getD i [], pkts := x.pkts.eraseIdx i }
  else x

/-- The side bits of an item: [0] END, [3:1] PRIO. -/
def QItem.side (i : QItem) : Nat := b2n i.fin + 2 * i.prio

/-- An uncorrectable item is logged: level 3 for queues 0 to 2 (R351). -/
def queUncorr (q : Fin 64) (place : Nat) (s : State) : State :=
  let s := if q.val < 32 then bwBit s .que 0x28 q.val true else bwBit s .que 0x2C (q.val - 32) true
  if q.val ≤ 2 then raiseDev 3 4 0 4 [wd q.val, wd place] s else ev 4 0 4 noAxis [wd q.val, wd place] s

/-- A corrected item (R351). -/
def queCorr (q : Fin 64) (s : State) : State := evOnce 0x400300 4 0 3 noAxis [wd q.val] (iwSat s .que q.val 0x248 0 16)

/-- The result of a read: an item with its side bits, or a wait. -/
inductive PopRes where
  | item (w : Word) (side : Nat)
  | wait
  deriving DecidableEq, Repr

/-- A read that finds no readable packet: the idle item or a wait (R348). -/
def emptyRead (s : State) (q : Fin 64) : PopRes :=
  let c := ar s .que q.val 0
  if bit c 0 then .item (ar s .que q.val 0xC) (b2n (bit c 4) + 2 * fld c 1 3) else .wait

/-- Nothing can be read: no open read packet and no readable packet. -/
def Queue.nothing (x : Queue) : Bool := x.rest.isEmpty && x.pkts.isEmpty

/-- The next item is delivered, from the packet opened for reading. -/
def deliver (q : Fin 64) (s : State) : PopRes × State :=
  let x := (s.queues[q]).openRead (keyed q)
  match x.rest with
  | [] => (emptyRead s q, s)
  | i :: is =>
    if i.place = .spill then (.wait, s)
    else (.item i.word i.side, queCommit q (setQ s q ({ x with rest := is }).settle))

/-- The next item is uncorrectable: its packet is discarded, or the word 0 with END stands in its place where earlier items of
it were delivered (R351). -/
def badItem (q : Fin 64) (place : Nat) (s : State) : Option PopRes × State :=
  let x := s.queues[q]
  let s := queUncorr q place s
  if x.rest.isEmpty then
    let i := bestPkt (keyed q) x.pkts
    (none, queCommit q (iwSat (setQ s q ({ x with pkts := x.pkts.eraseIdx i }).settle) .que q.val 0x24C 0 16))
  else (some (.item 0#32 1), queCommit q (setQ s q ({ x with rest := [] }).settle))

/-- A read of queue q; err = what the check bits of its next item show: 0 none, 1 single-bit, 2 uncorrectable. -/
def popItem (q : Fin 64) (err : Nat) (s : State) : PopRes × State :=
  let x := s.queues[q]
  if qCap s q = 0 then (.item 0#32 0, s)
  else if x.nothing then (emptyRead s q, s)
  else if (headItem ((x.openRead (keyed q)).rest)).place = .spill then (.wait, s)
  else if err = 2 then
    match badItem q 0 s with
    | (some r, s) => (r, s)
    | (none, s) => if (s.queues[q]).nothing then (emptyRead s q, s) else deliver q s
  else deliver q (if err = 1 then queCorr q s else s)

/-- SIDE of a queue for a master: the side bits of its last pop (R347). -/
def sideKey (q : Fin 64) (m : Nat) : Nat := 16 * q.val + m
/-- Put the side bits of a master's last pop. -/
def putSide (q : Fin 64) (m side : Nat) (s : State) : State :=
  { s with sides := sset (fun _ => 0) s.sides (sideKey q m) side }

/-- A read by a master other than a cluster completes: its word and its SIDE. -/
def popDone (m : Fin 10) (q : Fin 64) (w : Word) (side : Nat) (s : State) : State := putData m w (putSide q m.val side s)

/-- A read of POP by master m: it completes, or stalls (R348). -/
def pop (m : Fin 10) (q : Fin 64) (err : Nat) (s : State) : State :=
  match popItem q err s with
  | (.item w side, s) => popDone m q w side s
  | (.wait, s) => { s with stalls := s.stalls ++ [{ master := m.val, queue := q.val }] }

/-- QUE_POP: master, queue, what the item's check bits show (R347, R351). -/
def execQuePop (m : Fin 10) (q : Fin 64) (err : Fin 3) (t : Nat) (s : State) : Host.Outcome State Fault Refusal :=
  let a := queAddr q 0x340
  let (ok, s) := access m.val kRead a false (a, q.val, 0) (atTime t s)
  .next (if ok then pop m q err.val s else s)

/-- The oldest stalled read of queue q whose master runs completes, where an item can be delivered (R348). -/
def readComplete (q : Fin 64) (err : Nat) (s : State) : State :=
  match s.stalls.find? (fun x => x.queue == q.val && !(frozen s x.master)) with
  | none => s
  | some x =>
    if qCap s q ≠ 0 ∧ (s.queues[q]).nothing ∧ !(bit (ar s .que q.val 0) 0) then s
    else match popItem q err s with
      | (.item w side, s) =>
        popDone ⟨x.master % 10, Nat.mod_lt _ (by decide)⟩ q w side { s with stalls := s.stalls.erase x }
      | (.wait, s) => s

/-- QUE_READ_COMPLETE (R348). -/
def execQueReadComplete (q : Fin 64) (err : Fin 3) (t : Nat) (s : State) : Host.Outcome State Fault Refusal :=
  .next (readComplete q err.val (atTime t s))

/-! ### Spill and refill (R349, R350) -/

/-- The mover runs and the queue may spill. -/
def moverOn (s : State) (q : Fin 64) : Bool := !(frozen s 5) && decide (16 < qCap s q) && mode s != mSleep

/-- QUE_SPILL: up to eight of the oldest items of the tail are in eDRAM, once the head is full (R349). -/
def execQueSpill (q : Fin 64) (k : Fin 9) (t : Nat) (s : State) : Host.Outcome State Fault Refusal :=
  let s := atTime t s
  let x := (s.queues[q]).settle
  .next (if moverOn s q ∧ 8 ≤ x.inPlace .head then setQ s q (x.move .tail .spill k.val) else s)

/-- Items of a list moved from spill to the head, at most k. -/
def refillItems : Nat → List QItem → List QItem
  | _, [] => []
  | 0, l => l
  | k + 1, i :: is => if i.place = .spill then { i with place := .head } :: refillItems k is else i :: refillItems (k + 1) is

/-- The head takes up to eight items that are delivered next from spill; where its eight registers do not hold them, items of other
packets leave it for the spill region. -/
def Queue.refill (k : Bool) (x : Queue) : Queue :=
  let fit := fun (y : Queue) => y.move .head .spill (y.inPlace .head)
  if x.rest.isEmpty then
    let i := bestPkt k x.pkts
    let p := refillItems 8 (x.pkts.getD i [])
    let y := { x with pkts := x.pkts.set i p }
    if y.inPlace .head ≤ 8 then y.move .spill .head (8 - y.inPlace .head)
    else { (fit { x with pkts := x.pkts.set i [] }) with pkts := (fit { x with pkts := x.pkts.set i [] }).pkts.set i p }
  else
    let p := refillItems 8 x.rest
    let y := { x with rest := p }
    if y.inPlace .head ≤ 8 then y.move .spill .head (8 - y.inPlace .head)
    else { (fit { x with rest := [] }) with rest := p }

/-- QUE_REFILL: the head of a queue is refilled from spill; err = what the check bits of the next item show (R349, R351). -/
def queRefill (q : Fin 64) (err : Nat) (s : State) : State :=
  let x := s.queues[q]
  if moverOn s q && decide (x.inPlace .spill ≠ 0) then
    let next := headItem (if x.rest.isEmpty then x.pkts.getD (bestPkt (keyed q) x.pkts) [] else x.rest)
    if err = 2 && next.place == .spill && !x.nothing then
      if x.rest.isEmpty then (badItem q 1 s).2
      else
        setQ (queUncorr q 1 s) q { x with rest := [{ word := 0#32, prio := 0, fin := true, place := .head }] }
    else
      let s := if err = 1 then queCorr q s else s
      setQ s q ((s.queues[q]).refill (keyed q)).settle
  else s

/-- QUE_REFILL (R349). -/
def execQueRefill (q : Fin 64) (err : Fin 3) (t : Nat) (s : State) : Host.Outcome State Fault Refusal :=
  .next (queRefill q err.val (atTime t s))

/-! ### Readbacks -/

/-- QUE_STAT, QUE_PKTS of a queue as they read (Table 14-7). -/
def queStat (s : State) (q : Fin 64) : Word :=
  let x := s.queues[q]
  let u := if q.val < 32 then bit (br s .que 0x28) q.val else bit (br s .que 0x2C) (q.val - 32)
  wd (x.fill % 2 ^ 22 + 2 ^ 22 * b2n u + 2 ^ 23 * b2n (!x.rest.isEmpty))

/-- QUE_PKTS: readable packets whose first item has not yet been read (R345). -/
def quePkts (s : State) (q : Fin 64) : Word := wd (s.queues[q]).pkts.length

/-- QUE_READY_LO and _HI. -/
def queReady (s : State) (hi : Bool) : Word :=
  (List.range 32).foldl (fun w i =>
    let q : Fin 64 := ⟨(i + 32 * b2n hi) % 64, Nat.mod_lt _ (by decide)⟩
    setBit w i (!(s.queues[q]).pkts.isEmpty)) 0#32

/-- QUE_SPILLUSE: items held in spill, all queues. -/
def queSpillUse (s : State) : Word := wd ((s.queues.toList.map (fun x => x.inPlace .spill)).foldl (· + ·) 0 % 2 ^ 22)

end Sys2Proof.Machine
end

