-- ==== Sys2Proof/Machine/Update.lean ====
section
/-!
DEFINITION. Image update (spec 19 R482-R485) and flash work (R486, R488): the rows BEGIN, DATA, FINISH, ABORT, UPDATE_TIMEOUT,
FLASH_OPERATION_DONE and POSTMORTEM_WRITE_DONE.
-/
namespace Sys2Proof.Machine

/-- A whole packet written item by item by a master that first sees room for it; a full queue refuses its first item (14 R346). -/
def pushWhole (q : Fin 64) (m prio : Nat) : List Word → State → State
  | [], s => s
  | [w], s => pushItem q m prio true w s
  | w :: ws, s => if qRoom s q (ws.length + 1) then pushWhole q m prio ws (pushItem q m prio false w s) else refuseItem q m true s

/-- SYS_OWNER.KIND = 2: the owner is the ring master (02 R43). -/
def ownerRing (s : State) : Bool := fld (br s .sys 0x20) 0 2 == 2

/-- A transmit-queue packet's identifier item for the response (16 Table 16-3) from BOOT_UPDRSP. -/
def respKey (w : Word) : Word :=
  let x := bit w 29
  wd ((if x then fld w 0 29 else fld w 0 11 * 2 ^ 18) + 2 ^ 29 * b2n x + 2 ^ 30 * b2n (bit w 30))

/-- The answer to an update message (R482, Table 19-6): over the ring to address 0, or as a CAN packet with the response
identifier. -/
def updAnswer (op res seq : Nat) (s : State) : State :=
  let w := wd (op % 256 + 256 * res + 65536 * seq)
  let s := bw s .boot 0x40 (setFld (br s .boot 0x40) 16 4 res)
  let s := modBoot (fun b => { b with answered := 1 + res + 16 * op + 4096 * seq }) s
  if !(helmUp s) then s
  else if ownerRing s then pushWhole 6 0 0 [wd (2 ^ 16), w] s
  else pushWhole (if bit (br s .sys 0x20) 2 then 4 else 3) 0 0 [respKey (br s .boot 0x4C), 4#32, w] s

/-- A message refused for mode, length or session state (R485). -/
def updRefuse (op res seq : Nat) (s : State) : State :=
  ev 2 0 7 noAxis [wd op, wd res] (updAnswer op res seq (bwSat s .boot 0x50 16 16))

/-- Higher flash work runs than the update's (R488). -/
def higherWork (s : State) : Bool := s.boot.jobs.any (fun j => decide (j.rank < 3)) || s.safe.writing != 0

/-- The inactive slot: 0 = A, 1 = B. -/
def inactive (s : State) : Nat := if bit (br s .boot 0) 3 then 0 else 1

/-- VALID of a slot. -/
def putValid (slot : Nat) (v : Bool) (reason : Nat) (s : State) : State :=
  let w := br s .boot 0x28
  bw s .boot 0x28 (setFld (setBit w (8 * slot) v) (8 * slot + 4) 4 reason)

/-- The session took a message: its SEQ is the last accepted (BOOT_UPD), and its time starts anew. -/
def updTake (u : Upd) (s : State) : State :=
  let s := modBoot (fun b => { b with upd := some { u with last := s.now } }) s
  bw (bw s .boot 0x40 (setFld (br s .boot 0x40) 0 16 u.seq)) .boot 0x44 (wd u.ofs)

/-- A repeat of the last accepted message is answered again once its answer is known (R483). -/
def updRepeat (op seq : Nat) (s : State) : State :=
  if s.boot.jobs.contains (.upd op seq) then s
  else
    let a := s.boot.answered
    if a ≠ 0 ∧ (a - 1) / 4096 = seq then updAnswer op ((a - 1) % 16) seq s else updAnswer op 0 seq s

/-- Every message restarts the 60 s of an open session (R484). -/
def updSeen (s : State) : State := modBoot (fun b => { b with upd := b.upd.map (fun u => { u with last := s.now }) }) s

/-- BEGIN (R483). -/
def updBegin (seq len : Nat) (crc : Word) (s : State) : State :=
  let s := updSeen s
  match s.boot.upd with
  | some u => if u.seq = seq then updRepeat 1 seq s else updAnswer 1 3 seq s
  | none =>
    if higherWork s then updAnswer 1 1 seq s
    else if mode s ≠ mStandby ∧ mode s ≠ mRun ∧ mode s ≠ mSafeStop ∨ frozen s 9 then updRefuse 1 2 seq s
    else if len < 0x48 ∨ (br s .boot 0x24).toNat < len then updRefuse 1 4 seq s
    else
      let s := bwBit (putValid (inactive s) false 0 s) .boot 0 7 true
      let s := updTake { len := len, crc := crc, seq := seq, ofs := 0, hdr := [], body := [], blocks := 1, last := s.now } s
      addJob (.upd 1 seq) s

/-- DATA: slot offset, byte count and the bytes (R483). -/
def updData (seq ofs cnt : Nat) (bytes : List Byte) (s : State) : State :=
  let s := updSeen s
  match s.boot.upd with
  | none => updRefuse 2 7 seq s
  | some u =>
    if u.seq = seq then updRepeat 2 seq s
    else if higherWork s then updAnswer 2 1 seq s
    else if (if ownerRing s then 232 else 52) < cnt then updRefuse 2 4 seq s
    else if seq ≠ (u.seq + 1) % 65536 ∨ ofs ≠ u.ofs then updAnswer 2 3 seq s
    else if u.len < ofs + cnt then updRefuse 2 4 seq s
    else
      let stop := ofs + cnt
      let u' := { u with seq := seq, ofs := stop, hdr := u.hdr ++ (bytes.take cnt).take (0x40 - ofs), body := u.body ++ (bytes.take cnt).drop (0x40 - ofs),
                         blocks := max u.blocks ((stop + 65535) / 65536) }
      let s := updTake u' s
      if stop ≤ 0x40 ∨ cnt = 0 then updAnswer 2 0 seq s else addJob (.upd 2 seq) s

/-- FINISH (R483): the read-back and the header write are flash work. -/
def updFinish (seq : Nat) (s : State) : State :=
  let s := updSeen s
  match s.boot.upd with
  | none => if s.boot.answered ≠ 0 ∧ (s.boot.answered - 1) / 16 % 256 = 3 ∧ (s.boot.answered - 1) / 4096 = seq then updRepeat 3 seq s else updRefuse 3 7 seq s
  | some u =>
    if u.seq = seq then updRepeat 3 seq s
    else if higherWork s then updAnswer 3 1 seq s
    else if seq ≠ (u.seq + 1) % 65536 then updAnswer 3 3 seq s
    else if u.ofs ≠ u.len then updRefuse 3 4 seq s
    else addJob (.upd 3 seq) (updTake { u with seq := seq } s)

/-- ABORT (R484). -/
def updAbort (seq : Nat) (s : State) : State :=
  let s := updSeen s
  match s.boot.upd with
  | none => if s.boot.answered ≠ 0 ∧ (s.boot.answered - 1) / 16 % 256 = 4 ∧ (s.boot.answered - 1) / 4096 = seq then updRepeat 4 seq s else updRefuse 4 7 seq s
  | some u =>
    if seq ≠ (u.seq + 1) % 65536 then updAnswer 4 3 seq s
    else updAnswer 4 0 seq (closeUpd (updTake { u with seq := seq } s))

/-- The bytes of message words. -/
def wordBytes (ws : List Word) : List Byte := ws.flatMap fun w => [byteOf w 0, byteOf w 1, byteOf w 2, byteOf w 3]

/-- An update message as words (Table 19-6); an OP outside 1 to 4 is no update message. -/
def updMsg (ws : List Word) (s : State) : State :=
  let w := ws.headD 0#32
  let seq := fld w 16 16
  let w1 := (ws.getD 1 0#32).toNat
  match fld w 0 8 with
  | 1 => updBegin seq w1 (ws.getD 2 0#32) s
  | 2 => updData seq w1 (ws.getD 2 0#32).toNat (wordBytes (ws.drop 3)) s
  | 3 => updFinish seq s
  | 4 => updAbort seq s
  | _ => s

/-- BEGIN (R483). -/
def execBegin (seq : BitVec 16) (len crc : Word) (t : Nat) (s : State) : Host.Outcome State Fault Refusal :=
  .next (updBegin seq.toNat len.toNat crc (atTime t s))

/-- DATA (R483). -/
def execData (seq : BitVec 16) (ofs cnt : Word) (bytes : List Byte) (t : Nat) (s : State) : Host.Outcome State Fault Refusal :=
  .next (updData seq.toNat ofs.toNat cnt.toNat bytes (atTime t s))

/-- FINISH (R483). -/
def execFinish (seq : BitVec 16) (t : Nat) (s : State) : Host.Outcome State Fault Refusal :=
  .next (updFinish seq.toNat (atTime t s))

/-- ABORT (R484). -/
def execAbort (seq : BitVec 16) (t : Nat) (s : State) : Host.Outcome State Fault Refusal :=
  .next (updAbort seq.toNat (atTime t s))

/-- UPDATE_TIMEOUT: 60 s without a message (R484). -/
def execUpdateTimeout (t : Nat) (s : State) : Host.Outcome State Fault Refusal :=
  let s := atTime t s
  .next (match s.boot.upd with
    | some u => if u.last + 60000000000 ≤ s.now then ev 2 (inactive s) 9 noAxis [15#32] (closeUpd s) else s
    | none => s)

/-- The job at the head is done. -/
def popJob (s : State) : State := busyUpd (modBoot (fun b => { b with jobs := b.jobs.tail, retried := false }) s)

/-- GEN registers of the slots. -/
def genReg (slot : Nat) : Nat := if slot = 0 then 0x2C else 0x30

/-- The fused hash words. -/
def keyHash (s : State) : List Word := (List.range 8).map fun w => br s .boot (0x70 + 4 * w)
/-- The fuses are blank. -/
def fuseBlank (s : State) : Bool := bit (br s .boot 0x60) 0

/-- FINISH has read the slot back: with checks 1 to 6 and 10 passed the header is written, else the session fails (R483). -/
def finishDone (seq : Nat) (s : State) : State :=
  match s.boot.upd with
  | none => s
  | some u =>
    let slot := inactive s
    let reason := slotCheck u.hdr u.body (br s .boot 0x24).toNat (fld (br s .sys 0) 24 8) s.helm.build (fuseBlank s) (keyHash s) u.crc
    if reason = 0 then
      let gen := max (br s .boot 0x2C).toNat (br s .boot 0x30).toNat + 1
      let s := bw (putValid slot true 0 s) .boot (genReg slot) (wd gen)
      updAnswer 3 0 seq (ev 2 slot 8 noAxis [wd gen, u.crc] (closeUpd s))
    else updAnswer 3 5 seq (ev 2 slot 9 noAxis [wd reason] (closeUpd (putValid slot false reason s)))

/-- An erase or program of the flash completes, or fails (R485, R488): a failure is retried once. -/
def flashDone (ok : Bool) (ofs op : Word) (s : State) : State :=
  if frozen s 9 then s
  else match s.boot.jobs with
  | .erase :: _ =>
    if ok then popJob s
    else if s.boot.retried then ev 2 0 6 noAxis [ofs, op] (popJob (bwSat s .boot 0x50 0 16))
    else modBoot (fun b => { b with retried := true }) (bwSat s .boot 0x50 0 16)
  | .upd k seq :: _ =>
    if ok then
      let s := popJob s
      if k = 3 then finishDone seq s else updAnswer k 0 seq s
    else if s.boot.retried then
      updAnswer k 6 seq (closeUpd (ev 2 0 6 noAxis [ofs, op] (popJob (bwSat s .boot 0x50 0 16))))
    else modBoot (fun b => { b with retried := true }) (bwSat s .boot 0x50 0 16)
  | _ => s

/-- FLASH_OPERATION_DONE: of the pre-erase or the update operation in hand, with the offset and the operation of a failure (R485,
R488). -/
def execFlashOperationDone (ok : Bool) (ofs op : Word) (t : Nat) (s : State) : Host.Outcome State Fault Refusal :=
  .next (flashDone ok ofs op (atTime t s))

/-- The postmortem record is written and read back, or has failed: cause 1 no response, 2 read-back, 3 loader frozen (R61, R62,
R486). The next sector is erased; an update session closes (R488). -/
def pmWritten (ok : Bool) (cause : Nat) (s : State) : State :=
  if s.boot.jobs.head? = some .pm then
    let n := (br s .boot 0x38).toNat + 1
    let s := popJob s
    let s := modHelm (fun h => { h with pmPending := false, pmDone := true }) s
    let s := if ok && !(frozen s 9) then
        addJob .erase (bw (modBoot (fun b => { b with pms := ((n, s.helm.pmRecord) :: b.pms).take 7 }) s) .boot 0x38 (wd n))
      else ev 2 0 5 noAxis [wd (n % 8), wd (if frozen s 9 then 3 else cause)] s
    closeUpd s
  else s

/-- POSTMORTEM_WRITE_DONE (R61). -/
def execPostmortemWriteDone (ok : Bool) (cause : Fin 4) (t : Nat) (s : State) : Host.Outcome State Fault Refusal :=
  .next (pmWritten ok cause.val (atTime t s))

end Sys2Proof.Machine
end

