-- ==== Sys2Proof/Machine/Can.lean ====
section
/-!
DEFINITION. The CAN FD controllers (spec 16): states, message objects, reception into point blocks, transmit arbitration, errors and
bus-off, transceiver standby, commits; and the CAN rows of the table.
-/
namespace Sys2Proof.Machine

/-- The mover of a controller: master 7 or 8 (02 Table 2-12). -/
def cm (c : Fin 2) : Nat := 7 + c.val
/-- The transmit queue of a controller. -/
def cq (c : Fin 2) : Fin 64 := if c = 0 then 3 else 4

/-- STATE: 0 INIT, 1 ERROR_ACTIVE, 2 ERROR_PASSIVE, 3 BUS_OFF (Table 16-7). -/
def canState (s : State) (c : Fin 2) : Nat := fld (br s (cb c) 0) 0 2
/-- Put STATE. -/
def putCanState (c : Fin 2) (k : Nat) (s : State) : State := bw s (cb c) 0 (setFld (br s (cb c) 0) 0 2 k)
/-- The controller takes part in bus traffic (R394, R395). -/
def canOn (s : State) (c : Fin 2) : Bool := (canState s c == 1 || canState s c == 2) && mode s != mSleep
/-- INIT of CAN_CTRL. -/
def canInit (s : State) (c : Fin 2) : Bool := bit (br s (cb c) 8) 0
/-- STBREQ of CAN_CTRL. -/
def canStb (s : State) (c : Fin 2) : Bool := bit (br s (cb c) 8) 2

/-! ### Objects -/

/-- Payload length of a DLC code (R396). -/
def dlcLen (fdf : Bool) (d : Nat) : Nat :=
  if d ≤ 8 then d else if !fdf then 8 else [12, 16, 20, 24, 32, 48, 64].getD (d - 9) 64
/-- Payload length of an object. -/
def cfgLen (w : Word) : Nat := dlcLen (bit w 3) (fld w 16 4)
/-- Data points of a payload. -/
def dataPts (len : Nat) : Nat := (len + 3) / 4
/-- An object's identifier word as INFO shows it: identifier, XTD, FDF, BRS (Table 16-2). -/
def infoWord (id : Nat) (xtd fdf brs : Bool) : Word := wd (id % 2 ^ 29 + 2 ^ 29 * b2n xtd + 2 ^ 30 * b2n fdf + 2 ^ 31 * b2n brs)
/-- Key under R403: an 11-bit identifier is shifted left by 18. -/
def keyOf (xtd : Bool) (id : Nat) : Nat := if xtd then id % 2 ^ 29 else id % 2 ^ 11 * 2 ^ 18

/-! ### Commits (R393, R410) -/

/-- Offset of the first register of the pending bit timing that breaks R393. -/
def timingBad (s : State) (c : Fin 2) : Option Nat :=
  let n := ir s (cb c) 0 0
  let d := ir s (cb c) 0 4
  let t := ir s (cb c) 0 8
  let nb := fld n 0 9
  let n1 := fld n 9 8
  let n2 := fld n 17 7
  let nj := fld n 24 7
  let db := fld d 0 5
  let d1 := fld d 8 5
  let d2 := fld d 16 4
  let dj := fld d 24 4
  let nq := 1 + n1 + n2
  let dq := 1 + d1 + d2
  firstBad [
    (nb == 0 || n1 == 0 || n2 == 0 || nj == 0 || decide (min n1 n2 < nj) || decide (nb * nq < 80) || decide (nq < 8), 0),
    (db == 0 || d1 == 0 || d2 == 0 || dj == 0 || decide (min d1 d2 < dj) || decide (db * dq < 16) || decide (dq < 5) ||
      decide (nb * nq < db * dq) || (decide (db * dq < 80) && !(bit t 0)), 4)]

/-- Offset of the first register of an object (CFG, ID, MAP pending) that breaks R410. -/
def objBad (cfg id map : Word) : Option Nat :=
  let b := pbase map
  if cfgDir cfg = 0 then none
  else firstBad [
    (cfgDir cfg == 3 || fld cfg 9 2 == 3 || (bit cfg 4 && !(bit cfg 3)), 0),
    (!(bit cfg 2) && decide (0x7FF < fld id 0 29), 4),
    ((b != 0 && (b % 2 == 1 || decide (b < 8192) || decide (131072 < b + 4 + dataPts (cfgLen cfg)))) || (cfgDir cfg == 2 && b == 0), 12)]

/-- Offset of the first invalid register of object group i, pending. -/
def groupBad (s : State) (c : Fin 2) (i : Nat) : Option Nat :=
  (List.range 32).findSome? fun k =>
    let w := fun j => ir s (cb c) i (16 * k + 4 * j)
    (objBad (w 0) (w 1) (w 3)).map (16 * k + ·)

/-- A refused commit (R393, R410). -/
def canRefused (c : Fin 2) (i o : Nat) (s : State) : State := ev 0xC c.val 7 noAxis [wd i, wd o] s

/-- The last sent SEQ of an object that has sent nothing yet is the one found when it is committed. -/
def seqStart (c : Fin 2) (i : Nat) (s : State) : State :=
  forEach ((List.range 32).map fun k => 32 * (i - 1) + k) (fun n s =>
    let w := objW s c n 0
    if cfgDir w = 2 ∧ fld w 9 2 = 2 ∧ !(s.can[c].sent.any (fun x => x.1 == n)) then
      modCan c (fun x => { x with sent := (n, seqAt s (pbase (objW s c n 3))) :: x.sent }) s
    else s) s

/-- The words of object group i, active. -/
def groupWords (s : State) (c : Fin 2) (i : Nat) : List Word := (List.range 128).map fun k => ar s (cb c) i (4 * k)

/-- The set that a commit replaces is kept for a frame that is being received, which completes under it (R410). -/
def keepOld (c : Fin 2) (i : Nat) (s : State) : State :=
  if canState s c = 0 then s else modCan c (fun x => { x with oldObj := x.oldObj ++ [(s.now, i, groupWords s c i)] }) s

/-- Word k of object n as it stood at ship time t: what the first commit of its group after t replaced, else the active word (R410). -/
def objAt (s : State) (c : Fin 2) (t n k : Nat) : Word :=
  match s.can[c].oldObj.find? (fun x => decide (t < x.1) && x.2.1 == 1 + n / 32) with
  | some x => x.2.2.getD (4 * (n % 32) + k) 0#32
  | none => objW s c n k

/-- TIMARM: an instance 0 commit waits for INIT. -/
def timArm (c : Fin 2) (s : State) : State := bwBit s (cb c) 0 3 (bit (br s (cb c) 0x10) 0 && canState s c != 0)

/-- The armed commits that may be taken now: the object groups between frames or in INIT, the bit timing in INIT. -/
def canCommits (c : Fin 2) (s : State) : State :=
  let idle := !(s.can[c].busy) || canState s c == 0
  let s := forEach [1, 2, 3, 4] (fun i s =>
    if idle && bit (br s (cb c) 0x10) i then
      let s := bwBit s (cb c) 0x10 i false
      match groupBad s c i with
      | some o => canRefused c i o s
      | none => seqStart c i (copySet (cb c) i (keepOld c i s))
    else s) s
  let s := if canState s c = 0 ∧ bit (br s (cb c) 0x10) 0 then
      let s := bwBit s (cb c) 0x10 0 false
      match timingBad s c with
      | some o => canRefused c 0 o s
      | none => copySet (cb c) 0 s
    else s
  timArm c s

/-! ### Notifications (R405) -/

/-- A one-item packet in queue 5. -/
def canNotify (c : Fin 2) (obj : Nat) (sent queue : Bool) (tag prio : Nat) (s : State) : State :=
  let w := wd (obj % 128 + 128 * c.val + 256 * b2n sent + 512 * b2n queue + 65536 * (tag % 65536))
  let ok := qRoom s 5 1
  let s := pushItem 5 (cm c) prio true w s
  if ok then s else bwSat s (cb c) 0x24 16 16

/-! ### Reception (R397-R399, R402, R408) -/

/-- Does object n take the frame? -/
def objTakes (s : State) (c : Fin 2) (f : CanFrame) (n : Nat) : Bool :=
  let cfg := objAt s c f.sof n 0
  let m := objAt s c f.sof n 2
  cfgDir cfg == 1 && ((f.id.toNat ^^^ fld (objAt s c f.sof n 1) 0 29) &&& fld m 0 29) == 0 &&
  (!(bit m 29) || f.xtd == bit cfg 2) && (!(bit m 30) || f.fdf == bit cfg 3)

/-- The object lies in the command owner's range (R408; 02 R43). -/
def ownObj (s : State) (c : Fin 2) (n : Nat) : Bool :=
  let w := br s .sys 0x20
  fld w 0 2 == 1 && fld w 2 1 == c.val && decide (fld w 8 7 ≤ n ∧ n < fld w 8 7 + fld w 16 8)

/-- The writes of a received frame into its block, in the order of R399. -/
def blockWrites (s : State) (b len : Nat) (f : CanFrame) : List (Nat × Word) :=
  let q := seqAt s b
  let bytes := f.data.take len
  let t : Int := f.sof
  [(b, setFld (pt s b) 0 16 (q + 1)), (b + 1, infoWord f.id.toNat f.xtd f.fdf f.brs), (b + 2, loWord t), (b + 3, hiWord t)] ++
  ((List.range (dataPts len)).map fun k => (b + 4 + k, wd (leWord (bytes.drop (4 * k)) 4))) ++
  [(b, wd ((q + 2) % 65536 + 65536 * f.dlc.toNat + 2 ^ 20 * b2n f.esi))]

/-- Writes of a mover in order, with the words already completed (23 R553). -/
def moverWrites (m pos : Nat) (own : Bool) : Nat → List (Nat × Word) → State → State
  | _, [], s => s
  | k, (i, v) :: l, s => moverWrites m pos own (k + 1) l (chartWrite m i v own (ptAddr i, pos, k) s)

/-- The update object of the OWNER record (19 R482). -/
def updObj (s : State) (c : Fin 2) (n : Nat) : Bool :=
  let w := br s .boot 0x48
  bit w 7 && fld w 0 7 == n && ownObj s c n

/-- A frame taken by object n. -/
def takeFrame (c : Fin 2) (n : Nat) (f : CanFrame) (s : State) : State :=
  let s := bwSat s (cb c) 0x20 0 16
  if frozen s (cm c) then s
  else
    let cfg := objAt s c f.sof n 0
    let b := pbase (objAt s c f.sof n 3)
    let s := if b = 0 then s else moverWrites (cm c) n (ownObj s c n) 0 (blockWrites s b (cfgLen cfg) f) s
    let s := if bit cfg 5 && !(frozen s (cm c)) then canNotify c n false false (if b = 0 then 0 else seqAt s b) (fld cfg 6 3) s else s
    if updObj s c n && helmUp s then
      updMsg ((List.range (dataPts f.data.length)).map fun k => wd (leWord (f.data.drop (4 * k)) 4)) s
    else s

/-- REC after a frame received correctly (ISO 11898-1): one less, from above 127 to a value between 119 and 127. -/
def recLess (s : State) (r : Nat) : Nat × State :=
  if r = 0 then (0, s) else if r ≤ 127 then (r - 1, s)
  else let (k, s) := takeFresh s; (119 + (Config.freeInt k).toNat % 9, s)

/-- Put both error counters. -/
def putErr (c : Fin 2) (tec rec_ : Nat) (s : State) : State :=
  bw s (cb c) 4 (setFld (setFld (br s (cb c) 4) 0 8 (min tec 255)) 8 8 (min rec_ 255))

/-- ERROR_PASSIVE ends once both counters are at most 127. -/
def passiveEnds (c : Fin 2) (s : State) : State :=
  let w := br s (cb c) 4
  if canState s c = 2 ∧ fld w 0 8 ≤ 127 ∧ fld w 8 8 ≤ 127 then putCanState c 1 s else s

/-- A frame received correctly (R397). A remote frame is counted as unmatched (R391). -/
def canReceive (c : Fin 2) (f : CanFrame) (s : State) : State :=
  if !(canOn s c) then s
  else
    let w := br s (cb c) 4
    let (r, s) := recLess s (fld w 8 8)
    let s := passiveEnds c (putErr c (fld w 0 8) r s)
    let hit := if f.rtr then none else (List.range 128).find? (objTakes s c f)
    let s := match hit with
      | some n => takeFrame c n f s
      | none => bwSat s (cb c) 0x24 0 16
    canCommits c (modCan c (fun x => { x with oldObj := [] }) s)

/-- CAN_FRAME_RECEIVED at the end of a frame (R397). -/
def execCanFrameReceived (c : Fin 2) (f : CanFrame) (t : Nat) (s : State) : Host.Outcome State Fault Refusal :=
  .next (canReceive c f (atTime t s))

/-! ### Transmission (R401, R403-R405) -/

/-- A transmit object is pending. -/
def objPend (s : State) (c : Fin 2) (n : Nat) : Bool := cfgDir (objW s c n 0) == 2 && s.can[c].pend.contains n

/-- CAN_TXREQk as it reads: the objects pending. -/
def txReqRead (s : State) (c : Fin 2) (k : Nat) : Word :=
  (List.range 32).foldl (fun w b => setBit w b (objPend s c (32 * k + b))) 0#32

/-- Key of an object. -/
def objKey (s : State) (c : Fin 2) (n : Nat) : Nat := keyOf (bit (objW s c n 0) 2) (fld (objW s c n 1) 0 29)

/-- The pending object that goes first: lowest key, then lowest number. -/
def bestObj (s : State) (c : Fin 2) : Option Nat :=
  ((List.range 128).filter (objPend s c)).foldl (fun b n => match b with
    | none => some n
    | some m => if objKey s c n < objKey s c m then some n else some m) none

/-- The first packet of the controller's transmit queue. -/
def firstPkt (s : State) (c : Fin 2) : Option (List QItem) :=
  let x := s.queues[cq c]
  if x.pkts.isEmpty then none else some (x.pkts.getD (bestPkt true x.pkts) [])

/-- A queue packet that R404 refuses. -/
def pktBad (p : List Word) : Bool :=
  let k := p.headD 0#32
  let d := p.getD 1 0#32
  p.length != 2 + dataPts (dlcLen (bit k 30) (fld d 0 4)) || (!(bit k 29) && fld k 0 18 != 0) || (bit k 31 && !(bit k 30))

/-- The queue without its first packet. -/
def dropFirst (c : Fin 2) (s : State) : State :=
  let x := s.queues[cq c]
  setQ s (cq c) ({ x with pkts := x.pkts.eraseIdx (bestPkt true x.pkts) }).settle

/-- Bad packets at the head of the queue are discarded (R404). -/
def dropBad (c : Fin 2) : Nat → State → State
  | 0, s => s
  | k + 1, s => match firstPkt s c with
    | some p => if pktBad (p.map (·.word)) then dropBad c k (ev 0xC c.val 6 noAxis [(headItem p).word] (dropFirst c s)) else s
    | none => s

/-- The words of an object's block are read by the mover; a read outside its regions freezes it. -/
def readBlock (c : Fin 2) (n b len : Nat) (s : State) : State :=
  forEach (List.range (4 + dataPts len)) (fun k s => (access (cm c) kRead (ptAddr (b + k)) false (ptAddr (b + k), n, k) s).2) s

/-- The mover takes object n for sending: its block is read under R400; where no read agrees the transmission is skipped (R401). -/
def startObj (c : Fin 2) (n : Nat) (torn : Bool) (s : State) : State :=
  let cfg := objW s c n 0
  let b := pbase (objW s c n 3)
  let len := cfgLen cfg
  let q := seqAt s b
  let s := readBlock c n b len s
  if frozen s (cm c) then s
  else if torn ∨ q % 2 = 1 then
    let s := bwSat s (cb c) 0x28 0 16
    let s := modCan c (fun x => { x with tx := none, pend := x.pend.filter (· != n) }) s
    evOnce (0xC00400 + c.val) 0xC c.val 4 noAxis [wd n] s
  else
    let tx : CanTx := { obj := some n, seq := q, info := infoWord (fld (objW s c n 1) 0 29) (bit cfg 2) (bit cfg 3) (bit cfg 4),
                        notify := bit cfg 5, prio := fld cfg 6 3, tag := q,
                        data := (List.range (dataPts len)).map fun k => pt s (b + 4 + k) }
    modCan c (fun x => { x with busy := true, tx := some tx }) s

/-- The first packet of the queue is sent. -/
def startPkt (c : Fin 2) (p : List Word) (s : State) : State :=
  let k := p.headD 0#32
  let d := p.getD 1 0#32
  let id := if bit k 29 then fld k 0 29 else fld k 18 11
  let tx : CanTx := { obj := none, seq := 0, info := infoWord id (bit k 29) (bit k 30) (bit k 31), notify := bit d 4, prio := 0,
                      tag := fld d 16 16, data := p }
  modCan c (fun x => { x with busy := true, tx := some tx }) s

/-- An arbitration opportunity (R403): the lowest key among the pending objects and the first packet of the queue; on equal keys
the object. A frame that lost arbitration competes again. -/
def txStart (c : Fin 2) (torn : Bool) (s : State) : State :=
  if !(canOn s c) || frozen s (cm c) then s
  else
    let s := modCan c (fun x => { x with busy := false, tx := none }) s
    let s := canCommits c (dropBad c 65 s)
    let p := (firstPkt s c).bind fun p => if (headItem p).place = .spill then none else some (p.map (·.word))
    match bestObj s c, p with
    | some n, some p => if objKey s c n ≤ fld (p.headD 0#32) 0 29 then startObj c n torn s else startPkt c p s
    | some n, none => startObj c n torn s
    | none, some p => startPkt c p s
    | none, none => s

/-- CAN_TX_START; torn = the four reads of the object's block disagree (R400, R403). -/
def execCanTxStart (c : Fin 2) (torn : Bool) (t : Nat) (s : State) : Host.Outcome State Fault Refusal :=
  .next (txStart c torn (atTime t s))

/-- The packet sent leaves the queue. -/
def dropSent (c : Fin 2) (p : List Word) (s : State) : State :=
  let x := s.queues[cq c]
  match x.pkts.findIdx? (fun y => y.map (·.word) == p) with
  | some i => setQ s (cq c) ({ x with pkts := x.pkts.eraseIdx i }).settle
  | none => s

/-- A transmission succeeds: INFO and TIME of an object, the packet leaves the queue, notifications (R398, R402, R405). -/
def txComplete (c : Fin 2) (sof : Nat) (s : State) : State :=
  match s.can[c].tx with
  | none => s
  | some x =>
    let s := modCan c (fun y => { y with busy := false, tx := none }) s
    let s := bwSat s (cb c) 0x20 16 16
    let w := br s (cb c) 4
    let s := passiveEnds c (putErr c (fld w 0 8 - 1) (fld w 8 8) s)
    let s := match x.obj with
      | some n =>
        let b := pbase (objW s c n 3)
        let t : Int := sof
        let s := modCan c (fun y => { y with pend := y.pend.filter (· != n), sent := (n, x.seq) :: y.sent.filter (fun z => z.1 != n) }) s
        let s := seqPend b s
        moverWrites (cm c) n false 0 [(b + 1, x.info), (b + 2, loWord t), (b + 3, hiWord t)] s
      | none => dropSent c x.data s
    let s := if x.notify && !(frozen s (cm c)) then canNotify c (x.obj.getD 0) true x.obj.isNone x.tag x.prio s else s
    canCommits c s

/-- CAN_TX_COMPLETE: sof = ship time of the frame's start as it returned (R405). -/
def execCanTxComplete (c : Fin 2) (sof t : Nat) (s : State) : Host.Outcome State Fault Refusal :=
  .next (txComplete c sof (atTime t s))

/-- CAN_CYCLIC_TX: at a multiple of CYCLE ms the cyclic objects become pending (R401). -/
def cyclicTx (c : Fin 2) (t : Nat) (s : State) : State :=
  let due := (List.range 128).filter fun n =>
    let w := objW s c n 0
    cfgDir w == 2 && fld w 9 2 == 1 && fld w 20 12 != 0 && t % (fld w 20 12 * 1000000) == 0 && !(s.can[c].pend.contains n)
  modCan c (fun x => { x with pend := x.pend ++ due }) s

/-- CAN_CYCLIC_TX (R401). -/
def execCanCyclicTx (c : Fin 2) (t : Nat) (s : State) : Host.Outcome State Fault Refusal := .next (cyclicTx c t (atTime t s))

/-- A write of CAN_TXREQk: objects with TXTRIG = 0 become pending (R401, R411). -/
def txReq (c : Fin 2) (k : Nat) (v : Word) (s : State) : State :=
  let due := ((List.range 32).filter (fun b => bit v b)).map (fun b => 32 * k + b)
  let due := due.filter fun n => cfgDir (objW s c n 0) == 2 && fld (objW s c n 0) 9 2 == 0 && !(s.can[c].pend.contains n)
  modCan c (fun x => { x with pend := x.pend ++ due }) s

/-- CAN_TXREQ: a write by a master (R401). -/
def execCanTxreq (m : Fin 10) (c : Fin 2) (k : Fin 4) (v : Word) (t : Nat) (s : State) : Host.Outcome State Fault Refusal :=
  let a := bAddr (cb c) (0x30 + 4 * k.val)
  let (ok, s) := access m.val kWrite a false (noXfer a) (atTime t s)
  .next (if ok then txReq c k.val v s else s)

/-! ### States (R394, R406, R409) -/

/-- Level of CANn_STB: standby from power-up to the end of BOOT and in SLEEP, else as STBREQ asks; STBPOL = 0 makes it high (R409). -/
def stbPin (s : State) (c : Fin 2) : Bool :=
  (mode s == mBoot || mode s == mSleep || canStb s c) != bit (br s (cb c) 8) 3


/-- Entry to INIT: the armed commits are applied before INIT is reported; the counters are held at 0 (R394, R411). -/
def initEnter (c : Fin 2) (s : State) : State :=
  let s := modCan c (fun x => { x with busy := false, initDue := false, joining := false, tx := none }) s
  canCommits c (putErr c 0 0 (putCanState c 0 s))

/-- INIT is asked for: at once while the controller sends no frame, else at the end of the frame. Not in BUS_OFF. -/
def initAsk (c : Fin 2) (s : State) : State :=
  if canState s c = 3 then s
  else if canState s c = 0 then modCan c (fun x => { x with joining := false }) s
  else if s.can[c].busy then modCan c (fun x => { x with initDue := true }) s
  else initEnter c s

/-- INIT is released: the controller waits for 11 recessive bits, unless STBREQ holds it (R394, R409). -/
def initLeave (c : Fin 2) (s : State) : State :=
  let s := modCan c (fun x => { x with initDue := false }) s
  if canState s c = 0 ∧ !(canInit s c) ∧ !(canStb s c) then modCan c (fun x => { x with joining := true }) s else s

/-- Bus-off recovery starts (R406). -/
def borec (c : Fin 2) (s : State) : State := if canState s c = 3 then bwBit s (cb c) 0 2 true else s

/-- A write of CAN_CTRL: INIT is ignored in BUS_OFF; STBREQ holds the controller in INIT (Table 16-9). -/
def canCtrl (c : Fin 2) (v : Word) (s : State) : State :=
  let off := canState s c = 3
  let s := if bit v 1 then borec c s else s
  let w := setBit (setBit (br s (cb c) 8) 2 (bit v 2)) 3 (bit v 3)
  let s := bw s (cb c) 8 (if off then w else setBit w 0 (bit v 0))
  if off ∧ !(bit v 2) then s
  else if bit v 0 || bit v 2 then initAsk c s
  else initLeave c s

/-- A write of CAN_CTRL by a master. -/
def ctrlBy (m : Fin 10) (c : Fin 2) (f : Word → Word) (t : Nat) (s : State) : State :=
  let a := bAddr (cb c) 8
  let (ok, s) := access m.val kWrite a false (noXfer a) (atTime t s)
  if ok then canCtrl c (f (br s (cb c) 8)) s else s

/-- CAN_INIT_SET (R394). -/
def execCanInitSet (m : Fin 10) (c : Fin 2) (t : Nat) (s : State) : Host.Outcome State Fault Refusal :=
  .next (ctrlBy m c (fun w => setBit w 0 true) t s)

/-- CAN_INIT_ENTERED at the end of the frame in progress (R394). -/
def execCanInitEntered (c : Fin 2) (t : Nat) (s : State) : Host.Outcome State Fault Refusal :=
  let s := atTime t s
  .next (if s.can[c].initDue then initEnter c s else s)

/-- CAN_INIT_CLEAR (R394). -/
def execCanInitClear (m : Fin 10) (c : Fin 2) (t : Nat) (s : State) : Host.Outcome State Fault Refusal :=
  .next (ctrlBy m c (fun w => setBit w 0 false) t s)

/-- CAN_ACTIVE: 11 recessive bits seen (R394). -/
def execCanActive (c : Fin 2) (t : Nat) (s : State) : Host.Outcome State Fault Refusal :=
  let s := atTime t s
  .next (if s.can[c].joining then timArm c (putCanState c 1 (modCan c (fun x => { x with joining := false }) s)) else s)

/-- BOREC: the register write; the CMD point acts by HELM_1MS_UPDATE (R406). -/
def execBorec (m : Fin 10) (c : Fin 2) (t : Nat) (s : State) : Host.Outcome State Fault Refusal :=
  .next (ctrlBy m c (fun w => setBit w 1 true) t s)

/-- CAN_RECOVERED: 128 times 11 recessive bits (R406). -/
def execCanRecovered (c : Fin 2) (t : Nat) (s : State) : Host.Outcome State Fault Refusal :=
  let s := atTime t s
  .next (if canState s c = 3 ∧ bit (br s (cb c) 0) 2 then
      let s := putErr c 0 0 (putCanState c 1 (bwBit s (cb c) 0 2 false))
      ev 0xC c.val 3 noAxis [0#32] (canCommits c (if canStb s c then initAsk c s else s))
    else s)

/-- STBREQ (R409). -/
def execStbreq (m : Fin 10) (c : Fin 2) (on : Bool) (t : Nat) (s : State) : Host.Outcome State Fault Refusal :=
  .next (ctrlBy m c (fun w => setBit w 2 on) t s)

/-- A bus error leaves the counters and error codes of the standard (R391, R394): passive from 128, bus-off from a transmit
counter of 256. A queue packet being sent at bus-off is discarded (R407). -/
def busError (c : Fin 2) (tec rec_ lec dlec : Nat) (s : State) : State :=
  if !(canOn s c) then s
  else
    let s := putErr c tec rec_ s
    let s := bw s (cb c) 4 (setFld (setFld (br s (cb c) 4) 16 3 lec) 19 3 dlec)
    let tx := s.can[c].tx
    let s := modCan c (fun x => { x with busy := false, tx := none }) s
    let s := if 256 ≤ tec then
        let s := bwSat (modCan c (fun x => { x with initDue := false }) (putCanState c 3 s)) (cb c) 0x28 16 16
        let s := ev 0xC c.val 2 noAxis [wd tec, wd lec] s
        match tx with
        | some x => if x.obj.isNone then ev 0xC c.val 5 noAxis [wd x.tag] (dropSent c x.data s) else s
        | none => s
      else if (128 ≤ tec ∨ 128 ≤ rec_) then
        (if canState s c = 1 then ev 0xC c.val 1 noAxis [wd tec, wd rec_] (putCanState c 2 s) else s)
      else putCanState c 1 s
    canCommits c s

/-- CAN_BUS_ERROR: the counters after it and the error codes (R394). -/
def execCanBusError (c : Fin 2) (tec : BitVec 9) (rec_ : BitVec 8) (lec dlec : Fin 7) (t : Nat) (s : State) :
    Host.Outcome State Fault Refusal :=
  .next (busError c tec.toNat rec_.toNat lec.val dlec.val (atTime t s))

end Sys2Proof.Machine
end

