-- ==== Sys2Proof/Machine/Publish.lean ====
section
/-!
DEFINITION. The content of this device's ring slot (spec 15 R366, R367, Table 15-3): latch records of published axes, published
points, and the header fields, as they stand at a watch boundary.
-/
namespace Sys2Proof.Machine

/-- Change the ring port. -/
def modRing (f : Ring → Ring) (s : State) : State := { s with ring := f s.ring }

/-- A point is published: PUB = 1, on either word of an I64 (R367). -/
def published (s : State) (i : Nat) : Bool :=
  let a := attr s i
  bit a 6 || (fld a 0 3 == 5 && bit (attr s (if i % 2 = 0 then i + 1 else i - 1)) 6)

/-- The published points, ascending. -/
def pubPoints (s : State) : List Nat := (s.attrs.map (·.1)).filter (published s)

/-- The latch record of an axis: a command record carries the position command of its last watch boundary, an actual-position
record the latch of its channel in POS_ACT coordinates (R107; 04 Table 4-4). -/
def latchRec (s : State) (n : Fin 16) (act : Bool) : RingRec :=
  let e := s.env[n]
  let x : Int × Int × Rat × Rat := if act then
      match chanOf s n with
      | some c => let y := s.enc[c].smp[grpOf n]; (y.ts, y.p + ir64 s .home n.val 0x288, y.v, 0)
      | none => (e.t, posAct s n, f32 (ap s n 6), 0)
    else (e.t, e.y, e.vy, e.ay)
  { axis := n, act := act,
    words := [loWord x.1, hiWord x.1, loWord x.2.1, hiWord x.2.1, toF32 1501 x.2.2.1, toF32 1502 x.2.2.2, ap s n 0, 0#32] }

/-- This device's slot: records of the axes of RING_PUBAX, then the published points. Its CRC-32 is formed as the slot goes out. -/
def ownSlot (s : State) : RingSlot :=
  let w := ar s .ring 0 0x10
  { addr := BitVec.ofNat 12 (fld (br s .ring 0) 12 12), valid := true, crc := 0#32,
    alert := mode s == mHalt || (List.range 4).any (grpOff s), mode := BitVec.ofNat 3 (mode s), relay := false, looped := false,
    recs := (allAxes.filter (fun n => bit w n.val)).map (fun n => latchRec s n (bit w (16 + n.val))),
    pts := (pubPoints s).map (pt s) }

/-- The bytes of a slot of some size before its CRC-32: header, record map where there is a record, records, points, zero padding
(R366, Table 15-3). -/
def ringBytes (size : Nat) (x : RingSlot) : List Byte :=
  let hdr := x.addr.toNat + 2 ^ 12 * (x.recs.length % 8) + 2 ^ 15 * b2n x.alert + 2 ^ 16 * (x.pts.length % 64) + 2 ^ 22 * x.mode.toNat +
    2 ^ 26 * b2n x.relay + 2 ^ 27 * b2n x.looped + 2 ^ 31 * b2n x.valid
  let map := (x.recs.mapIdx fun r y => 16 ^ r * y.axis.val + 2 ^ (24 + r) * b2n y.act).foldl (· + ·) 0
  let body := leBytes hdr 4 ++ (if x.recs.isEmpty then [] else leBytes map 4) ++ (x.recs.flatMap (·.words) ++ x.pts).flatMap fun w => leBytes w.toNat 4
  body ++ leBytes 0 (size - 4 - body.length)

/-- The slot with its CRC-32. -/
def slotSum (size : Nat) (x : RingSlot) : RingSlot := { x with crc := crc32 (ringBytes size x) }

/-- Start of the present ring watch (01 R29). -/
def ringWatchOf (s : State) : Nat := s.now / trOf s * trOf s

/-- At a watch boundary the slot takes its content, while the device is on a running ring. The content taken last before the present ring
watch is kept for its frames (04 R107; 01 Table 1-9). -/
def publish (s : State) : State :=
  if s.ring.stage = 4 then
    modRing (fun r => { r with slot := some (ownSlot s), slotAt := s.now, slotOld := if r.slotAt < ringWatchOf s then r.slot else r.slotOld }) s
  else s

end Sys2Proof.Machine
end

