-- ==== Sys2Proof/Machine/Ring.lean ====
section
/-!
DEFINITION. The Onaip ring port (spec 15): ring start, frames and slots, received data, mailboxes, breaks and folding, ship time, and
the commits of the RING block.
-/
namespace Sys2Proof.Machine

/-! ### Views -/

/-- RING_STATUS.MASTER. -/
def isMaster (s : State) : Bool := bit (br s .ring 0) 1
/-- RING_STATUS.UP. -/
def ringUp (s : State) : Bool := bit (br s .ring 0) 0
/-- RING_CFG.EN of the active set. -/
def ringEn (s : State) : Bool := bit (ar s .ring 0 0) 0
/-- RING_STATUS.ADDR. -/
def ownAddr (s : State) : Nat := fld (br s .ring 0) 12 12
/-- Set or clear a bit of RING_STATUS. -/
def ringBit (i : Nat) (v : Bool) (s : State) : State := bwBit s .ring 0 i v
/-- RING_CFG that governs the ring: the master's (R361). -/
def ringCfg (s : State) : Word := if isMaster s then ar s .ring 0 0 else s.ring.mcfg
/-- Bytes of the mailbox area: MBOXB units of 16 bytes (R375). -/
def mboxBytes (s : State) : Nat := fld (ringCfg s) 16 5 * 16
/-- STALE (R368). -/
def staleN (s : State) : Nat := fld (ringCfg s) 24 4
/-- RLOST (R383). -/
def rlostN (s : State) : Nat := fld (ringCfg s) 28 4
/-- Devices on the ring. -/
def ringCount (s : State) : Nat := s.ring.devs.length
/-- BOOT waits for ring start (19 R480, order 6). -/
def ringBoot (s : State) : Bool := mode s == mBoot && s.boot.waitRing && ringEn s

/-! ### BOOT that ends in HALT (19 R481) -/

/-- BOOT ends in HALT: STAGE = failed. -/
def bootHalt (code : BitVec 16) (write : Bool) (s : State) : State :=
  if mode s = mBoot then
    haltEntry code write (bw (modBoot (fun b => { b with waitRing := false, waitSeal := false }) s) .boot 0 (setFld (br s .boot 0) 0 3 6))
  else s

/-- A level-3 fault that ends BOOT in HALT. -/
def bootFail (cls inst num : Nat) (data : List Word) (s : State) : State :=
  bootHalt (mkCode cls inst num) true (raiseDev 3 cls inst num data s)

/-! ### Ring start (R360 to R363, R369, R373) -/

/-- unbroken_min and healed_min in ns (R369): k = 48 or 96. -/
def minTR (k : Nat) (devs : List RingDev) : Nat := (devs.map fun d => k + 4 * d.slot).foldl (· + ·) 2000

/-- The forward delay of a span as its port reads it: the correction of the port at the downstream end is added (R370). -/
def putLink (p : Nat) (delay : Nat) (s : State) : State :=
  if p = 0 then
    let a := if ringUp s then ar s .ring 0 0x14 else ir s .ring 0 0x14
    bw s .ring 0x38 (BitVec.ofInt 32 (delay + a.toInt))
  else bw s .ring 0x3C (wd delay)

/-- A port may train: its start request is granted (R358; 20 R502), or the device only forwards (R360). -/
def canTrain (s : State) : Bool := s.adm.islands.testBit 5 || (!(isMaster s) && !(ringEn s))

/-- A port reaches lock and its span is measured. A master has both, a member its U port at least (Table 15-1). -/
def portLock (p delay : Nat) (s : State) : State :=
  if !(canTrain s) ∨ mode s = mSleep then s
  else
    let s := putLink p delay (ringBit (5 + p) true s)
    let w := br s .ring 0
    if s.ring.stage = 0 ∧ bit w 5 ∧ (bit w 6 ∨ !(isMaster s)) then modRing (fun r => { r with stage := 1 }) s else s

/-- PORT_LOCK: port 0 = U, 1 = D, and the measured delay of its span in ps (R361). -/
def execPortLock (p : Fin 2) (delay t : Nat) (s : State) : Host.Outcome State Fault Refusal := .next (portLock p.val delay (atTime t s))

/-- Ring start fails here: the port forwards only. -/
def startFail (stage : Nat) (s : State) : State :=
  bootFail 0xD 0 1 [wd stage] (modRing (fun r => { r with stage := 5 }) s)

/-- ENUM back at the master: count, each T_R, and both minima (R361, R362). -/
def enumHome (devs : List RingDev) (s : State) : State :=
  let tr := trOf s
  let n := fld (ar s .ring 0 8) 0 13
  let unb := minTR 48 devs
  let heal := minTR 96 devs
  let s := bw (bw (bw s .ring 0x20 (wd devs.length)) .ring 0x40 (wd unb)) .ring 0x44 (wd heal)
  if n ≠ 0 ∧ n ≠ devs.length then startFail 3 s
  else if devs.any (fun d => d.tr != tr) ∨ tr < unb ∨ (devs.any (·.heal) ∧ tr < heal) then startFail 4 s
  else ringBit 4 (decide (tr < heal)) (modRing (fun r => { r with stage := 2, devs := devs }) s)

/-- A member that may not join: forwarding only (R362). -/
def joinRefuse (cause : Nat) (s : State) : State :=
  bootFail 0xD 0 3 [wd cause] (ringBit 9 true (modRing (fun r => { r with stage := 5 }) s))

/-- ENUM: launched by this device or not, the address it carries, and what the devices before appended, the master first (R361 to
R363). -/
def enumMsg (own : Bool) (addr : Nat) (devs : List RingDev) (s : State) : State :=
  if !(ringEn s) then s
  else if isMaster s then
    if !own then
      bootHalt (mkCode 0xD 0 2) true (raiseDev 3 0xD 0 2 [0#32] (if ringBoot s then modRing (fun r => { r with stage := 5 }) s else s))
    else if ringBoot s ∧ s.ring.stage = 1 then enumHome devs s
    else s
  else if ringBoot s ∧ s.ring.stage = 1 ∧ !own then
    if 4095 < addr + 1 then joinRefuse 1 s
    else if (devs.head?.map (·.tr)) ≠ some (trOf s) then joinRefuse 2 s
    else modRing (fun r => { r with stage := 2 }) (bw s .ring 0 (setFld (br s .ring 0) 12 12 (addr + 1)))
  else s

/-- ENUM (R361). -/
def execEnum (own : Bool) (addr : Nat) (devs : List RingDev) (t : Nat) (s : State) : Host.Outcome State Fault Refusal :=
  .next (enumMsg own addr devs (atTime t s))

/-- Instance and offset of RING_SUBk. -/
def subPlace (k : Nat) : Nat × Nat := (1 + k / 64, 4 * (k % 64))
/-- SRC, LBASE and length of an enabled subscription. -/
def subOf (devs : List RingDev) (w : Word) : Option (Nat × Nat × Nat) :=
  if bit w 12 then
    match devs[fld w 0 12]? with
    | some d => some (fld w 0 12, fld w 15 17, d.npts)
    | none => some (fld w 0 12, fld w 15 17, 131073)
  else none

/-- The subscription words with the pending copies of one instance in place of the active ones. -/
def subWord (s : State) (pend : Option Nat) (k : Nat) : Word :=
  let (i, o) := subPlace k
  if pend = some i then ir s .ring i o else ar s .ring i o

/-- A subscription is valid against the layout and the other enabled ones (R373). -/
def subOk (s : State) (pend : Option Nat) (k : Nat) : Bool :=
  match subOf s.ring.devs (subWord s pend k) with
  | none => true
  | some (src, base, n) =>
    decide (8192 ≤ base) && decide (base + n ≤ 131072) &&
    (src == 0 || (List.range n).all fun j => !(bit (attr s (base + j)) 3)) &&
    (List.range 256).all fun j => j == k || (match subOf s.ring.devs (subWord s pend j) with
      | none => true
      | some (_, b, m) => decide (b + m ≤ base ∨ base + n ≤ b))

/-- The check of all subscriptions at ring start: one that fails is disabled (R373). -/
def subsStart (s : State) : State :=
  let bad := (List.range 256).filter fun k => !(subOk s none k)
  forEach bad (fun k s =>
    let (i, o) := subPlace k
    ev 0xD 0 0xC noAxis [wd k] (aw s .ring i o (setBit (ar s .ring i o) 12 false))) s

/-- The first multiple of T_R at or after an instant. -/
def nextMult (tr t : Nat) : Nat := if tr = 0 then t else (t + tr - 1) / tr * tr

/-- CONFIG: layout, the master's WAKE_STEP and delays; a member sets its Chronometer to the master's time plus its forward path
delay (R361, R370). -/
def configMsg (c : RingSetup) (s : State) : State :=
  if !(ringBoot s) ∨ s.ring.stage ≠ 2 then s
  else
    let mst := isMaster s
    let now := if mst then s.now else (c.time * 1000 + c.fwd) / 2000 * 2
    let rw0 := nextMult (trOf s) ((if mst then s.now else c.time) + 1000000)
    let s := modBoot (fun b => { b with t0 := b.t0 + now - s.now }) { s with now := now }
    let s := bw (modRing (fun r => { r with stage := 3, devs := c.devs, mcfg := if mst then r.mcfg else c.cfg, fwd := if mst then 0 else c.fwd, back := if mst then 0 else c.back, step := if mst then fld (ar s .ring 0 0xC) 0 16 else c.step, rw0 := rw0 }) s) .ring 0x20 (wd c.devs.length)
    subsStart s

/-- CONFIG (R361). A member takes it before ship time moves to t. -/
def execConfig (c : RingSetup) (t : Nat) (s : State) : Host.Outcome State Fault Refusal :=
  .next (configMsg c (if isMaster s then atTime t s else s))

/-- Ring watch 0 (R361): UP; a member's timer DPLL is steered from here. -/
def ringZero (t : Nat) (s : State) : State :=
  publish (bwBit (ringBit 0 true (modRing (fun r => { r with stage := 4, cfgAt := t, j := 0, slot := some (ownSlot s), slotAt := 0 }) s)) .chron 0 11 (!(isMaster s)))

/-- Ring start has not completed within RSTART_TMO (R361). -/
def ringStartTimeout (s : State) : State :=
  let ms := fld (ar s .ring 0 0xC) 16 16
  if ringBoot s ∧ s.ring.stage < 4 ∧ ms ≠ 0 ∧ s.boot.t0 + ms * 1000000 ≤ s.now then
    startFail (if s.ring.stage = 0 then 1 else if s.ring.stage = 1 then 2 else 5) s
  else s

/-- RING_START_FAIL (R361). -/
def execRingStartFail (t : Nat) (s : State) : Host.Outcome State Fault Refusal := .next (ringStartTimeout (atTime t s))

/-! ### Commits (R389) -/

/-- First invalid register of a pending RING instance. -/
def ringCheck (s : State) (i : Nat) : Option Nat :=
  if i = 0 then
    let w := ir s .ring 0 0
    let up := ringUp s
    let ch := fun o => up && ir s .ring 0 o != ar s .ring 0 o
    let ax := fld (ir s .ring 0 0x10) 0 16
    let en := bit w 0
    [((up && (w &&& 0x001F1F03#32) != (ar s .ring 0 0 &&& 0x001F1F03#32)) || (en && fld w 8 5 == 0) || decide (16 < fld w 8 5) ||
        decide (16 < fld w 16 5), 0),
     (ch 4 || (en && fld (ir s .ring 0 4) 0 24 == 0), 4), (ch 8, 8),
     (ch 0x10 || decide (6 < ((List.range 16).filter (fun k => ax.testBit k)).length), 0x10), (ch 0x14, 0x14), (ch 0x18, 0x18)].findSome?
      fun x => if x.1 then some x.2 else none
  else if ringUp s then
    (((List.range 64).map (fun k => 64 * (i - 1) + k)).find? (fun k => !(subOk s (some i) k))).map (fun k => 4 * (k % 64))
  else none

/-- Commit of one RING instance. -/
def ringCommit (i : Nat) (s : State) : State :=
  let s := bwBit s .ring 0x10 i false
  match ringCheck s i with
  | some o => ev 0xD 0 0xD noAxis [wd o] s
  | none => copySet .ring i s

/-- The armed instances commit, in ascending order. -/
def ringCommits (s : State) : State := forEach (List.range 5) (fun i s => if bit (br s .ring 0x10) i then ringCommit i s else s) s

/-! ### Mailbox packets (R374, R375) -/

/-- Bytes of a packet in the mailbox area, its CRC included. -/
def mailSize (p : MailPkt) : Nat := 4 * (p.items.length + 1) + 4
/-- Bytes in use. -/
def mailUsed (l : List MailPkt) : Nat := (l.map mailSize).foldl (· + ·) 0

/-- Bytes of a packet before its CRC-32: header item and items (R375, Table 15-6). -/
def mailBytes (p : MailPkt) : List Byte :=
  leBytes (p.dest.toNat + 2 ^ 12 * b2n p.bc + 2 ^ 13 * p.kind.toNat + 2 ^ 16 * (p.items.length % 64)) 4 ++ p.items.flatMap fun w => leBytes w.toNat 4

/-- The near and far ends of the fold: RING_BREAK on the master; on a member the devices that showed LOOP in the ring watch before, and
itself (R378, R379). -/
def loopEnds (s : State) : Option (Nat × Nat) :=
  let w := br s .ring 0
  let b := br s .ring 0x24
  if isMaster s then (if bit b 24 then some (fld b 0 12, fld b 12 12) else none)
  else
    let l := (if bit w 7 ∨ bit w 8 then [ownAddr s] else []) ++ (s.ring.prev.filter (·.looped)).map (fun x => x.addr.toNat)
    match l with
    | [] => none
    | a :: r => some (r.foldl min a, r.foldl max a)

/-- A frame passing this device reaches a destination on the packet's first pass: the forward frame those downstream and the master,
the reverse frame those upstream; on a folded ring each frame the devices of its side and the master. -/
def mailReach (s : State) (back : Bool) (p : MailPkt) : Bool :=
  let a := ownAddr s
  let d := p.dest.toNat
  if bit (br s .ring 0) 2 then
    match loopEnds s with
    | some (near, far) => d == 0 || (if back then decide (far ≤ d) else decide (d ≤ near))
    | none => d == 0
  else if back then decide (d < a) || a == 0
  else decide (a < d) || d == 0

/-- Directions still to take a packet: 1 forward, 2 reverse. -/
def dirBit (back : Bool) : Nat := if back then 2 else 1

/-- Waiting packets go into the mailbox area of a frame: the area, and the packets still waiting. -/
def placeMail (s : State) (back : Bool) (room : Nat) : List (MailPkt × Nat) → List MailPkt × List (MailPkt × Nat)
  | [] => ([], [])
  | (p, d) :: rest =>
    if d &&& dirBit back ≠ 0 ∧ (p.bc ∨ mailReach s back p) ∧ mailSize p ≤ room then
      let (put, keep) := placeMail s back (room - mailSize p) rest
      let d' := if p.bc then d - dirBit back else 0
      (p :: put, if d' = 0 then keep else (p, d') :: keep)
    else
      let (put, keep) := placeMail s back room rest
      (put, (p, d) :: keep)

/-- Place mail in a frame of a direction. A device that filled the area of the last frame of the direction passes this one by. -/
def insertMail (back : Bool) (mail : List MailPkt) (s : State) : List MailPkt × State :=
  let b := dirBit back
  if s.ring.placed &&& b ≠ 0 then (mail, modRing (fun r => { r with placed := r.placed - b }) s)
  else
    let room := mboxBytes s - mailUsed mail
    let (put, keep) := placeMail s back room s.ring.mailOut
    let full := !put.isEmpty && decide (room - mailUsed put < 8)
    (mail ++ put, modRing (fun r => { r with mailOut := keep, placed := if full then r.placed + b else r.placed }) s)

/-- A whole packet of a queue read to its END, where every item of it can be delivered. -/
def popWhole (q : Fin 64) (err : Nat) : Nat → State → Option (List Word × State)
  | 0, _ => none
  | k + 1, s =>
    if (s.queues[q]).nothing then none
    else
      let (r, s) := popItem q err s
      match r with
      | .wait =>
        let s := queRefill q 0 s
        match popItem q 0 s with
        | (.item w side, s) => if side % 2 = 1 then some ([w], s) else (popWhole q 0 k s).map fun x => (w :: x.1, x.2)
        | (.wait, _) => none
      | .item w side => if side % 2 = 1 then some ([w], s) else (popWhole q 0 k s).map fun x => (w :: x.1, x.2)

/-- A packet the ring port refuses (R374). -/
def mailRefuse (w : Word) (s : State) : State := ev 0xD 0 0xB noAxis [w] (bwSat s .ring 0x34 16 16)

/-- The ring port takes the next packet of queue 6 (R374). -/
def mailTake (err : Nat) (s : State) : State :=
  if !(ringUp s) ∨ frozen s 6 then s
  else match popWhole 6 err 257 s with
  | none => s
  | some ([], s) => s
  | some (w :: items, s) =>
    let n := fld w 16 6
    let bc := bit w 12
    let dest := fld w 0 12
    if n ≠ items.length ∨ 1 < fld w 13 3 ∨ (!bc ∧ (ringCount s ≤ dest ∨ dest = ownAddr s)) ∨ mboxBytes s < 4 * (n + 2) then mailRefuse w s
    else
      let p : MailPkt := { src := BitVec.ofNat 12 (ownAddr s), dest := BitVec.ofNat 12 dest, bc := bc, kind := BitVec.ofNat 3 (fld w 13 3), items := items, crc := 0#32 }
      modRing (fun r => { r with mailOut := r.mailOut ++ [({ p with crc := crc32 (mailBytes p) }, 3)] }) s

/-- MAILBOX_PACKET_TAKE: err = what the check bits of the packet's first item show (R374, 14 R351). -/
def execMailboxPacketTake (err : Fin 3) (t : Nat) (s : State) : Host.Outcome State Fault Refusal := .next (mailTake err.val (atTime t s))

/-! ### Frames (R359, R365, R379, R384) -/

/-- Bytes of the slot of the device at an address, as the layout of CONFIG has it (R365). -/
def slotLen (s : State) (a : Nat) : Nat := (s.ring.devs[a]?.map (·.slot)).getD 0

/-- An empty slot position: filled with zeros (R365). -/
def emptySlot (a : Nat) : RingSlot :=
  { addr := BitVec.ofNat 12 a, valid := false, crc := 0#32, alert := false, mode := 0#3, relay := false, looped := false, recs := [], pts := [] }

/-- This device's slot as it goes out in the present ring watch: the content taken at the last watch boundary before it, LOOP while a port
loops, and the CRC-32. -/
def outSlot (s : State) : RingSlot :=
  let w := br s .ring 0
  let x := ((if s.ring.slotAt < ringWatchOf s then s.ring.slot else s.ring.slotOld).getD (ownSlot s))
  slotSum (slotLen s (ownAddr s)) { x with looped := bit w 7 || bit w 8 }

/-- The slots of a launch of a direction: the master's own; on a folded ring those of the side that the frame does not reach, copied from the
previous frames with RELAY set (R379); else zeros. -/
def launchSlots (back : Bool) (s : State) : List RingSlot :=
  (List.range (ringCount s)).map fun a =>
    let b := br s .ring 0x24
    if a = ownAddr s then (if frozen s 6 then emptySlot a else outSlot s)
    else if bit (br s .ring 0) 2 && (if back then decide (a ≤ fld b 0 12) else decide (fld b 12 12 ≤ a)) then
      match s.ring.prev.find? (fun x => x.addr.toNat == a && !x.relay) with
      | some x => slotSum (slotLen s a) { x with relay := true }
      | none => emptySlot a
    else emptySlot a

/-- Bytes 0 to 19 of a frame header (Table 15-2). -/
def headBytes (f : RingFrame) : List Byte :=
  leBytes f.j.toNat 2 ++ leBytes (b2n f.back + 2 * b2n f.fold + 4 * b2n f.unfold + 8 * b2n f.wave) 1 ++ leBytes 0 1 ++ leBytes f.tM 8 ++ leBytes f.tw 8

/-- The frame with the CRC-32 of its header. -/
def headSum (f : RingFrame) : RingFrame := { f with crc := crc32 (headBytes f) }

/-- The header passes its CRC-32 (R368). -/
def headOk (f : RingFrame) : Bool := f.crc == crc32 (headBytes f)

/-- The master launches the two frames of a ring watch (R359). -/
def frameLaunch (t : Nat) (s : State) : State :=
  let w := br s .ring 0
  if !(isMaster s) ∨ s.ring.stage ≠ 4 ∨ mode s = mSleep ∨ trOf s = 0 ∨ t % (max (trOf s) 1) ≠ 0 ∨ (bit w 4 ∧ bit w 2) then s
  else
    let (fm, s) := insertMail false [] s
    let (bm, s) := insertMail true [] s
    let wave := if mode s = mRun then s.ring.wave else none
    let frame := fun (back : Bool) (mail : List MailPkt) => headSum { j := BitVec.ofNat 16 ((t - s.ring.rw0) / trOf s), back := back, fold := bit w 2, unfold := s.ring.unfold, wave := wave.isSome, tM := t, tw := wave.getD 0, crc := 0#32, slots := launchSlots back s, mail := mail }
    modRing (fun r => { r with frame := some (frame false fm), rframe := some (frame true bm), j := (frame false fm).j.toNat, unfoldDue := r.unfoldDue || r.unfold, unfold := false }) s

/-- RING_FRAME_LAUNCH at a ring watch (R359). -/
def execRingFrameLaunch (t : Nat) (s : State) : Host.Outcome State Fault Refusal := .next (frameLaunch t (atTime t s))

/-- The frame that arrives at a port is the first pass that disciplines this device: the forward frame at U, or the reverse frame at D where the
device lies beyond a break (R371). -/
def firstPass (p : Nat) (s : State) (f : RingFrame) : Bool :=
  s.ring.err.isNone && (if f.back then p == 1 && f.fold && !s.ring.hdr else p == 0)

/-- A header that passes its CRC: number, FOLD, UNFOLD, wave mark, the error e of a member in ps, and rejoin after RING_LOST (R371, R383). -/
def frameHeader (p : Nat) (f : RingFrame) (s : State) : State :=
  let mst := isMaster s
  let e : Int := (s.now : Int) * 1000 - ((f.tM : Int) * 1000 + (if f.back then s.ring.back else s.ring.fwd))
  let fp := firstPass p s f
  let s := if mst then s else ringBit 2 f.fold s
  let s := if s.ring.lost && !mst then ringBit 0 true s else s
  modRing (fun r => { r with hdr := true, noHdr := 0, lost := false, j := f.j.toNat, wave := if mst then r.wave else if f.wave then some f.tw else none, unfoldDue := r.unfoldDue || f.unfold, err := if !mst && fp then some e else r.err }) s

/-- A slot is used: good CRC and VALID (R368); a direct one replaces a relayed one. -/
def takeSlot (x : RingSlot) (s : State) : State :=
  if x.addr.toNat = ownAddr s ∨ !x.valid then s
  else if x.crc != crc32 (ringBytes (slotLen s x.addr.toNat) x) then evOnce 0xD0800 0xD 0 8 noAxis [wd x.addr.toNat] (bwSat s .ring 0x30 16 16)
  else match s.ring.rx.find? (fun y => y.addr == x.addr) with
    | some y => if y.relay && !x.relay then modRing (fun r => { r with rx := r.rx.map (fun z => if z.addr == x.addr then x else z) }) s else s
    | none => modRing (fun r => { r with rx := r.rx ++ [x] }) s

/-- The packets of a frame that this device has not met in its direction in this ring watch, taken where they are for it (R375). A packet
that fails its CRC is gone. -/
def takeMail (f : RingFrame) (s : State) : State :=
  let k := ((s.ring.seen.find? (fun x => x.1 == f.back)).map (·.2)).getD 0
  let a := ownAddr s
  let mine := (f.mail.drop k).filter fun p => p.crc == crc32 (mailBytes p) && p.src.toNat != a &&
    (if p.bc then !(a == 0 && f.back && !f.fold) else p.dest.toNat == a)
  modRing (fun r => { r with mailIn := r.mailIn ++ mine }) s

/-- A port declares its span down: the device loops at its other port. Port 0 = U, 1 = D; 2 names a span of another device. -/
def spanDown (p : Nat) (s : State) : State :=
  if p = 0 then ringBit 8 (decide (s.ring.stage = 4)) (ringBit 5 false s)
  else if p = 1 then ringBit 7 (decide (s.ring.stage = 4)) (ringBit 6 false s)
  else s

/-- Frames in a row with a failing header at a port: four declare its span down (R378). -/
def headCount (p : Nat) (ok : Bool) (s : State) : State :=
  let n := if ok then 0 else (if p = 0 then s.ring.badU else s.ring.badD) + 1
  let s := modRing (fun r => { r with badU := if p = 0 then n else r.badU, badD := if p = 0 then r.badD else n }) s
  if n = 4 then spanDown p s else s

/-- The frame goes on out of the device. -/
def sent (f : RingFrame) (s : State) : State :=
  modRing (fun r => { r with frame := if f.back then r.frame else some f, rframe := if f.back then some f else r.rframe }) s

/-- A frame passes: header, slots and mailbox packets read; the own slot written and waiting packets placed, except by the master, at
which the frame ends, and by a device that forwards only, is frozen or has lost the ring (R363 to R368, R375; 02 Table 2-12). -/
def framePass (p : Nat) (f : RingFrame) (s : State) : State :=
  let s := headCount p (headOk f) s
  if mode s = mSleep then s
  else if s.ring.stage ≠ 4 then
    let s := if ringEn s ∧ !(isMaster s) ∧ mode s ≠ mBoot ∧ mode s ≠ mHalt ∧ !(bit (br s .ring 0) 9) then
        raiseDev 3 0xD 0 4 [0#32] (ringBit 9 true (modRing (fun r => { r with stage := 5 }) s)) else s
    sent f s
  else
    let s := if headOk f then takeMail f (forEach f.slots takeSlot (frameHeader p f s)) else s
    if isMaster s then s
    else if frozen s 6 ∨ !(ringUp s) then sent f s
    else
      let own := outSlot s
      let (mail, s) := insertMail f.back f.mail s
      modRing (fun r => { r with seen := (f.back, mail.length) :: r.seen.filter (fun x => x.1 != f.back) }) (sent { f with slots := f.slots.map (fun x => if x.addr == own.addr then own else x), mail := mail } s)

/-- RING_FRAME_PASS: the port at which the frame arrives, 0 = U, 1 = D (R366). -/
def execRingFramePass (p : Fin 2) (f : RingFrame) (t : Nat) (s : State) : Host.Outcome State Fault Refusal := .next (framePass p.val f (atTime t s))

/-! ### The ring-watch boundary (Table 15-8) -/

/-- Order 2: UNFOLD takes effect (R382). -/
def unfoldNow (s : State) : State :=
  if !s.ring.unfoldDue then s
  else
    let near := fld (br s .ring 0x24) 0 12
    let s := ringBit 8 false (ringBit 7 false (ringBit 2 false (modRing (fun r => { r with unfoldDue := false }) s)))
    if isMaster s then ev 0xD 0 6 noAxis [wd near] (bw s .ring 0x24 (br s .ring 0x24 &&& 0x00FFFFFF#32)) else s

/-- Order 3: the point words of one used slot go to the subscriptions of its source (R372). -/
def writeSlot (x : RingSlot) (s : State) : State :=
  let own := decide (x.addr.toNat = 0) && ownerRing s
  forEach (List.range 256) (fun k s =>
    let w := subWord s none k
    if bit w 12 && fld w 0 12 == x.addr.toNat then
      forEach (List.range x.pts.length) (fun j s => let i := (fld w 15 17 + j) % 131072; chartWrite 6 i (x.pts.getD j 0#32) own (ptAddr i, x.addr.toNat, j) s) s
    else s) s

/-- A latch record as gearing uses it (04 Table 4-4). -/
def recOfWords (ws : List Word) : LatchRec :=
  let w := fun i => ws.getD i 0#32
  { t := (w 0).toNat + (w 1).toNat * 2 ^ 32, p := i64Of (w 2) (w 3), v := f32 (w 4), a := f32 (w 5), st := w 6 }

/-- Order 4: the record of axis n's remote master in this ring watch, or a missed ring watch (R372; 04 R106, R108, R109). -/
def handRecord (n : Fin 16) (s : State) : State :=
  let src := ar s .prof n.val 0x80
  if fld src 0 3 ≠ 4 then s
  else
    let slot := if frozen s 6 then none else s.ring.rx.find? (fun x => x.addr.toNat == fld src 8 12)
    match slot.bind (fun x => x.recs.find? (fun r => r.axis.val == fld src 20 4)) with
    | none => modGear n (fun g => { g with missed := g.missed + 1 }) s
    | some r =>
      let l := recOfWords r.words
      let s := modGear n (fun g => { g with recd := some l, missed := 0, stale := false }) s
      if geared s n && (fld l.st 0 4 == 0 || (decide (5 ≤ fld l.st 0 4) && decide (fld l.st 0 4 ≤ 7))) then
        raiseAx 1 5 0x22 n [wd (fld src 8 12), wd (fld src 20 4), l.st] s
      else s

/-- Pairs of index and value of a TYPE 1 packet, written in order as master 6 (R376). -/
def writePairs (own : Bool) (src : Nat) : List Word → State → State
  | i :: v :: rest, s => writePairs own src rest (let k := fld i 0 17; chartWrite 6 k v own (ptAddr k, src, 0) s)
  | _, s => s

/-- Order 5: a packet is delivered (R376, R377). -/
def deliverMail (p : MailPkt) (s : State) : State :=
  if frozen s 6 then s
  else if p.kind = 0#3 then
    pushWhole 7 6 0 (wd (p.src.toNat + 4096 * b2n p.bc + 65536 * (p.items.length % 64)) :: p.items) s
  else if p.kind = 1#3 then writePairs (decide (p.src.toNat = 0) && ownerRing s) p.src.toNat p.items s
  else s

/-- Bit a of a bitmap of points. -/
def mapBit (base a : Nat) (v : Bool) (s : State) : State := setPt s (base + a / 32) (setBit (pt s (base + a / 32)) (a % 32) v)

/-- The stale bit of a device whose slot has been unused for STALE + 1 ring watches (R368). -/
def staleCheck (a : Nat) (s : State) : State :=
  if s.ring.stage = 4 ∧ !(frozen s 6) ∧ a < ringCount s ∧ a ≠ ownAddr s ∧ staleN s < sget (fun _ => 0) s.ring.unused a ∧ !(bit (pt s (4880 + a / 32)) (a % 32)) then
    ev 0xD 0 9 noAxis [wd a] (mapBit 4880 a true s)
  else s

/-- Order 6: the stale and alert bits of one device. -/
def bitmaps (a : Nat) (s : State) : State :=
  if a = ownAddr s then s
  else match s.ring.rx.find? (fun x => x.addr.toNat == a) with
    | some x =>
      let s := modRing (fun r => { r with unused := sset (fun _ => 0) r.unused a 0 }) s
      if frozen s 6 then s else mapBit 5008 a x.alert (mapBit 4880 a false s)
    | none => staleCheck a (modRing (fun r => { r with unused := sset (fun _ => 0) r.unused a (sget (fun _ => 0) r.unused a + 1) }) s)

/-- Axes geared to a remote master. -/
def remoteGeared (s : State) : BitVec 16 := axMask fun n => geared s n && fld (ar s .prof n.val 0x80) 0 3 == 4

/-- TLOCK after 64 consecutive ring watches within 20 ns (R371). -/
def tlockCheck (s : State) : State :=
  if 64 ≤ s.ring.okRun ∧ !(isMaster s) ∧ ringUp s then ringBit 3 true s else s

/-- RING_TIME_ERR after 8 consecutive ring watches above 40 ns while TLOCK stands; TLOCK is then to be set anew (R371). -/
def timeErrCheck (s : State) : State :=
  if 8 ≤ s.ring.badRun ∧ bit (br s .ring 0) 3 then
    let ax := remoteGeared s
    let s := ringBit 3 false (modRing (fun r => { r with okRun := 0, badRun := 0 }) s)
    raise (if ax = 0#16 then 0 else 1) (mkCode 0xD 0 0xA) ax noAxis [br s .ring 0x28] s
  else s

/-- The timer DPLL is steered by an amount that the spec does not give, within ±200 ppm of nominal: CHRON_FREQ is free within that bound (01 R31;
20 R497). -/
def steerDpll (s : State) : State :=
  let (k, s) := takeFresh s
  bw s .chron 0x34 (BitVec.ofInt 32 (iclamp (-20000) 20000 (Config.freeInt k)) &&& 0xFFFF#32)

/-- Order 7: the ship-time correction from the frame just received (R371). A ring watch without a header breaks both runs. -/
def timeCorrect (s : State) : State :=
  match s.ring.err with
  | none => modRing (fun r => { r with okRun := 0, badRun := 0 }) s
  | some e =>
    let m := e.natAbs
    let s := bw (steerDpll s) .ring 0x28 (BitVec.ofInt 32 (sat32 e))
    let lock := bit (br s .ring 0) 3
    timeErrCheck (tlockCheck (modRing (fun r => { r with okRun := if m ≤ 20000 then r.okRun + 1 else 0, badRun := if lock && decide (40000 < m) then r.badRun + 1 else 0 }) s))

/-- RING_LOST: a member without a good header for RLOST + 1 ring watches clears UP and TLOCK and stops inserting; the master logs it
(R383). -/
def lostCheck (s : State) : State :=
  if s.ring.stage = 4 ∧ rlostN s < s.ring.noHdr ∧ !s.ring.lost then
    let s := modRing (fun r => { r with lost := true }) s
    if isMaster s then ev 0xD 0 7 noAxis [wd s.ring.j] s
    else raise 1 (mkCode 0xD 0 7) 0xFFFF#16 noAxis [wd s.ring.j] (ringBit 3 false (ringBit 0 false s))
  else s

/-- A ring watch without a usable header is counted (Table 15-13). -/
def headerCheck (s : State) : State :=
  if s.ring.hdr then s else lostCheck (modRing (fun r => { r with noHdr := r.noHdr + 1 }) (bwSat s .ring 0x30 0 16))

/-- The master finds a break from the slots that show LOOP, itself among them where it loops (R378, R381). -/
def breakCheck (s : State) : State :=
  let w := br s .ring 0
  let mine : List Nat := if bit w 7 ∨ bit w 8 then [0] else []
  let l := mine ++ (s.ring.rx.filter (fun x => x.looped && !x.relay)).map (fun x => x.addr.toNat)
  let l := l.mergeSort (fun a b => decide (a ≤ b))
  if !(isMaster s) ∨ l.isEmpty then s
  else
    let near := if bit w 7 then 0 else (l.filter (fun a => a != 0)).headD 0
    let far := if bit w 8 then 0 else l.getLastD 0
    let old := br s .ring 0x24
    let v := near + 4096 * far + 2 ^ 24
    let second : Bool := bit w 2 && (fld old 0 24 != near + 4096 * far)
    if bit w 2 && !second then s
    else
      let s := bw (ringBit 2 true s) .ring 0x24 (wd (v + 2 ^ 25 * b2n (second || decide (2 < l.length))))
      ev 0xD 0 5 noAxis [wd near, wd far] (bwSat s .ring 0x34 0 16)

/-- One ring-watch boundary (Table 15-8), and the ring-watch trigger after it (06 Table 6-4). -/
def ringBoundary (t : Nat) (s : State) : State :=
  if s.ring.stage ≠ 4 ∨ mode s = mSleep ∨ trOf s = 0 ∨ t % (max (trOf s) 1) ≠ 0 ∨ t ≤ s.ring.cfgAt then s
  else
    let s := modRing (fun r => { r with cfgAt := t }) s
    let s := unfoldNow (ringCommits s)
    let rx := s.ring.rx.mergeSort (fun a b => decide (a.addr.toNat ≤ b.addr.toNat))
    let s := forEach rx writeSlot s
    let s := forEach allAxes handRecord s
    let s := forEach s.ring.mailIn deliverMail s
    let s := forEach (List.range (ringCount s)) bitmaps s
    let s := breakCheck (headerCheck (timeCorrect s))
    let s := modRing (fun r => { r with prev := r.rx, rx := [], hdr := false, err := none, mailIn := [], seen := [] }) s
    forEach allGroups (fun g s => raiseTrig g { src := 3, sel := 0 } s) s

/-- RING_WATCH_BOUNDARY (R386). -/
def execRingWatchBoundary (t : Nat) (s : State) : Host.Outcome State Fault Refusal := .next (ringBoundary t (atTime t s))

/-- RING_STALE of one device (R368). -/
def execRingStale (a : BitVec 12) (t : Nat) (s : State) : Host.Outcome State Fault Refusal := .next (staleCheck a.toNat (atTime t s))

/-- TLOCK (R371). -/
def execTlock (t : Nat) (s : State) : Host.Outcome State Fault Refusal := .next (tlockCheck (atTime t s))

/-- RING_TIME_ERR (R371). -/
def execRingTimeErr (t : Nat) (s : State) : Host.Outcome State Fault Refusal := .next (timeErrCheck (atTime t s))

/-- RING_LOST (R383). -/
def execRingLost (t : Nat) (s : State) : Host.Outcome State Fault Refusal := .next (lostCheck (atTime t s))

/-! ### Spans (R378, R382) -/

/-- SPAN_DOWN (R378). -/
def execSpanDown (p : Fin 3) (t : Nat) (s : State) : Host.Outcome State Fault Refusal := .next (spanDown p.val (atTime t s))

/-- A down span is locked again: its delay is measured anew, and the master, whose own span (0, 1) or another's (2) it is, sends UNFOLD
(R382). -/
def spanRelock (p delay : Nat) (s : State) : State :=
  let s := if p ≤ 1 then putLink p delay (ringBit (5 + p) true s) else s
  if isMaster s ∧ bit (br s .ring 0) 2 then modRing (fun r => { r with unfold := true }) s else s

/-- SPAN_RELOCK (R382). -/
def execSpanRelock (p : Fin 3) (delay t : Nat) (s : State) : Host.Outcome State Fault Refusal := .next (spanRelock p.val delay (atTime t s))

end Sys2Proof.Machine
end

