-- ==== Sys2Proof/Machine/Commit.lean ====
section
/-!
DEFINITION. COMMIT bits (spec 00 R9, R10, Table 0-6): arming an instance and the commits whose point holds at once; and the copies of
bound Chart points into pending registers (13 R329).
-/
namespace Sys2Proof.Machine

/-- Commits whose point an armed instance meets at once: a user queue that is empty, a CAN group between frames or in INIT, the ring while
it is not up. Every other instance waits for its commit point (Table 0-6). -/
def commitNow (b : Blk) (s : State) : State :=
  match b with
  | .que => forEach ((List.finRange 64).drop 16) queCommit s
  | .can0 => canCommits 0 s
  | .can1 => canCommits 1 s
  | .ring => if ringUp s then s else ringCommits s
  | _ => s

/-- The COMMIT bit of an instance of a block is set (R9); one that is set stays as it is (R10). -/
def armCommit (b : Blk) (n : Nat) (s : State) : State :=
  if (b = .que ∨ b = .fio) ∧ 32 ≤ n then bwBit s b 0x14 (n - 32) true
  else if n < 32 ∧ b ≠ .sx then bwBit s b 0x10 n true
  else s

/-- A bound point's value goes into the RWS bits of its register's pending copy (R6, R7): bits of no RWS field, registers without one,
the reserved queues and the DRV block of a ZX-1600M keep theirs. -/
def boundPut (b : Blk) (inst off : Nat) (v : Word) (s : State) : State :=
  if (b = .que ∧ inst < 16) ∨ (b = .prot ∧ (locked s ∨ inst = 0 ∨ inst = 9)) ∨ (b = .drv ∧ !(hasDrive s)) then s
  else match findReg (iAddr b inst off) with
    | some h => if h.active then s else iw s b inst off ((ir s b inst off &&& ~~~ h.row.rws) ||| (v &&& h.row.rws))
    | none => s

/-- What a bound point binds: block, instance and byte offset (13 Table 13-4). -/
def boundTo (i : Nat) (a : Word) : Option (Blk × Nat × Nat) :=
  if fld a 12 5 = 0 then none
  else (blkNum (fld a 12 5 - 1)).map fun b => (b, if fld a 17 5 = 31 then (i - 512) / 256 else fld a 17 5, 4 * fld a 22 7)

/-- Step 2 of Table 1-7 for the points of a watch group: copies in ascending point index, every WRITTEN bit cleared, then the COMMIT bit of
every instance that received a copy is set, and the commits that are due at once are taken (13 R329). -/
def boundCopies (g : Fin 4) (s : State) : State :=
  let w := s.attrs.filter (fun x => bit x.2 writtenBit && ptGroup x.1 == g)
  let s := forEach w (fun x s =>
    let s := match boundTo x.1 x.2 with | some (b, n, o) => boundPut b n o (pt s x.1) s | none => s
    setAttr s x.1 (setBit x.2 writtenBit false)) s
  let l := (w.filterMap fun x => boundTo x.1 x.2).map fun x => (x.1, x.2.1)
  let s := forEach l (fun x s => armCommit x.1 x.2 s) s
  forEach (l.map (·.1)).dedup commitNow s

end Sys2Proof.Machine
end

