-- ==== Sys2Proof/Machine/Watch.lean ====
section
/-!
DEFINITION. The timed rows of a group (spec 01 R22-R28, Tables 1-5 to 1-7): PERIOD_BOUNDARY, PERIOD_CENTRE,
PWM_CENTRE_TRIGGER, WATCH_BOUNDARY, LATE_WATCH and WATCH_TRIGGER.
-/
namespace Sys2Proof.Machine

/-- Steps 3 and 4 of Table 1-7 with the SDM commits, once for each period boundary. -/
def periodPart (g : Fin 4) (t : Nat) (s : State) : State :=
  if isPb s g t && s.pwmG[g].lastPb != some t then
    let s := modPg g (fun p => { p with lastPb := some t }) s
    let s := sdmCommits g (pwmBoundary g t s)
    if g = 0 then stepTabCommits s else s
  else s

/-- Step 1 of Table 1-7 where the boundary is a ring-watch boundary too; a ring watch is taken once (R28). -/
def stepOne (g : Fin 4) (t : Nat) (s : State) : State := if isPb s g t || isDevB s t then ringBoundary t s else s

/-- Steps 1 and 2, then steps 3 and 4, at a period boundary (R28). -/
def periodBoundary (g : Fin 4) (t : Nat) (s : State) : State :=
  let s := stepOne g t s
  periodPart g t (if isWb s g t && s.pwmG[g].lastWb != some t then boundCopies g s else s)

/-- PERIOD_BOUNDARY (R28). -/
def execPeriodBoundary (g : Fin 4) (t : Nat) (s : State) : Host.Outcome State Fault Refusal := .next (periodBoundary g t (atTime t s))

/-- PERIOD_CENTRE of group g at t0: channels sample, the current samples of the period are formed and go out on the sample
path with position, angle or stepper pair, velocity and t0 (Table 1-5; 05 R145; 07 R177; 08 R194; 11 R282). A stopped group has no centre; its modulator bits
still reach the monitor decimators (07 R181). -/
def periodCentre (g : Fin 4) (t : Nat) (raws : List SdRaw) (s : State) : State :=
  let half := gT s g / 2
  if afterPb s g t half then
    let pidx := (t - half - s.pwmG[g].start) / gT s g
    let s := forEach allAxes (encCentre g t) s
    forEach (grpAxes g) (fun n s =>
      let s := sdAxis n raws s
      let (pos, ang, vel) := pathSample s n
      let (s, pos, ang, vel) : State × Int × Word × Word :=
        if stepOn s n then
          let yc := stepYc s.stp[n] t
          let (s, a) := stepEvaluate n t s
          if stepOpen s n then (s, roundFree 503 yc - ir64 s .home n.val 0x288, a, toF32 504 s.stp[n].vy) else (s, pos, a, vel)
        else (s, pos, ang, vel)
      let i := fun (k : Nat) => ir s .sdm n.val (0x240 + 4 * k)
      writeSample n pidx (i 0) (i 1) (i 2) pos ang vel t s) s
  else if gOn s g then s
  else forEach (grpAxes g) (fun n s => sdIdle n raws s) s

/-- PERIOD_CENTRE (R22). -/
def execPeriodCentre (g : Fin 4) (t : Nat) (raws : List SdRaw) (s : State) : Host.Outcome State Fault Refusal :=
  .next (periodCentre g t raws (encTime t s))

/-- PWM_CENTRE_TRIGGER at t0 + 400 ns: TIX carries the period index and the trigger is raised (06 Table 6-4). -/
def pwmCentreTrigger (g : Fin 4) (t : Nat) (s : State) : State :=
  let off := gT s g / 2 + 400
  if afterPb s g t off then
    let pidx := (t - off - s.pwmG[g].start) / gT s g
    raiseTrig g { src := 1, sel := 0 } (modClu g (fun c => { c with tix := setFld c.tix 0 16 pidx }) s)
  else s

/-- PWM_CENTRE_TRIGGER (06 R165). -/
def execPwmCentreTrigger (g : Fin 4) (t : Nat) (s : State) : Host.Outcome State Fault Refusal := .next (pwmCentreTrigger g t (atTime t s))

/-- WATCH_TRIGGER: the group's command sets are on the command path at t, when the profile engine has served the group (R26): TIX carries
the watch index and the trigger is raised, once. -/
def watchTrigger (g : Fin 4) (t : Nat) (s : State) : State :=
  let p := s.pwmG[g]
  match p.lastWb with
  | some w =>
    if gOn s g && p.trigDue && t == p.served && decide (p.start ≤ w) then
      let s := modPg g (fun p => { p with trigDue := false }) s
      raiseTrig g { src := 2, sel := 0 } (modClu g (fun c => { c with tix := setFld c.tix 16 16 (watchIdx s g w) }) s)
    else s
  | none => s

/-- WATCH_TRIGGER (06 R165). -/
def execWatchTrigger (g : Fin 4) (t : Nat) (s : State) : Host.Outcome State Fault Refusal := .next (watchTrigger g t (atTime t s))

/-- The profile engine serves a group for 0.400 µs, behind the groups it has taken before (R26). -/
def serve (g : Fin 4) (t : Nat) (s : State) : State :=
  let free := allGroups.foldl (fun m h => max m s.pwmG[h].served) t
  modPg g (fun p => { p with served := free + 400, trigDue := true }) s

/-- Steps 1 to 7 of Table 1-7 at a watch boundary of a running group. -/
def runningBoundary (g : Fin 4) (t : Nat) (s : State) : State :=
  if isWb s g t && s.pwmG[g].lastWb != some t then
    let s := stepOne g t s
    let s := periodPart g t (boundCopies g s)
    let s := modPg g (fun p => { p with lastWb := some t }) s
    let comm := axMask (fun n => bit (br s .prof 0x10) n.val)
    let s := refsActive g t (watchCommits g s)
    serve g t (profileEngine g t comm s)
  else s

/-- The watch-boundary actions of a stopped group at t, once. -/
def stoppedWork (g : Fin 4) (t : Nat) (s : State) : State :=
  if s.pwmG[g].lastWb != some t then
    let s := sdmCommits g (pwmCommits g (boundCopies g (ringBoundary t s)))
    let s := modPg g (fun p => { p with lastWb := some t }) s
    stoppedAxes g t (watchCommits g s)
  else s

/-- The watch-boundary actions of a stopped group, at the device boundary (R562). -/
def stoppedBoundary (g : Fin 4) (t : Nat) (s : State) : State :=
  if !(gOn s g) && isDevB s t then stoppedWork g t s else s

/-- A watch boundary of a group, running or stopped; boundaries that coincide are served in ascending group number (R26), and the
device's slot takes its content (15 R367). -/
def watchBoundary (g : Fin 4) (t : Nat) (s : State) : State :=
  if gOn s g then
    if isWb s g t then forEach (allGroups.filter fun h => decide (h.val ≤ g.val)) (fun h s => publish (runningBoundary h t s)) s else publish s
  else publish (stoppedBoundary g t s)

/-- WATCH_BOUNDARY (R28). -/
def execWatchBoundary (g : Fin 4) (t : Nat) (s : State) : Host.Outcome State Fault Refusal := .next (watchBoundary g t (atTime t s))

/-- LATE_WATCH: what the boundary's second consecutive miss does (R27); nothing more where the boundary has done it. -/
def execLateWatch (g : Fin 4) (t : Nat) (s : State) : Host.Outcome State Fault Refusal :=
  let s := atTime t s
  .next (if bit (br s .loop 0) (20 + g.val) then s else lateWatchCheck g t s)

end Sys2Proof.Machine
end

