-- ==== Sys2Proof/Machine/Bus.lean ====
section
/-!
DEFINITION. The crossbar (spec 13 R320, 00 R5 to R10, 11 R278 to R280, 08 R209): what a read returns and a write does at every address,
and the rows REGISTER_WRITE, COMMIT_ARM, SNAPSHOT_READ, CHRON_INIT_HI, PROF_CLIPPK_WRITE and the writes of the cluster control registers.
-/
namespace Sys2Proof.Machine

/-! ### Cluster windows (11 Table 11-6) -/

/-- Cluster of an address in a window. -/
def winClu (a : Nat) : Fin 4 := ⟨(a - 0x30000000) / 0x1000000 % 4, Nat.mod_lt _ (by decide)⟩
/-- Offset in a window. -/
def winOff (a : Nat) : Nat := (a - 0x30000000) % 0x1000000

/-- Default of program memory (log entry 3). -/
def progDefault (_ : Nat) : DWord := 0#64

/-- The crossbar reaches program memory (11 R280). -/
def progOpen (s : State) (g : Fin 4) : Bool :=
  let c := s.clu[g]
  (c.state == .idle && !(bit (sr s g 0) 0)) || c.state == .frozen || c.state == .halted

/-- A word of a 64-bit program word. -/
def halfOf (d : DWord) (hi : Bool) : Word := if hi then BitVec.ofNat 32 (d.toNat / 2 ^ 32) else BitVec.ofNat 32 d.toNat
/-- A program word with one half replaced. -/
def putHalf (d : DWord) (hi : Bool) (v : Word) : DWord :=
  if hi then BitVec.ofNat 64 (d.toNat % 2 ^ 32 + v.toNat * 2 ^ 32) else BitVec.ofNat 64 (d.toNat / 2 ^ 32 * 2 ^ 32 + v.toNat)

/-- An access to closed program memory sets XERR (11 R280). -/
def progErr (g : Fin 4) (s : State) : State := sw s g 0x24 (setBit (sr s g 0x24) 0 true)

/-- ST as it reads, its loop bits among it (11 Table 11-4). -/
def stWord (c : Cluster) : Word := c.st

/-- Code of an execution state (11 Table 11-16). -/
def CState.code : CState → Nat
  | .idle => 0
  | .running => 1
  | .frozen => 2
  | .halted => 3

/-- SX_STAT, SX_PC, SX_FRAMEk and SX_XBUF as they read (11 Tables 11-16, 11-17). -/
def sxStat (c : Cluster) : Word :=
  let run : Nat := match c.chain with
    | some x => 16 * trigPrio x.trig + 64 * x.entry
    | none => 0
  wd (c.state.code + 4 * c.frames.length + run)
/-- SX_PC: the idle entry while idle. -/
def sxPc (s : State) (g : Fin 4) : Word := if s.clu[g].state = .idle then sr s g 0x28 &&& 0x1FFF#32 else wd s.clu[g].pc
/-- SX_FRAMEk: frame 0 is the oldest. -/
def sxFrame (c : Cluster) (k : Nat) : Word :=
  match c.frames.reverse[k]? with
  | some f => wd (f.pc % 8192 + 8192 * (f.chain.entry % 8) + 65536 * fld f.st 0 16)
  | none => 0#32
/-- SX_XBUF: posted writes pending, a read outstanding or parked. -/
def sxXbuf (c : Cluster) : Word := wd ((c.posted.filter (·.read.isNone)).length + 8 * b2n (!c.reads.isEmpty))

/-- A write of SX_CTRL (11 R291, R294). In BOOT RUN stays 0 but for the boot loader's own write at its end. -/
def sxCtrl (g : Fin 4) (v : Word) (s : State) : State :=
  let s := sw s g 0 (if mode s = mBoot then 0#32 else v &&& 1#32)
  if bit v 1 ∧ s.clu[g].state = .halted then cluRestart g s else s

/-- A write of SX_PROBE clears SX_PROBEMAX (11 R296). -/
def sxProbe (g : Fin 4) (v : Word) (s : State) : State := sw (sw s g 0x38 (v &&& 0xF#32)) g 0x3C 0#32

/-! ### 64-bit readbacks (08 R209) -/

/-- First offset and words of the records of 64-bit readbacks of a block, of instances or at block level. -/
def snapRecs (b : Blk) (inst : Bool) : List (Nat × Nat) :=
  match b, inst with
  | .chron, false => [(0x20, 2)]
  | .que, false => [(0x20, 2)]
  | .prot, true => [(0x288, 2)]
  | .prof, true => [(0x240, 2), (0x2C4, 2), (0x2CC, 2), (0x2D8, 2)]
  | .enc, true => [(0x284, 3), (0x290, 2), (0x2A8, 2), (0x2B0, 6), (0x2C8, 6)]
  | .step, true => [(0x248, 2)]
  | .home, true => [(0x288, 2), (0x290, 2)]
  | .sx, false => [(0x30, 2)]
  | _, _ => []

/-- A word whose read takes the snapshot of the record: its first _LO word, and those of t_L and t_E of a latch record. -/
def snapLow (b : Blk) (r : Nat × Nat) (o : Nat) : Bool := o == r.1 || (b == .enc && r.2 == 6 && (o == r.1 + 8 || o == r.1 + 16))

/-- The record of a register at offset o: its first offset and length. -/
def snapRec (h : RegHit) (o : Nat) : Option (Nat × Nat) :=
  (snapRecs h.blk h.row.inst.isSome).find? fun r => decide (r.1 ≤ o ∧ o < r.1 + 4 * r.2)

/-! ### Register reads -/

/-- Offset of a register within its block part. -/
def hitOff (h : RegHit) : Nat := h.row.off + h.idx * h.row.stride + (if h.active then 0x200 else 0)

/-- The present word of a register as master m reads it, without side effects. -/
def liveReg (m a : Nat) (h : RegHit) (s : State) : Word :=
  let q : Fin 64 := ⟨h.inst % 64, Nat.mod_lt _ (by decide)⟩
  let g := winClu a
  let c := s.clu[g]
  match h.blk, h.row.inst.isSome, hitOff h with
  | .chron, false, 0x20 => loWord s.now
  | .chron, false, 0x24 => hiWord s.now
  | .que, false, 0x20 => queReady s false
  | .que, false, 0x24 => queReady s true
  | .que, false, 0x30 => queSpillUse s
  | .que, true, 0x240 => queStat s q
  | .que, true, 0x244 => quePkts s q
  | .que, true, 0x344 => wd (sget (fun _ => 0) s.sides (sideKey q m))
  | .can0, false, o => if 0x30 ≤ o ∧ o < 0x40 then txReqRead s 0 ((o - 0x30) / 4) else rd s a
  | .can1, false, o => if 0x30 ≤ o ∧ o < 0x40 then txReqRead s 1 ((o - 0x30) / 4) else rd s a
  | .sx, _, 4 => sxStat c
  | .sx, _, 8 => sxPc s g
  | .sx, _, 0xC => stWord c
  | .sx, _, 0x10 => sxFrame c 0
  | .sx, _, 0x14 => sxFrame c 1
  | .sx, _, 0x18 => sxFrame c 2
  | .sx, _, 0x30 => loWord c.busy
  | .sx, _, 0x34 => hiWord c.busy
  | .sx, _, 0x40 => sxXbuf c
  | _, _, _ => rd s a

/-- The snapshot of the record of n words from a on: every word of it as it stands at the read of a low word. -/
def takeSnap (m a : Nat) (n : Nat) (s : State) : State :=
  let l := (List.range n).map fun k =>
    let b := a + 4 * k
    (b, match findReg b with | some h => liveReg m b h s | none => 0#32)
  { s with snaps := l ++ s.snaps.filter (fun x => !(l.any (fun y => y.1 == x.1))) }

/-- A snapshot of a latch record marks it as read. -/
def markLatch (h : RegHit) (r : Nat × Nat) (s : State) : State :=
  if h.blk = .enc ∧ h.row.inst.isSome then
    let n : Fin 16 := ⟨h.inst % 16, Nat.mod_lt _ (by decide)⟩
    if r.1 = 0x2B0 then setStat n 9 false s else if r.1 = 0x2C8 then setStat n 10 false s else s
  else s

/-- A word of the pending or active copy of a shaping table (05 R146). -/
def tabWord (a : Nat) : Bool := decide (0x60138000 ≤ a ∧ a < 0x6013A000)
/-- A word of the pending copy of a shaping table. -/
def tabPend (a : Nat) : Bool := tabWord a && decide ((a - 0x60138000) % 0x800 < 0x400)

/-- A register read by master m: a low word of a 64-bit readback takes the snapshot, its other words return it. On the ZX-1600M the DRV
block reads 0 (10 R271). -/
def regRead (m a : Nat) (s : State) : Word × State :=
  match findReg a with
  | none => (if tabWord a then rd s a else 0#32, s)
  | some h =>
    if h.blk = .drv ∧ !(hasDrive s) then (0#32, s)
    else match snapRec h (hitOff h) with
    | none => (liveReg m a h s, s)
    | some r =>
      if snapLow h.blk r (hitOff h) then (liveReg m a h s, markLatch h r (takeSnap m (a + r.1 - hitOff h) r.2 s))
      else match s.snaps.find? (fun x => x.1 == a) with
        | some x => (x.2, s)
        | none => (liveReg m a h s, s)

/-! ### Crossbar reads -/

/-- Queue of a QUE instance address, with the offset in the instance. -/
def queOf (a : Nat) : Option (Fin 64 × Nat) :=
  if 0x60051000 ≤ a ∧ a < 0x60060000 then
    if h : (a - 0x60051000) / 0x3C0 < 64 then some (⟨(a - 0x60051000) / 0x3C0, h⟩, (a - 0x60051000) % 0x3C0) else none
  else none

/-- What a granted read of a word returns (13 Table 13-1); err = what the check bits of a memory word or queue item show. -/
def readAt (m a err : Nat) (s : State) : PopRes × State :=
  let plain := fun (x : Word × State) => (PopRes.item x.1 0, x.2)
  if 0x20000000 ≤ a ∧ a < 0x20080000 then plain (chartRead m ((a - 0x20000000) / 4) err s)
  else if 0x20080000 ≤ a ∧ a < 0x20100000 then
    let (ok, s) := eccRead a m err s
    plain (if ok then attr s ((a - 0x20080000) / 4) else 0#32, s)
  else if a < 0x20000000 ∨ (0x40000000 ≤ a ∧ a < 0x42000000) then
    let (ok, s) := eccRead a m err s
    plain (if ok then readWord s a else 0#32, s)
  else if 0x30000000 ≤ a ∧ a < 0x34000000 then
    let g := winClu a
    let o := winOff a
    if o < 0x10000 then
      if progOpen s g then plain (halfOf (sget progDefault s.clu[g].prog (o / 8)) (decide (o % 8 = 4)), s) else plain (0#32, progErr g s)
    else if 0x100000 ≤ o ∧ o < 0x110000 then plain (getX s g ((o - 0x100000) / 4), s)
    else if 0x200000 ≤ o ∧ o < 0x210000 then plain (sget xyDefault s.clu[g].y ((o - 0x200000) / 4), s)
    else plain (regRead m a s)
  else match queOf a with
    | some (q, 0x340) => popItem q err s
    | _ => plain (regRead m a s)

/-- Queue that an access serves, for the dump of a frozen master (23 R553). -/
def xferOf (a : Nat) : Nat × Nat × Nat := match queOf a with | some (q, _) => (a, q.val, 0) | none => noXfer a

/-- A crossbar read by master m: the result, or a wait of a stalled queue read. A read that is not performed returns 0. -/
def busRead (m a err : Nat) (s : State) : PopRes × State :=
  let (ok, s) := access m kRead a false (xferOf a) s
  if ok then readAt m a err s else (.item 0#32 0, s)

/-! ### Register writes (00 R7 to R10) -/

/-- A write by access type: RW and pending RWS bits are replaced, W1C bits cleared, W1S bits set; others keep. -/
def plainWrite (a : Nat) (h : RegHit) (v : Word) (s : State) : State :=
  let r := h.row
  let old := rd s a
  let repl := r.rw ||| r.rws
  wr s a (((old &&& ~~~ repl) ||| (v &&& repl)) &&& ~~~ (v &&& r.w1c) ||| (v &&& r.w1s))

/-- A write of CHRON_INIT_HI: ship time in BOOT before the first PWM commit, on a device that is no ring member, by the
RING_CFG in use or, before its commit in BOOT, the one loaded (20 R498). -/
def chronInit (v : Word) (s : State) : State :=
  let s := bw s .chron 0x2C v
  if bit (br s .chron 0) 10 ∨ mode s ≠ mBoot then ev 1 0 4 noAxis [1#32] s
  else if (ringEn s ∨ bit (ir s .ring 0 0) 0) ∧ !(isMaster s) then ev 1 0 4 noAxis [2#32] s
  else
    let x := (br s .chron 0x28).toNat + v.toNat * 2 ^ 32
    let now : Nat := x / 2 * 2
    modBoot (fun b => { b with t0 := b.t0 + now - s.now }) { s with now := now }

/-- A write of CHRON_TRIM: held at the nearer limit, ignored on a ring member (20 Table 20-16). The steering in use follows. -/
def chronTrim (v : Word) (s : State) : State :=
  let x := iclamp (-20000) 20000 (sext 16 (fld v 0 16))
  let s := bw s .chron 0x30 (BitVec.ofInt 32 x &&& 0xFFFF#32)
  if ringEn s ∧ !(isMaster s) then s
  else bw (bwBit s .chron 0 12 (decide (x ≠ 0))) .chron 0x34 (BitVec.ofInt 32 x &&& 0xFFFF#32)

/-- A write of a COMMIT register: bits that are clear are set (R9, R10), and what is due at once is taken. -/
def commitWrite (a : Nat) (h : RegHit) (v : Word) (s : State) : State :=
  if h.blk = .prot ∧ locked s then s
  else
    let old := rd s a
    let v := v &&& h.row.w1s &&& ~~~ old
    if v = 0#32 then s else commitNow h.blk (wr s a (old ||| v))

/-- Is the register a COMMIT register? -/
def isCommit (h : RegHit) : Bool :=
  h.row.inst.isNone && h.blk != .sx && (h.row.off == 0x10 || (h.row.off == 0x14 && (h.blk == .que || h.blk == .fio)))

/-- A register write by master m (R7): the registers with a behaviour of their own, else by access type. On the ZX-1600M the DRV block
ignores writes (10 R271). -/
def regWrite (m a : Nat) (v : Word) (s : State) : State :=
  match findReg a with
  | none => if tabPend a then wr s a v else s
  | some h =>
    let n : Fin 16 := ⟨h.inst % 16, Nat.mod_lt _ (by decide)⟩
    let q : Fin 64 := ⟨h.inst % 64, Nat.mod_lt _ (by decide)⟩
    if h.active ∨ (h.blk = .drv ∧ !(hasDrive s)) then s
    else if isCommit h then commitWrite a h v s
    else match h.blk, h.row.inst.isSome, hitOff h with
      | .pmu, false, 0x20 => bw s .pmu 0x20 (v &&& 0xFFFF#32)
      | .chron, false, 0x2C => chronInit v s
      | .chron, false, 0x30 => chronTrim v s
      | .prot, false, 0x14 => protLock v s
      | .prot, true, _ => if locked s ∨ h.inst = 0 ∨ h.inst = 9 then s else plainWrite a h v s
      | .que, true, o =>
        if 0x300 ≤ o ∧ o < 0x340 then pushItem q m ((o - 0x300) / 8) (decide ((o - 0x300) / 4 % 2 = 1)) v s
        else if q.val < 16 then s
        else plainWrite a h v s
      | .loop, false, 0x28 => swTrig v s
      | .loop, false, 0x40 => loadClr v s
      | .enc, false, 0x18 => swLatch v s
      | .enc, false, 0x1C => encArm v s
      | .enc, false, o =>
        let s := plainWrite a h v s
        if 0x40 ≤ o ∧ o < 0x60 then cmpPinSet ⟨(o - 0x40) / 4 % 8, Nat.mod_lt _ (by decide)⟩ s else s
      | .pwm, false, 0x18 => tripClrWrite v s
      | .pwm, true, 0x100 => forceWrite n v s
      | .drv, false, 0x18 => dsClr v s
      | .drv, false, 0x20 => drvRbWrite v s
      | .fio, false, 0x30 => fioForce v s
      | .can0, false, 8 => canCtrl 0 v s
      | .can1, false, 8 => canCtrl 1 v s
      | .can0, false, o => if 0x30 ≤ o ∧ o < 0x40 then txReq 0 ((o - 0x30) / 4) v s else plainWrite a h v s
      | .can1, false, o => if 0x30 ≤ o ∧ o < 0x40 then txReq 1 ((o - 0x30) / 4) v s else plainWrite a h v s
      | .sx, _, 0 => sxCtrl (winClu a) v s
      | .sx, _, 0x38 => sxProbe (winClu a) v s
      | _, _, _ => plainWrite a h v s

/-! ### Crossbar writes -/

/-- What a granted write of a word does outside the Chart values. -/
def writeAt (m a : Nat) (v : Word) (s : State) : State :=
  if a < 0x80000 then s
  else if 0x20080000 ≤ a ∧ a < 0x20100000 then
    let i := (a - 0x20080000) / 4
    setBad a 0 (setAttr s i ((v &&& 0x1FFFFF7F#32) ||| (attr s i &&& 0x20000000#32)))
  else if a < 0x20000000 ∨ (0x40000000 ≤ a ∧ a < 0x42000000) then setBad a 0 (writeWord s a v)
  else if 0x30000000 ≤ a ∧ a < 0x34000000 then
    let g := winClu a
    let o := winOff a
    if o < 0x10000 then
      if progOpen s g then modClu g (fun c => { c with prog := sset progDefault c.prog (o / 8) (putHalf (sget progDefault c.prog (o / 8)) (decide (o % 8 = 4)) v) }) s
      else progErr g s
    else if 0x100000 ≤ o ∧ o < 0x110000 then putX g ((o - 0x100000) / 4) v s
    else if 0x200000 ≤ o ∧ o < 0x210000 then modClu g (fun c => { c with y := sset xyDefault c.y ((o - 0x200000) / 4) v }) s
    else regWrite m a v s
  else regWrite m a v s

/-- A crossbar write by master m; own = it comes from the command owner (02 R42). Its queue side bits, if any, are those of the address
(14 R346). -/
def busWrite (m a : Nat) (v : Word) (own : Bool) (s : State) : State :=
  if 0x20000000 ≤ a ∧ a < 0x20080000 then chartWrite m ((a - 0x20000000) / 4) v own (noXfer a) s
  else
    let (ok, s) := access m kWrite a false (xferOf a) s
    if ok then writeAt m a v s else s

/-! ### Rows -/

/-- REGISTER_WRITE: a write of the word at 4w by a master (R7). -/
def execRegisterWrite (m : Fin 10) (a : BitVec 30) (v : Word) (t : Nat) (s : State) : Host.Outcome State Fault Refusal :=
  .next (busWrite m.val (4 * a.toNat) v false (encTime t s))

/-- COMMIT_ARM: a write of a COMMIT register (R9); at another address nothing is armed. -/
def execCommitArm (m : Fin 10) (a : BitVec 30) (v : Word) (t : Nat) (s : State) : Host.Outcome State Fault Refusal :=
  let s := encTime t s
  .next (match findReg (4 * a.toNat) with
    | some h => if isCommit h then busWrite m.val (4 * a.toNat) v false s else s
    | none => s)

/-- SNAPSHOT_READ: a master reads the word at 4w; the low word of a 64-bit readback takes the snapshot of its record (R209). A read
of a POP port waits where nothing can be read (14 R348). -/
def execSnapshotRead (m : Fin 10) (a : BitVec 30) (t : Nat) (s : State) : Host.Outcome State Fault Refusal :=
  let ad := 4 * a.toNat
  let s := encTime t s
  if frozen s m.val then .next s
  else
    let (r, s) := busRead m.val ad 0 s
    .next (match r, queOf ad with
      | .item w side, some (q, 0x340) => popDone m q w side s
      | .item w _, _ => putData m w s
      | .wait, some (q, _) => { s with stalls := s.stalls ++ [{ master := m.val, queue := q.val }] }
      | .wait, none => s)

/-- CHRON_INIT_HI: a master writes CHRON_INIT_HI (20 R498). -/
def execChronInitHi (m : Fin 10) (v : Word) (t : Nat) (s : State) : Host.Outcome State Fault Refusal :=
  .next (busWrite m.val (bAddr .chron 0x2C) v false (atTime t s))

/-- PROF_CLIPPK_WRITE: a master writes PROF_CLIPPK of an axis (04 R119). -/
def execProfClippkWrite (m : Fin 10) (n : Fin 16) (v : Word) (t : Nat) (s : State) : Host.Outcome State Fault Refusal :=
  .next (busWrite m.val (iAddr .prof n.val 0x2E4) v false (atTime t s))

/-- SX_RUN: a master writes SX_CTRL with RESTART 0 (11 R291). -/
def execSxRun (m : Fin 10) (g : Fin 4) (v : Word) (t : Nat) (s : State) : Host.Outcome State Fault Refusal :=
  .next (busWrite m.val (sxAddr g.val 0) (setBit v 1 false) false (atTime t s))

/-- SX_RESTART: a master writes SX_CTRL with RESTART 1 (11 R294). -/
def execSxRestart (m : Fin 10) (g : Fin 4) (v : Word) (t : Nat) (s : State) : Host.Outcome State Fault Refusal :=
  .next (busWrite m.val (sxAddr g.val 0) (setBit v 1 true) false (atTime t s))

/-- SX_PROBE_WRITE: a master writes SX_PROBE (11 R296). -/
def execSxProbeWrite (m : Fin 10) (g : Fin 4) (v : Word) (t : Nat) (s : State) : Host.Outcome State Fault Refusal :=
  .next (busWrite m.val (sxAddr g.val 0x38) v false (atTime t s))

end Sys2Proof.Machine
end

