-- ==== Sys2Proof/Machine/Boot.lean ====
section
/-!
DEFINITION. Reset and BOOT (spec 19, 13 R327, R338, 02 R37, R38): the state that a reset leaves, discovery, slot choice and fallback, the
image records, the checks of Table 19-4, the commits in the order of R480, and the end of BOOT; with the rows RESETN_RELEASE,
FLASH_NO_RESPONSE, SEAL_IN_FORCE, the records, END and RING_WATCH_ZERO.
-/
namespace Sys2Proof.Machine

/-! ### What a reset leaves -/

/-- Registers whose words a reset does not change: SYS_ID, PMU_RESETCAUSE, PMU_TMOCNT, the fuses (00 R3; 20 Table 20-11, R494; 19 R476),
and after a SLEEP the Logbook's counts (13 R338). -/
def keptRegs (warm : Bool) : List Nat :=
  [bAddr .sys 0, bAddr .pmu 0x30, bAddr .pmu 0x3C, bAddr .boot 0x60] ++ (List.range 8).map (fun w => bAddr .boot (0x70 + 4 * w)) ++
    if warm then [bAddr .log 0x20, bAddr .log 0x24] else []

/-- Copy the words of some registers from one state to another. -/
def keepRegs (l : List Nat) (old s : State) : State := forEach l (fun a s => wr s a (rd old a)) s

/-- An erase of the next postmortem sector is still due: an erase or a record write was under way (19 R486). -/
def eraseLeft (s : State) : List FlashJob := if s.boot.jobs.any (fun j => decide (j.rank < 3)) then [.erase] else []

/-- The state that a reset leaves: everything at its reset value but the always-on domain, fuses, flash records, what stands outside
the block, and after a wake from SLEEP the Chart's user values and eDRAM (13 R338; 20 Table 20-3). -/
def resetState (warm : Bool) (s : State) : State :=
  let r := State.reset
  let r := { r with fresh := s.fresh, pending := s.pending, pins := s.pins, pwr := { s.pwr with sleepFrom := none, wakeStep := none, warm := warm, sealed := false }, boot := { r.boot with pms := s.boot.pms, jobs := eraseLeft s, wasHomed := s.boot.wasHomed ||| axMask (fun n => s.homing[n].homed) }, safe := { r.safe with record := s.safe.record, recCrc := s.safe.recCrc } }
  let r := keepRegs (keptRegs warm) s r
  let r := if warm then { r with mem := s.mem.filter (fun c => decide (0x40000000 ≤ c.1)), bad := s.bad.filter (fun c => decide (0x20000000 + 4 * 8192 ≤ c.1)), pts := r.pts ++ s.pts.filter (fun p => decide (8192 ≤ p.1)) } else r
  let r := if warm then setPt (setPt r 64 (br s .log 0x20)) 65 (br s .log 0x24) else r
  bw r .safe 0 (setFld (br r .safe 0) 0 4 15)

/-- BOOT held in reset: STAGE = reset. -/
def inReset (s : State) : Bool := fld (br s .boot 0) 0 3 == 0

/-! ### Attribute words of the fixed points (13 Table 13-5, R327) -/

/-- Attribute word of a point that the Helm writes: WR = 1, OWNER = 0. -/
def hAttr (ty : Nat) : Word := wd (ty + 0x10)
/-- Attribute word of a command point. -/
def cAttr (ty : Nat) : Word := wd (ty + 8 + 0xF00)
/-- Attribute word of a command point bound to a register of the axis: block and byte offset. -/
def bAttr (ty b off : Nat) : Word := wd (ty + 8 + 0xF00 + (b + 1) * 2 ^ 12 + 31 * 2 ^ 17 + off / 4 * 2 ^ 22)
/-- Attribute word of a point that refuses every write. -/
def nAttr (ty : Nat) : Word := wd (ty + 0x30 + 0xF00)
/-- The same attribute word for points lo to hi. -/
def span (lo hi : Nat) (a : Word) : List (Nat × Word) := (List.range (hi + 1 - lo)).map fun k => (lo + k, a)

/-- Device points 0-127 (Table 13-5; 07 R186; 20 R509; 23 R556, Table 23-3). -/
def devAttrs : List (Nat × Word) :=
  [(0, hAttr 1), (1, cAttr 1), (2, hAttr 4), (3, hAttr 1), (4, hAttr 5), (5, hAttr 5)] ++ span 6 15 (hAttr 1) ++ span 16 39 (hAttr 2) ++
  span 40 46 (hAttr 1) ++ [(47, hAttr 0), (64, hAttr 1), (65, hAttr 1), (66, 0xF01#32), (67, 0xF01#32)] ++ span 68 70 (hAttr 1) ++
  span 72 110 (hAttr 1) ++ span 112 127 (hAttr 1)

/-- The offsets of an axis band (Tables 3-22, 4-7, 6-2). -/
def axAttrs (n : Nat) : List (Nat × Word) :=
  let l := [(0, hAttr 1), (1, cAttr 1), (2, nAttr 5), (3, nAttr 5), (4, hAttr 5), (5, hAttr 5), (6, nAttr 2), (7, hAttr 2), (8, nAttr 0), (9, nAttr 0),
      (10, cAttr 2), (16, cAttr 1), (17, hAttr 1), (18, cAttr 5), (19, cAttr 5)] ++ span 20 24 (cAttr 2) ++ [(25, cAttr 1), (26, hAttr 1)] ++
    ((List.range 16).map fun k => (32 + k, bAttr 2 7 (8 + 4 * k))) ++
    [(48, bAttr 1 6 0x80), (49, bAttr 0 6 0x84), (50, bAttr 1 6 0x88), (51, bAttr 1 6 0x8C), (52, bAttr 5 6 0x90), (53, bAttr 5 6 0x94),
      (54, bAttr 5 6 0x98), (55, bAttr 5 6 0x9C)] ++ span 56 59 (cAttr 5) ++ [(60, hAttr 5), (61, hAttr 5), (62, cAttr 1), (63, hAttr 1),
      (64, bAttr 5 6 0xB0), (65, bAttr 5 6 0xB4), (66, bAttr 2 6 0xB8), (67, bAttr 1 6 0xBC), (68, bAttr 2 6 0xA0), (69, bAttr 2 6 0xA4),
      (70, bAttr 2 6 0xA8), (71, bAttr 1 6 0xAC), (72, hAttr 5), (73, hAttr 5), (74, hAttr 1)]
  l.map fun x => (512 + 256 * n + x.1, x.2)

/-- The interface bands: CAN (Table 16-6), ring (Table 15-11), safety (Table 18-11), field I/O (Table 17-8). -/
def busAttrs : List (Nat × Word) :=
  ((List.range 2).flatMap fun c => span (4608 + 128 * c) (4612 + 128 * c) (hAttr 1) ++ [(4613 + 128 * c, cAttr 1)]) ++
  span 4864 4866 (hAttr 1) ++ [(4867, hAttr 0), (4868, hAttr 1), (4869, hAttr 1)] ++ span 4880 5135 0x614#32 ++
  [(5888, hAttr 1), (5889, hAttr 4), (5890, cAttr 1), (5891, cAttr 1), (5892, cAttr 1), (5893, hAttr 1), (5894, hAttr 1)] ++ span 5896 6023 (hAttr 1) ++
  [(6144, nAttr 4), (6145, nAttr 4), (6146, cAttr 4), (6147, hAttr 4), (6148, hAttr 4), (6149, hAttr 1), (6150, hAttr 2)]

/-- The fixed points with their attribute words, ascending. -/
def fixedAttrs : List (Nat × Word) := devAttrs ++ (List.range 16).flatMap axAttrs ++ busAttrs

/-- The boot loader writes the attribute words of the fixed points; every other point is reserved until the image names it. -/
def writeFixed (s : State) : State := forEach fixedAttrs.reverse (fun x s => setAttr s x.1 x.2) s

/-! ### Discovery (R468 to R470, R477, R479) -/

/-- Slot size S of a flash of 2^k bytes (R469). -/
def slotSize (k : Nat) : Nat := (2 ^ k - 65536) / 131072 * 65536

/-- What the headers alone say of a slot (R474): 0, or the reason. -/
def hdrReason (s : State) (h : Option SlotHdr) : Nat :=
  match h with
  | none => 1
  | some h =>
    if (br s .boot 0x24).toNat < h.len.toNat ∨ h.len.toNat < 0x48 then 4
    else if h.pkg.toNat ≠ fld (br s .sys 0) 24 8 then 5 else 0

/-- STAGE of BOOT_STATUS. -/
def stage (k : Nat) (s : State) : State := bw s .boot 0 (setFld (br s .boot 0) 0 3 k)
/-- STAGE as it reads. -/
def stageOf (s : State) : Nat := fld (br s .boot 0) 0 3

/-- PKG and DRV_LTR agree (00 R4). -/
def idAgrees (w : Word) : Bool := (fld w 24 8 == 4 && decide (fld w 3 3 ≤ 6)) || (fld w 24 8 == 0 && fld w 3 3 == 7)

/-- Start requests of BOOT time 0 (20 Table 20-4). -/
def bootRequests (s : State) : State :=
  let s := forEach (List.range 4) (fun g s => admRequest (1 + g) 100 200000 50000000 s) s
  let s := admRequest 6 300 1000000 50000000 s
  if hasDrive s then admRequest 7 400 1000000 50000000 s else s

/-- HOMED_LOST with cause 0 of every axis whose HOMED the reset cleared (05 R140), as the Helm starts. -/
def resetUnhomed (s : State) : State :=
  let was := s.boot.wasHomed
  forEach allAxes (fun n s => if was.getLsbD n.val then ev 5 n.val 0x49 n.val [0#32] s else s) (modBoot (fun b => { b with wasHomed := 0#16 }) s)

/-- BOOT time 0: straps, clocks, flash size, slots, records in flash, and the start requests; R4 and the ROM CRC end BOOT in HALT
(R479, R481). -/
def startBoot (v : BootView) (s : State) : State :=
  let warm := mode s == mSleep
  let cause : Word := if warm then wd s.pwr.woken else 16#32
  let s := resetState warm s
  let s := { s with pins := { s.pins with ringMaster := v.ringMaster, tapHold := false }, pwr := { s.pwr with resetLow := false, woken := 0, fails := 0 } }
  let s := modHelm (fun h => { h with build := v.build }) (modBoot (fun b => { b with view := some v }) s)
  let s := ringBit 1 v.ringMaster (bw (bw s .pmu 0x38 cause) .chron 0 0x3FF#32)
  let s := bw (bw s .boot 0x20 (wd (v.size + 32 * b2n (decide (24 < v.size)) + 256 * 16))) .boot 0x24 (wd (slotSize v.size))
  let gen := fun (bs : List Byte) => match readHdr bs with | some h => h.gen | none => 0#32
  let s := bw (bw s .boot 0x2C (gen v.slotA)) .boot 0x30 (gen v.slotB)
  let ra := hdrReason s (readHdr v.slotA)
  let rb := hdrReason s (readHdr v.slotB)
  let s := putValid 1 (rb == 0) rb (putValid 0 (ra == 0) ra s)
  let s := bw s .boot 0x38 (match s.boot.pms with | p :: _ => wd p.1 | [] => 0#32)
  let s := bw s .boot 0x3C (match s.safe.record with | some r => wd r.1 | none => 0#32)
  let s := resetUnhomed (bootRequests (busyUpd (writeFixed (stage 1 s))))
  if !(idAgrees (br s .sys 0)) then bootFail 0 0 8 [br s .sys 0] s
  else if !v.romOk then bootFail 0 0 6 [] s
  else s

/-- RESETN may be released: rails up, TESTEN low, VSUP in range, and the device in reset, or woken with SLEEP entered and its step of
the stagger run (20 R491, R493, R501; 21 R525; 15 R385). -/
def mayRelease (s : State) : Bool :=
  s.pwr.up && !s.pwr.dead && !s.pwr.ovp && !s.pins.testen &&
    (inReset s || (mode s == mSleep && s.pwr.woken != 0 && s.pwr.sleepFrom.isNone && s.pwr.wakeStep.isNone))

/-- The TAP holds EXTEST, CLAMP or HIGHZ (21 R529). -/
def tapDrives (s : State) : Bool := s.pins.ir == 0 || s.pins.ir == 3 || s.pins.ir == 4

/-- RESETN_RELEASE with what the boot loader finds; under EXTEST, CLAMP or HIGHZ the controller keeps RESETN low (21 R529). -/
def execResetnRelease (v : BootView) (s : State) : Host.Outcome State Fault Refusal :=
  .next (if mayRelease s then
      if tapDrives s then modBoot (fun b => { b with view := some v }) { s with pins := { s.pins with tapHold := true } }
      else startBoot v s
    else s)

/-- FLASH_NO_RESPONSE: stage 1 = SFDP, 2 = suspend missing; HALT with no postmortem record (R468). -/
def execFlashNoResponse (st : Fin 3) (t : Nat) (s : State) : Host.Outcome State Fault Refusal :=
  let s := atTime t s
  .next (if mode s = mBoot ∧ stageOf s = 1 ∧ st ≠ 0 then bootHalt (mkCode 2 0 4) false (raiseDev 3 2 0 4 [wd st.val] s) else s)

/-! ### Slots (R474, R477, R478) -/

/-- Header of a slot: 0 = A, 1 = B. -/
def slotHdr (s : State) (slot : Nat) : Option SlotHdr :=
  match s.boot.view with
  | some v => readHdr (if slot = 0 then v.slotA else v.slotB)
  | none => none

/-- The preferred slot: a valid header with the higher GEN, A on a tie. -/
def preferred (s : State) : Option Nat :=
  match slotHdr s 0, slotHdr s 1 with
  | some a, some b => some (if a.gen.toNat < b.gen.toNat then 1 else 0)
  | some _, none => some 0
  | none, some _ => some 1
  | none, none => none

/-- ACTIVE. -/
def activeSlot (s : State) : Nat := b2n (bit (br s .boot 0) 3)

/-- Loading of a slot starts at the QDIV and MODE of its header; QDIV = 0 keeps 25 MHz in 1-1-1, which is divider 16 (R467, R468,
R489). -/
def loadSlot (slot : Nat) (h : SlotHdr) (s : State) : State :=
  let s := bwBit (stage 2 s) .boot 0 3 (slot == 1)
  let w := br s .boot 0x20
  let keep := h.qdiv == 0#8
  let s := bw s .boot 0x20 (setFld (setFld w 6 2 (if keep then 0 else fld (wd h.mode.toNat) 0 2)) 8 5 (if keep then 16 else fld (wd h.qdiv.toNat) 0 5))
  modBoot (fun b => { b with recs := [], image := [], patch := 0, patchRam := [], sign := none, key := none, block := [], cans := 0, brass := [] }) s

/-- The reload reset (R477): core-die blocks but the PMU, the Chronometer, the safety island and the boot loader; cluster memories, the
Chart, and the user areas of shared SRAM and eDRAM. The two dies stay powered and trained; the Logbook's queues go on. -/
def reloadReset (s : State) : State :=
  let r := State.reset
  let keep := fun (a : Nat) => match blkOf a with
    | some .pmu => true | some .chron => true | some .boot => true | some .safe => true | some .log => true
    | _ => false
  let word0 := pt s 0
  let n := { r with now := s.now, fresh := s.fresh, pending := s.pending, helm := s.helm, queues := Vector.ofFn fun q => if q.val < 3 then s.queues[q] else r.queues[q], q0pend := s.q0pend, drv := s.drv, fio := s.fio, safe := s.safe, boot := s.boot, adm := s.adm, pwr := s.pwr, pins := s.pins, pinsLow := s.pinsLow, regs := s.regs.filter (fun x => keep x.1), mem := s.mem.filter (fun c => decide (c.1 < 0x10040000 ∨ (0x40000000 ≤ c.1 ∧ c.1 < 0x40800000))), bad := s.bad.filter (fun c => decide (c.1 < 0x10040000 ∨ (0x40000000 ≤ c.1 ∧ c.1 < 0x40800000))) }
  let n := keepRegs [bAddr .sys 0, bAddr .drv 0, bAddr .fio 0] s n
  let n := ringBit 1 s.pins.ringMaster n
  sumUpd (setPt (setPt (setPt (writeFixed n) 0 word0) 2 (pt s 2)) 3 (pt s 3))

/-- Reasons of A and B as BOOT_SLOTST shows them. -/
def slotReason (s : State) (slot : Nat) : Nat := fld (br s .boot 0x28) (8 * slot + 4) 4

/-- The chosen slot, or the other one, proves invalid: the other is loaded after a reload reset, unless it is invalid too (R477, R478). -/
def slotFail (reason ofs : Nat) (s : State) : State :=
  let slot := activeSlot s
  let s := ev 2 slot 1 noAxis [wd slot, wd reason, wd ofs] (putValid slot false reason s)
  let other := 1 - slot
  let s := modBoot (fun b => { b with bad := b.bad ||| (1 <<< slot) }) s
  let rsn := hdrReason s (slotHdr s other)
  let lost := fun (s : State) => bootFail 2 0 3 [wd (slotReason s 0), wd (slotReason s 1)] s
  if s.boot.bad.testBit other then lost s
  else match slotHdr s other with
    | none => lost s
    | some h =>
      if rsn ≠ 0 then lost (ev 2 other 1 noAxis [wd other, wd rsn, 0#32] (putValid other false rsn s))
      else
        let s := loadSlot other h (reloadReset s)
        if s.boot.code = some 4 then s else ev 2 other 2 noAxis [wd other] (bwBit s .boot 0 5 true)

/-- The slot named by the seal code is loaded: the preferred one, or under code 100 the valid one that is not preferred, or the only
valid one (R477, R478). -/
def chooseSlot (code : Nat) (s : State) : State :=
  match preferred s with
  | none => bootFail 2 0 3 [wd (slotReason s 0), wd (slotReason s 1)] s
  | some p =>
    let slot := if code = 4 ∧ hdrReason s (slotHdr s (1 - p)) = 0 then 1 - p else p
    match slotHdr s slot with
    | none => s
    | some h =>
      let s := loadSlot slot h (bwBit s .boot 0 4 (code == 4))
      let r := hdrReason s (some h)
      if r = 0 then s else slotFail r 0 s

/-- SEAL of the MODE point and of SAFE_STATUS. -/
def putSeal (code : Nat) (s : State) : State :=
  let s := bw s .safe 0 (setFld (br s .safe 0) 15 3 code)
  if helmUp s then setPt s 0 (setFld (pt s 0) 9 3 code) else s

/-- R38 after BOOT: SS1-r on the groups with torque on and HALT when the last ramp ends, or HALT at once. -/
def sealAct (code : BitVec 16) (s : State) : State :=
  if mode s = mRun ∨ mode s = mComm ∨ mode s = mSafeStop then
    let s := forEach allGroups (fun g s => if grpTq s g then ss1Start g s else s) s
    let s := stoDecide s
    if allGroups.any (ss1On s) then modHelm (fun h => { h with haltAfterRamps := true }) s else haltEntry code true s
  else haltEntry code true s

/-- SEAL_CHANGE: a code other than the one in force, after BOOT (R38, 18 R458). -/
def sealChange (code : Nat) (s : State) : State :=
  sealAct (mkCode 0 code 5) (dropCopy (raiseDev 3 0 code 5 [] s))

/-- A seal code is in force: eight samples agreed (R37). The safety island is off in SLEEP. -/
def sealSeen (code : Nat) (s : State) : State :=
  if mode s = mSleep ∨ inReset s then s
  else if mode s = mBoot then
    match s.boot.code with
    | some c => putSeal code (modBoot (fun b => { b with changed := b.changed || code != c }) s)
    | none =>
      let s := putSeal code (modBoot (fun b => { b with code := some code }) s)
      if code = 3 ∨ 5 ≤ code then bootFail 0 code 4 [] s else if stageOf s = 1 then chooseSlot code s else s
  else if code = sSeal s then s
  else sealChange code (putSeal code s)

/-- Eight samples in a row agreed on a code (02 R37). -/
def sealAgreed (s : State) : Bool := s.safe.sealRun == 8

/-- The safety unit samples SEAL2 to SEAL0; the eighth sample in a row that agrees puts the code in force (02 R37). -/
def sealSample (code : Nat) (s : State) : State :=
  let s := modSafe (fun x => { x with sealRun := if inReset s then 0 else if code = x.sealPin then min 8 (x.sealRun + 1) else 1, sealPin := code }) s
  if sealAgreed s then sealSeen code s else s

/-- SEAL_IN_FORCE: the code on which the last eight samples agreed is in force (02 R37). -/
def execSealInForce (code : BitVec 3) (t : Nat) (s : State) : Host.Outcome State Fault Refusal :=
  let s := atTime t s
  .next (if sealAgreed s && s.safe.sealPin == code.toNat then sealSeen code.toNat s else s)

/-- SAFETY_CYCLE with the levels of STO_FB0-3, the drive-die enable readback and the seal code on the pins (18 R441, R460; 02 R37). -/
def execSafetyCycle (fb : BitVec 4) (den : Bool) (code : BitVec 3) (t : Nat) (s : State) : Host.Outcome State Fault Refusal :=
  let s := atTime t s
  .next (if mode s = mSleep then s else sealSample code.toNat (safetyCycle fb den s))

/-! ### Records (R471 to R473) -/

/-- ZPACK: pairs of a count of zero words [15:0] and a count of literal words [31:16], each followed by its literals (R472). -/
def unpack : Nat → List Word → List Word
  | 0, _ => []
  | _, [] => []
  | k + 1, w :: ws => List.replicate (fld w 0 16) 0#32 ++ ws.take (fld w 16 16) ++ unpack k (ws.drop (fld w 16 16))

/-- LENGTH of the slot that loads. -/
def slotLength (s : State) : Nat := match slotHdr s (activeSlot s) with | some x => x.len.toNat | none => 0

/-- Slot offset of the next record: the bytes read so far start at 0x40. -/
def recOfs (s : State) : Nat := 0x40 + s.boot.image.length

/-- A record as the boot loader reads it next. -/
def rawRec (s : State) (ty flags len : Nat) (body : List Byte) (crc : Word) : RawRec :=
  { ty := ty, flags := flags, len := len, body := body, crc := crc.toNat, ofs := recOfs s }

/-- A record of unlisted TYPE as stored, its payload padded with zeros to a multiple of 4 (R471). -/
def otherRec (s : State) (o : OtherRec) : RawRec :=
  rawRec s o.ty.toNat o.flags.toNat o.body.length (o.body ++ List.replicate ((4 - o.body.length % 4) % 4) 0#8) o.crc

/-- The record of a head and its payload words. -/
def headRec (s : State) (ty : Nat) (h : RecHead) (p : List Word) : RawRec := rawRec s ty h.flags.toNat h.len (bytesOf p) h.crc

/-- The bytes of a record are read: they count towards IMAGE_CRC and the digest. -/
def readBytes (r : RawRec) (s : State) : State := modBoot (fun b => { b with recs := r.ty :: b.recs, image := b.image ++ r.bytes }) s

/-- What the form of a record says, 0 = none (R471, R472, Table 19-4). -/
def recReason (r : RawRec) (s : State) : Nat := recForm (slotLength s) s.boot.recs r

/-- The records of unlisted TYPE before a record: skipped, or the reason and the offset that make the slot invalid. -/
def skipOthers : List OtherRec → State → (Nat × Nat) × State
  | [], s => ((0, 0), s)
  | o :: os, s =>
    let r := otherRec s o
    if recReason r s ≠ 0 then ((recReason r s, r.ofs), s) else skipOthers os (readBytes r s)

/-- The boot loader loads records: in BOOT, STAGE 2, not frozen. -/
def loading (s : State) : Bool := mode s == mBoot && stageOf s == 2 && !(frozen s 9)

/-- A record is applied by f, which answers the reason that makes the slot invalid, or 0, with the state. An empty record is accepted. -/
def takeRec (ty : Nat) (h : RecHead) (p : List Word) (f : List Word → State → Nat × State) (s : State) : State :=
  if !(loading s) then s
  else
    let (bad, s) := skipOthers h.before s
    let r := headRec s ty h p
    if bad.1 ≠ 0 then slotFail bad.1 bad.2 s
    else if recReason r s ≠ 0 then slotFail (recReason r s) r.ofs s
    else
      let s := readBytes r s
      if h.len = 0 then s
      else
        let (k, s) := f (if bit (wd h.flags.toNat) 0 then unpack p.length p else p) s
        if k ≠ 0 then slotFail k r.ofs s else s

/-- A REG target: a pending register, or a RW block-level register of a listed block (R473). -/
def regAllowed (a : Nat) : Bool :=
  a % 4 == 0 && (tabPend a || match findReg a with
    | none => false
    | some h => !h.active && !(isCommit h) && h.blk != .safe && h.blk != .sx &&
      if h.row.inst.isSome then h.row.rws != 0#32 && !(h.blk == .prot && (h.inst == 0 || h.inst == 9)) && !(h.blk == .que && decide (h.inst < 16))
      else h.row.rw != 0#32 && ([Blk.pmu, .chron, .prof, .loop, .enc, .sdm, .pwm, .drv, .fio, .can0, .can1, .ring, .hk, .step, .home]).contains h.blk)

/-- REG: pairs of address and value. -/
def recReg : List Word → State → Nat × State
  | a :: v :: ws, s => if regAllowed a.toNat then recReg ws (regWrite 9 a.toNat v s) else (11, s)
  | [_], s => (11, s)
  | [], s => (0, s)

/-- Is a word of a MEM target allowed: cluster X or Y memory, user areas of shared SRAM and eDRAM (R473)? -/
def memAllowed (a : Nat) : Bool :=
  decide (0x10040000 ≤ a ∧ a < 0x10200000) || decide (0x41800000 ≤ a ∧ a < 0x42000000) ||
    (decide (0x30000000 ≤ a ∧ a < 0x34000000) && (let o := winOff a; decide (0x100000 ≤ o ∧ o < 0x110000) || decide (0x200000 ≤ o ∧ o < 0x210000)))

/-- A word of a Brass area of cluster memory (11 Table 11-7). -/
def brassWord (a : Nat) : Bool :=
  decide (0x30000000 ≤ a ∧ a < 0x34000000) && (let o := winOff a; decide (6144 * 8 ≤ o ∧ o < 0x10000) ||
    decide (0x100000 + 4 * 12288 ≤ o ∧ o < 0x100000 + 4 * 15360) || decide (0x200000 + 4 * 14336 ≤ o ∧ o < 0x210000))

/-- Remember that a record wrote a Brass area of a cluster. -/
def markBrass (a : Nat) (s : State) : State :=
  if brassWord a ∧ !(s.boot.brass.contains (winClu a).val) then modBoot (fun b => { b with brass := (winClu a).val :: b.brass }) s else s

/-- Words from an address on, by the boot loader. -/
def recWords (ok : Nat → Bool) : Nat → List Word → State → Nat × State
  | _, [], s => (0, s)
  | a, v :: ws, s => if ok a then recWords ok (a + 4) ws (writeAt 9 a v (markBrass a s)) else (11, s)

/-- MEM: target address, then data. -/
def recMem : List Word → State → Nat × State
  | a :: ws, s => if a.toNat % 4 = 0 then recWords memAllowed a.toNat ws s else (11, s)
  | [], s => (0, s)

/-- KERNEL: cluster and first program word, then 64-bit words. -/
def recKernel : List Word → State → Nat × State
  | w :: ws, s =>
    if fld w 2 14 ≠ 0 ∨ fld w 29 3 ≠ 0 ∨ ws.length % 2 = 1 ∨ 8192 < fld w 16 13 + ws.length / 2 then (11, s)
    else
      let base := 0x30000000 + fld w 0 2 * 0x1000000
      recWords (fun a => decide (a < base + 0x10000)) (base + 8 * fld w 16 13) ws s
  | [], s => (0, s)

/-- The pairs of a POINTS record. Attribute words are the image's for user points only, the fixed points' being firmware's; MODE and
FAULT_SUMMARY keep their values, and after a SLEEP the user points keep theirs (R473; 13 R327, R338). -/
def recPairs : Nat → List Word → State → Nat × State
  | i, a :: v :: ws, s =>
    if 131072 ≤ i ∨ 6 ≤ fld a 0 3 then (7, s)
    else
      let s := if 8192 ≤ i then setAttr s i (a &&& 0x1FFFFF7F#32) else s
      let keep := i == 0 || i == 2 || i == 3 || (s.pwr.warm && decide (8192 ≤ i))
      recPairs (i + 1) ws (if keep then s else setPt s i v)
  | _, _, s => (0, s)

/-- POINTS. -/
def recPoints : List Word → State → Nat × State
  | i :: n :: ws, s => if ws.length ≠ 2 * n.toNat then (3, s) else recPairs i.toNat ws s
  | [_], s => (3, s)
  | [], s => (0, s)

/-- A region that R335 forbids for master m: TOP < BASE while enabled, W on a guarded area, or a cluster on the spill region. -/
def regionBad (m : Nat) (b t : Word) : Bool :=
  let lo := fld b 5 27 * 32
  let hi := fld t 5 27 * 32 + 31
  let on := fun (x y : Nat) => decide (lo ≤ y ∧ x ≤ hi)
  bit b 3 && (decide (hi < lo) ||
    (bit b 1 && (on 0x20080000 0x200FFFFF || on 0x60100000 0x6010FFFF || on 0 0x7FFFF || on 0x10000000 0x1003FFFF || on 0x40000000 0x407FFFFF)) ||
    (decide (1 ≤ m ∧ m ≤ 4) && (bit b 0 || bit b 1 || bit b 2) && on 0x40800000 0x417FFFFF))

/-- PROT: for masters 1-8 sixteen pairs each. -/
def recProt (ws : List Word) (s : State) : Nat × State :=
  if ws.length ≠ 256 then (3, s)
  else
    let w := fun (m r : Nat) => (ws.getD (32 * (m - 1) + 2 * r) 0#32, ws.getD (32 * (m - 1) + 2 * r + 1) 0#32)
    let l := (List.range 8).flatMap fun m => (List.range 16).map fun r => (m + 1, r)
    if l.any (fun x => regionBad x.1 (w x.1 x.2).1 (w x.1 x.2).2) then (8, s)
    else (0, forEach l (fun x s => regWrite 9 (iAddr .prot x.1 (8 * x.2 + 4)) (w x.1 x.2).2 (regWrite 9 (iAddr .prot x.1 (8 * x.2)) (w x.1 x.2).1 s)) s)

/-- QUEUE: number, QUE_CFG, QUE_CAP, QUE_SPBASE and QUE_IDLE of user queues. -/
def recQueue : List Word → State → Nat × State
  | q :: c :: k :: b :: i :: ws, s =>
    if q.toNat < 16 ∨ 64 ≤ q.toNat then (12, s)
    else
      let a := iAddr .que q.toNat
      recQueue ws (regWrite 9 (a 0xC) i (regWrite 9 (a 8) b (regWrite 9 (a 4) k (regWrite 9 (a 0) c s))))
  | [], s => (0, s)
  | _, s => (3, s)

/-- The objects of a CANMAP record. -/
def recObjs (b : Blk) : List Word → State → Nat × State
  | n :: c :: i :: m :: p :: ws, s =>
    if 128 ≤ n.toNat then (12, s)
    else
      let a := fun k => iAddr b (1 + n.toNat / 32) (16 * (n.toNat % 32) + 4 * k)
      recObjs b ws (regWrite 9 (a 3) p (regWrite 9 (a 2) m (regWrite 9 (a 1) i (regWrite 9 (a 0) c s))))
  | [], s => (0, s)
  | _, s => (3, s)

/-- CANMAP: controller, instance 0, objects. The controller is enabled. -/
def recCanmap : List Word → State → Nat × State
  | c :: n :: d :: t :: ws, s =>
    if 2 ≤ c.toNat then (12, s)
    else
      let b := if c.toNat = 0 then Blk.can0 else .can1
      let s := modBoot (fun x => { x with cans := x.cans ||| (1 <<< c.toNat) }) s
      recObjs b ws (regWrite 9 (iAddr b 0 8) t (regWrite 9 (iAddr b 0 4) d (regWrite 9 (iAddr b 0 0) n s)))
  | _, s => (3, s)

/-- RINGMAP: instance 0, then subscriptions. With EN = 1 the ring SerDes asks for its start (20 R502). -/
def recRingmap (ws : List Word) (s : State) : Nat × State :=
  if 7 + 256 < ws.length then (3, s)
  else
    let s := forEach (List.range (min 7 ws.length)) (fun k s => regWrite 9 (iAddr .ring 0 (4 * k)) (ws.getD k 0#32) s) s
    let s := forEach (List.range (ws.length - 7)) (fun k s => let p := subPlace k; regWrite 9 (iAddr .ring p.1 p.2) (ws.getD (7 + k) 0#32) s) s
    (0, if bit (ws.getD 0 0#32) 0 then admRequest 5 150 500000 50000000 s else s)

/-- OWNER: SYS_OWNER, BOOT_UPDCFG and BOOT_UPDRSP. -/
def recOwner (ws : List Word) (s : State) : Nat × State :=
  (0, bw (bw (bw s .sys 0x20 (ws.getD 0 0#32 &&& 0xFFFF7F07#32)) .boot 0x48 (ws.getD 1 0#32 &&& 0xFF#32)) .boot 0x4C (ws.getD 2 0#32 &&& 0x7FFFFFFF#32))

/-- SAFETY: the parameter block. -/
def recSafety (ws : List Word) (s : State) : Nat × State := (0, modBoot (fun b => { b with block := ws.take 128 }) s)

/-- PATCH: the build it fits, and the patch RAM it fills (02 R47). -/
def recPatch (ws : List Word) (s : State) : Nat × State :=
  let n := ws.length - 2
  if patchBad s.helm.build s.boot.patch ws then (6, s)
  else
    let ram := (List.range n).foldl (fun m k => sset (fun _ => 0#32) m ((ws.getD 1 0#32).toNat + 4 * k) (ws.getD (2 + k) 0#32)) s.boot.patchRam
    (0, modBoot (fun b => { b with patch := b.patch + n, patchRam := ram }) s)

/-- KEYFUSE: the hash is kept until the slot is judged (R476). -/
def recKey (ws : List Word) (s : State) : Nat × State := (0, modBoot (fun b => { b with key := some (ws.take 8) }) s)

/-- REG. -/
def execReg (h : RecHead) (p : List Word) (t : Nat) (s : State) : Host.Outcome State Fault Refusal := .next (takeRec 1 h p recReg (atTime t s))
/-- MEM. -/
def execMem (h : RecHead) (p : List Word) (t : Nat) (s : State) : Host.Outcome State Fault Refusal := .next (takeRec 2 h p recMem (atTime t s))
/-- KERNEL. -/
def execKernel (h : RecHead) (p : List Word) (t : Nat) (s : State) : Host.Outcome State Fault Refusal := .next (takeRec 3 h p recKernel (atTime t s))
/-- POINTS. -/
def execPoints (h : RecHead) (p : List Word) (t : Nat) (s : State) : Host.Outcome State Fault Refusal := .next (takeRec 4 h p recPoints (atTime t s))
/-- PROT. -/
def execProt (h : RecHead) (p : List Word) (t : Nat) (s : State) : Host.Outcome State Fault Refusal := .next (takeRec 5 h p recProt (atTime t s))
/-- QUEUE. -/
def execQueue (h : RecHead) (p : List Word) (t : Nat) (s : State) : Host.Outcome State Fault Refusal := .next (takeRec 6 h p recQueue (atTime t s))
/-- CANMAP. -/
def execCanmap (h : RecHead) (p : List Word) (t : Nat) (s : State) : Host.Outcome State Fault Refusal := .next (takeRec 7 h p recCanmap (atTime t s))
/-- RINGMAP. -/
def execRingmap (h : RecHead) (p : List Word) (t : Nat) (s : State) : Host.Outcome State Fault Refusal := .next (takeRec 8 h p recRingmap (atTime t s))
/-- OWNER. -/
def execOwner (h : RecHead) (p : List Word) (t : Nat) (s : State) : Host.Outcome State Fault Refusal := .next (takeRec 9 h p recOwner (atTime t s))
/-- SAFETY. -/
def execSafety (h : RecHead) (p : List Word) (t : Nat) (s : State) : Host.Outcome State Fault Refusal := .next (takeRec 0xA h p recSafety (atTime t s))
/-- PATCH. -/
def execPatch (h : RecHead) (p : List Word) (t : Nat) (s : State) : Host.Outcome State Fault Refusal := .next (takeRec 0xB h p recPatch (atTime t s))
/-- KEYFUSE. -/
def execKeyfuse (h : RecHead) (p : List Word) (t : Nat) (s : State) : Host.Outcome State Fault Refusal := .next (takeRec 0xC h p recKey (atTime t s))

/-- SIGN: the key's SHA-256, and whether the signature verifies over the digest of the bytes before the record (R475). -/
def recSign (before : List Byte) (ws : List Word) (s : State) : Nat × State :=
  (0, modBoot (fun b => { b with sign := some (signOf (bytesOf ws) before) }) s)

/-- SIGN; its result counts for programmed fuses and for KEYFUSE (R475, R476). -/
def execSign (h : RecHead) (p : List Word) (t : Nat) (s : State) : Host.Outcome State Fault Refusal :=
  .next (takeRec 0xFE h p (fun ws s => recSign (s.boot.image.take (s.boot.image.length - (12 + 4 * p.length))) ws s) (atTime t s))

/-! ### The checks after END (R474, Table 19-4) -/

/-- A pending set of an instance differs from its active set: the image has given it. -/
def touched (s : State) (b : Blk) (i : Nat) : Bool := (rwsOffs b i).any fun o => ir s b i o != ar s b i o

/-- Check 10 on the image that loads. -/
def signBad (s : State) : Bool := signFails (fuseBlank s) (keyHash s) s.boot.sign

/-- IMAGE_CRC of the header in use is that of every byte through END (R470). -/
def imageCrcOk (s : State) : Bool :=
  match slotHdr s (activeSlot s) with
  | some h => h.crc == crc32 s.boot.image
  | none => false

/-- Clusters that get Brass code: a pending CKIND of 1-7 in their group (R473). -/
def brassClu (s : State) (g : Fin 4) : Bool := (grpAxes g).any fun n => decide (1 ≤ fld (ir s .loop n.val 0) 0 4 ∧ fld (ir s .loop n.val 0) 0 4 ≤ 7)

/-- Low words of the I64 pairs among the RWS registers. -/
def loOffs : Blk → List Nat
  | .prof => [0x90, 0x98, 0xB0]
  | .home => [0x20, 0x28, 0x30, 0x38]
  | .enc => [0x30, 0x38]
  | _ => []

/-- What a bound point binds: block, instance and byte offset. -/
def bindOf (i : Nat) (a : Word) : Option (Blk × Nat × Nat) :=
  if fld a 12 5 = 0 then none
  else match boundTo i a with
    | some x => some x
    | none => some (.safe, 0, 0)

/-- Check 7 for one point: its binding is valid (13 R328). -/
def bindBad (s : State) (i : Nat) (a : Word) : Bool :=
  match bindOf i a with
  | none => false
  | some (b, n, o) =>
    b == .safe || !((rwsOffs b n).contains o) || (fld a 17 5 == 31 && !(decide (512 ≤ i ∧ i < 4608))) ||
    (isI64 a && (if i % 2 = 0 then !((loOffs b).contains o) || bindOf (i + 1) (attr s (i + 1)) != some (b, n, o + 4)
      else decide (o < 4) || bindOf (i - 1) (attr s (i - 1)) != some (b, n, o - 4)))

/-- Check 7: every binding valid, and no register bound twice. -/
def bindsBad (s : State) : Bool :=
  let l := s.attrs.filter (fun x => fld x.2 12 5 != 0)
  l.any (fun x => bindBad s x.1 x.2) || !(decide (l.filterMap (fun x => bindOf x.1 x.2)).Nodup)

/-- Check 9: more than six published axes, slot overflow, or a group watch that does not divide T_R (15 R366, R367; 01 R29). -/
def ringLayoutBad (s : State) : Bool :=
  let w := ir s .ring 0 0
  let nrec := ((List.range 16).filter fun k => (fld (ir s .ring 0 0x10) 0 16).testBit k).length
  let tr := fld (ir s .ring 0 4) 0 24
  decide (6 < nrec) || (bit w 0 &&
    (decide (fld w 8 5 * 16 < 8 + 4 * b2n (decide (0 < nrec)) + 32 * nrec + 4 * (pubPoints s).length) ||
     allGroups.any (fun g => let gt := ir s .pwm (16 + g.val) 0; decide (ticksOf gt ≠ 0 ∧ tr % (fld gt 24 7 * (2 * ticksOf gt)) ≠ 0))))

/-- A trial of the commits of a block's given instances in order: the state after them, or none where one would be refused. -/
def trial (b : Blk) (bad : Nat → State → Bool) (l : List Nat) (s : Option State) : Option State :=
  l.foldl (fun s i => s.bind fun s => if touched s b i then (if bad i s then none else some (copySet b i s)) else some s) s

/-- An index below 16, for checks by axis. -/
def fin16 (i : Nat) : Fin 16 := ⟨i % 16, Nat.mod_lt _ (by decide)⟩

/-- The STEP set of an axis would be refused (05 R152). -/
def stepBad (i : Nat) (s : State) : Bool := bit (ir s .step i 0) 0 && ir s .step i 4 == 0#32
/-- The SDM clock would be refused (07 R176). -/
def sdmClkBad (i : Nat) (s : State) : Bool := let d := fld (ir s .sdm i 0) 0 8; decide ((0 < d ∧ d < 20) ∨ 250 < d)
/-- The trigger table would be refused (06 Table 6-15). -/
def trigBad (i : Nat) (s : State) : Bool :=
  (List.range 8).any fun e => let w := ir s .loop i (4 * e); fld w 0 3 == 7 || (fld w 0 3 == 4 && decide (fld w 4 6 < 16))

/-- Check 12: some pending set would be refused by its block (R474), tried in the order of R480. The rules of the outputs are tried with
the safety block that BOOT would load. -/
def pendingBad (s : State) : Bool :=
  let r := List.range
  let x := some (loadBlock s.boot.block s)
  let x := trial .pmu (fun i s => decide (4000 < fld (ir s .pmu i 0) 0 12)) (r 16) x
  let x := trial .que (fun i s => (queCheck s ⟨i % 64, Nat.mod_lt _ (by decide)⟩).isSome) ((r 64).drop 16) x
  let x := trial .can0 (fun i s => if i = 0 then (timingBad s 0).isSome else (groupBad s 0 i).isSome) (r 5) x
  let x := trial .can1 (fun i s => if i = 0 then (timingBad s 1).isSome else (groupBad s 1 i).isSome) (r 5) x
  let x := trial .hk (fun i s => (hkCheck s ⟨i % 24, Nat.mod_lt _ (by decide)⟩).isSome) (r 24) x
  let x := trial .sdm (fun i s => if i < 16 then (sdmCheck s (fin16 i)).isSome else sdmClkBad i s) ((r 24).drop 16 ++ r 16) x
  let x := trial .enc (fun i s => (encCheck s (fin16 i)).isSome) (r 16) x
  let x := trial .fio (fun i s => decide (32 ≤ i) && fioCheck s (fin16 i)) (r 48) x
  let x := trial .drv (fun i s => (drvCheck s ⟨i % 4, Nat.mod_lt _ (by decide)⟩).isSome) (r 4) x
  let x := trial .ring (fun i s => (ringCheck s i).isSome) (r 5) x
  let x := trial .pwm (fun i s => if i < 16 then (axCheck s (fin16 i)).isSome else (grpCheck s ⟨i % 4, Nat.mod_lt _ (by decide)⟩).isSome) (r 20) x
  let x := trial .step stepBad (r 16) x
  let x := trial .loop (fun i s => if i < 16 then (loopCheck s (fin16 i)).isSome else trigBad i s) (r 20) x
  let x := trial .prof (fun i s => if i < 16 then (gearCheck s (fin16 i)).isSome || (profCheck s (fin16 i)).isSome
    else (igCheck s ⟨i % 4, Nat.mod_lt _ (by decide)⟩).isSome) (r 20) x
  (trial .home (fun i s => (homeCheck s (fin16 i)).isSome) (r 16) x).isNone

/-- The first check that fails after END, 0 = none. -/
def endReason (s : State) : Nat :=
  if !(imageCrcOk s) then 2
  else if signBad s then 10
  else if allGroups.any (fun g => s.boot.brass.contains g.val && brassClu s g) then 11
  else if bindsBad s then 7
  else if ringLayoutBad s then 9
  else if pendingBad s then 12
  else 0

/-! ### KEYFUSE (R476) -/

/-- The fuses are programmed, or the record is skipped. -/
def keyfuse (s : State) : State :=
  match s.boot.key with
  | none => s
  | some k =>
    let signed := match s.boot.sign with | some (h, ok) => ok && h == k | none => false
    let cause := if s.boot.code ≠ some 2 then 1 else if !(fuseBlank s) then 2 else if !signed then 3 else 0
    if cause ≠ 0 then ev 2 0 0xB noAxis [wd cause] s
    else
      let s := forEach (List.range 8) (fun w s => bw s .boot (0x70 + 4 * w) (k.getD w 0#32)) s
      ev 2 0 0xA noAxis [k.getD 0 0#32] (bw s .boot 0x60 2#32)

/-! ### The commits (R480) -/

/-- COMMIT bits of the touched instances of a block. -/
def armTouched (b : Blk) (l : List Nat) (s : State) : State :=
  forEach l (fun i s => if touched s b i then
    (if (b = .que ∨ b = .fio) ∧ 32 ≤ i then bwBit s b 0x14 (i - 32) true else bwBit s b 0x10 i true) else s) s

/-- Orders 1 to 5. PMU sets are armed with the first and taken at the next evaluation. -/
def commitEarly (s : State) : State :=
  let r := List.range
  let s := bw s .prot 0x10 0x1FE#32
  let s := forEach ((r 9).drop 1) (fun m s => copySet .prot m (bwBit s .prot 0x10 m false)) (armTouched .pmu (r 16) s)
  let s := protLock 1#32 s
  let s := forEach ((List.finRange 64).drop 16) queCommit (armTouched .que ((r 64).drop 16) s)
  let s := canCommits 1 (canCommits 0 (armTouched .can1 (r 5) (armTouched .can0 (r 5) s)))
  let s := hkCommits (armTouched .hk (r 24) s)
  let s := armTouched .sdm (r 24) s
  let s := forEach (List.finRange 8) (fun c s => if bit (br s .sdm 0x10) (16 + c.val) then sdmClkCommit c s else s) s
  let s := forEach allAxes (fun n s => if bit (br s .sdm 0x10) n.val then sdmCommit n s else s) s
  let s := armTouched .enc (r 16) s
  let s := forEach allAxes (fun n s => if bit (br s .enc 0x10) n.val then encCommit n s else s) s
  let s := fioCommits (armTouched .fio (r 48) s)
  drvCommits 15 (armTouched .drv (r 4) s)

/-- PROF: the set of every axis (03 R96), and the interpolation groups that were touched. -/
def armProf (s : State) : State :=
  forEach allAxes (fun n s => bwBit s .prof 0x10 n.val true) (armTouched .prof ((List.range 20).drop 16) s)

/-- Touched shaping tables are armed (05 R146). -/
def armTabs (s : State) : State :=
  forEach (List.range 4) (fun t s => let b := 0x60138000 + t * 0x800
    if (List.range 256).any (fun i => rd s (b + 4 * i) != rd s (b + 0x400 + 4 * i)) then bwBit s .step 0x10 (16 + t) true else s) s

/-- Every group is stopped, and none is about to start. -/
def allStopped (s : State) : Bool := allGroups.all fun g => !(gOn s g)

/-- BOOT has nothing left to commit. -/
def bootIdle (s : State) : Bool :=
  mode s == mBoot && stageOf s == 4 && !s.boot.waitRing && s.pwr.sealed && br s .pwm 0x10 == 0#32 && br s .loop 0x10 == 0#32 &&
    br s .prof 0x10 == 0#32 && br s .home 0x10 == 0#32 && br s .step 0x10 == 0#32

/-- Points that the Helm writes at BOOT (13 Table 13-5; 20 R509). -/
def bootPoints (s : State) : State :=
  let img := match slotHdr s (activeSlot s) with | some h => h.crc | none => 0#32
  let l : List (Nat × Word) := [(6, wd (ownAddr s)), (7, img), (10, br s .sys 0), (11, s.helm.build), (12, wd (activeSlot s)), (13, br s .sys 0x28),
    (41, br s .pmu 0x30), (42, br s .pmu 0x38)]
  forEach l (fun x s => setPt s x.1 x.2) s

/-- The mode that the seal code gives (02 Table 2-3). -/
def sealMode (code : Nat) : Nat := if code = 1 then mComm else if code = 2 then mService else mStandby

/-- The end of BOOT (R479): RUN on every cluster, INIT cleared on the enabled controllers, MODE written, BROWNOUT logged; a code that
changed during BOOT then acts as a change (02 R38). -/
def bootEnd (s : State) : State :=
  let s := forEach allGroups (fun g s => sw s g 0 1#32) s
  let s := forEach (List.finRange 2) (fun c s => if s.boot.cans.testBit c.val then canCtrl c (setBit (br s (cb c) 8) 0 false) s else s) s
  let code := s.boot.code.getD 0
  let s := bootPoints s
  let s := setMode (sealMode code) s
  let s := setPt s 0 (setBit (pt s 0) 8 (code == 4))
  let s := bw (stage 5 s) .boot 0x34 (wd ((s.now - s.boot.t0) / 1000).toNat)
  let s := modHelm (fun h => { h with ownerFrom := s.now, ownerOut := false, bootLeft := s.now }) (setPt s 3 0#32)
  let s := if code = 1 then putWork (useBlk s) (modSafe (fun x => { x with copy := true }) s) else s
  let s := if s.pwr.browned then ev 1 0 1 noAxis [br s .pmu 0x30] s else s
  let s := { s with pwr := { s.pwr with browned := false, warm := false } }
  if s.boot.changed then sealChange (sealOf s) s else s

/-- BOOT ends once everything is taken. -/
def bootDone (s : State) : State := if bootIdle s then bootEnd s else s

/-- Orders 7 and 8: PWM at once for the stopped groups, each to start at its first watch boundary; LOOP, PROF, HOME and STEP armed for
the watch boundaries. The Chronometer is sealed (20 R498). With every group stopped all is taken at once. -/
def commitLate (s : State) : State :=
  let r := List.range
  let s := bwBit { s with pwr := { s.pwr with sealed := true } } .chron 0 10 true
  let s := forEach allGroups pwmCommits (armTouched .pwm (r 20) s)
  let s := armTouched .home (r 16) (armProf (armTouched .loop (r 20) (armTabs (armTouched .step (r 16) s))))
  if allStopped s then bootDone (stepTabCommits (forEach allGroups watchCommits s)) else s

/-- Order 6, ring start, comes before orders 7 and 8 on a device with RING_CFG.EN = 1. -/
def commitRing (s : State) : State :=
  let s := ringCommits (armTouched .ring (List.range 5) s)
  if ringEn s then modBoot (fun b => { b with waitRing := true }) s else commitLate s

/-- The image is valid: fuses, safety block, commits (R479). An invalid safety block ends BOOT in HALT (R481). -/
def imageGood (s : State) : State :=
  let slot := activeSlot s
  let s := putValid slot true 0 (bwBit s .boot 0 6 (!(fuseBlank s)))
  let s := loadBlock s.boot.block (keyfuse s)
  if sValid s then commitRing (commitEarly (stage 4 s))
  else bootHalt (mkCode 0xE 0 1) true s

/-- END (R474, R479): the checks, then the commits. -/
def imageEnd (h : RecHead) (s : State) : State :=
  if !(loading s) then s
  else
    let (bad, s) := skipOthers h.before s
    let r := headRec s 0xFF h []
    if bad.1 ≠ 0 then slotFail bad.1 bad.2 s
    else if recReason r s ≠ 0 then slotFail (recReason r s) r.ofs s
    else
      let s := stage 3 (readBytes r s)
      let k := endReason s
      if k ≠ 0 then slotFail k r.ofs s else imageGood s

/-- END. -/
def execEnd (h : RecHead) (t : Nat) (s : State) : Host.Outcome State Fault Refusal := .next (imageEnd h (atTime t s))

/-- RING_WATCH_ZERO: ring start is complete, and the commits go on (15 R361; R480). -/
def execRingWatchZero (t : Nat) (s : State) : Host.Outcome State Fault Refusal :=
  let s := atTime t s
  .next (if ringBoot s ∧ s.ring.stage = 3 ∧ t = s.ring.rw0 then commitLate (modBoot (fun b => { b with waitRing := false }) (ringZero t s)) else s)

end Sys2Proof.Machine
end

