-- ==== Sys2Proof/Machine/Helm.lean ====
section
/-!
DEFINITION. The Helm firmware (spec 02, 23): mode requests, fault dispatch, SAFE-STOP, the owner timeout, the device boundary, the
1 ms update, the Logbook and its requests. A frozen Helm does none of it (02 Table 2-12).
-/
namespace Sys2Proof.Machine

/-- The Helm runs: not frozen, not in reset, not in SLEEP. -/
def helmOn (s : State) : Bool := helmUp s && mode s != mSleep && !(inReset s)

/-! ### Mode requests (spec 02 R39 to R41) -/

/-- REQ of the MODE_REQ point. -/
def modeReq (s : State) : Nat := fld (pt s 1) 0 8

/-- The Helm answers a request: REQ = 0 and RESULT, MASTER and TAG kept (R40); a refusal is logged (R41). -/
def reqDone (res : Nat) (s : State) : State :=
  let req := modeReq s
  let s := setPt s 1 (setFld (setFld (pt s 1) 0 8 0) 12 4 res)
  let s := modHelm (fun h => { h with runWait := false }) s
  if res = 0 then s else ev 0 0 1 noAxis [wd req, wd res] s

/-- No axis has torque or is on its way to it. -/
def allOff (s : State) : Bool := allAxes.all fun n => s.ax[n].seq == .disabled && !(tq s n)

/-- An unacknowledged fault of a level of at least k stands. -/
def lvlStands (k : Nat) (s : State) : Bool := s.helm.latched.any fun f => decide (k ≤ f.level)

/-- Entry to RUN or COMMISSION from another mode: the owner's time runs anew (R45); the master sends the release wave from here
(15 R384). -/
def enterOn (m t : Nat) (s : State) : State :=
  let s := modHelm (fun h => { h with ownerFrom := t, ownerOut := false }) (setMode m s)
  if m = mRun ∧ isMaster s ∧ ringEn s then modRing (fun r => { r with wave := some t }) s else s

/-- A ring member's RUN request waits for its release wave (15 R384). -/
def waveWaits (s : State) (t : Nat) : Bool :=
  ringEn s && !(isMaster s) && ringUp s &&
    !(match s.ring.wave with | some tw => decide (tw + ownAddr s * s.ring.step * 10000 ≤ t) | none => false)

/-- The conditions of Table 2-4 for RUN. -/
def runOk (s : State) : Bool :=
  sealOf s == 0 && !(recovery s) && !(lvlStands 2 s) && bit (br s .safe 0) 14 && s.safe.due == 0#4

/-- The conditions of Table 2-4 for SLEEP: all axes off, no flash write in progress; an open update session counts as one
(19 R484). -/
def sleepOk (s : State) : Bool := allOff s && s.boot.jobs.isEmpty && s.safe.writing == 0 && s.boot.upd.isNone

/-- Request 1, STANDBY. -/
def reqStandby (s : State) : State :=
  if mode s ≠ mRun then reqDone 1 s else reqDone 0 (modHelm (fun h => { h with toStandby := true }) s)

/-- Request 2, RUN. -/
def reqRun (t : Nat) (s : State) : State :=
  if mode s = mStandby ∧ waveWaits s t then modHelm (fun h => { h with runWait := true }) s
  else if mode s ≠ mStandby then reqDone 1 s
  else if runOk s then reqDone 0 (enterOn mRun t s)
  else reqDone 2 s

/-- Request 3, SLEEP: entry begins, and every wake source is armed (20 R501). A level-3 fault of this evaluation prevails (20 R508). -/
def reqSleep (s : State) : State :=
  if mode s ≠ mStandby ∨ lvlStands 3 s then reqDone 1 s
  else if !(sleepOk s) then reqDone 2 s
  else
    let s := modHelm (fun h => { h with toSleep := true }) (reqDone 0 s)
    { bwBit s .pmu 0 5 true with pwr := { s.pwr with sleepFrom := some s.now, woken := 0, wakeStep := none } }

/-- HALT is left for STANDBY (R39, R58). -/
def leaveHalt (s : State) : State :=
  sumUpd (faultnUpd (setMode mStandby (modSafe (fun x => { x with haltReq := false }) s)))

/-- Request 4, FAULT_ACK (R57, R58). -/
def reqAck (t : Nat) (s : State) : State :=
  if mode s = mBoot ∨ mode s = mSleep then reqDone 1 s
  else
    let (stay, s) := acknowledge (fun _ => true) (fun _ => 0xFFFF#16) t (ackUncertain (fun _ => true) s)
    match stay with
    | some _ => reqDone 3 s
    | none =>
      if mode s ≠ mHalt ∨ !(s.helm.latched.isEmpty) then reqDone 0 (modHelm (fun h => { h with pmInhibit := false }) s)
      else if sealOf s = 0 ∧ s.helm.pmDone ∧ fld (br s .sys 0x28) 0 10 = 0 then
        reqDone 0 (leaveHalt (modHelm (fun h => { h with pmInhibit := false }) s))
      else reqDone 2 (ev 0 0 0xA noAxis [0#32] s)

/-- Request 5, THAW of a master whose state is dumped (R60). -/
def reqThaw (s : State) : State :=
  let m := fld (pt s 1) 8 4
  if mode s = mBoot ∨ mode s = mSleep then reqDone 1 (ev 0 m 9 noAxis [] s)
  else if bit (br s .sys 0x28) (16 + m) then reqDone 0 (thawMaster m s)
  else reqDone 2 (ev 0 m 9 noAxis [] s)

/-- The Helm acts on the request in the MODE_REQ point; RESULT takes the first reason in the order of R41. -/
def takeReq (t : Nat) (s : State) : State :=
  match modeReq s with
  | 0 => s
  | r =>
    if 5 < r then reqDone 5 s
    else if s.helm.toStandby || s.helm.toSleep then reqDone 4 s
    else if r = 1 then reqStandby s
    else if r = 2 then reqRun t s
    else if r = 3 then reqSleep s
    else if r = 4 then reqAck t s
    else reqThaw s

/-- RUN is left once all axes are off; a lost owner leaves COMMISSION as it is (Table 2-4, R45). -/
def standbyDone (s : State) : State :=
  if s.helm.toStandby && allOff s then
    let s := modHelm (fun h => { h with toStandby := false }) s
    if mode s = mRun then setMode mStandby s else s
  else s

/-- A mode request of the given kind is acted on at a device boundary. -/
def atRequest (k : Nat → Bool) (t : Nat) (s : State) : State :=
  if helmOn s && isDevB s t && k (modeReq s) then standbyDone (takeReq t s) else s

/-- MODE_REQ STANDBY. -/
def execModeReqStandby (t : Nat) (s : State) : Host.Outcome State Fault Refusal := .next (atRequest (· == 1) t (atTime t s))
/-- MODE_REQ RUN. -/
def execModeReqRun (t : Nat) (s : State) : Host.Outcome State Fault Refusal := .next (atRequest (· == 2) t (atTime t s))
/-- MODE_REQ SLEEP. -/
def execModeReqSleep (t : Nat) (s : State) : Host.Outcome State Fault Refusal := .next (atRequest (· == 3) t (atTime t s))
/-- FAULT_ACK. -/
def execFaultAck (t : Nat) (s : State) : Host.Outcome State Fault Refusal := .next (atRequest (· == 4) t (atTime t s))
/-- THAW. -/
def execThaw (t : Nat) (s : State) : Host.Outcome State Fault Refusal := .next (atRequest (· == 5) t (atTime t s))
/-- An undefined request. -/
def execModeReqUndefined (t : Nat) (s : State) : Host.Outcome State Fault Refusal :=
  .next (atRequest (fun r => decide (5 < r)) t (atTime t s))

/-- RUN_RELEASE_WAVE: a waiting RUN request acts at the first device boundary of its release (15 R384). -/
def execRunReleaseWave (t : Nat) (s : State) : Host.Outcome State Fault Refusal :=
  let s := atTime t s
  .next (if s.helm.runWait && !(waveWaits s t) then atRequest (· == 2) t s else s)

/-! ### The owner timeout (R45) -/

/-- OWNER_LOST at level 1 on every axis, then STANDBY: once for each instant that the time runs from. -/
def ownerCheck (s : State) : State :=
  let tmo := fld (br s .sys 0x20) 24 8
  if tmo ≠ 0 ∧ (mode s = mRun ∨ mode s = mComm) ∧ s.helm.ownerFrom + tmo * 1000000 ≤ s.now ∧
      !s.helm.ownerOut then
    modHelm (fun h => { h with toStandby := true, ownerOut := true }) (raise 1 (mkCode 0 0 3) 0xFFFF#16 noAxis [] s)
  else s

/-- OWNER_LOST, at a multiple of 1 ms of ship time. -/
def execOwnerLost (t : Nat) (s : State) : Host.Outcome State Fault Refusal :=
  let s := atTime t s
  .next (if helmOn s && t % 1000000 == 0 then ownerCheck s else s)

/-! ### Fault dispatch (R50, R51, R59, R61; 14 R352) -/

/-- A level-2 fault removes torque on the groups of its axes. -/
def dispatch2 (axes : BitVec 16) (s : State) : State :=
  forEach allGroups (fun g s => if axes &&& grpMask g ≠ 0#16 ∧ !(bit (br s .pwm 0) (20 + g.val)) then groupOff g s else s) s

/-- HALT of a level-3 fault. In BOOT it ends BOOT: without a record for a frozen boot loader (Table 2-12). SEAL_CHANGE acts by R38. -/
def dispatch3 (code : BitVec 16) (s : State) : State :=
  if codeCls code = 0 ∧ codeNum code = 5 then s
  else if mode s = mBoot then bootHalt code (!(codeCls code == 3 && codeInst code == 9 && codeNum code == 0x10)) s
  else haltEntry code true s

/-- Q0LOST found set: QUE_FAULT_OVF (14 R352). -/
def q0Lost (s : State) : State :=
  if bit (br s .que 0) 0 && !(s.helm.latched.any (fun f => codeCls f.code == 4 && codeNum f.code == 7)) then raiseDev 3 4 0 7 [] s
  else s

/-- The response to a fault item of queue 0; one whose fault is acknowledged already has none. -/
def dispatch (w : Word) (s : State) : State :=
  match recOf s w with
  | some f => if f.level = 3 then dispatch3 f.code s else if f.level = 2 then dispatch2 f.axes s else s
  | none => s

/-- The Helm takes the next item of queue 0; err = what its check bits show. -/
def queue0Take (err : Nat) (s : State) : State :=
  let s := if (s.queues[(0 : Fin 64)]).nothing then s else
    match popItem 0 err s with
    | (.item w _, s) => dispatch w s
    | (.wait, s) => s
  let s := q0Lost (drainQ0 s)
  if s.helm.haltAfterRamps && !(allGroups.any (ss1On s)) then haltEntry (mkCode 0 (sealOf s) 5) true s else s

/-- HELM_QUEUE0_TAKE. -/
def execHelmQueue0Take (err : Fin 3) (t : Nat) (s : State) : Host.Outcome State Fault Refusal :=
  let s := atTime t s
  .next (if helmOn s then queue0Take err.val s else s)

/-! ### SAFE-STOP (R39, 18 R444) -/

/-- SS1_GRP of the MODE point, and SAFE-STOP where a ramp has started. -/
def safeStopSeen (s : State) : State :=
  let s := setPt s 0 (setFld (pt s 0) 12 4 (fld (br s .safe 0) 4 4))
  if allGroups.any (ss1On s) ∧ (mode s = mRun ∨ mode s = mComm) then setMode mSafeStop s else s

/-- SAFE_STOP_ENTRY: the Helm sees SAFE_STATUS.SS1. -/
def execSafeStopEntry (t : Nat) (s : State) : Host.Outcome State Fault Refusal :=
  let s := atTime t s
  .next (if helmOn s then safeStopSeen s else s)

/-- After the last ramp: HALT where a seal change is pending, else the mode left (Table 2-4). -/
def safeStopExit (t : Nat) (s : State) : State :=
  let s := safeStopSeen s
  if allGroups.any (ss1On s) then s
  else if s.helm.haltAfterRamps then haltEntry (mkCode 0 (sealOf s) 5) true s
  else if mode s = mSafeStop ∧ !(lvlStands 3 s) then enterOn (fld (pt s 0) 16 4) t s
  else s

/-! ### The device boundary (01 R562) -/

/-- What falls on a device boundary: the boundary actions of group 0 and of the stopped groups, the end of SAFE-STOP, mode
requests and transitions, the end of BOOT. -/
def deviceBoundary (t : Nat) (s : State) : State :=
  if isDevB s t then
    let s := forEach allGroups (fun g s => if g = 0 then watchBoundary g t s else if gOn s g then s else publish (stoppedWork g t s)) s
    if helmOn s then bootDone (standbyDone (takeReq t (safeStopExit t s))) else s
  else s

/-- DEVICE_BOUNDARY. -/
def execDeviceBoundary (t : Nat) (s : State) : Host.Outcome State Fault Refusal := .next (deviceBoundary t (atTime t s))

/-! ### The Logbook (spec 23) -/

/-- LOG_HEAD, LOG_OLDEST and LOG_STAT, registers and points. -/
def logHead (n : Nat) (s : State) : State :=
  let old := (br s .log 0x24).toNat
  let old := if n - old ≤ 262144 then old else n - 262144
  let wrap := bit (br s .log 0) 0 || decide (old ≠ 0)
  let s := bwBit (bw (bw s .log 0x20 (wd n)) .log 0x24 (wd old)) .log 0 0 wrap
  setPt (setPt (setPt s 64 (wd n)) 65 (wd old)) 70 (wd (fld (br s .log 0x28) 0 16 + 65536 * b2n wrap))

/-- An entry enters the ring as the next count (R551). -/
def logPut (ws : List Word) (s : State) : State :=
  let n := (br s .log 0x20).toNat
  logHead (n + 1) (writeWords s (0x40000000 + 32 * (n % 262144)) ws)

/-- The three words of an accumulator. -/
def accWords (a : BitVec 72) : List Word := [wd a.toNat, wd (a.toNat / 2 ^ 32), wd (a.toNat / 2 ^ 64)]

/-- State words of a cluster in the order of R553, one register a word. -/
def cluDump (g : Fin 4) (s : State) : List Word :=
  let c := s.clu[g]
  [sxPc s g, stWord c, sxFrame c 0, sxFrame c 1, sxFrame c 2] ++ c.s.toList ++
  (c.p.toList ++ c.m.toList ++ c.b.toList ++ c.l.toList).map (fun x => wd x.toNat) ++
  (c.lc.toList ++ c.ls.toList ++ c.le.toList).map wd ++ [wd c.rrb] ++
  (c.lanes.toList.flatMap fun l => l.x.toList ++ l.a.toList.flatMap accWords)

/-- State words of master m: a cluster, or the four words of a mover. -/
def dumpWords (m : Nat) (s : State) : List Word :=
  if 1 ≤ m ∧ m ≤ 4 then cluDump ⟨(m - 1) % 4, Nat.mod_lt _ (by decide)⟩ s
  else
    let (a, pos, k) := ((s.helm.frozenXfer.find? (fun x => x.1 == m)).map (·.2)).getD (0, 0xFFFFFFFF, 0)
    [wd a, wd pos, wd k, ir s .prot m 0x284]

/-- Groups of four words, the last filled with 0. -/
def fours : Nat → List Word → List (List Word)
  | 0, _ => []
  | _, [] => []
  | k + 1, ws => (ws.take 4 ++ List.replicate (4 - (ws.take 4).length) 0#32) :: fours k (ws.drop 4)

/-- The continuation entries of a dump follow the entry with words w0 to w2 (R553). -/
def logDump (w0 w1 w2 : Word) (ws : List Word) (s : State) : State :=
  let parts := fours ws.length ws
  let w2 := setFld w2 24 8 0xFE
  forEach (parts.zipIdx) (fun p s => logPut ([w0, w1, w2, wd (p.2 + 1 + 65536 * parts.length)] ++ p.1) s) s

/-- What follows an entry: the dump of a frozen master with its DUMPED bit (02 R60), or of a halted cluster (11 R294). -/
def logFollow (ws : List Word) (s : State) : State :=
  let w2 := ws.getD 2 0#32
  let code := BitVec.ofNat 16 (fld w2 0 16)
  let m := codeInst code
  let put := logDump (ws.getD 0 0#32) (ws.getD 1 0#32) w2
  if codeCls code = 3 ∧ codeNum code = 0x10 ∧ 1 ≤ m ∧ m ≤ 9 ∧ frozen s m ∧ !(bit (br s .sys 0x28) (16 + m)) then
    let d := dumpWords m s
    let s := put d s
    let s := modHelm (fun h => { h with dumps := (m, d) :: h.dumps.filter (fun x => x.1 != m) }) s
    let s := bwBit s .sys 0x28 (16 + m) true
    setPt s 13 (br s .sys 0x28)
  else if codeCls code = 6 ∧ 0x10 ≤ codeNum code ∧ codeNum code ≤ 0x13 then
    put (cluDump ⟨m % 4, Nat.mod_lt _ (by decide)⟩ s) s
  else s

/-- The Helm writes the next packet of queue 2 into the Logbook, byte 10 = MODE (R552); a packet whose word proves uncorrectable is
lost (R554). -/
def logEntry (err : Nat) (s : State) : State :=
  if (s.queues[(2 : Fin 64)]).nothing then s
  else
    let s := if err = 2 then logHead (br s .log 0x20).toNat (bwSat s .log 0x28 0 16) else s
    match popWhole 2 err 257 s with
    | none => s
    | some (ws, s) =>
      let ws := ws.set 2 (setFld (ws.getD 2 0#32) 16 8 (mode s))
      logFollow ws (logPut ws s)

/-- LOG_ENTRY_WRITE: err = what the check bits of the packet's first item show. -/
def execLogEntryWrite (err : Fin 3) (t : Nat) (s : State) : Host.Outcome State Fault Refusal :=
  let s := atTime t s
  .next (if helmOn s then logEntry err.val s else s)

/-- The Logbook words of entry n. -/
def entryWords (s : State) (n : Nat) : List Word :=
  (List.range 8).map fun k => readWord s (0x40000000 + 32 * (n % 262144) + 4 * k)

/-- The request breaks the conditions of R557. -/
def logReqBad (s : State) (count dest base : Nat) : Bool :=
  dest == 3 ||
  (dest == 2 && (base % 2 == 1 || decide (base < 8192 ∨ 131072 ≤ base + 8 * count) ||
    (List.range (8 * count + 1)).any fun k => let w := fld (attr s (base + k)) 4 2; w != 0 && w != 2)) ||
  (dest == 1 && decide (mboxBytes s < 4 * (1 + 8 * count + 2)))

/-- Delivery of the entries from idx on (R557). -/
def logDeliver (dest base idx n seq : Nat) (s : State) : State :=
  let es := (List.range n).flatMap fun k => entryWords s (idx + k)
  if dest = 0 then forEach (es.zipIdx) (fun x s => setPt s (72 + x.2) x.1) s
  else if dest = 1 then pushWhole 6 0 0 (wd (65536 * (1 + 8 * n)) :: wd idx :: es) s
  else
    let s := forEach (es.zipIdx) (fun x s => chartWrite 0 (base + 1 + x.2) x.1 false (noXfer 0) s) (chartWrite 0 base (wd ((seq + 65535) % 65536)) false (noXfer 0) s)
    chartWrite 0 base (wd seq) false (noXfer 0) s

/-- The Helm answers a request (R556): RESULT and entries delivered; RSEQ goes on by 2 with every response; COUNT = 0. -/
def logRequest (s : State) : State :=
  let w := pt s 67
  let count := fld w 0 3
  if count = 0 then s
  else
    let dest := fld w 3 2
    let base := fld w 15 17
    let idx := (pt s 66).toNat
    let head := (br s .log 0x20).toNat
    let seq := ((pt s 69).toNat + 2) % 65536
    let n := min (if dest = 0 then 1 else count) (head - idx)
    let res := if logReqBad s count dest base then 3 else if idx < (br s .log 0x24).toNat then 1 else if head ≤ idx then 2 else 0
    let s := setPt (if res = 0 then logDeliver dest base idx n seq s else s) 69 (wd seq)
    setPt (setPt s 68 (wd (res + 16 * (if res = 0 then n else 0) + 65536 * seq))) 67 (setFld w 0 3 0)

/-- LOG_REQUEST. -/
def execLogRequest (t : Nat) (s : State) : Host.Outcome State Fault Refusal :=
  let s := atTime t s
  .next (if helmOn s then logRequest s else s)

/-! ### The 1 ms update -/

/-- A register as it reads. -/
def asRead (s : State) (a : Nat) : Word := (regRead 0 a s).1

/-- Points and the addresses of the registers they copy (13 Table 13-5; 15 Table 15-11; 16 Table 16-6; 18 Table 18-11;
20 Table 20-7; 23 Table 23-3). -/
def mirrors : List (Nat × Nat) :=
  let b := fun (p : Nat) (k : Blk) (o : Nat) => (p, bAddr k o)
  let i := fun (p : Nat) (k : Blk) (n o : Nat) => (p, iAddr k n o)
  [b 8 .safe 0x20, b 9 .safe 0x24, b 13 .sys 0x28, b 14 .sys 0x24,
   b 40 .pmu 0, b 43 .pmu 0x24, b 44 .pmu 0x20, b 45 .pmu 0x3C, b 46 .chron 0,
   b 80 .prot 0x20, b 81 .prot 0x24, b 82 .prot 0x28, b 83 .prot 0x40, b 84 .prot 0x44, b 85 .que 0, b 87 .fio 0x38,
   b 88 .prof 0x28, b 89 .prof 4, b 90 .loop 0x24, b 107 .safe 0x30, b 108 .safe 0x60, b 109 .boot 0x50, b 110 .pmu 0x3C,
   b 4608 .can0 0, b 4609 .can0 4, b 4610 .can0 0x20, b 4611 .can0 0x24, b 4612 .can0 0x28,
   b 4736 .can1 0, b 4737 .can1 4, b 4738 .can1 0x20, b 4739 .can1 0x24, b 4740 .can1 0x28,
   b 4864 .ring 0, b 4865 .ring 0x20, b 4866 .ring 0x24, b 4867 .ring 0x28, b 4868 .ring 0x30, b 4869 .ring 0x34,
   b 5888 .safe 0, b 5889 .safe 4, b 5894 .safe 0x28] ++
  ((List.range 16).map fun n => i (91 + n) .loop n 0x280) ++ ((List.range 16).map fun n => i (112 + n) .enc n 0x298) ++
  ((List.range 128).map fun w => b (5896 + w) .safe (0x400 + 4 * w))

/-- The Helm writes the copies; the drive-link counter reads 0 without a drive die; a disabled housekeeping channel's point reads 0
(07 R186). -/
def mirrorPoints (s : State) : State :=
  let s := forEach mirrors (fun x s => setPt s x.1 (asRead s x.2)) s
  let s := setPt s 86 (if hasDrive s then asRead s (bAddr .drv 0x24) else 0#32)
  let s := setPt s 47 (BitVec.ofInt 32 (sext 16 (fld (br s .chron 0x34) 0 16)))
  let s := forEach (List.finRange 24) (fun c s => setPt s (16 + c.val) (if hkOn s c then ir s .hk c.val 0x244 else 0#32)) s
  let s := match s.pwmG[(0 : Fin 4)].lastWb with | some t => setPt64 s 4 t | none => s
  setPt (fioPoints s) 5893 s.safe.res

/-- Point 15: corrected errors of the last whole second, and any uncorrectable error since reset (13 Table 13-5). -/
def eccPoint (s : State) : State :=
  let s := if s.now % 1000000000 = 0 then modHelm (fun h => { h with corrMark := h.corrSec, corrSec := 0 }) s else s
  setPt s 15 (wd (min s.helm.corrMark 255 + 256 * b2n ((List.range 3).any fun k => fld (br s .prot (0x20 + 4 * k)) 16 8 != 0)))

/-- Requests to the safety island (18 R450, R465): passed, and their one-shot bits cleared. -/
def passSafety (s : State) : State :=
  let c := pt s 5890
  let s := if bit c 0 || bit c 1 then setPt (modSafe (fun x => { x with cmd := c }) s) 5890 (c &&& 0xFFFFFFFC#32) else s
  let e := pt s 5891
  if bit e 8 || bit e 9 then setPt (modSafe (fun x => { x with edit := some (e, pt s 5892) }) s) 5891 (e &&& 0xFFFFFCFF#32) else s

/-- BOREC of the CMD point of a controller (16 R406). -/
def passBorec (c : Fin 2) (s : State) : State :=
  let p := 4608 + 128 * c.val + 5
  if bit (pt s p) 0 then setPt (borec c s) p (pt s p &&& 0xFFFFFFFE#32) else s

/-- The packet next in queue 7 is an update message of the ring master (19 R482). -/
def mailUpd (s : State) : Bool :=
  let x := s.queues[(7 : Fin 64)]
  let p := x.pkts.headD []
  ownerRing s && x.rest.isEmpty && decide (2 ≤ p.length) && fld (headItem p).word 0 12 == 0 &&
    (let op := fld ((p.map (·.word)).getD 1 0#32) 0 8; decide (1 ≤ op ∧ op ≤ 4))

/-- The Helm takes update messages from the head of queue 7. -/
def takeMails : Nat → State → State
  | 0, s => s
  | k + 1, s =>
    if mailUpd s then
      match popWhole 7 0 257 s with
      | some (_ :: ws, s) => takeMails k (updMsg ws s)
      | _ => s
    else s

/-- The Helm's work at each 1 ms: the watchdog kick, requests passed on, the copies, the owner's time, update messages and the
Logbook request. -/
def helm1ms (s : State) : State :=
  let s := modSafe (fun x => { x with kick := x.cyc }) s
  let s := forEach (List.finRange 2) passBorec (passSafety s)
  let s := eccPoint (mirrorPoints s)
  logRequest (takeMails 64 (ownerCheck s))

/-- HELM_1MS_UPDATE, at a multiple of 1 ms of ship time. -/
def execHelm1msUpdate (t : Nat) (s : State) : Host.Outcome State Fault Refusal :=
  let s := atTime t s
  .next (if helmOn s && t % 1000000 == 0 then helm1ms s else s)

end Sys2Proof.Machine
end

