-- ==== Sys2Proof/Machine/Power.lean ====
section
/-!
DEFINITION. Supply, reset, SLEEP and wake (spec 20 R491 to R501, R508; 15 R385), reference and DPLLs (R495, R496), TESTEN and the
test access port (21 R524 to R529).
-/
namespace Sys2Proof.Machine

/-- Change the always-on domain. -/
def modPwr (f : Power → Power) (s : State) : State := { s with pwr := f s.pwr }
/-- Change straps and test access port. -/
def modPins (f : Pins → Pins) (s : State) : State := { s with pins := f s.pins }

/-- Record bits in PMU_RESETCAUSE. -/
def cause (v : Word) (s : State) : State := bw s .pmu 0x30 (br s .pmu 0x30 ||| v)

/-- Record a rail in PMU_RESETCAUSE.RAIL. -/
def causeRail (i r : Nat) (s : State) : State := bw s .pmu 0x30 (setFld (setBit (br s .pmu 0x30) i true) 6 3 r)

/-! ### Supply and rails (R491 to R494) -/

/-- Every rail is good; RESETN is still low (Table 20-2). -/
def railsUp (s : State) : State := bw (modPwr (fun p => { p with up := true }) s) .pmu 0 0x1F#32

/-- The test access port as a power-up leaves it: Test-Logic-Reset, which loads IDCODE (21 R527). -/
def tapOff (s : State) : State := modPins (fun p => { p with ir := 1, preload := [], captured := [], dr := 0#32, tapHold := false }) s

/-- Every rail but the always-on rail is off; all state outside the always-on domain is lost (R494). -/
def railsDown (s : State) : State := bw (modPwr (fun p => { p with up := false }) (tapOff (resetState false s))) .pmu 0 1#32

/-- POWER_UP: VSUP rises above 8.6 V. -/
def execPowerUp (s : State) : Host.Outcome State Fault Refusal :=
  .next (if s.pwr.up then s
    else railsUp (bw (cause 1#32 (modPwr (fun p => { p with dead := false, fails := 0, ovp := false }) s)) .pmu 0x3C 0#32))

/-- RAIL_TMO: a rail, numbered as PGOOD, is not good within 2 ms; after three failed sequences in a row the PMU stays off (R493). -/
def execRailTmo (r : Fin 5) (s : State) : Host.Outcome State Fault Refusal :=
  .next (if s.pwr.up ∧ inReset s then
      causeRail 5 r.val (railsDown (modPwr (fun p => { p with fails := p.fails + 1, dead := decide (2 ≤ p.fails) }) s))
    else s)

/-- RAIL_SEQUENCE_RESTART (R493). -/
def execRailSequenceRestart (s : State) : Host.Outcome State Fault Refusal :=
  .next (if s.pwr.up ∨ s.pwr.dead ∨ s.pwr.ovp then s else railsUp s)

/-- BROWNOUT: cause 0 VSUP, 1 a rail, 2 VSUP above 40 V (R491, R494). It prevails over everything (R508). -/
def brownout (c r : Nat) (s : State) : State :=
  let s := if s.pwr.up then railsDown (modPwr (fun p => { p with browned := true }) s) else s
  if c = 0 then cause 4#32 s
  else if c = 1 then causeRail 3 r s
  else bwBit (cause 16#32 (modPwr (fun p => { p with ovp := true }) s)) .pmu 0 6 true

/-- BROWNOUT. -/
def execBrownout (c : Fin 3) (r : Fin 5) (s : State) : Host.Outcome State Fault Refusal := .next (brownout c.val r.val s)

/-- OVP_RELEASE: VSUP is back below 38 V, and the sequence runs (R491). -/
def execOvpRelease (s : State) : Host.Outcome State Fault Refusal :=
  .next (if s.pwr.ovp then
      let s := bwBit (modPwr (fun p => { p with ovp := false }) s) .pmu 0 6 false
      if s.pwr.dead then s else railsUp s
    else s)

/-- RESETN_EXTERNAL_LOW: a cold reset (R493, R501). -/
def execResetnExternalLow (s : State) : Host.Outcome State Fault Refusal :=
  .next (if s.pwr.up then cause 2#32 (modPwr (fun p => { p with resetLow := true }) (resetState false s)) else s)

/-! ### SLEEP and wake (R500, R501; 15 R385; 16 R409) -/

/-- Entry ends: the ring address is stored, transceivers in standby, links, dies and outputs off, STO on every group, MODE = SLEEP
(R500, Table 20-3; 10 R264). -/
def sleepEnter (s : State) : State :=
  let s := modPwr (fun p => { p with sleepFrom := none, ringAddr := if ringUp s then some (ownAddr s) else none }) s
  let s := bwBit (modHelm (fun h => { h with toSleep := false }) s) .pmu 0 5 false
  let s := stoDecide (setMode mSleep s)
  let s := modDrv (fun d => { d with locked := false, enabled := false, rbOn := false, rbPend := false }) s
  let s := bwBit (bwBit (bwBit s .drv 0 0 false) .drv 0 5 false) .drv 0 6 false
  let s := modFio (fun f => { f with outs := Vector.replicate 16 0, want := 0#16, silent := true }) (bwBit s .fio 0 0 false)
  let s := modRing (fun r => { r with stage := 0 }) (ringBit 0 false s)
  sdmSleep { s with pinsLow := true }

/-- SLEEP_ENTERED. -/
def execSleepEntered (t : Nat) (s : State) : Host.Outcome State Fault Refusal :=
  let s := atTime t s
  .next (if s.helm.toSleep ∧ mode s = mStandby then sleepEnter s else s)

/-- Wake sources are armed from the start of SLEEP entry (R501). -/
def wakeArmed (s : State) : Bool := s.pwr.sleepFrom.isSome || mode s == mSleep

/-- A wake event: the first is recorded; a ring wake of a member waits for its step of the stagger (15 R385). -/
def wake (src t : Nat) (s : State) : State :=
  if !(wakeArmed s) ∨ s.pwr.woken ≠ 0 then s
  else
    let a := if mode s = mSleep then s.pwr.ringAddr else if ringUp s then some (ownAddr s) else none
    let d := a.getD 0 * s.ring.step * 10000
    modPwr (fun p => { p with woken := 2 ^ src, wakeStep := if src = 3 ∧ d ≠ 0 then some (t + d) else none }) s

/-- WAKE_PIN: the ball has stood at a level for some ns. It wakes at its active level PINPOL once held for PINFLT × 10 µs, with PINEN set
(R501). -/
def execWakePin (level : Bool) (held t : Nat) (s : State) : Host.Outcome State Fault Refusal :=
  let s := atTime t s
  let w := br s .pmu 0x34
  .next (if bit w 0 && (level != bit w 1) && decide (fld w 8 8 * 10000 ≤ held) then wake 0 t s else s)

/-- CAN_WAKE: CANn_RX has been held low for some ns, which wakes from WFLT µs on with WFLT ≠ 0 (16 R409). -/
def execCanWake (c : Fin 2) (held t : Nat) (s : State) : Host.Outcome State Fault Refusal :=
  let s := atTime t s
  let w := fld (br s (cb c) 0x40) 0 8
  .next (if w ≠ 0 ∧ w * 1000 ≤ held then wake (1 + c.val) t s else s)

/-- RING_WAKE_PATTERN. -/
def execRingWakePattern (t : Nat) (s : State) : Host.Outcome State Fault Refusal :=
  let s := atTime t s
  .next (if bit (br s .pmu 0x34) 2 then wake 3 t s else s)

/-- WAKE_STEP_ELAPSED: the stagger has run. -/
def execWakeStepElapsed (t : Nat) (s : State) : Host.Outcome State Fault Refusal :=
  let s := atTime t s
  .next (match s.pwr.wakeStep with
    | some u => if u ≤ t then modPwr (fun p => { p with wakeStep := none }) s else s
    | none => s)

/-! ### Reference and DPLLs (R495, R496, R508) -/

/-- The clocks run: out of reset and not in SLEEP. -/
def clocksRun (s : State) : Bool := s.pwr.up && !(inReset s) && mode s != mSleep

/-- REFCLK_LOST: not reported during SLEEP entry. -/
def execRefclkLost (t : Nat) (s : State) : Host.Outcome State Fault Refusal :=
  let s := atTime t s
  .next (if clocksRun s ∧ !s.helm.toSleep ∧ bit (br s .chron 0) 9 then raiseDev 3 1 0 2 [] (bwBit s .chron 0 9 false) else s)

/-- DPLL_UNLOCK of an island while its reference is present. -/
def execDpllUnlock (i : Fin 9) (t : Nat) (s : State) : Host.Outcome State Fault Refusal :=
  let s := atTime t s
  .next (if clocksRun s ∧ bit (br s .chron 0) 9 ∧ bit (br s .chron 0) i.val then raiseDev 3 1 i.val 3 [] (bwBit s .chron 0 i.val false) else s)

/-! ### TESTEN (21 R525) -/

/-- TESTEN_HIGH: the controller holds itself in reset. -/
def execTestenHigh (s : State) : Host.Outcome State Fault Refusal :=
  .next (let s := modPins (fun p => { p with testen := true }) s
    if s.pwr.up then resetState false s else s)

/-- TESTEN_RELEASE: TESTEN has read 0 for 1 ms. -/
def execTestenRelease (s : State) : Host.Outcome State Fault Refusal := .next (modPins (fun p => { p with testen := false }) s)

/-! ### The test access port (21 R527 to R529) -/

/-- IDCODE. -/
def idcode (s : State) : Word :=
  wd (1 + 2 * Config.jtagMaker.toNat + 2 ^ 12 * (if hasDrive s then 0x1604 else 0x1600) + 2 ^ 28 * fld (br s .sys 0) 12 3)

/-- The TAP takes an instruction; BOOT that was held off starts once EXTEST, CLAMP and HIGHZ are left (R529). -/
def tapLoad (ir : Nat) (dr : Word) (s : State) : State :=
  let s := modPins (fun p => { p with ir := ir, dr := dr }) s
  if s.pins.tapHold ∧ !(tapDrives s) then
    let s := modPins (fun p => { p with tapHold := false }) s
    match s.boot.view with
    | some v => if mayRelease s then startBoot v s else s
    | none => s
  else s

/-- An instruction that acts only while RESETN is held low, else as BYPASS (R529). -/
def tapDrive (ir : Nat) (s : State) : State := tapLoad (if inReset s then ir else 0xF) 0#32 s

/-- EXTEST: while it acts, the cells given drive their balls. -/
def execExtest (cells : List Bool) (s : State) : Host.Outcome State Fault Refusal :=
  .next (tapDrive 0 (if inReset s then modPins (fun p => { p with preload := cells }) s else s))
/-- CLAMP: the preloaded cells drive their balls. -/
def execClamp (s : State) : Host.Outcome State Fault Refusal := .next (tapDrive 3 s)
/-- HIGHZ. -/
def execHighz (s : State) : Host.Outcome State Fault Refusal := .next (tapDrive 4 s)
/-- IDCODE. -/
def execIdcode (s : State) : Host.Outcome State Fault Refusal := .next (tapLoad 1 (idcode s) s)
/-- SAMPLE/PRELOAD: what the cells see is captured, the next drive values are loaded. -/
def execSamplePreload (cap cells : List Bool) (s : State) : Host.Outcome State Fault Refusal :=
  .next (tapLoad 2 0#32 (modPins (fun p => { p with captured := cap, preload := cells }) s))
/-- BYPASS: a one-bit register that captures 0. -/
def execBypass (s : State) : Host.Outcome State Fault Refusal := .next (tapLoad 0xF 0#32 s)
/-- TEST_LOGIC_RESET loads IDCODE. -/
def execTestLogicReset (s : State) : Host.Outcome State Fault Refusal := .next (tapLoad 1 (idcode s) s)

end Sys2Proof.Machine
end

