-- ==== Sys2Proof/Machine/Operands.lean ====
section
/-!
DEFINITION. Operands of a Sextant word: rotating registers (spec 11 R274), lane and scalar registers, special registers (12 R305), and the
addresses of the move slots with their post-modify (11 R279, R283; 12 R307).
-/
namespace Sys2Proof.Machine

/-! ### Registers -/

/-- Physical number of a logical X register (R274). -/
def physX (rrb : Nat) (n : Fin 32) : Fin 32 := if n.val < 16 then n else Fin.ofNat 32 (16 + (n.val - 16 + rrb) % 16)

/-- Logical X register of a lane. -/
def Cluster.xr (c : Cluster) (n : Fin 32) (l : Fin 4) : Word := c.lanes[l].x[physX c.rrb n]
/-- Put a logical X register of a lane, under the mapping of the word. -/
def Cluster.putXr (rrb : Nat) (n : Fin 32) (l : Fin 4) (v : Word) (c : Cluster) : Cluster :=
  { c with lanes := c.lanes.set l.val { c.lanes[l] with x := c.lanes[l].x.set (physX rrb n).val v } }
/-- Accumulator of a lane. -/
def Cluster.accOf (c : Cluster) (n : Nat) (l : Fin 4) : BitVec 72 := c.lanes[l].a[(Fin.ofNat 4 n : Fin 4)]
/-- Put an accumulator of a lane. -/
def Cluster.putAcc (n : Nat) (l : Fin 4) (v : BitVec 72) (c : Cluster) : Cluster :=
  { c with lanes := c.lanes.set l.val { c.lanes[l] with a := c.lanes[l].a.set (Fin.ofNat 4 n : Fin 4).val v } }
/-- Scalar register. -/
def Cluster.sr (c : Cluster) (n : Nat) : Word := c.s[(Fin.ofNat 16 n : Fin 16)]
/-- Put a scalar register. -/
def Cluster.putSr (n : Nat) (v : Word) (c : Cluster) : Cluster := { c with s := c.s.set (Fin.ofNat 16 n : Fin 16).val v }
/-- LF of a lane (Table 11-4). -/
def Cluster.lf (c : Cluster) (l : Fin 4) : Bool := bit c.st (4 + l.val)

/-- An operation over the four lanes. -/
def overLanes (f : Fin 4 → Cluster → Cluster) (c : Cluster) : Cluster := allGroups.foldl (fun c l => f l c) c

/-! ### Special registers (Table 12-4) -/

/-- The RW fields of ST. -/
def stMask : Word := 0x13FF#32

/-- A special register as SRD reads it. -/
def Cluster.spRead (c : Cluster) (n : Nat) : Word :=
  let i : Fin 8 := Fin.ofNat 8 n
  if n < 0x08 then wd c.p[i].toNat
  else if n < 0x10 then BitVec.ofInt 32 c.m[i].toInt
  else if n < 0x18 then wd c.b[i].toNat
  else if n < 0x20 then wd c.l[i].toNat
  else match n with
    | 0x20 => c.st
    | 0x21 => wd c.rrb
    | 0x22 => c.tix
    | 0x23 => wd c.lc[(0 : Fin 2)]
    | 0x24 => wd c.ls[(0 : Fin 2)]
    | 0x25 => wd c.le[(0 : Fin 2)]
    | 0x26 => wd c.lc[(1 : Fin 2)]
    | 0x27 => wd c.ls[(1 : Fin 2)]
    | 0x28 => wd c.le[(1 : Fin 2)]
    | _ => wd c.qsb

/-- A special register as SWR and SWRI write it. -/
def Cluster.spWrite (n : Nat) (v : Word) (c : Cluster) : Cluster :=
  let i : Fin 8 := Fin.ofNat 8 n
  let h := BitVec.ofNat 16 v.toNat
  let a := fld v 0 13
  if n < 0x08 then { c with p := c.p.set i.val h }
  else if n < 0x10 then { c with m := c.m.set i.val h }
  else if n < 0x18 then { c with b := c.b.set i.val h }
  else if n < 0x20 then { c with l := c.l.set i.val h }
  else match n with
    | 0x20 => { c with st := (c.st &&& ~~~ stMask) ||| (v &&& stMask) }
    | 0x21 => { c with rrb := fld v 0 4 }
    | 0x23 => { c with lc := c.lc.set 0 (fld v 0 16) }
    | 0x24 => { c with ls := c.ls.set 0 a }
    | 0x25 => { c with le := c.le.set 0 a }
    | 0x26 => { c with lc := c.lc.set 1 (fld v 0 16) }
    | 0x27 => { c with ls := c.ls.set 1 a }
    | 0x28 => { c with le := c.le.set 1 a }
    | 0x29 => { c with qsb := fld v 0 4 }
    | _ => c

/-! ### Addresses (R279, R283, R307) -/

/-- A vector access (R279). -/
def memVector : MemK → Bool
  | .ldv | .stv | .stav => true
  | _ => false

/-- The indexed form: IX = 1 of LDS or STS. -/
def memIndexed (m : MemOp) : Bool := (m.k == .lds || m.k == .sts) && m.lf.val == 1

/-- The address that a memory operation forms. -/
def memAddr (c : Cluster) (m : MemOp) : Nat :=
  if memIndexed m then (c.p[m.p].toNat + (c.sr m.idx.val).toNat) % 65536 else c.p[m.p].toNat

/-- The step of a pointer P by M in a buffer at B of length L (R283). -/
def stepPtr (p m b l : BitVec 16) : BitVec 16 :=
  if l = 0#16 then p + m
  else
    let k : Int := (p.toNat : Int) - b.toNat + m.toInt
    BitVec.ofInt 16 (b.toNat + k % (l.toNat : Int))

/-- The post-modify of pointer n: the modifiers are those the word read, the pointer is the one an earlier slot of the word left. -/
def postMod (c0 : Cluster) (n : Option Nat) (c : Cluster) : Cluster :=
  match n with
  | some n =>
    let i : Fin 8 := Fin.ofNat 8 n
    { c with p := c.p.set i.val (stepPtr c.p[i] c0.m[i] c0.b[i] c0.l[i]) }
  | none => c

/-- A vector access breaks R279: P, and with L ≠ 0 also B and L, are multiples of 4. -/
def memMisaligned (c : Cluster) (m : MemOp) : Bool :=
  memVector m.k && (c.p[m.p].toNat % 4 != 0 || (c.l[m.p] != 0#16 && (c.b[m.p].toNat % 4 != 0 || c.l[m.p].toNat % 4 != 0)))

/-- An address of 16,384 or more. -/
def memBeyond (c : Cluster) (m : MemOp) : Bool := decide (16384 ≤ memAddr c m)

end Sys2Proof.Machine
end

