-- ==== Sys2Proof/Machine/Flags.lean ====
section
/-!
DEFINITION. Flags of the Sextant status register ST (spec 11 Table 11-4; 12 R304, R313): the scalar flags Z N C V, the sticky flags AV and
SV, saturation, and the branch conditions.
-/
namespace Sys2Proof.Machine

/-- Z and N of a result. -/
def flagZN (st v : Word) : Word := setBit (setBit st 0 (v == 0#32)) 1 (bit v 31)
/-- Z, N, C and V. -/
def flagZNCV (st v : Word) (c o : Bool) : Word := setBit (setBit (flagZN st v) 2 c) 3 o

/-- Carry out of bit 31 of a sum. -/
def carryAdd (a b : Word) : Bool := decide (2 ^ 32 ≤ a.toNat + b.toNat)
/-- Signed overflow of an exact result. -/
def overflow (x : Int) : Bool := decide (x < -(2 : Int) ^ 31 ∨ (2 : Int) ^ 31 ≤ x)
/-- C of a subtraction: the inverse of the borrow. -/
def carrySub (a b : Word) : Bool := decide (b.toNat ≤ a.toNat)

/-- Flags of a sum. -/
def flagsAdd (st a b : Word) : Word := flagZNCV st (a + b) (carryAdd a b) (overflow (a.toInt + b.toInt))
/-- Flags of a difference. -/
def flagsSub (st a b : Word) : Word := flagZNCV st (a - b) (carrySub a b) (overflow (a.toInt - b.toInt))

/-- Shift result and flags: C = the last bit shifted out, unchanged for a count of 0 (R304). -/
def flagsShift (st v : Word) (n : Nat) (last : Bool) : Word := let st := flagZN st v; if n = 0 then st else setBit st 2 last

/-- Set AV or SV where a limit was held. -/
def sticky (i : Nat) (hit : Bool) (c : Cluster) : Cluster := if hit then { c with st := setBit c.st i true } else c

/-- A value held to n signed bits, and whether it was outside. -/
def holdBits (n : Nat) (x : Int) : Int × Bool :=
  let y := iclamp (-(2 : Int) ^ (n - 1)) ((2 : Int) ^ (n - 1) - 1) x
  (y, x != y)

/-- Branch conditions (Table 12-7); 15 is undefined. -/
def condTrue (st : Word) (cond : Nat) : Bool :=
  let z := bit st 0; let n := bit st 1; let c := bit st 2; let v := bit st 3
  let lf := fld st 4 4
  match cond with
  | 0 => true
  | 1 => z
  | 2 => !z
  | 3 => n
  | 4 => !n
  | 5 => c
  | 6 => !c
  | 7 => v
  | 8 => n != v
  | 9 => n == v
  | 10 => z || n != v
  | 11 => !z && n == v
  | 12 => lf != 0
  | 13 => lf == 15
  | 14 => lf == 0
  | _ => false

end Sys2Proof.Machine
end

