-- ==== Sys2Proof/Machine/SxAlu.lean ====
section
/-!
DEFINITION. The arithmetic slot of a Sextant word (spec 11 R275 to R277; 12 R300 to R305): lane operations in the three formats,
accumulators, conversions, and the scalar unit.
-/
namespace Sys2Proof.Machine

/-! ### Formats (R275) -/

/-- High half of a dual Q1.15 word. -/
def hiHalf (w : Word) : Int := sext 16 (fld w 16 16)
/-- Low half. -/
def loHalf (w : Word) : Int := sext 16 (fld w 0 16)
/-- A word of two halves. -/
def halves (h l : Int) : Word := wd ((h % 65536).toNat * 65536 + (l % 65536).toNat)
/-- High half of an accumulator in dual layout. -/
def accHi (a : BitVec 72) : Int := sext 36 (a.toNat / 2 ^ 36)
/-- Low half. -/
def accLo (a : BitVec 72) : Int := sext 36 a.toNat
/-- An accumulator of two halves. -/
def accHalves (h l : Int) : BitVec 72 := BitVec.ofNat 72 ((h % (2 : Int) ^ 36).toNat * 2 ^ 36 + (l % (2 : Int) ^ 36).toNat)

/-- A word operation that saturates in FMT 0 and 1 and wraps in FMT 2 (R301). -/
def satOp (fmt : Nat) (f : Int → Int → Int) (a b : Word) : Word :=
  if fmt = 1 then halves (holdBits 16 (f (hiHalf a) (hiHalf b))).1 (holdBits 16 (f (loHalf a) (loHalf b))).1
  else if fmt = 0 then BitVec.ofInt 32 (sat32 (f a.toInt b.toInt))
  else BitVec.ofInt 32 (f a.toInt b.toInt)

/-- What compares, MAX and MIN act on: in FMT 1 the high halves. -/
def cmpVal (fmt : Nat) (a : Word) : Int := if fmt = 1 then hiHalf a else a.toInt

/-- MAX or MIN; on equal keys of different words (FMT 1) which word is copied is open: tie. -/
def pick (fmt : Nat) (max tie : Bool) (a b : Word) : Word :=
  let x := cmpVal fmt a
  let y := cmpVal fmt b
  if x = y then (if tie then a else b)
  else if decide (y < x) = max then a else b

/-- Shift left, logical right and arithmetic right by n; in FMT 1 each half by n mod 16. -/
def shiftOp (k : LaneK) (fmt n : Nat) (a : Word) : Word :=
  if fmt = 1 then
    let m := n % 16
    let h := fld a 16 16
    let l := fld a 0 16
    match k with
    | .lsl => halves (h * 2 ^ m : Nat) (l * 2 ^ m : Nat)
    | .lsr => halves (h / 2 ^ m : Nat) (l / 2 ^ m : Nat)
    | _ => halves (hiHalf a / (2 : Int) ^ m) (loHalf a / (2 : Int) ^ m)
  else match k with
    | .lsl => a <<< n
    | .lsr => a >>> n
    | _ => a.sshiftRight n

/-! ### Accumulators (R275 to R277, R302) -/

/-- An accumulator's value in FMT 0 or 2. -/
def accVal (a : BitVec 72) : Int := a.toInt

/-- The result of an accumulator operation: held to 72 bits, or each half to 36, and whether a limit was held (R276). -/
def accHold (fmt : Nat) (v h l : Int) : BitVec 72 × Bool :=
  if fmt = 1 then
    let x := holdBits 36 h
    let y := holdBits 36 l
    (accHalves x.1 y.1, x.2 || y.2)
  else let x := holdBits 72 v; (BitVec.ofInt 72 x.1, x.2)

/-- The product of two registers in accumulator layout: value, high half, low half (R275). -/
def product (fmt : Nat) (a b : Word) : Int × Int × Int :=
  ((if fmt = 0 then 2 else 1) * (a.toInt * b.toInt), 2 * (hiHalf a * hiHalf b), 2 * (loHalf a * loHalf b))

/-- A sum of accumulator and signed terms. -/
def accSum (fmt : Nat) (a : BitVec 72) (sgn : Int) (t : Int × Int × Int) : BitVec 72 × Bool :=
  accHold fmt (accVal a + sgn * t.1) (accHi a + sgn * t.2.1) (accLo a + sgn * t.2.2)

/-- An accumulator's terms. -/
def accTerms (a : BitVec 72) : Int × Int × Int := (accVal a, accHi a, accLo a)

/-- Xa in accumulator layout (LDA). -/
def accLoad (fmt : Nat) (w : Word) : BitVec 72 :=
  if fmt = 0 then BitVec.ofInt 72 (w.toInt * (2 : Int) ^ 32)
  else if fmt = 1 then accHalves (hiHalf w * 65536) (loHalf w * 65536)
  else BitVec.ofInt 72 w.toInt

/-- A signed shift of an integer: left for a positive count, right with the bits dropped for a negative one. -/
def shiftInt (x k : Int) : Int := if 0 ≤ k then x * (2 : Int) ^ k.toNat else x / (2 : Int) ^ (-k).toNat

/-- An accumulator shifted by k, or its halves by kh and kl (SHA, NORM). -/
def accShift (fmt : Nat) (a : BitVec 72) (k kh kl : Int) : BitVec 72 × Bool :=
  accHold fmt (shiftInt (accVal a) k) (shiftInt (accHi a) (iclamp (-35) 35 kh)) (shiftInt (accLo a) (iclamp (-35) 35 kl))

/-- Bits below the top bit of an n-bit value that equal it. -/
def signBits (n : Nat) (x : Int) : Nat :=
  let y : Nat := (if x < 0 then -x - 1 else x).toNat
  n - 1 - (if y = 0 then 0 else y.log2 + 1)

/-- EXP. -/
def accExp (fmt : Nat) (a : BitVec 72) : Word :=
  if fmt = 1 then halves (signBits 36 (accHi a)) (signBits 36 (accLo a)) else wd (signBits 72 (accVal a))

/-- NORM: a shift by Xb less the bias (R302). -/
def accNorm (fmt : Nat) (a : BitVec 72) (w : Word) (bias : Bool) : BitVec 72 × Bool :=
  let k := iclamp (-71) 71 (w.toInt - if bias then 8 else 0)
  let h := fun (x : Int) => x - if bias then 4 else 0
  accShift fmt a k (h (hiHalf w)) (h (loHalf w))

/-- A value rounded at bit n, or truncated with RND = 1, and held to m bits (R277). -/
def roundHold (trunc : Bool) (n m : Nat) (x : Int) : Int × Bool :=
  holdBits m ((if trunc then x else x + (2 : Int) ^ (n - 1)) / (2 : Int) ^ n)

/-- Conversion of an accumulator to a word, and whether it saturated (R277). -/
def convert (fmt : Nat) (trunc : Bool) (a : BitVec 72) : Word × Bool :=
  if fmt = 0 then let x := roundHold trunc 32 32 (accVal a); (BitVec.ofInt 32 x.1, x.2)
  else if fmt = 1 then
    let h := roundHold trunc 16 16 (accHi a)
    let l := roundHold trunc 16 16 (accLo a)
    (halves h.1 l.1, h.2 || l.2)
  else let x := holdBits 32 (accVal a); (BitVec.ofInt 32 x.1, x.2)

/-- ST.RND. -/
def Cluster.trunc (c : Cluster) : Bool := bit c.st 12

/-! ### Lane operations (Table 12-3) -/

/-- The word that an operation with an X destination gives in one lane, and whether SV is set; k0 is the place of its free values. -/
def laneVal (k : LaneK) (fmt : Nat) (c : Cluster) (a b : Fin 32) (aux k0 : Nat) (l : Fin 4) : Word × Bool :=
  let x := c.xr a l
  let y := c.xr b l
  let n := if aux % 2 = 1 then b.val else fld y 0 5
  match k with
  | .add => (satOp fmt (· + ·) x y, false)
  | .sub => (satOp fmt (· - ·) x y, false)
  | .abs => (satOp fmt (fun u _ => if u < 0 then -u else u) x x, false)
  | .neg => (satOp fmt (fun u _ => -u) x x, false)
  | .max => (pick fmt true (Config.freeBool (k0 + l.val)) x y, false)
  | .min => (pick fmt false (Config.freeBool (k0 + l.val)) x y, false)
  | .mov => (x, false)
  | .and => (x &&& y, false)
  | .or => (x ||| y, false)
  | .xor => (x ^^^ y, false)
  | .lsl | .lsr | .asr => (shiftOp k fmt n x, false)
  | .sel => (if c.lf l then x else y, false)
  | .mpyr => convert fmt c.trunc (accHold fmt (product fmt x y).1 (product fmt x y).2.1 (product fmt x y).2.2).1
  | .movxa => convert fmt c.trunc (c.accOf a.val l)
  | .exp => (accExp fmt (c.accOf a.val l), false)
  | .bcast => (c.sr a.val, false)
  | _ => (x, false)

/-- The accumulator that an operation with an accumulator destination gives in one lane, and whether AV is set. -/
def laneAcc (k : LaneK) (fmt : Nat) (c : Cluster) (d a b : Fin 32) (aux : Nat) (l : Fin 4) : BitVec 72 × Bool :=
  let x := c.xr a l
  let y := c.xr b l
  let acc := c.accOf d.val l
  match k with
  | .mpy => ((accHold fmt (product fmt x y).1 (product fmt x y).2.1 (product fmt x y).2.2).1, false)
  | .mac => accSum fmt acc 1 (product fmt x y)
  | .msu => accSum fmt acc (-1) (product fmt x y)
  | .lda => (accLoad fmt x, false)
  | .adda => accSum fmt acc 1 (accTerms (c.accOf aux l))
  | .suba => accSum fmt acc (-1) (accTerms (c.accOf aux l))
  | .norm => accNorm fmt (c.accOf a.val l) y (decide (8 ≤ aux))
  | _ => (0#72, false)

/-- The result of a compare in one lane. -/
def laneCmp (k : LaneK) (fmt : Nat) (c : Cluster) (a b : Fin 32) (l : Fin 4) : Bool :=
  let x := cmpVal fmt (c.xr a l)
  let y := cmpVal fmt (c.xr b l)
  match k with
  | .cmpeq => x == y
  | .cmplt => decide (x < y)
  | _ => decide (x ≤ y)

/-- A lane operation writes its destination in the lanes it may write (R303). -/
def laneOp (k : LaneK) (fmt : Nat) (msk : Bool) (d a b : Fin 32) (aux k0 : Nat) (c0 c : Cluster) : Cluster :=
  let on := fun (l : Fin 4) => !msk || c0.lf l
  if k = .cmpeq ∨ k = .cmplt ∨ k = .cmple then
    overLanes (fun l c => { c with st := setBit c.st (4 + l.val) (laneCmp k fmt c0 a b l) }) c
  else if k = .extr then c.putSr d.val (c0.xr a (Fin.ofNat 4 aux))
  else if k.toAcc then
    overLanes (fun l c => if on l then let r := laneAcc k fmt c0 d a b aux l; sticky 8 r.2 (c.putAcc d.val l r.1) else c) c
  else if k = .norm then
    overLanes (fun l c => if on l then let r := laneAcc k fmt c0 d a b aux l; sticky 8 r.2 (c.putAcc a.val l r.1) else c) c
  else
    overLanes (fun l c => if on l then let r := laneVal k fmt c0 a b aux k0 l; sticky 9 r.2 (c.putXr c0.rrb d l r.1) else c) c

/-- SHA (R302). -/
def shaOp (fmt : Nat) (msk : Bool) (d : Nat) (cnt : Nat) (c0 c : Cluster) : Cluster :=
  let k := sext 7 cnt
  overLanes (fun l c => if !msk || c0.lf l then let r := accShift fmt (c0.accOf d l) k k k; sticky 8 r.2 (c.putAcc d l r.1) else c) c

/-! ### The scalar unit (R304) -/

/-- Result and ST of a scalar operation on Sa and Sb, or by IMM5. -/
def scalVal (k : ScalK) (st a b : Word) (i : Bool) (imm : Nat) : Word × Word :=
  let n := if i then imm else fld b 0 5
  match k with
  | .sadd => (a + b, flagsAdd st a b)
  | .ssub | .scmp => (a - b, flagsSub st a b)
  | .sand => (a &&& b, flagZN st (a &&& b))
  | .sor => (a ||| b, flagZN st (a ||| b))
  | .sxor => (a ^^^ b, flagZN st (a ^^^ b))
  | .slsl => (a <<< n, flagsShift st (a <<< n) n (bit a (32 - n)))
  | .slsr => (a >>> n, flagsShift st (a >>> n) n (bit a (n - 1)))
  | .sasr => (a.sshiftRight n, flagsShift st (a.sshiftRight n) n (bit a (n - 1)))
  | .smov => (a, st)

/-- A scalar operation. -/
def scalOp (k : ScalK) (sd sa sb : Nat) (i : Bool) (imm : Nat) (c0 c : Cluster) : Cluster :=
  let r := scalVal k c0.st (c0.sr sa) (c0.sr sb) i imm
  let c := { c with st := r.2 }
  if k = .scmp then c else c.putSr sd r.1

/-- A scalar immediate operation. -/
def immOp (k : ImmK) (sd imm : Nat) (c0 c : Cluster) : Cluster :=
  let x := c0.sr sd
  let v := BitVec.ofInt 32 (sext 16 imm)
  match k with
  | .sldi => c.putSr sd v
  | .sldh => c.putSr sd (setFld x 16 16 imm)
  | .saddi => { c.putSr sd (x + v) with st := flagsAdd c0.st x v }

/-- The arithmetic slot: c0 is the cluster as the word found it. -/
def arithOp (w : Arith) (k0 : Nat) (c0 c : Cluster) : Cluster :=
  match w with
  | .nop _ => c
  | .lane k fmt msk d a b aux => laneOp k fmt.val msk d a b aux.val k0 c0 c
  | .sha fmt msk d cnt _ => shaOp fmt.val msk d.val cnt.val c0 c
  | .scal k sd sa sb i imm _ => scalOp k sd.val sa.val sb.val i imm.val c0 c
  | .simm k sd _ imm => immOp k sd.val imm.val c0 c
  | .srd srn sd _ => c.putSr sd.val (c0.spRead srn.val)
  | .swr srn sa _ => c.spWrite srn.val (c0.sr sa.val)
  | .swri srn imm => c.spWrite srn.val (wd imm.val)

end Sys2Proof.Machine
end

