-- ==== Sys2Proof/Machine/SxHazard.lean ====
section
/-!
DEFINITION. The fixed waits of spec 12 R316, Table 12-8: what a word needs, what the two words before it produce, and the cycles it
waits before it issues.
-/
namespace Sys2Proof.Machine

/-! ### What a word uses -/

/-- Lane registers the arithmetic slot reads. -/
def arithX : Arith → List (Fin 32)
  | .lane k _ _ _ a b aux =>
    match k with
    | .add | .sub | .max | .min | .and | .or | .xor | .cmpeq | .cmplt | .cmple | .sel | .mpy | .mac | .msu | .mpyr => [a, b]
    | .lsl | .lsr | .asr => if aux.val % 2 = 1 then [a] else [a, b]
    | .abs | .neg | .mov | .lda | .extr => [a]
    | .norm => [b]
    | _ => []
  | _ => []

/-- Multiplier operands. -/
def mulX : Arith → List (Fin 32)
  | .lane k _ _ _ a b _ => if k = .mpy ∨ k = .mac ∨ k = .msu ∨ k = .mpyr then [a, b] else []
  | _ => []

/-- The memory operations of a word. -/
def memOps (w : SxWord) : List MemOp :=
  (match w.xs with | .mem m => [m] | .none => []) ++ (match w.ys with | .mem m => [m] | _ => [])

/-- Lane registers that STL, STV and DUTY read. -/
def storeX (w : SxWord) : List (Fin 32) :=
  ((memOps w).filter (fun m => m.k == .stl || m.k == .stv)).map (·.reg) ++ (match w.ys with | .duty r _ _ _ => [r] | _ => [])

/-- Scalar registers that the scalar unit reads. -/
def scalS : Arith → List Nat
  | .scal k _ sa sb i _ _ => if i ∨ k = .smov then [sa.val] else [sa.val, sb.val]
  | .simm k sd _ _ => if k = .sldi then [] else [sd.val]
  | .swr _ sa _ => [sa.val]
  | _ => []

/-- Scalar registers read as index, EXT register, loop count, BCAST operand or STS data. -/
def lateS (w : SxWord) : List Nat :=
  (match w.ar with | .lane k _ _ _ a _ _ => if k = .bcast then [a.val] else [] | _ => []) ++
  ((memOps w).flatMap fun m => (if memIndexed m then [m.idx.val] else []) ++ (if m.k = .sts then [m.reg.val] else [])) ++
  (match w.ys with
   | .ext data addr st _ _ _ => addr.val :: if st then [data.val] else []
   | .loopS _ _ s => [s.val]
   | _ => [])

/-- Accumulators a word reads. -/
def accReads (w : SxWord) : List Nat :=
  (match w.ar with
   | .lane k _ _ d a _ aux =>
     (match k with
      | .mac | .msu => [d.val]
      | .adda | .suba => [d.val, aux.val]
      | .movxa | .exp | .norm => [a.val]
      | _ => [])
   | .sha _ _ d _ _ => [d.val]
   | _ => []) ++ ((memOps w).filter (fun m => m.k == .stav)).map (·.reg.val)

/-- The accumulator that MAC and MSU add to. -/
def macAcc : Arith → Option Nat
  | .lane .mac _ _ d _ _ _ | .lane .msu _ _ d _ _ _ => some d.val
  | _ => none

/-- P, M, B and L, by special register number, that the moves of a word use. -/
def ptrUses (w : SxWord) : List Nat :=
  (memOps w).flatMap fun m => m.p.val :: (if m.pm then [8 + m.p.val] else []) ++
    (if m.pm || memVector m.k then [16 + m.p.val, 24 + m.p.val] else [])

/-- X16 to X31 that a word reads or writes. -/
def usesRot (w : SxWord) : Bool :=
  (arithX w.ar ++ storeX w).any (fun r => decide (16 ≤ r.val)) ||
    (w.ar.writes ++ w.xs.writes ++ w.ys.writes).any (fun r => match r with | .x n => decide (16 ≤ n) | _ => false)

/-- Words of X and Y memory that a word loads. -/
def loadWords (c : Cluster) (w : SxWord) : List Nat × List Nat :=
  let f := fun (m : MemOp) => match m.k with
    | .ldb | .lds => [memAddr c m]
    | .ldv => (List.range 4).map (memAddr c m + ·)
    | _ => []
  ((match w.xs with | .mem m => f m | .none => []),
   (match w.ys with | .mem m => f m | .ldag _ a => (List.range 4).map (a.val + ·) | _ => []))

/-! ### What a word produces -/

/-- The X destination of a class L result. -/
def classL : Arith → List Nat
  | .lane k _ _ d _ _ _ => if k.toAcc || k == .norm || k == .extr || k.noLane then [] else [d.val]
  | _ => []
/-- Accumulators written. -/
def accWrites (a : Arith) : List Nat := a.writes.filterMap fun r => match r with | .acc n => some n | _ => none
/-- The write of an accumulator is of class M. -/
def classM : Arith → Bool
  | .lane k _ _ _ _ _ _ => k == .mpy || k == .mac || k == .msu
  | _ => false
/-- Scalar destinations of class S results. -/
def classS (a : Arith) : List Nat := a.writes.filterMap fun r => match r with | .s n => some n | _ => none
/-- Special registers written by SWR and SWRI. -/
def spWrites (a : Arith) : List Nat := a.writes.filterMap fun r => match r with | .sp n => some n | _ => none
/-- Registers P, M, B, L that LDAG writes. -/
def ldagWrites (y : YSlot) : List Nat := match y with | .ldag n _ => [n.val, 8 + n.val, 16 + n.val, 24 + n.val] | _ => []
/-- The word changes Z, N, C, V or LF. -/
def setsFlags : Arith → Bool
  | .lane k _ _ _ _ _ _ => k == .cmpeq || k == .cmplt || k == .cmple
  | .scal k _ _ _ _ _ _ => k != .smov
  | .simm k _ _ _ => k == .saddi
  | .swr srn _ _ => srn.val == 0x20
  | .swri srn _ => srn.val == 0x20
  | _ => false
/-- Lane and scalar registers loaded by moves. -/
def moveLoads (w : SxWord) : List SxReg := (memOps w).flatMap (·.loads)

/-! ### The wait (Table 12-8) -/

/-- Waits at the word after a producer and at the word after that; p is the producer, w the consumer at cluster c. -/
def pairWait (p : Issued) (pw : SxWord) (c : Cluster) (w : SxWord) : Nat × Nat :=
  let was := fun (n : Nat) => (physX p.rrb (Fin.ofNat 32 n)).val
  let now := fun (r : Fin 32) => (physX c.rrb r).val
  let lds := loadWords c w
  let lx := (moveLoads pw).filterMap fun r => match r with | .x n => some (was n) | _ => none
  let ls := (moveLoads pw).filterMap fun r => match r with | .s n => some n | _ => none
  let sp := spWrites pw.ar
  let l1 : List (Bool × Nat × Nat) := [
    ((classL pw.ar).any (fun n => ((mulX w.ar ++ storeX w).map now).contains (was n)), 1, 0),
    (lx.any (fun n => ((arithX w.ar ++ storeX w).map now).contains n) || ls.any (fun n => (scalS w.ar ++ lateS w).contains n), 1, 0),
    ((accWrites pw.ar).any (fun n => (accReads w).contains n && !(classM pw.ar && macAcc w.ar == some n && !((memOps w).any fun m => m.k == .stav && m.reg.val == n))), 1, 0),
    ((classS pw.ar).any (fun n => (lateS w).contains n), 1, 0),
    ((sp ++ ldagWrites pw.ys).any (fun n => decide (n < 0x20) && (ptrUses w).contains n), 2, 1),
    (sp.any (fun n => decide (0x23 ≤ n ∧ n ≤ 0x28)) && (c.atEnd 0 || c.atEnd 1), 2, 1),
    (sp.contains 0x21 && usesRot w, 2, 1),
    (setsFlags pw.ar && (match w.ys with | .br _ _ => true | _ => false), 1, 0),
    (p.xs.any (lds.1.contains ·) || p.ys.any (lds.2.contains ·), 2, 1)]
  l1.foldl (fun m x => if x.1 then (max m.1 x.2.1, max m.2 x.2.2) else m) (0, 0)

/-- The cycles a word waits before it issues: the longest of its hazards (R316). -/
def waitOf (c : Cluster) (w : SxWord) : Nat :=
  let one := fun (i : Nat) => match c.hist[i]? with
    | some p => match decodeWord p.word.toNat with
      | some pw => pairWait p pw c w
      | none => (0, 0)
    | none => (0, 0)
  max (one 0).1 (one 1).2

end Sys2Proof.Machine
end

