-- ==== Sys2Proof/Machine/SxIssue.lean ====
section
/-!
DEFINITION. The issue of a Sextant word (spec 11 R279, R284, R285, R289, R290, R294; 12 R298, R306 to R318): its faults, the effects of
its three slots, its cycles; and the external port: EXT_READ_RETURN and POSTED_WRITE_DRAIN.
-/
namespace Sys2Proof.Machine

/-! ### Execution faults (R294) -/

/-- A cluster halts at its word: cause of Table 11-18, code 0x0F + cause, and the data words. -/
def sxFault (g : Fin 4) (cause : Nat) (data : List Word) (s : State) : State :=
  let pc := s.clu[g].pc
  let s := sw s g 0x20 (wd (cause + 65536 * pc))
  let s := modClu g (fun c => { c with state := .halted, reads := [], posted := c.posted.filter (fun p => p.read.isNone) }) s
  if grpActive s g then raiseGrp 2 6 (0xF + cause) g (wd pc :: data) s
  else ev 6 g.val (0xF + cause) noAxis (wd pc :: data) s

/-- Priority of the running chain. -/
def Cluster.prio (c : Cluster) : Nat := match c.chain with | some x => trigPrio x.trig | none => 0

/-- The level a LOOP would open: none where both are. -/
def Cluster.nextLvl (c : Cluster) : Option (Fin 2) := if !(c.lvl 0) then some 0 else if !(c.lvl 1) then some 1 else none

/-- A LOOP of a word: rotate, count, length. -/
def loopOf (c : Cluster) : YSlot → Option (Bool × Nat × Nat)
  | .loopI rot count len => some (rot, count.val, len.val + 1)
  | .loopS rot len r => some (rot, fld (c.sr r.val) 0 16, len.val + 1)
  | _ => none

/-- A word that opens a level whose LC, LS or LE its arithmetic slot writes is undefined (12 R317). -/
def loopClash (c : Cluster) (w : SxWord) : Bool :=
  match loopOf c w.ys, c.nextLvl with
  | some (_, n, _), some k => n != 0 && (spWrites w.ar).any (fun r => decide (0x23 + 3 * k.val ≤ r ∧ r < 0x26 + 3 * k.val))
  | _, _ => false

/-- The fault of a memory operation: the address and whether it is misaligned, out of range. -/
def memFault (c : Cluster) (m : MemOp) : Option (Nat × Bool × Bool) :=
  if memMisaligned c m || memBeyond c m then some (memAddr c m, memMisaligned c m, memBeyond c m) else none

/-- The first local address fault of a word, X slot before Y slot; an EXT address with bits [1:0] ≠ 0 is misaligned (R318). -/
def addrFault (c : Cluster) (w : SxWord) : Option (Nat × Bool × Bool) :=
  let x := match w.xs with | .mem m => memFault c m | .none => none
  let y := match w.ys with
    | .mem m => memFault c m
    | .ext _ a _ _ _ _ => if (c.sr a.val).toNat % 4 ≠ 0 then some ((c.sr a.val).toNat, true, false) else none
    | _ => none
  match x with
  | some f => some f
  | none => y

/-- The loop fault of a word: 1 = third level, 2 = branch or loop instruction as the last word of a body (R284). -/
def loopFault (c : Cluster) (w : SxWord) : Option Nat :=
  let ctl := match w.ys with | .br _ _ => true | .jmp _ _ => true | y => (loopOf c y).isSome
  if ctl && (c.atEnd 0 || c.atEnd 1) then some 2
  else match loopOf c w.ys with
    | some (_, n, _) => if n ≠ 0 ∧ c.nextLvl = none then some 1 else none
    | none => none

/-! ### Memory operations -/

/-- A memory operation on the memory of its slot: the new cluster without its memory, the new memory, the words stored to. -/
def memRun (m : MemOp) (mem : List (Nat × Word)) (c0 c : Cluster) : Cluster × List (Nat × Word) × List Nat :=
  let a := memAddr c0 m
  let rdw := fun k => sget xyDefault mem (a + k)
  let put4 := fun (f : Fin 4 → Word) => allGroups.foldl (fun y l => sset xyDefault y (a + l.val) (f l)) mem
  match m.k with
  | .ldb => (overLanes (fun l c => c.putXr c0.rrb m.reg l (rdw 0)) c, mem, [])
  | .ldv => (overLanes (fun l c => c.putXr c0.rrb m.reg l (rdw l.val)) c, mem, [])
  | .stl => (c, sset xyDefault mem a (c0.xr m.reg m.lf), [a])
  | .stv => (c, put4 (c0.xr m.reg), (List.range 4).map (a + ·))
  | .lds => (c.putSr m.reg.val (rdw 0), mem, [])
  | .sts => (c, sset xyDefault mem a (c0.sr m.reg.val), [a])
  | .stav =>
    let v := fun (l : Fin 4) => convert m.lf.val c0.trunc (c0.accOf m.reg.val l)
    (overLanes (fun l c => sticky 9 (v l).2 c) c, put4 (fun l => (v l).1), (List.range 4).map (a + ·))

/-- The X-move slot. -/
def xMove (x : XSlot) (c0 c : Cluster) : Cluster × List Nat :=
  match x with
  | .none => (c, [])
  | .mem m =>
    let r := memRun m c0.x c0 c
    (postMod c0 m.post { r.1 with x := r.2.1 }, r.2.2)

/-- The memory part, LDAG and EXT registers of the Y slot. -/
def yMove (y : YSlot) (c0 c : Cluster) : Cluster × List Nat :=
  match y with
  | .mem m =>
    let r := memRun m c0.y c0 c
    (postMod c0 m.post { r.1 with y := r.2.1 }, r.2.2)
  | .ldag n a =>
    let h := fun k => BitVec.ofNat 16 (sget xyDefault c0.y (a.val + k)).toNat
    ({ c with p := c.p.set n.val (h 0), m := c.m.set n.val (h 1), b := c.b.set n.val (h 2), l := c.l.set n.val (h 3) }, [])
  | .ext _ a _ pi _ _ => (if pi then c.putSr a.val (c0.sr a.val + 4#32) else c, [])
  | _ => (c, [])

/-! ### Control -/

/-- The duty port (R289; 12 R309). -/
def dutyPort (g : Fin 4) (port : Nat) (v : Word) (s : State) : State :=
  if h : port < 16 then putDuty (axOf g ⟨port / 4, by omega⟩) ⟨port % 4, by omega⟩ v s
  else if h : 16 ≤ port ∧ port < 20 then putMark (axOf g ⟨port - 16, by omega⟩) s
  else s

/-- A DUTY operation: one lane, or lanes 0 to 3 in order. -/
def dutyOp (g : Fin 4) (reg : Fin 32) (port : Nat) (v : Bool) (lane : Fin 4) (c0 : Cluster) (s : State) : State :=
  if v then forEach allGroups (fun l s => dutyPort g (if port < 4 then port + 4 * l.val else 0x10 + l.val) (c0.xr reg l) s) s
  else dutyPort g port (c0.xr reg lane) s

/-- A LOOP opens a level, or skips its body (R284; 12 R312). -/
def loopOp (rot : Bool) (n len : Nat) (c : Cluster) : Cluster :=
  if n = 0 then { c with pc := (c.pc + len + 1) % 8192 }
  else match c.nextLvl with
    | some k =>
      { c with lc := c.lc.set k.val n, ls := c.ls.set k.val ((c.pc + 1) % 8192), le := c.le.set k.val ((c.pc + len) % 8192), rot := c.rot.set k.val rot, st := setBit c.st (10 + k.val) true, pc := (c.pc + 1) % 8192 }
    | none => c

/-- Where a branch of a word goes, if it is taken (12 R313). -/
def branchTo (c : Cluster) : YSlot → Option Nat
  | .br cond ofs => if condTrue c.st cond.val then some (((c.pc : Int) + sext 10 ofs.val) % 8192).toNat else none
  | .jmp _ a => some a.val
  | _ => none

/-- The external access of a word enters the port in issue order (R290); a load stalls its word. -/
def extOp (y : YSlot) (now : Nat) (c0 c : Cluster) : Cluster :=
  match y with
  | .ext data a true _ sb _ =>
    { c with posted := c.posted ++ [{ addr := (c0.sr a.val).toNat, word := c0.sr data.val, side := if sb then some c0.qsb else none, read := none }] }
  | .ext data a false pi sb _ =>
    let ad := (c0.sr a.val).toNat
    { c with posted := c.posted ++ [{ addr := ad, word := 0#32, side := none, read := some c0.prio }], reads := c.reads ++ [{ addr := ad, reg := data.val + (if pi && data == a then 16 else 0), sb := sb, prio := c0.prio, data := none, t0 := now }] }
  | _ => c

/-- The sequencer's part: PC and loop levels. -/
def sequence (y : YSlot) (j : Bool) (c0 c : Cluster) : Cluster :=
  match branchTo c0 y, loopOf c0 y, y with
  | some a, _, _ => c.jump a
  | none, some (rot, n, len), _ => loopOp rot n len c
  | none, none, .ext _ _ false _ _ _ => c
  | none, none, .ret _ => c.shut 0
  | none, none, _ => c.finish j

/-- Trigger return: the longest run of the probed entry, then the next entry, the interrupted chain, or idle (R285; 12 R314). -/
def trigReturn (g : Fin 4) (s : State) : State :=
  let c := s.clu[g]
  let p := sr s g 0x38
  let e := match c.chain with | some x => x.entry | none => 8
  let s := if bit p 3 && fld p 0 3 == e then sw s g 0x3C (wd (max (fld (sr s g 0x3C) 0 24) (min c.runCyc (2 ^ 24 - 1)))) else s
  chainNext g s

/-! ### Issue -/

/-- A cluster can issue: it runs a chain and no read of it is outstanding. -/
def canIssue (s : State) (g : Fin 4) : Bool :=
  let c := s.clu[g]
  c.state == .running && c.chain.isSome && (c.readOf c.prio).isNone

/-- The program word at PC. -/
def nextWord (s : State) (g : Fin 4) : DWord := sget progDefault s.clu[g].prog s.clu[g].pc

/-- The word waits for room in the posted-write buffer (R272). -/
def bufferFull (c : Cluster) : YSlot → Bool
  | .ext _ _ st _ _ _ => st && decide (4 ≤ (c.posted.filter (·.read.isNone)).length)
  | _ => false

/-- The cluster after a defined word without a fault: the three slots read before any writes (12 R298), the arithmetic slot, the X slot
and the Y slot write, then the sequencer acts. -/
def wordCluster (g : Fin 4) (raw : DWord) (w : SxWord) (s : State) : Cluster :=
  let k := s.fresh
  let c0 := s.clu[g]
  let cyc := 1 + waitOf c0 w + (if (branchTo c0 w.ys).isSome then 2 else 0)
  let x := xMove w.xs c0 (arithOp w.ar k c0 c0)
  let y := yMove w.ys c0 x.1
  let c := sequence w.ys (Config.freeBool (k + 4)) c0 (extOp w.ys s.now c0 y.1)
  { c with first := false, busy := c.busy + cyc, runCyc := c.runCyc + cyc, hist := { word := raw, rrb := c0.rrb, xs := x.2, ys := y.2 } :: c.hist.take 1 }

/-- The effects of a defined word without a fault. -/
def runWord (g : Fin 4) (raw : DWord) (w : SxWord) (s : State) : State :=
  let n := { s with fresh := s.fresh + 5, clu := s.clu.set g.val (wordCluster g raw w s) }
  match w.ys with
  | .duty reg port v lane => dutyOp g reg port.val v lane s.clu[g] n
  | .ret _ => trigReturn g n
  | _ => n

/-- A cluster issues a defined word: its faults first (R295), else its effects. The code of the slot in SX_ALIGN and SX_RANGE data, and
which of the two a word raises that meets both, are open (log entry 23). -/
def issueWord (g : Fin 4) (raw : DWord) (w : SxWord) (s : State) : State :=
  let c := s.clu[g]
  if loopClash c w then sxFault g 1 [halfOf raw true] s
  else match addrFault c w with
    | some (a, mis, bey) =>
      let (k, s) := takeFresh s
      sxFault g (if mis && (!bey || Config.freeBool k) then 2 else 3) [wd a, Config.freeWord k] s
    | none => match loopFault c w with
      | some x => sxFault g 4 [wd x] s
      | none => if bufferFull c w.ys then s else runWord g raw w s

/-- The row of an operation: the cluster issues its next word if that word holds the operation. -/
def issue (holds : SxWord → Bool) (g : Fin 4) (t : Nat) (s : State) : State :=
  let s := atTime t s
  if canIssue s g then
    match decodeWord (nextWord s g).toNat with
    | some w => if holds w then issueWord g (nextWord s g) w s else s
    | none => s
  else s

/-- An undefined encoding halts the cluster with SX_ILLEGAL (12 R318). -/
def issueUndefined (g : Fin 4) (t : Nat) (s : State) : State :=
  let s := atTime t s
  if canIssue s g then
    match decodeWord (nextWord s g).toNat with
    | some w => if loopClash s.clu[g] w then sxFault g 1 [halfOf (nextWord s g) true] s else s
    | none => sxFault g 1 [halfOf (nextWord s g) true] s
  else s

/-! ### The external port (R287, R290, R292) -/

/-- The oldest external access of a cluster completes, where it is a read: its word completes, or its data is parked. err = what the
check bits of a memory word or queue item show. -/
def extReturn (g : Fin 4) (err : Nat) (s : State) : State :=
  let c := s.clu[g]
  match c.posted with
  | [] => s
  | p :: rest =>
    match p.read with
    | none => s
    | some lvl =>
      match c.readOf lvl with
      | none => modClu g (fun c => { c with posted := rest }) s
      | some r =>
        let (res, s) := busRead (g.val + 1) r.addr err s
        if s.clu[g].state ≠ .running then s
        else match res with
          | .wait => s
          | .item v side =>
            let pop := match queOf r.addr with | some (_, 0x340) => true | _ => false
            let r := { r with sb := r.sb && pop }
            let (k, s) := takeFresh s
            if c.prio = lvl then
              let n := c.stalled s.now lvl
              modClu g (fun c => ({ c with posted := rest, busy := c.busy + n, runCyc := c.runCyc + n } : Cluster).readDone k r v side) s
            else modClu g (fun c => { c with posted := rest, reads := c.reads.map (fun x => if x.prio = lvl then { r with data := some (v, side) } else x) }) s

/-- EXT_READ_RETURN. -/
def execExtReadReturn (g : Fin 4) (err : Fin 3) (t : Nat) (s : State) : Host.Outcome State Fault Refusal :=
  .next (extReturn g err.val (atTime t s))

/-- A write outside the PUSH ports; side = it carries queue side bits (13 Table 13-14). -/
def extPlain (m a : Nat) (v : Word) (side : Bool) (s : State) : State :=
  if 0x20000000 ≤ a ∧ a < 0x20080000 then busWrite m a v false s
  else
    let (ok, s) := access m kWrite a side (xferOf a) s
    if ok then writeAt m a v s else s

/-- An external write of master m with the side bits it carries (14 R346). -/
def extWrite (m a : Nat) (v : Word) (side : Option Nat) (s : State) : State :=
  match side, queOf a with
  | some q, some (x, o) =>
    if 0x300 ≤ o ∧ o < 0x340 then
      let (ok, s) := access m kWrite a true (xferOf a) s
      if ok then pushItem x m (q / 2 % 8) (decide (q % 2 = 1)) v s else s
    else extPlain m a v true s
  | some _, none => extPlain m a v true s
  | none, _ => busWrite m a v false s

/-- The oldest external access drains, where it is a posted write. Those of a frozen cluster still drain, as far as its regions grant
them (R292). -/
def drainWrite (g : Fin 4) (s : State) : State :=
  let m := g.val + 1
  match s.clu[g].posted with
  | [] => s
  | p :: rest =>
    if p.read.isSome then s
    else
      let s := modClu g (fun c => { c with posted := rest }) s
      if frozen s m then
        if granted s m kWrite p.addr then
          bwBit (extWrite m p.addr p.word p.side (bwBit s .sys 0x28 m false)) .sys 0x28 m true
        else s
      else extWrite m p.addr p.word p.side s

/-- POSTED_WRITE_DRAIN. -/
def execPostedWriteDrain (g : Fin 4) (t : Nat) (s : State) : Host.Outcome State Fault Refusal := .next (drainWrite g (atTime t s))

end Sys2Proof.Machine
end

