-- ==== Sys2Proof/Machine/SxRows.lean ====
section
/-!
DEFINITION. One row for each Sextant operation (spec 12 R298 to R315): the cluster issues its next word where that word holds the
operation; the other slots of the word issue with it.
-/
namespace Sys2Proof.Machine

/-- The arithmetic slot holds a lane operation. -/
def holdsLane (k : LaneK) (w : SxWord) : Bool := match w.ar with | .lane k' _ _ _ _ _ _ => k' == k | _ => false

/-- The arithmetic slot holds a scalar operation. -/
def holdsScal (k : ScalK) (w : SxWord) : Bool := match w.ar with | .scal k' _ _ _ _ _ _ => k' == k | _ => false

/-- The arithmetic slot holds a scalar immediate operation. -/
def holdsImm (k : ImmK) (w : SxWord) : Bool := match w.ar with | .simm k' _ _ _ => k' == k | _ => false

/-- One of the move slots holds a memory operation. -/
def holdsMem (k : MemK) (w : SxWord) : Bool := (memOps w).any (fun m => m.k == k)

/-- NOP. -/
def execSxNop (g : Fin 4) (t : Nat) (s : State) : Host.Outcome State Fault Refusal := .next (issue (fun w => match w.ar with | .nop _ => true | _ => false) g t s)

/-- ADD. -/
def execSxAdd (g : Fin 4) (t : Nat) (s : State) : Host.Outcome State Fault Refusal := .next (issue (holdsLane .add) g t s)

/-- SUB. -/
def execSxSub (g : Fin 4) (t : Nat) (s : State) : Host.Outcome State Fault Refusal := .next (issue (holdsLane .sub) g t s)

/-- ABS. -/
def execSxAbs (g : Fin 4) (t : Nat) (s : State) : Host.Outcome State Fault Refusal := .next (issue (holdsLane .abs) g t s)

/-- NEG. -/
def execSxNeg (g : Fin 4) (t : Nat) (s : State) : Host.Outcome State Fault Refusal := .next (issue (holdsLane .neg) g t s)

/-- MAX. -/
def execSxMax (g : Fin 4) (t : Nat) (s : State) : Host.Outcome State Fault Refusal := .next (issue (holdsLane .max) g t s)

/-- MIN. -/
def execSxMin (g : Fin 4) (t : Nat) (s : State) : Host.Outcome State Fault Refusal := .next (issue (holdsLane .min) g t s)

/-- MOV. -/
def execSxMov (g : Fin 4) (t : Nat) (s : State) : Host.Outcome State Fault Refusal := .next (issue (holdsLane .mov) g t s)

/-- AND. -/
def execSxAnd (g : Fin 4) (t : Nat) (s : State) : Host.Outcome State Fault Refusal := .next (issue (holdsLane .and) g t s)

/-- OR. -/
def execSxOr (g : Fin 4) (t : Nat) (s : State) : Host.Outcome State Fault Refusal := .next (issue (holdsLane .or) g t s)

/-- XOR. -/
def execSxXor (g : Fin 4) (t : Nat) (s : State) : Host.Outcome State Fault Refusal := .next (issue (holdsLane .xor) g t s)

/-- LSL. -/
def execSxLsl (g : Fin 4) (t : Nat) (s : State) : Host.Outcome State Fault Refusal := .next (issue (holdsLane .lsl) g t s)

/-- LSR. -/
def execSxLsr (g : Fin 4) (t : Nat) (s : State) : Host.Outcome State Fault Refusal := .next (issue (holdsLane .lsr) g t s)

/-- ASR. -/
def execSxAsr (g : Fin 4) (t : Nat) (s : State) : Host.Outcome State Fault Refusal := .next (issue (holdsLane .asr) g t s)

/-- CMPEQ. -/
def execSxCmpeq (g : Fin 4) (t : Nat) (s : State) : Host.Outcome State Fault Refusal := .next (issue (holdsLane .cmpeq) g t s)

/-- CMPLT. -/
def execSxCmplt (g : Fin 4) (t : Nat) (s : State) : Host.Outcome State Fault Refusal := .next (issue (holdsLane .cmplt) g t s)

/-- CMPLE. -/
def execSxCmple (g : Fin 4) (t : Nat) (s : State) : Host.Outcome State Fault Refusal := .next (issue (holdsLane .cmple) g t s)

/-- SEL. -/
def execSxSel (g : Fin 4) (t : Nat) (s : State) : Host.Outcome State Fault Refusal := .next (issue (holdsLane .sel) g t s)

/-- MPY. -/
def execSxMpy (g : Fin 4) (t : Nat) (s : State) : Host.Outcome State Fault Refusal := .next (issue (holdsLane .mpy) g t s)

/-- MAC. -/
def execSxMac (g : Fin 4) (t : Nat) (s : State) : Host.Outcome State Fault Refusal := .next (issue (holdsLane .mac) g t s)

/-- MSU. -/
def execSxMsu (g : Fin 4) (t : Nat) (s : State) : Host.Outcome State Fault Refusal := .next (issue (holdsLane .msu) g t s)

/-- MPYR. -/
def execSxMpyr (g : Fin 4) (t : Nat) (s : State) : Host.Outcome State Fault Refusal := .next (issue (holdsLane .mpyr) g t s)

/-- CLRA. -/
def execSxClra (g : Fin 4) (t : Nat) (s : State) : Host.Outcome State Fault Refusal := .next (issue (holdsLane .clra) g t s)

/-- LDA. -/
def execSxLda (g : Fin 4) (t : Nat) (s : State) : Host.Outcome State Fault Refusal := .next (issue (holdsLane .lda) g t s)

/-- ADDA. -/
def execSxAdda (g : Fin 4) (t : Nat) (s : State) : Host.Outcome State Fault Refusal := .next (issue (holdsLane .adda) g t s)

/-- SUBA. -/
def execSxSuba (g : Fin 4) (t : Nat) (s : State) : Host.Outcome State Fault Refusal := .next (issue (holdsLane .suba) g t s)

/-- SHA. -/
def execSxSha (g : Fin 4) (t : Nat) (s : State) : Host.Outcome State Fault Refusal := .next (issue (fun w => match w.ar with | .sha _ _ _ _ _ => true | _ => false) g t s)

/-- MOVXA. -/
def execSxMovxa (g : Fin 4) (t : Nat) (s : State) : Host.Outcome State Fault Refusal := .next (issue (holdsLane .movxa) g t s)

/-- EXP. -/
def execSxExp (g : Fin 4) (t : Nat) (s : State) : Host.Outcome State Fault Refusal := .next (issue (holdsLane .exp) g t s)

/-- NORM. -/
def execSxNorm (g : Fin 4) (t : Nat) (s : State) : Host.Outcome State Fault Refusal := .next (issue (holdsLane .norm) g t s)

/-- BCAST. -/
def execSxBcast (g : Fin 4) (t : Nat) (s : State) : Host.Outcome State Fault Refusal := .next (issue (holdsLane .bcast) g t s)

/-- EXTR. -/
def execSxExtr (g : Fin 4) (t : Nat) (s : State) : Host.Outcome State Fault Refusal := .next (issue (holdsLane .extr) g t s)

/-- SADD. -/
def execSxSadd (g : Fin 4) (t : Nat) (s : State) : Host.Outcome State Fault Refusal := .next (issue (holdsScal .sadd) g t s)

/-- SSUB. -/
def execSxSsub (g : Fin 4) (t : Nat) (s : State) : Host.Outcome State Fault Refusal := .next (issue (holdsScal .ssub) g t s)

/-- SAND. -/
def execSxSand (g : Fin 4) (t : Nat) (s : State) : Host.Outcome State Fault Refusal := .next (issue (holdsScal .sand) g t s)

/-- SOR. -/
def execSxSor (g : Fin 4) (t : Nat) (s : State) : Host.Outcome State Fault Refusal := .next (issue (holdsScal .sor) g t s)

/-- SXOR. -/
def execSxSxor (g : Fin 4) (t : Nat) (s : State) : Host.Outcome State Fault Refusal := .next (issue (holdsScal .sxor) g t s)

/-- SLSL. -/
def execSxSlsl (g : Fin 4) (t : Nat) (s : State) : Host.Outcome State Fault Refusal := .next (issue (holdsScal .slsl) g t s)

/-- SLSR. -/
def execSxSlsr (g : Fin 4) (t : Nat) (s : State) : Host.Outcome State Fault Refusal := .next (issue (holdsScal .slsr) g t s)

/-- SASR. -/
def execSxSasr (g : Fin 4) (t : Nat) (s : State) : Host.Outcome State Fault Refusal := .next (issue (holdsScal .sasr) g t s)

/-- SCMP. -/
def execSxScmp (g : Fin 4) (t : Nat) (s : State) : Host.Outcome State Fault Refusal := .next (issue (holdsScal .scmp) g t s)

/-- SMOV. -/
def execSxSmov (g : Fin 4) (t : Nat) (s : State) : Host.Outcome State Fault Refusal := .next (issue (holdsScal .smov) g t s)

/-- SLDI. -/
def execSxSldi (g : Fin 4) (t : Nat) (s : State) : Host.Outcome State Fault Refusal := .next (issue (holdsImm .sldi) g t s)

/-- SLDH. -/
def execSxSldh (g : Fin 4) (t : Nat) (s : State) : Host.Outcome State Fault Refusal := .next (issue (holdsImm .sldh) g t s)

/-- SADDI. -/
def execSxSaddi (g : Fin 4) (t : Nat) (s : State) : Host.Outcome State Fault Refusal := .next (issue (holdsImm .saddi) g t s)

/-- SRD. -/
def execSxSrd (g : Fin 4) (t : Nat) (s : State) : Host.Outcome State Fault Refusal := .next (issue (fun w => match w.ar with | .srd _ _ _ => true | _ => false) g t s)

/-- SWR. -/
def execSxSwr (g : Fin 4) (t : Nat) (s : State) : Host.Outcome State Fault Refusal := .next (issue (fun w => match w.ar with | .swr _ _ _ => true | _ => false) g t s)

/-- SWRI. -/
def execSxSwri (g : Fin 4) (t : Nat) (s : State) : Host.Outcome State Fault Refusal := .next (issue (fun w => match w.ar with | .swri _ _ => true | _ => false) g t s)

/-- LDB. -/
def execSxLdb (g : Fin 4) (t : Nat) (s : State) : Host.Outcome State Fault Refusal := .next (issue (holdsMem .ldb) g t s)

/-- LDV. -/
def execSxLdv (g : Fin 4) (t : Nat) (s : State) : Host.Outcome State Fault Refusal := .next (issue (holdsMem .ldv) g t s)

/-- STL. -/
def execSxStl (g : Fin 4) (t : Nat) (s : State) : Host.Outcome State Fault Refusal := .next (issue (holdsMem .stl) g t s)

/-- STV. -/
def execSxStv (g : Fin 4) (t : Nat) (s : State) : Host.Outcome State Fault Refusal := .next (issue (holdsMem .stv) g t s)

/-- LDS. -/
def execSxLds (g : Fin 4) (t : Nat) (s : State) : Host.Outcome State Fault Refusal := .next (issue (holdsMem .lds) g t s)

/-- STS. -/
def execSxSts (g : Fin 4) (t : Nat) (s : State) : Host.Outcome State Fault Refusal := .next (issue (holdsMem .sts) g t s)

/-- STAV. -/
def execSxStav (g : Fin 4) (t : Nat) (s : State) : Host.Outcome State Fault Refusal := .next (issue (holdsMem .stav) g t s)

/-- DUTY. -/
def execSxDuty (g : Fin 4) (t : Nat) (s : State) : Host.Outcome State Fault Refusal := .next (issue (fun w => match w.ys with | .duty _ _ _ _ => true | _ => false) g t s)

/-- EXT load. -/
def execSxExtLoad (g : Fin 4) (t : Nat) (s : State) : Host.Outcome State Fault Refusal := .next (issue (fun w => match w.ys with | .ext _ _ false _ _ _ => true | _ => false) g t s)

/-- EXT store. -/
def execSxExtStore (g : Fin 4) (t : Nat) (s : State) : Host.Outcome State Fault Refusal := .next (issue (fun w => match w.ys with | .ext _ _ true _ _ _ => true | _ => false) g t s)

/-- LOOP. -/
def execSxLoop (g : Fin 4) (t : Nat) (s : State) : Host.Outcome State Fault Refusal := .next (issue (fun w => match w.ys with | .loopI _ _ _ => true | .loopS _ _ _ => true | _ => false) g t s)

/-- BR. -/
def execSxBr (g : Fin 4) (t : Nat) (s : State) : Host.Outcome State Fault Refusal := .next (issue (fun w => match w.ys with | .br _ _ => true | _ => false) g t s)

/-- JMP. -/
def execSxJmp (g : Fin 4) (t : Nat) (s : State) : Host.Outcome State Fault Refusal := .next (issue (fun w => match w.ys with | .jmp _ _ => true | _ => false) g t s)

/-- RET. -/
def execSxRet (g : Fin 4) (t : Nat) (s : State) : Host.Outcome State Fault Refusal := .next (issue (fun w => match w.ys with | .ret _ => true | _ => false) g t s)

/-- LDAG. -/
def execSxLdag (g : Fin 4) (t : Nat) (s : State) : Host.Outcome State Fault Refusal := .next (issue (fun w => match w.ys with | .ldag _ _ => true | _ => false) g t s)

/-- UNDEFINED_ENCODING. -/
def execUndefinedEncoding (g : Fin 4) (t : Nat) (s : State) : Host.Outcome State Fault Refusal := .next (issueUndefined g t s)

end Sys2Proof.Machine
end

