-- ==== Sys2Proof/Machine/Dispatch.lean ====
section
/-!
DEFINITION. The dispatch: one arm per command of spec/opcode_table.json, each one call of the meaning of that command. exec is the effect of a command
on everything but the queue of waiting commands, which no meaning reads or writes.
-/
namespace Sys2Proof.Machine

def exec (i : Instr) (s : State) : Host.Outcome State Fault Refusal :=
  match i with
  | .powerUp => Sys2Proof.Machine.execPowerUp s
  | .railTmo r => Sys2Proof.Machine.execRailTmo r s
  | .brownout c r => Sys2Proof.Machine.execBrownout c r s
  | .resetnExternalLow => Sys2Proof.Machine.execResetnExternalLow s
  | .resetnRelease v => Sys2Proof.Machine.execResetnRelease v s
  | .flashNoResponse stage t => Sys2Proof.Machine.execFlashNoResponse stage t s
  | .sealInForce code t => Sys2Proof.Machine.execSealInForce code t s
  | .reg h p t => Sys2Proof.Machine.execReg h p t s
  | .mem h p t => Sys2Proof.Machine.execMem h p t s
  | .kernel h p t => Sys2Proof.Machine.execKernel h p t s
  | .points h p t => Sys2Proof.Machine.execPoints h p t s
  | .prot h p t => Sys2Proof.Machine.execProt h p t s
  | .queue h p t => Sys2Proof.Machine.execQueue h p t s
  | .canmap h p t => Sys2Proof.Machine.execCanmap h p t s
  | .ringmap h p t => Sys2Proof.Machine.execRingmap h p t s
  | .owner h p t => Sys2Proof.Machine.execOwner h p t s
  | .safety h p t => Sys2Proof.Machine.execSafety h p t s
  | .patch h p t => Sys2Proof.Machine.execPatch h p t s
  | .keyfuse h p t => Sys2Proof.Machine.execKeyfuse h p t s
  | .sign h p t => Sys2Proof.Machine.execSign h p t s
  | .imgEnd h t => Sys2Proof.Machine.execEnd h t s
  | .drvLinkTrained t => Sys2Proof.Machine.execDrvLinkTrained t s
  | .drvLinkFail stage t => Sys2Proof.Machine.execDrvLinkFail stage t s
  | .fioLinkTrained t => Sys2Proof.Machine.execFioLinkTrained t s
  | .fioLinkFail stage t => Sys2Proof.Machine.execFioLinkFail stage t s
  | .portLock p delay t => Sys2Proof.Machine.execPortLock p delay t s
  | .enum own addr devs t => Sys2Proof.Machine.execEnum own addr devs t s
  | .config c t => Sys2Proof.Machine.execConfig c t s
  | .ringWatchZero t => Sys2Proof.Machine.execRingWatchZero t s
  | .ringStartFail t => Sys2Proof.Machine.execRingStartFail t s
  | .modeReqStandby t => Sys2Proof.Machine.execModeReqStandby t s
  | .modeReqRun t => Sys2Proof.Machine.execModeReqRun t s
  | .modeReqSleep t => Sys2Proof.Machine.execModeReqSleep t s
  | .faultAck t => Sys2Proof.Machine.execFaultAck t s
  | .thaw t => Sys2Proof.Machine.execThaw t s
  | .modeReqUndefined t => Sys2Proof.Machine.execModeReqUndefined t s
  | .runReleaseWave t => Sys2Proof.Machine.execRunReleaseWave t s
  | .ownerLost t => Sys2Proof.Machine.execOwnerLost t s
  | .helmQueue0Take err t => Sys2Proof.Machine.execHelmQueue0Take err t s
  | .postmortemWriteDone ok cause t => Sys2Proof.Machine.execPostmortemWriteDone ok cause t s
  | .axisStopTimeout n t => Sys2Proof.Machine.execAxisStopTimeout n t s
  | .safeStopEntry t => Sys2Proof.Machine.execSafeStopEntry t s
  | .periodBoundary g t => Sys2Proof.Machine.execPeriodBoundary g t s
  | .periodCentre g t raws => Sys2Proof.Machine.execPeriodCentre g t raws s
  | .stepHoldCurrent n t => Sys2Proof.Machine.execStepHoldCurrent n t s
  | .pwmCentreTrigger g t => Sys2Proof.Machine.execPwmCentreTrigger g t s
  | .dutyDeadline g t => Sys2Proof.Machine.execDutyDeadline g t s
  | .lateDuty g t => Sys2Proof.Machine.execLateDuty g t s
  | .dutyWd g t => Sys2Proof.Machine.execDutyWd g t s
  | .edgeCompute g t => Sys2Proof.Machine.execEdgeCompute g t s
  | .watchBoundary g t => Sys2Proof.Machine.execWatchBoundary g t s
  | .lateWatch g t => Sys2Proof.Machine.execLateWatch g t s
  | .deviceBoundary t => Sys2Proof.Machine.execDeviceBoundary t s
  | .watchTrigger g t => Sys2Proof.Machine.execWatchTrigger g t s
  | .homeTimeout n t => Sys2Proof.Machine.execHomeTimeout n t s
  | .homeNotFound n t => Sys2Proof.Machine.execHomeNotFound n t s
  | .hardstopDetect n t => Sys2Proof.Machine.execHardstopDetect n t s
  | .gearMasterStale n t => Sys2Proof.Machine.execGearMasterStale n t s
  | .superStale n t => Sys2Proof.Machine.execSuperStale n t s
  | .enable n t => Sys2Proof.Machine.execEnable n t s
  | .enableClear n t => Sys2Proof.Machine.execEnableClear n t s
  | .ack n t => Sys2Proof.Machine.execAck n t s
  | .qstop n t => Sys2Proof.Machine.execQstop n t s
  | .qstopRelease n t => Sys2Proof.Machine.execQstopRelease n t s
  | .hold n t => Sys2Proof.Machine.execHold n t s
  | .holdRelease n t => Sys2Proof.Machine.execHoldRelease n t s
  | .clearq n t => Sys2Proof.Machine.execClearq n t s
  | .home n t => Sys2Proof.Machine.execHome n t s
  | .homeClear n t => Sys2Proof.Machine.execHomeClear n t s
  | .gear n t => Sys2Proof.Machine.execGear n t s
  | .gearClear n t => Sys2Proof.Machine.execGearClear n t s
  | .super n t => Sys2Proof.Machine.execSuper n t s
  | .superClear n t => Sys2Proof.Machine.execSuperClear n t s
  | .append n t => Sys2Proof.Machine.execAppend n t s
  | .replace n t => Sys2Proof.Machine.execReplace n t s
  | .cut n t => Sys2Proof.Machine.execCut n t s
  | .chainDispatch g t => Sys2Proof.Machine.execChainDispatch g t s
  | .softwareTrigger v => Sys2Proof.Machine.execSoftwareTrigger v s
  | .coeffConversionDone n t => Sys2Proof.Machine.execCoeffConversionDone n t s
  | .nop g t => Sys2Proof.Machine.execSxNop g t s
  | .add g t => Sys2Proof.Machine.execSxAdd g t s
  | .sub g t => Sys2Proof.Machine.execSxSub g t s
  | .abs g t => Sys2Proof.Machine.execSxAbs g t s
  | .neg g t => Sys2Proof.Machine.execSxNeg g t s
  | .max g t => Sys2Proof.Machine.execSxMax g t s
  | .min g t => Sys2Proof.Machine.execSxMin g t s
  | .mov g t => Sys2Proof.Machine.execSxMov g t s
  | .and g t => Sys2Proof.Machine.execSxAnd g t s
  | .or g t => Sys2Proof.Machine.execSxOr g t s
  | .xor g t => Sys2Proof.Machine.execSxXor g t s
  | .lsl g t => Sys2Proof.Machine.execSxLsl g t s
  | .lsr g t => Sys2Proof.Machine.execSxLsr g t s
  | .asr g t => Sys2Proof.Machine.execSxAsr g t s
  | .cmpeq g t => Sys2Proof.Machine.execSxCmpeq g t s
  | .cmplt g t => Sys2Proof.Machine.execSxCmplt g t s
  | .cmple g t => Sys2Proof.Machine.execSxCmple g t s
  | .sel g t => Sys2Proof.Machine.execSxSel g t s
  | .mpy g t => Sys2Proof.Machine.execSxMpy g t s
  | .mac g t => Sys2Proof.Machine.execSxMac g t s
  | .msu g t => Sys2Proof.Machine.execSxMsu g t s
  | .mpyr g t => Sys2Proof.Machine.execSxMpyr g t s
  | .clra g t => Sys2Proof.Machine.execSxClra g t s
  | .lda g t => Sys2Proof.Machine.execSxLda g t s
  | .adda g t => Sys2Proof.Machine.execSxAdda g t s
  | .suba g t => Sys2Proof.Machine.execSxSuba g t s
  | .sha g t => Sys2Proof.Machine.execSxSha g t s
  | .movxa g t => Sys2Proof.Machine.execSxMovxa g t s
  | .exp g t => Sys2Proof.Machine.execSxExp g t s
  | .norm g t => Sys2Proof.Machine.execSxNorm g t s
  | .bcast g t => Sys2Proof.Machine.execSxBcast g t s
  | .extr g t => Sys2Proof.Machine.execSxExtr g t s
  | .sadd g t => Sys2Proof.Machine.execSxSadd g t s
  | .ssub g t => Sys2Proof.Machine.execSxSsub g t s
  | .sand g t => Sys2Proof.Machine.execSxSand g t s
  | .sor g t => Sys2Proof.Machine.execSxSor g t s
  | .sxor g t => Sys2Proof.Machine.execSxSxor g t s
  | .slsl g t => Sys2Proof.Machine.execSxSlsl g t s
  | .slsr g t => Sys2Proof.Machine.execSxSlsr g t s
  | .sasr g t => Sys2Proof.Machine.execSxSasr g t s
  | .scmp g t => Sys2Proof.Machine.execSxScmp g t s
  | .smov g t => Sys2Proof.Machine.execSxSmov g t s
  | .sldi g t => Sys2Proof.Machine.execSxSldi g t s
  | .sldh g t => Sys2Proof.Machine.execSxSldh g t s
  | .saddi g t => Sys2Proof.Machine.execSxSaddi g t s
  | .srd g t => Sys2Proof.Machine.execSxSrd g t s
  | .swr g t => Sys2Proof.Machine.execSxSwr g t s
  | .swri g t => Sys2Proof.Machine.execSxSwri g t s
  | .ldb g t => Sys2Proof.Machine.execSxLdb g t s
  | .ldv g t => Sys2Proof.Machine.execSxLdv g t s
  | .stl g t => Sys2Proof.Machine.execSxStl g t s
  | .stv g t => Sys2Proof.Machine.execSxStv g t s
  | .lds g t => Sys2Proof.Machine.execSxLds g t s
  | .sts g t => Sys2Proof.Machine.execSxSts g t s
  | .stav g t => Sys2Proof.Machine.execSxStav g t s
  | .duty g t => Sys2Proof.Machine.execSxDuty g t s
  | .extLoad g t => Sys2Proof.Machine.execSxExtLoad g t s
  | .extStore g t => Sys2Proof.Machine.execSxExtStore g t s
  | .extReadReturn g err t => Sys2Proof.Machine.execExtReadReturn g err t s
  | .postedWriteDrain g t => Sys2Proof.Machine.execPostedWriteDrain g t s
  | .loop g t => Sys2Proof.Machine.execSxLoop g t s
  | .br g t => Sys2Proof.Machine.execSxBr g t s
  | .jmp g t => Sys2Proof.Machine.execSxJmp g t s
  | .ret g t => Sys2Proof.Machine.execSxRet g t s
  | .ldag g t => Sys2Proof.Machine.execSxLdag g t s
  | .sxRun m g v t => Sys2Proof.Machine.execSxRun m g v t s
  | .sxRestart m g v t => Sys2Proof.Machine.execSxRestart m g v t s
  | .sxProbeWrite m g v t => Sys2Proof.Machine.execSxProbeWrite m g v t s
  | .chartWrite m p v own t => Sys2Proof.Machine.execChartWrite m p v own t s
  | .chartEvenRead m k err t => Sys2Proof.Machine.execChartEvenRead m k err t s
  | .snapshotRead m a t => Sys2Proof.Machine.execSnapshotRead m a t s
  | .commitArm m a v t => Sys2Proof.Machine.execCommitArm m a v t s
  | .registerWrite m a v t => Sys2Proof.Machine.execRegisterWrite m a v t s
  | .quePush m q prio fin w t => Sys2Proof.Machine.execQuePush m q prio fin w t s
  | .quePop m q err t => Sys2Proof.Machine.execQuePop m q err t s
  | .queReadComplete q err t => Sys2Proof.Machine.execQueReadComplete q err t s
  | .queSpill q k t => Sys2Proof.Machine.execQueSpill q k t s
  | .queRefill q err t => Sys2Proof.Machine.execQueRefill q err t s
  | .pwmForceWrite n v => Sys2Proof.Machine.execPwmForceWrite n v s
  | .pwmTripclr v => Sys2Proof.Machine.execPwmTripclr v s
  | .tripActive u src held t => Sys2Proof.Machine.execTripActive u src held t s
  | .outInterlock n slot t => Sys2Proof.Machine.execOutInterlock n slot t s
  | .sdStuck n k clocks t => Sys2Proof.Machine.execSdStuck n k clocks t s
  | .hkConversion c raw t => Sys2Proof.Machine.execHkConversion c raw t s
  | .helm1msUpdate t => Sys2Proof.Machine.execHelm1msUpdate t s
  | .encEdge c lines held t => Sys2Proof.Machine.execEncEdge c lines held t s
  | .cmpPulseEnd m t => Sys2Proof.Machine.execCmpPulseEnd m t s
  | .latchPinEdge m rising held t => Sys2Proof.Machine.execLatchPinEdge m rising held t s
  | .encSwlatch v => Sys2Proof.Machine.execEncSwlatch v s
  | .encArm v => Sys2Proof.Machine.execEncArm v s
  | .encWire c pair run lasts t => Sys2Proof.Machine.execEncWire c pair run lasts t s
  | .serialPollStart c t => Sys2Proof.Machine.execSerialPollStart c t s
  | .serialFrameDone c t r => Sys2Proof.Machine.execSerialFrameDone c t r s
  | .sched bytes t => Sys2Proof.Machine.execSched bytes t s
  | .drvOff copy1 copy2 t => Sys2Proof.Machine.execDrvOff copy1 copy2 t s
  | .cfg bytes t => Sys2Proof.Machine.execCfg bytes t s
  | .idle bytes t => Sys2Proof.Machine.execIdle bytes t s
  | .stat volts bytes t => Sys2Proof.Machine.execStat volts bytes t s
  | .drvLinkLost clock t => Sys2Proof.Machine.execDrvLinkLost clock t s
  | .drvDesat n b mv dur t => Sys2Proof.Machine.execDrvDesat n b mv dur t s
  | .drvDsclr v => Sys2Proof.Machine.execDrvDsclr v s
  | .bsLow n k mv dur t => Sys2Proof.Machine.execBsLow n k mv dur t s
  | .vgdOutOfRange dv t => Sys2Proof.Machine.execVgdOutOfRange dv t s
  | .drvVbrOv n dv t => Sys2Proof.Machine.execDrvVbrOv n dv t s
  | .drvOvertemp t => Sys2Proof.Machine.execDrvOvertemp t s
  | .shootGate n b t => Sys2Proof.Machine.execShootGate n b t s
  | .prechargeEnd n volts t => Sys2Proof.Machine.execPrechargeEnd n volts t s
  | .drvRbWrite v => Sys2Proof.Machine.execDrvRbWrite v s
  | .rbFault dv dur t => Sys2Proof.Machine.execRbFault dv dur t s
  | .fioDownstreamFrame t => Sys2Proof.Machine.execFioDownstreamFrame t s
  | .fioUpstreamFrame raw dv temp iload bytes t => Sys2Proof.Machine.execFioUpstreamFrame raw dv temp iload bytes t s
  | .fieldGoodSettled t => Sys2Proof.Machine.execFieldGoodSettled t s
  | .fioUpstreamMissing cause t => Sys2Proof.Machine.execFioUpstreamMissing cause t s
  | .fioDownstreamSilent t => Sys2Proof.Machine.execFioDownstreamSilent t s
  | .diFilterChange k samples t => Sys2Proof.Machine.execDiFilterChange k samples t s
  | .doOverload o cur dur t => Sys2Proof.Machine.execDoOverload o cur dur t s
  | .doOvertemp o t => Sys2Proof.Machine.execDoOvertemp o t s
  | .doOpenload o cur dur t => Sys2Proof.Machine.execDoOpenload o cur dur t s
  | .doOpenoff o dv dur t => Sys2Proof.Machine.execDoOpenoff o dv dur t s
  | .doBackfeed o dv dur t => Sys2Proof.Machine.execDoBackfeed o dv dur t s
  | .tpsPulse n start raw t => Sys2Proof.Machine.execTpsPulse n start raw t s
  | .tpsOverload n dur t => Sys2Proof.Machine.execTpsOverload n dur t s
  | .tpsRetry n t => Sys2Proof.Machine.execTpsRetry n t s
  | .fioForceWrite v => Sys2Proof.Machine.execFioForceWrite v s
  | .safetyCycle fb den code t => Sys2Proof.Machine.execSafetyCycle fb den code t s
  | .safeDemand k t => Sys2Proof.Machine.execSafeDemand k t s
  | .ss1RampEnd g t => Sys2Proof.Machine.execSs1RampEnd g t s
  | .ss1Timeout g t => Sys2Proof.Machine.execSs1Timeout g t s
  | .sfHelmWd t => Sys2Proof.Machine.execSfHelmWd t s
  | .sfClock lost dev dur t => Sys2Proof.Machine.execSfClock lost dev dur t s
  | .safetyMemoryTest rom ok t => Sys2Proof.Machine.execSafetyMemoryTest rom ok t s
  | .safetyParamCrc w x t => Sys2Proof.Machine.execSafetyParamCrc w x t s
  | .sfStoFb g level t => Sys2Proof.Machine.execSfStoFb g level t s
  | .sfDenFb level t => Sys2Proof.Machine.execSfDenFb level t s
  | .sbcDelayExpiry b t => Sys2Proof.Machine.execSbcDelayExpiry b t s
  | .sbcFeedback b t => Sys2Proof.Machine.execSbcFeedback b t s
  | .safetyReset t => Sys2Proof.Machine.execSafetyReset t s
  | .stotest m t => Sys2Proof.Machine.execStotest m t s
  | .stoTestEnd t => Sys2Proof.Machine.execStoTestEnd t s
  | .stoTestDue g t => Sys2Proof.Machine.execStoTestDue g t s
  | .safeEditWrite ctl v t => Sys2Proof.Machine.execSafeEditWrite ctl v t s
  | .safeEditConfirm ctl v t => Sys2Proof.Machine.execSafeEditConfirm ctl v t s
  | .safeRecordWritten ok stage t => Sys2Proof.Machine.execSafeRecordWritten ok stage t s
  | .ringFrameLaunch t => Sys2Proof.Machine.execRingFrameLaunch t s
  | .ringFramePass p f t => Sys2Proof.Machine.execRingFramePass p f t s
  | .ringWatchBoundary t => Sys2Proof.Machine.execRingWatchBoundary t s
  | .mailboxPacketTake err t => Sys2Proof.Machine.execMailboxPacketTake err t s
  | .spanDown p t => Sys2Proof.Machine.execSpanDown p t s
  | .spanRelock p delay t => Sys2Proof.Machine.execSpanRelock p delay t s
  | .ringLost t => Sys2Proof.Machine.execRingLost t s
  | .ringStale a t => Sys2Proof.Machine.execRingStale a t s
  | .tlock t => Sys2Proof.Machine.execTlock t s
  | .ringTimeErr t => Sys2Proof.Machine.execRingTimeErr t s
  | .ringWakePattern t => Sys2Proof.Machine.execRingWakePattern t s
  | .canFrameReceived c f t => Sys2Proof.Machine.execCanFrameReceived c f t s
  | .canTxStart c torn t => Sys2Proof.Machine.execCanTxStart c torn t s
  | .canTxComplete c sof t => Sys2Proof.Machine.execCanTxComplete c sof t s
  | .canBusError c tec rec_ lec dlec t => Sys2Proof.Machine.execCanBusError c tec rec_ lec dlec t s
  | .canCyclicTx c t => Sys2Proof.Machine.execCanCyclicTx c t s
  | .canInitSet m c t => Sys2Proof.Machine.execCanInitSet m c t s
  | .canInitEntered c t => Sys2Proof.Machine.execCanInitEntered c t s
  | .canInitClear m c t => Sys2Proof.Machine.execCanInitClear m c t s
  | .canActive c t => Sys2Proof.Machine.execCanActive c t s
  | .borec m c t => Sys2Proof.Machine.execBorec m c t s
  | .canRecovered c t => Sys2Proof.Machine.execCanRecovered c t s
  | .stbreq m c on t => Sys2Proof.Machine.execStbreq m c on t s
  | .canTxreq m c k v t => Sys2Proof.Machine.execCanTxreq m c k v t s
  | .canWake c held t => Sys2Proof.Machine.execCanWake c held t s
  | .wakePin level held t => Sys2Proof.Machine.execWakePin level held t s
  | .sleepEntered t => Sys2Proof.Machine.execSleepEntered t s
  | .updBegin seq len crc t => Sys2Proof.Machine.execBegin seq len crc t s
  | .updData seq ofs cnt bytes t => Sys2Proof.Machine.execData seq ofs cnt bytes t s
  | .updFinish seq t => Sys2Proof.Machine.execFinish seq t s
  | .updAbort seq t => Sys2Proof.Machine.execAbort seq t s
  | .updateTimeout t => Sys2Proof.Machine.execUpdateTimeout t s
  | .flashOperationDone ok ofs op t => Sys2Proof.Machine.execFlashOperationDone ok ofs op t s
  | .admissionEvaluation t => Sys2Proof.Machine.execAdmissionEvaluation t s
  | .startTimeout t => Sys2Proof.Machine.execStartTimeout t s
  | .pmuStartBudgetWrite v => Sys2Proof.Machine.execPmuStartBudgetWrite v s
  | .refclkLost t => Sys2Proof.Machine.execRefclkLost t s
  | .dpllUnlock k t => Sys2Proof.Machine.execDpllUnlock k t s
  | .chronInitHi m v t => Sys2Proof.Machine.execChronInitHi m v t s
  | .protLock m v t => Sys2Proof.Machine.execProtLock m v t s
  | .profClippkWrite m n v t => Sys2Proof.Machine.execProfClippkWrite m n v t s
  | .loopLoadclr v => Sys2Proof.Machine.execLoopLoadclr v s
  | .scrubRead w err t => Sys2Proof.Machine.execScrubRead w err t s
  | .edramRefresh row t => Sys2Proof.Machine.execEdramRefresh row t s
  | .logEntryWrite err t => Sys2Proof.Machine.execLogEntryWrite err t s
  | .logRequest t => Sys2Proof.Machine.execLogRequest t s
  | .testenHigh => Sys2Proof.Machine.execTestenHigh s
  | .extest cells => Sys2Proof.Machine.execExtest cells s
  | .idcode => Sys2Proof.Machine.execIdcode s
  | .samplePreload cap cells => Sys2Proof.Machine.execSamplePreload cap cells s
  | .clamp => Sys2Proof.Machine.execClamp s
  | .highz => Sys2Proof.Machine.execHighz s
  | .bypass => Sys2Proof.Machine.execBypass s
  | .undefinedEncoding g t => Sys2Proof.Machine.execUndefinedEncoding g t s
  | .vgdBackInRange dv t => Sys2Proof.Machine.execVgdBackInRange dv t s
  | .vbrBackBelow64v n t => Sys2Proof.Machine.execVbrBackBelow64v n t s
  | .ovpRelease => Sys2Proof.Machine.execOvpRelease s
  | .railSequenceRestart => Sys2Proof.Machine.execRailSequenceRestart s
  | .wakeStepElapsed t => Sys2Proof.Machine.execWakeStepElapsed t s
  | .testenRelease => Sys2Proof.Machine.execTestenRelease s
  | .testLogicReset => Sys2Proof.Machine.execTestLogicReset s
  | .doDiagnosticClear o k x dur t => Sys2Proof.Machine.execDoDiagnosticClear o k x dur t s

end Sys2Proof.Machine
end

