-- ==== Sys2Proof/Machine/Step.lean ====
section
/-!
DEFINITION. The step of the block: it takes the command at the front of its queue; on an empty queue the Chronometer goes on by one
tick of 2 ns (DESIGN CHOICE, log entry 30). The table gives no command bits, so no word puts one into the queue.
-/
namespace Sys2Proof.Machine

/-- An idle step: one tick of the Chronometer, 2 ns (spec 20 R498; log entry 30). -/
def idle (s : State) : State := { s with now := s.now + 2 }

/-- The command at the front of the queue takes effect on the state that holds the rest; an empty queue idles. -/
def step (s : State) : Host.Outcome State Fault Refusal :=
  match s.pending with
  | [] => .next (idle s)
  | c :: rest => exec c { s with pending := rest }

/-- s with the command that a word spells put at the front of its queue; s where the word spells none. -/
def State.withFetchWord (s : State) (nbits w : Nat) : State :=
  match decodeTableWord nbits w with
  | some c => { s with pending := c :: s.pending }
  | none => s

end Sys2Proof.Machine
end

