-- ==== Sys2Proof/Safety.lean ====
section
/-!
DEFINITION. What a safe run keeps: the parts of the state that a command may touch, and the canonical form of the sparse data. Claims
about frames and about invariants are stated with these.
-/
namespace Sys2Proof.Machine

/-- The parts of the state, one for each field. -/
inductive Part where
  | now | regs | pts | attrs | held | snaps | mem | bad | busData | queues | sides | stalls | q0pend | helm | fresh | mot | ax | gear | sup | env | igrp | homing | stp | pwmA | pwmG | pinsLow | loop | clu | enc | cmpPins | latPins | sdm | hk | drv | adm | pwr | fio | safe | ring | can | boot | pins | pending
  deriving DecidableEq, Repr

/-- Two states agree on a part. -/
def Part.same : Part → State → State → Prop
  | .now, s, t => t.now = s.now
  | .regs, s, t => t.regs = s.regs
  | .pts, s, t => t.pts = s.pts
  | .attrs, s, t => t.attrs = s.attrs
  | .held, s, t => t.held = s.held
  | .snaps, s, t => t.snaps = s.snaps
  | .mem, s, t => t.mem = s.mem
  | .bad, s, t => t.bad = s.bad
  | .busData, s, t => t.busData = s.busData
  | .queues, s, t => t.queues = s.queues
  | .sides, s, t => t.sides = s.sides
  | .stalls, s, t => t.stalls = s.stalls
  | .q0pend, s, t => t.q0pend = s.q0pend
  | .helm, s, t => t.helm = s.helm
  | .fresh, s, t => t.fresh = s.fresh
  | .mot, s, t => t.mot = s.mot
  | .ax, s, t => t.ax = s.ax
  | .gear, s, t => t.gear = s.gear
  | .sup, s, t => t.sup = s.sup
  | .env, s, t => t.env = s.env
  | .igrp, s, t => t.igrp = s.igrp
  | .homing, s, t => t.homing = s.homing
  | .stp, s, t => t.stp = s.stp
  | .pwmA, s, t => t.pwmA = s.pwmA
  | .pwmG, s, t => t.pwmG = s.pwmG
  | .pinsLow, s, t => t.pinsLow = s.pinsLow
  | .loop, s, t => t.loop = s.loop
  | .clu, s, t => t.clu = s.clu
  | .enc, s, t => t.enc = s.enc
  | .cmpPins, s, t => t.cmpPins = s.cmpPins
  | .latPins, s, t => t.latPins = s.latPins
  | .sdm, s, t => t.sdm = s.sdm
  | .hk, s, t => t.hk = s.hk
  | .drv, s, t => t.drv = s.drv
  | .adm, s, t => t.adm = s.adm
  | .pwr, s, t => t.pwr = s.pwr
  | .fio, s, t => t.fio = s.fio
  | .safe, s, t => t.safe = s.safe
  | .ring, s, t => t.ring = s.ring
  | .can, s, t => t.can = s.can
  | .boot, s, t => t.boot = s.boot
  | .pins, s, t => t.pins = s.pins
  | .pending, s, t => t.pending = s.pending

/-- From s to t nothing changes but the listed parts: every register, point, byte and record of another part keeps its value. -/
def Only (ps : List Part) (s t : State) : Prop := ∀ p, p ∉ ps → p.same s t

/-- The sparse data are in canonical form: registers, points, attribute words and memory (log entry 4). -/
def Canon (s : State) : Prop :=
  swf regReset s.regs = true ∧ swf (fun _ => 0#32) s.pts = true ∧ swf (fun _ => 0xF30#32) s.attrs = true ∧ swf memDefault s.mem = true

/-! ### Footprints -/

/-- Every part. -/
def allParts : List Part :=
  [.now, .regs, .pts, .attrs, .held, .snaps, .mem, .bad, .busData, .queues, .sides, .stalls, .q0pend, .helm, .fresh, .mot, .ax, .gear, .sup, .env, .igrp, .homing, .stp, .pwmA, .pwmG, .pinsLow, .loop, .clu, .enc, .cmpPins, .latPins, .sdm, .hk, .drv, .adm, .pwr, .fio, .safe, .ring, .can, .boot, .pins, .pending]
/-- Every part but the listed ones. -/
def partsBut (ps : List Part) : List Part := allParts.filter (fun p => !ps.contains p)
/-- What time and the raising of a fault or event touch: the instant, the event counters and status registers, the Helm's points and records,
the queues of faults and log items, the last code of an axis, and the triggers that wait on a cluster. -/
def eventParts : List Part := [.now, .regs, .pts, .queues, .q0pend, .helm, .ax, .clu]
/-- What removing torque from axes touches besides. -/
def offParts : List Part := eventParts ++ [.mot, .homing, .loop, .drv, .adm]

/-- The parts of the state that a command may touch. What is not listed for it keeps its value, whatever the state. -/
def footprint : Instr → List Part
  | .encArm .. | .pmuStartBudgetWrite .. | .loopLoadclr .. | .fioForceWrite .. => [.regs]
  | .drvDsclr .. => [.drv]
  | .testenRelease => [.pins]
  | .cfg .. => [.now, .drv]
  | .drvRbWrite .. => [.regs, .drv]
  | .coeffConversionDone .. => [.now, .loop]
  | .fieldGoodSettled .. | .diFilterChange .. => [.now, .fio]
  | .tpsRetry .. | .spanDown .. | .tlock .. => [.now, .regs]
  | .queSpill .. => [.now, .queues]
  | .canCyclicTx .. => [.now, .can]
  | .ringFrameLaunch .. => [.now, .ring]
  | .safeStopEntry .. => [.now, .pts]
  | .powerUp | .ovpRelease | .railSequenceRestart => [.regs, .pwr]
  | .ringWakePattern .. | .canWake .. | .wakePin .. | .wakeStepElapsed .. => [.now, .pwr]
  | .stat .. | .drvLinkTrained .. | .vgdBackInRange .. | .vbrBackBelow64v .. => [.now, .regs, .drv]
  | .stepHoldCurrent .. => [.now, .regs, .stp]
  | .fioLinkTrained .. | .doDiagnosticClear .. => [.now, .regs, .fio]
  | .sbcDelayExpiry .. => [.now, .regs, .safe]
  | .canActive .. => [.now, .regs, .can]
  | .portLock .. | .spanRelock .. => [.now, .regs, .ring]
  | .drvOff .. => [.now, .regs, .ax, .drv]
  | .edgeCompute .. => [.now, .regs, .pwmA, .drv]
  | .softwareTrigger .. => [.regs, .pts, .queues, .clu]
  | .fioDownstreamSilent .. => [.now, .regs, .adm, .fio]
  | .pwmCentreTrigger .. => [.now, .regs, .pts, .queues, .clu]
  | .watchTrigger .. => [.now, .regs, .pts, .queues, .pwmG, .clu]
  | .pwmForceWrite .. => [.regs, .pts, .queues, .q0pend, .helm, .ax, .clu]
  | .encSwlatch .. => [.regs, .pts, .queues, .q0pend, .helm, .ax, .homing, .clu]
  | .drvLinkFail .. | .outInterlock .. | .axisStopTimeout .. | .fioLinkFail .. | .doOverload .. | .doOpenload .. | .doOpenoff ..
  | .doBackfeed .. | .edramRefresh .. | .queRefill .. | .ringStale .. | .ownerLost .. | .refclkLost .. | .dpllUnlock ..
  | .undefinedEncoding .. => eventParts
  | .sched .. | .idle .. | .drvLinkLost .. | .drvDesat .. | .bsLow .. | .vgdOutOfRange .. | .drvVbrOv .. | .drvOvertemp .. | .shootGate ..
  | .prechargeEnd .. | .rbFault .. => eventParts ++ [.drv]
  | .pwmTripclr .. => [.regs, .pts, .queues, .q0pend, .helm, .ax, .pwmA, .pwmG, .clu]
  | .sdStuck .. => eventParts ++ [.sdm]
  | .hkConversion .. => eventParts ++ [.hk]
  | .startTimeout .. => eventParts ++ [.adm]
  | .fioUpstreamMissing .. | .doOvertemp .. | .tpsOverload .. => eventParts ++ [.fio]
  | .stoTestDue .. | .safeEditConfirm .. | .safeRecordWritten .. => eventParts ++ [.safe]
  | .updBegin .. | .updData .. | .updFinish .. | .updAbort .. | .updateTimeout .. | .flashOperationDone .. | .postmortemWriteDone .. => eventParts ++ [.boot]
  | .canBusError .. | .canInitEntered .. | .canRecovered .. => eventParts ++ [.can]
  | .ringFramePass .. | .mailboxPacketTake .. | .ringLost .. | .ringTimeErr .. => eventParts ++ [.ring]
  | .logEntryWrite .. => eventParts ++ [.mem]
  | .admissionEvaluation .. => eventParts ++ [.drv, .adm]
  | .qstopRelease .. | .hold .. | .holdRelease .. | .clearq .. | .append .. | .replace .. | .cut .. => eventParts ++ [.mot, .igrp]
  | .safeEditWrite .. => eventParts ++ [.fresh, .safe]
  | .config .. => eventParts ++ [.ring, .boot]
  | .encEdge .. | .cmpPulseEnd .. | .encWire .. | .serialPollStart .. | .serialFrameDone .. => eventParts ++ [.homing, .enc, .cmpPins]
  | .homeTimeout .. | .homeNotFound .. | .home .. | .homeClear .. => eventParts ++ [.mot, .igrp, .homing]
  | .gearMasterStale .. => eventParts ++ [.mot, .gear, .igrp]
  | .superStale .. | .super .. | .superClear .. => eventParts ++ [.mot, .sup, .igrp]
  | .chainDispatch .. | .nop .. | .add .. | .sub .. | .abs .. | .neg .. | .max .. | .min .. | .mov .. | .and .. | .or .. | .xor ..
  | .lsl .. | .lsr .. | .asr .. | .cmpeq .. | .cmplt .. | .cmple .. | .sel .. | .mpy .. | .mac .. | .msu .. | .mpyr .. | .clra .. | .lda ..
  | .adda .. | .suba .. | .sha .. | .movxa .. | .exp .. | .norm .. | .bcast .. | .extr .. | .sadd .. | .ssub .. | .sand .. | .sor ..
  | .sxor .. | .slsl .. | .slsr .. | .sasr .. | .scmp .. | .smov .. | .sldi .. | .sldh .. | .saddi .. | .srd .. | .swr .. | .swri ..
  | .ldb .. | .ldv .. | .stl .. | .stv .. | .lds .. | .sts .. | .stav .. | .duty .. | .extLoad .. | .extStore .. | .loop .. | .br ..
  | .jmp .. | .ret .. | .ldag .. => eventParts ++ [.fresh, .pwmA, .loop]
  | .fioDownstreamFrame .. => eventParts ++ [.drv, .adm, .fio]
  | .scrubRead .. => eventParts ++ [.attrs, .mem, .bad]
  | .queReadComplete .. => eventParts ++ [.busData, .sides, .stalls]
  | .latchPinEdge .. => eventParts ++ [.homing, .enc, .cmpPins, .latPins]
  | .tripActive .. => eventParts ++ [.pwmA, .pwmG, .sdm, .drv]
  | .enable .. => eventParts ++ [.mot, .igrp, .drv, .adm]
  | .fioUpstreamFrame .. => eventParts ++ [.homing, .hk, .fio, .safe]
  | .protLock .. | .quePush .. => eventParts ++ [.held, .drv, .safe, .boot]
  | .qstop .. | .gear .. | .gearClear .. => eventParts ++ [.mot, .gear, .sup, .env, .igrp]
  | .periodCentre .. => eventParts ++ [.homing, .stp, .enc, .cmpPins, .sdm]
  | .canTxStart .. | .canInitSet .. | .canInitClear .. | .borec .. | .stbreq .. | .canTxreq .. => eventParts ++ [.held, .drv, .safe, .can, .boot]
  | .hardstopDetect .. => eventParts ++ [.mot, .env, .igrp, .homing, .stp, .loop]
  | .chartWrite .. | .canTxComplete .. | .helm1msUpdate .. | .logRequest .. => eventParts ++ [.attrs, .held, .bad, .drv, .safe, .can, .boot]
  | .quePop .. => eventParts ++ [.held, .busData, .sides, .stalls, .drv, .safe, .boot]
  | .lateWatch .. => offParts ++ [.gear, .igrp, .pwmA]
  | .ss1RampEnd .. | .ss1Timeout .. | .sfHelmWd .. | .sfClock .. | .safetyMemoryTest .. | .safetyParamCrc .. | .sfStoFb .. | .sfDenFb ..
  | .sbcFeedback .. | .safetyReset .. | .stotest .. | .stoTestEnd .. => offParts ++ [.gear, .igrp, .safe]
  | .canFrameReceived .. => eventParts ++ [.attrs, .held, .bad, .fresh, .drv, .safe, .can, .boot]
  | .dutyDeadline .. | .lateDuty .. | .dutyWd .. | .ack .. => offParts ++ [.gear, .igrp, .pwmA, .pwmG]
  | .enableClear .. => offParts ++ [.gear, .sup, .env, .igrp]
  | .safeDemand .. => offParts ++ [.fresh, .gear, .igrp, .safe]
  | .chartEvenRead .. => eventParts ++ [.attrs, .held, .snaps, .mem, .bad, .busData, .drv, .safe, .boot]
  | .extReadReturn .. => eventParts ++ [.attrs, .held, .snaps, .mem, .bad, .fresh, .drv, .safe, .boot]
  | .tpsPulse .. => offParts ++ [.fresh, .gear, .igrp, .fio, .safe]
  | .ringWatchBoundary .. => eventParts ++ [.attrs, .held, .bad, .fresh, .gear, .drv, .safe, .ring, .can, .boot]
  | .flashNoResponse .. => offParts ++ [.gear, .igrp, .pwr, .safe, .boot]
  | .enum .. | .ringStartFail .. => offParts ++ [.gear, .igrp, .pwr, .safe, .ring, .boot]
  | .helmQueue0Take .. => offParts ++ [.gear, .igrp, .pwmA, .pwr, .safe, .boot]
  | .chronInitHi .. | .profClippkWrite .. | .sxRun .. | .sxRestart .. | .sxProbeWrite .. | .postedWriteDrain .. => eventParts ++ [.attrs, .held, .mem, .bad, .homing, .pwmA, .pwmG, .cmpPins, .drv, .safe, .can, .boot]
  | .modeReqStandby .. | .modeReqRun .. | .modeReqSleep .. | .faultAck .. | .thaw .. | .modeReqUndefined .. | .runReleaseWave .. => offParts ++ [.stalls, .gear, .igrp, .pwmA, .pwmG, .pwr, .safe, .ring]
  | .commitArm .. | .registerWrite .. => eventParts ++ [.attrs, .held, .mem, .bad, .homing, .pwmA, .pwmG, .enc, .cmpPins, .drv, .safe, .can, .boot]
  | .periodBoundary .. => eventParts ++ [.attrs, .held, .bad, .fresh, .gear, .pwmA, .pwmG, .pinsLow, .sdm, .drv, .safe, .ring, .can, .boot]
  | .snapshotRead .. => eventParts ++ [.attrs, .held, .snaps, .mem, .bad, .busData, .sides, .stalls, .homing, .enc, .cmpPins, .drv, .safe, .boot]
  | .sleepEntered .. => offParts ++ [.gear, .igrp, .pwmA, .pwmG, .pinsLow, .sdm, .pwr, .fio, .safe, .ring]
  | .ringWatchZero .. => offParts ++ [.fresh, .gear, .igrp, .pwmA, .pwmG, .pinsLow, .pwr, .safe, .ring, .can, .boot]
  | .watchBoundary .. => offParts ++ [.attrs, .held, .bad, .fresh, .gear, .sup, .env, .igrp, .stp, .pwmA, .pwmG, .pinsLow, .sdm, .safe, .ring, .can, .boot]
  | .deviceBoundary .. => offParts ++ [.attrs, .held, .bad, .stalls, .fresh, .gear, .sup, .env, .igrp, .stp, .pwmA, .pwmG, .pinsLow, .sdm, .pwr, .safe, .ring, .can, .boot]
  | .reg .. | .mem .. | .kernel .. | .points .. | .prot .. | .queue .. | .canmap .. | .ringmap .. | .owner .. | .safety .. | .patch ..
  | .keyfuse .. | .sign .. => partsBut [.fresh, .pinsLow, .fio, .pins, .pending]
  | .safetyCycle .. | .sealInForce .. => partsBut [.pinsLow, .fio, .pins, .pending]
  | .resetnExternalLow => partsBut [.fresh, .pins, .pending]
  | .resetnRelease .. | .railTmo .. | .brownout .. | .testenHigh | .extest .. | .idcode | .samplePreload .. | .clamp | .highz | .bypass
  | .testLogicReset => partsBut [.fresh, .pending]
  | .imgEnd .. => partsBut [.pins, .pending]


/-! ### Sextant words -/

/-- Cluster g issues the word w, and no fault of 11 R294 meets it: it runs a chain, no external read of it is outstanding, the program
word at PC spells w, and the posted-write buffer has room where w stores through the crossbar (11 R272). -/
def Issues (s : State) (g : Fin 4) (w : SxWord) : Prop :=
  canIssue s g = true ∧ decodeWord (nextWord s g).toNat = some w ∧ loopClash s.clu[g] w = false ∧ addrFault s.clu[g] w = none ∧
    loopFault s.clu[g] w = none ∧ bufferFull s.clu[g] w.ys = false

/-- The word does not end its chain entry. -/
def stays (w : SxWord) : Prop := ∀ n, w.ys ≠ .ret n

/-- The lane operations that write a lane register (Table 12-3). -/
def writesLane (k : LaneK) : Bool := !(k.toAcc || k == .norm || k.noLane)

/-- The row of the opcode table of a lane operation, on cluster g at ship time t. -/
def laneRow (k : LaneK) (g : Fin 4) (t : Nat) (i : Instr) : Prop :=
  match k with
  | .add => i = .add g t
  | .sub => i = .sub g t
  | .abs => i = .abs g t
  | .neg => i = .neg g t
  | .max => i = .max g t
  | .min => i = .min g t
  | .mov => i = .mov g t
  | .and => i = .and g t
  | .or => i = .or g t
  | .xor => i = .xor g t
  | .lsl => i = .lsl g t
  | .lsr => i = .lsr g t
  | .asr => i = .asr g t
  | .cmpeq => i = .cmpeq g t
  | .cmplt => i = .cmplt g t
  | .cmple => i = .cmple g t
  | .sel => i = .sel g t
  | .mpy => i = .mpy g t
  | .mac => i = .mac g t
  | .msu => i = .msu g t
  | .mpyr => i = .mpyr g t
  | .clra => i = .clra g t
  | .lda => i = .lda g t
  | .adda => i = .adda g t
  | .suba => i = .suba g t
  | .movxa => i = .movxa g t
  | .exp => i = .exp g t
  | .norm => i = .norm g t
  | .bcast => i = .bcast g t
  | .extr => i = .extr g t

/-- The row of a scalar operation. -/
def scalRow (k : ScalK) (g : Fin 4) (t : Nat) (i : Instr) : Prop :=
  match k with
  | .sadd => i = .sadd g t
  | .ssub => i = .ssub g t
  | .sand => i = .sand g t
  | .sor => i = .sor g t
  | .sxor => i = .sxor g t
  | .slsl => i = .slsl g t
  | .slsr => i = .slsr g t
  | .sasr => i = .sasr g t
  | .scmp => i = .scmp g t
  | .smov => i = .smov g t

/-- The row of a scalar immediate operation. -/
def immRow (k : ImmK) (g : Fin 4) (t : Nat) (i : Instr) : Prop :=
  match k with
  | .sldi => i = .sldi g t
  | .sldh => i = .sldh g t
  | .saddi => i = .saddi g t

/-- The row of a memory operation. -/
def memRow (k : MemK) (g : Fin 4) (t : Nat) (i : Instr) : Prop :=
  match k with
  | .ldb => i = .ldb g t
  | .ldv => i = .ldv g t
  | .stl => i = .stl g t
  | .stv => i = .stv g t
  | .lds => i = .lds g t
  | .sts => i = .sts g t
  | .stav => i = .stav g t

/-- The row of the opcode table of an operation of the word w: its arithmetic operation, or one of its moves or control operations. The
whole word issues with the row. -/
def rowOf (w : SxWord) (g : Fin 4) (t : Nat) (i : Instr) : Prop :=
  (∃ low, w.ar = .nop low ∧ i = .nop g t) ∨ (∃ k fmt msk d a b aux, w.ar = .lane k fmt msk d a b aux ∧ laneRow k g t i) ∨
  (∃ fmt msk d cnt low, w.ar = .sha fmt msk d cnt low ∧ i = .sha g t) ∨
  (∃ k sd sa sb im n low, w.ar = .scal k sd sa sb im n low ∧ scalRow k g t i) ∨ (∃ k sd gap n, w.ar = .simm k sd gap n ∧ immRow k g t i) ∨
  (∃ n sd low, w.ar = .srd n sd low ∧ i = .srd g t) ∨ (∃ n sa low, w.ar = .swr n sa low ∧ i = .swr g t) ∨
  (∃ n m, w.ar = .swri n m ∧ i = .swri g t) ∨ (∃ m ∈ memOps w, memRow m.k g t i) ∨
  (∃ r p v l, w.ys = .duty r p v l ∧ i = .duty g t) ∨ (∃ d a p b n, w.ys = .ext d a false p b n ∧ i = .extLoad g t) ∨
  (∃ d a p b n, w.ys = .ext d a true p b n ∧ i = .extStore g t) ∨ (∃ r n m, w.ys = .loopI r n m ∧ i = .loop g t) ∨
  (∃ r n m, w.ys = .loopS r n m ∧ i = .loop g t) ∨ (∃ c o, w.ys = .br c o ∧ i = .br g t) ∨ (∃ p a, w.ys = .jmp p a ∧ i = .jmp g t) ∨
  (∃ n, w.ys = .ret n ∧ i = .ret g t) ∨ (∃ n a, w.ys = .ldag n a ∧ i = .ldag g t)

end Sys2Proof.Machine
end

