-- ==== Sys2Proof/Certificates/Slice0/Obligations.lean ====
section
/-!
DEFINITION. The statements for the provers. Each docstring names the rules of spec/ that the statement rests on, by chapter and rule; where a
clause rests on the model's own choice it says so and names the log entry. A statement about a next state says that exec answers one.
-/
namespace Sys2Proof.Machine

/-- Master m may make an access of a kind at an address, and something decodes it (13 R320, R333; 02 R59): not frozen, granted, decoded. -/
def Performs (s : State) (m kind a : Nat) : Prop := frozen s m = false ∧ granted s m kind a = true ∧ decodes a = true

/-- One fault is raised and stands unacknowledged: from s to n the list of standing faults grows by a record of that code, at that level and
on those axes, or at the higher level to which the image raises the code (02 R50). -/
def Stands (lvl : Nat) (code : BitVec 16) (axes : BitVec 16) (s n : State) : Prop :=
  ∃ f : FaultRec, f.level = imgLevel s code lvl ∧ f.code = code ∧ (imgLevel s code lvl = lvl → f.axes = axes) ∧
    n.helm.latched = s.helm.latched ++ [f]

/-- A fault of that code was raised at ship time t and stands unacknowledged, at that level and on those axes, or at the higher level to which
the image raises the code (02 R50). -/
def RaisedAt (t lvl : Nat) (code : BitVec 16) (axes : BitVec 16) (s n : State) : Prop :=
  ∃ f ∈ n.helm.latched, f.level = imgLevel s code lvl ∧ f.code = code ∧ (imgLevel s code lvl = lvl → f.axes = axes) ∧ f.time = max s.now t

/-- An address of a 32-bit word of the shared SRAM or of the eDRAM (13 Table 13-1). -/
def memAddress (a : Nat) : Prop := a % 4 = 0 ∧ (0x10000000 ≤ a ∧ a < 0x10200000 ∨ 0x40000000 ≤ a ∧ a < 0x42000000)

/-- The channel as its sample at t finds it (08 R214): the samples before t are taken, and its armed set is committed. -/
def atSample (c : Fin 16) (t : Nat) (s : State) : State :=
  let s := encTime t s
  if encUp s && bit (br s .enc 0x10) c.val then encCommit c s else s

/-- A user point that the mover of a controller may write as a plain word (13 R330, R333). -/
def MoverPoint (s : State) (m i : Nat) : Prop :=
  Performs s m kWrite (ptAddr i) ∧ wrOk (attr s i) m = true ∧ isI64 (attr s i) = false ∧ bit (attr s i) 3 = false ∧ heldOf s m = none

/-- t is a boundary at which the running Helm acts for axis x (01 R562; 03 R64). -/
def AxisBoundary (s : State) (x : Fin 16) (t : Nat) : Prop := isAxB s (grpOf x) t = true ∧ helmUp s = true

/-- PKG and DRV_LTR agree (00 R4): PKG = 0x04 with DRV_LTR in 0-6, or PKG = 0x00 with DRV_LTR = 7. -/
def idFits (id : Word) : Prop := fld id 24 8 = 4 ∧ fld id 3 3 ≤ 6 ∨ fld id 24 8 = 0 ∧ fld id 3 3 = 7

/-- A record of a TYPE with its payload words is accepted by its form: the boot loader loads, nothing precedes it, no check of Table 19-4 on its
form fails, the payload is not empty and not ZPACK. -/
def Loads (s : State) (ty : Nat) (h : RecHead) (p : List Word) : Prop :=
  loading s = true ∧ h.before = [] ∧ recReason (headRec s ty h p) s = 0 ∧ h.len ≠ 0 ∧ bit (wd h.flags.toNat) 0 = false

end Sys2Proof.Machine

open Sys2Proof Sys2Proof.Machine

/-! ### The step, reset and the canonical form -/

/-- A step takes the command at the front of the queue: it is exec of that command on the state that holds the queue's rest. -/
def Obligations.StepTakesFrontCommand : Prop :=
  ∀ (c : Instr) (s : State) (q : List Instr), s.pending = c :: q → step s = exec c { s with pending := q }

/-- On an empty queue the Chronometer goes on by one tick of 2 ns and nothing else changes (the model's choice, log entry 30). -/
def Obligations.IdleStepTicksTheChronometer : Prop :=
  ∀ s : State, s.pending = [] → ∃ n, step s = .next n ∧ n.now = s.now + 2 ∧ Only [.now] s n

/-- 02 R34, 02 Table 2-1; 05 R62: after reset the mode is BOOT, no mode came before it, the queues are empty, every axis is DISABLED,
no command waits, STO applies to every group (18 R439) and the PWM pins are low (09 R222). -/
def Obligations.ResetState : Prop :=
  mode State.reset = mBoot ∧ State.reset.pending = [] ∧ (∀ q : Fin 64, State.reset.queues[q].items = []) ∧
    (∀ n : Fin 16, State.reset.ax[n].seq = .disabled) ∧ State.reset.pinsLow = true ∧ fld (br State.reset .safe 0x0) 0 4 = 15

/-- Reset is in canonical form: no register, point, attribute word or byte is listed twice, out of order, or at the value that an
unlisted one has. -/
def Obligations.ResetIsCanonical : Prop := Canon State.reset

/-- Every step keeps the canonical form of registers, points, attribute words and memory, so that equal contents stay equal data. -/
def Obligations.StepKeepsCanonicalForm : Prop :=
  ∀ s t : State, Canon s → step s = .next t → Canon t

/-- Every command completes from every state, and touches no part of the state outside its footprint: registers, points, memory, queues
and the records of the units that are not listed for it keep their values. -/
def Obligations.EveryCommandCompletesWithinItsFootprint : Prop :=
  ∀ (i : Instr) (s : State), ∃ t, exec i s = .next t ∧ Only (footprint i) s t

/-- Frame of every command: where memory is not in the footprint every byte reads as before, and no command changes the queue of those that
wait. -/
def Obligations.MemoryAndQueueFrame : Prop :=
  ∀ (i : Instr) (s t : State), exec i s = .next t →
    t.pending = s.pending ∧ (Part.mem ∉ footprint i → ∀ a, readByte t a = readByte s a)

/-! ### Crossbar, Chart, memory and queues (13, 14) -/

/-- 00 R5, R7; 13 R320: a write that is performed on a word of shared memory leaves that word there, and every byte outside it as it was;
on a register of the PROF, HOME or LOOP instances it replaces the RW and pending RWS bits, clears W1C bits and sets W1S bits, and keeps the
others as they stand at the write, after the channel samples before it. -/
def Obligations.RegisterAndMemoryWrites : Prop :=
  ∀ (m : Fin 10) (a : BitVec 30) (v : Word) (t : Nat) (s : State), Performs s m.val kWrite (4 * a.toNat) →
    ∃ n, exec (.registerWrite m a v t) s = .next n ∧
      (memAddress (4 * a.toNat) → readWord n (4 * a.toNat) = v ∧
        ∀ b, (b < 4 * a.toNat ∨ 4 * a.toNat + 4 ≤ b) → readByte n b = readByte s b) ∧
      (∀ h : RegHit, 0x60000000 ≤ 4 * a.toNat → findReg (4 * a.toNat) = some h → h.active = false → h.row.inst.isSome = true →
        (h.blk = .prof ∨ h.blk = .home ∨ h.blk = .loop) →
        ∀ j, j < 32 → bit (rd n (4 * a.toNat)) j =
          if bit h.row.w1s j && bit v j then true else if bit h.row.w1c j && bit v j then false
          else if bit h.row.rw j || bit h.row.rws j then bit v j else bit (rd (encTime t s) (4 * a.toNat)) j)

/-- 00 R9, R10: a write of 1s to a COMMIT register of a block whose commits wait for a boundary arms the named instances; bits written 0
keep, and the write changes no active copy and no other register: they stand as after the channel samples before it. -/
def Obligations.CommitArms : Prop :=
  ∀ (m : Fin 10) (a : BitVec 30) (v : Word) (t : Nat) (s : State) (h : RegHit), Performs s m.val kWrite (4 * a.toNat) → 0x60000000 ≤ 4 * a.toNat →
    findReg (4 * a.toNat) = some h → h.active = false → isCommit h = true → (h.blk = .prof ∨ h.blk = .home ∨ h.blk = .loop ∨ h.blk = .pwm) →
    ∃ n, exec (.commitArm m a v t) s = .next n ∧
      rd n (4 * a.toNat) = rd (encTime t s) (4 * a.toNat) ||| (v &&& h.row.w1s) ∧
      ∀ b, b ≠ 4 * a.toNat → rd n b = rd (encTime t s) b

/-- 08 R209: a read of a low word of a 64-bit readback (of a latch record also that of its second and third pair) returns the live word and
holds every word of its record as it stands at that instant; a later read of another word returns what was held. -/
def Obligations.SnapshotReads : Prop :=
  ∀ (m : Fin 10) (a : BitVec 30) (t : Nat) (s : State) (h : RegHit) (r : Nat × Nat), Performs s m.val kRead (4 * a.toNat) → 0x60000000 ≤ 4 * a.toNat →
    findReg (4 * a.toNat) = some h → (h.blk = .prof ∨ h.blk = .home ∨ h.blk = .enc ∨ h.blk = .chron) → snapRec h (hitOff h) = some r →
    let low := hitOff h = r.1 ∨ h.blk = .enc ∧ r.2 = 6 ∧ (hitOff h = r.1 + 8 ∨ hitOff h = r.1 + 16)
    let b := 4 * a.toNat + r.1 - hitOff h
    ∃ n, exec (.snapshotRead m a t) s = .next n ∧
      (low → n.busData[m] = liveReg m.val (4 * a.toNat) h (encTime t s) ∧
        ∀ k, k < r.2 → ∀ h' : RegHit, findReg (b + 4 * k) = some h' →
          (n.snaps.find? (fun x => x.1 == b + 4 * k)).map (·.2) = some (liveReg m.val (b + 4 * k) h' (encTime t s))) ∧
      (∀ w : Word, ¬low → (s.snaps.find? (fun x => x.1 == 4 * a.toNat)).map (·.2) = some w → n.busData[m] = w)

/-- 13 R326, R327, R330; 02 R42, R44, R45: a write is admitted that WR admits and, of a command point by CAN or the ring, that comes from the
command owner. Admitted, it leaves the value with WRITTEN set; the even word of an I64 point is held instead, and its odd word takes the held
one with it. A low word that waited for another odd word is written alone. No other point changes. A write of the owner to a command point
restarts the owner timeout; a refused write of one counts in SYS_REFUSED with its source and point, and a write that WR alone refuses in the
protection unit's count, and neither changes a point but those of faults and log. -/
def Obligations.ChartWrites : Prop :=
  ∀ (m : Fin 10) (i : BitVec 17) (v : Word) (own : Bool) (t : Nat) (s : State), Performs s m.val kWrite (ptAddr i.toNat) →
    let a := attr s i.toNat
    let cmd := external m.val && bit a 3
    let ok := wrOk a m.val && (!cmd || own)
    let even := isI64 a && i.toNat % 2 == 0
    let kept := fun (n : State) => ∀ j, j ≠ i.toNat → (heldOf s m.val).map (·.1) ≠ some j → pt n j = pt s j
    let lone := fun (n : State) => ∀ p w, heldOf s m.val = some (p, w) → p % 2 = 0 → p ≠ i.toNat → pt n p = w ∧ bit (attr n p) writtenBit = true
    ∃ n, exec (.chartWrite m i v own t) s = .next n ∧
      (ok = true → even = false → pt n i.toNat = v ∧ bit (attr n i.toNat) writtenBit = true ∧ lone n ∧ kept n ∧ heldOf n m.val = none) ∧
      (ok = true → even = true → heldOf n m.val = some (i.toNat, v) ∧ lone n ∧ kept n ∧
        ((heldOf s m.val).map (·.1) ≠ some i.toNat → pt n i.toNat = pt s i.toNat)) ∧
      (ok = true → cmd = true → n.helm.ownerFrom = max s.now t ∧ n.helm.ownerOut = false) ∧
      (ok = false → heldOf n m.val = none ∧ (∀ p w, heldOf s m.val = some (p, w) → p + 1 ≠ i.toNat → p ∉ [2, 3, 70] → pt n p = w) ∧
        (∀ j, j ∉ [2, 3, 70] → (heldOf s m.val).map (·.1) ≠ some j → pt n j = pt s j) ∧
        (cmd = true → br n .sys 0x24 = setFld (setFld (satAdd (br s .sys 0x24) 0 16 1) 16 2 (srcCode m.val)) 18 14 i.toNat) ∧
        (cmd = false → br n .prot 0x40 = setFld (satAdd (br s .prot 0x40) 0 16 1) 16 4 m.val))

/-- 13 R326: a performed read of an even point without a memory error returns its value, and of an I64 point keeps the odd word for the
master's next read. -/
def Obligations.ChartReads : Prop :=
  ∀ (m : Fin 10) (k : BitVec 16) (t : Nat) (s : State), Performs s m.val kRead (ptAddr (2 * k.toNat)) → badAt s (ptAddr (2 * k.toNat)) = 0 →
    ∃ n, exec (.chartEvenRead m k 0 t) s = .next n ∧ n.busData[m] = pt s (2 * k.toNat) ∧ n.pts = s.pts ∧
      (isI64 (attr s (2 * k.toNat)) = true →
        (n.snaps.find? (fun x => x.1 == snapKey m.val (ptAddr (2 * k.toNat + 1)))).map (·.2) = some (pt s (2 * k.toNat + 1)))

/-- 20 R498; 04 R119; 13 R335; 11 R291, R294, R296: performed writes of the registers with a behaviour of their own: CHRON_INIT_HI in BOOT
sets ship time, on a device that is no ring member, to the written pair with its lowest bit cleared; PROF_CLIPPK takes the value; PROT_LOCK locks the regions; SX_CTRL.RUN (0
in BOOT), RESTART of a halted cluster, and SX_PROBE with SX_PROBEMAX cleared. -/
def Obligations.ControlRegisterWrites : Prop :=
  ∀ (m : Fin 10) (g : Fin 4) (v : Word) (t : Nat) (s : State),
    (Performs s m.val kWrite (bAddr .chron 0x2C) → mode s = mBoot → bit (br s .chron 0) 10 = false →
      (ringEn s = true ∨ bit (ir s .ring 0 0) 0 = true → isMaster s = true) →
      ∃ n, exec (.chronInitHi m v t) s = .next n ∧ n.now = ((br s .chron 0x28).toNat + v.toNat * 2 ^ 32) / 2 * 2) ∧
    (∀ x : Fin 16, Performs s m.val kWrite (iAddr .prof x.val 0x2E4) →
      ∃ n, exec (.profClippkWrite m x v t) s = .next n ∧ ir n .prof x.val 0x2E4 = v ∧ n.env = s.env) ∧
    (Performs s m.val kWrite 0x60040014 → bit v 0 = true → ∃ n, exec (.protLock m v t) s = .next n ∧ locked n = true) ∧
    (Performs s m.val kWrite (sxAddr g.val 0) →
      (∃ n, exec (.sxRun m g v t) s = .next n ∧ bit (sr n g 0) 0 = (bit v 0 && mode s != mBoot) ∧ n.clu = s.clu) ∧
      (s.clu[g].state = .halted →
        ∃ n, exec (.sxRestart m g v t) s = .next n ∧ n.clu[g].state = .idle ∧ n.clu[g].frames = [] ∧ n.clu[g].chain = none ∧
          n.clu[g].waiting = [] ∧ n.clu[g].st = 0#32)) ∧
    (Performs s m.val kWrite (sxAddr g.val 0x38) →
      ∃ n, exec (.sxProbeWrite m g v t) s = .next n ∧ sr n g 0x38 = v &&& 0xF#32 ∧ sr n g 0x3C = 0#32)

/-- 11 R287, R290: the oldest entry of a cluster's external port, where it is a read of shared memory that nothing corrupts, puts the word
into the register of its stalled word where its chain runs; where it is a posted write, the word reaches memory. Either way it leaves the
port, and the order of the rest stays. -/
def Obligations.ExternalPort : Prop :=
  ∀ (g : Fin 4) (t : Nat) (s : State) (p : Posted) (rest : List Posted), s.clu[g].posted = p :: rest → memAddress p.addr →
    (∀ (r : ExtRead) (lvl : Nat), p.read = some lvl → s.clu[g].readOf lvl = some r → r.addr = p.addr → r.reg < 16 → r.sb = false →
      s.clu[g].state = .running → s.clu[g].prio = lvl → r.prio = lvl → Performs s (g.val + 1) kRead p.addr → badAt s p.addr = 0 →
      ∃ n, exec (.extReadReturn g 0 t) s = .next n ∧ n.clu[g].posted = rest ∧ n.clu[g].sr r.reg = readWord s p.addr ∧
        n.clu[g].readOf lvl = none ∧ n.mem = s.mem) ∧
    (p.read = none → p.side = none → Performs s (g.val + 1) kWrite p.addr →
      ∃ n, exec (.postedWriteDrain g t) s = .next n ∧ n.clu[g].posted = rest ∧ readWord n p.addr = p.word ∧
        ∀ b, (b < p.addr ∨ p.addr + 4 ≤ b) → readByte n b = readByte s b)

/-- 13 R321, R322, R323: the scrubber leaves a good word alone; a single-bit error of a word is counted for its memory and gone; a missed
refresh is a level-3 fault on every axis. -/
def Obligations.ScrubAndRefresh : Prop :=
  ∀ (w : BitVec 30) (t : Nat) (s : State), mode s ≠ mSleep → mode s ≠ mBoot → eccAddr (4 * w.toNat) = true → badAt s (4 * w.toNat) = 0 →
    4 * w.toNat ≠ lastWord (eccMem (4 * w.toNat)) →
    (∃ n, exec (.scrubRead w 0 t) s = .next n ∧ Only [.now] s n) ∧
    (∃ n, exec (.scrubRead w 1 t) s = .next n ∧ badAt n (4 * w.toNat) = 0 ∧ n.mem = s.mem ∧
      fld (br n .prot (0x20 + 4 * eccMem (4 * w.toNat))) 0 16 = min (fld (br s .prot (0x20 + 4 * eccMem (4 * w.toNat))) 0 16 + 1) 65535) ∧
    (∀ row : Nat, ∃ n, exec (.edramRefresh row t) s = .next n ∧ Stands 3 (mkCode 3 0 3) 0xFFFF#16 s n)

/-- 14 R342, R346: an accepted item joins its writer's open packet; with END the packet is readable behind the others of its queue; without
END, while shorter than 256 items, it stays open. No word of the queue is lost or moved. -/
def Obligations.QueuePush : Prop :=
  ∀ (m : Fin 10) (q : Fin 64) (prio : Fin 8) (w : Word) (t : Nat) (s : State), q ≠ 2 → keyed q = false →
    Performs s m.val kWrite (queAddr q (0x300 + 8 * prio.val)) → Performs s m.val kWrite (queAddr q (0x304 + 8 * prio.val)) →
    qCap s q ≠ 0 → qWriter q m.val = true → qRoom s q 1 = true →
    ((s.queues[q]).opens.filter (fun o => o.1 == m.val)).length ≤ 1 →
    let x := s.queues[q]
    let open_ := (x.openOf m.val).map (·.word)
    let words := fun (y : Queue) => y.pkts.map (·.map (·.word))
    (∃ n, exec (.quePush m q prio true w t) s = .next n ∧ words n.queues[q] = words x ++ [open_ ++ [w]] ∧
      (n.queues[q]).openOf m.val = [] ∧ (n.queues[q]).fill = x.fill + 1) ∧
    (open_.length < 255 → ∃ n, exec (.quePush m q prio false w t) s = .next n ∧ words n.queues[q] = words x ∧
      ((n.queues[q]).openOf m.val).map (·.word) = open_ ++ [w] ∧ (n.queues[q]).fill = x.fill + 1)

/-- 14 R343, R347, R348: a performed read of a POP port takes the next item of the packet in delivery, or the first of the packet that goes
first; an empty queue with an idle item returns it, and without one the read stalls. A stalled read completes with the next item. -/
def Obligations.QueuePop : Prop :=
  ∀ (m : Fin 10) (q : Fin 64) (t : Nat) (s : State), Performs s m.val kRead (queAddr q 0x340) → qCap s q ≠ 0 →
    let x := s.queues[q]
    ∃ n, exec (.quePop m q 0 t) s = .next n ∧
      (∀ (i : QItem) (is : List QItem), x.rest = i :: is → i.place ≠ .spill →
        n.busData[m] = i.word ∧ sget (fun _ => 0) n.sides (sideKey q m.val) = i.side ∧
          (n.queues[q]).rest.map (·.word) = is.map (·.word)) ∧
      (∀ (i : QItem) (is : List QItem), x.rest = [] → x.pkts.getD (bestPkt (keyed q) x.pkts) [] = i :: is → i.place ≠ .spill →
        n.busData[m] = i.word ∧ (n.queues[q]).rest.map (·.word) = is.map (·.word) ∧ (n.queues[q]).pkts.length = x.pkts.length - 1) ∧
      (x.nothing = true → bit (ar s .que q.val 0) 0 = true → n.busData[m] = ar s .que q.val 0xC ∧ n.queues = s.queues) ∧
      (x.nothing = true → bit (ar s .que q.val 0) 0 = false →
        n.stalls = s.stalls ++ [{ master := m.val, queue := q.val }] ∧ n.queues = s.queues) ∧
      (∀ (z : Stall) (i : QItem) (is : List QItem), x.rest = i :: is → i.place ≠ .spill → s.stalls = [z] → z.queue = q.val → z.master = m.val →
        ∃ k, exec (.queReadComplete q 0 t) s = .next k ∧ k.busData[m] = i.word ∧ k.stalls = [] ∧
          (k.queues[q]).rest.map (·.word) = is.map (·.word))

/-- 14 R349: while the mover runs, spilling moves up to k tail items to eDRAM and refilling brings the item that is read next into the head;
neither changes a word, a packet or their order. -/
def Obligations.QueueMover : Prop :=
  ∀ (q : Fin 64) (k : Fin 9) (t : Nat) (s : State), moverOn s q = true →
    let words := fun (y : Queue) => (y.rest.map (·.word), y.pkts.map (·.map (·.word)), y.opens.map (fun o => (o.1, o.2.map (·.word))))
    let x := s.queues[q]
    (8 ≤ x.settle.inPlace .head → ∃ n, exec (.queSpill q k t) s = .next n ∧ words n.queues[q] = words x ∧
      (n.queues[q]).inPlace .spill = x.settle.inPlace .spill + min k.val (x.settle.inPlace .tail)) ∧
    (x.inPlace .spill ≠ 0 → x.nothing = false → ∃ n, exec (.queRefill q 0 t) s = .next n ∧ words n.queues[q] = words x ∧
      (∀ i is, ((n.queues[q]).openRead (keyed q)).rest = i :: is → i.place ≠ .spill))

/-! ### The Helm (02, 14, 23) -/

/-- 02 R39 to R41, R57, R58, R60, Table 2-4; 15 R384: a request that is taken at a device boundary reads REQ 0 with its RESULT: STANDBY leaves
RUN once all axes are off; RUN is entered from STANDBY under its conditions, a ring member at its release wave; SLEEP begins; FAULT_ACK clears
every fault that stood where the causes are gone; THAW thaws a master whose state is dumped; an undefined request is refused with 5. -/
def Obligations.ModeRequests : Prop :=
  ∀ (t : Nat) (s : State), helmOn s = true → isDevB s t = true → s.helm.toStandby = false → s.helm.toSleep = false →
    let answered := fun (res : Nat) (n : State) => modeReq n = 0 ∧ fld (pt n 1) 12 4 = res
    let enters := fun (i : Instr) => ∃ n, exec i s = .next n ∧ answered 0 n ∧ mode n = mRun ∧ fld (pt n 0) 16 4 = mStandby ∧ n.helm.ownerFrom = t
    (modeReq s = 1 → ∃ n, exec (.modeReqStandby t) s = .next n ∧ (mode s ≠ mRun → answered 1 n ∧ mode n = mode s) ∧
      (mode s = mRun → answered 0 n ∧ (allOff s = true → mode n = mStandby) ∧ (allOff s = false → mode n = mRun ∧ n.helm.toStandby = true))) ∧
    (modeReq s = 2 → mode s = mStandby → waveWaits s t = false → runOk s = true → enters (.modeReqRun t) ∧
      (s.helm.runWait = true → enters (.runReleaseWave t))) ∧
    (modeReq s = 3 → mode s = mStandby → lvlStands 3 s = false → sleepOk s = true → ∃ n, exec (.modeReqSleep t) s = .next n ∧ answered 0 n ∧
      n.helm.toSleep = true ∧ n.pwr.sleepFrom.isSome = true ∧ n.pwr.woken = 0) ∧
    (modeReq s = 4 → mode s ≠ mBoot → mode s ≠ mHalt → (∀ f ∈ s.helm.latched, f.time < t ∧ causePresent (atTime t s) f = false) →
      ∃ n, exec (.faultAck t) s = .next n ∧ answered 0 n ∧ (∀ f ∈ n.helm.latched, t ≤ f.time) ∧ mode n = mode s) ∧
    (modeReq s = 5 → mode s ≠ mBoot → ∀ m, fld (pt s 1) 8 4 = m → m ≤ 9 → bit (br s .sys 0x28) (16 + m) = true →
      ∃ n, exec (.thaw t) s = .next n ∧ answered 0 n ∧ frozen n m = false) ∧
    (5 < modeReq s → ∃ n, exec (.modeReqUndefined t) s = .next n ∧ answered 5 n ∧ mode n = mode s)

/-- 02 R39, R45, R50, Table 2-4; 13 Table 13-5; 18 R450; 23 R551, R552, R556: the running Helm's other work: OWNER_LOST after the timeout; the
response to a level-2 item of queue 0; SAFE-STOP where a ramp has started; the copies and the watchdog kick of each 1 ms; a Logbook entry, with
the mode in its tenth byte; the answer to a Logbook request. -/
def Obligations.HelmDuties : Prop :=
  ∀ (t : Nat) (s : State), helmOn s = true →
    (t % 1000000 = 0 → fld (br s .sys 0x20) 24 8 ≠ 0 → (mode s = mRun ∨ mode s = mComm) → s.helm.ownerFrom + fld (br s .sys 0x20) 24 8 * 1000000 ≤ t →
      s.helm.ownerOut = false →
      ∃ n, exec (.ownerLost t) s = .next n ∧ n.helm.toStandby = true ∧ Stands 1 (mkCode 0 0 3) 0xFFFF#16 s n) ∧
    (∀ i ps f, (s.queues[(0 : Fin 64)]).rest = [] → (s.queues[(0 : Fin 64)]).pkts = [i] :: ps → bestPkt false ([i] :: ps) = 0 → i.place ≠ .spill →
      qCap s 0 ≠ 0 → recOf s i.word = some f → f.level = 2 →
      ∃ n, exec (.helmQueue0Take 0 t) s = .next n ∧ ∀ g : Fin 4, f.axes &&& grpMask g ≠ 0#16 → bit (br n .pwm 0) (20 + g.val) = true) ∧
    (∀ g : Fin 4, ss1On s g = true → (mode s = mRun ∨ mode s = mComm) → ∃ n, exec (.safeStopEntry t) s = .next n ∧ mode n = mSafeStop ∧
      fld (pt n 0) 12 4 = fld (br s .safe 0) 4 4 ∧ fld (pt n 0) 16 4 = mode s ∧ n.regs = s.regs) ∧
    (t % 1000000 = 0 → s.safe.cmd = 0#32 → ∃ n, exec (.helm1msUpdate t) s = .next n ∧ n.safe.kick = s.safe.cyc ∧ pt n 13 = br s .sys 0x28 ∧
      n.safe.cmd = (if bit (pt s 5890) 0 || bit (pt s 5890) 1 then pt s 5890 else 0#32) ∧ fld (pt n 5890) 0 2 = 0) ∧
    (∀ (p : List QItem) (ps : List (List QItem)), let x := s.queues[(2 : Fin 64)]
      let k := (br s .log 0x20).toNat
      let code := BitVec.ofNat 16 (fld ((p.map (·.word)).getD 2 0#32) 0 16)
      x.rest = [] → x.pkts = p :: ps → bestPkt false x.pkts = 0 → p.length = 8 → (∀ j, j < 8 → (p.getD j (headItem [])).fin = decide (j = 7)) →
      (∀ j, j < 8 → (p.getD j (headItem [])).place ≠ .spill) → x.inPlace .spill = 0 → qCap s 2 ≠ 0 → codeCls code ≠ 3 → codeCls code ≠ 6 →
      ∃ n, exec (.logEntryWrite 0 t) s = .next n ∧ br n .log 0x20 = wd (k + 1) ∧
        (∀ j, j < 8 → j ≠ 2 → readWord n (0x40000000 + 32 * (k % 262144) + 4 * j) = (p.map (·.word)).getD j 0#32) ∧
        fld (readWord n (0x40000000 + 32 * (k % 262144) + 8)) 16 8 = mode s) ∧
    (fld (pt s 67) 0 3 ≠ 0 → ∃ n, exec (.logRequest t) s = .next n ∧ fld (pt n 67) 0 3 = 0 ∧ pt n 69 = wd (((pt s 69).toNat + 2) % 65536))

/-! ### Axes: commands, homing, gearing and superposition (03, 04, 05), sensing and housekeeping (07) -/

/-- 07 R180, R184; 05 R136, R138, R147; 02 R52; 04 R108, R117: an input without a transition for 64 clocks is marked and stands as a level-2
fault where the active axis reads it, and fewer clocks end the condition; the conversion of the channel whose turn it is brings HK_RAW, and the turn
goes on; the hold current begins; homing that lasts or travels too long ends in ABORTED with its level-1 fault; a hard stop is counted up to HSTIME
and then ends homing; a master that stays away too long, a superposition that stays away, and a stop that lasts too long. -/
def Obligations.AxisEvents : Prop :=
  (∀ (x : Fin 16) (k : Fin 3) (clocks t : Nat) (s : State),
    (clocks < 64 → ∃ n, exec (.sdStuck x k clocks t) s = .next n ∧ n.sdm[x].stuck[k] = false ∧ Only [.now, .sdm] s n) ∧
    (64 ≤ clocks → sdClkOn s x = true → s.sdm[x].stuck[k] = false → ∃ n, exec (.sdStuck x k clocks t) s = .next n ∧ n.sdm[x].stuck[k] = true ∧
      (3 * x.val + k.val < 32 → bit (br n .sdm 0x24) (3 * x.val + k.val) = true) ∧
      (32 ≤ 3 * x.val + k.val → bit (br n .sdm 0x28) (3 * x.val + k.val - 32) = true) ∧
      (readsInput s x k = true → axActive s x = true → Stands 2 (mkCode 8 x.val 1) (grpMask (grpOf x)) s n))) ∧
  (∀ (c : Fin 24) (raw : BitVec 12) (t : Nat) (s : State), mode s ≠ mSleep → hkTurn s = c →
    let z := if c = 0 then hkCommits (atTime t s) else s
    ∃ n, exec (.hkConversion c raw t) s = .next n ∧ (∀ k : Fin 24, n.hk[k].last = decide (k = c)) ∧
      (hkAbsent s c = true → ir n .hk c.val 0x240 = 0#32) ∧
      (hkAbsent s c = false → n.hk[c].hist = (raw.toNat :: s.hk[c].hist).take 16 ∧
        (fld (ar z .hk c.val 0) 1 2 = 0 → fld (ir n .hk c.val 0x240) 0 12 = raw.toNat))) ∧
  (∀ (x : Fin 16) (t t0 : Nat) (s : State), stepOn s x = true → s.stp[x].vy = 0 → s.stp[x].still = some t0 → fld (ar s .step x.val 0) 16 16 ≠ 0 →
    t0 + fld (ar s .step x.val 0) 16 16 * 1000000 ≤ t →
    ∃ n, exec (.stepHoldCurrent x t) s = .next n ∧ n.stp[x].holdCur = true ∧ bit (ir n .step x.val 0x240) 10 = true) ∧
  (∀ (x : Fin 16) (t : Nat) (s : State), s.ax[x].faultStop = true → fld (ar s .prof x.val 0x14) 0 16 ≠ 0 → axStill s x = false →
    s.ax[x].stopSince + fld (ar s .prof x.val 0x14) 0 16 * 1000000 ≤ t → s.helm.latched.any (fun f => f.code == mkCode 0 x.val 7) = false →
    ∃ n, exec (.axisStopTimeout x t) s = .next n ∧ Stands 2 (mkCode 0 x.val 7) (grpMask (grpOf x)) s n) ∧
  (∀ (x : Fin 16) (t : Nat) (s : State), fld (ar s .prof x.val 0x14) 0 16 = 0 →
    ∃ n, exec (.axisStopTimeout x t) s = .next n ∧ Only [.now] s n) ∧
  (∀ (x : Fin 16) (t : Nat) (s : State), AxisBoundary s x t →
    let z := motAt x t (atTime t s)
    let h := s.homing[x]
    (homingOn s x = true → fld (ar s .home x.val 0x44) 0 16 ≠ 0 → h.t0 + fld (ar s .home x.val 0x44) 0 16 * 1000000 < t →
      ∃ n, exec (.homeTimeout x t) s = .next n ∧ n.homing[x].state = 9 ∧ Stands 1 (mkCode 5 x.val 0x44) (1#16 <<< x.val) z n) ∧
    (1 ≤ h.state → h.state ≤ 5 → h.sub = 0 → ar s .home x.val 0x1C ≠ 0#32 → (ar s .home x.val 0x1C).toNat * 65536 < (z.mot[x].p - h.from_).natAbs →
      ∃ n, exec (.homeNotFound x t) s = .next n ∧ n.homing[x].state = 9 ∧ Stands 1 (mkCode 5 x.val 0x43) (1#16 <<< x.val) z n) ∧
    (h.state = 6 → ∃ n, exec (.hardstopDetect x t) s = .next n ∧
      ((ap s x 8).toInt.natAbs < (ar s .home x.val 0x40).toInt.natAbs → n.homing[x].state = 6 ∧ n.homing[x].hsCount = 0) ∧
      ((ar s .home x.val 0x40).toInt.natAbs ≤ (ap s x 8).toInt.natAbs →
        (h.hsCount < fld (ar s .home x.val 0) 16 8 → n.homing[x].state = 6 ∧ n.homing[x].hsCount = h.hsCount + 1) ∧
        (fld (ar s .home x.val 0) 16 8 ≤ h.hsCount → n.homing[x].state = if bit (ar s .home x.val 0) 6 then 7 else 8))) ∧
    (geared s x = true → fld (ar s .prof x.val 0x80) 0 3 = 4 → staleBound s x < recAge s x t → s.gear[x].stale = false →
      ∃ n, exec (.gearMasterStale x t) s = .next n ∧ n.gear[x].stale = true ∧ Stands 1 (mkCode 5 x.val 0x21) (1#16 <<< x.val) z n) ∧
    (s.sup[x].on = true → fld (ar s .prof x.val 0xAC) 0 4 ≠ 0 → fld (ar s .prof x.val 0xAC) 0 4 < s.sup[x].age → s.sup[x].held = false →
      ∃ n, exec (.superStale x t) s = .next n ∧ n.sup[x].held = true ∧ n.sup[x].s = s.sup[x].s))

/-- 03 R563, R66, R88, R89; 02 R57; 04 R104, R105, R115, R116; 05 R132 to R134: what the bits of AX_CMD do at a boundary: an allowed enable
request begins ENABLING and a refused one leaves the axis DISABLED; ENABLE read as 0 removes torque at rest and in ENABLING; ACK clears its bit and
every fault of level 1 or 2 of the axis whose cause is gone; QSTOP discards the moves and stops, of a path member the path's, and ends at rest; HOLD
comes and goes; gearing engages, and falls over GDDIST or at once, superposition begins and ends; homing starts in the state of its method or is
refused, and ends. -/
def Obligations.AxisCommands : Prop :=
  ∀ (x : Fin 16) (t : Nat) (s : State), AxisBoundary s x t →
    let z := motAt x t (atTime t s)
    let on := fun (b : Nat) => bit (axCmd s x) b = true
    let off := fun (b : Nat) => bit (axCmd s x) b = false
    let leads := ∀ i : Fin 4, igOf s x = some i → igLeads s i x = true
    let free := readyOrMoving z x = true ∧ (motQ s x).qstop = false ∧ homingOn s x = false ∧ leads
    (on 0 → s.ax[x].lastEnable = false → s.ax[x].seq = .disabled → ∃ n, exec (.enable x t) s = .next n ∧ n.ax[x].lastEnable = true ∧
      n.ax[x].seq = (if enableCause z x = 0 then .enabling else .disabled)) ∧
    (off 0 → (s.ax[x].seq = .enabling ∨ s.ax[x].seq ≠ .disabled ∧ axStill z x = true) →
      ∃ n, exec (.enableClear x t) s = .next n ∧ n.ax[x].seq = .disabled ∧ tq n x = false) ∧
    (on 1 → (∀ f ∈ s.helm.latched, f.hits x = true → (f.level = 1 ∨ f.level = 2) ∧ f.time < t ∧ causePresent (atTime t s) f = false) →
      ∃ n, exec (.ack x t) s = .next n ∧ (∀ f ∈ n.helm.latched, f.hits x = true → t ≤ f.time) ∧ bit (axCmd n x) 1 = false) ∧
    (stopHeld s x = true → s.mot[x].qstop = false → s.ax[x].seq ≠ .disabled → s.ax[x].seq ≠ .enabling →
      ∃ n, exec (.qstop x t) s = .next n ∧ n.mot[x].qstop = true ∧ n.ax[x].seq = .stopping ∧
        (igOf s x = none → n.mot[x].run = none ∧ n.mot[x].wait = []) ∧
        ∀ i : Fin 4, igOf s x = some i → n.igrp[i].mot.qstop = true ∧ n.igrp[i].mot.run = none ∧ n.igrp[i].mot.wait = []) ∧
    (stopHeld s x = false → s.mot[x].qstop = true → s.ax[x].faultStop = false → s.ax[x].offAtRest = false → axStill z x = true →
      ∃ n, exec (.qstopRelease x t) s = .next n ∧ n.mot[x].qstop = false) ∧
    (on 3 → free → ∃ n, exec (.hold x t) s = .next n ∧ (motQ n x).hold = true) ∧
    (off 3 → free → ∃ n, exec (.holdRelease x t) s = .next n ∧ (motQ n x).hold = false) ∧
    (on 6 → s.gear[x].phase = 0 → s.gear[x].armed = true → fld (ar s .prof x.val 0x80) 0 3 ≠ 0 → readyOrMoving z x = true →
      ∃ n, exec (.gear x t) s = .next n ∧ n.gear[x].phase = (if 0 < gEdist s x then 1 else 2) ∧ n.gear[x].g = s.gear[x].g) ∧
    (off 6 → (s.gear[x].phase = 1 ∨ s.gear[x].phase = 2) → s.gear[x].mark ≠ 2 → ∃ n, exec (.gearClear x t) s = .next n ∧ n.gear[x].armed = true ∧
      (0 < gDdist s x → n.gear[x].mark = 2 ∧ n.gear[x].phase = s.gear[x].phase ∧ n.gear[x].g = s.gear[x].g) ∧
      (¬ 0 < gDdist s x → n.gear[x].phase = 0 ∧ n.gear[x].g = 0 ∧ n.mot[x].run.map (fun r => r.mv.kind) = some 3)) ∧
    (on 7 → s.sup[x].on = false → s.sup[x].armed = true → readyOrMoving z x = true →
      ∃ n, exec (.super x t) s = .next n ∧ n.sup[x].on = true ∧ n.sup[x].s0 = soff s x - s.sup[x].s ∧ n.sup[x].s = s.sup[x].s) ∧
    (off 7 → ∃ n, exec (.superClear x t) s = .next n ∧ n.sup[x].on = false ∧ n.sup[x].armed = true ∧ n.sup[x].s = s.sup[x].s) ∧
    (on 5 → s.homing[x].state = 0 → ∃ n, exec (.home x t) s = .next n ∧
      (homeReason z x ≠ 0 → n.homing[x].state = 0 ∧ n.homing[x].refused = true) ∧
      (homeReason z x = 0 → n.homing[x].homed = false ∧ n.homing[x].t0 = t ∧
        (homeMethod s x = 1 ∨ homeMethod s x = 2 → n.homing[x].state = 4 ∧ n.homing[x].cap = some (posAct s x)) ∧
        (homeMethod s x = 7 → n.homing[x].state = 4) ∧ (homeMethod s x = 8 → n.homing[x].state = 6) ∧
        (3 ≤ homeMethod s x → homeMethod s x ≤ 6 → n.homing[x].state = if homeSwitch s x then 3 else 1))) ∧
    (off 5 → ∃ n, exec (.homeClear x t) s = .next n ∧ n.homing[x].state = if homingOn s x then 9 else 0)

/-- 03 R68 to R71, R73; 04 R111: CLEARQ discards every move not yet started; the first submission of a boundary with an ACTION is taken: ACTION reads
0, and an accepted move is to take effect one watch later, an APPEND behind the accepted ones, REPLACE and CUT in their place, in the axis's queue or
that of the path it leads, and a refused one changes no motion and shows its result with its TAG. -/
def Obligations.AxisSubmissions : Prop :=
  ∀ (x : Fin 16) (t : Nat) (s : State), AxisBoundary s x t →
    let z := motAt x t (atTime t s)
    let sub := readSub s x
    let taken := fun (i : Instr) => s.ax[x].subAt ≠ some t → ∃ n, exec i s = .next n ∧ fld (ap n x 16) 8 2 = 0 ∧
      (∀ c, candidate x sub t z = some c → subResult z x sub (some c) = 0 →
        (motQ n x).enter = (if sub.act = 1 then (motQ z x).enter else []) ++ [{ mv := c.mv, act := sub.act, due := t + gW s (grpOf x), ready := planDone z t }] ∧
          fld (ap n x 17) 0 4 = 0 ∧ fld (ap n x 17) 16 16 = sub.tag) ∧
      (subResult z x sub (candidate x sub t z) ≠ 0 → n.mot = z.mot ∧ n.igrp = z.igrp ∧
        ap n x 17 = wd (subResult z x sub (candidate x sub t z) + 65536 * sub.tag))
    (bit (axCmd s x) 4 = true → (∀ i : Fin 4, igOf s x = some i → igLeads s i x = true) →
      ∃ n, exec (.clearq x t) s = .next n ∧ (motQ n x).wait = [] ∧ (motQ n x).enter = [] ∧ bit (axCmd n x) 4 = false) ∧
    (sub.act = 1 → taken (.append x t)) ∧ (sub.act = 2 → taken (.replace x t)) ∧ (sub.act = 3 → taken (.cut x t))

/-! ### Loop engine and boundaries (01, 06, 11) -/

/-- 06 R163, R165, R166; 11 R285, R293; Table 6-11: an idle running cluster dispatches the waiting trigger that goes first and begins at its
chain's lowest entry; software, PWM-centre and watch triggers wait on a cluster that takes them; a finished conversion of coefficients is
complete; LOOP_LOADCLR clears the peaks it names; a watch trigger is raised once, when the profile engine has served its group (01 R26); the second
consecutive late watch of active axes takes torque from their group and is raised for each of them. -/
def Obligations.LoopEngine : Prop :=
  ∀ (g : Fin 4) (t : Nat) (s : State),
    let takes := trigMode s = true ∧ s.clu[g].state ≠ .frozen ∧ s.clu[g].state ≠ .halted ∧ bit (sr s g 0) 0 = true
    (∀ tr e es, s.clu[g].chain = none → s.clu[g].state = .idle → bit (sr s g 0) 0 = true → bestTrig s g = some tr → tr.src ≠ 1 → tr.src ≠ 2 →
      chainEntries s g tr = e :: es → ∃ n, exec (.chainDispatch g t) s = .next n ∧ n.clu[g].state = .running ∧
        n.clu[g].pc = fld (trigWord s g e) 16 13 ∧ n.clu[g].s[(0 : Fin 16)] = ar s .loop (16 + g.val) (0x20 + 4 * e) ∧
        n.clu[g].chain.map (fun c => (c.trig, c.rest, c.entry)) = some (tr, es, e) ∧ n.clu[g].waiting = s.clu[g].waiting.erase tr) ∧
    (∀ (v : Word) (e : Nat), e < 8 → bit v (8 * g.val + e) = true → fld (trigWord s g e) 0 3 = 6 → takes →
      ∃ n, exec (.softwareTrigger v) s = .next n ∧ { src := 6, sel := e } ∈ n.clu[g].waiting) ∧
    (∀ x : Fin 16, helmUp s = true → ∃ n, exec (.coeffConversionDone x t) s = .next n ∧ n.loop[x].newCoeff = some (coefConvert s x) ∧
      ∀ y : Fin 16, y ≠ x → n.loop[y] = s.loop[y]) ∧
    (∀ v : Word, ∃ n, exec (.loopLoadclr v) s = .next n ∧
      br n .loop (0x30 + 4 * g.val) = (if bit v g.val then setFld (br s .loop (0x30 + 4 * g.val)) 16 10 0 else br s .loop (0x30 + 4 * g.val)) ∧
      ∀ a, (∀ k : Fin 4, a ≠ bAddr .loop (0x30 + 4 * k.val)) → rd n a = rd s a) ∧
    (afterPb s g t (gT s g / 2 + 400) = true → takes → ∃ n, exec (.pwmCentreTrigger g t) s = .next n ∧ { src := 1, sel := 0 } ∈ n.clu[g].waiting ∧
      fld n.clu[g].tix 0 16 = (t - (gT s g / 2 + 400) - s.pwmG[g].start) / gT s g % 65536) ∧
    (∀ w, s.pwmG[g].lastWb = some w → gOn s g = true → s.pwmG[g].trigDue = true → t = s.pwmG[g].served → s.pwmG[g].start ≤ w → takes →
      ∃ n, exec (.watchTrigger g t) s = .next n ∧ { src := 2, sel := 0 } ∈ n.clu[g].waiting ∧ n.pwmG[g].trigDue = false ∧
        fld n.clu[g].tix 16 16 = watchIdx s g w % 65536) ∧
    (bit (br s .loop 0) (20 + g.val) = false → (grpAxes g).any (fun a => decide (2 ≤ s.loop[a].watchMiss) && axActive s a) = true →
      ∃ n, exec (.lateWatch g t) s = .next n ∧ bit (br n .loop 0) (20 + g.val) = true ∧ bit (br n .pwm 0) (20 + g.val) = true ∧
        (∀ j : Fin 4, tq n (axOf g j) = false) ∧
        ∀ x ∈ grpAxes g, 2 ≤ s.loop[x].watchMiss → axActive s x = true →
          RaisedAt t 2 (mkCode 6 x.val 2) (grpMask g) s n)

/-- 01 R22, R26, R28, R562, Tables 1-5 and 1-7; 03 R97; 07 R177; 08 R194; 13 R329: each of the four boundary rows completes in every state. At a
period boundary the computed edges become active and are read back, unless a restart of the group's timing turns the switches off, and are the
period's where no PWM set is armed after the bound copies; at a period centre every running channel is sampled at that instant, with the count it
then has, and an input that is off reads 0; at a watch boundary, running or stopped, the bound points of the group have been copied, and AX_STATE
and POS_CMD show the axis; a device boundary does the same for group 0 and the stopped groups. A boundary is taken once. -/
def Obligations.Boundaries : Prop :=
  ∀ (g : Fin 4) (t : Nat) (s : State),
    (let s1 := stepOne g t (atTime t s)
     let z := if isWb s g t && s.pwmG[g].lastWb != some t then boundCopies g s1 else s1
     ∃ n, exec (.periodBoundary g t) s = .next n ∧ (isPb s g t = true → s.pwmG[g].lastPb ≠ some t →
      (∀ j k : Fin 4, let x := axOf g j
        ir n .pwm x.val (0x250 + 4 * k.val) = s.pwmA[x].slots[k].next.word ∧
          (n.pwmA[x].slots[k].cur = s.pwmA[x].slots[k].next ∨ n.pwmA[x].slots[k].cur = edgeOff)) ∧
      ((∀ u ∈ grpUnits g, bit (br z .pwm 0x10) u.val = false) → n.pwmG[g].lastPb = some t ∧
        ∀ j k : Fin 4, let x := axOf g j; n.pwmA[x].slots[k].cur = s.pwmA[x].slots[k].next))) ∧
    (∀ raws, ∃ n, exec (.periodCentre g t raws) s = .next n ∧ (afterPb s g t (gT s g / 2) = true →
      let z := encTime t s
      (∀ c : Fin 16, encRuns n c = true → n.enc[c].smp[g].ts = t ∧ n.enc[c].smp[g].valid = true ∧ n.enc[c].smp[g].c = n.enc[c].c) ∧
      (∀ c : Fin 16, z.enc[c].late = none → encRuns (encOrder c t .quiet z) c = true →
        n.enc[c].smp[g] = encSampleAt (encOrder c t .quiet z) c g t) ∧
      (∀ (j : Fin 4) (k : Fin 3), sdOn s (axOf g j) k = false → ir n .sdm (axOf g j).val (0x240 + 4 * k.val) = 0#32))) ∧
    (∃ n, exec (.watchBoundary g t) s = .next n ∧ ((gOn s g = true → isWb s g t = true) → (gOn s g = false → isDevB s t = true) →
      s.pwmG[g].lastWb ≠ some t → n.pwmG[g].lastWb = some t ∧ (∀ i, ptGroup i = g → bit (attr n i) writtenBit = false) ∧
        (helmUp s = true → ∀ j : Fin 4, let x := axOf g j
          ap n x 0 = axStateWord n x ∧ ap n x 4 = loWord n.env[x].y ∧ ap n x 5 = hiWord n.env[x].y))) ∧
    (∃ n, exec (.deviceBoundary t) s = .next n ∧ (isDevB s t = true → s.pwmG[g].lastWb ≠ some t → (g = 0 ∨ gOn s g = false) →
      n.pwmG[g].lastWb = some t ∧ ∀ i, ptGroup i = g → bit (attr n i) writtenBit = false))

/-! ### Feedback channels (08) -/

/-- 08 R192, R193, R198; 05 R150: a line change that lasts FLEN samples, a STEP pulse two more, is accepted; a shorter one changes nothing. On a
running quadrature channel that does not decode STEP/DIR, one place up or down the sequence changes the 48-bit count by one in the direction INV
gives, at the edge time; a change of both lines counts nothing and adds a skip. A channel that does not run only follows its lines. -/
def Obligations.EncoderCounting : Prop :=
  ∀ (c : Fin 16) (lines : BitVec 3) (held t : Nat) (s : State),
    let z := wireClear c t (atSample c t s)
    let inv : Int := if bit (ar z .enc c.val 0) 4 then -1 else 1
    let up := (quadPos lines.toNat + 4 - quadPos z.enc[c].lines) % 4
    (held < encHold (encTime t s) c → exec (.encEdge c lines held t) s = .next (encTime t s)) ∧
    (encHold (encTime t s) c ≤ held → ∃ n, exec (.encEdge c lines held t) s = .next n ∧ n.enc[c].lines = lines.toNat ∧
      (encRuns z c = false → n.enc[c].c = z.enc[c].c ∧ n.enc[c].te = z.enc[c].te) ∧
      (encRuns z c = true → encMode z c = 1 → stepDir z c = false →
        (up = 0 → n.enc[c].c = z.enc[c].c ∧ n.enc[c].te = z.enc[c].te) ∧
        (up = 1 → n.enc[c].c = wrap48 (z.enc[c].c + inv) ∧ n.enc[c].te = t - 5 * held) ∧
        (up = 3 → n.enc[c].c = wrap48 (z.enc[c].c - inv) ∧ n.enc[c].te = t - 5 * held) ∧
        (up = 2 → n.enc[c].c = z.enc[c].c ∧ bit (encStat n c) 3 = true)))

/-- 08 R207: a latch edge that lasts GLITCH ticks on a pin, or a software latch, captures in every armed unit of a running channel that
names it: the ship time of the edge goes into the record, the record is marked as new, and a single-shot unit is disarmed; a shorter pulse captures
nothing. ENC_ARM re-arms the named units, and no other register or bit changes. -/
def Obligations.LatchCaptures : Prop :=
  (∀ (v : Word) (s : State), ∃ n, exec (.encArm v) s = .next n ∧
    (∀ (c : Fin 16) (j : Nat), j < 32 → bit (encStat n c) j =
      (if j = 11 ∨ j = 12 then bit v (2 * c.val + (j - 11)) || bit (encStat s c) j else bit (encStat s c) j)) ∧
    ∀ a, (∀ c : Fin 16, a ≠ iAddr .enc c.val 0x280) → rd n a = rd s a) ∧
  ∀ (c : Fin 16) (u : Fin 2),
    let cfg := fun (s : State) => latchCfg s c u.val
    let open_ := fun (s : State) => encRuns s c && bit (encStat s c) (11 + u.val)
    let o := 0x2B0 + 0x18 * u.val
    let taken := fun (t : Nat) (s n : State) => ir n .enc c.val (o + 8) = loWord t ∧ ir n .enc c.val (o + 12) = hiWord t ∧
      bit (encStat n c) (9 + u.val) = true ∧ (bit (cfg s) 8 = false → bit (encStat n c) (11 + u.val) = false) ∧ n.enc = s.enc
    (∀ (m : Fin 8) (rising : Bool) (held t : Nat) (s : State),
      let z := encTime t s
      let up := xor rising (bit (br z .enc (0x20 + 4 * m.val)) 8)
      (held < fld (br z .enc (0x20 + 4 * m.val)) 0 8 → exec (.latchPinEdge m rising held t) s = .next z) ∧
      (fld (br z .enc (0x20 + 4 * m.val)) 0 8 ≤ held → open_ z = true → fld (cfg z) 0 3 = 1 → fld (cfg z) 3 3 = m.val →
        (fld (cfg z) 6 2 = 2 ∨ fld (cfg z) 6 2 = 0 ∧ up = true ∨ fld (cfg z) 6 2 = 1 ∧ up = false) →
        ∃ n, exec (.latchPinEdge m rising held t) s = .next n ∧ taken (t - 2 * held) z n)) ∧
    (∀ (v : Word) (s : State), open_ s = true → fld (cfg s) 0 3 = 5 → bit v (2 * c.val + u.val) = true →
      ∃ n, exec (.encSwlatch v) s = .next n ∧ taken s.now s n)

/-- 08 R211, R201, R204, R205, R206: a compare pulse ends at its time; wires of a checked pair that agree in more than WDT samples set WIRE and
UNCERTAIN, and WIRE goes at a sample that finds every pair apart for 1 ms; a serial poll that is due starts a frame with the set in use, or is counted
as late; a frame that fails its checks is counted; a good one in time sets the count to its data where it begins an unwrapping and moves it by the
difference of the data where it goes on, at the poll time, and a late one waits for the next period. -/
def Obligations.EncoderWiresAndFrames : Prop :=
  (∀ (m : Fin 8) (t e : Nat) (s : State), let z := encTime t s
    z.cmpPins[m].ends = some e → e ≤ t →
    ∃ n, exec (.cmpPulseEnd m t) s = .next n ∧ n.cmpPins[m].on = false ∧ n.cmpPins[m].ends = none ∧
      (∀ k : Fin 8, k ≠ m → n.cmpPins[k] = z.cmpPins[k]) ∧ Only [.cmpPins] z n) ∧
  (∀ (c : Fin 16) (pair : Fin 3) (run : Nat) (lasts : Bool) (t : Nat) (s : State),
    let y := atSample c t s
    let z := encOrder c t .quiet (encTime t s)
    let wdt := fld (ar z .enc c.val 0x18) 0 8
    ∃ n, exec (.encWire c pair run lasts t) s = .next n ∧
      (wireChecked z c pair = true → (n.enc[c].wireAt.toList.getD pair.val none = if lasts then none else some t) ∧
        (wdt < run → n.enc[c].wirePairs = z.enc[c].wirePairs ||| (1 <<< pair.val) ∧ bit (encStat n c) 2 = true ∧ bit (encStat n c) 1 = true) ∧
        (run ≤ wdt → n.enc[c].wirePairs = z.enc[c].wirePairs)) ∧
      (bit (encStat y c) 2 = true → wireOk y c t = true → run ≤ wdt → n.enc[c].wirePairs = 0 ∧ bit (encStat n c) 2 = false)) ∧
  (∀ (c : Fin 16) (t : Nat) (s : State), let z := encOrder c t .quiet (encTime t s)
    encRuns z c = true → (encMode z c = 3 ∨ encMode z c = 4) → pollDue z c t = true →
    (z.enc[c].frame = none → ∃ n, exec (.serialPollStart c t) s = .next n ∧ n.regs = z.regs ∧
      n.enc[c].frame = some { start := t, ser := ar z .enc c.val 0xC, sert := ar z .enc c.val 0x10 }) ∧
    (∀ f, z.enc[c].frame = some f → ∃ n, exec (.serialPollStart c t) s = .next n ∧ n.enc = z.enc ∧
      ir n .enc c.val 0x29C = satAdd (ir z .enc c.val 0x29C) 16 16 1)) ∧
  (∀ (c : Fin 16) (t : Nat) (r : SerialFrame) (f : SerialRun) (s : State), let z := encOrder c t .quiet (encTime t s)
    z.enc[c].frame = some f →
    let bits := fld f.ser 8 5 + fld f.ser 13 6
    let tp := f.start + fld f.sert 16 16
    let inTime := t ≤ f.start + fld f.sert 0 16 + 300
    (∀ cause w, frameRead (encMode z c) f.ser r = .fail cause w →
      ∃ n, exec (.serialFrameDone c t r) s = .next n ∧ n.enc[c].frame = none ∧ n.enc[c].fails = z.enc[c].fails + 1 ∧
        n.enc[c].c = z.enc[c].c ∧ fld (ir n .enc c.val 0x29C) 0 16 = min (fld (ir z .enc c.val 0x29C) 0 16 + 1) 65535) ∧
    (∀ raw w, frameRead (encMode z c) f.ser r = .good raw w →
      let u := if bit f.ser 19 then grayDec raw bits else raw
      (z.enc[c].u = none → ∃ n, exec (.serialFrameDone c t r) s = .next n ∧ n.enc[c].frame = none ∧ n.enc[c].fails = 0 ∧
        (inTime → n.enc[c].c = (u : Int) ∧ n.enc[c].te = tp ∧ n.enc[c].u = some u) ∧ (¬inTime → n.enc[c].c = z.enc[c].c ∧ n.enc[c].late = some (u, tp, bits))) ∧
      (∀ u0, z.enc[c].u = some u0 → let d := sext bits (u + 2 ^ bits - u0)
        (ar z .enc c.val 0x14 = 0#32 ∨ d.natAbs ≤ (ar z .enc c.val 0x14).toNat) →
        ∃ n, exec (.serialFrameDone c t r) s = .next n ∧ n.enc[c].frame = none ∧ n.enc[c].fails = 0 ∧
          (inTime → n.enc[c].c = wrap48 (z.enc[c].c + if bit (ar z .enc c.val 0) 4 then -d else d) ∧ n.enc[c].te = tp) ∧
          (¬inTime → n.enc[c].late = some (u, tp, bits)))))

/-! ### The PWM generator (09) and the duty path (01, 06) -/

/-- 09 R222, R223, R226: at the computation of a period the slot of an axis with an OFF word has both switches off; with a LOW word its low
switch is on; with a PWM word it has edges, and the rounding that is carried on stays within ACCLIM. -/
def Obligations.PwmEdgeComputation : Prop :=
  ∀ (g : Fin 4) (t : Nat) (s : State) (j k : Fin 4), afterPb s g t (gT s g / 2 + gT s g - 300) = true → mode s ≠ mService →
    let x := axOf g j
    let w := s.pwmA[x].frozen[k]
    let old := s.pwmA[x].slots[k]
    let c := edgeCfg s x
    ∃ n, exec (.edgeCompute g t) s = .next n ∧
      (dutyCode w = 1 → n.pwmA[x].slots[k].next.r = recOff ∧ n.pwmA[x].slots[k].acc = 0) ∧
      (dutyCode w = 2 → n.pwmA[x].slots[k].next.kind = .low ∧ n.pwmA[x].slots[k].next.r.stl = old.endL ∧
        n.pwmA[x].slots[k].next.r.sth = false ∧ n.pwmA[x].slots[k].endL = true) ∧
      (dutyCode w = 0 → n.pwmA[x].slots[k].next.kind = .pwm ∧ -c.acclim ≤ n.pwmA[x].slots[k].acc ∧ n.pwmA[x].slots[k].acc ≤ c.acclim)

/-- 01 R23, R169: at the duty deadline an axis whose mark has arrived takes its shadows as the frozen set and starts its count of misses anew;
without a mark the previous set repeats and a counted axis has one miss more. -/
def Obligations.DutyDeadlineFreezes : Prop :=
  ∀ (g : Fin 4) (t : Nat) (s : State) (j : Fin 4), afterPb s g t (gT s g / 2 + gT s g - 500) = true →
    let x := axOf g j
    ∃ n, exec (.dutyDeadline g t) s = .next n ∧ n.pwmA[x].mark = false ∧
      (s.pwmA[x].mark = true → n.pwmA[x].frozen = s.pwmA[x].shadow ∧ n.pwmA[x].miss = 0) ∧
      (s.pwmA[x].mark = false → n.pwmA[x].frozen = s.pwmA[x].frozen ∧
        (counted s x = true → s.helm.bootLeft ≤ t + 500 - gT s g → n.pwmA[x].miss = s.pwmA[x].miss + 1) ∧
        (counted s x = false → n.pwmA[x].miss = s.pwmA[x].miss))

/-- 01 R25; 06 R169; 09 R236, R237: the second consecutive miss of active axes puts their group into group off, its GOFF and LATE_DUTY bits
show, and each of those axes has its level-2 fault; a count of missing marks at WDLIM does the same with DUTY_WD, whose fault stands while an
axis of the group is active. Every axis of the group then has torque off. -/
def Obligations.LateDutiesStopTheGroup : Prop :=
  ∀ (g : Fin 4) (t : Nat) (s : State),
    ((grpAxes g).any (fun a => decide (2 ≤ s.pwmA[a].miss) && axActive s a) = true →
      ∃ n, exec (.lateDuty g t) s = .next n ∧ bit (br n .pwm 0) (20 + g.val) = true ∧ bit (br n .loop 0) (16 + g.val) = true ∧
        (∀ j : Fin 4, tq n (axOf g j) = false) ∧
        ∀ x ∈ grpAxes g, 2 ≤ s.pwmA[x].miss → axActive s x = true → RaisedAt t 2 (mkCode 6 x.val 1) (grpMask g) s n) ∧
    (∀ x : Fin 16, bit (br s .pwm 0) (24 + g.val) = false → wdLim s g ≠ 0 →
      (grpAxes g).find? (fun a => decide (wdLim s g ≤ s.pwmA[a].wd)) = some x →
      ∃ n, exec (.dutyWd g t) s = .next n ∧ bit (br n .pwm 0) (24 + g.val) = true ∧ bit (br n .pwm 0) (20 + g.val) = true ∧
        (∀ j : Fin 4, tq n (axOf g j) = false) ∧ (grpActive s g = true → RaisedAt t 2 (mkCode 9 g.val 7) (grpMask g) s n))

/-- 09 R229, R230, R232 to R235: a force word is taken in SERVICE, and refused whole where a slot holds state 3 or outside SERVICE; an accepted
trip clear waits for the boundary with TCNT 0, one whose source is active is refused; a trip pin level that has stood for fewer than FLEN ticks
does nothing to PWM_TRIPIN, and one that has stood so long and is active at its enabled pin shows there and makes its axis or group act, and
latches with the level-2 fault where TCNT equals N; an interlock of a pin half-bridge is a level-2 fault. -/
def Obligations.PwmForceAndTrips : Prop :=
  (∀ (x : Fin 16) (v : Word) (s : State), ∃ n, exec (.pwmForceWrite x v) s = .next n ∧
    (mode s = mService → forceBad v = false → ir n .pwm x.val 0x100 = v &&& 0xFF#32 ∧ Only [.regs] s n) ∧
    (mode s = mService → forceBad v = true → ir n .pwm x.val 0x100 = ir s .pwm x.val 0x100 ∧ bit (br n .pwm 0x1C) x.val = true) ∧
    (mode s ≠ mService → n = s)) ∧
  (∀ (v : Word) (u : Fin 20) (s : State), bit v u.val = true → latched s u = true → ∃ n, exec (.pwmTripclr v) s = .next n ∧ latched n u = true ∧
    (srcOn s u = false → clearDue n u = true ∧ tcnt n u = 0) ∧
    (srcOn s u = true → clearDue n u = clearDue s u ∧ tcnt n u = tcnt s u)) ∧
  (∀ (u : Fin 20) (v : Bool) (held t : Nat) (s : State), ∃ n, exec (.tripActive u (.pin v) held t) s = .next n ∧
    (held < fld (tripCfg s u) 0 8 → n.regs = s.regs ∧ acting n u = acting s u) ∧
    (fld (tripCfg s u) 0 8 ≤ held → bit (tripCfg s u) 9 = true → v ≠ bit (tripCfg s u) 8 →
      srcOn n u = true ∧
      (mode s ≠ mSleep → mode s ≠ mBoot → acting s u = false →
        acting n u = true ∧ (latched s u = false → tcnt s u = fld (tripCfg s u) 16 8 → latched n u = true ∧
          (u.val < 16 → RaisedAt t 2 (mkCode 9 u.val 2) (grpMask (unitGrp u)) s n) ∧
          (16 ≤ u.val → RaisedAt t 2 (mkCode 9 (u.val - 16) 4) (grpMask (unitGrp u)) s n))))) ∧
  (∀ (x : Fin 16) (k : Fin 4) (t : Nat) (s : State), ∃ n, exec (.outInterlock x k t) s = .next n ∧
    ((hasDrive s = false ∨ 4 ≤ x.val) → bit (br n .pwm 0x20) (4 + (grpOf x).val) = true ∧
      Stands 2 (mkCode 9 x.val 8) (grpMask (grpOf x)) s n) ∧
    (hasDrive s = true → x.val < 4 → Only [.now] s n))

/-! ### The drive die and the drive link (10) -/

/-- 10 R250 to R252, R254, R255, R257, R268, R271: on a locked link that is not lost, a SCHED frame whose CRC is right is held for its boundary
with the slots off whose records are invalid or overlap, and one whose CRC is wrong is counted and not held; a good CFG frame holds the armed
sets of its boundary, a bad one changes nothing of them; a good IDLE frame of a stopped group 0 lets armed sets take effect or be refused, a bad
one is counted; a good STAT frame brings the bootstrap voltages and DRV_STATUS, a bad one is not used; of the two copies of an OFF frame the first
that is right turns off and latches what it names, and a wrong copy is counted. Without a drive die each frame does nothing. -/
def Obligations.DriveFrames : Prop :=
  ∀ (t : Nat) (s : State) (bytes copy : List Byte) (volts : List Nat),
    let up := hasDrive s = true ∧ s.drv.lost = false ∧ s.drv.locked = true
    let count := fun (k : Nat) (n : State) => fld (br n .drv 0x24) 0 16 = min (fld (br s .drv 0x24) 0 16 + k) 65535
    (∃ n, exec (.sched bytes t) s = .next n ∧
      (up → frameOk 1 213 bytes = true → n.drv.held = some (schedOf bytes) ∧
        n.drv.slotOff = (schedOf bytes).slots.map (fun r => !(recValid (gTicks s 0) r) || recOverlap r)) ∧
      (up → frameOk 1 213 bytes = false → n.drv.held = s.drv.held ∧ n.drv.crcBad = true ∧ count 1 n) ∧
      (¬up → Only [.now] s n)) ∧
    (∃ n, exec (.cfg bytes t) s = .next n ∧ n.regs = s.regs ∧
      (up → n.drv.cfgHeld = if frameOk 3 53 bytes then some (leAt bytes 2 2, s.drv.cfgDue) else s.drv.cfgHeld) ∧
      (¬up → Only [.now] s n)) ∧
    (∃ n, exec (.idle bytes t) s = .next n ∧
      (up → gOn s 0 = false → frameOk 4 5 bytes = true → n.drv.missing = 0 ∧ n.drv.idleAt = t ∧ fld (br n .drv 0x10) 0 4 = 0) ∧
      (up → gOn s 0 = false → frameOk 4 5 bytes = false → count 1 n ∧ n.drv.lost = decide (s.drv.idleAt + 30000 ≤ t)) ∧
      (¬up ∨ gOn s 0 = true → Only [.now] s n)) ∧
    (∃ n, exec (.stat volts bytes t) s = .next n ∧
      (hasDrive s = true → frameOk 8 36 bytes = true → (∀ x k : Fin 4, n.drv.bsv[x][k] = volts.getD (4 * x.val + k.val) s.drv.bsv[x][k]) ∧
        bit (br n .drv 0) 0 = s.drv.locked ∧ bit (br n .drv 0) 1 = s.drv.lost ∧ bit (br n .drv 0) 7 = s.drv.gOff ∧
        ∀ x : Fin 4, bit (br n .drv 0) (8 + x.val) = s.drv.axOff[x] ∧ bit (br n .drv 0) (12 + x.val) = s.drv.vbrOv[x]) ∧
      (hasDrive s = false ∨ frameOk 8 36 bytes = false → Only [.now] s n)) ∧
    (let c := if offOk bytes then bytes else copy
     ∃ n, exec (.drvOff bytes copy t) s = .next n ∧
      (up → (if offOk bytes then 0 else 1) + (if offOk copy then 0 else 1) = 0 → n.regs = s.regs) ∧
      (up → count ((if offOk bytes then 0 else 1) + (if offOk copy then 0 else 1)) n) ∧
      (up → offOk c = true → n.drv.gOff = (s.drv.gOff || (c.getD 4 0#8).getLsbD 4) ∧
        ∀ x : Fin 4, n.drv.axOff[x] = (s.drv.axOff[x] || (c.getD 4 0#8).getLsbD x.val)) ∧
      (up → offOk c = false → n.drv.gOff = s.drv.gOff ∧ n.drv.axOff = s.drv.axOff) ∧
      (¬up → n.drv.gOff = s.drv.gOff ∧ n.drv.axOff = s.drv.axOff ∧ Only [.now, .drv] s n))

/-- 10 R253, R254: training locks the link; a link that does not lock in BOOT is a level-3 fault; a lost link leaves LOCKED, shows LINKLOST and
drops the held frame: at once where the forwarded clock stops, after 30 µs without a good IDLE frame while group 0 is stopped. -/
def Obligations.DriveLink : Prop :=
  ∀ (t : Nat) (s : State),
    (∃ n, exec (.drvLinkTrained t) s = .next n ∧ (hasDrive s = true → n.drv.locked = true ∧ n.drv.lost = false ∧ n.drv.missing = 0 ∧
      bit (br n .drv 0) 0 = true ∧ bit (br n .drv 0) 1 = false)) ∧
    (∀ stage, ∃ n, exec (.drvLinkFail stage t) s = .next n ∧
      (hasDrive s = true → s.drv.locked = false → mode s = mBoot → Stands 3 (mkCode 10 0 1) 0xFFFF#16 s n) ∧
      (hasDrive s = false ∨ s.drv.locked = true ∨ mode s ≠ mBoot → Only [.now] s n)) ∧
    (∀ clock : Bool, ∃ n, exec (.drvLinkLost clock t) s = .next n ∧
      (hasDrive s = true → s.drv.locked = true → s.drv.lost = false → (clock = true ∨ gOn s 0 = false ∧ s.drv.idleAt + 30000 ≤ t) →
        n.drv.lost = true ∧ n.drv.locked = false ∧ n.drv.held = none ∧ bit (br n .drv 0) 0 = false ∧ bit (br n .drv 0) 1 = true ∧
        (grpActive s 0 = true → Stands 2 (mkCode 10 0 3) (grpMask 0) s n)) ∧
      (clock = false → gOn s 0 = true ∨ t < s.drv.idleAt + 30000 → Only [.now] s n))

/-- 10 R247 to R249, R256 to R264, R270, R271: each protection event of the drive die completes; where its condition holds it turns off what the
rule names and shows its status bit, and stands as a fault of group 0 while one of its axes is active (over-temperature as a level-3 fault of the
device); its end clears the cause. A desaturated switch counts its event and latches at DSN events; a bootstrap voltage is low for 200 ns of an
on-time or at an on-edge; precharge ends READY or back in DISABLED; the reverse-battery switch follows DRV_RB. -/
def Obligations.DriveProtection : Prop :=
  ∀ (t : Nat) (s : State),
    let die := hasDrive s = true
    let acts := fun (inst num : Nat) (n : State) => grpActive s 0 = true → Stands 2 (mkCode 10 inst num) (grpMask 0) s n
    (∀ (x : Fin 4) (b : Fin 8) (mv dur : Nat), ∃ n, exec (.drvDesat x b mv dur t) s = .next n ∧
      (die → desatSeen s x b mv dur t = true → Nat.testBit n.drv.dsOff[x] b.val = true ∧ n.drv.evDesat[x] = s.drv.evDesat[x] + 1 ∧
        drvSwitch n x b t = false ∧
        (s.drv.dsCnt[x][b] = fld (ar s .drv x.val 4) 0 4 → Nat.testBit s.drv.dsLat[x] b.val = false →
          Nat.testBit n.drv.dsLat[x] b.val = true ∧ (grpActive s 0 = true → RaisedAt t 2 (mkCode 10 x.val 5) (grpMask 0) s n))) ∧
      (desatSeen s x b mv dur t = false → Only [.now] s n)) ∧
    (∀ v : Word, ∃ n, exec (.drvDsclr v) s = .next n ∧ Only [.drv] s n ∧
      (die → ∀ x : Fin 4, n.drv.dsLat[x] = s.drv.dsLat[x] &&& (255 - fld v (8 * x.val) 8))) ∧
    (∀ (x k : Fin 4) (mv dur : Nat), ∃ n, exec (.bsLow x k mv dur t) s = .next n ∧
      (die → bit (ar s .drv x.val 8) k.val = true → mv < 6000 + 250 * fld (ar s .drv x.val 8) 8 4 →
        (onEdgeAt s x k t = true ∨ 200 ≤ dur ∧ drvSwitch s x ⟨2 * k.val, by omega⟩ t = true) →
        Nat.testBit n.drv.bsLow[x] k.val = true ∧ bit (br n .drv 0x28) (12 + x.val) = true) ∧
      (bit (ar s .drv x.val 8) k.val = false ∨ 6000 + 250 * fld (ar s .drv x.val 8) 8 4 ≤ mv → Only [.now] s n)) ∧
    (∀ dv, ∃ n, exec (.vgdOutOfRange dv t) s = .next n ∧
      (die → dv < 90 → n.drv.vgd = 1 ∧ (s.drv.vgd ≠ 1 → bit (br n .drv 0) 3 = false ∧ acts 0 9 n)) ∧
      (die → 160 < dv → n.drv.vgd = 2 ∧ (s.drv.vgd ≠ 2 → bit (br n .drv 0) 3 = false ∧ acts 0 0xA n)) ∧
      (90 ≤ dv → dv ≤ 160 → Only [.now] s n)) ∧
    (∀ dv, ∃ n, exec (.vgdBackInRange dv t) s = .next n ∧
      (die → 95 ≤ dv → dv ≤ 155 → n.drv.vgd = 0 ∧ bit (br n .drv 0) 3 = true ∧ (bit (br s .drv 0x20) 0 = true → n.drv.rbOn = true)) ∧
      (dv < 95 ∨ 155 < dv → Only [.now] s n)) ∧
    (∀ (x : Fin 4) (dv : Nat), ∃ n, exec (.drvVbrOv x dv t) s = .next n ∧
      (die → 660 < dv → n.drv.vbrOv[x] = true ∧ (s.drv.vbrOv[x] = false → bit (br n .drv 0) (12 + x.val) = true ∧ acts x.val 0xB n)) ∧
      (dv ≤ 660 → Only [.now] s n)) ∧
    (∀ x : Fin 4, ∃ n, exec (.vbrBackBelow64v x t) s = .next n ∧
      (die → n.drv.vbrOv[x] = false ∧ bit (br n .drv 0) (12 + x.val) = false)) ∧
    (∃ n, exec (.drvOvertemp t) s = .next n ∧
      (die → n.drv.overTemp = true ∧ (s.drv.overTemp = false → bit (br n .drv 0) 4 = true ∧ Stands 3 (mkCode 10 0 0xC) 0xFFFF#16 s n))) ∧
    (∀ (x : Fin 4) (b : Fin 8), ∃ n, exec (.shootGate x b t) s = .next n ∧
      (die → Nat.testBit n.drv.gateOff[x] b.val = true ∧ bit (br n .drv 0x28) (4 + x.val) = true ∧ acts x.val 0xF n)) ∧
    (∀ (x : Fin 4) (volts : List Nat),
      let c := ar s .drv x.val 8
      let low := fun (k : Fin 4) => bit c k.val = true ∧ 4 * volts.getD k.val 0 < 240 + 10 * fld c 8 4 + 10 * (fld c 12 2 + 1)
      let ends := s.ax[ax4 x].seq = .enabling ∧ s.drv.pre[x] = 1 ∧ s.drv.preAt[x] + 1000 * fld c 16 16 ≤ t
      ∃ n, exec (.prechargeEnd x volts t) s = .next n ∧
        (die → ends → (∀ k, ¬ low k) → n.drv.pre[x] = 2 ∧ n.ax[ax4 x].precharge = 2 ∧ n.ax[ax4 x].seq = .enabling) ∧
        (die → ends → (∃ k, low k) → n.drv.pre[x] = 3 ∧ n.ax[ax4 x].seq = .disabled ∧ bit (br n .drv 0x28) (16 + x.val) = true) ∧
        (¬ends → Only [.now] s n)) ∧
    (∀ v : Word, ∃ n, exec (.drvRbWrite v) s = .next n ∧
      (die → br n .drv 0x20 = v &&& 3#32 ∧
        (bit v 0 = true → s.drv.vgd = 0 → n.drv.rbOn = true ∧ bit (br n .drv 0) 5 = true) ∧
        (bit v 0 = false → grpTq s 0 = false → n.drv.rbOn = false ∧ bit (br n .drv 0) 5 = false) ∧
        (bit v 0 = false → bit (br s .drv 0x20) 0 = true → grpTq s 0 = true → n.drv.rbOn = s.drv.rbOn ∧ n.drv.rbPend = true))) ∧
    (∀ dv dur, ∃ n, exec (.rbFault dv dur t) s = .next n ∧
      (die → s.drv.rbOn = true → dv < 80 → 10000 ≤ dur → n.drv.rbOn = false ∧ bit (br n .drv 0x28) 20 = true ∧ acts 0 0xE n) ∧
      (s.drv.rbOn = false ∨ 80 ≤ dv ∨ dur < 10000 → Only [.now] s n))

/-! ### Start admission (20) -/

/-- 20 R503 to R506: at an evaluation a lone new request is granted if the budget is 0 or holds its cost beside what is still held, and its cost
is held for its settling time, and else it waits; a request of an axis that waits past its timeout is withdrawn with the level-1 fault and the axis
returns to DISABLED; a write of the budget takes its low half. -/
def Obligations.StartAdmission : Prop :=
  (∀ (t : Nat) (s : State) (r : AdmReq), t % 10000 = 0 → s.adm.queue = [] → s.adm.raised = [r] → fld (br s .pmu 0x10) 0 16 = 0 →
    (r.tmo = 0 ∨ t < r.t0 + r.tmo) →
    let alive := s.adm.held.filter (fun g => decide (t < g.until_))
    let used := (alive.map (·.cost)).foldl (· + ·) 0
    let budget := fld (br s .pmu 0x20) 0 16
    ∃ n, exec (.admissionEvaluation t) s = .next n ∧ n.adm.raised = [] ∧
      ((budget = 0 ∨ used + r.cost ≤ budget ∨ used = 0) → n.adm.queue = [] ∧
        n.adm.held = alive ++ [{ src := r.src, cost := r.cost, until_ := t + r.settle }]) ∧
      (budget ≠ 0 → budget < used + r.cost → used ≠ 0 → n.adm.queue = [r] ∧ n.adm.held = alive)) ∧
  (∀ (t : Nat) (s : State) (r : AdmReq) (x : Fin 16), s.adm.queue = [r] → s.adm.raised = [] → r.src = srcAx x → r.tmo ≠ 0 → r.t0 + r.tmo ≤ t →
    ∃ n, exec (.startTimeout t) s = .next n ∧ n.adm.queue = [] ∧ (s.ax[x].seq = .enabling → n.ax[x].seq = .disabled) ∧
      Stands 1 (mkCode 1 x.val 0x10) (1#16 <<< x.val) s n) ∧
  (∀ (v : Word) (s : State), ∃ n, exec (.pmuStartBudgetWrite v) s = .next n ∧ br n .pmu 0x20 = v &&& 0xFFFF#32 ∧
    ∀ a, a ≠ bAddr .pmu 0x20 → rd n a = rd s a)

/-! ### The Sextant clusters (11, 12) -/

/-- 12 R300, R301, R302, R303: in every lane that may write, an operation with a lane destination leaves in Xd what Table 12-3 says of the
values that the word found; a lane that may not write keeps Xd. The other slots of the word may hold anything (R317). MAX and MIN of
different words with equal keys (FMT 1) give one of the two, which the spec leaves open (log entry 23). -/
def Obligations.SextantLaneResults : Prop :=
  ∀ (w : SxWord) (g : Fin 4) (t : Nat) (i : Instr) (s : State) (k : LaneK) (fmt : Fin 4) (msk : Bool) (d a b : Fin 32) (aux : Fin 16),
    rowOf w g t i → Issues s g w → stays w → w.ar = .lane k fmt msk d a b aux → writesLane k = true →
    ∃ n, exec i s = .next n ∧ ∀ l : Fin 4,
      let c := s.clu[g]
      let x := c.xr a l
      let y := c.xr b l
      let amount := if aux.val % 2 = 1 then b.val else fld y 0 5
      let v := n.clu[g].lanes[l].x[physX c.rrb d]
      if (!msk || c.lf l) = true then
        match k with
        | .add => v = satOp fmt.val (· + ·) x y
        | .sub => v = satOp fmt.val (· - ·) x y
        | .abs => v = satOp fmt.val (fun p _ => if p < 0 then -p else p) x x
        | .neg => v = satOp fmt.val (fun p _ => -p) x x
        | .max => (v = x ∨ v = y) ∧ (cmpVal fmt.val x < cmpVal fmt.val y → v = y) ∧ (cmpVal fmt.val y < cmpVal fmt.val x → v = x)
        | .min => (v = x ∨ v = y) ∧ (cmpVal fmt.val x < cmpVal fmt.val y → v = x) ∧ (cmpVal fmt.val y < cmpVal fmt.val x → v = y)
        | .mov => v = x
        | .and => v = x &&& y
        | .or => v = x ||| y
        | .xor => v = x ^^^ y
        | .lsl | .lsr | .asr => v = shiftOp k fmt.val amount x
        | .sel => v = if c.lf l then x else y
        | .mpyr =>
          let p := product fmt.val x y
          v = (convert fmt.val c.trunc (accHold fmt.val p.1 p.2.1 p.2.2).1).1
        | .movxa => v = (convert fmt.val c.trunc (c.accOf a.val l)).1
        | .exp => v = accExp fmt.val (c.accOf a.val l)
        | .bcast => v = c.sr a.val
        | _ => False
      else v = c.xr d l

/-- 12 R302, R303: in every lane that may write, an operation with an accumulator destination leaves in the accumulator what Table 12-3
says, held to 72 bits or each half to 36 (11 R276), SHA the accumulator shifted by its signed count; a lane that may not write keeps it. -/
def Obligations.SextantAccumulatorResults : Prop :=
  (∀ (w : SxWord) (g : Fin 4) (t : Nat) (i : Instr) (s : State) (fmt : Fin 4) (msk : Bool) (d : Fin 32) (cnt low : Fin 128),
    rowOf w g t i → Issues s g w → stays w → w.ar = .sha fmt msk d cnt low →
    ∃ n, exec i s = .next n ∧ ∀ l : Fin 4,
      let c := s.clu[g]
      let count := sext 7 cnt.val
      n.clu[g].accOf d.val l =
        if (!msk || c.lf l) = true then (accShift fmt.val (c.accOf d.val l) count count count).1 else c.accOf d.val l) ∧
  ∀ (w : SxWord) (g : Fin 4) (t : Nat) (i : Instr) (s : State) (k : LaneK) (fmt : Fin 4) (msk : Bool) (d a b : Fin 32) (aux : Fin 16),
    rowOf w g t i → Issues s g w → stays w → w.ar = .lane k fmt msk d a b aux → (k.toAcc = true ∨ k = .norm) →
    ∃ n, exec i s = .next n ∧ ∀ l : Fin 4,
      let c := s.clu[g]
      let x := c.xr a l
      let p := product fmt.val x (c.xr b l)
      let old := c.accOf d.val l
      let src := c.accOf aux.val l
      if (!msk || c.lf l) = true then
        match k with
        | .mpy => n.clu[g].accOf d.val l = (accHold fmt.val p.1 p.2.1 p.2.2).1
        | .mac => n.clu[g].accOf d.val l = (accHold fmt.val (accVal old + p.1) (accHi old + p.2.1) (accLo old + p.2.2)).1
        | .msu => n.clu[g].accOf d.val l = (accHold fmt.val (accVal old - p.1) (accHi old - p.2.1) (accLo old - p.2.2)).1
        | .clra => n.clu[g].accOf d.val l = 0#72
        | .lda => n.clu[g].accOf d.val l = accLoad fmt.val x
        | .adda => n.clu[g].accOf d.val l = (accHold fmt.val (accVal old + accVal src) (accHi old + accHi src) (accLo old + accLo src)).1
        | .suba => n.clu[g].accOf d.val l = (accHold fmt.val (accVal old - accVal src) (accHi old - accHi src) (accLo old - accLo src)).1
        | .norm => n.clu[g].accOf a.val l = (accNorm fmt.val (c.accOf a.val l) (c.xr b l) (decide (8 ≤ aux.val))).1
        | _ => False
      else if k = .norm then n.clu[g].accOf a.val l = c.accOf a.val l else n.clu[g].accOf d.val l = old

/-- 12 R300, R303: a compare puts its result into LF of each lane, whatever the mask; EXTR puts the register of the lane AUX into Sd. -/
def Obligations.SextantCompareAndExtract : Prop :=
  ∀ (w : SxWord) (g : Fin 4) (t : Nat) (i : Instr) (s : State) (k : LaneK) (fmt : Fin 4) (msk : Bool) (d a b : Fin 32) (aux : Fin 16),
    rowOf w g t i → Issues s g w → stays w → w.ar = .lane k fmt msk d a b aux → k.noLane = true →
    ∃ n, exec i s = .next n ∧
      let c := s.clu[g]
      match k with
      | .cmpeq => ∀ l : Fin 4, n.clu[g].lf l = decide (cmpVal fmt.val (c.xr a l) = cmpVal fmt.val (c.xr b l))
      | .cmplt => ∀ l : Fin 4, n.clu[g].lf l = decide (cmpVal fmt.val (c.xr a l) < cmpVal fmt.val (c.xr b l))
      | .cmple => ∀ l : Fin 4, n.clu[g].lf l = decide (cmpVal fmt.val (c.xr a l) ≤ cmpVal fmt.val (c.xr b l))
      | .extr => n.clu[g].sr d.val = c.xr a (Fin.ofNat 4 aux.val)
      | _ => False

/-- 12 R304: the scalar unit leaves its result in Sd and Z, N, C and V as the rule says; SCMP leaves only flags; SMOV leaves the flags. -/
def Obligations.SextantScalarResults : Prop :=
  ∀ (w : SxWord) (g : Fin 4) (t : Nat) (i : Instr) (s : State) (k : ScalK) (sd sa sb : Fin 16) (im : Bool) (imm : Fin 32) (low : Fin 16),
    rowOf w g t i → Issues s g w → stays w → w.ar = .scal k sd sa sb im imm low →
    ∃ n, exec i s = .next n ∧
      let c := s.clu[g]
      let x := c.sr sa.val
      let y := c.sr sb.val
      let m := if im then imm.val else fld y 0 5
      let v := n.clu[g].sr sd.val
      let st := n.clu[g].st
      let zn := fun (r : Word) => bit st 0 = decide (r = 0#32) ∧ bit st 1 = bit r 31
      let same := fun (j : Nat) => bit st j = bit c.st j
      match k with
      | .sadd => v = x + y ∧ zn (x + y) ∧ bit st 2 = decide (2 ^ 32 ≤ x.toNat + y.toNat) ∧ bit st 3 = overflow (x.toInt + y.toInt)
      | .ssub => v = x - y ∧ zn (x - y) ∧ bit st 2 = decide (y.toNat ≤ x.toNat) ∧ bit st 3 = overflow (x.toInt - y.toInt)
      | .scmp => zn (x - y) ∧ bit st 2 = decide (y.toNat ≤ x.toNat) ∧ bit st 3 = overflow (x.toInt - y.toInt)
      | .sand => v = x &&& y ∧ zn (x &&& y) ∧ same 2 ∧ same 3
      | .sor => v = x ||| y ∧ zn (x ||| y) ∧ same 2 ∧ same 3
      | .sxor => v = x ^^^ y ∧ zn (x ^^^ y) ∧ same 2 ∧ same 3
      | .slsl => v = x <<< m ∧ zn (x <<< m) ∧ (m = 0 → same 2) ∧ (m ≠ 0 → bit st 2 = bit x (32 - m)) ∧ same 3
      | .slsr => v = x >>> m ∧ zn (x >>> m) ∧ (m = 0 → same 2) ∧ (m ≠ 0 → bit st 2 = bit x (m - 1)) ∧ same 3
      | .sasr => v = x.sshiftRight m ∧ zn (x.sshiftRight m) ∧ (m = 0 → same 2) ∧ (m ≠ 0 → bit st 2 = bit x (m - 1)) ∧ same 3
      | .smov => v = x ∧ ∀ j, j < 4 → same j

/-- 12 R300, R304, R305: SLDI, SLDH and SADDI leave their value in Sd, SADDI the flags of a sum; SRD leaves the special register. -/
def Obligations.SextantImmediateAndReadSpecial : Prop :=
  ∀ (w : SxWord) (g : Fin 4) (t : Nat) (i : Instr) (s : State), rowOf w g t i → Issues s g w → stays w →
    ∃ n, exec i s = .next n ∧
      let c := s.clu[g]
      (∀ (k : ImmK) (sd : Fin 16) (gap : Fin 4) (imm : Fin 65536), w.ar = .simm k sd gap imm →
        let v := n.clu[g].sr sd.val
        let e : Word := BitVec.ofInt 32 (sext 16 imm.val)
        let x := c.sr sd.val
        let st := n.clu[g].st
        match k with
        | .sldi => v = e ∧ ∀ j, j < 4 → bit st j = bit c.st j
        | .sldh => fld v 16 16 = imm.val ∧ fld v 0 16 = fld x 0 16 ∧ ∀ j, j < 4 → bit st j = bit c.st j
        | .saddi => v = x + e ∧ bit st 0 = decide (x + e = 0#32) ∧ bit st 1 = bit (x + e) 31 ∧
            bit st 2 = decide (2 ^ 32 ≤ x.toNat + e.toNat) ∧ bit st 3 = overflow (x.toInt + e.toInt)) ∧
      (∀ (r : Fin 64) (sd : Fin 16) (low : Fin 4096), w.ar = .srd r sd low → n.clu[g].sr sd.val = c.spRead r.val)

/-- 12 R305: SWR and SWRI put the low 16 bits of their value into P, M, B or L of the register number, and the low 4 into QSB; into ST they
put Z, N, C, V and LF. -/
def Obligations.SextantWriteSpecial : Prop :=
  ∀ (w : SxWord) (g : Fin 4) (t : Nat) (i : Instr) (s : State) (r : Fin 64) (v : Word), rowOf w g t i → Issues s g w → stays w →
    ((∃ (sa : Fin 16) (low : Fin 4096), w.ar = .swr r sa low ∧ v = s.clu[g].sr sa.val) ∨
      (∃ m : Fin 65536, w.ar = .swri r m ∧ v = BitVec.ofNat 32 m.val)) →
    ∃ n, exec i s = .next n ∧
      let c := n.clu[g]
      (∀ j : Fin 8, r.val = j.val → c.p[j] = v.setWidth 16) ∧ (∀ j : Fin 8, r.val = 8 + j.val → c.m[j] = v.setWidth 16) ∧
      (∀ j : Fin 8, r.val = 16 + j.val → c.b[j] = v.setWidth 16) ∧ (∀ j : Fin 8, r.val = 24 + j.val → c.l[j] = v.setWidth 16) ∧
      (r.val = 0x29 → c.qsb = fld v 0 4) ∧ (r.val = 0x20 → ∀ j, j < 8 → bit c.st j = bit v j)

/-- 12 R306, R307; 11 R279: a load puts the word at its address, or lane l's word of four, into its register; a store puts its register, or
the four converted accumulators, into memory at its address, and no other word of that memory changes. The X slot reaches X memory and the
Y slot Y memory. -/
def Obligations.SextantMemory : Prop :=
  ∀ (w : SxWord) (g : Fin 4) (t : Nat) (i : Instr) (s : State) (m : MemOp), rowOf w g t i → Issues s g w → stays w →
    (w.xs = .mem m ∨ w.ys = .mem m) →
    ∃ n, exec i s = .next n ∧ ∀ inX : Bool, (if inX then w.xs = .mem m else w.ys = .mem m) →
      let c := s.clu[g]
      let a := memAddr c m
      let old := fun k => sget xyDefault (if inX then c.x else c.y) k
      let new := fun k => sget xyDefault (if inX then n.clu[g].x else n.clu[g].y) k
      match m.k with
      | .ldb => ∀ l : Fin 4, n.clu[g].lanes[l].x[physX c.rrb m.reg] = old a
      | .ldv => ∀ l : Fin 4, n.clu[g].lanes[l].x[physX c.rrb m.reg] = old (a + l.val)
      | .lds => n.clu[g].sr m.reg.val = old a
      | .stl => new a = c.xr m.reg m.lf ∧ ∀ k, k ≠ a → new k = old k
      | .sts => new a = c.sr m.reg.val ∧ ∀ k, k ≠ a → new k = old k
      | .stv => (∀ l : Fin 4, new (a + l.val) = c.xr m.reg l) ∧ ∀ k, (k < a ∨ a + 4 ≤ k) → new k = old k
      | .stav => (∀ l : Fin 4, new (a + l.val) = (convert m.lf.val c.trunc (c.accOf m.reg.val l)).1) ∧
          ∀ k, (k < a ∨ a + 4 ≤ k) → new k = old k

/-- 11 R283; 12 R306, R311: a move that post-modifies a pointer which no other part of its word changes leaves P + M, or in a buffer of
length L the place B + ((P − B + M) mod L); a pointer that no part of the word names keeps its value; LDAG loads P, M, B and L from four
words of Y memory. -/
def Obligations.SextantAddressRegisters : Prop :=
  ∀ (w : SxWord) (g : Fin 4) (t : Nat) (i : Instr) (s : State), rowOf w g t i → Issues s g w → stays w →
    ∃ n, exec i s = .next n ∧
      let c := s.clu[g]
      let d := n.clu[g]
      let free := fun (r : Nat) => SxReg.sp r ∉ w.ar.writes ∧ SxReg.sp r ∉ w.ys.writes
      (∀ j : Fin 8, free j.val → (w.xs.post = some j.val ∧ w.ys.post ≠ some j.val ∨ w.xs.post ≠ some j.val ∧ w.ys.post = some j.val) →
        d.p[j] = if c.l[j] = 0#16 then c.p[j] + c.m[j]
          else BitVec.ofInt 16 ((c.b[j].toNat : Int) + ((c.p[j].toNat : Int) - c.b[j].toNat + c.m[j].toInt) % (c.l[j].toNat : Int))) ∧
      (∀ j : Fin 8, free j.val → w.xs.post ≠ some j.val → w.ys.post ≠ some j.val → d.p[j] = c.p[j]) ∧
      (∀ (j : Fin 8) (a : Fin 2048), w.ys = .ldag j a →
        let h := fun k => (sget xyDefault c.y (a.val + k)).setWidth 16
        d.p[j] = h 0 ∧ d.m[j] = h 1 ∧ d.b[j] = h 2 ∧ d.l[j] = h 3)

/-- 11 R284; 12 R312, R313: where no level ends at the word, a word without a taken branch goes on to the next word (a NOP changes nothing
else of its own), a taken branch to its target, closing a level that it leaves; LOOP opens the next level with LC, LS and LE, or with a
count of 0 jumps past its body; a word at the end of a level with LC above 1 goes back to LS with LC less 1. -/
def Obligations.SextantControl : Prop :=
  ∀ (w : SxWord) (g : Fin 4) (t : Nat) (i : Instr) (s : State), rowOf w g t i → Issues s g w → stays w →
    ∃ n, exec i s = .next n ∧
      let c := s.clu[g]
      let d := n.clu[g]
      let r := (arithOp w.ar s.fresh c c)
      let go := fun (a : Nat) => d.pc = a ∧ ∀ k : Fin 2, r.lvl k = true → (a < r.ls[k] ∨ r.le[k] < a) → d.lvl k = false
      (∀ (cond : Fin 16) (ofs : Fin 1024), w.ys = .br cond ofs →
        if condTrue c.st cond.val then go (((c.pc : Int) + sext 10 ofs.val) % 8192).toNat
        else (r.atEnd 0 = false → r.atEnd 1 = false → d.pc = (c.pc + 1) % 8192)) ∧
      (∀ (top : Bool) (a : Fin 8192), w.ys = .jmp top a → go a.val) ∧
      (∀ (rot : Bool) (count len : Nat), loopOf c w.ys = some (rot, count, len) →
        (count = 0 → d.pc = (c.pc + len + 1) % 8192) ∧
        (∀ k : Fin 2, count ≠ 0 → r.nextLvl = some k →
          d.pc = (c.pc + 1) % 8192 ∧ d.lc[k] = count ∧ d.ls[k] = (c.pc + 1) % 8192 ∧ d.le[k] = (c.pc + len) % 8192 ∧ d.lvl k = true)) ∧
      (branchTo c w.ys = none → loopOf c w.ys = none → (∀ e a p b l, w.ys ≠ .ext e a false p b l) →
        (r.atEnd 0 = false → r.atEnd 1 = false → d.pc = (c.pc + 1) % 8192) ∧
        (r.atEnd 1 = true → 1 < r.lc[(1 : Fin 2)] → d.pc = r.ls[(1 : Fin 2)] ∧ d.lc[(1 : Fin 2)] = (r.lc[(1 : Fin 2)] + 65535) % 65536) ∧
        (r.atEnd 1 = false → r.atEnd 0 = true → 1 < r.lc[(0 : Fin 2)] →
          d.pc = r.ls[(0 : Fin 2)] ∧ d.lc[(0 : Fin 2)] = (r.lc[(0 : Fin 2)] + 65535) % 65536))

/-- 12 R309; 11 R289, R290; 12 R310: DUTY of one lane writes a duty shadow of the group or a completion mark; an EXT store enters the port
with its address, word and side bits and the cluster goes on; an EXT load enters the port as a read and its word stalls at its PC. -/
def Obligations.SextantPorts : Prop :=
  ∀ (w : SxWord) (g : Fin 4) (t : Nat) (i : Instr) (s : State), rowOf w g t i → Issues s g w → stays w →
    ∃ n, exec i s = .next n ∧
      let c := s.clu[g]
      let d := n.clu[g]
      (∀ (r : Fin 32) (port : Fin 64) (l : Fin 4), w.ys = .duty r port false l →
        (∀ j k : Fin 4, port.val = 4 * j.val + k.val → n.pwmA[axOf g j].shadow[k] = c.xr r l) ∧
        (∀ j : Fin 4, port.val = 16 + j.val → n.pwmA[axOf g j].mark = true)) ∧
      (∀ (r : Fin 32) (port : Fin 64) (l : Fin 4), w.ys = .duty r port true l →
        (∀ j k : Fin 4, port.val = k.val → n.pwmA[axOf g j].shadow[k] = c.xr r j) ∧
        (4 ≤ port.val → ∀ j : Fin 4, n.pwmA[axOf g j].mark = true)) ∧
      (∀ (e a : Fin 16) (p b : Bool) (low : Fin 8), w.ys = .ext e a true p b low →
        d.posted = c.posted ++ [{ addr := (c.sr a.val).toNat, word := c.sr e.val, side := if b then some c.qsb else none, read := none }]) ∧
      (∀ (e a : Fin 16) (p b : Bool) (low : Fin 8), w.ys = .ext e a false p b low →
        d.posted.map (·.addr) = c.posted.map (·.addr) ++ [(c.sr a.val).toNat] ∧ d.pc = c.pc ∧ d.reads.length = c.reads.length + 1 ∧
          (e ≠ a → p = true → d.sr a.val = c.sr a.val + 4#32))

/-- 12 R298: a word whose entry goes on changes only its cluster, and the duty shadows and marks where it holds DUTY; no other cluster
changes, no lane register, accumulator or scalar register that no slot of it writes changes, and program memory keeps its words. -/
def Obligations.SextantWordFrame : Prop :=
  ∀ (w : SxWord) (g : Fin 4) (t : Nat) (i : Instr) (s : State), rowOf w g t i → Issues s g w → stays w →
    ∃ n, exec i s = .next n ∧
      let c := s.clu[g]
      let d := n.clu[g]
      let idle := fun (r : SxReg) => r ∉ w.ar.writes ∧ r ∉ w.xs.writes ∧ r ∉ w.ys.writes
      Only [.now, .fresh, .clu, .pwmA] s n ∧ ((∀ r p v l, w.ys ≠ .duty r p v l) → n.pwmA = s.pwmA) ∧
        (∀ h : Fin 4, h ≠ g → n.clu[h] = s.clu[h]) ∧ d.prog = c.prog ∧ d.frames = c.frames ∧ d.chain = c.chain ∧
        (∀ (r : Fin 32) (l : Fin 4), idle (.x r.val) → d.lanes[l].x[physX c.rrb r] = c.xr r l) ∧
        (∀ (r l : Fin 4), idle (.acc r.val) → d.accOf r.val l = c.accOf r.val l) ∧
        (∀ r : Fin 16, idle (.s r.val) → d.sr r.val = c.sr r.val)

/-- 11 R285, R286; 12 R314: RET of the last entry of a chain with no interrupted chain leaves the cluster idle; RET of another entry starts
the next entry at its address with its argument in S0 and ST cleared. -/
def Obligations.SextantReturn : Prop :=
  ∀ (w : SxWord) (g : Fin 4) (t : Nat) (s : State) (low : Fin 16384) (ch : Chain), Issues s g w → w.ys = .ret low →
    s.clu[g].chain = some ch →
    ∃ n, exec (.ret g t) s = .next n ∧
      (ch.rest = [] → s.clu[g].frames = [] → n.clu[g].state = .idle ∧ n.clu[g].chain = none) ∧
      (∀ (e : Nat) (es : List Nat), ch.rest = e :: es →
        n.clu[g].state = .running ∧ n.clu[g].pc = fld (trigWord s g e) 16 13 ∧ n.clu[g].st = 0#32 ∧
          n.clu[g].sr 0 = ar s .loop (16 + g.val) (0x20 + 4 * e) ∧ n.clu[g].chain = some { ch with rest := es, entry := e })

/-- 11 R279, R294, R295; 12 R318: a word without a defined encoding, and a word with an access to a local address beyond its memory or a
misaligned one, halt the cluster before any effect, whichever row carries them: PC stays, no register or memory word changes; SX_FAULT shows
cause 1 with the PC of the undefined word. -/
def Obligations.SextantFaultsHalt : Prop :=
  ∀ (g : Fin 4) (t : Nat) (s : State), canIssue s g = true →
    let kept := fun (n : State) => n.clu[g].state = .halted ∧ n.clu[g].pc = s.clu[g].pc ∧ n.clu[g].lanes = s.clu[g].lanes ∧
      n.clu[g].s = s.clu[g].s ∧ n.clu[g].p = s.clu[g].p ∧ n.clu[g].x = s.clu[g].x ∧ n.clu[g].y = s.clu[g].y
    (decodeWord (nextWord s g).toNat = none → ∃ n, exec (.undefinedEncoding g t) s = .next n ∧ kept n ∧ n.clu[g].st = s.clu[g].st ∧
      fld (sr n g 0x20) 0 16 = 1 ∧ fld (sr n g 0x20) 16 16 = s.clu[g].pc % 65536) ∧
    (∀ (w : SxWord) (i : Instr) (f : Nat × Bool × Bool), rowOf w g t i → decodeWord (nextWord s g).toNat = some w → loopClash s.clu[g] w = false →
      addrFault s.clu[g] w = some f → ∃ n, exec i s = .next n ∧ kept n)

/-- 12 R299, R318: decoding the encoding of a defined word gives the word back, with every field at every value it may take. -/
def Obligations.SextantDecodeOfEncode : Prop :=
  ∀ w : SxWord, w.wf = true → decodeWord (encodeWord w) = some w

/-- 12 R299 to R312: four words written out from the tables of 12 decode to what they stand for: MAC.Q A0, X1, X21 with LDV X3, (P0)+ and
STV X20, (P2)+; LOOP.R #2, 10; an empty word, which is a NOP; and OPC 0x30, which is undefined. -/
def Obligations.SextantWordsDecode : Prop :=
  decodeWord 0x4C003504310128A0 =
      some { ar := .lane .mac 0 false 0 1 21 0, xs := .mem { k := .ldv, reg := 3, p := 0, pm := true, lf := 0, idx := 0 },
             ys := .mem { k := .stv, reg := 20, p := 2, pm := true, lf := 0, idx := 0 } } ∧
    decodeWord 0x000000000002A029 = some { ar := .nop 0, xs := .none, ys := .loopI true 2 9 } ∧
    decodeWord 0 = some { ar := .nop 0, xs := .none, ys := .none } ∧ decodeWord 0xC000000000000000 = none

/-! ### The ring (15) -/

/-- 15 R358, R361, R362, R365 to R369, R371, R374, R378, R382, R383: ring start by stages, on the master and on a member; frames, the ring-watch
boundary, a mailbox packet taken; spans; and the conditions that the port detects. -/
def Obligations.RingOperation : Prop :=
  ∀ (t : Nat) (s : State),
    (∀ (p : Fin 2) (delay : Nat), canTrain s = true → mode s ≠ mSleep →
      ∃ n, exec (.portLock p delay t) s = .next n ∧ bit (br n .ring 0) (5 + p.val) = true ∧ (p = 1 → br n .ring 0x3C = wd delay) ∧
        (s.ring.stage = 0 → bit (br s .ring 0) (6 - p.val) = true → n.ring.stage = 1)) ∧
    (ringBoot s = true → s.ring.stage = 1 →
      (∀ (addr : Nat) (devs : List RingDev), isMaster s = true →
        (fld (ar s .ring 0 8) 0 13 = 0 ∨ fld (ar s .ring 0 8) 0 13 = devs.length) → (∀ d ∈ devs, d.tr = trOf s) → minTR 48 devs ≤ trOf s →
        (devs.any (·.heal) = true → minTR 96 devs ≤ trOf s) →
        ∃ n, exec (.enum true addr devs t) s = .next n ∧ n.ring.stage = 2 ∧ n.ring.devs = devs ∧ br n .ring 0x20 = wd devs.length ∧
          br n .ring 0x40 = wd (minTR 48 devs) ∧ br n .ring 0x44 = wd (minTR 96 devs)) ∧
      (∀ (addr : Nat) (d : RingDev) (devs : List RingDev), isMaster s = false → addr < 4095 → d.tr = trOf s →
        ∃ n, exec (.enum false addr (d :: devs) t) s = .next n ∧ n.ring.stage = 2 ∧ ownAddr n = addr + 1)) ∧
    (∀ c : RingSetup, ringBoot s = true → s.ring.stage = 2 → isMaster s = false →
      ∃ n, exec (.config c t) s = .next n ∧ n.ring.stage = 3 ∧ n.now = (c.time * 1000 + c.fwd) / 2000 * 2 ∧ n.ring.devs = c.devs ∧
        n.ring.fwd = c.fwd ∧ n.ring.back = c.back ∧ br n .ring 0x20 = wd c.devs.length) ∧
    (ringBoot s = true → s.ring.stage = 3 → t = s.ring.rw0 →
      ∃ n, exec (.ringWatchZero t) s = .next n ∧ ringUp n = true ∧ n.ring.stage = 4 ∧ n.boot.waitRing = false) ∧
    (ringBoot s = true → s.ring.stage < 4 → fld (ar s .ring 0 0xC) 16 16 ≠ 0 → s.boot.t0 + fld (ar s .ring 0 0xC) 16 16 * 1000000 ≤ t →
      ∃ n, exec (.ringStartFail t) s = .next n ∧ n.ring.stage = 5 ∧ mode n = mHalt) ∧
    (s.ring.stage = 4 → mode s ≠ mSleep →
      (isMaster s = true → trOf s ≠ 0 → t % trOf s = 0 → ¬(bit (br s .ring 0) 4 = true ∧ bit (br s .ring 0) 2 = true) →
        ∃ (n : State) (f : RingFrame), exec (.ringFrameLaunch t) s = .next n ∧ n.ring.frame = some f ∧ f.j = BitVec.ofNat 16 ((t - s.ring.rw0) / trOf s) ∧
          f.back = false ∧ f.tM = t ∧ f.fold = bit (br s .ring 0) 2 ∧ f.slots.length = ringCount s ∧ headOk f = true) ∧
      (∀ (p : Fin 2) (f : RingFrame), isMaster s = false → frozen s 6 = false → ringUp s = true → headOk f = true →
        ∃ (n : State) (f' : RingFrame), exec (.ringFramePass p f t) s = .next n ∧ (if f.back then n.ring.rframe else n.ring.frame) = some f' ∧
          f'.j = f.j ∧ headOk f' = true ∧ f'.slots.length = f.slots.length ∧
          (∀ x ∈ f.slots, x.addr ≠ (outSlot (atTime t s)).addr → x ∈ f'.slots) ∧ n.ring.j = f.j.toNat ∧ n.ring.hdr = true ∧ n.ring.noHdr = 0) ∧
      (∀ (p : Fin 2) (f : RingFrame), headOk f = false → (if p.val = 0 then s.ring.badU else s.ring.badD) + 1 = 4 →
        ∃ n, exec (.ringFramePass p f t) s = .next n ∧ bit (br n .ring 0) (5 + p.val) = false ∧ bit (br n .ring 0) (8 - p.val) = true) ∧
      (trOf s ≠ 0 → t % trOf s = 0 → s.ring.cfgAt < t →
        ∃ n, exec (.ringWatchBoundary t) s = .next n ∧ n.ring.prev = s.ring.rx ∧ n.ring.rx = [] ∧ n.ring.mailIn = [] ∧ n.ring.hdr = false ∧
          (s.ring.hdr = false → n.ring.noHdr = s.ring.noHdr + 1))) ∧
    (∀ i0 i1 : QItem, ringUp s = true → frozen s 6 = false → qCap s 6 ≠ 0 → (s.queues[(6 : Fin 64)]).rest = [] → (s.queues[(6 : Fin 64)]).pkts = [[i0, i1]] →
      i0.fin = false → i1.fin = true → i0.place ≠ .spill → i1.place ≠ .spill → fld i0.word 16 6 = 1 → bit i0.word 12 = false → fld i0.word 13 3 < 2 →
      fld i0.word 0 12 < ringCount s → fld i0.word 0 12 ≠ ownAddr s → 12 ≤ mboxBytes s →
      ∃ (n : State) (p : MailPkt), exec (.mailboxPacketTake 0 t) s = .next n ∧ n.ring.mailOut = s.ring.mailOut ++ [(p, 3)] ∧ p.items = [i1.word] ∧ p.crc = crc32 (mailBytes p) ∧
        p.dest.toNat = fld i0.word 0 12 ∧ p.src.toNat = ownAddr s) ∧
    (∀ p : Fin 2, (∃ n, exec (.spanDown (p.castSucc) t) s = .next n ∧ bit (br n .ring 0) (5 + p.val) = false ∧
        bit (br n .ring 0) (8 - p.val) = decide (s.ring.stage = 4)) ∧
      (∀ delay, ∃ n, exec (.spanRelock (p.castSucc) delay t) s = .next n ∧ bit (br n .ring 0) (5 + p.val) = true ∧
        (isMaster s = true → bit (br s .ring 0) 2 = true → n.ring.unfold = true))) ∧
    (s.ring.stage = 4 → rlostN s < s.ring.noHdr → s.ring.lost = false → isMaster s = false →
      ∃ n, exec (.ringLost t) s = .next n ∧ ringUp n = false ∧ bit (br n .ring 0) 3 = false ∧ Stands 1 (mkCode 0xD 0 7) 0xFFFF#16 s n) ∧
    (∀ a : BitVec 12, s.ring.stage = 4 → frozen s 6 = false → a.toNat < ringCount s → a.toNat ≠ ownAddr s →
      staleN s < sget (fun _ => 0) s.ring.unused a.toNat → bit (pt s (4880 + a.toNat / 32)) (a.toNat % 32) = false →
      ∃ n, exec (.ringStale a t) s = .next n ∧ bit (pt n (4880 + a.toNat / 32)) (a.toNat % 32) = true) ∧
    (64 ≤ s.ring.okRun → isMaster s = false → ringUp s = true → ∃ n, exec (.tlock t) s = .next n ∧ bit (br n .ring 0) 3 = true) ∧
    (8 ≤ s.ring.badRun → bit (br s .ring 0) 3 = true → ∃ n, exec (.ringTimeErr t) s = .next n ∧ bit (br n .ring 0) 3 = false ∧ n.ring.badRun = 0)

/-! ### CAN (16) -/

/-- 16 R394, R397 to R399, R401 to R403, R405, R406, R409: a frame goes to the block of the lowest object that takes it, as that object stood at the frame's start, and one that none takes is
counted; an arbitration opportunity takes the winning object's payload; a completed transmission stamps its block; a bus error sets counters
and state; objects become pending by request and by cycle; INIT is entered and left, bus-off recovery, and the transceiver's standby. -/
def Obligations.CanFramesAndStates : Prop :=
  ∀ (c : Fin 2) (t : Nat) (s : State),
    let ctrl := Performs s
    (∀ f : CanFrame, canOn s c = true →
      (∀ o : Nat, f.rtr = false → (List.range 128).find? (objTakes s c f) = some o → frozen s (cm c) = false →
        let b := pbase (objAt s c f.sof o 3)
        let len := cfgLen (objAt s c f.sof o 0)
        8192 ≤ b → (∀ k, k < 4 + dataPts len → MoverPoint s (cm c) (b + k)) →
        ∃ n, exec (.canFrameReceived c f t) s = .next n ∧
          pt n b = wd ((seqAt s b + 2) % 65536 + 65536 * f.dlc.toNat + 2 ^ 20 * b2n f.esi) ∧
          pt n (b + 1) = infoWord f.id.toNat f.xtd f.fdf f.brs ∧ pt n (b + 2) = loWord f.sof ∧ pt n (b + 3) = hiWord f.sof ∧
          (∀ k, k < dataPts len → pt n (b + 4 + k) = wd (leWord ((f.data.take len).drop (4 * k)) 4)) ∧
          fld (br n (cb c) 0x20) 0 16 = min (fld (br s (cb c) 0x20) 0 16 + 1) 65535) ∧
      (f.rtr = true ∨ (List.range 128).find? (objTakes s c f) = none → ∃ n, exec (.canFrameReceived c f t) s = .next n ∧
        fld (br n (cb c) 0x24) 0 16 = min (fld (br s (cb c) 0x24) 0 16 + 1) 65535 ∧ ∀ i, 8192 ≤ i → pt n i = pt s i)) ∧
    (∀ o : Nat, canOn s c = true → frozen s (cm c) = false → br s (cb c) 0x10 = 0#32 → firstPkt s c = none → bestObj s c = some o →
      let b := pbase (objW s c o 3)
      seqAt s b % 2 = 0 → (∀ k, k < 4 + dataPts (cfgLen (objW s c o 0)) → Performs s (cm c) kRead (ptAddr (b + k))) →
      ∃ (n : State) (x : CanTx), exec (.canTxStart c false t) s = .next n ∧ n.can[c].busy = true ∧ n.can[c].tx = some x ∧ x.obj = some o ∧
        x.data = (List.range (dataPts (cfgLen (objW s c o 0)))).map fun k => pt s (b + 4 + k)) ∧
    (∀ (x : CanTx) (o sof : Nat), s.can[c].tx = some x → x.obj = some o →
      let b := pbase (objW s c o 3)
      (∀ k, k < 3 → MoverPoint s (cm c) (b + 1 + k)) → 8192 ≤ b →
      ∃ n, exec (.canTxComplete c sof t) s = .next n ∧ n.can[c].busy = false ∧ n.can[c].tx = none ∧ (o, x.seq) ∈ n.can[c].sent ∧
        ((fld (objW s c o 0) 9 2 = 2 → seqAt s b = x.seq) → o ∉ n.can[c].pend) ∧
        pt n (b + 1) = x.info ∧ pt n (b + 2) = loWord sof ∧ pt n (b + 3) = hiWord sof ∧
        fld (br n (cb c) 0x20) 16 16 = min (fld (br s (cb c) 0x20) 16 16 + 1) 65535 ∧ fld (br n (cb c) 4) 0 8 = fld (br s (cb c) 4) 0 8 - 1) ∧
    (∀ (tec : BitVec 9) (rec_ : BitVec 8) (lec dlec : Fin 7), canOn s c = true → ∃ n, exec (.canBusError c tec rec_ lec dlec t) s = .next n ∧
      fld (br n (cb c) 4) 0 8 = min tec.toNat 255 ∧ fld (br n (cb c) 4) 8 8 = rec_.toNat ∧ fld (br n (cb c) 4) 16 3 = lec.val ∧
      canState n c = (if 256 ≤ tec.toNat then 3 else if 128 ≤ tec.toNat ∨ 128 ≤ rec_.toNat then 2 else 1) ∧ n.can[c].busy = false) ∧
    (∀ o : Nat, o < 128 → cfgDir (objW s c o 0) = 2 → fld (objW s c o 0) 9 2 = 1 → fld (objW s c o 0) 20 12 ≠ 0 →
      t % (fld (objW s c o 0) 20 12 * 1000000) = 0 → ∃ n, exec (.canCyclicTx c t) s = .next n ∧ objPend n c o = true) ∧
    (∀ (m : Fin 10) (k : Fin 4) (v : Word) (b : Nat), ctrl m.val kWrite (bAddr (cb c) (0x30 + 4 * k.val)) → b < 32 → bit v b = true →
      cfgDir (objW s c (32 * k.val + b) 0) = 2 → fld (objW s c (32 * k.val + b) 0) 9 2 = 0 →
      ∃ n, exec (.canTxreq m c k v t) s = .next n ∧ objPend n c (32 * k.val + b) = true) ∧
    (∀ m : Fin 10, ctrl m.val kWrite (bAddr (cb c) 8) →
      (canState s c ≠ 3 → s.can[c].busy = false → ∃ n, exec (.canInitSet m c t) s = .next n ∧ canState n c = 0 ∧ canInit n c = true) ∧
      (canState s c = 0 → canStb s c = false → ∃ n, exec (.canInitClear m c t) s = .next n ∧ n.can[c].joining = true ∧ canInit n c = false) ∧
      (canState s c = 3 → ∃ n, exec (.borec m c t) s = .next n ∧ bit (br n (cb c) 0) 2 = true ∧ canState n c = 3) ∧
      (∀ on, ∃ n, exec (.stbreq m c on t) s = .next n ∧ canStb n c = on ∧ (on = true → canState s c ≠ 3 → s.can[c].busy = false → canState n c = 0))) ∧
    (s.can[c].initDue = true → ∃ n, exec (.canInitEntered c t) s = .next n ∧ canState n c = 0 ∧ n.can[c].initDue = false ∧
      fld (br n (cb c) 4) 0 16 = 0) ∧
    (s.can[c].joining = true → ∃ n, exec (.canActive c t) s = .next n ∧ canState n c = 1 ∧ n.can[c].joining = false) ∧
    (canState s c = 3 → bit (br s (cb c) 0) 2 = true → canStb s c = false → ∃ n, exec (.canRecovered c t) s = .next n ∧ canState n c = 1 ∧
      bit (br n (cb c) 0) 2 = false ∧ fld (br n (cb c) 4) 0 16 = 0)

/-! ### Field I/O (17) -/

/-- 17 R415 to R421: training locks the field link once its start is granted, and a failure in BOOT is a level-3 fault; on a trained link an upstream
frame whose CRC is right brings the raw image, the filtered image and the field supply's state, and DI_LEVEL follows while the inputs are valid;
one whose CRC is wrong counts as missing; the third in a row that is missing makes the link stale with a level-1 fault on every axis and no input
valid; an input that shows one level for FLEN samples takes it, and fewer leave the level; 10 ms of good supply settle it. -/
def Obligations.FieldInputs : Prop :=
  ∀ (t : Nat) (s : State),
    let missed := fun (n : State) => n.fio.missUp = s.fio.missUp + 1 ∧ fld (br n .fio 0x38) 0 16 = min (fld (br s .fio 0x38) 0 16 + 1) 65535 ∧
      (s.fio.missUp = 2 → bit (br s .fio 0) 1 = false → bit (br n .fio 0) 1 = true ∧ br n .fio 0x24 = 0#32 ∧
        RaisedAt t 1 (mkCode 0xB 0 3) 0xFFFF#16 s n)
    (∃ n, exec (.fioLinkTrained t) s = .next n ∧ (s.adm.islands.testBit 6 = true → bit (br n .fio 0) 0 = true) ∧ Only [.now, .regs, .fio] s n) ∧
    (∀ stage, ∃ n, exec (.fioLinkFail stage t) s = .next n ∧
      (mode s = mBoot → bit (br s .fio 0) 0 = false → bit (br n .fio 0) 0 = false ∧ Stands 3 (mkCode 0xB 0 1) 0xFFFF#16 s n) ∧
      (mode s ≠ mBoot ∨ bit (br s .fio 0) 0 = true → Only [.now] s n)) ∧
    (∀ raw dv temp iload (bytes : List Byte), ∃ n, exec (.fioUpstreamFrame raw dv temp iload bytes t) s = .next n ∧
      (fioUp s = true → crc8Ok bytes.length bytes = true → br n .fio 0x28 = raw ∧ br n .fio 0x20 = s.fio.lvl ∧ n.fio.missUp = 0 ∧
        pt n 6144 = (if br n .fio 0x24 = 0#32 then pt s 6144 else s.fio.lvl) ∧ n.fio.vstate = vNext s.fio.vstate dv ∧
        (n.fio.vstate = 1 ∨ n.fio.vstate = 2 → br n .fio 0x24 = 0#32 ∧
          (s.fio.vstate = 0 ∨ s.fio.vstate = 3 → RaisedAt t 1 (mkCode 0xB 0 4) 0xFFFF#16 s n))) ∧
      (fioUp s = true → crc8Ok bytes.length bytes = false → missed n) ∧ (fioUp s = false → Only [.now] s n)) ∧
    (∀ cause, ∃ n, exec (.fioUpstreamMissing cause t) s = .next n ∧ (fioUp s = true → missed n) ∧ (fioUp s = false → Only [.now] s n)) ∧
    (∃ n, exec (.fieldGoodSettled t) s = .next n ∧ Only [.now, .fio] s n ∧
      ∀ t0, s.fio.goodSince = some t0 → n.fio.settled = (s.fio.settled || decide (t0 + 10000000 ≤ t)) ∧ n.fio.lvl = s.fio.lvl) ∧
    (∀ (i : Fin 32) (samples : List Bool) (k : Nat) (b : Bool), mode s ≠ mSleep →
      let f := fld (ar s .fio i.val 0) 0 8
      let on := b != bit (ar s .fio i.val 0) 9
      ∃ n, exec (.diFilterChange i samples t) s = .next n ∧ Only [.now, .fio] s n ∧
        (∀ j, j ≠ i.val → n.fio.lvl.getLsbD j = s.fio.lvl.getLsbD j) ∧
        (samples = List.replicate k b → f ≤ k → 0 < k → s.fio.cnt[i] ≤ f → n.fio.lvl.getLsbD i.val = on ∧
          n.fio.trans[i] = s.fio.trans[i] + (if s.fio.lvl.getLsbD i.val = on then 0 else 1)) ∧
        (samples = List.replicate k b → on = true → s.fio.cnt[i] + k < f → n.fio.lvl.getLsbD i.val = s.fio.lvl.getLsbD i.val))

/-- 17 R415, R416, R419, R422 to R430, Table 17-6: at a downstream frame a commanded output without a start cost turns on and one that may not be
on turns off, and a silence ends; 50 µs without a frame turn every output off; a report whose time of Table 17-6 has passed sets its bit,
over-temperature also turns the output off and latches; the clearing condition clears its bit; a test-pulse supply shows its overload after 1 ms
and is tried again after 100 ms; forces act in SERVICE only. -/
def Obligations.FieldOutputs : Prop :=
  ∀ (o : Fin 16) (k : Fin 4) (t : Nat) (s : State),
    let report := fun (b : Nat) (n : State) => bit (doStat n o) b = true ∧ n.fio = s.fio
    (∃ n, exec (.fioDownstreamFrame t) s = .next n ∧
      (fioUp s = true → t % 10000 = 0 → n.fio.silent = false ∧ n.fio.downAt = max s.now t) ∧ (fioUp s = false ∨ t % 10000 ≠ 0 → Only [.now] s n) ∧
      (fioUp s = true → t % 10000 = 0 → br s .fio 0x10 = 0#32 → br s .fio 0x14 = 0#32 → bit (doStat s o) 4 = false → s.fio.silent = false →
        (doWant s o = false → n.fio.outs[o] = if s.fio.outs[o] = 3 ∧ doCmd s o = true then 3 else 0) ∧
        (doWant s o = true → s.fio.outs[o] = 2 → n.fio.outs[o] = 2) ∧
        (doWant s o = true → s.fio.outs[o] = 0 → fld (ar s .fio (32 + o.val) 4) 0 12 = 0 → n.fio.outs[o] = 2 ∧ bit (doStat n o) 0 = true))) ∧
    (∃ n, exec (.fioDownstreamSilent t) s = .next n ∧ (s.fio.downAt + 50000 ≤ t → n.fio.silent = true ∧ ∀ p : Fin 16, n.fio.outs[p] = 0) ∧
      (t < s.fio.downAt + 50000 → Only [.now] s n)) ∧
    (∀ cur dur, ∃ n, exec (.doOverload o cur dur t) s = .next n ∧ (doOn s o = true → 1000000 ≤ dur → report 2 n) ∧
      (dur < 1000000 → Only [.now] s n)) ∧
    (∃ n, exec (.doOvertemp o t) s = .next n ∧
      (doOn s o = true → bit (doStat n o) 3 = true ∧ bit (doStat n o) 4 = true ∧ n.fio.outs[o] = 0) ∧ (doOn s o = false → Only [.now] s n)) ∧
    (∀ cur dur, ∃ n, exec (.doOpenload o cur dur t) s = .next n ∧
      (doOn s o = true → bit (ar s .fio (32 + o.val) 0) 2 = true → cur < 5 → 50000000 ≤ dur → report 5 n) ∧
      (5 ≤ cur ∨ dur < 50000000 → Only [.now] s n)) ∧
    (∀ dv dur, ∃ n, exec (.doOpenoff o dv dur t) s = .next n ∧
      (doOn s o = false → bit (ar s .fio (32 + o.val) 0) 3 = true → 20 ≤ dv → dv ≤ 120 → 50000000 ≤ dur → report 6 n) ∧
      (dv < 20 ∨ 120 < dv ∨ dur < 50000000 → Only [.now] s n)) ∧
    (∀ dv dur, ∃ n, exec (.doBackfeed o dv dur t) s = .next n ∧ (doOn s o = false → 120 < dv → 1000000 ≤ dur → report 7 n) ∧
      (dv ≤ 120 ∨ dur < 1000000 → Only [.now] s n)) ∧
    (∀ (d : Fin 5) (x dur : Nat), ∃ n, exec (.doDiagnosticClear o d x dur t) s = .next n ∧
      (diagClears s o d x dur = true → d ≠ 1 → ∀ j, j < 32 → bit (doStat n o) j = (bit (doStat s o) j && decide (j ≠ diagBit d))) ∧
      (diagClears s o d x dur = true → d = 1 → n.fio.cool.getLsbD o.val = true ∧ n.regs = s.regs) ∧
      (diagClears s o d x dur = false → Only [.now] s n)) ∧
    (∀ dur, ∃ n, exec (.tpsOverload k dur t) s = .next n ∧ (tpsOn s k = true → 1000000 ≤ dur → bit (br n .fio 0) (4 + k.val) = true ∧
      n.fio.tpsAt[k] = t) ∧ (dur < 1000000 → Only [.now] s n)) ∧
    (∃ n, exec (.tpsRetry k t) s = .next n ∧ (s.fio.tpsAt[k] + 100000000 ≤ t → bit (br n .fio 0) (4 + k.val) = false) ∧ Only [.now, .regs] s n) ∧
    (∀ v : Word, ∃ n, exec (.fioForceWrite v) s = .next n ∧ Only [.regs] s n ∧
      br n .fio 0x30 = if mode s = mService then v &&& 0xFFFF#32 else br s .fio 0x30)

/-! ### The safety unit (18) -/

/-- 18 R438, R443 to R451: with a valid block, a demand of an enabled input is latched and counted, starts SS1-r or holds STO on the groups of its
mask; the end of a ramp and its timeout apply STO to the group; each check that fails is latched as its fault and applies STO to the groups it
names; the delay after STO takes the brake's permission; a test-pulse window that ends on a level that still reads ON is a cross-short. -/
def Obligations.SafetyFaultsApplySto : Prop :=
  ∀ (g : Fin 4) (t : Nat) (s : State),
    let fails := fun (i : Instr) (num inst : Nat) => ∃ n, exec i s = .next n ∧ (num, inst) ∈ n.safe.causes ∧ (num, inst) ∈ n.safe.faults ∧
      ∀ h : Fin 4, stoOn n h = true
    (∀ k : Fin 8, sActs s = true → bit (safeBlk s (3 + k.val)) 5 = true → bit (br s .safe 4) (8 + k.val) = false →
      fld (safeBlk s (3 + k.val)) 12 4 + 1 ≤ s.safe.offCnt[k] →
      ∃ n, exec (.safeDemand k t) s = .next n ∧ bit (br n .safe 4) (8 + k.val) = true ∧ n.safe.newDem = true ∧
        (bit (safeBlk s (3 + k.val)) (8 + g.val) = true → stoOn n g = true ∨ n.safe.ramps[g].isSome = true)) ∧
    (∀ r : Ramp, s.safe.ramps[g] = some r →
      (fld (safeBlk s (35 + g.val)) 8 8 + 1 ≤ r.still →
        ∃ n, exec (.ss1RampEnd g t) s = .next n ∧ stoOn n g = true ∧ n.safe.ramps[g] = none) ∧
      (4 * fld (safeBlk s (35 + g.val)) 16 16 ≤ s.safe.cyc - r.ts →
        ∃ n, exec (.ss1Timeout g t) s = .next n ∧ stoOn n g = true ∧ n.safe.ramps[g] = none ∧ (0xE, g.val) ∈ n.safe.faults)) ∧
    (sActs s = true → mode s ≠ mBoot → helmLate s = true → fails (.sfHelmWd t) 4 0) ∧
    (∀ (lost : Bool) (dev dur : Nat), mode s ≠ mSleep → (lost = true ∨ 50 < dev ∧ 10000 ≤ dur) → fails (.sfClock lost dev dur t) 2 0) ∧
    (∀ rom, fails (.safetyMemoryTest rom false t) 3 0) ∧
    (∀ (w : Fin 128) (x : Word), sActs s = true →
      (let z := bw s .safe (0x400 + 4 * w.val) (safeBlk s w.val ^^^ x)
       crc32c ((useBlk z).take 127) ≠ safeBlk z 127) → fails (.safetyParamCrc w x t) 1 0) ∧
    (∀ level, sActs s = true → bit (safeBlk s 1) (8 + g.val) = true → level = stoOn s g →
      4 * fld (safeBlk s 2) 8 8 ≤ s.safe.cyc - s.safe.outAt[g] → fails (.sfStoFb g level t) 5 g.val) ∧
    (∀ level, sActs s = true → hasDrive s = true → level ≠ s.drv.enabled → 0 < s.safe.cyc - s.safe.outAt[(0 : Fin 4)] →
      fails (.sfDenFb level t) 6 0) ∧
    (∀ lvl : Bool, sActs s = true → bit (safeBlk s (39 + g.val)) 4 = true → bit (safeBlk s (39 + g.val)) 7 = true →
      lvl = (s.fio.outs[(Fin.ofNat 16 (fld (safeBlk s (39 + g.val)) 0 4) : Fin 16)] == 2) → s.safe.sbcAt[g].2 = lvl →
      bit (br s .fio 0x28) (fld (safeBlk s (39 + g.val)) 16 5) ≠ lvl → 0 < s.safe.cyc - s.safe.sbcAt[g].1 →
      4 * fld (safeBlk s (39 + g.val)) 24 8 ≤ s.safe.cyc - s.safe.sbcAt[g].1 →
      ∃ n, exec (.sbcFeedback g t) s = .next n ∧ (0xF, g.val) ∈ n.safe.faults ∧ bit (br n .safe 4) (28 + g.val) = true ∧
        bit (br n .safe 4) (24 + g.val) = false) ∧
    (∀ c, s.safe.sbcOff[g] = some c → c ≤ s.safe.cyc → (∀ h : Fin 4, stoOn s h = true) → ∃ n, exec (.sbcDelayExpiry g t) s = .next n ∧
      bit (br n .safe 4) (24 + g.val) = false ∧ n.safe.sbcOff[g] = none) ∧
    (∀ raw : BitVec 32, pulseMay s g t = true → ∃ n, exec (.tpsPulse g true raw t) s = .next n ∧
      n.fio.tpsWin = s.fio.tpsWin ||| (1#4 <<< g.val) ∧ n.fio.tpsFrom[g] = some t ∧ Only [.now, .fio] s n) ∧
    (∀ (k : Fin 8) (raw : BitVec 32), pulseRan s g t = true → tpsOn s g = true → sValid s = true →
      ∃ n, exec (.tpsPulse g false raw t) s = .next n ∧ n.fio.tpsWin.getLsbD g.val = false ∧
        (bit (safeBlk s (3 + k.val)) 5 = true → fld (safeBlk s (3 + k.val)) 6 2 = g.val → raw.getLsbD (fld (safeBlk s (3 + k.val)) 0 5) = true →
          (7, k.val) ∈ n.safe.faults ∧ bit (br n .safe 4) (8 + k.val) = true))

/-- 18 R450, R458 to R460, R462: a safety reset of a healthy unit clears the latched demands and faults and, with no other reason, releases STO;
a refused one is shown; a safety cycle counts and shows the readbacks; an STO test applies STO to its disabled groups and ends with their ages
anew; a due test is shown; edits change the working copy in COMMISSION's seal, a confirmation is accepted, written, and recorded. -/
def Obligations.SafetyResetTestsAndEdits : Prop :=
  ∀ (g : Fin 4) (t : Nat) (s : State),
    let healthy := (List.range 8).all (fun k => !(bit (br s .safe 4) (8 + k)) || !(sinOff s k)) && s.safe.causes.isEmpty && !s.safe.newDem
    (∃ n, exec (.safetyReset t) s = .next n ∧
      (sValid s = true → healthy = true → n.safe.firstReset = true ∧ bit (br n .safe 0) 19 = false ∧ fld (br n .safe 4) 8 8 = 0 ∧
        n.safe.faults = s.safe.faults.filter (fun f => decide (1 ≤ f.1 ∧ f.1 ≤ 3)) ∧
        (s.safe.faults = [] → mode s = mStandby → recovery s = false → s.safe.haltReq = false → s.safe.test = 0#4 → stoOn n g = false)) ∧
      (sValid s = false ∨ healthy = false → bit (br n .safe 0) 19 = true ∧ n.safe.refused = s.safe.refused + 1 ∧ n.safe.held = s.safe.held)) ∧
    (∀ fb den (code : BitVec 3), mode s ≠ mSleep → ∃ n, exec (.safetyCycle fb den code t) s = .next n ∧ n.safe.cyc = s.safe.cyc + 1 ∧
      fld (br n .safe 0) 8 4 = fb.toNat ∧ n.safe.sealPin = code.toNat ∧
      n.safe.sealRun = if inReset s then 0 else if code.toNat = s.safe.sealPin then min 8 (s.safe.sealRun + 1) else 1) ∧
    (∀ m : BitVec 4, m.getLsbD g.val = true → mode s = mStandby → (∀ h x : Fin 4, m.getLsbD h.val = true → shown s (axOf h x) = 0) →
      ∃ n, exec (.stotest m t) s = .next n ∧ n.safe.test = s.safe.test ||| m ∧ stoOn n g = true ∧
        n.safe.testEnd = s.safe.cyc + 80 + 4 * fld (safeBlk s 2) 8 8) ∧
    (s.safe.test.getLsbD g.val = true → s.safe.testEnd ≤ s.safe.cyc → fbGood s g = true → ∃ n, exec (.stoTestEnd t) s = .next n ∧ n.safe.test = 0#4 ∧ n.safe.testAge[g] = 0 ∧
      n.safe.due.getLsbD g.val = false) ∧
    (sActs s = true → fld (safeBlk s 2) 16 8 ≠ 0 → ∃ n, exec (.stoTestDue g t) s = .next n ∧
      n.safe.due.getLsbD g.val = (s.safe.due.getLsbD g.val || decide (fld (safeBlk s 2) 16 8 * cycHour ≤ s.safe.testAge[g]))) ∧
    (∀ ctl v : Word, let i := fld ctl 0 7
      (sSeal s = 1 → s.safe.copy = true → i ≠ 0 → i ≠ 127 → s.safe.writing = 0 →
        ∃ n, exec (.safeEditWrite ctl v t) s = .next n ∧ br n .safe (0x600 + 4 * i) = v ∧ n.safe.res = wd (65536 * fld ctl 16 16) ∧
          ∀ w, w < 127 → w ≠ i → br n .safe (0x600 + 4 * w) = br s .safe (0x600 + 4 * w)) ∧
      (sSeal s = 1 → s.safe.copy = true → s.safe.writing = 0 → v = br s .safe 0x28 → blkBad (workBlk s) = none →
        ∃ n, exec (.safeEditConfirm ctl v t) s = .next n ∧ n.safe.writing = 1 ∧ n.safe.tag = fld ctl 16 16 ∧ n.safe.res = wd (2 + 65536 * fld ctl 16 16))) ∧
    (∀ stage, s.safe.writing = 1 →
      (∃ n, exec (.safeRecordWritten true stage t) s = .next n ∧ n.safe.writing = 2 ∧ br n .boot 0x3C = wd ((br s .boot 0x3C).toNat + 1) ∧
        n.safe.record.map (fun r => r.2.2.2.2) = some (workBlk s) ∧ n.safe.record.map (fun r => crc32 (recordBytes r)) = some n.safe.recCrc) ∧
      (∃ n, exec (.safeRecordWritten false stage t) s = .next n ∧ n.safe.writing = 0 ∧ n.safe.res = wd (1 + 65536 * s.safe.tag)))

/-! ### BOOT, the image and update (19) -/

/-- 19 R468, R474, R479, R482 to R488; 02 R37, R61; 21 R529: a released reset starts BOOT, which the TAP may hold off; a flash that does not
answer ends it in HALT; the first seal code is in force, an invalid one ends BOOT in HALT, the same one changes nothing; END makes the slot valid
or, with the first failing check, not; update messages open, advance, finish and close the session, and the flash work that they wait for ends. -/
def Obligations.BootAndUpdate : Prop :=
  ∀ (t : Nat) (s : State),
    idFits (br State.reset .sys 0) ∧
    (∀ v, mayRelease s = true →
      (tapDrives s = false → idFits (br s .sys 0) → v.romOk = true →
        ∃ n, exec (.resetnRelease v) s = .next n ∧ mode n = mBoot ∧ stageOf n = 1 ∧ n.boot.view = some v ∧ n.boot.code = none ∧
          bit (br n .ring 0) 1 = v.ringMaster) ∧
      (tapDrives s = false → ¬ idFits (br s .sys 0) →
        ∃ n, exec (.resetnRelease v) s = .next n ∧ mode n = mHalt ∧ ∃ f ∈ n.helm.latched, f.level = 3 ∧ f.code = mkCode 0 0 8) ∧
      (tapDrives s = true → ∃ n, exec (.resetnRelease v) s = .next n ∧ n.pins.tapHold = true ∧ n.boot.view = some v ∧ mode n = mode s)) ∧
    (∀ st : Fin 3, st ≠ 0 → mode s = mBoot → stageOf s = 1 → ∃ n, exec (.flashNoResponse st t) s = .next n ∧ mode n = mHalt) ∧
    (∀ code : BitVec 3, s.safe.sealPin ≠ code.toNat ∨ s.safe.sealRun ≠ 8 → ∃ n, exec (.sealInForce code t) s = .next n ∧ Only [.now] s n) ∧
    (∀ code : BitVec 3, mode s ≠ mSleep → inReset s = false → s.safe.sealPin = code.toNat → s.safe.sealRun = 8 →
      (mode s = mBoot → s.boot.code = none → code ≠ 3#3 → code.toNat < 5 → ∃ n, exec (.sealInForce code t) s = .next n ∧ n.boot.code = some code.toNat) ∧
      (mode s = mBoot → s.boot.code = none → (code = 3#3 ∨ 5 ≤ code.toNat) → ∃ n, exec (.sealInForce code t) s = .next n ∧ mode n = mHalt) ∧
      (mode s ≠ mBoot → code.toNat = sSeal s → ∃ n, exec (.sealInForce code t) s = .next n ∧ Only [.now] s n)) ∧
    (∀ h : RecHead, loading s = true → h.before = [] → recReason (headRec s 0xFF h []) s = 0 →
      let z := stage 3 (readBytes (headRec s 0xFF h []) (atTime t s))
      ∃ n, exec (.imgEnd h t) s = .next n ∧ (endReason z = 0 → bit (br n .boot 0x28) (8 * activeSlot s) = true) ∧
      (endReason z ≠ 0 → bit (br n .boot 0x28) (8 * activeSlot s) = false ∧ n.boot.bad.testBit (activeSlot s) = true)) ∧
    (∀ (seq : BitVec 16) (len crc : Word), s.boot.upd = none → higherWork s = false → (mode s = mStandby ∨ mode s = mRun ∨ mode s = mSafeStop) →
      frozen s 9 = false → 0x48 ≤ len.toNat → len.toNat ≤ (br s .boot 0x24).toNat →
      ∃ n, exec (.updBegin seq len crc t) s = .next n ∧ bit (br n .boot 0x28) (8 * inactive s) = false ∧ bit (br n .boot 0) 7 = true ∧
        FlashJob.upd 1 seq.toNat ∈ n.boot.jobs ∧ n.boot.upd.map (fun u => (u.len, u.crc, u.seq, u.ofs)) = some (len.toNat, crc, seq.toNat, 0)) ∧
    (∀ (u : Upd) (seq : BitVec 16), s.boot.upd = some u → seq.toNat = (u.seq + 1) % 65536 →
      (∀ (ofs cnt : Word) (bytes : List Byte), higherWork s = false → ofs.toNat = u.ofs → cnt.toNat ≤ (if ownerRing s then 232 else 52) → ofs.toNat + cnt.toNat ≤ u.len →
        ∃ n, exec (.updData seq ofs cnt bytes t) s = .next n ∧
          n.boot.upd.map (fun u => (u.len, u.crc, u.seq, u.ofs)) = some (u.len, u.crc, seq.toNat, u.ofs + cnt.toNat)) ∧
      (higherWork s = false → u.ofs = u.len → ∃ n, exec (.updFinish seq t) s = .next n ∧ FlashJob.upd 3 seq.toNat ∈ n.boot.jobs) ∧
      (∃ n, exec (.updAbort seq t) s = .next n ∧ n.boot.upd = none ∧ bit (br n .boot 0) 7 = false)) ∧
    (∀ u : Upd, s.boot.upd = some u →
      (u.last + 60000000000 ≤ t → ∃ n, exec (.updateTimeout t) s = .next n ∧ n.boot.upd = none ∧ bit (br n .boot 0) 7 = false) ∧
      (∀ seq rest ofs op, s.boot.jobs = .upd 3 seq :: rest → frozen s 9 = false →
        let k := slotCheck u.hdr u.body (br s .boot 0x24).toNat (fld (br s .sys 0) 24 8) s.helm.build (fuseBlank s) (keyHash s) u.crc
        ∃ n, exec (.flashOperationDone true ofs op t) s = .next n ∧ n.boot.upd = none ∧ bit (br n .boot 0x28) (8 * inactive s) = decide (k = 0) ∧
          (k = 0 → br n .boot (genReg (inactive s)) = wd (max (br s .boot 0x2C).toNat (br s .boot 0x30).toNat + 1)) ∧
          (k ≠ 0 → fld (br n .boot 0x28) (8 * inactive s + 4) 4 = k))) ∧
    (∀ cause, s.boot.jobs.head? = some .pm → frozen s 9 = false → ∃ n, exec (.postmortemWriteDone true cause t) s = .next n ∧
      n.helm.pmPending = false ∧ n.helm.pmDone = true ∧ br n .boot 0x38 = wd ((br s .boot 0x38).toNat + 1) ∧
      n.boot.pms = (((br s .boot 0x38).toNat + 1, s.helm.pmRecord) :: s.boot.pms).take 7)

/-- 19 R471, R473, R475, R476, Table 19-3: what an accepted record leaves: REG the register, MEM the word, KERNEL the program word, POINTS
the value and the attribute word of a user point, PROT the regions, QUEUE the capacity and idle item, CANMAP the controller enabled, RINGMAP T_R,
OWNER the owner words, SAFETY the parameter block, PATCH the patch RAM used, KEYFUSE and SIGN what END judges. -/
def Obligations.ImageRecords : Prop :=
  ∀ (h : RecHead) (p : List Word) (t : Nat) (s : State),
    (∀ (a v : Word) (x : RegHit), Loads s 1 h p → p = [a, v] → regAllowed a.toNat = true → findReg a.toNat = some x → isCommit x = false →
      x.row.inst.isSome = true → (x.blk = .prof ∨ x.blk = .home ∨ x.blk = .loop) →
      ∃ n, exec (.reg h p t) s = .next n ∧ ∀ j, j < 32 → bit x.row.rws j = true → bit (rd n a.toNat) j = bit v j) ∧
    (∀ a v : Word, Loads s 2 h p → p = [a, v] → memAllowed a.toNat = true → memAddress a.toNat →
      ∃ n, exec (.mem h p t) s = .next n ∧ readWord n a.toNat = v ∧ ∀ b, (b < a.toNat ∨ a.toNat + 4 ≤ b) → readByte n b = readByte s b) ∧
    (∀ (w lo hi : Word) (g : Fin 4), Loads s 3 h p → p = [w, lo, hi] → fld w 0 2 = g.val → fld w 2 14 = 0 → fld w 29 3 = 0 → fld w 16 13 < 8192 →
      progOpen s g = true →
      ∃ n, exec (.kernel h p t) s = .next n ∧ sget progDefault n.clu[g].prog (fld w 16 13) = BitVec.ofNat 64 (lo.toNat + hi.toNat * 2 ^ 32)) ∧
    (∀ i a v : Word, Loads s 4 h p → p = [i, 1#32, a, v] → 8192 ≤ i.toNat → i.toNat < 131072 → fld a 0 3 < 6 → s.pwr.warm = false →
      ∃ n, exec (.points h p t) s = .next n ∧ pt n i.toNat = v ∧ attr n i.toNat = a &&& 0x1FFFFF7F#32 ∧ ∀ k, k ≠ i.toNat → pt n k = pt s k) ∧
    (∀ (m : Fin 8) (r : Fin 16), Loads s 5 h p → p.length = 256 → locked s = false →
      (∀ (k : Fin 8) (q : Fin 16), regionBad (k.val + 1) (p.getD (32 * k.val + 2 * q.val) 0#32) (p.getD (32 * k.val + 2 * q.val + 1) 0#32) = false) →
      ∃ n, exec (.prot h p t) s = .next n ∧
        ir n .prot (m.val + 1) (8 * r.val) &&& 0xFFFFFFEF#32 = p.getD (32 * m.val + 2 * r.val) 0#32 &&& 0xFFFFFFEF#32 ∧
        ir n .prot (m.val + 1) (8 * r.val + 4) &&& 0xFFFFFFE0#32 = p.getD (32 * m.val + 2 * r.val + 1) 0#32 &&& 0xFFFFFFE0#32) ∧
    (∀ q c k b i : Word, Loads s 6 h p → p = [q, c, k, b, i] → 16 ≤ q.toNat → q.toNat < 64 →
      ∃ n, exec (.queue h p t) s = .next n ∧ fld (ir n .que q.toNat 4) 0 22 = fld k 0 22 ∧ ir n .que q.toNat 0xC = i) ∧
    (∀ c a d e : Word, Loads s 7 h p → p = [c, a, d, e] → c.toNat < 2 → ∃ n, exec (.canmap h p t) s = .next n ∧ n.boot.cans.testBit c.toNat = true) ∧
    (Loads s 8 h p → p.length = 7 → ∃ n, exec (.ringmap h p t) s = .next n ∧ fld (ir n .ring 0 4) 0 24 = fld (p.getD 1 0#32) 0 24) ∧
    (Loads s 9 h p → ∃ n, exec (.owner h p t) s = .next n ∧ br n .sys 0x20 = p.getD 0 0#32 &&& 0xFFFF7F07#32 ∧
      br n .boot 0x48 = p.getD 1 0#32 &&& 0xFF#32 ∧ br n .boot 0x4C = p.getD 2 0#32 &&& 0x7FFFFFFF#32) ∧
    (Loads s 0xA h p → ∃ n, exec (.safety h p t) s = .next n ∧ n.boot.block = p.take 128 ∧ n.regs = s.regs) ∧
    (Loads s 0xB h p → p.getD 0 0#32 = s.helm.build → s.boot.patch + (p.length - 2) ≤ 8192 → (p.getD 1 0#32).toNat + 4 * (p.length - 2) ≤ 32768 →
      ∃ n, exec (.patch h p t) s = .next n ∧ n.boot.patch = s.boot.patch + (p.length - 2) ∧
        ∀ k, k < p.length - 2 → sget (fun _ => 0#32) n.boot.patchRam ((p.getD 1 0#32).toNat + 4 * k) = p.getD (2 + k) 0#32) ∧
    (Loads s 0xC h p → ∃ n, exec (.keyfuse h p t) s = .next n ∧ n.boot.key = some (p.take 8) ∧ n.regs = s.regs) ∧
    (Loads s 0xFE h p → ∃ n, exec (.sign h p t) s = .next n ∧ n.boot.sign = some (signOf (bytesOf p) s.boot.image) ∧
      n.boot.image = s.boot.image ++ (headRec s 0xFE h p).bytes ∧ n.regs = s.regs)

/-! ### Supply, reset, SLEEP, clocks and the test port (20, 21) -/

/-- 20 R491 to R496, R500, R501; 15 R385; 21 R525, R527 to R529: the supply's events with what PMU_RESETCAUSE records and what each reset leaves;
SLEEP entered and its wake sources; a lost reference and a DPLL that loses lock; TESTEN; and the instructions of the test access port. -/
def Obligations.SupplyResetSleepAndTestPort : Prop :=
  ∀ (t : Nat) (s : State),
    (s.pwr.up = false → ∃ n, exec .powerUp s = .next n ∧ n.pwr.up = true ∧ n.pwr.fails = 0 ∧ n.pwr.dead = false ∧ br n .pmu 0 = 0x1F#32 ∧
      bit (br n .pmu 0x30) 0 = true) ∧
    (∀ r : Fin 5, s.pwr.up = true → inReset s = true → ∃ n, exec (.railTmo r) s = .next n ∧ n.pwr.up = false ∧ n.pwr.fails = s.pwr.fails + 1 ∧
      n.pwr.dead = decide (2 ≤ s.pwr.fails) ∧ bit (br n .pmu 0x30) 5 = true ∧ fld (br n .pmu 0x30) 6 3 = r.val) ∧
    (s.pwr.up = false → s.pwr.dead = false → s.pwr.ovp = false → ∃ n, exec .railSequenceRestart s = .next n ∧ n.pwr.up = true) ∧
    (∀ (c : Fin 3) (r : Fin 5), s.pwr.up = true → ∃ n, exec (.brownout c r) s = .next n ∧ n.pwr.up = false ∧ mode n = mBoot ∧ n.pwr.browned = true ∧
      bit (br n .pmu 0x30) (2 + c.val) = true ∧ (c = 1 → fld (br n .pmu 0x30) 6 3 = r.val) ∧ (c = 2 → n.pwr.ovp = true ∧ bit (br n .pmu 0) 6 = true)) ∧
    (s.pwr.ovp = true → s.pwr.dead = false → ∃ n, exec .ovpRelease s = .next n ∧ n.pwr.ovp = false ∧ n.pwr.up = true) ∧
    (s.pwr.up = true → ∃ n, exec .resetnExternalLow s = .next n ∧ n.pwr.resetLow = true ∧ mode n = mBoot ∧ inReset n = true ∧
      bit (br n .pmu 0x30) 1 = true ∧ ∀ x : Fin 16, n.ax[x].seq = .disabled) ∧
    (s.helm.toSleep = true → mode s = mStandby → ∃ n, exec (.sleepEntered t) s = .next n ∧ mode n = mSleep ∧ n.pinsLow = true ∧ n.drv.locked = false ∧
      (∀ g : Fin 4, stoOn n g = true) ∧ n.pwr.sleepFrom = none) ∧
    (wakeArmed s = true → s.pwr.woken = 0 →
      (∀ (level : Bool) (held : Nat), ∃ n, exec (.wakePin level held t) s = .next n ∧
        n.pwr.woken = if bit (br s .pmu 0x34) 0 = true ∧ level ≠ bit (br s .pmu 0x34) 1 ∧ fld (br s .pmu 0x34) 8 8 * 10000 ≤ held then 1 else 0) ∧
      (∀ (c : Fin 2) (held : Nat), fld (br s (cb c) 0x40) 0 8 ≠ 0 → fld (br s (cb c) 0x40) 0 8 * 1000 ≤ held → ∃ n, exec (.canWake c held t) s = .next n ∧ n.pwr.woken = 2 ^ (1 + c.val)) ∧
      (bit (br s .pmu 0x34) 2 = true → ∃ n, exec (.ringWakePattern t) s = .next n ∧ n.pwr.woken = 8 ∧
        ∀ a, mode s = mSleep → s.pwr.ringAddr = some a → a * s.ring.step * 10000 ≠ 0 → n.pwr.wakeStep = some (t + a * s.ring.step * 10000))) ∧
    (∀ u, s.pwr.wakeStep = some u → u ≤ t → ∃ n, exec (.wakeStepElapsed t) s = .next n ∧ n.pwr.wakeStep = none ∧ Only [.now, .pwr] s n) ∧
    (clocksRun s = true → bit (br s .chron 0) 9 = true →
      (s.helm.toSleep = false → ∃ n, exec (.refclkLost t) s = .next n ∧ bit (br n .chron 0) 9 = false ∧ Stands 3 (mkCode 1 0 2) 0xFFFF#16 s n) ∧
      (∀ i : Fin 9, bit (br s .chron 0) i.val = true → ∃ n, exec (.dpllUnlock i t) s = .next n ∧ bit (br n .chron 0) i.val = false ∧
        Stands 3 (mkCode 1 i.val 3) 0xFFFF#16 s n)) ∧
    (∃ n, exec .testenHigh s = .next n ∧ n.pins.testen = true ∧ (s.pwr.up = true → mode n = mBoot ∧ inReset n = true)) ∧
    (∃ n, exec .testenRelease s = .next n ∧ n.pins.testen = false ∧ Only [.pins] s n) ∧
    (∀ cells cap : List Bool,
      (∃ n, exec (.extest cells) s = .next n ∧ n.pins.ir = (if inReset s then 0 else 0xF) ∧ n.pins.preload = (if inReset s then cells else s.pins.preload)) ∧
      (∃ n, exec (.samplePreload cap cells) s = .next n ∧ n.pins.ir = 2 ∧ n.pins.captured = cap ∧ n.pins.preload = cells)) ∧
    (∃ n, exec .clamp s = .next n ∧ n.pins.ir = (if inReset s then 3 else 0xF)) ∧
    (∃ n, exec .highz s = .next n ∧ n.pins.ir = (if inReset s then 4 else 0xF)) ∧
    (∃ n, exec .idcode s = .next n ∧ n.pins.ir = 1 ∧ n.pins.dr = idcode s) ∧
    (∃ n, exec .bypass s = .next n ∧ n.pins.ir = 0xF ∧ n.pins.dr = 0#32) ∧
    (∃ n, exec .testLogicReset s = .next n ∧ n.pins.ir = 1 ∧ n.pins.dr = idcode s)
end

