-- ==== Sys2Proof/Laws/Bits.lean ====
section
/-!
SUPPORT. Bit fields: reading a bit or a field after a bit or a field is put.
-/
namespace Sys2Proof.Machine

/-- A bit of a word whose field [lo+n-1 : lo] is replaced. -/
theorem bit_setFld (w : Word) (lo n v i : Nat) (hi : i < 32) :
    bit (setFld w lo n v) i = if lo ≤ i ∧ i < lo + n then v.testBit (i - lo) else bit w i := by
  unfold bit setFld maskAt
  simp only [BitVec.getLsbD_or, BitVec.getLsbD_and, BitVec.getLsbD_not, BitVec.getLsbD_ofNat, hi, decide_true, Bool.true_and,
    Nat.testBit_shiftLeft, Nat.testBit_two_pow_sub_one, Nat.testBit_mod_two_pow]
  by_cases h1 : lo ≤ i
  · by_cases h2 : i - lo < n
    · have : i < lo + n := by omega
      simp [h1, h2, this]
    · have : ¬ i < lo + n := by omega
      simp [h1, h2, this]
  · simp [h1]

/-- A bit of a word one of whose bits is replaced. -/
theorem bit_setBit (w : Word) (j : Nat) (v : Bool) (i : Nat) (hi : i < 32) :
    bit (setBit w j v) i = if i = j then v else bit w i := by
  unfold setBit
  rw [bit_setFld _ _ _ _ _ hi]
  by_cases h : i = j
  · subst h; cases v <;> simp
  · have : ¬ (j ≤ i ∧ i < j + 1) := by omega
    rw [if_neg this, if_neg h]

/-- A word is known by its bits. -/
theorem word_ext {a b : Word} (h : ∀ i, i < 32 → bit a i = bit b i) : a = b := BitVec.eq_of_getLsbD_eq h

theorem bit_of_le (w : Word) (i : Nat) (h : 32 ≤ i) : bit w i = false := BitVec.getLsbD_of_ge w i h

/-- The bits of a field. -/
theorem fld_testBit (w : Word) (lo n i : Nat) : (fld w lo n).testBit i = (decide (i < n) && bit w (lo + i)) := by
  unfold fld bit
  rw [Nat.testBit_mod_two_pow, Nat.testBit_shiftRight]
  rfl

/-- A field of a word one of whose fields is replaced, where the two are the same field. -/
theorem fld_setFld_same (w : Word) (lo n v : Nat) (h : lo + n ≤ 32) : fld (setFld w lo n v) lo n = v % 2 ^ n := by
  apply Nat.eq_of_testBit_eq
  intro i
  rw [fld_testBit, Nat.testBit_mod_two_pow]
  by_cases hi : i < n
  · rw [bit_setFld _ _ _ _ _ (by omega)]
    have : lo ≤ lo + i ∧ lo + i < lo + n := by omega
    simp [hi]
  · simp [hi]

/-- A field of a word one of whose fields is replaced, where the two do not meet. -/
theorem fld_setFld_other (w : Word) (lo n v lo' n' : Nat) (h : lo + n ≤ lo' ∨ lo' + n' ≤ lo) : fld (setFld w lo n v) lo' n' = fld w lo' n' := by
  apply Nat.eq_of_testBit_eq
  intro i
  rw [fld_testBit, fld_testBit]
  by_cases hi : i < n'
  · by_cases h32 : lo' + i < 32
    · rw [bit_setFld _ _ _ _ _ h32]
      have : ¬ (lo ≤ lo' + i ∧ lo' + i < lo + n) := by omega
      rw [if_neg this]
    · rw [bit_of_le _ _ (by omega), bit_of_le _ _ (by omega)]
  · simp [hi]

end Sys2Proof.Machine
end

