-- ==== Sys2Proof/Laws/Sparse.lean ====
section
/-!
SUPPORT. The sparse lists: reads after writes, and that every operation keeps the canonical form.
-/
namespace Sys2Proof.Machine

variable {γ : Type} {d : Nat → γ}

/-! ### The canonical form is kept -/

section Form
variable [DecidableEq γ]

/-- A smaller bound holds too. -/
theorem swfFrom_weaken {l : List (Nat × γ)} {b : Nat} : ∀ {c : Option Nat}, (∀ n, c = some n → n ≤ b) →
    swfFrom d (some b) l = true → swfFrom d c l = true := by
  intro c hc h
  cases l with
  | nil => rfl
  | cons x l =>
    obtain ⟨k, v⟩ := x
    simp only [swfFrom, Bool.and_eq_true, decide_eq_true_eq] at h ⊢
    refine ⟨⟨?_, h.1.2⟩, h.2⟩
    cases c with
    | none => rfl
    | some n => simp only [decide_eq_true_eq]; have := hc n rfl; omega

theorem swfFrom_sdel {l : List (Nat × γ)} {k : Nat} : ∀ {c : Option Nat}, swfFrom d c l = true → swfFrom d c (sdel l k) = true := by
  induction l with
  | nil => intro c h; rfl
  | cons x l ih =>
    intro c h
    obtain ⟨k', v'⟩ := x
    simp only [swfFrom, Bool.and_eq_true, decide_eq_true_eq] at h
    simp only [sdel]
    split
    · refine swfFrom_weaken (b := k') ?_ (ih h.2)
      intro n hn; subst hn; have := h.1.1; simp only [decide_eq_true_eq] at this; omega
    · simp only [swfFrom, Bool.and_eq_true, decide_eq_true_eq]
      exact ⟨h.1, ih h.2⟩

/-- A key above the bound passes the bound's test. -/
theorem below {k : Nat} : ∀ (c : Option Nat), (∀ n, c = some n → n < k) →
    (match c with | none => true | some n => decide (n < k)) = true
  | none, _ => rfl
  | some n, hc => decide_eq_true (hc n rfl)

theorem swfFrom_sput {l : List (Nat × γ)} {k : Nat} {v : γ} (hv : v ≠ d k) : ∀ {c : Option Nat},
    (∀ n, c = some n → n < k) → swfFrom d c l = true → swfFrom d c (sput l k v) = true := by
  induction l with
  | nil =>
    intro c hc _
    simp only [sput, swfFrom, Bool.and_eq_true, decide_eq_true_eq, ne_eq, Bool.and_true]
    exact ⟨below _ hc, hv⟩
  | cons x l ih =>
    intro c hc h
    obtain ⟨k', v'⟩ := x
    simp only [swfFrom, Bool.and_eq_true, decide_eq_true_eq] at h
    simp only [sput]
    split
    · rename_i hk
      simp only [swfFrom, Bool.and_eq_true, decide_eq_true_eq]
      exact ⟨⟨below _ hc, hv⟩, ⟨hk, h.1.2⟩, h.2⟩
    · split
      · rename_i hk
        subst hk
        simp only [swfFrom, Bool.and_eq_true, decide_eq_true_eq]
        exact ⟨⟨below _ hc, hv⟩, h.2⟩
      · simp only [swfFrom, Bool.and_eq_true, decide_eq_true_eq]
        refine ⟨h.1, ih ?_ h.2⟩
        intro n hn; injection hn with hn; omega

/-- A write keeps the canonical form. -/
theorem swf_sset {l : List (Nat × γ)} (k : Nat) (v : γ) (h : swf d l = true) : swf d (sset d l k v) = true := by
  unfold sset swf at *
  split
  · exact swfFrom_sdel h
  · rename_i hv
    exact swfFrom_sput hv (by intro n hn; cases hn) h

theorem swfFrom_filter {l : List (Nat × γ)} {f : Nat × γ → Bool} : ∀ {c : Option Nat}, swfFrom d c l = true →
    swfFrom d c (l.filter f) = true := by
  induction l with
  | nil => intro c h; rfl
  | cons x l ih =>
    intro c h
    obtain ⟨k', v'⟩ := x
    simp only [swfFrom, Bool.and_eq_true, decide_eq_true_eq] at h
    rw [List.filter_cons]
    split
    · simp only [swfFrom, Bool.and_eq_true, decide_eq_true_eq]
      exact ⟨h.1, ih h.2⟩
    · refine swfFrom_weaken (b := k') ?_ (ih h.2)
      intro n hn; subst hn; have := h.1.1; simp only [decide_eq_true_eq] at this; omega

/-- Leaving entries out keeps the canonical form. -/
theorem swf_filter {l : List (Nat × γ)} (f : Nat × γ → Bool) (h : swf d l = true) : swf d (l.filter f) = true := swfFrom_filter h

/-- Two canonical lists, all keys of the one below m and those of the other not, make one. -/
theorem swfFrom_append {m : Nat} {l k : List (Nat × γ)} (hk : ∀ x ∈ k, m ≤ x.1) (wk : swf d k = true) :
    ∀ {c : Option Nat}, (∀ n, c = some n → n < m) → (∀ x ∈ l, x.1 < m) → swfFrom d c l = true → swfFrom d c (l ++ k) = true := by
  induction l with
  | nil =>
    intro c hc _ _
    cases k with
    | nil => rfl
    | cons x k =>
      obtain ⟨j, v⟩ := x
      simp only [swf, swfFrom, Bool.and_eq_true, decide_eq_true_eq, List.nil_append] at wk ⊢
      refine ⟨⟨below _ ?_, wk.1.2⟩, wk.2⟩
      intro n hn
      have := hk (j, v) (List.mem_cons_self ..)
      have := hc n hn
      simp only at *
      omega
  | cons x l ih =>
    intro c _ hl h
    obtain ⟨j, v⟩ := x
    simp only [swfFrom, Bool.and_eq_true, decide_eq_true_eq, List.cons_append] at h ⊢
    refine ⟨h.1, ih ?_ (fun y hy => hl y (List.mem_cons_of_mem _ hy)) h.2⟩
    intro n hn
    injection hn with hn
    have := hl (j, v) (List.mem_cons_self ..)
    simp only at this
    omega

theorem swf_append {m : Nat} {l k : List (Nat × γ)} (hl : ∀ x ∈ l, x.1 < m) (hk : ∀ x ∈ k, m ≤ x.1) (wl : swf d l = true)
    (wk : swf d k = true) : swf d (l ++ k) = true := swfFrom_append hk wk (by intro n h; cases h) hl wl

end Form

/-! ### Reads after writes -/

/-- A key that is not above the bound of the list is unlisted. -/
theorem sget_low [DecidableEq γ] {l : List (Nat × γ)} {k : Nat} : ∀ {b : Nat}, swfFrom d (some b) l = true → k ≤ b → sget d l k = d k := by
  induction l with
  | nil => intro b _ _; rfl
  | cons x l ih =>
    intro b h hk
    obtain ⟨k', v'⟩ := x
    simp only [swfFrom, Bool.and_eq_true, decide_eq_true_eq] at h
    have : k ≠ k' := by omega
    simp only [sget, if_neg this]
    exact ih h.2 (by omega)

theorem sget_sdel_same (l : List (Nat × γ)) (k : Nat) : sget d (sdel l k) k = d k := by
  induction l with
  | nil => rfl
  | cons x l ih =>
    simp only [sdel]
    split
    · exact ih
    · rename_i hk; simp only [sget, if_neg hk]; exact ih

theorem sget_sput_same (l : List (Nat × γ)) (k : Nat) (v : γ) : sget d (sput l k v) k = v := by
  induction l with
  | nil => simp [sput, sget]
  | cons x l ih =>
    simp only [sput]
    split
    · simp [sget]
    · split
      · simp [sget]
      · rename_i hk; simp only [sget, if_neg hk]; exact ih

theorem sget_sput_other (l : List (Nat × γ)) {k j : Nat} (v : γ) (h : j ≠ k) : sget d (sput l k v) j = sget d l j := by
  induction l with
  | nil => simp [sput, sget, h]
  | cons x l ih =>
    simp only [sput]
    split
    · simp [sget, h]
    · split
      · rename_i hk; subst hk; simp [sget, h]
      · simp only [sget, ih]

theorem sget_sdel_other (l : List (Nat × γ)) {k j : Nat} (h : j ≠ k) : sget d (sdel l k) j = sget d l j := by
  induction l with
  | nil => rfl
  | cons x l ih =>
    simp only [sdel]
    split
    · rename_i hk; subst hk; simp only [sget, if_neg h]; exact ih
    · simp only [sget, ih]

/-- A read after a write to the same key gives the value written. -/
@[simp] theorem sget_sset_same [DecidableEq γ] (l : List (Nat × γ)) (k : Nat) (v : γ) : sget d (sset d l k v) k = v := by
  unfold sset
  split
  · rename_i hv; rw [hv]; exact sget_sdel_same l k
  · exact sget_sput_same l k v

/-- A write leaves every other key alone. -/
@[simp] theorem sget_sset_other [DecidableEq γ] (l : List (Nat × γ)) {k j : Nat} (v : γ) (h : j ≠ k) : sget d (sset d l k v) j = sget d l j := by
  unfold sset
  split
  · exact sget_sdel_other l h
  · exact sget_sput_other l v h

end Sys2Proof.Machine
end

