-- ==== Sys2Proof/Laws/Keeps.lean ====
section
/-!
SUPPORT. The frame calculus: Keeps P s t says that from s to t only the parts P may differ and the canonical form is kept; one
combinator for each way a meaning is put together.
-/
namespace Sys2Proof.Machine

/-- Only the parts P differ, and the sparse data stay canonical. -/
def Keeps (P : List Part) (s t : State) : Prop := Only P s t ∧ (Canon s → Canon t)

/-- A step answers a next state that Keeps. -/
def Runs (P : List Part) (s : State) (o : Host.Outcome State Fault Refusal) : Prop := ∃ t, o = .next t ∧ Keeps P s t

/-- Every part of one list is in another. -/
def Within (ps qs : List Part) : Prop := ∀ p, p ∈ ps → p ∈ qs

theorem Within.trans {a b c : List Part} (h : Within b c) (g : Within a b) : Within a c := fun p hp => h p (g p hp)

theorem Within.of {a b c : List Part} (h : Within b c) (g : a.all (fun p => decide (p ∈ b)) = true) : Within a c :=
  fun p hp => h p (of_decide_eq_true (List.all_eq_true.mp g p hp))

theorem Within.refl (a : List Part) : Within a a := fun _ h => h

variable {P : List Part} {s t u : State} {α : Type}

theorem Part.same_refl (p : Part) (s : State) : p.same s s := by cases p <;> rfl

theorem Part.same_trans (p : Part) (h : p.same s t) (g : p.same t u) : p.same s u := by
  cases p <;> exact Eq.trans g h

theorem Keeps.refl : Keeps P s s := ⟨fun p _ => p.same_refl s, id⟩

theorem Keeps.trans (h : Keeps P s t) (g : Keeps P t u) : Keeps P s u :=
  ⟨fun p hp => p.same_trans (h.1 p hp) (g.1 p hp), fun c => g.2 (h.2 c)⟩

theorem Keeps.mono {Q : List Part} (h : Keeps Q s t) (hq : Within Q P) : Keeps P s t :=
  ⟨fun p hp => h.1 p (fun hm => hp (hq p hm)), h.2⟩

/-- A record update that leaves registers, points, attributes and memory. -/
theorem Keeps.upd (h : Keeps P s t) (hu : ∀ p, p ∉ P → p.same t u)
    (hc : u.regs = t.regs ∧ u.pts = t.pts ∧ u.attrs = t.attrs ∧ u.mem = t.mem) : Keeps P s u :=
  h.trans ⟨hu, fun c => by obtain ⟨h1, h2, h3, h4⟩ := hc; unfold Canon at *; rw [h1, h2, h3, h4]; exact c⟩

theorem Keeps.ite {c : Prop} [Decidable c] {a b : State} (ha : Keeps P s a) (hb : Keeps P s b) : Keeps P s (if c then a else b) := by
  split <;> assumption

theorem Keeps.dite {c : Prop} [Decidable c] {a : c → State} {b : ¬ c → State} (ha : ∀ h, Keeps P s (a h)) (hb : ∀ h, Keeps P s (b h)) :
    Keeps P s (if h : c then a h else b h) := by split <;> simp only [ha, hb]

theorem Keeps.fst {x : State} {a : α} (h : Keeps P s x) : Keeps P s (x, a).1 := h

theorem Keeps.snd {x : State} {a : α} (h : Keeps P s x) : Keeps P s (a, x).2 := h

theorem Keeps.ite2 {c : Prop} [Decidable c] {a b : α × State} (ha : Keeps P s a.2) (hb : Keeps P s b.2) :
    Keeps P s (if c then a else b).2 := by split <;> assumption

theorem Keeps.ite1 {c : Prop} [Decidable c] {a b : State × α} (ha : Keeps P s a.1) (hb : Keeps P s b.1) :
    Keeps P s (if c then a else b).1 := by split <;> assumption

theorem Keeps.ofEq {x : State} {p : α × State} {a : α} (e : p = (a, x)) (h : Keeps P s p.2) : Keeps P s x := by subst e; exact h

theorem Keeps.ofEq1 {x : State} {p : State × α} {a : α} (e : p = (x, a)) (h : Keeps P s p.1) : Keeps P s x := by subst e; exact h

theorem Keeps.foldl {f : State → α → State} (hf : ∀ x a, Keeps P s x → Keeps P s (f x a)) :
    ∀ (l : List α) {t : State}, Keeps P s t → Keeps P s (l.foldl f t)
  | [], _, h => h
  | a :: l, _, h => Keeps.foldl hf l (hf _ a h)

theorem Keeps.foldlPair {β : Type} {f : β × State → α → β × State} (hf : ∀ x a, Keeps P s x.2 → Keeps P s (f x a).2) :
    ∀ (l : List α) {p : β × State}, Keeps P s p.2 → Keeps P s (l.foldl f p).2
  | [], _, h => h
  | a :: l, _, h => Keeps.foldlPair hf l (hf _ a h)

theorem forEach_keeps {l : List α} {f : α → State → State} (hf : ∀ a x, Keeps P s x → Keeps P s (f a x))
    (h : Keeps P s t) : Keeps P s (forEach l f t) := by
  induction l generalizing t with
  | nil => exact h
  | cons a l ih => exact ih (hf a t h)

theorem Runs.next (h : Keeps P s t) : Runs P s (.next t) := ⟨t, rfl, h⟩

theorem Runs.ite {c : Prop} [Decidable c] {a b : Host.Outcome State Fault Refusal} (ha : Runs P s a) (hb : Runs P s b) :
    Runs P s (if c then a else b) := by split <;> assumption

end Sys2Proof.Machine
end

