-- ==== Sys2Proof/Laws/KeepsOps.lean ====
section
/-!
SUPPORT. What the operations of Machine/Ops.lean may touch, and that they keep the canonical form: one lemma per operation.
-/
namespace Sys2Proof.Machine

variable {P : List Part} {s t : State}

theorem wr_keeps {a v} (hP : Within [.regs] P) (h0 : Keeps P s t) : Keeps P s (wr t a v) :=
  h0.trans ⟨by intro p hp; cases p <;> first | exact absurd (hP _ (by decide)) hp | rfl,
    fun c => ⟨swf_sset _ _ c.1, c.2.1, c.2.2.1, c.2.2.2⟩⟩

theorem bw_keeps {a1 a2 a3} (hP : Within [.regs] P) (h0 : Keeps P s t) :
    Keeps P s (bw t a1 a2 a3) := by
  unfold bw
  exact (wr_keeps (hP.of (by decide)) h0)

theorem onceSec_keeps {a1} (hP : Within [.helm] P) (h0 : Keeps P s t) :
    Keeps P s (onceSec a1 t).2 := by
  unfold onceSec
  extract_lets -merge -useContext x1 x2
  exact (Keeps.ite2 (Keeps.snd h0) (Keeps.snd (Keeps.upd h0 (by intro p hp; cases p <;> first | exact absurd (hP _ (by decide)) hp | rfl) ⟨rfl, rfl, rfl, rfl⟩)))

theorem setQ_keeps {a1 a2} (hP : Within [.queues] P) (h0 : Keeps P s t) :
    Keeps P s (setQ t a1 a2) := by
  unfold setQ
  exact (Keeps.upd h0 (by intro p hp; cases p <;> first | exact absurd (hP _ (by decide)) hp | rfl) ⟨rfl, rfl, rfl, rfl⟩)

theorem iw_keeps {a1 a2 a3 a4} (hP : Within [.regs] P) (h0 : Keeps P s t) :
    Keeps P s (iw t a1 a2 a3 a4) := by
  unfold iw
  exact (wr_keeps (hP.of (by decide)) h0)

theorem iwSat_keeps {a1 a2 a3 a4 a5} (hP : Within [.regs] P) (h0 : Keeps P s t) :
    Keeps P s (iwSat t a1 a2 a3 a4 a5) := by
  unfold iwSat
  exact (iw_keeps (hP.of (by decide)) h0)

theorem pushRaw_keeps {a1 a2 a3 a4} (hP : Within [.regs, .queues] P) (h0 : Keeps P s t) :
    Keeps P s (pushRaw a1 a2 a3 a4 t).2 := by
  unfold pushRaw
  extract_lets -merge -useContext x1
  exact (Keeps.ite2 (Keeps.snd (setQ_keeps (hP.of (by decide)) h0)) (Keeps.snd (iwSat_keeps (hP.of (by decide)) h0)))

theorem enterRaw_keeps {a1 a2 a3 a4} (hP : Within [.regs, .queues] P) (h0 : Keeps P s t) :
    Keeps P s (enterRaw a1 a2 a3 a4 t).2 := by
  unfold enterRaw
  split
  rename_i x1 e1
  have h1 : Keeps P s x1 := Keeps.ofEq e1 (pushRaw_keeps (hP.of (by decide)) h0)
  extract_lets -merge -useContext x2 x3
  exact (Keeps.ite2 (Keeps.snd (setQ_keeps (hP.of (by decide)) h1)) (Keeps.snd h1))

theorem bwSat_keeps {a1 a2 a3 a4} (hP : Within [.regs] P) (h0 : Keeps P s t) :
    Keeps P s (bwSat t a1 a2 a3 a4) := by
  unfold bwSat
  exact (bw_keeps (hP.of (by decide)) h0)

theorem setPt_keeps {a v} (hP : Within [.pts] P) (h0 : Keeps P s t) : Keeps P s (setPt t a v) :=
  h0.trans ⟨by intro p hp; cases p <;> first | exact absurd (hP _ (by decide)) hp | rfl,
    fun c => ⟨c.1, swf_sset _ _ c.2.1, c.2.2.1, c.2.2.2⟩⟩

theorem logRaw_keeps {a1} (hP : Within [.regs, .pts, .queues] P) (h0 : Keeps P s t) :
    Keeps P s (logRaw a1 t) := by
  unfold logRaw
  split
  rename_i x1 e1
  have h1 : Keeps P s x1 := Keeps.ofEq e1 (enterRaw_keeps (hP.of (by decide)) h0)
  extract_lets -merge -useContext x2
  have h2 : Keeps P s x2 := (bwSat_keeps (hP.of (by decide)) h1)
  clear_value x2
  exact (Keeps.ite h1 (setPt_keeps (hP.of (by decide)) h2))

theorem sw_keeps {a1 a2 a3} (hP : Within [.regs] P) (h0 : Keeps P s t) :
    Keeps P s (sw t a1 a2 a3) := by
  unfold sw
  exact (wr_keeps (hP.of (by decide)) h0)

theorem raiseTrigBy_keeps {a1 a2 a3} (hP : Within [.regs, .clu] P) (hf1 : ∀ b0 x, Keeps P s x → Keeps P s (a1 b0 x)) (h0 : Keeps P s t) :
    Keeps P s (raiseTrigBy a1 a2 a3 t) := by
  unfold raiseTrigBy
  extract_lets -merge -useContext x1
  exact (Keeps.ite h0 (Keeps.ite h0 (Keeps.ite (sw_keeps (hP.of (by decide)) h0) (Keeps.ite (hf1 _ _ (bwSat_keeps (hP.of (by decide)) h0)) (Keeps.upd h0 (by intro p hp; cases p <;> first | exact absurd (hP _ (by decide)) hp | rfl) ⟨rfl, rfl, rfl, rfl⟩)))))

theorem logRec_keeps {a1} (hP : Within [.regs, .pts, .queues, .clu] P) (h0 : Keeps P s t) :
    Keeps P s (logRec a1 t) := by
  unfold logRec
  extract_lets -merge -useContext x1 x2
  have h2 : Keeps P s x2 := (logRaw_keeps (hP.of (by decide)) h0)
  clear_value x2
  exact (Keeps.ite (forEach_keeps (fun _ _ h3 => (raiseTrigBy_keeps (hP.of (by decide)) (fun _ _ h4 => (logRaw_keeps (hP.of (by decide)) h4)) h3)) h2) h2)

theorem raiseTrig_keeps {a1 a2} (hP : Within [.regs, .pts, .queues, .clu] P) (h0 : Keeps P s t) :
    Keeps P s (raiseTrig a1 a2 t) := by
  unfold raiseTrig
  exact (raiseTrigBy_keeps (hP.of (by decide)) (fun _ _ h1 => (logRec_keeps (hP.of (by decide)) h1)) h0)

theorem raiseQueue_keeps {a1} (hP : Within [.regs, .pts, .queues, .clu] P) (h0 : Keeps P s t) :
    Keeps P s (raiseQueue a1 t) := by
  unfold raiseQueue
  exact (forEach_keeps (fun _ _ h1 => (raiseTrig_keeps (hP.of (by decide)) h1)) h0)

theorem enterFault_keeps {a1 a2 a3} (hP : Within [.regs, .pts, .queues, .clu] P) (h0 : Keeps P s t) :
    Keeps P s (enterFault a1 a2 a3 t).2 := by
  unfold enterFault
  extract_lets -merge -useContext x1
  split
  rename_i x2 e2
  have h2 : Keeps P s x2 := Keeps.ofEq e2 (enterRaw_keeps (hP.of (by decide)) h0)
  exact (Keeps.snd (Keeps.ite (raiseQueue_keeps (hP.of (by decide)) h2) h2))

theorem bwBit_keeps {a1 a2 a3 a4} (hP : Within [.regs] P) (h0 : Keeps P s t) :
    Keeps P s (bwBit t a1 a2 a3 a4) := by
  unfold bwBit
  exact (bw_keeps (hP.of (by decide)) h0)

theorem toQueue0_keeps {a1} (hP : Within [.regs, .pts, .queues, .q0pend, .helm, .clu] P) (h0 : Keeps P s t) :
    Keeps P s (toQueue0 a1 t) := by
  unfold toQueue0
  extract_lets -merge -useContext x1
  split
  rename_i x2 e2
  have h2 : Keeps P s x2 := Keeps.ofEq e2 (enterFault_keeps (hP.of (by decide)) h0)
  extract_lets -merge -useContext x3
  exact (Keeps.ite (Keeps.upd h2 (by intro p hp; cases p <;> first | exact absurd (hP _ (by decide)) hp | rfl) ⟨rfl, rfl, rfl, rfl⟩) (Keeps.ite (bwBit_keeps (hP.of (by decide)) h2) (Keeps.upd h2 (by intro p hp; cases p <;> first | exact absurd (hP _ (by decide)) hp | rfl) ⟨rfl, rfl, rfl, rfl⟩)))

theorem sumUpd_keeps (hP : Within [.pts] P) (h0 : Keeps P s t) :
    Keeps P s (sumUpd t) := by
  unfold sumUpd
  exact (Keeps.ite (setPt_keeps (hP.of (by decide)) h0) h0)

theorem firstPut_keeps {a1} (hP : Within [.pts, .helm] P) (h0 : Keeps P s t) :
    Keeps P s (firstPut a1 t) := by
  unfold firstPut
  extract_lets -merge -useContext x1 x2
  have h1 : Keeps P s x1 := (setPt_keeps (hP.of (by decide)) h0)
  clear_value x1
  exact (Keeps.ite (Keeps.upd h1 (by intro p hp; cases p <;> first | exact absurd (hP _ (by decide)) hp | rfl) ⟨rfl, rfl, rfl, rfl⟩) h0)

theorem raiseRec_keeps {a1} (hP : Within [.regs, .pts, .queues, .q0pend, .helm, .ax, .clu] P) (h0 : Keeps P s t) :
    Keeps P s (raiseRec a1 t) := by
  unfold raiseRec
  extract_lets -merge -useContext x1 x2 x3 x4 x5
  have h3 : Keeps P s x3 := (Keeps.upd h0 (by intro p hp; cases p <;> first | exact absurd (hP _ (by decide)) hp | rfl) ⟨rfl, rfl, rfl, rfl⟩)
  clear_value x3
  have h4 : Keeps P s x4 := (logRec_keeps (hP.of (by decide)) h3)
  clear_value x4
  have h5 : Keeps P s x5 := (Keeps.ite (enterFault_keeps (hP.of (by decide)) h4) (toQueue0_keeps (hP.of (by decide)) h4))
  clear_value x5
  exact (Keeps.ite (logRec_keeps (hP.of (by decide)) h0) (sumUpd_keeps (hP.of (by decide)) (firstPut_keeps (hP.of (by decide)) h5)))

theorem raise_keeps {a1 a2 a3 a4 a5} (hP : Within [.regs, .pts, .queues, .q0pend, .helm, .ax, .clu] P) (h0 : Keeps P s t) :
    Keeps P s (raise a1 a2 a3 a4 a5 t) := by
  unfold raise
  exact (raiseRec_keeps (hP.of (by decide)) h0)

theorem ev_keeps {a1 a2 a3 a4 a5} (hP : Within [.regs, .pts, .queues, .q0pend, .helm, .ax, .clu] P) (h0 : Keeps P s t) :
    Keeps P s (ev a1 a2 a3 a4 a5 t) := by
  unfold ev
  exact (raise_keeps (hP.of (by decide)) h0)

theorem evOnce_keeps {a1 a2 a3 a4 a5 a6} (hP : Within [.regs, .pts, .queues, .q0pend, .helm, .ax, .clu] P) (h0 : Keeps P s t) :
    Keeps P s (evOnce a1 a2 a3 a4 a5 a6 t) := by
  unfold evOnce
  split
  rename_i x1 e1
  have h1 : Keeps P s x1 := Keeps.ofEq e1 (onceSec_keeps (hP.of (by decide)) h0)
  exact (Keeps.ite (ev_keeps (hP.of (by decide)) h1) h1)

theorem iw64_keeps {a1 a2 a3 a4} (hP : Within [.regs] P) (h0 : Keeps P s t) :
    Keeps P s (iw64 t a1 a2 a3 a4) := by
  unfold iw64
  exact (iw_keeps (hP.of (by decide)) (iw_keeps (hP.of (by decide)) h0))

theorem faultnUpd_keeps (hP : Within [.helm] P) (h0 : Keeps P s t) :
    Keeps P s (faultnUpd t) := by
  unfold faultnUpd
  extract_lets -merge -useContext x1
  exact (Keeps.upd h0 (by intro p hp; cases p <;> first | exact absurd (hP _ (by decide)) hp | rfl) ⟨rfl, rfl, rfl, rfl⟩)

theorem setMode_keeps {a1} (hP : Within [.pts] P) (h0 : Keeps P s t) :
    Keeps P s (setMode a1 t) := by
  unfold setMode
  extract_lets -merge -useContext x1
  exact (setPt_keeps (hP.of (by decide)) h0)

theorem aw_keeps {a1 a2 a3 a4} (hP : Within [.regs] P) (h0 : Keeps P s t) :
    Keeps P s (aw t a1 a2 a3 a4) := by
  unfold aw
  exact (wr_keeps (hP.of (by decide)) h0)

theorem copySet_keeps {a1 a2} (hP : Within [.regs] P) (h0 : Keeps P s t) :
    Keeps P s (copySet a1 a2 t) := by
  unfold copySet
  exact (Keeps.foldl (fun _ _ h1 => (aw_keeps (hP.of (by decide)) h1)) _ h0)

theorem iwBit_keeps {a1 a2 a3 a4 a5} (hP : Within [.regs] P) (h0 : Keeps P s t) :
    Keeps P s (iwBit t a1 a2 a3 a4 a5) := by
  unfold iwBit
  exact (iw_keeps (hP.of (by decide)) h0)

theorem setAp_keeps {a1 a2 a3} (hP : Within [.pts] P) (h0 : Keeps P s t) :
    Keeps P s (setAp t a1 a2 a3) := by
  unfold setAp
  exact (setPt_keeps (hP.of (by decide)) h0)

theorem raiseAx_keeps {a1 a2 a3 a4 a5} (hP : Within [.regs, .pts, .queues, .q0pend, .helm, .ax, .clu] P) (h0 : Keeps P s t) :
    Keeps P s (raiseAx a1 a2 a3 a4 a5 t) := by
  unfold raiseAx
  exact (raise_keeps (hP.of (by decide)) h0)

theorem raiseDev_keeps {a1 a2 a3 a4 a5} (hP : Within [.regs, .pts, .queues, .q0pend, .helm, .ax, .clu] P) (h0 : Keeps P s t) :
    Keeps P s (raiseDev a1 a2 a3 a4 a5 t) := by
  unfold raiseDev
  exact (raise_keeps (hP.of (by decide)) h0)

theorem atTime_keeps {a1} (hP : Within [.now] P) (h0 : Keeps P s t) :
    Keeps P s (atTime a1 t) := by
  unfold atTime
  exact (Keeps.ite (Keeps.upd h0 (by intro p hp; cases p <;> first | exact absurd (hP _ (by decide)) hp | rfl) ⟨rfl, rfl, rfl, rfl⟩) h0)

theorem aw64_keeps {a1 a2 a3 a4} (hP : Within [.regs] P) (h0 : Keeps P s t) :
    Keeps P s (aw64 t a1 a2 a3 a4) := by
  unfold aw64
  exact (aw_keeps (hP.of (by decide)) (aw_keeps (hP.of (by decide)) h0))

theorem setPt64_keeps {a1 a2} (hP : Within [.pts] P) (h0 : Keeps P s t) :
    Keeps P s (setPt64 t a1 a2) := by
  unfold setPt64
  exact (setPt_keeps (hP.of (by decide)) (setPt_keeps (hP.of (by decide)) h0))

theorem takeFresh_keeps (hP : Within [.fresh] P) (h0 : Keeps P s t) :
    Keeps P s (takeFresh t).2 := by
  unfold takeFresh
  exact (Keeps.snd (Keeps.upd h0 (by intro p hp; cases p <;> first | exact absurd (hP _ (by decide)) hp | rfl) ⟨rfl, rfl, rfl, rfl⟩))

theorem setAttr_keeps {a v} (hP : Within [.attrs] P) (h0 : Keeps P s t) : Keeps P s (setAttr t a v) :=
  h0.trans ⟨by intro p hp; cases p <;> first | exact absurd (hP _ (by decide)) hp | rfl,
    fun c => ⟨c.1, c.2.1, swf_sset _ _ c.2.2.1, c.2.2.2⟩⟩

theorem writeByte_keeps {a v} (hP : Within [.mem] P) (h0 : Keeps P s t) : Keeps P s (writeByte t a v) := by
  unfold writeByte
  exact Keeps.ite h0 (h0.trans ⟨by intro p hp; cases p <;> first | exact absurd (hP _ (by decide)) hp | rfl,
    fun c => ⟨c.1, c.2.1, c.2.2.1, swf_sset _ _ c.2.2.2⟩⟩)

theorem writeWord_keeps {a1 a2} (hP : Within [.mem] P) (h0 : Keeps P s t) :
    Keeps P s (writeWord t a1 a2) := by
  unfold writeWord
  exact (writeByte_keeps (hP.of (by decide)) (writeByte_keeps (hP.of (by decide)) (writeByte_keeps (hP.of (by decide)) (writeByte_keeps (hP.of (by decide)) h0))))

theorem raiseGrp_keeps {a1 a2 a3 a4 a5} (hP : Within [.regs, .pts, .queues, .q0pend, .helm, .ax, .clu] P) (h0 : Keeps P s t) :
    Keeps P s (raiseGrp a1 a2 a3 a4 a5 t) := by
  unfold raiseGrp
  exact (raise_keeps (hP.of (by decide)) h0)

theorem drainQ0_keeps (hP : Within [.regs, .pts, .queues, .q0pend, .helm, .clu] P) (h0 : Keeps P s t) :
    Keeps P s (drainQ0 t) := by
  unfold drainQ0
  split
  · exact h0
  · exact (Keeps.ite (toQueue0_keeps (hP.of (by decide)) (Keeps.upd h0 (by intro p hp; cases p <;> first | exact absurd (hP _ (by decide)) hp | rfl) ⟨rfl, rfl, rfl, rfl⟩)) h0)

theorem writeWords_keeps (hP : Within [.mem] P) : ∀ {l : List Word} {a : Nat} {t : State}, Keeps P s t → Keeps P s (writeWords t a l)
  | [], _, _, h => h
  | _ :: _, _, _, h => by unfold writeWords; exact writeWords_keeps hP (writeWord_keeps (hP.of (by decide)) h)

theorem pushPkt_keeps {a1 a2 a3 a4} (hP : Within [.regs, .pts, .queues, .clu] P) (h0 : Keeps P s t) :
    Keeps P s (pushPkt a1 a2 a3 a4 t).2 := by
  unfold pushPkt
  extract_lets -merge -useContext x1
  split
  rename_i x2 e2
  have h2 : Keeps P s x2 := Keeps.ofEq e2 (pushRaw_keeps (hP.of (by decide)) h0)
  exact (Keeps.snd (Keeps.ite (raiseQueue_keeps (hP.of (by decide)) h2) h2))

theorem shipTimeUpd_keeps (hP : Within [.pts] P) (h0 : Keeps P s t) :
    Keeps P s (shipTimeUpd t) := by
  unfold shipTimeUpd
  exact (setPt64_keeps (hP.of (by decide)) h0)

end Sys2Proof.Machine
end

