-- ==== Sys2Proof/Laws/KeepsAxisOps.lean ====
section
/-!
SUPPORT. What the operations of Machine/AxisOps.lean may touch, and that they keep the canonical form: one lemma per operation.
-/
namespace Sys2Proof.Machine

variable {P : List Part} {s t : State}

theorem modClu_keeps {a1 a2} (hP : Within [.clu] P) (h0 : Keeps P s t) :
    Keeps P s (modClu a1 a2 t) := by
  unfold modClu
  exact (Keeps.upd h0 (by intro p hp; cases p <;> first | exact absurd (hP _ (by decide)) hp | rfl) ⟨rfl, rfl, rfl, rfl⟩)

theorem modIg_keeps {a1 a2} (hP : Within [.igrp] P) (h0 : Keeps P s t) :
    Keeps P s (modIg a1 a2 t) := by
  unfold modIg
  exact (Keeps.upd h0 (by intro p hp; cases p <;> first | exact absurd (hP _ (by decide)) hp | rfl) ⟨rfl, rfl, rfl, rfl⟩)

theorem modGear_keeps {a1 a2} (hP : Within [.gear] P) (h0 : Keeps P s t) :
    Keeps P s (modGear a1 a2 t) := by
  unfold modGear
  exact (Keeps.upd h0 (by intro p hp; cases p <;> first | exact absurd (hP _ (by decide)) hp | rfl) ⟨rfl, rfl, rfl, rfl⟩)

theorem modAx_keeps {a1 a2} (hP : Within [.ax] P) (h0 : Keeps P s t) :
    Keeps P s (modAx a1 a2 t) := by
  unfold modAx
  exact (Keeps.upd h0 (by intro p hp; cases p <;> first | exact absurd (hP _ (by decide)) hp | rfl) ⟨rfl, rfl, rfl, rfl⟩)

theorem modMot_keeps {a1 a2} (hP : Within [.mot] P) (h0 : Keeps P s t) :
    Keeps P s (modMot a1 a2 t) := by
  unfold modMot
  exact (Keeps.upd h0 (by intro p hp; cases p <;> first | exact absurd (hP _ (by decide)) hp | rfl) ⟨rfl, rfl, rfl, rfl⟩)

theorem modHom_keeps {a1 a2} (hP : Within [.homing] P) (h0 : Keeps P s t) :
    Keeps P s (modHom a1 a2 t) := by
  unfold modHom
  exact (Keeps.upd h0 (by intro p hp; cases p <;> first | exact absurd (hP _ (by decide)) hp | rfl) ⟨rfl, rfl, rfl, rfl⟩)

theorem modLoop_keeps {a1 a2} (hP : Within [.loop] P) (h0 : Keeps P s t) :
    Keeps P s (modLoop a1 a2 t) := by
  unfold modLoop
  exact (Keeps.upd h0 (by intro p hp; cases p <;> first | exact absurd (hP _ (by decide)) hp | rfl) ⟨rfl, rfl, rfl, rfl⟩)

theorem homedLost_keeps {a1 a2} (hP : Within [.regs, .pts, .queues, .q0pend, .helm, .ax, .homing, .clu] P) (h0 : Keeps P s t) :
    Keeps P s (homedLost a1 a2 t) := by
  unfold homedLost
  extract_lets -merge -useContext x1 x2
  have h1 : Keeps P s x1 := (modHom_keeps (hP.of (by decide)) h0)
  clear_value x1
  have h2 : Keeps P s x2 := (iwBit_keeps (hP.of (by decide)) (bwBit_keeps (hP.of (by decide)) h1))
  clear_value x2
  exact (Keeps.ite (ev_keeps (hP.of (by decide)) h2) h0)

theorem modPg_keeps {a1 a2} (hP : Within [.pwmG] P) (h0 : Keeps P s t) :
    Keeps P s (modPg a1 a2 t) := by
  unfold modPg
  exact (Keeps.upd h0 (by intro p hp; cases p <;> first | exact absurd (hP _ (by decide)) hp | rfl) ⟨rfl, rfl, rfl, rfl⟩)

theorem modPa_keeps {a1 a2} (hP : Within [.pwmA] P) (h0 : Keeps P s t) :
    Keeps P s (modPa a1 a2 t) := by
  unfold modPa
  exact (Keeps.upd h0 (by intro p hp; cases p <;> first | exact absurd (hP _ (by decide)) hp | rfl) ⟨rfl, rfl, rfl, rfl⟩)

theorem cluRestart_keeps {a1} (hP : Within [.clu] P) (h0 : Keeps P s t) :
    Keeps P s (cluRestart a1 t) := by
  unfold cluRestart
  exact (modClu_keeps (hP.of (by decide)) h0)

theorem modSup_keeps {a1 a2} (hP : Within [.sup] P) (h0 : Keeps P s t) :
    Keeps P s (modSup a1 a2 t) := by
  unfold modSup
  exact (Keeps.upd h0 (by intro p hp; cases p <;> first | exact absurd (hP _ (by decide)) hp | rfl) ⟨rfl, rfl, rfl, rfl⟩)

theorem modEnv_keeps {a1 a2} (hP : Within [.env] P) (h0 : Keeps P s t) :
    Keeps P s (modEnv a1 a2 t) := by
  unfold modEnv
  exact (Keeps.upd h0 (by intro p hp; cases p <;> first | exact absurd (hP _ (by decide)) hp | rfl) ⟨rfl, rfl, rfl, rfl⟩)

theorem modStp_keeps {a1 a2} (hP : Within [.stp] P) (h0 : Keeps P s t) :
    Keeps P s (modStp a1 a2 t) := by
  unfold modStp
  exact (Keeps.upd h0 (by intro p hp; cases p <;> first | exact absurd (hP _ (by decide)) hp | rfl) ⟨rfl, rfl, rfl, rfl⟩)

theorem raiseEnc_keeps {a1 a2} (hP : Within [.regs, .pts, .queues, .clu] P) (h0 : Keeps P s t) :
    Keeps P s (raiseEnc a1 a2 t) := by
  unfold raiseEnc
  exact (forEach_keeps (fun _ _ h1 => (raiseTrig_keeps (hP.of (by decide)) h1)) h0)

theorem modEnc_keeps {a1 a2} (hP : Within [.enc] P) (h0 : Keeps P s t) :
    Keeps P s (modEnc a1 a2 t) := by
  unfold modEnc
  exact (Keeps.upd h0 (by intro p hp; cases p <;> first | exact absurd (hP _ (by decide)) hp | rfl) ⟨rfl, rfl, rfl, rfl⟩)

theorem modSdm_keeps {a1 a2} (hP : Within [.sdm] P) (h0 : Keeps P s t) :
    Keeps P s (modSdm a1 a2 t) := by
  unfold modSdm
  exact (Keeps.upd h0 (by intro p hp; cases p <;> first | exact absurd (hP _ (by decide)) hp | rfl) ⟨rfl, rfl, rfl, rfl⟩)

theorem modHk_keeps {a1 a2} (hP : Within [.hk] P) (h0 : Keeps P s t) :
    Keeps P s (modHk a1 a2 t) := by
  unfold modHk
  exact (Keeps.upd h0 (by intro p hp; cases p <;> first | exact absurd (hP _ (by decide)) hp | rfl) ⟨rfl, rfl, rfl, rfl⟩)

end Sys2Proof.Machine
end

