-- ==== Sys2Proof/Laws/KeepsTorque.lean ====
section
/-!
SUPPORT. What the operations of Machine/Torque.lean may touch, and that they keep the canonical form: one lemma per operation.
-/
namespace Sys2Proof.Machine

variable {P : List Part} {s t : State}

theorem rbOff_keeps (hP : Within [.regs, .drv] P) (h0 : Keeps P s t) :
    Keeps P s (rbOff t) := by
  unfold rbOff
  extract_lets -merge -useContext x1
  exact (bwBit_keeps (hP.of (by decide)) (bwBit_keeps (hP.of (by decide)) (Keeps.upd h0 (by intro p hp; cases p <;> first | exact absurd (hP _ (by decide)) hp | rfl) ⟨rfl, rfl, rfl, rfl⟩)))

theorem rbHalt_keeps (hP : Within [.regs, .drv] P) (h0 : Keeps P s t) :
    Keeps P s (rbHalt t) := by
  unfold rbHalt
  exact (Keeps.ite (rbOff_keeps (hP.of (by decide)) h0) h0)

theorem pathOff_keeps {a1} (hP : Within [.igrp] P) (h0 : Keeps P s t) :
    Keeps P s (pathOff a1 t) := by
  unfold pathOff
  split
  · exact (modIg_keeps (hP.of (by decide)) h0)
  · exact h0

theorem satEnd_keeps {a1} (hP : Within [.regs, .pts, .queues, .q0pend, .helm, .ax, .loop, .clu] P) (h0 : Keeps P s t) :
    Keeps P s (satEnd a1 t) := by
  unfold satEnd
  extract_lets -merge -useContext x1 x2
  have h2 : Keeps P s x2 := (modLoop_keeps (hP.of (by decide)) h0)
  clear_value x2
  exact (Keeps.ite (ev_keeps (hP.of (by decide)) h2) h2)

theorem rbCheck_keeps (hP : Within [.regs, .drv] P) (h0 : Keeps P s t) :
    Keeps P s (rbCheck t) := by
  unfold rbCheck
  exact (Keeps.ite (rbOff_keeps (hP.of (by decide)) h0) h0)

theorem torqueOff_keeps {a1} (hP : Within [.regs, .pts, .queues, .q0pend, .helm, .mot, .ax, .gear, .igrp, .homing, .loop, .clu, .drv, .adm] P) (h0 : Keeps P s t) :
    Keeps P s (torqueOff a1 t) := by
  unfold torqueOff
  extract_lets -merge -useContext x1 x2 x3 x4 x5 x6 x7 x8 x9 x10 x11 x12
  have h2 : Keeps P s x2 := (pathOff_keeps (hP.of (by decide)) (modGear_keeps (hP.of (by decide)) h0))
  clear_value x2
  have h3 : Keeps P s x3 := (modAx_keeps (hP.of (by decide)) h2)
  clear_value x3
  have h4 : Keeps P s x4 := (modMot_keeps (hP.of (by decide)) h3)
  clear_value x4
  have h6 : Keeps P s x6 := (Keeps.upd h4 (by intro p hp; cases p <;> first | exact absurd (hP _ (by decide)) hp | rfl) ⟨rfl, rfl, rfl, rfl⟩)
  clear_value x6
  have h7 : Keeps P s x7 := (modHom_keeps (hP.of (by decide)) h6)
  clear_value x7
  have h8 : Keeps P s x8 := (modLoop_keeps (hP.of (by decide)) (satEnd_keeps (hP.of (by decide)) h7))
  clear_value x8
  have h10 : Keeps P s x10 := (Keeps.dite (fun _ => (Keeps.upd h8 (by intro p hp; cases p <;> first | exact absurd (hP _ (by decide)) hp | rfl) ⟨rfl, rfl, rfl, rfl⟩)) (fun _ => h8))
  clear_value x10
  have h12 : Keeps P s x12 := (Keeps.ite (homedLost_keeps (hP.of (by decide)) h10) h10)
  clear_value x12
  exact (rbCheck_keeps (hP.of (by decide)) (bwBit_keeps (hP.of (by decide)) h12))

theorem groupOn_keeps {a1} (hP : Within [.regs, .pts, .pwmG, .drv] P) (h0 : Keeps P s t) :
    Keeps P s (groupOn a1 t) := by
  unfold groupOn
  extract_lets -merge -useContext x1 x2 x3 x4 x5 x6
  have h1 : Keeps P s x1 := (iwBit_keeps (hP.of (by decide)) (iwBit_keeps (hP.of (by decide)) h0))
  clear_value x1
  have h2 : Keeps P s x2 := (bwBit_keeps (hP.of (by decide)) (bwBit_keeps (hP.of (by decide)) h1))
  clear_value x2
  have h3 : Keeps P s x3 := (bwBit_keeps (hP.of (by decide)) (bwBit_keeps (hP.of (by decide)) h2))
  clear_value x3
  have h4 : Keeps P s x4 := (modPg_keeps (hP.of (by decide)) h3)
  clear_value x4
  have h6 : Keeps P s x6 := (Keeps.ite (Keeps.upd h4 (by intro p hp; cases p <;> first | exact absurd (hP _ (by decide)) hp | rfl) ⟨rfl, rfl, rfl, rfl⟩) h4)
  clear_value x6
  exact (sumUpd_keeps (hP.of (by decide)) h6)

theorem clearSlots_keeps {a1} (hP : Within [.pwmA] P) (h0 : Keeps P s t) :
    Keeps P s (clearSlots a1 t) := by
  unfold clearSlots
  exact (modPa_keeps (hP.of (by decide)) h0)

theorem sendOff_keeps {a1} (hP : Within [.regs, .drv] P) (h0 : Keeps P s t) :
    Keeps P s (sendOff a1 t) := by
  unfold sendOff
  extract_lets -merge -useContext x1 x2
  have h2 : Keeps P s x2 := (Keeps.upd h0 (by intro p hp; cases p <;> first | exact absurd (hP _ (by decide)) hp | rfl) ⟨rfl, rfl, rfl, rfl⟩)
  clear_value x2
  exact (Keeps.ite (bwSat_keeps (hP.of (by decide)) h2) h0)

theorem groupOff_keeps {a1} (hP : Within [.regs, .pts, .queues, .q0pend, .helm, .mot, .ax, .gear, .igrp, .homing, .pwmA, .loop, .clu, .drv, .adm] P) (h0 : Keeps P s t) :
    Keeps P s (groupOff a1 t) := by
  unfold groupOff
  extract_lets -merge -useContext x1 x2 x3
  have h1 : Keeps P s x1 := (iwBit_keeps (hP.of (by decide)) (bwBit_keeps (hP.of (by decide)) h0))
  clear_value x1
  have h2 : Keeps P s x2 := (forEach_keeps (fun _ _ h4 => (torqueOff_keeps (hP.of (by decide)) (clearSlots_keeps (hP.of (by decide)) h4))) h1)
  clear_value x2
  have h3 : Keeps P s x3 := (Keeps.ite (sendOff_keeps (hP.of (by decide)) h2) h2)
  clear_value x3
  exact (sumUpd_keeps (hP.of (by decide)) h3)

end Sys2Proof.Machine
end

