-- ==== Sys2Proof/Laws/KeepsDrive.lean ====
section
/-!
SUPPORT. What the operations of Machine/Drive.lean may touch, and that they keep the canonical form: one lemma per operation.
-/
namespace Sys2Proof.Machine

variable {P : List Part} {s t : State}

theorem badFrame_keeps {a1 a2} (hP : Within [.regs, .pts, .queues, .q0pend, .helm, .ax, .clu] P) (h0 : Keeps P s t) :
    Keeps P s (badFrame a1 a2 t) := by
  unfold badFrame
  exact (evOnce_keeps (hP.of (by decide)) (bwSat_keeps (hP.of (by decide)) h0))

theorem modDrv_keeps {a1} (hP : Within [.drv] P) (h0 : Keeps P s t) :
    Keeps P s (modDrv a1 t) := by
  unfold modDrv
  exact (Keeps.upd h0 (by intro p hp; cases p <;> first | exact absurd (hP _ (by decide)) hp | rfl) ⟨rfl, rfl, rfl, rfl⟩)

theorem bsLow_keeps {a1 a2 a3 a4 a5} (hP : Within [.regs, .pts, .queues, .q0pend, .helm, .ax, .clu, .drv] P) (h0 : Keeps P s t) :
    Keeps P s (bsLow a1 a2 a3 a4 a5 t) := by
  unfold bsLow
  extract_lets -merge -useContext x1 x2 x3 x4 x5
  have h4 : Keeps P s x4 := (modDrv_keeps (hP.of (by decide)) h0)
  clear_value x4
  have h5 : Keeps P s x5 := (bwBit_keeps (hP.of (by decide)) h4)
  clear_value x5
  exact (Keeps.ite h0 (Keeps.ite h5 (ev_keeps (hP.of (by decide)) h5)))

theorem dsClr_keeps {a1} (hP : Within [.drv] P) (h0 : Keeps P s t) :
    Keeps P s (dsClr a1 t) := by
  unfold dsClr
  exact (Keeps.ite (modDrv_keeps (hP.of (by decide)) h0) h0)

theorem rbOn_keeps (hP : Within [.regs, .drv] P) (h0 : Keeps P s t) :
    Keeps P s (rbOn t) := by
  unfold rbOn
  exact (Keeps.ite (bwBit_keeps (hP.of (by decide)) (bwBit_keeps (hP.of (by decide)) (modDrv_keeps (hP.of (by decide)) h0))) h0)

theorem drvRbWrite_keeps {a1} (hP : Within [.regs, .drv] P) (h0 : Keeps P s t) :
    Keeps P s (drvRbWrite a1 t) := by
  unfold drvRbWrite
  extract_lets -merge -useContext x1 x2
  have h2 : Keeps P s x2 := (bw_keeps (hP.of (by decide)) h0)
  clear_value x2
  exact (Keeps.ite h0 (Keeps.ite (rbOn_keeps (hP.of (by decide)) h2) (Keeps.ite (bwBit_keeps (hP.of (by decide)) (modDrv_keeps (hP.of (by decide)) h2)) (rbOff_keeps (hP.of (by decide)) h2))))

theorem drvFault_keeps {a1 a2 a3 a4} (hP : Within [.regs, .pts, .queues, .q0pend, .helm, .ax, .clu] P) (h0 : Keeps P s t) :
    Keeps P s (drvFault a1 a2 a3 a4 t) := by
  unfold drvFault
  exact (Keeps.ite (raise_keeps (hP.of (by decide)) h0) (ev_keeps (hP.of (by decide)) h0))

theorem checkSlots_keeps {p q} (hP : Within [.regs, .pts, .queues, .q0pend, .helm, .ax, .clu] P) : ∀ {l : List SlotRec} {k : Nat} {t : State},
    Keeps P s t → Keeps P s (checkSlots p q k l t).2
  | [], _, _, h => h
  | r :: l, k, t, h => by
    unfold checkSlots
    extract_lets n
    split
    rename_i e1
    have h1 := Keeps.ofEq e1 (Keeps.ite2 (drvFault_keeps (hP.of (by decide)) (bwBit_keeps (hP.of (by decide)) h))
      (Keeps.ite2 (drvFault_keeps (hP.of (by decide)) (bwBit_keeps (hP.of (by decide)) h)) h))
    split
    rename_i e2
    exact Keeps.ofEq e2 (checkSlots_keeps hP h1)

theorem drvCommit_keeps {a1} (hP : Within [.regs, .pts, .queues, .q0pend, .helm, .ax, .clu] P) (h0 : Keeps P s t) :
    Keeps P s (drvCommit a1 t) := by
  unfold drvCommit
  extract_lets -merge -useContext x1 x2
  clear_value x1
  have h2 : Keeps P s x2 := (bwBit_keeps (hP.of (by decide)) h0)
  clear_value x2
  split
  · exact (ev_keeps (hP.of (by decide)) h2)
  · exact (copySet_keeps (hP.of (by decide)) h2)

theorem drvCommits_keeps {a1} (hP : Within [.regs, .pts, .queues, .q0pend, .helm, .ax, .clu] P) (h0 : Keeps P s t) :
    Keeps P s (drvCommits a1 t) := by
  unfold drvCommits
  exact (forEach_keeps (fun _ _ h1 => (Keeps.ite (drvCommit_keeps (hP.of (by decide)) h1) h1)) h0)

theorem desat_keeps {a1 a2 a3 a4 a5} (hP : Within [.regs, .pts, .queues, .q0pend, .helm, .ax, .clu, .drv] P) (h0 : Keeps P s t) :
    Keeps P s (desat a1 a2 a3 a4 a5 t) := by
  unfold desat
  extract_lets -merge -useContext x1 x2 x3 x4 x5 x6
  have h4 : Keeps P s x4 := (modDrv_keeps (hP.of (by decide)) h0)
  clear_value x4
  have h5 : Keeps P s x5 := (Keeps.ite (ev_keeps (hP.of (by decide)) h4) h4)
  clear_value x5
  have h6 : Keeps P s x6 := (modDrv_keeps (hP.of (by decide)) h5)
  clear_value x6
  exact (Keeps.ite h0 (Keeps.ite (drvFault_keeps (hP.of (by decide)) h6) h5))

theorem linkLost_keeps {a1} (hP : Within [.regs, .pts, .queues, .q0pend, .helm, .ax, .clu, .drv] P) (h0 : Keeps P s t) :
    Keeps P s (linkLost a1 t) := by
  unfold linkLost
  extract_lets -merge -useContext x1 x2
  have h1 : Keeps P s x1 := (modDrv_keeps (hP.of (by decide)) h0)
  clear_value x1
  have h2 : Keeps P s x2 := (bwBit_keeps (hP.of (by decide)) (bwBit_keeps (hP.of (by decide)) h1))
  clear_value x2
  exact (Keeps.ite h0 (drvFault_keeps (hP.of (by decide)) h2))

theorem missFrame_keeps {a1} (hP : Within [.regs, .pts, .queues, .q0pend, .helm, .ax, .clu, .drv] P) (h0 : Keeps P s t) :
    Keeps P s (missFrame a1 t) := by
  unfold missFrame
  extract_lets -merge -useContext x1 x2 x3
  have h1 : Keeps P s x1 := (Keeps.ite (modDrv_keeps (hP.of (by decide)) h0) (badFrame_keeps (hP.of (by decide)) h0))
  clear_value x1
  have h3 : Keeps P s x3 := (modDrv_keeps (hP.of (by decide)) h1)
  clear_value x3
  exact (Keeps.ite (linkLost_keeps (hP.of (by decide)) h3) h3)

theorem driveBoundary_keeps {a1} (hP : Within [.regs, .pts, .queues, .q0pend, .helm, .ax, .clu, .drv] P) (h0 : Keeps P s t) :
    Keeps P s (driveBoundary a1 t) := by
  unfold driveBoundary
  extract_lets -merge -useContext x1 x2 x3 x4 x5 x6 x7
  have h5 : Keeps P s x5 := (modDrv_keeps (hP.of (by decide)) h0)
  clear_value x5
  have h6 : Keeps P s x6 := (by
    unfold x6
    split
    · exact (Keeps.ite (drvCommits_keeps (hP.of (by decide)) (modDrv_keeps (hP.of (by decide)) h5)) h5)
    · exact h5)
  clear_value x6
  have h7 : Keeps P s x7 := (modDrv_keeps (hP.of (by decide)) h6)
  clear_value x7
  exact (Keeps.ite h0 (by
    split
    · extract_lets -merge -useContext x8
      exact (Keeps.ite (modDrv_keeps (hP.of (by decide)) h6) (missFrame_keeps (hP.of (by decide)) (modDrv_keeps (hP.of (by decide)) h6)))
    · exact (Keeps.ite h7 (missFrame_keeps (hP.of (by decide)) h7))))

theorem execDrvLinkTrained_keeps {a1} (hP : Within [.now, .regs, .drv] P) (h0 : Keeps P s t) :
    Runs P s (execDrvLinkTrained a1 t) := by
  unfold execDrvLinkTrained
  extract_lets -merge -useContext x1
  have h1 : Keeps P s x1 := (atTime_keeps (hP.of (by decide)) h0)
  clear_value x1
  exact (Runs.next (Keeps.ite (bwBit_keeps (hP.of (by decide)) (bwBit_keeps (hP.of (by decide)) (modDrv_keeps (hP.of (by decide)) h1))) h1))

theorem execDrvLinkFail_keeps {a1 a2} (hP : Within [.now, .regs, .pts, .queues, .q0pend, .helm, .ax, .clu] P) (h0 : Keeps P s t) :
    Runs P s (execDrvLinkFail a1 a2 t) := by
  unfold execDrvLinkFail
  extract_lets -merge -useContext x1
  have h1 : Keeps P s x1 := (atTime_keeps (hP.of (by decide)) h0)
  clear_value x1
  exact (Runs.next (Keeps.ite (raiseDev_keeps (hP.of (by decide)) h1) h1))

theorem takeSched_keeps {a1} (hP : Within [.regs, .pts, .queues, .q0pend, .helm, .ax, .clu, .drv] P) (h0 : Keeps P s t) :
    Keeps P s (takeSched a1 t) := by
  unfold takeSched
  extract_lets -merge -useContext x1
  exact (Keeps.ite h0 (Keeps.ite (badFrame_keeps (hP.of (by decide)) (modDrv_keeps (hP.of (by decide)) h0)) (by
    split
    rename_i x2 e2
    have h2 : Keeps P s x2 := Keeps.ofEq e2 (checkSlots_keeps (hP.of (by decide)) h0)
    exact (modDrv_keeps (hP.of (by decide)) h2))))

theorem execSched_keeps {a1 a2} (hP : Within [.now, .regs, .pts, .queues, .q0pend, .helm, .ax, .clu, .drv] P) (h0 : Keeps P s t) :
    Runs P s (execSched a1 a2 t) := by
  unfold execSched
  exact (Runs.next (takeSched_keeps (hP.of (by decide)) (atTime_keeps (hP.of (by decide)) h0)))

theorem preEnd_keeps {a1 a2} (hP : Within [.ax, .drv] P) (h0 : Keeps P s t) :
    Keeps P s (preEnd a1 a2 t) := by
  unfold preEnd
  extract_lets -merge -useContext x1
  have h1 : Keeps P s x1 := (modDrv_keeps (hP.of (by decide)) h0)
  clear_value x1
  exact (Keeps.ite (modAx_keeps (hP.of (by decide)) h1) h1)

theorem offAct_keeps {a1} (hP : Within [.ax, .drv] P) (h0 : Keeps P s t) :
    Keeps P s (offAct a1 t) := by
  unfold offAct
  extract_lets -merge -useContext x1 x2
  have h2 : Keeps P s x2 := (modDrv_keeps (hP.of (by decide)) h0)
  clear_value x2
  exact (forEach_keeps (fun _ _ h3 => (Keeps.ite (preEnd_keeps (hP.of (by decide)) h3) h3)) h2)

theorem takeOff_keeps {a1 a2} (hP : Within [.regs, .ax, .drv] P) (h0 : Keeps P s t) :
    Keeps P s (takeOff a1 a2 t) := by
  unfold takeOff
  extract_lets -merge -useContext x1 x2 x3
  have h1 : Keeps P s x1 := (modDrv_keeps (hP.of (by decide)) h0)
  clear_value x1
  have h2 : Keeps P s x2 := (Keeps.ite h1 (bwSat_keeps (hP.of (by decide)) h1))
  clear_value x2
  have h3 : Keeps P s x3 := (Keeps.ite h2 (bwSat_keeps (hP.of (by decide)) h2))
  clear_value x3
  exact (Keeps.ite h0 (Keeps.ite h1 (Keeps.ite (offAct_keeps (hP.of (by decide)) h3) (Keeps.ite (offAct_keeps (hP.of (by decide)) h3) h3))))

theorem execDrvOff_keeps {a1 a2 a3} (hP : Within [.now, .regs, .ax, .drv] P) (h0 : Keeps P s t) :
    Runs P s (execDrvOff a1 a2 a3 t) := by
  unfold execDrvOff
  exact (Runs.next (takeOff_keeps (hP.of (by decide)) (atTime_keeps (hP.of (by decide)) h0)))

theorem execCfg_keeps {a1 a2} (hP : Within [.now, .drv] P) (h0 : Keeps P s t) :
    Runs P s (execCfg a1 a2 t) := by
  unfold execCfg
  extract_lets -merge -useContext x1
  have h1 : Keeps P s x1 := (atTime_keeps (hP.of (by decide)) h0)
  clear_value x1
  exact (Runs.next (Keeps.ite h1 (modDrv_keeps (hP.of (by decide)) h1)))

theorem takeIdle_keeps {a1 a2} (hP : Within [.regs, .pts, .queues, .q0pend, .helm, .ax, .clu, .drv] P) (h0 : Keeps P s t) :
    Keeps P s (takeIdle a1 a2 t) := by
  unfold takeIdle
  extract_lets -merge -useContext x1 x2
  have h1 : Keeps P s x1 := (modDrv_keeps (hP.of (by decide)) h0)
  clear_value x1
  have h2 : Keeps P s x2 := (badFrame_keeps (hP.of (by decide)) h1)
  clear_value x2
  exact (Keeps.ite h0 (Keeps.ite (drvCommits_keeps (hP.of (by decide)) (modDrv_keeps (hP.of (by decide)) h1)) (Keeps.ite (linkLost_keeps (hP.of (by decide)) h2) h2)))

theorem execIdle_keeps {a1 a2} (hP : Within [.now, .regs, .pts, .queues, .q0pend, .helm, .ax, .clu, .drv] P) (h0 : Keeps P s t) :
    Runs P s (execIdle a1 a2 t) := by
  unfold execIdle
  exact (Runs.next (takeIdle_keeps (hP.of (by decide)) (atTime_keeps (hP.of (by decide)) h0)))

theorem takeStat_keeps {a1} (hP : Within [.regs, .drv] P) (h0 : Keeps P s t) :
    Keeps P s (takeStat a1 t) := by
  unfold takeStat
  extract_lets -merge -useContext x1 x2 x3 x4 x5
  have h1 : Keeps P s x1 := (modDrv_keeps (hP.of (by decide)) h0)
  clear_value x1
  have h2 : Keeps P s x2 := (bw_keeps (hP.of (by decide)) h1)
  clear_value x2
  have h3 : Keeps P s x3 := (forEach_keeps (fun _ _ h6 => (by
    extract_lets -merge -useContext x7 x8 x9 x10
    have h8 : Keeps P s x8 := (iw_keeps (hP.of (by decide)) h6)
    clear_value x8
    have h9 : Keeps P s x9 := (iw_keeps (hP.of (by decide)) h8)
    clear_value x9
    have h10 : Keeps P s x10 := (iw_keeps (hP.of (by decide)) h9)
    clear_value x10
    exact (iw_keeps (hP.of (by decide)) h10))) h2)
  clear_value x3
  exact (Keeps.ite h0 (Keeps.ite (modDrv_keeps (hP.of (by decide)) h3) (sendOff_keeps (hP.of (by decide)) (modDrv_keeps (hP.of (by decide)) h3))))

theorem execStat_keeps {a1 a2 a3} (hP : Within [.now, .regs, .drv] P) (h0 : Keeps P s t) :
    Runs P s (execStat a1 a2 a3 t) := by
  unfold execStat
  extract_lets -merge -useContext x1
  have h1 : Keeps P s x1 := (atTime_keeps (hP.of (by decide)) h0)
  clear_value x1
  exact (Runs.next (Keeps.ite (takeStat_keeps (hP.of (by decide)) h1) h1))

theorem execDrvLinkLost_keeps {a1 a2} (hP : Within [.now, .regs, .pts, .queues, .q0pend, .helm, .ax, .clu, .drv] P) (h0 : Keeps P s t) :
    Runs P s (execDrvLinkLost a1 a2 t) := by
  unfold execDrvLinkLost
  extract_lets -merge -useContext x1
  have h1 : Keeps P s x1 := (atTime_keeps (hP.of (by decide)) h0)
  clear_value x1
  exact (Runs.next (Keeps.ite h1 (Keeps.ite (linkLost_keeps (hP.of (by decide)) h1) (Keeps.ite (linkLost_keeps (hP.of (by decide)) h1) h1))))

theorem execDrvDesat_keeps {a1 a2 a3 a4 a5} (hP : Within [.now, .regs, .pts, .queues, .q0pend, .helm, .ax, .clu, .drv] P) (h0 : Keeps P s t) :
    Runs P s (execDrvDesat a1 a2 a3 a4 a5 t) := by
  unfold execDrvDesat
  exact (Runs.next (desat_keeps (hP.of (by decide)) (atTime_keeps (hP.of (by decide)) h0)))

theorem execDrvDsclr_keeps {a1} (hP : Within [.drv] P) (h0 : Keeps P s t) :
    Runs P s (execDrvDsclr a1 t) := by
  unfold execDrvDsclr
  exact (Runs.next (dsClr_keeps (hP.of (by decide)) h0))

theorem execBsLow_keeps {a1 a2 a3 a4 a5} (hP : Within [.now, .regs, .pts, .queues, .q0pend, .helm, .ax, .clu, .drv] P) (h0 : Keeps P s t) :
    Runs P s (execBsLow a1 a2 a3 a4 a5 t) := by
  unfold execBsLow
  exact (Runs.next (bsLow_keeps (hP.of (by decide)) (atTime_keeps (hP.of (by decide)) h0)))

theorem execVgdOutOfRange_keeps {a1 a2} (hP : Within [.now, .regs, .pts, .queues, .q0pend, .helm, .ax, .clu, .drv] P) (h0 : Keeps P s t) :
    Runs P s (execVgdOutOfRange a1 a2 t) := by
  unfold execVgdOutOfRange
  extract_lets -merge -useContext x1
  have h1 : Keeps P s x1 := (atTime_keeps (hP.of (by decide)) h0)
  clear_value x1
  exact (Runs.next (Keeps.ite h1 (Keeps.ite (drvFault_keeps (hP.of (by decide)) (bwBit_keeps (hP.of (by decide)) (modDrv_keeps (hP.of (by decide)) h1))) (Keeps.ite (drvFault_keeps (hP.of (by decide)) (bwBit_keeps (hP.of (by decide)) (modDrv_keeps (hP.of (by decide)) h1))) h1))))

theorem execDrvVbrOv_keeps {a1 a2 a3} (hP : Within [.now, .regs, .pts, .queues, .q0pend, .helm, .ax, .clu, .drv] P) (h0 : Keeps P s t) :
    Runs P s (execDrvVbrOv a1 a2 a3 t) := by
  unfold execDrvVbrOv
  extract_lets -merge -useContext x1
  have h1 : Keeps P s x1 := (atTime_keeps (hP.of (by decide)) h0)
  clear_value x1
  exact (Runs.next (Keeps.ite (drvFault_keeps (hP.of (by decide)) (bwBit_keeps (hP.of (by decide)) (modDrv_keeps (hP.of (by decide)) h1))) h1))

theorem execDrvOvertemp_keeps {a1} (hP : Within [.now, .regs, .pts, .queues, .q0pend, .helm, .ax, .clu, .drv] P) (h0 : Keeps P s t) :
    Runs P s (execDrvOvertemp a1 t) := by
  unfold execDrvOvertemp
  extract_lets -merge -useContext x1
  have h1 : Keeps P s x1 := (atTime_keeps (hP.of (by decide)) h0)
  clear_value x1
  exact (Runs.next (Keeps.ite (raiseDev_keeps (hP.of (by decide)) (bwBit_keeps (hP.of (by decide)) (modDrv_keeps (hP.of (by decide)) h1))) h1))

theorem execShootGate_keeps {a1 a2 a3} (hP : Within [.now, .regs, .pts, .queues, .q0pend, .helm, .ax, .clu, .drv] P) (h0 : Keeps P s t) :
    Runs P s (execShootGate a1 a2 a3 t) := by
  unfold execShootGate
  extract_lets -merge -useContext x1 x2
  have h1 : Keeps P s x1 := (atTime_keeps (hP.of (by decide)) h0)
  clear_value x1
  have h2 : Keeps P s x2 := (modDrv_keeps (hP.of (by decide)) h1)
  clear_value x2
  exact (Runs.next (Keeps.ite (drvFault_keeps (hP.of (by decide)) (bwBit_keeps (hP.of (by decide)) h2)) h1))

theorem prechargeEnd_keeps {a1 a2 a3} (hP : Within [.regs, .pts, .queues, .q0pend, .helm, .ax, .clu, .drv] P) (h0 : Keeps P s t) :
    Keeps P s (prechargeEnd a1 a2 a3 t) := by
  unfold prechargeEnd
  extract_lets -merge -useContext x1 x2 x3 x4
  have h4 : Keeps P s x4 := (bwBit_keeps (hP.of (by decide)) h0)
  clear_value x4
  exact (Keeps.ite h0 (by
    split
    · exact (modAx_keeps (hP.of (by decide)) (modDrv_keeps (hP.of (by decide)) h0))
    · extract_lets -merge -useContext x5
      have h5 : Keeps P s x5 := (ev_keeps (hP.of (by decide)) h4)
      clear_value x5
      exact (preEnd_keeps (hP.of (by decide)) h5)))

theorem execPrechargeEnd_keeps {a1 a2 a3} (hP : Within [.now, .regs, .pts, .queues, .q0pend, .helm, .ax, .clu, .drv] P) (h0 : Keeps P s t) :
    Runs P s (execPrechargeEnd a1 a2 a3 t) := by
  unfold execPrechargeEnd
  exact (Runs.next (prechargeEnd_keeps (hP.of (by decide)) (atTime_keeps (hP.of (by decide)) h0)))

theorem execDrvRbWrite_keeps {a1} (hP : Within [.regs, .drv] P) (h0 : Keeps P s t) :
    Runs P s (execDrvRbWrite a1 t) := by
  unfold execDrvRbWrite
  exact (Runs.next (drvRbWrite_keeps (hP.of (by decide)) h0))

theorem execRbFault_keeps {a1 a2 a3} (hP : Within [.now, .regs, .pts, .queues, .q0pend, .helm, .ax, .clu, .drv] P) (h0 : Keeps P s t) :
    Runs P s (execRbFault a1 a2 a3 t) := by
  unfold execRbFault
  extract_lets -merge -useContext x1
  have h1 : Keeps P s x1 := (atTime_keeps (hP.of (by decide)) h0)
  clear_value x1
  exact (Runs.next (Keeps.ite (drvFault_keeps (hP.of (by decide)) (bwBit_keeps (hP.of (by decide)) (rbOff_keeps (hP.of (by decide)) h1))) h1))

theorem execVgdBackInRange_keeps {a1 a2} (hP : Within [.now, .regs, .drv] P) (h0 : Keeps P s t) :
    Runs P s (execVgdBackInRange a1 a2 t) := by
  unfold execVgdBackInRange
  extract_lets -merge -useContext x1
  have h1 : Keeps P s x1 := (atTime_keeps (hP.of (by decide)) h0)
  clear_value x1
  exact (Runs.next (Keeps.ite (rbOn_keeps (hP.of (by decide)) (bwBit_keeps (hP.of (by decide)) (modDrv_keeps (hP.of (by decide)) h1))) h1))

theorem execVbrBackBelow64v_keeps {a1 a2} (hP : Within [.now, .regs, .drv] P) (h0 : Keeps P s t) :
    Runs P s (execVbrBackBelow64v a1 a2 t) := by
  unfold execVbrBackBelow64v
  extract_lets -merge -useContext x1
  have h1 : Keeps P s x1 := (atTime_keeps (hP.of (by decide)) h0)
  clear_value x1
  exact (Runs.next (Keeps.ite (bwBit_keeps (hP.of (by decide)) (modDrv_keeps (hP.of (by decide)) h1)) h1))

end Sys2Proof.Machine
end

