-- ==== Sys2Proof/Laws/KeepsAdmission.lean ====
section
/-!
SUPPORT. What the operations of Machine/Admission.lean may touch, and that they keep the canonical form: one lemma per operation.
-/
namespace Sys2Proof.Machine

variable {P : List Part} {s t : State}

theorem pmuCommit_keeps {a1} (hP : Within [.regs, .pts, .queues, .q0pend, .helm, .ax, .clu] P) (h0 : Keeps P s t) :
    Keeps P s (pmuCommit a1 t) := by
  unfold pmuCommit
  extract_lets -merge -useContext x1 x2
  have h2 : Keeps P s x2 := (bwBit_keeps (hP.of (by decide)) h0)
  clear_value x2
  exact (Keeps.ite (ev_keeps (hP.of (by decide)) h2) (copySet_keeps (hP.of (by decide)) h2))

theorem admPublish_keeps (hP : Within [.regs] P) (h0 : Keeps P s t) :
    Keeps P s (admPublish t) := by
  unfold admPublish
  extract_lets -merge -useContext x1 x2 x3
  have h2 : Keeps P s x2 := (bw_keeps (hP.of (by decide)) h0)
  clear_value x2
  have h3 : Keeps P s x3 := (bw_keeps (hP.of (by decide)) h2)
  clear_value x3
  exact (forEach_keeps (fun _ _ h4 => (by
    extract_lets -merge -useContext x5 x6
    exact (iw_keeps (hP.of (by decide)) h4))) h3)

theorem admWithdraw_keeps {a1} (hP : Within [.regs, .adm] P) (h0 : Keeps P s t) :
    Keeps P s (admWithdraw a1 t) := by
  unfold admWithdraw
  extract_lets -merge -useContext x1
  exact (admPublish_keeps (hP.of (by decide)) (Keeps.upd h0 (by intro p hp; cases p <;> first | exact absurd (hP _ (by decide)) hp | rfl) ⟨rfl, rfl, rfl, rfl⟩))

theorem startTimeout_keeps {a1} (hP : Within [.regs, .pts, .queues, .q0pend, .helm, .ax, .clu, .adm] P) (h0 : Keeps P s t) :
    Keeps P s (startTimeout a1 t) := by
  unfold startTimeout
  extract_lets -merge -useContext x1 x2
  have h1 : Keeps P s x1 := (bwSat_keeps (hP.of (by decide)) (admWithdraw_keeps (hP.of (by decide)) h0))
  clear_value x1
  split
  · extract_lets -merge -useContext x3
    have h3 : Keeps P s x3 := (Keeps.ite (modAx_keeps (hP.of (by decide)) h1) h1)
    clear_value x3
    exact (raiseAx_keeps (hP.of (by decide)) h3)
  · exact (Keeps.ite (raiseDev_keeps (hP.of (by decide)) h1) (ev_keeps (hP.of (by decide)) h1))

theorem timeouts_keeps {a1 a2} (hP : Within [.regs, .pts, .queues, .q0pend, .helm, .ax, .clu, .adm] P) (h0 : Keeps P s t) :
    Keeps P s (timeouts a1 a2 t) := by
  unfold timeouts
  exact (forEach_keeps (fun _ _ h1 => (startTimeout_keeps (hP.of (by decide)) h1)) h0)

theorem grantAct_keeps {a1} (hP : Within [.ax, .drv, .adm] P) (h0 : Keeps P s t) :
    Keeps P s (grantAct a1 t) := by
  unfold grantAct
  extract_lets -merge -useContext x1 x2 x3
  split
  · exact (Keeps.ite h0 (Keeps.dite (fun _ => (Keeps.upd h0 (by intro p hp; cases p <;> first | exact absurd (hP _ (by decide)) hp | rfl) ⟨rfl, rfl, rfl, rfl⟩)) (fun _ => (modAx_keeps (hP.of (by decide)) h0))))
  · exact (Keeps.ite (Keeps.upd h0 (by intro p hp; cases p <;> first | exact absurd (hP _ (by decide)) hp | rfl) ⟨rfl, rfl, rfl, rfl⟩) (Keeps.upd h0 (by intro p hp; cases p <;> first | exact absurd (hP _ (by decide)) hp | rfl) ⟨rfl, rfl, rfl, rfl⟩))

theorem grants_keeps {a1} (hP : Within [.regs, .pts, .queues, .q0pend, .helm, .ax, .clu, .drv, .adm] P) : ∀ {k : Nat} {t : State}, Keeps P s t → Keeps P s (grants a1 k t)
  | 0, _, h => h
  | k + 1, t, h => by
    unfold grants
    split
    · exact h
    · refine Keeps.ite ?_ h
      extract_lets -merge -useContext y x z
      have hx : Keeps P s x := Keeps.upd h (by intro p hp; cases p <;> first | exact absurd (hP _ (by decide)) hp | rfl) ⟨rfl, rfl, rfl, rfl⟩
      clear_value y x
      exact grants_keeps hP (grantAct_keeps (hP.of (by decide)) (Keeps.ite (ev_keeps (hP.of (by decide)) hx) hx))

theorem admEvaluate_keeps {a1} (hP : Within [.regs, .pts, .queues, .q0pend, .helm, .ax, .clu, .drv, .adm] P) (h0 : Keeps P s t) :
    Keeps P s (admEvaluate a1 t) := by
  unfold admEvaluate
  extract_lets -merge -useContext x1 x2 x3 x4 x5 x6
  have h1 : Keeps P s x1 := (forEach_keeps (fun _ _ h7 => (Keeps.ite (pmuCommit_keeps (hP.of (by decide)) h7) h7)) h0)
  clear_value x1
  have h2 : Keeps P s x2 := (timeouts_keeps (hP.of (by decide)) h1)
  clear_value x2
  have h4 : Keeps P s x4 := (Keeps.upd h2 (by intro p hp; cases p <;> first | exact absurd (hP _ (by decide)) hp | rfl) ⟨rfl, rfl, rfl, rfl⟩)
  clear_value x4
  have h6 : Keeps P s x6 := (Keeps.upd h4 (by intro p hp; cases p <;> first | exact absurd (hP _ (by decide)) hp | rfl) ⟨rfl, rfl, rfl, rfl⟩)
  clear_value x6
  exact (admPublish_keeps (hP.of (by decide)) (timeouts_keeps (hP.of (by decide)) (grants_keeps (hP.of (by decide)) h6)))

theorem admRequest_keeps {a1 a2 a3 a4} (hP : Within [.regs, .ax, .drv, .adm] P) (h0 : Keeps P s t) :
    Keeps P s (admRequest a1 a2 a3 a4 t) := by
  unfold admRequest
  extract_lets -merge -useContext x1
  exact (Keeps.ite (grantAct_keeps (hP.of (by decide)) h0) (admPublish_keeps (hP.of (by decide)) (Keeps.upd h0 (by intro p hp; cases p <;> first | exact absurd (hP _ (by decide)) hp | rfl) ⟨rfl, rfl, rfl, rfl⟩)))

theorem axRequest_keeps {a1} (hP : Within [.regs, .ax, .drv, .adm] P) (h0 : Keeps P s t) :
    Keeps P s (axRequest a1 t) := by
  unfold axRequest
  extract_lets -merge -useContext x1
  exact (admRequest_keeps (hP.of (by decide)) h0)

theorem execAdmissionEvaluation_keeps {a1} (hP : Within [.now, .regs, .pts, .queues, .q0pend, .helm, .ax, .clu, .drv, .adm] P) (h0 : Keeps P s t) :
    Runs P s (execAdmissionEvaluation a1 t) := by
  unfold execAdmissionEvaluation
  extract_lets -merge -useContext x1
  have h1 : Keeps P s x1 := (atTime_keeps (hP.of (by decide)) h0)
  clear_value x1
  exact (Runs.next (Keeps.ite (admEvaluate_keeps (hP.of (by decide)) h1) h1))

theorem execStartTimeout_keeps {a1} (hP : Within [.now, .regs, .pts, .queues, .q0pend, .helm, .ax, .clu, .adm] P) (h0 : Keeps P s t) :
    Runs P s (execStartTimeout a1 t) := by
  unfold execStartTimeout
  exact (Runs.next (admPublish_keeps (hP.of (by decide)) (timeouts_keeps (hP.of (by decide)) (atTime_keeps (hP.of (by decide)) h0))))

theorem execPmuStartBudgetWrite_keeps {a1} (hP : Within [.regs] P) (h0 : Keeps P s t) :
    Runs P s (execPmuStartBudgetWrite a1 t) := by
  unfold execPmuStartBudgetWrite
  exact (Runs.next (bw_keeps (hP.of (by decide)) h0))

end Sys2Proof.Machine
end

