-- ==== Sys2Proof/Laws/KeepsExchange.lean ====
section
/-!
SUPPORT. What the operations of Machine/Exchange.lean may touch, and that they keep the canonical form: one lemma per operation.
-/
namespace Sys2Proof.Machine

variable {P : List Part} {s t : State}

theorem putX_keeps {a1 a2 a3} (hP : Within [.clu] P) (h0 : Keeps P s t) :
    Keeps P s (putX a1 a2 a3 t) := by
  unfold putX
  exact (modClu_keeps (hP.of (by decide)) h0)

theorem putXb_keeps {a1 a2 a3} (hP : Within [.clu] P) (h0 : Keeps P s t) :
    Keeps P s (putXb a1 a2 a3 t) := by
  unfold putXb
  exact (putX_keeps (hP.of (by decide)) h0)

theorem putXb64_keeps {a1 a2 a3} (hP : Within [.clu] P) (h0 : Keeps P s t) :
    Keeps P s (putXb64 a1 a2 a3 t) := by
  unfold putXb64
  exact (putXb_keeps (hP.of (by decide)) (putXb_keeps (hP.of (by decide)) h0))

theorem writeCommand_keeps {a1 a2 a3 a4 a5 a6 a7} (hP : Within [.clu] P) (h0 : Keeps P s t) :
    Keeps P s (writeCommand a1 a2 a3 a4 a5 a6 a7 t) := by
  unfold writeCommand
  extract_lets -merge -useContext x1 x2
  have h2 : Keeps P s x2 := (putXb_keeps (hP.of (by decide)) (putXb_keeps (hP.of (by decide)) (putXb64_keeps (hP.of (by decide)) h0)))
  clear_value x2
  exact (putXb_keeps (hP.of (by decide)) (putXb_keeps (hP.of (by decide)) (putXb_keeps (hP.of (by decide)) h2)))

theorem statusCopy_keeps {a1} (hP : Within [.pts] P) (h0 : Keeps P s t) :
    Keeps P s (statusCopy a1 t) := by
  unfold statusCopy
  extract_lets -merge -useContext x1
  have h1 : Keeps P s x1 := (setPt64_keeps (hP.of (by decide)) h0)
  clear_value x1
  exact (setAp_keeps (hP.of (by decide)) (setAp_keeps (hP.of (by decide)) (setAp_keeps (hP.of (by decide)) h1)))

theorem writeSample_keeps {a1 a2 a3 a4 a5 a6 a7 a8 a9} (hP : Within [.clu] P) (h0 : Keeps P s t) :
    Keeps P s (writeSample a1 a2 a3 a4 a5 a6 a7 a8 a9 t) := by
  unfold writeSample
  extract_lets -merge -useContext x1 x2 x3
  have h2 : Keeps P s x2 := (putXb_keeps (hP.of (by decide)) (putXb_keeps (hP.of (by decide)) (putXb_keeps (hP.of (by decide)) h0)))
  clear_value x2
  have h3 : Keeps P s x3 := (putXb_keeps (hP.of (by decide)) (putXb_keeps (hP.of (by decide)) (putXb64_keeps (hP.of (by decide)) h2)))
  clear_value x3
  exact (putXb_keeps (hP.of (by decide)) (putXb64_keeps (hP.of (by decide)) h3))

end Sys2Proof.Machine
end

