-- ==== Sys2Proof/Laws/KeepsFeedback.lean ====
section
/-!
SUPPORT. What the operations of Machine/Feedback.lean may touch, and that they keep the canonical form: one lemma per operation.
-/
namespace Sys2Proof.Machine

variable {P : List Part} {s t : State}

theorem setStat_keeps {a1 a2 a3} (hP : Within [.regs] P) (h0 : Keeps P s t) :
    Keeps P s (setStat a1 a2 a3 t) := by
  unfold setStat
  exact (iwBit_keeps (hP.of (by decide)) h0)

theorem clearUncertain_keeps {a1} (hP : Within [.regs] P) (h0 : Keeps P s t) :
    Keeps P s (clearUncertain a1 t) := by
  unfold clearUncertain
  extract_lets -merge -useContext x1
  have h1 : Keeps P s x1 := (bwBit_keeps (hP.of (by decide)) (setStat_keeps (hP.of (by decide)) h0))
  clear_value x1
  exact (Keeps.ite h1 (iw_keeps (hP.of (by decide)) h1))

theorem homeRef_keeps {a1 a2 a3} (hP : Within [.homing] P) (h0 : Keeps P s t) :
    Keeps P s (homeRef a1 a2 a3 t) := by
  unfold homeRef
  split
  · exact (modHom_keeps (hP.of (by decide)) h0)
  · exact h0

theorem latchCapture_keeps {a1 a2 a3} (hP : Within [.regs, .pts, .queues, .q0pend, .helm, .ax, .homing, .clu] P) (h0 : Keeps P s t) :
    Keeps P s (latchCapture a1 a2 a3 t) := by
  unfold latchCapture
  extract_lets -merge -useContext x1 x2 x3 x4 x5 x6 x7 x8
  have h4 : Keeps P s x4 := (Keeps.ite (ev_keeps (hP.of (by decide)) (iwSat_keeps (hP.of (by decide)) h0)) h0)
  clear_value x4
  have h6 : Keeps P s x6 := (iw64_keeps (hP.of (by decide)) (iw64_keeps (hP.of (by decide)) (iw64_keeps (hP.of (by decide)) h4)))
  clear_value x6
  have h7 : Keeps P s x7 := (setStat_keeps (hP.of (by decide)) h6)
  clear_value x7
  have h8 : Keeps P s x8 := (Keeps.ite h7 (setStat_keeps (hP.of (by decide)) h7))
  clear_value x8
  exact (Keeps.ite (raiseEnc_keeps (hP.of (by decide)) (homeRef_keeps (hP.of (by decide)) h8)) h0)

theorem swLatch_keeps {a1} (hP : Within [.regs, .pts, .queues, .q0pend, .helm, .ax, .homing, .clu] P) (h0 : Keeps P s t) :
    Keeps P s (swLatch a1 t) := by
  unfold swLatch
  exact (forEach_keeps (fun _ _ h1 => (forEach_keeps (fun _ _ h2 => (Keeps.ite (latchCapture_keeps (hP.of (by decide)) h2) h2)) h1)) h0)

theorem encArm_keeps {a1} (hP : Within [.regs] P) (h0 : Keeps P s t) :
    Keeps P s (encArm a1 t) := by
  unfold encArm
  exact (forEach_keeps (fun _ _ h1 => (forEach_keeps (fun _ _ h2 => (Keeps.ite (setStat_keeps (hP.of (by decide)) h2) h2)) h1)) h0)

theorem cmpPinSet_keeps {a1} (hP : Within [.cmpPins] P) (h0 : Keeps P s t) :
    Keeps P s (cmpPinSet a1 t) := by
  unfold cmpPinSet
  exact (Keeps.ite (Keeps.upd h0 (by intro p hp; cases p <;> first | exact absurd (hP _ (by decide)) hp | rfl) ⟨rfl, rfl, rfl, rfl⟩) h0)

theorem cmpPinFire_keeps {a1 a2 a3} (hP : Within [.cmpPins] P) (h0 : Keeps P s t) :
    Keeps P s (cmpPinFire a1 a2 a3 t) := by
  unfold cmpPinFire
  extract_lets -merge -useContext x1 x2 x3 x4 x5
  exact (Keeps.ite (Keeps.upd h0 (by intro p hp; cases p <;> first | exact absurd (hP _ (by decide)) hp | rfl) ⟨rfl, rfl, rfl, rfl⟩) h0)

theorem cmpUnit_keeps {a1 a2 a3 a4} (hP : Within [.regs, .pts, .queues, .clu, .enc, .cmpPins] P) (h0 : Keeps P s t) :
    Keeps P s (cmpUnit a1 a2 a3 a4 t).2 := by
  unfold cmpUnit
  extract_lets -merge -useContext x1 x2 x3 x4 x5 x6 x7 x8 x9 x10 x11 x12 x13 x14
  have h7 : Keeps P s x7 := (Keeps.ite (setStat_keeps (hP.of (by decide)) h0) h0)
  clear_value x7
  have h10 : ∀ b15 x, Keeps P s x → Keeps P s (x10 b15 x) := fun _ _ h16 => (modEnc_keeps (hP.of (by decide)) h16)
  clear_value x10
  have h12 : Keeps P s x12 := (Keeps.ite (setStat_keeps (hP.of (by decide)) h7) (aw64_keeps (hP.of (by decide)) h7))
  clear_value x12
  have h14 : Keeps P s x14 := (h10 _ _ h12)
  clear_value x14
  exact (Keeps.ite2 (Keeps.snd (raiseEnc_keeps (hP.of (by decide)) (cmpPinFire_keeps (hP.of (by decide)) h14))) (Keeps.snd (h10 _ _ h7)))

theorem encReset_keeps {a1} (hP : Within [.regs, .enc] P) (h0 : Keeps P s t) :
    Keeps P s (encReset a1 t) := by
  unfold encReset
  extract_lets -merge -useContext x1 x2 x3
  have h1 : Keeps P s x1 := (modEnc_keeps (hP.of (by decide)) h0)
  clear_value x1
  have h2 : Keeps P s x2 := (clearUncertain_keeps (hP.of (by decide)) h1)
  clear_value x2
  have h3 : Keeps P s x3 := (iw_keeps (hP.of (by decide)) h2)
  clear_value x3
  exact (iw_keeps (hP.of (by decide)) h3)

theorem encCommit_keeps {a1} (hP : Within [.regs, .pts, .queues, .q0pend, .helm, .ax, .homing, .clu, .enc] P) (h0 : Keeps P s t) :
    Keeps P s (encCommit a1 t) := by
  unfold encCommit
  extract_lets -merge -useContext x1 x2 x3 x4 x5 x6 x7 x8 x9 x10 x11 x12 x13 x14 x15 x16 x17 x18 x19
  clear_value x2
  have h3 : Keeps P s x3 := (bwBit_keeps (hP.of (by decide)) h0)
  clear_value x3
  have h13 : Keeps P s x13 := (by
    unfold x13
    split
    · exact (Keeps.ite (homedLost_keeps (hP.of (by decide)) h3) h3)
    · exact h3)
  clear_value x13
  have h14 : Keeps P s x14 := (copySet_keeps (hP.of (by decide)) h13)
  clear_value x14
  have h15 : Keeps P s x15 := (by
    unfold x15
    split
    · exact (Keeps.ite (homedLost_keeps (hP.of (by decide)) h14) h14)
    · exact h14)
  clear_value x15
  have h16 : Keeps P s x16 := (Keeps.ite (encReset_keeps (hP.of (by decide)) h15) h15)
  clear_value x16
  have h17 : Keeps P s x17 := (Keeps.ite (setStat_keeps (hP.of (by decide)) h16) h16)
  clear_value x17
  have h18 : Keeps P s x18 := (Keeps.ite (setStat_keeps (hP.of (by decide)) h17) h17)
  clear_value x18
  have h19 : Keeps P s x19 := (forEach_keeps (fun _ _ h20 => (aw64_keeps (hP.of (by decide)) h20)) h18)
  clear_value x19
  split
  · exact (ev_keeps (hP.of (by decide)) h3)
  · exact (forEach_keeps (fun _ _ h21 => (by
      extract_lets -merge -useContext x22
      have h22 : Keeps P s x22 := (setStat_keeps (hP.of (by decide)) h21)
      clear_value x22
      exact (modEnc_keeps (hP.of (by decide)) h22))) h19)

theorem encFault_keeps {a1 a2 a3 a4} (hP : Within [.regs, .pts, .queues, .q0pend, .helm, .ax, .clu] P) (h0 : Keeps P s t) :
    Keeps P s (encFault a1 a2 a3 a4 t) := by
  unfold encFault
  extract_lets -merge -useContext x1
  exact (Keeps.ite (ev_keeps (hP.of (by decide)) h0) (forEach_keeps (fun _ _ h2 => (Keeps.ite (raise_keeps (hP.of (by decide)) h2) (ev_keeps (hP.of (by decide)) h2))) h0))

theorem countBy_keeps {a1 a2 a3} (hP : Within [.regs, .pts, .queues, .q0pend, .helm, .ax, .clu, .enc] P) (h0 : Keeps P s t) :
    Keeps P s (countBy a1 a2 a3 t) := by
  unfold countBy
  extract_lets -merge -useContext x1 x2 x3
  have h3 : Keeps P s x3 := (modEnc_keeps (hP.of (by decide)) h0)
  clear_value x3
  exact (Keeps.ite (encFault_keeps (hP.of (by decide)) h3) h3)

theorem dirStep_keeps {a1 a2 a3} (hP : Within [.regs, .pts, .queues, .clu, .enc] P) (h0 : Keeps P s t) :
    Keeps P s (dirStep a1 a2 a3 t) := by
  unfold dirStep
  extract_lets -merge -useContext x1 x2 x3 x4
  have h3 : Keeps P s x3 := (modEnc_keeps (hP.of (by decide)) h0)
  clear_value x3
  have h4 : Keeps P s x4 := (iw64_keeps (hP.of (by decide)) (setStat_keeps (hP.of (by decide)) h3))
  clear_value x4
  exact (Keeps.ite (modEnc_keeps (hP.of (by decide)) h0) (Keeps.ite (raiseEnc_keeps (hP.of (by decide)) h4) (modEnc_keeps (hP.of (by decide)) h0)))

theorem encTake_keeps {a1 a2 a3} (hP : Within [.regs, .enc] P) (h0 : Keeps P s t) :
    Keeps P s (encTake a1 a2 a3 t) := by
  unfold encTake
  extract_lets -merge -useContext x1 x2 x3 x4
  have h4 : Keeps P s x4 := (modEnc_keeps (hP.of (by decide)) h0)
  clear_value x4
  exact (Keeps.ite (Keeps.ite (iw64_keeps (hP.of (by decide)) (iw_keeps (hP.of (by decide)) (iw64_keeps (hP.of (by decide)) h4))) h4) h0)

theorem wireClear_keeps {a1 a2} (hP : Within [.regs, .enc] P) (h0 : Keeps P s t) :
    Keeps P s (wireClear a1 a2 t) := by
  unfold wireClear
  exact (Keeps.ite (modEnc_keeps (hP.of (by decide)) (bwBit_keeps (hP.of (by decide)) (setStat_keeps (hP.of (by decide)) h0))) h0)

theorem frameUse_keeps {a1 a2 a3 a4} (hP : Within [.regs, .pts, .queues, .q0pend, .helm, .ax, .clu, .enc] P) (h0 : Keeps P s t) :
    Keeps P s (frameUse a1 a2 a3 a4 t) := by
  unfold frameUse
  extract_lets -merge -useContext x1 x2 x3 x4 x5 x6 x7
  have h7 : Keeps P s x7 := (modEnc_keeps (hP.of (by decide)) h0)
  clear_value x7
  exact (Keeps.ite (encFault_keeps (hP.of (by decide)) h7) h7)

theorem setUncertain_keeps {a1 a2} (hP : Within [.regs, .pts, .queues, .q0pend, .helm, .ax, .homing, .clu] P) (h0 : Keeps P s t) :
    Keeps P s (setUncertain a1 a2 t) := by
  unfold setUncertain
  extract_lets -merge -useContext x1 x2
  have h1 : Keeps P s x1 := (bwBit_keeps (hP.of (by decide)) (setStat_keeps (hP.of (by decide)) h0))
  clear_value x1
  have h2 : Keeps P s x2 := (by
    unfold x2
    split
    · exact (homedLost_keeps (hP.of (by decide)) h1)
    · exact h1)
  clear_value x2
  exact (Keeps.ite h0 (encFault_keeps (hP.of (by decide)) h2))

theorem skipStep_keeps {a1 a2} (hP : Within [.regs, .pts, .queues, .q0pend, .helm, .ax, .homing, .clu] P) (h0 : Keeps P s t) :
    Keeps P s (skipStep a1 a2 t) := by
  unfold skipStep
  extract_lets -merge -useContext x1 x2 x3 x4 x5 x6 x7
  have h1 : Keeps P s x1 := (setStat_keeps (hP.of (by decide)) h0)
  clear_value x1
  have h2 : Keeps P s x2 := (Keeps.ite (setStat_keeps (hP.of (by decide)) h1) h1)
  clear_value x2
  have h4 : Keeps P s x4 := (iwSat_keeps (hP.of (by decide)) (iwSat_keeps (hP.of (by decide)) h2))
  clear_value x4
  have h7 : Keeps P s x7 := (Keeps.ite (ev_keeps (hP.of (by decide)) h4) h4)
  clear_value x7
  exact (Keeps.ite (setUncertain_keeps (hP.of (by decide)) h7) h7)

theorem indexEdge_keeps {a1} (hP : Within [.regs, .pts, .queues, .q0pend, .helm, .ax, .homing, .clu, .enc] P) (h0 : Keeps P s t) :
    Keeps P s (indexEdge a1 t) := by
  unfold indexEdge
  extract_lets -merge -useContext x1 x2 x3 x4
  have h3 : Keeps P s x3 := (by
    unfold x3
    split
    · extract_lets -merge -useContext x5 x6
      have h6 : Keeps P s x6 := (iw_keeps (hP.of (by decide)) h0)
      clear_value x6
      exact (Keeps.ite h6 (Keeps.ite (modEnc_keeps (hP.of (by decide)) (clearUncertain_keeps (hP.of (by decide)) h6)) (setUncertain_keeps (hP.of (by decide)) (ev_keeps (hP.of (by decide)) (iwSat_keeps (hP.of (by decide)) h6)))))
    · exact h0)
  clear_value x3
  have h4 : Keeps P s x4 := (Keeps.ite h3 (iw_keeps (hP.of (by decide)) h3))
  clear_value x4
  exact (modEnc_keeps (hP.of (by decide)) h4)

theorem encSteps_keeps {a1 a2 a3} (hP : Within [.regs, .pts, .queues, .q0pend, .helm, .ax, .homing, .clu, .enc, .cmpPins] P) (h0 : Keeps P s t) :
    Keeps P s (encSteps a1 a2 a3 t) := by
  unfold encSteps
  extract_lets -merge -useContext x1 x2
  split
  · extract_lets -merge -useContext x3 x4 x5 x6 x7 x8 x9 x10 x11 x12
    clear_value x3
    have h4 : Keeps P s x4 := (modEnc_keeps (hP.of (by decide)) h0)
    clear_value x4
    have h5 : Keeps P s x5 := (by
      unfold x5
      split
      · exact (frameUse_keeps (hP.of (by decide)) h0)
      · exact h0
      · split
        · exact h4
        · exact (countBy_keeps (hP.of (by decide)) h4)
        · exact (skipStep_keeps (hP.of (by decide)) h4))
    clear_value x5
    have h8 : Keeps P s x8 := (modEnc_keeps (hP.of (by decide)) h5)
    clear_value x8
    have h9 : Keeps P s x9 := (Keeps.ite (indexEdge_keeps (hP.of (by decide)) h8) h8)
    clear_value x9
    have h11 : Keeps P s x11 := (Keeps.ite h9 (dirStep_keeps (hP.of (by decide)) h9))
    clear_value x11
    split
    rename_i x13 e13
    have h13 : Keeps P s x13 := Keeps.ofEq e13 (cmpUnit_keeps (hP.of (by decide)) h11)
    split
    rename_i x14 e14
    have h14 : Keeps P s x14 := Keeps.ofEq e14 (cmpUnit_keeps (hP.of (by decide)) h13)
    exact (forEach_keeps (fun _ _ h15 => (by
      extract_lets -merge -useContext x16
      exact (Keeps.ite (latchCapture_keeps (hP.of (by decide)) h15) (Keeps.ite (latchCapture_keeps (hP.of (by decide)) h15) h15)))) h14)

theorem encOrder_keeps {a1 a2 a3} (hP : Within [.regs, .pts, .queues, .q0pend, .helm, .ax, .homing, .clu, .enc, .cmpPins] P) (h0 : Keeps P s t) :
    Keeps P s (encOrder a1 a2 a3 t) := by
  unfold encOrder
  extract_lets -merge -useContext x1 x2
  have h1 : Keeps P s x1 := (Keeps.ite (encCommit_keeps (hP.of (by decide)) h0) h0)
  clear_value x1
  have h2 : Keeps P s x2 := (wireClear_keeps (hP.of (by decide)) h1)
  clear_value x2
  exact (Keeps.ite (encSteps_keeps (hP.of (by decide)) h2) (by
    split
    · exact (modEnc_keeps (hP.of (by decide)) h2)
    · exact h2))

theorem encCentre_keeps {a1 a2 a3} (hP : Within [.regs, .pts, .queues, .q0pend, .helm, .ax, .homing, .clu, .enc, .cmpPins] P) (h0 : Keeps P s t) :
    Keeps P s (encCentre a1 a2 a3 t) := by
  unfold encCentre
  extract_lets -merge -useContext x1 x2
  have h2 : Keeps P s x2 := (Keeps.ite (modEnc_keeps (hP.of (by decide)) h0) h0)
  clear_value x2
  exact (encTake_keeps (hP.of (by decide)) (encOrder_keeps (hP.of (by decide)) h2))

theorem encRun_keeps {c u} (hP : Within [.regs, .pts, .queues, .q0pend, .helm, .ax, .homing, .clu, .enc, .cmpPins] P) : ∀ {k x : Nat} {t : State}, Keeps P s t → Keeps P s (encRun c u k x t)
  | 0, _, _, h => h
  | k + 1, _, t, h => by
    unfold encRun
    exact Keeps.ite (encRun_keeps hP (encOrder_keeps (hP.of (by decide)) h)) h

theorem encSamples_keeps {a1} (hP : Within [.regs, .pts, .queues, .q0pend, .helm, .ax, .homing, .clu, .enc, .cmpPins] P) (h0 : Keeps P s t) :
    Keeps P s (encSamples a1 t) := by
  unfold encSamples
  extract_lets -merge -useContext x1
  exact (forEach_keeps (fun _ _ h2 => (encRun_keeps (hP.of (by decide)) h2)) h0)

theorem encTime_keeps {a1} (hP : Within [.now, .regs, .pts, .queues, .q0pend, .helm, .ax, .homing, .clu, .enc, .cmpPins] P) (h0 : Keeps P s t) :
    Keeps P s (encTime a1 t) := by
  unfold encTime
  exact (atTime_keeps (hP.of (by decide)) (encSamples_keeps (hP.of (by decide)) h0))

theorem encWire_keeps {a1 a2 a3 a4 a5} (hP : Within [.regs, .pts, .queues, .q0pend, .helm, .ax, .homing, .clu, .enc] P) (h0 : Keeps P s t) :
    Keeps P s (encWire a1 a2 a3 a4 a5 t) := by
  unfold encWire
  extract_lets -merge -useContext x1 x2 x3 x4
  have h1 : Keeps P s x1 := (modEnc_keeps (hP.of (by decide)) h0)
  clear_value x1
  have h3 : Keeps P s x3 := (modEnc_keeps (hP.of (by decide)) h1)
  clear_value x3
  have h4 : Keeps P s x4 := (bwBit_keeps (hP.of (by decide)) (setStat_keeps (hP.of (by decide)) h3))
  clear_value x4
  exact (Keeps.ite h0 (Keeps.ite (setUncertain_keeps (hP.of (by decide)) (Keeps.ite h4 (encFault_keeps (hP.of (by decide)) h4))) h1))

theorem execEncEdge_keeps {a1 a2 a3 a4} (hP : Within [.now, .regs, .pts, .queues, .q0pend, .helm, .ax, .homing, .clu, .enc, .cmpPins] P) (h0 : Keeps P s t) :
    Runs P s (execEncEdge a1 a2 a3 a4 t) := by
  unfold execEncEdge
  extract_lets -merge -useContext x1
  have h1 : Keeps P s x1 := (encTime_keeps (hP.of (by decide)) h0)
  clear_value x1
  exact (Runs.next (Keeps.ite h1 (encOrder_keeps (hP.of (by decide)) h1)))

theorem execCmpPulseEnd_keeps {a1 a2} (hP : Within [.now, .regs, .pts, .queues, .q0pend, .helm, .ax, .homing, .clu, .enc, .cmpPins] P) (h0 : Keeps P s t) :
    Runs P s (execCmpPulseEnd a1 a2 t) := by
  unfold execCmpPulseEnd
  extract_lets -merge -useContext x1
  have h1 : Keeps P s x1 := (encTime_keeps (hP.of (by decide)) h0)
  clear_value x1
  exact (Runs.next (by
    split
    · exact (Keeps.ite (Keeps.upd h1 (by intro p hp; cases p <;> first | exact absurd (hP _ (by decide)) hp | rfl) ⟨rfl, rfl, rfl, rfl⟩) h1)
    · exact h1))

theorem latchPin_keeps {a1 a2 a3 a4} (hP : Within [.regs, .pts, .queues, .q0pend, .helm, .ax, .homing, .clu, .latPins] P) (h0 : Keeps P s t) :
    Keeps P s (latchPin a1 a2 a3 a4 t) := by
  unfold latchPin
  extract_lets -merge -useContext x1 x2 x3
  have h3 : Keeps P s x3 := (Keeps.upd h0 (by intro p hp; cases p <;> first | exact absurd (hP _ (by decide)) hp | rfl) ⟨rfl, rfl, rfl, rfl⟩)
  clear_value x3
  exact (Keeps.ite h0 (forEach_keeps (fun _ _ h4 => (forEach_keeps (fun _ _ h5 => (by
    extract_lets -merge -useContext x6 x7
    exact (Keeps.ite (latchCapture_keeps (hP.of (by decide)) h5) h5))) h4)) h3))

theorem execLatchPinEdge_keeps {a1 a2 a3 a4} (hP : Within [.now, .regs, .pts, .queues, .q0pend, .helm, .ax, .homing, .clu, .enc, .cmpPins, .latPins] P) (h0 : Keeps P s t) :
    Runs P s (execLatchPinEdge a1 a2 a3 a4 t) := by
  unfold execLatchPinEdge
  exact (Runs.next (latchPin_keeps (hP.of (by decide)) (encTime_keeps (hP.of (by decide)) h0)))

theorem execEncSwlatch_keeps {a1} (hP : Within [.regs, .pts, .queues, .q0pend, .helm, .ax, .homing, .clu] P) (h0 : Keeps P s t) :
    Runs P s (execEncSwlatch a1 t) := by
  unfold execEncSwlatch
  exact (Runs.next (swLatch_keeps (hP.of (by decide)) h0))

theorem execEncArm_keeps {a1} (hP : Within [.regs] P) (h0 : Keeps P s t) :
    Runs P s (execEncArm a1 t) := by
  unfold execEncArm
  exact (Runs.next (encArm_keeps (hP.of (by decide)) h0))

theorem execEncWire_keeps {a1 a2 a3 a4 a5} (hP : Within [.now, .regs, .pts, .queues, .q0pend, .helm, .ax, .homing, .clu, .enc, .cmpPins] P) (h0 : Keeps P s t) :
    Runs P s (execEncWire a1 a2 a3 a4 a5 t) := by
  unfold execEncWire
  exact (Runs.next (encWire_keeps (hP.of (by decide)) (encOrder_keeps (hP.of (by decide)) (encTime_keeps (hP.of (by decide)) h0))))

theorem pollStart_keeps {a1 a2} (hP : Within [.regs, .enc] P) (h0 : Keeps P s t) :
    Keeps P s (pollStart a1 a2 t) := by
  unfold pollStart
  exact (Keeps.ite (by
    split
    · exact (iwSat_keeps (hP.of (by decide)) h0)
    · exact (modEnc_keeps (hP.of (by decide)) h0)) h0)

theorem execSerialPollStart_keeps {a1 a2} (hP : Within [.now, .regs, .pts, .queues, .q0pend, .helm, .ax, .homing, .clu, .enc, .cmpPins] P) (h0 : Keeps P s t) :
    Runs P s (execSerialPollStart a1 a2 t) := by
  unfold execSerialPollStart
  exact (Runs.next (pollStart_keeps (hP.of (by decide)) (encOrder_keeps (hP.of (by decide)) (encTime_keeps (hP.of (by decide)) h0))))

theorem frameFail_keeps {a1 a2} (hP : Within [.regs, .pts, .queues, .q0pend, .helm, .ax, .homing, .clu, .enc] P) (h0 : Keeps P s t) :
    Keeps P s (frameFail a1 a2 t) := by
  unfold frameFail
  extract_lets -merge -useContext x1 x2 x3 x4
  have h1 : Keeps P s x1 := (iwSat_keeps (hP.of (by decide)) h0)
  clear_value x1
  have h2 : Keeps P s x2 := (evOnce_keeps (hP.of (by decide)) h1)
  clear_value x2
  have h4 : Keeps P s x4 := (modEnc_keeps (hP.of (by decide)) h2)
  clear_value x4
  exact (Keeps.ite (setUncertain_keeps (hP.of (by decide)) h4) h4)

theorem reform_keeps {a1 a2} (hP : Within [.regs, .clu, .enc] P) (h0 : Keeps P s t) :
    Keeps P s (reform a1 a2 t) := by
  unfold reform
  extract_lets -merge -useContext x1
  have h1 : Keeps P s x1 := (forEach_keeps (fun _ _ h2 => (by
    extract_lets -merge -useContext x3
    exact (Keeps.ite (encTake_keeps (hP.of (by decide)) h2) h2))) h0)
  clear_value x1
  split
  · extract_lets -merge -useContext x4 x5 x6
    exact (Keeps.ite (by
      split
      · extract_lets -merge -useContext x7
        have h7 : Keeps P s x7 := (putXb_keeps (hP.of (by decide)) (putXb64_keeps (hP.of (by decide)) h1))
        clear_value x7
        exact (Keeps.ite h7 (putXb_keeps (hP.of (by decide)) h7))) h1)
  · exact h1

theorem frameDone_keeps {a1 a2 a3} (hP : Within [.regs, .pts, .queues, .q0pend, .helm, .ax, .homing, .clu, .enc, .cmpPins] P) (h0 : Keeps P s t) :
    Keeps P s (frameDone a1 a2 a3 t) := by
  unfold frameDone
  extract_lets -merge -useContext x1 x2
  have h1 : Keeps P s x1 := (modEnc_keeps (hP.of (by decide)) h0)
  clear_value x1
  have h2 : ∀ b3 x, Keeps P s x → Keeps P s (x2 b3 x) := fun _ _ h4 => (by
    unfold x2
    split
    · exact (evOnce_keeps (hP.of (by decide)) h4)
    · exact h4)
  clear_value x2
  split
  · exact h0
  · extract_lets -merge -useContext x5 x6 x7 x8 x9
    have h9 : Keeps P s x9 := (Keeps.ite (iwSat_keeps (hP.of (by decide)) h1) h1)
    clear_value x9
    split
    · exact (frameFail_keeps (hP.of (by decide)) (h2 _ _ h9))
    · extract_lets -merge -useContext x10 x11 x12 x13 x14 x15
      have h10 : Keeps P s x10 := (h2 _ _ h9)
      clear_value x10
      have h14 : Keeps P s x14 := (modEnc_keeps (hP.of (by decide)) h10)
      clear_value x14
      have h15 : Keeps P s x15 := (Keeps.ite h14 (clearUncertain_keeps (hP.of (by decide)) h14))
      clear_value x15
      exact (Keeps.ite (frameFail_keeps (hP.of (by decide)) h10) (Keeps.ite (modEnc_keeps (hP.of (by decide)) h15) (reform_keeps (hP.of (by decide)) (encSteps_keeps (hP.of (by decide)) h15))))

theorem execSerialFrameDone_keeps {a1 a2 a3} (hP : Within [.now, .regs, .pts, .queues, .q0pend, .helm, .ax, .homing, .clu, .enc, .cmpPins] P) (h0 : Keeps P s t) :
    Runs P s (execSerialFrameDone a1 a2 a3 t) := by
  unfold execSerialFrameDone
  exact (Runs.next (frameDone_keeps (hP.of (by decide)) (encOrder_keeps (hP.of (by decide)) (encTime_keeps (hP.of (by decide)) h0))))

end Sys2Proof.Machine
end

