-- ==== Sys2Proof/Laws/KeepsGearing.lean ====
section
/-!
SUPPORT. What the operations of Machine/Gearing.lean may touch, and that they keep the canonical form: one lemma per operation.
-/
namespace Sys2Proof.Machine

variable {P : List Part} {s t : State}

theorem gearMark_keeps {a1 a2} (hP : Within [.gear] P) (h0 : Keeps P s t) :
    Keeps P s (gearMark a1 a2 t) := by
  unfold gearMark
  split
  · exact (modGear_keeps (hP.of (by decide)) h0)
  · exact (modGear_keeps (hP.of (by decide)) h0)
  · exact h0

theorem gearAdvance_keeps {a1 a2} (hP : Within [.regs, .gear] P) (h0 : Keeps P s t) :
    Keeps P s (gearAdvance a1 a2 t).1 := by
  unfold gearAdvance
  extract_lets -merge -useContext x1 x2 x3 x4
  have h3 : ∀ x, Keeps P s x → Keeps P s (x3 x) := fun _ h5 => (modGear_keeps (hP.of (by decide)) h5)
  clear_value x3
  exact (Keeps.ite1 (Keeps.fst (h3 _ h0)) (by
    split
    · extract_lets -merge -useContext x6 x7 x8 x9 x10 x11 x12 x13
      have h6 : Keeps P s x6 := (Keeps.ite (gearMark_keeps (hP.of (by decide)) h0) h0)
      clear_value x6
      have h11 : Keeps P s x11 := (modGear_keeps (hP.of (by decide)) (h3 _ h6))
      clear_value x11
      have h12 : Keeps P s x12 := (gearMark_keeps (hP.of (by decide)) h11)
      clear_value x12
      have h13 : Keeps P s x13 := (iw_keeps (hP.of (by decide)) (iw64_keeps (hP.of (by decide)) h12))
      clear_value x13
      split
      · exact (Keeps.fst h13)))

theorem superStale_keeps {a1} (hP : Within [.regs, .pts, .queues, .q0pend, .helm, .ax, .sup, .clu] P) (h0 : Keeps P s t) :
    Keeps P s (superStale a1 t) := by
  unfold superStale
  extract_lets -merge -useContext x1 x2
  exact (Keeps.ite (ev_keeps (hP.of (by decide)) (modSup_keeps (hP.of (by decide)) h0)) h0)

theorem superSeq_keeps {a1} (hP : Within [.regs, .pts, .queues, .q0pend, .helm, .ax, .sup, .clu] P) (h0 : Keeps P s t) :
    Keeps P s (superSeq a1 t) := by
  unfold superSeq
  extract_lets -merge -useContext x1
  exact (Keeps.ite h0 (Keeps.ite (modSup_keeps (hP.of (by decide)) h0) (superStale_keeps (hP.of (by decide)) (modSup_keeps (hP.of (by decide)) h0))))

theorem superAdvance_keeps {a1} (hP : Within [.regs, .pts, .queues, .q0pend, .helm, .ax, .sup, .clu] P) (h0 : Keeps P s t) :
    Keeps P s (superAdvance a1 t).1 := by
  unfold superAdvance
  extract_lets -merge -useContext x1 x2 x3 x4 x5 x6 x7
  have h1 : Keeps P s x1 := (superSeq_keeps (hP.of (by decide)) h0)
  clear_value x1
  exact (Keeps.ite1 (Keeps.fst (modSup_keeps (hP.of (by decide)) h1)) (Keeps.fst (modSup_keeps (hP.of (by decide)) h1)))

theorem envAdvance_keeps {a1 a2 a3 a4} (hP : Within [.regs, .pts, .queues, .q0pend, .helm, .ax, .env, .clu] P) (h0 : Keeps P s t) :
    Keeps P s (envAdvance a1 a2 a3 a4 t) := by
  unfold envAdvance
  extract_lets -merge -useContext x1 x2 x3 x4 x5 x6 x7 x8 x9 x10 x11
  have h5 : Keeps P s x5 := (modEnv_keeps (hP.of (by decide)) h0)
  clear_value x5
  have h6 : Keeps P s x6 := (Keeps.ite (ev_keeps (hP.of (by decide)) h5) h5)
  clear_value x6
  have h9 : Keeps P s x9 := (Keeps.ite (raiseAx_keeps (hP.of (by decide)) h6) h6)
  clear_value x9
  have h10 : Keeps P s x10 := (modEnv_keeps (hP.of (by decide)) h9)
  clear_value x10
  have h11 : Keeps P s x11 := (iw64_keeps (hP.of (by decide)) h10)
  clear_value x11
  exact (iw_keeps (hP.of (by decide)) h11)

theorem gearPublish_keeps {a1} (hP : Within [.regs, .pts] P) (h0 : Keeps P s t) :
    Keeps P s (gearPublish a1 t) := by
  unfold gearPublish
  extract_lets -merge -useContext x1 x2
  have h1 : Keeps P s x1 := (iw_keeps (hP.of (by decide)) (iw_keeps (hP.of (by decide)) (iw64_keeps (hP.of (by decide)) h0)))
  clear_value x1
  have h2 : Keeps P s x2 := (setAp_keeps (hP.of (by decide)) (setPt64_keeps (hP.of (by decide)) h1))
  clear_value x2
  exact (Keeps.ite (setAp_keeps (hP.of (by decide)) (setPt64_keeps (hP.of (by decide)) h2)) h1)

theorem gearStale_keeps {a1 a2} (hP : Within [.regs, .pts, .queues, .q0pend, .helm, .ax, .gear, .clu] P) (h0 : Keeps P s t) :
    Keeps P s (gearStale a1 a2 t) := by
  unfold gearStale
  extract_lets -merge -useContext x1 x2
  have h2 : Keeps P s x2 := (modGear_keeps (hP.of (by decide)) h0)
  clear_value x2
  exact (Keeps.ite (raiseAx_keeps (hP.of (by decide)) h2) h0)

theorem endClip_keeps {a1} (hP : Within [.regs, .pts, .queues, .q0pend, .helm, .ax, .env, .clu] P) (h0 : Keeps P s t) :
    Keeps P s (endClip a1 t) := by
  unfold endClip
  extract_lets -merge -useContext x1 x2
  have h2 : Keeps P s x2 := (modEnv_keeps (hP.of (by decide)) h0)
  clear_value x2
  exact (Keeps.ite h0 (ev_keeps (hP.of (by decide)) h2))

theorem clearTerms_keeps {a1 a2} (hP : Within [.regs, .pts, .queues, .q0pend, .helm, .ax, .gear, .sup, .env, .clu] P) (h0 : Keeps P s t) :
    Keeps P s (clearTerms a1 a2 t) := by
  unfold clearTerms
  extract_lets -merge -useContext x1 x2 x3
  have h1 : Keeps P s x1 := (ev_keeps (hP.of (by decide)) h0)
  clear_value x1
  have h2 : Keeps P s x2 := (modGear_keeps (hP.of (by decide)) h1)
  clear_value x2
  have h3 : Keeps P s x3 := (modSup_keeps (hP.of (by decide)) h2)
  clear_value x3
  exact (endClip_keeps (hP.of (by decide)) h3)

theorem fold_keeps {a1 a2 a3} (hP : Within [.regs, .pts, .queues, .q0pend, .helm, .mot, .ax, .gear, .sup, .env, .clu] P) (h0 : Keeps P s t) :
    Keeps P s (fold a1 a2 a3 t) := by
  unfold fold
  split
  · exact (modEnv_keeps (hP.of (by decide)) (modMot_keeps (hP.of (by decide)) (clearTerms_keeps (hP.of (by decide)) h0)))

theorem foldOff_keeps {a1} (hP : Within [.regs, .pts, .queues, .q0pend, .helm, .ax, .gear, .sup, .env, .clu] P) (h0 : Keeps P s t) :
    Keeps P s (foldOff a1 t) := by
  unfold foldOff
  exact (Keeps.ite (modGear_keeps (hP.of (by decide)) (clearTerms_keeps (hP.of (by decide)) h0)) h0)

theorem gearChange_keeps {a1 a2 a3} (hP : Within [.regs, .pts, .queues, .q0pend, .helm, .mot, .ax, .gear, .sup, .env, .clu] P) (h0 : Keeps P s t) :
    Keeps P s (gearChange a1 a2 a3 t) := by
  unfold gearChange
  extract_lets -merge -useContext x1 x2 x3 x4
  have h1 : Keeps P s x1 := (Keeps.ite (modGear_keeps (hP.of (by decide)) h0) h0)
  clear_value x1
  have h3 : Keeps P s x3 := (fold_keeps (hP.of (by decide)) h1)
  clear_value x3
  exact (Keeps.ite (modGear_keeps (hP.of (by decide)) h1) (Keeps.ite (Keeps.ite (modGear_keeps (hP.of (by decide)) h1) (modMot_keeps (hP.of (by decide)) h3)) h1))

theorem superChange_keeps {a1 a2} (hP : Within [.sup] P) (h0 : Keeps P s t) :
    Keeps P s (superChange a1 a2 t) := by
  unfold superChange
  extract_lets -merge -useContext x1 x2
  have h1 : Keeps P s x1 := (Keeps.ite (modSup_keeps (hP.of (by decide)) h0) h0)
  clear_value x1
  exact (Keeps.ite (modSup_keeps (hP.of (by decide)) h1) (Keeps.ite (modSup_keeps (hP.of (by decide)) h1) h1))

end Sys2Proof.Machine
end

