-- ==== Sys2Proof/Laws/KeepsInterp.lean ====
section
/-!
SUPPORT. What the operations of Machine/Interp.lean may touch, and that they keep the canonical form: one lemma per operation.
-/
namespace Sys2Proof.Machine

variable {P : List Part} {s t : State}

theorem igMirror_keeps {a1} (hP : Within [.mot] P) (h0 : Keeps P s t) :
    Keeps P s (igMirror a1 t) := by
  unfold igMirror
  extract_lets -merge -useContext x1
  exact (forEach_keeps (fun _ _ h2 => (by
    split
    · exact (modMot_keeps (hP.of (by decide)) h2)
    · exact h2)) h0)

theorem planEvents_keeps {a1 a2} (hP : Within [.regs, .pts, .queues, .q0pend, .helm, .ax, .clu] P) (h0 : Keeps P s t) :
    Keeps P s (planEvents a1 a2 t) := by
  unfold planEvents
  exact (forEach_keeps (fun _ _ h1 => (by
    split
    · exact (ev_keeps (hP.of (by decide)) (bwBit_keeps (hP.of (by decide)) h1))
    · exact (ev_keeps (hP.of (by decide)) (bwBit_keeps (hP.of (by decide)) h1)))) h0)

theorem igDo_keeps {a1 a2} (hP : Within [.regs, .pts, .queues, .q0pend, .helm, .mot, .ax, .igrp, .clu] P) (h0 : Keeps P s t) :
    Keeps P s (igDo a1 a2 t) := by
  unfold igDo
  extract_lets -merge -useContext x1 x2
  have h2 : Keeps P s x2 := (modIg_keeps (hP.of (by decide)) h0)
  clear_value x2
  exact (igMirror_keeps (hP.of (by decide)) (planEvents_keeps (hP.of (by decide)) h2))

theorem igStop_keeps {a1 a2} (hP : Within [.mot, .igrp] P) (h0 : Keeps P s t) :
    Keeps P s (igStop a1 a2 t) := by
  unfold igStop
  extract_lets -merge -useContext x1
  have h1 : Keeps P s x1 := (by
    unfold x1
    split
    · split
      · exact (modIg_keeps (hP.of (by decide)) h0)
    · exact (modIg_keeps (hP.of (by decide)) h0))
  clear_value x1
  exact (igMirror_keeps (hP.of (by decide)) h1)

theorem quickStop_keeps {a1 a2} (hP : Within [.regs, .pts, .queues, .q0pend, .helm, .mot, .ax, .gear, .sup, .env, .igrp, .clu] P) (h0 : Keeps P s t) :
    Keeps P s (quickStop a1 a2 t) := by
  unfold quickStop
  extract_lets -merge -useContext x1 x2 x3 x4
  have h2 : Keeps P s x2 := (fold_keeps (hP.of (by decide)) h0)
  clear_value x2
  have h4 : Keeps P s x4 := (fold_keeps (hP.of (by decide)) h0)
  clear_value x4
  split
  · extract_lets -merge -useContext x5 x6
    have h6 : Keeps P s x6 := (modIg_keeps (hP.of (by decide)) h2)
    clear_value x6
    exact (modMot_keeps (hP.of (by decide)) (igStop_keeps (hP.of (by decide)) h6))
  · exact (modMot_keeps (hP.of (by decide)) h4)

theorem igCommit_keeps {a1} (hP : Within [.regs, .pts, .queues, .q0pend, .helm, .ax, .igrp, .clu] P) (h0 : Keeps P s t) :
    Keeps P s (igCommit a1 t) := by
  unfold igCommit
  extract_lets -merge -useContext x1 x2
  clear_value x1
  have h2 : Keeps P s x2 := (bwBit_keeps (hP.of (by decide)) h0)
  clear_value x2
  split
  · exact (ev_keeps (hP.of (by decide)) h2)
  · exact (modIg_keeps (hP.of (by decide)) (copySet_keeps (hP.of (by decide)) h2))

theorem igPublish_keeps {a1} (hP : Within [.regs] P) (h0 : Keeps P s t) :
    Keeps P s (igPublish a1 t) := by
  unfold igPublish
  extract_lets -merge -useContext x1 x2 x3
  have h3 : Keeps P s x3 := (iw_keeps (hP.of (by decide)) h0)
  clear_value x3
  exact (iw_keeps (hP.of (by decide)) h3)

end Sys2Proof.Machine
end

