-- ==== Sys2Proof/Laws/KeepsHoming.lean ====
section
/-!
SUPPORT. What the operations of Machine/Homing.lean may touch, and that they keep the canonical form: one lemma per operation.
-/
namespace Sys2Proof.Machine

variable {P : List Part} {s t : State}

theorem softCheck_keeps {a1} (hP : Within [.regs, .pts, .queues, .q0pend, .helm, .ax, .homing, .clu] P) (h0 : Keeps P s t) :
    Keeps P s (softCheck a1 t) := by
  unfold softCheck
  extract_lets -merge -useContext x1 x2 x3 x4
  have h4 : Keeps P s x4 := (modHom_keeps (hP.of (by decide)) h0)
  clear_value x4
  exact (Keeps.ite (raiseAx_keeps (hP.of (by decide)) h4) h4)

theorem homeEnd_keeps {a1 a2} (hP : Within [.regs, .homing] P) (h0 : Keeps P s t) :
    Keeps P s (homeEnd a1 a2 t) := by
  unfold homeEnd
  extract_lets -merge -useContext x1
  have h1 : Keeps P s x1 := (Keeps.ite (by
    split
    · exact (setStat_keeps (hP.of (by decide)) h0)
    · exact h0) h0)
  clear_value x1
  exact (modHom_keeps (hP.of (by decide)) h1)

theorem chatter_keeps {a1 a2} (hP : Within [.regs, .pts, .queues, .q0pend, .helm, .ax, .homing, .clu] P) (h0 : Keeps P s t) :
    Keeps P s (chatter a1 a2 t) := by
  unfold chatter
  extract_lets -merge -useContext x1 x2 x3
  have h1 : Keeps P s x1 := (modHom_keeps (hP.of (by decide)) h0)
  clear_value x1
  have h2 : Keeps P s x2 := (modHom_keeps (hP.of (by decide)) h1)
  clear_value x2
  have h3 : Keeps P s x3 := (Keeps.ite (homeEnd_keeps (hP.of (by decide)) h2) h2)
  clear_value x3
  split
  · exact (Keeps.ite h1 (raiseAx_keeps (hP.of (by decide)) h3))
  · exact h1

theorem homeGroupEnd_keeps {a1} (hP : Within [.regs, .homing] P) (h0 : Keeps P s t) :
    Keeps P s (homeGroupEnd a1 t) := by
  unfold homeGroupEnd
  exact (Keeps.ite (homeEnd_keeps (hP.of (by decide)) h0) h0)

theorem limitBoth_keeps {a1} (hP : Within [.regs, .pts, .queues, .q0pend, .helm, .ax, .homing, .clu] P) (h0 : Keeps P s t) :
    Keeps P s (limitBoth a1 t) := by
  unfold limitBoth
  extract_lets -merge -useContext x1 x2 x3 x4
  have h4 : Keeps P s x4 := (modHom_keeps (hP.of (by decide)) h0)
  clear_value x4
  exact (Keeps.ite (raiseAx_keeps (hP.of (by decide)) h4) h4)

theorem hwLimit_keeps {a1} (hP : Within [.regs, .pts, .queues, .q0pend, .helm, .ax, .homing, .clu] P) (h0 : Keeps P s t) :
    Keeps P s (hwLimit a1 t) := by
  unfold hwLimit
  extract_lets -merge -useContext x1 x2 x3 x4 x5 x6
  have h6 : Keeps P s x6 := (modHom_keeps (hP.of (by decide)) h0)
  clear_value x6
  exact (Keeps.ite (raiseAx_keeps (hP.of (by decide)) h6) h6)

theorem homeQuick_keeps {a1 a2} (hP : Within [.mot] P) (h0 : Keeps P s t) :
    Keeps P s (homeQuick a1 a2 t) := by
  unfold homeQuick
  exact (modMot_keeps (hP.of (by decide)) h0)

theorem homeAbort_keeps {a1 a2 a3} (hP : Within [.regs, .pts, .queues, .q0pend, .helm, .ax, .homing, .clu] P) (h0 : Keeps P s t) :
    Keeps P s (homeAbort a1 a2 a3 t) := by
  unfold homeAbort
  exact (raiseAx_keeps (hP.of (by decide)) (homeEnd_keeps (hP.of (by decide)) h0))

theorem homeLimits_keeps {a1 a2} (hP : Within [.regs, .pts, .queues, .q0pend, .helm, .mot, .ax, .homing, .clu] P) (h0 : Keeps P s t) :
    Keeps P s (homeLimits a1 a2 t) := by
  unfold homeLimits
  extract_lets -merge -useContext x1 x2 x3 x4 x5 x6
  exact (Keeps.ite h0 (Keeps.ite (modHom_keeps (hP.of (by decide)) (homeQuick_keeps (hP.of (by decide)) h0)) (Keeps.ite (homeAbort_keeps (hP.of (by decide)) h0) (Keeps.ite h0 (Keeps.ite (homeAbort_keeps (hP.of (by decide)) h0) (Keeps.ite (homeAbort_keeps (hP.of (by decide)) h0) h0))))))

theorem homeNotFound_keeps {a1} (hP : Within [.regs, .pts, .queues, .q0pend, .helm, .ax, .homing, .clu] P) (h0 : Keeps P s t) :
    Keeps P s (homeNotFound a1 t) := by
  unfold homeNotFound
  extract_lets -merge -useContext x1 x2 x3
  exact (Keeps.ite (homeAbort_keeps (hP.of (by decide)) h0) h0)

theorem homeTimeout_keeps {a1 a2} (hP : Within [.regs, .pts, .queues, .q0pend, .helm, .ax, .homing, .clu] P) (h0 : Keeps P s t) :
    Keeps P s (homeTimeout a1 a2 t) := by
  unfold homeTimeout
  extract_lets -merge -useContext x1 x2
  exact (Keeps.ite (homeAbort_keeps (hP.of (by decide)) h0) h0)

theorem homePublish_keeps {a1} (hP : Within [.regs] P) (h0 : Keeps P s t) :
    Keeps P s (homePublish a1 t) := by
  unfold homePublish
  extract_lets -merge -useContext x1
  have h1 : Keeps P s x1 := (iw_keeps (hP.of (by decide)) h0)
  clear_value x1
  exact (bwBit_keeps (hP.of (by decide)) (bwBit_keeps (hP.of (by decide)) h1))

theorem homeState_keeps {a1 a2 a3} (hP : Within [.homing] P) (h0 : Keeps P s t) :
    Keeps P s (homeState a1 a2 a3 t) := by
  unfold homeState
  exact (modHom_keeps (hP.of (by decide)) h0)

theorem homeArm_keeps {a1} (hP : Within [.regs, .homing] P) (h0 : Keeps P s t) :
    Keeps P s (homeArm a1 t) := by
  unfold homeArm
  extract_lets -merge -useContext x1
  have h1 : Keeps P s x1 := (modHom_keeps (hP.of (by decide)) h0)
  clear_value x1
  split
  · exact (setStat_keeps (hP.of (by decide)) h1)
  · exact h1

theorem homeGo_keeps {a1 a2 a3} (hP : Within [.mot] P) (h0 : Keeps P s t) :
    Keeps P s (homeGo a1 a2 a3 t) := by
  unfold homeGo
  exact (modMot_keeps (hP.of (by decide)) h0)

theorem homeRun_keeps {a1 a2 a3 a4} (hP : Within [.mot] P) (h0 : Keeps P s t) :
    Keeps P s (homeRun a1 a2 a3 a4 t) := by
  unfold homeRun
  exact (homeGo_keeps (hP.of (by decide)) h0)

theorem homeApproach_keeps {a1 a2} (hP : Within [.regs, .mot, .homing] P) (h0 : Keeps P s t) :
    Keeps P s (homeApproach a1 a2 t) := by
  unfold homeApproach
  exact (homeArm_keeps (hP.of (by decide)) (homeRun_keeps (hP.of (by decide)) (homeState_keeps (hP.of (by decide)) h0)))

theorem homeBackOff_keeps {a1 a2} (hP : Within [.mot, .homing] P) (h0 : Keeps P s t) :
    Keeps P s (homeBackOff a1 a2 t) := by
  unfold homeBackOff
  exact (homeRun_keeps (hP.of (by decide)) (homeState_keeps (hP.of (by decide)) h0))

theorem homeStart_keeps {a1 a2} (hP : Within [.regs, .mot, .homing] P) (h0 : Keeps P s t) :
    Keeps P s (homeStart a1 a2 t) := by
  unfold homeStart
  extract_lets -merge -useContext x1 x2 x3
  clear_value x1
  have h3 : Keeps P s x3 := (modHom_keeps (hP.of (by decide)) h0)
  clear_value x3
  split
  · exact (modHom_keeps (hP.of (by decide)) (homeState_keeps (hP.of (by decide)) h3))
  · exact (modHom_keeps (hP.of (by decide)) (homeState_keeps (hP.of (by decide)) h3))
  · exact (homeApproach_keeps (hP.of (by decide)) h3)
  · exact (homeRun_keeps (hP.of (by decide)) (homeState_keeps (hP.of (by decide)) h3))
  · exact (Keeps.ite (homeBackOff_keeps (hP.of (by decide)) (homeState_keeps (hP.of (by decide)) h3)) (homeRun_keeps (hP.of (by decide)) (homeState_keeps (hP.of (by decide)) h3)))

theorem homeStop_keeps {a1 a2} (hP : Within [.mot] P) (h0 : Keeps P s t) :
    Keeps P s (homeStop a1 a2 t) := by
  unfold homeStop
  exact (homeGo_keeps (hP.of (by decide)) h0)

theorem homeChange_keeps {a1 a2 a3} (hP : Within [.regs, .pts, .queues, .q0pend, .helm, .mot, .ax, .homing, .clu] P) (h0 : Keeps P s t) :
    Keeps P s (homeChange a1 a2 a3 t) := by
  unfold homeChange
  extract_lets -merge -useContext x1 x2
  have h2 : Keeps P s x2 := (modHom_keeps (hP.of (by decide)) h0)
  clear_value x2
  exact (Keeps.ite (Keeps.ite h0 (by
    split
    · exact (homeStart_keeps (hP.of (by decide)) h0)
    · exact (Keeps.ite h0 (ev_keeps (hP.of (by decide)) (modHom_keeps (hP.of (by decide)) h0))))) (Keeps.ite (ev_keeps (hP.of (by decide)) (homeEnd_keeps (hP.of (by decide)) (homeStop_keeps (hP.of (by decide)) h2))) (modHom_keeps (hP.of (by decide)) h2)))

theorem homeDone_keeps {a1} (hP : Within [.regs, .homing] P) (h0 : Keeps P s t) :
    Keeps P s (homeDone a1 t) := by
  unfold homeDone
  exact (modHom_keeps (hP.of (by decide)) (homeEnd_keeps (hP.of (by decide)) h0))

theorem homeShift_keeps {a1 a2} (hP : Within [.regs, .pts, .mot, .env, .homing, .stp, .loop] P) (h0 : Keeps P s t) :
    Keeps P s (homeShift a1 a2 t) := by
  unfold homeShift
  extract_lets -merge -useContext x1 x2 x3 x4 x5 x6
  have h1 : Keeps P s x1 := (iw64_keeps (hP.of (by decide)) h0)
  clear_value x1
  have h2 : Keeps P s x2 := (setPt64_keeps (hP.of (by decide)) h1)
  clear_value x2
  have h3 : Keeps P s x3 := (modMot_keeps (hP.of (by decide)) h2)
  clear_value x3
  have h4 : Keeps P s x4 := (modEnv_keeps (hP.of (by decide)) h3)
  clear_value x4
  have h5 : Keeps P s x5 := (modStp_keeps (hP.of (by decide)) h4)
  clear_value x5
  have h6 : Keeps P s x6 := (modLoop_keeps (hP.of (by decide)) h5)
  clear_value x6
  exact (modHom_keeps (hP.of (by decide)) h6)

theorem homeAtOnce_keeps {a1} (hP : Within [.regs, .pts, .mot, .env, .homing, .stp, .loop] P) (h0 : Keeps P s t) :
    Keeps P s (homeAtOnce a1 t) := by
  unfold homeAtOnce
  extract_lets -merge -useContext x1
  split
  · exact (homeDone_keeps (hP.of (by decide)) (homeShift_keeps (hP.of (by decide)) h0))
  · exact (homeDone_keeps (hP.of (by decide)) (homeShift_keeps (hP.of (by decide)) (iw64_keeps (hP.of (by decide)) h0)))

theorem homeFinish_keeps {a1 a2 a3} (hP : Within [.regs, .pts, .mot, .env, .homing, .stp, .loop] P) (h0 : Keeps P s t) :
    Keeps P s (homeFinish a1 a2 a3 t) := by
  unfold homeFinish
  extract_lets -merge -useContext x1 x2
  have h1 : Keeps P s x1 := (iw64_keeps (hP.of (by decide)) h0)
  clear_value x1
  have h2 : Keeps P s x2 := (homeShift_keeps (hP.of (by decide)) h1)
  clear_value x2
  exact (Keeps.ite (homeGo_keeps (hP.of (by decide)) (homeState_keeps (hP.of (by decide)) h2)) (homeDone_keeps (hP.of (by decide)) h2))

theorem hardStop_keeps {a1 a2} (hP : Within [.regs, .pts, .mot, .env, .homing, .stp, .loop] P) (h0 : Keeps P s t) :
    Keeps P s (hardStop a1 a2 t) := by
  unfold hardStop
  extract_lets -merge -useContext x1 x2 x3 x4
  exact (Keeps.ite h0 (Keeps.ite (modHom_keeps (hP.of (by decide)) h0) (Keeps.ite (modHom_keeps (hP.of (by decide)) h0) (homeFinish_keeps (hP.of (by decide)) (modMot_keeps (hP.of (by decide)) h0)))))

theorem homeStep_keeps {a1 a2} (hP : Within [.regs, .pts, .mot, .env, .homing, .stp, .loop] P) (h0 : Keeps P s t) :
    Keeps P s (homeStep a1 a2 t) := by
  unfold homeStep
  extract_lets -merge -useContext x1 x2 x3 x4 x5 x6 x7 x8 x9 x10
  clear_value x10
  have h8 : ∀ x, Keeps P s x → Keeps P s (x8 x) := fun _ h11 => (modHom_keeps (hP.of (by decide)) (homeStop_keeps (hP.of (by decide)) h11))
  clear_value x8
  have h9 : ∀ x, Keeps P s x → Keeps P s (x9 x) := fun _ h12 => (by
    unfold x9
    extract_lets -merge -useContext x13
    have h13 : Keeps P s x13 := (homeState_keeps (hP.of (by decide)) h12)
    clear_value x13
    exact (Keeps.ite (h8 _ h13) h13))
  clear_value x9
  split
  · exact (Keeps.ite (h8 _ h0) h0)
  · exact (Keeps.ite (homeBackOff_keeps (hP.of (by decide)) h0) h0)
  · exact (Keeps.ite (homeRun_keeps (hP.of (by decide)) (homeState_keeps (hP.of (by decide)) (modHom_keeps (hP.of (by decide)) h0))) h0)
  · exact (Keeps.ite (modHom_keeps (hP.of (by decide)) h0) (Keeps.ite (h9 _ h0) h0))
  · exact (Keeps.ite (h9 _ h0) h0)
  · exact (Keeps.ite (h8 _ h0) h0)
  · exact (Keeps.ite (homeApproach_keeps (hP.of (by decide)) h0) h0)
  · exact (homeAtOnce_keeps (hP.of (by decide)) h0)
  · split
    · exact (Keeps.ite (homeArm_keeps (hP.of (by decide)) (homeState_keeps (hP.of (by decide)) h0)) (modHom_keeps (hP.of (by decide)) (h8 _ h0)))
    · exact h0
  · exact (Keeps.ite (h8 _ h0) h0)
  · exact (Keeps.ite (homeFinish_keeps (hP.of (by decide)) h0) h0)
  · exact (Keeps.ite (homeFinish_keeps (hP.of (by decide)) h0) h0)
  · exact (hardStop_keeps (hP.of (by decide)) h0)
  · exact (Keeps.ite (homeDone_keeps (hP.of (by decide)) h0) h0)
  · exact h0

theorem homeCommit_keeps {a1} (hP : Within [.regs, .pts, .queues, .q0pend, .helm, .ax, .homing, .clu] P) (h0 : Keeps P s t) :
    Keeps P s (homeCommit a1 t) := by
  unfold homeCommit
  extract_lets -merge -useContext x1 x2 x3
  clear_value x1
  have h2 : Keeps P s x2 := (bwBit_keeps (hP.of (by decide)) h0)
  clear_value x2
  have h3 : Keeps P s x3 := (Keeps.ite (homedLost_keeps (hP.of (by decide)) h2) h2)
  clear_value x3
  split
  · exact (ev_keeps (hP.of (by decide)) h2)
  · exact (copySet_keeps (hP.of (by decide)) h3)

theorem sampleLimits_keeps {a1} (hP : Within [.homing] P) (h0 : Keeps P s t) :
    Keeps P s (sampleLimits a1 t) := by
  unfold sampleLimits
  extract_lets -merge -useContext x1 x2 x3
  exact (modHom_keeps (hP.of (by decide)) h0)

theorem inputEdge_keeps {a1 a2} (hP : Within [.homing] P) (h0 : Keeps P s t) :
    Keeps P s (inputEdge a1 a2 t) := by
  unfold inputEdge
  exact (forEach_keeps (fun _ _ h1 => (Keeps.ite (modHom_keeps (hP.of (by decide)) h1) h1)) h0)

end Sys2Proof.Machine
end

