-- ==== Sys2Proof/Laws/KeepsPwm.lean ====
section
/-!
SUPPORT. What the operations of Machine/Pwm.lean may touch, and that they keep the canonical form: one lemma per operation.
-/
namespace Sys2Proof.Machine

variable {P : List Part} {s t : State}

theorem setClear_keeps {a1 a2} (hP : Within [.pwmA, .pwmG] P) (h0 : Keeps P s t) :
    Keeps P s (setClear a1 a2 t) := by
  unfold setClear
  split
  · exact (modPa_keeps (hP.of (by decide)) h0)
  · exact (modPg_keeps (hP.of (by decide)) h0)

theorem setTcnt_keeps {a1 a2} (hP : Within [.regs] P) (h0 : Keeps P s t) :
    Keeps P s (setTcnt a1 a2 t) := by
  unfold setTcnt
  exact (iw_keeps (hP.of (by decide)) h0)

theorem tripClear_keeps {a1} (hP : Within [.regs, .pts, .queues, .q0pend, .helm, .ax, .pwmA, .pwmG, .clu] P) (h0 : Keeps P s t) :
    Keeps P s (tripClear a1 t) := by
  unfold tripClear
  extract_lets -merge -useContext x1
  have h1 : Keeps P s x1 := (Keeps.ite (bwBit_keeps (hP.of (by decide)) h0) (bwBit_keeps (hP.of (by decide)) h0))
  clear_value x1
  exact (Keeps.ite h0 (Keeps.ite (ev_keeps (hP.of (by decide)) h1) (setClear_keeps (hP.of (by decide)) (setTcnt_keeps (hP.of (by decide)) h0))))

theorem activate_keeps {a1} (hP : Within [.regs, .pwmA] P) (h0 : Keeps P s t) :
    Keeps P s (activate a1 t) := by
  unfold activate
  extract_lets -merge -useContext x1 x2 x3
  have h2 : Keeps P s x2 := (modPa_keeps (hP.of (by decide)) h0)
  clear_value x2
  have h3 : Keeps P s x3 := (forEach_keeps (fun _ _ h4 => (iw_keeps (hP.of (by decide)) h4)) h2)
  clear_value x3
  exact (iwBit_keeps (hP.of (by decide)) h3)

theorem axisSlot_keeps {a1 a2} (hP : Within [.regs, .pwmA] P) (h0 : Keeps P s t) :
    Keeps P s (axisSlot a1 a2 t) := by
  unfold axisSlot
  extract_lets -merge -useContext x1 x2 x3 x4 x5
  split
  · extract_lets -merge -useContext x6
    have h6 : Keeps P s x6 := (modPa_keeps (hP.of (by decide)) h0)
    clear_value x6
    split
    · exact (iwBit_keeps (hP.of (by decide)) h6)
    · extract_lets -merge -useContext x7 x8
      have h7 : Keeps P s x7 := (iw_keeps (hP.of (by decide)) h6)
      clear_value x7
      have h8 : Keeps P s x8 := (Keeps.ite (iw_keeps (hP.of (by decide)) h7) h7)
      clear_value x8
      exact (iwBit_keeps (hP.of (by decide)) h8)

theorem tripClrWrite_keeps {a1} (hP : Within [.regs, .pts, .queues, .q0pend, .helm, .ax, .pwmA, .pwmG, .clu] P) (h0 : Keeps P s t) :
    Keeps P s (tripClrWrite a1 t) := by
  unfold tripClrWrite
  exact (forEach_keeps (fun _ _ h1 => (Keeps.ite (tripClear_keeps (hP.of (by decide)) h1) h1)) h0)

theorem forceWrite_keeps {a1 a2} (hP : Within [.regs, .pts, .queues, .q0pend, .helm, .ax, .clu] P) (h0 : Keeps P s t) :
    Keeps P s (forceWrite a1 a2 t) := by
  unfold forceWrite
  exact (Keeps.ite h0 (Keeps.ite (ev_keeps (hP.of (by decide)) (bwBit_keeps (hP.of (by decide)) h0)) (iw_keeps (hP.of (by decide)) h0)))

theorem tinUpd_keeps {a1} (hP : Within [.regs] P) (h0 : Keeps P s t) :
    Keeps P s (tinUpd a1 t) := by
  unfold tinUpd
  exact (iwBit_keeps (hP.of (by decide)) (bwBit_keeps (hP.of (by decide)) h0))

theorem setActing_keeps {a1 a2} (hP : Within [.pwmA, .pwmG] P) (h0 : Keeps P s t) :
    Keeps P s (setActing a1 a2 t) := by
  unfold setActing
  split
  · exact (modPa_keeps (hP.of (by decide)) h0)
  · exact (modPg_keeps (hP.of (by decide)) h0)

theorem setLatched_keeps {a1 a2} (hP : Within [.regs] P) (h0 : Keeps P s t) :
    Keeps P s (setLatched a1 a2 t) := by
  unfold setLatched
  exact (iwBit_keeps (hP.of (by decide)) (bwBit_keeps (hP.of (by decide)) h0))

theorem tripAct_keeps {a1} (hP : Within [.regs, .pts, .queues, .q0pend, .helm, .ax, .pwmA, .pwmG, .clu, .drv] P) (h0 : Keeps P s t) :
    Keeps P s (tripAct a1 t) := by
  unfold tripAct
  extract_lets -merge -useContext x1 x2 x3 x4 x5 x6
  have h1 : Keeps P s x1 := (setActing_keeps (hP.of (by decide)) h0)
  clear_value x1
  have h2 : Keeps P s x2 := (Keeps.ite (sendOff_keeps (hP.of (by decide)) h1) h1)
  clear_value x2
  have h5 : Keeps P s x5 := (Keeps.ite (by
    split
    · exact (ev_keeps (hP.of (by decide)) h2)
    · exact (ev_keeps (hP.of (by decide)) h2)) h2)
  clear_value x5
  have h6 : Keeps P s x6 := (setLatched_keeps (hP.of (by decide)) h5)
  clear_value x6
  exact (Keeps.ite h0 (Keeps.ite h2 (Keeps.ite (by
    split
    · exact (raise_keeps (hP.of (by decide)) h6)
    · exact (raiseGrp_keeps (hP.of (by decide)) h6)) h5)))

theorem srcChange_keeps {a1 a2} (hP : Within [.regs, .pts, .queues, .q0pend, .helm, .ax, .pwmA, .pwmG, .clu, .drv] P) (h0 : Keeps P s t) :
    Keeps P s (srcChange a1 a2 t) := by
  unfold srcChange
  extract_lets -merge -useContext x1
  have h1 : Keeps P s x1 := (tinUpd_keeps (hP.of (by decide)) h0)
  clear_value x1
  exact (Keeps.ite h0 (Keeps.ite (tripAct_keeps (hP.of (by decide)) h1) h1))

theorem ocPut_keeps {a1 a2 a3} (hP : Within [.regs, .pwmA, .sdm] P) (h0 : Keeps P s t) :
    Keeps P s (ocPut a1 a2 a3 t) := by
  unfold ocPut
  extract_lets -merge -useContext x1 x2 x3 x4 x5
  have h3 : Keeps P s x3 := (modSdm_keeps (hP.of (by decide)) h0)
  clear_value x3
  have h4 : Keeps P s x4 := (Keeps.ite (bwBit_keeps (hP.of (by decide)) h3) (Keeps.ite (bwBit_keeps (hP.of (by decide)) h3) h3))
  clear_value x4
  exact (modPa_keeps (hP.of (by decide)) h4)

theorem ocAgain_keeps {a1} (hP : Within [.regs, .pts, .queues, .q0pend, .helm, .ax, .pwmA, .pwmG, .clu, .sdm, .drv] P) (h0 : Keeps P s t) :
    Keeps P s (ocAgain a1 t) := by
  unfold ocAgain
  exact (srcChange_keeps (hP.of (by decide)) (forEach_keeps (fun _ _ h1 => (ocPut_keeps (hP.of (by decide)) h1)) h0))

theorem grpRestart_keeps {a1} (hP : Within [.regs, .pwmA, .pwmG, .drv] P) (h0 : Keeps P s t) :
    Keeps P s (grpRestart a1 t) := by
  unfold grpRestart
  extract_lets -merge -useContext x1 x2 x3
  have h2 : Keeps P s x2 := (modPg_keeps (hP.of (by decide)) h0)
  clear_value x2
  have h3 : Keeps P s x3 := (iw_keeps (hP.of (by decide)) h2)
  clear_value x3
  exact (forEach_keeps (fun _ _ h4 => (modPa_keeps (hP.of (by decide)) (Keeps.dite (fun _ => (modDrv_keeps (hP.of (by decide)) h4)) (fun _ => h4)))) h3)

theorem pwmCommit_keeps {a1} (hP : Within [.regs, .pts, .queues, .q0pend, .helm, .ax, .pwmA, .pwmG, .pinsLow, .clu, .drv] P) (h0 : Keeps P s t) :
    Keeps P s (pwmCommit a1 t) := by
  unfold pwmCommit
  extract_lets -merge -useContext x1 x2 x3 x4 x5 x6
  clear_value x1
  have h2 : Keeps P s x2 := (bwBit_keeps (hP.of (by decide)) h0)
  clear_value x2
  have h4 : Keeps P s x4 := (copySet_keeps (hP.of (by decide)) h2)
  clear_value x4
  have h5 : Keeps P s x5 := (Keeps.upd h4 (by intro p hp; cases p <;> first | exact absurd (hP _ (by decide)) hp | rfl) ⟨rfl, rfl, rfl, rfl⟩)
  clear_value x5
  have h6 : Keeps P s x6 := (Keeps.ite (grpRestart_keeps (hP.of (by decide)) h5) h5)
  clear_value x6
  split
  · exact (ev_keeps (hP.of (by decide)) h2)
  · exact (srcChange_keeps (hP.of (by decide)) h6)

theorem pwmCommits_keeps {a1} (hP : Within [.regs, .pts, .queues, .q0pend, .helm, .ax, .pwmA, .pwmG, .pinsLow, .clu, .drv] P) (h0 : Keeps P s t) :
    Keeps P s (pwmCommits a1 t) := by
  unfold pwmCommits
  exact (forEach_keeps (fun _ _ h1 => (Keeps.ite (pwmCommit_keeps (hP.of (by decide)) h1) h1)) h0)

theorem unitBoundary_keeps {a1} (hP : Within [.regs, .pts, .queues, .q0pend, .helm, .ax, .pwmA, .pwmG, .clu, .drv] P) (h0 : Keeps P s t) :
    Keeps P s (unitBoundary a1 t) := by
  unfold unitBoundary
  extract_lets -merge -useContext x1 x2 x3 x4 x5 x6 x7
  have h2 : Keeps P s x2 := (setTcnt_keeps (hP.of (by decide)) h0)
  clear_value x2
  have h3 : Keeps P s x3 := (iwBit_keeps (hP.of (by decide)) h2)
  clear_value x3
  have h5 : Keeps P s x5 := (Keeps.ite (setClear_keeps (hP.of (by decide)) (setTcnt_keeps (hP.of (by decide)) (setLatched_keeps (hP.of (by decide)) h3))) h3)
  clear_value x5
  have h6 : Keeps P s x6 := (setActing_keeps (hP.of (by decide)) h5)
  clear_value x6
  exact (Keeps.ite (tripAct_keeps (hP.of (by decide)) h6) (Keeps.ite (Keeps.upd h6 (by intro p hp; cases p <;> first | exact absurd (hP _ (by decide)) hp | rfl) ⟨rfl, rfl, rfl, rfl⟩) h6))

theorem wdRelease_keeps {a1} (hP : Within [.regs, .pts, .pwmG, .drv] P) (h0 : Keeps P s t) :
    Keeps P s (wdRelease a1 t) := by
  unfold wdRelease
  exact (Keeps.ite (groupOn_keeps (hP.of (by decide)) h0) h0)

theorem pwmBoundary_keeps {a1 a2} (hP : Within [.regs, .pts, .queues, .q0pend, .helm, .ax, .pwmA, .pwmG, .pinsLow, .clu, .drv] P) (h0 : Keeps P s t) :
    Keeps P s (pwmBoundary a1 a2 t) := by
  unfold pwmBoundary
  extract_lets -merge -useContext x1 x2 x3 x4 x5 x6
  have h2 : Keeps P s x2 := (iw_keeps (hP.of (by decide)) h0)
  clear_value x2
  have h3 : Keeps P s x3 := (forEach_keeps (fun _ _ h7 => (unitBoundary_keeps (hP.of (by decide)) h7)) h2)
  clear_value x3
  have h4 : Keeps P s x4 := (wdRelease_keeps (hP.of (by decide)) h3)
  clear_value x4
  have h5 : Keeps P s x5 := (Keeps.ite (driveBoundary_keeps (hP.of (by decide)) h4) h4)
  clear_value x5
  have h6 : Keeps P s x6 := (forEach_keeps (fun _ _ h8 => (activate_keeps (hP.of (by decide)) h8)) h5)
  clear_value x6
  exact (pwmCommits_keeps (hP.of (by decide)) h6)

theorem dutyWdCheck_keeps {a1} (hP : Within [.regs, .pts, .queues, .q0pend, .helm, .mot, .ax, .gear, .igrp, .homing, .pwmA, .pwmG, .loop, .clu, .drv, .adm] P) (h0 : Keeps P s t) :
    Keeps P s (dutyWdCheck a1 t) := by
  unfold dutyWdCheck
  extract_lets -merge -useContext x1 x2 x3
  have h2 : Keeps P s x2 := (iwBit_keeps (hP.of (by decide)) (bwBit_keeps (hP.of (by decide)) h0))
  clear_value x2
  have h3 : Keeps P s x3 := (modPg_keeps (hP.of (by decide)) (groupOff_keeps (hP.of (by decide)) h2))
  clear_value x3
  exact (Keeps.ite h0 (by
    split
    · exact h0
    · extract_lets -merge -useContext x4
      exact (Keeps.ite (raiseGrp_keeps (hP.of (by decide)) h3) (ev_keeps (hP.of (by decide)) h3))))

theorem lateDutyCheck_keeps {a1 a2} (hP : Within [.regs, .pts, .queues, .q0pend, .helm, .mot, .ax, .gear, .igrp, .homing, .pwmA, .pwmG, .loop, .clu, .drv, .adm] P) (h0 : Keeps P s t) :
    Keeps P s (lateDutyCheck a1 a2 t) := by
  unfold lateDutyCheck
  extract_lets -merge -useContext x1 x2 x3
  have h3 : Keeps P s x3 := (Keeps.ite (modPg_keeps (hP.of (by decide)) h0) h0)
  clear_value x3
  exact (forEach_keeps (fun _ _ h4 => (by
    extract_lets -merge -useContext x5
    exact (Keeps.ite (raise_keeps (hP.of (by decide)) (groupOff_keeps (hP.of (by decide)) (bwBit_keeps (hP.of (by decide)) h4))) h4))) h3)

theorem freezeAxis_keeps {a1 a2 a3} (hP : Within [.regs, .pts, .queues, .q0pend, .helm, .ax, .pwmA, .clu] P) (h0 : Keeps P s t) :
    Keeps P s (freezeAxis a1 a2 a3 t) := by
  unfold freezeAxis
  extract_lets -merge -useContext x1 x2 x3 x4 x5 x6 x7
  have h3 : Keeps P s x3 := (modPa_keeps (hP.of (by decide)) h0)
  clear_value x3
  have h4 : Keeps P s x4 := (modPa_keeps (hP.of (by decide)) h0)
  clear_value x4
  have h5 : Keeps P s x5 := (modPa_keeps (hP.of (by decide)) h4)
  clear_value x5
  have h6 : Keeps P s x6 := (iwSat_keeps (hP.of (by decide)) h5)
  clear_value x6
  have h7 : Keeps P s x7 := (iwBit_keeps (hP.of (by decide)) (bwBit_keeps (hP.of (by decide)) h6))
  clear_value x7
  exact (Keeps.ite (iwBit_keeps (hP.of (by decide)) h3) (Keeps.ite (Keeps.ite (ev_keeps (hP.of (by decide)) h7) h7) h4))

theorem dutyDeadline_keeps {a1 a2} (hP : Within [.regs, .pts, .queues, .q0pend, .helm, .mot, .ax, .gear, .igrp, .homing, .pwmA, .pwmG, .loop, .clu, .drv, .adm] P) (h0 : Keeps P s t) :
    Keeps P s (dutyDeadline a1 a2 t) := by
  unfold dutyDeadline
  extract_lets -merge -useContext x1 x2
  exact (Keeps.ite (dutyWdCheck_keeps (hP.of (by decide)) (lateDutyCheck_keeps (hP.of (by decide)) (forEach_keeps (fun _ _ h3 => (freezeAxis_keeps (hP.of (by decide)) h3)) h0))) h0)

theorem shipSched_keeps {a1} (hP : Within [.drv] P) (h0 : Keeps P s t) :
    Keeps P s (shipSched a1 t) := by
  unfold shipSched
  extract_lets -merge -useContext x1 x2
  exact (Keeps.ite (modDrv_keeps (hP.of (by decide)) h0) h0)

theorem edgeCompute_keeps {a1 a2} (hP : Within [.regs, .pwmA, .drv] P) (h0 : Keeps P s t) :
    Keeps P s (edgeCompute a1 a2 t) := by
  unfold edgeCompute
  extract_lets -merge -useContext x1 x2 x3
  have h3 : Keeps P s x3 := (forEach_keeps (fun _ _ h4 => (forEach_keeps (fun _ _ h5 => (axisSlot_keeps (hP.of (by decide)) h5)) h4)) h0)
  clear_value x3
  exact (Keeps.ite (Keeps.ite (shipSched_keeps (hP.of (by decide)) h3) h3) h0)

theorem execDutyDeadline_keeps {a1 a2} (hP : Within [.now, .regs, .pts, .queues, .q0pend, .helm, .mot, .ax, .gear, .igrp, .homing, .pwmA, .pwmG, .loop, .clu, .drv, .adm] P) (h0 : Keeps P s t) :
    Runs P s (execDutyDeadline a1 a2 t) := by
  unfold execDutyDeadline
  exact (Runs.next (dutyDeadline_keeps (hP.of (by decide)) (atTime_keeps (hP.of (by decide)) h0)))

theorem execLateDuty_keeps {a1 a2} (hP : Within [.now, .regs, .pts, .queues, .q0pend, .helm, .mot, .ax, .gear, .igrp, .homing, .pwmA, .pwmG, .loop, .clu, .drv, .adm] P) (h0 : Keeps P s t) :
    Runs P s (execLateDuty a1 a2 t) := by
  unfold execLateDuty
  exact (Runs.next (lateDutyCheck_keeps (hP.of (by decide)) (atTime_keeps (hP.of (by decide)) h0)))

theorem execDutyWd_keeps {a1 a2} (hP : Within [.now, .regs, .pts, .queues, .q0pend, .helm, .mot, .ax, .gear, .igrp, .homing, .pwmA, .pwmG, .loop, .clu, .drv, .adm] P) (h0 : Keeps P s t) :
    Runs P s (execDutyWd a1 a2 t) := by
  unfold execDutyWd
  exact (Runs.next (dutyWdCheck_keeps (hP.of (by decide)) (atTime_keeps (hP.of (by decide)) h0)))

theorem execEdgeCompute_keeps {a1 a2} (hP : Within [.now, .regs, .pwmA, .drv] P) (h0 : Keeps P s t) :
    Runs P s (execEdgeCompute a1 a2 t) := by
  unfold execEdgeCompute
  exact (Runs.next (edgeCompute_keeps (hP.of (by decide)) (atTime_keeps (hP.of (by decide)) h0)))

theorem execPwmForceWrite_keeps {a1 a2} (hP : Within [.regs, .pts, .queues, .q0pend, .helm, .ax, .clu] P) (h0 : Keeps P s t) :
    Runs P s (execPwmForceWrite a1 a2 t) := by
  unfold execPwmForceWrite
  exact (Runs.next (forceWrite_keeps (hP.of (by decide)) h0))

theorem execPwmTripclr_keeps {a1} (hP : Within [.regs, .pts, .queues, .q0pend, .helm, .ax, .pwmA, .pwmG, .clu] P) (h0 : Keeps P s t) :
    Runs P s (execPwmTripclr a1 t) := by
  unfold execPwmTripclr
  exact (Runs.next (tripClrWrite_keeps (hP.of (by decide)) h0))

theorem ocEvent_keeps {a1 a2 a3} (hP : Within [.regs, .pwmA, .sdm] P) (h0 : Keeps P s t) :
    Keeps P s (ocEvent a1 a2 a3 t) := by
  unfold ocEvent
  exact (ocPut_keeps (hP.of (by decide)) h0)

theorem tripEvent_keeps {a1 a2 a3} (hP : Within [.regs, .pts, .queues, .q0pend, .helm, .ax, .pwmA, .pwmG, .clu, .sdm, .drv] P) (h0 : Keeps P s t) :
    Keeps P s (tripEvent a1 a2 a3 t) := by
  unfold tripEvent
  exact (srcChange_keeps (hP.of (by decide)) (by
    split
    · exact (modPa_keeps (hP.of (by decide)) h0)
    · exact (modPg_keeps (hP.of (by decide)) h0)
    · exact (ocEvent_keeps (hP.of (by decide)) h0)
    · exact h0))

theorem execTripActive_keeps {a1 a2 a3 a4} (hP : Within [.now, .regs, .pts, .queues, .q0pend, .helm, .ax, .pwmA, .pwmG, .clu, .sdm, .drv] P) (h0 : Keeps P s t) :
    Runs P s (execTripActive a1 a2 a3 a4 t) := by
  unfold execTripActive
  exact (Runs.next (tripEvent_keeps (hP.of (by decide)) (atTime_keeps (hP.of (by decide)) h0)))

theorem outInterlock_keeps {a1 a2} (hP : Within [.regs, .pts, .queues, .q0pend, .helm, .ax, .clu] P) (h0 : Keeps P s t) :
    Keeps P s (outInterlock a1 a2 t) := by
  unfold outInterlock
  exact (Keeps.ite h0 (raise_keeps (hP.of (by decide)) (bwBit_keeps (hP.of (by decide)) h0)))

theorem execOutInterlock_keeps {a1 a2 a3} (hP : Within [.now, .regs, .pts, .queues, .q0pend, .helm, .ax, .clu] P) (h0 : Keeps P s t) :
    Runs P s (execOutInterlock a1 a2 a3 t) := by
  unfold execOutInterlock
  exact (Runs.next (outInterlock_keeps (hP.of (by decide)) (atTime_keeps (hP.of (by decide)) h0)))

end Sys2Proof.Machine
end

