-- ==== Sys2Proof/Laws/KeepsFaults.lean ====
section
/-!
SUPPORT. What the operations of Machine/Faults.lean may touch, and that they keep the canonical form: one lemma per operation.
-/
namespace Sys2Proof.Machine

variable {P : List Part} {s t : State}

theorem ackUncertain_keeps {a1} (hP : Within [.regs] P) (h0 : Keeps P s t) :
    Keeps P s (ackUncertain a1 t) := by
  unfold ackUncertain
  exact (forEach_keeps (fun _ _ h1 => (by
    extract_lets -merge -useContext x2
    exact (Keeps.ite (clearUncertain_keeps (hP.of (by decide)) h1) h1))) h0)

theorem ackSettle_keeps (hP : Within [.regs, .pts, .queues, .q0pend, .helm, .mot, .ax, .gear, .igrp, .homing, .pwmG, .loop, .clu, .drv, .adm] P) (h0 : Keeps P s t) :
    Keeps P s (ackSettle t) := by
  unfold ackSettle
  extract_lets -merge -useContext x1 x2 x3
  have h1 : Keeps P s x1 := (forEach_keeps (fun _ _ h4 => (Keeps.ite (torqueOff_keeps (hP.of (by decide)) h4) h4)) h0)
  clear_value x1
  have h2 : Keeps P s x2 := (forEach_keeps (fun _ _ h5 => (Keeps.ite (groupOn_keeps (hP.of (by decide)) h5) h5)) h1)
  clear_value x2
  have h3 : Keeps P s x3 := (Keeps.ite (setPt_keeps (hP.of (by decide)) h2) h2)
  clear_value x3
  exact (sumUpd_keeps (hP.of (by decide)) (faultnUpd_keeps (hP.of (by decide)) h3))

theorem clearEnds_keeps {a1} (hP : Within [.regs, .pts, .queues, .q0pend, .helm, .ax, .homing, .pwmA, .pwmG, .clu] P) (h0 : Keeps P s t) :
    Keeps P s (clearEnds a1 t) := by
  unfold clearEnds
  extract_lets -merge -useContext x1 x2 x3
  split
  · exact (modHom_keeps (hP.of (by decide)) h0)
  · exact (tripClear_keeps (hP.of (by decide)) h0)
  · exact (tripClear_keeps (hP.of (by decide)) h0)
  · exact (Keeps.ite (cluRestart_keeps (hP.of (by decide)) h0) h0)
  · exact (Keeps.ite (cluRestart_keeps (hP.of (by decide)) h0) h0)
  · exact (Keeps.ite (cluRestart_keeps (hP.of (by decide)) h0) h0)
  · exact (Keeps.ite (cluRestart_keeps (hP.of (by decide)) h0) h0)
  · exact h0

theorem acknowledge_keeps {a1 a2 a3} (hP : Within [.regs, .pts, .queues, .q0pend, .helm, .mot, .ax, .gear, .igrp, .homing, .pwmA, .pwmG, .loop, .clu, .drv, .adm] P) (h0 : Keeps P s t) :
    Keeps P s (acknowledge a1 a2 a3 t).2 := by
  unfold acknowledge
  extract_lets -merge -useContext x1 x2 x3 x4 x5 x6 x7
  clear_value x2
  have h6 : Keeps P s x6 := (Keeps.upd h0 (by intro p hp; cases p <;> first | exact absurd (hP _ (by decide)) hp | rfl) ⟨rfl, rfl, rfl, rfl⟩)
  clear_value x6
  have h7 : Keeps P s x7 := (ackSettle_keeps (hP.of (by decide)) (forEach_keeps (fun _ _ h8 => (clearEnds_keeps (hP.of (by decide)) h8)) h6))
  clear_value x7
  split
  · exact (Keeps.snd h7)
  · exact (Keeps.snd (ev_keeps (hP.of (by decide)) h7))

theorem ackAxis_keeps {a1 a2} (hP : Within [.regs, .pts, .queues, .q0pend, .helm, .mot, .ax, .gear, .igrp, .homing, .pwmA, .pwmG, .loop, .clu, .drv, .adm] P) (h0 : Keeps P s t) :
    Keeps P s (ackAxis a1 a2 t) := by
  unfold ackAxis
  extract_lets -merge -useContext x1
  have h1 : Keeps P s x1 := (ackUncertain_keeps (hP.of (by decide)) h0)
  clear_value x1
  exact (acknowledge_keeps (hP.of (by decide)) h1)

end Sys2Proof.Machine
end

