-- ==== Sys2Proof/Laws/KeepsSensing.lean ====
section
/-!
SUPPORT. What the operations of Machine/Sensing.lean may touch, and that they keep the canonical form: one lemma per operation.
-/
namespace Sys2Proof.Machine

variable {P : List Part} {s t : State}

theorem hkCommit_keeps {a1} (hP : Within [.regs, .pts, .queues, .q0pend, .helm, .ax, .clu] P) (h0 : Keeps P s t) :
    Keeps P s (hkCommit a1 t) := by
  unfold hkCommit
  extract_lets -merge -useContext x1 x2
  clear_value x1
  have h2 : Keeps P s x2 := (bwBit_keeps (hP.of (by decide)) h0)
  clear_value x2
  split
  · exact (ev_keeps (hP.of (by decide)) h2)
  · exact (copySet_keeps (hP.of (by decide)) h2)

theorem hkCommits_keeps (hP : Within [.regs, .pts, .queues, .q0pend, .helm, .ax, .clu] P) (h0 : Keeps P s t) :
    Keeps P s (hkCommits t) := by
  unfold hkCommits
  exact (forEach_keeps (fun _ _ h1 => (Keeps.ite (hkCommit_keeps (hP.of (by decide)) h1) h1)) h0)

theorem sdClkAgain_keeps {a1} (hP : Within [.regs, .pts, .queues, .q0pend, .helm, .ax, .pwmA, .pwmG, .clu, .sdm, .drv] P) (h0 : Keeps P s t) :
    Keeps P s (sdClkAgain a1 t) := by
  unfold sdClkAgain
  extract_lets -merge -useContext x1 x2
  have h2 : Keeps P s x2 := (modSdm_keeps (hP.of (by decide)) h0)
  clear_value x2
  exact (ocAgain_keeps (hP.of (by decide)) h2)

theorem sdmClkCommit_keeps {a1} (hP : Within [.regs, .pts, .queues, .q0pend, .helm, .ax, .pwmA, .pwmG, .clu, .sdm, .drv] P) (h0 : Keeps P s t) :
    Keeps P s (sdmClkCommit a1 t) := by
  unfold sdmClkCommit
  extract_lets -merge -useContext x1 x2 x3 x4 x5 x6 x7
  have h6 : Keeps P s x6 := (bwBit_keeps (hP.of (by decide)) h0)
  clear_value x6
  have h7 : Keeps P s x7 := (copySet_keeps (hP.of (by decide)) h6)
  clear_value x7
  exact (Keeps.ite (ev_keeps (hP.of (by decide)) h6) (Keeps.ite (forEach_keeps (fun _ _ h8 => (sdClkAgain_keeps (hP.of (by decide)) h8)) h7) h7))

theorem formCoef_keeps {a1} (hP : Within [.sdm] P) (h0 : Keeps P s t) :
    Keeps P s (formCoef a1 t) := by
  unfold formCoef
  exact (modSdm_keeps (hP.of (by decide)) h0)

theorem sdmCommit_keeps {a1} (hP : Within [.regs, .pts, .queues, .q0pend, .helm, .ax, .pwmA, .pwmG, .clu, .sdm, .drv] P) (h0 : Keeps P s t) :
    Keeps P s (sdmCommit a1 t) := by
  unfold sdmCommit
  extract_lets -merge -useContext x1 x2
  clear_value x1
  have h2 : Keeps P s x2 := (bwBit_keeps (hP.of (by decide)) h0)
  split
  · exact (ev_keeps (hP.of (by decide)) h2)
  · exact (ocAgain_keeps (hP.of (by decide)) (formCoef_keeps (hP.of (by decide)) (copySet_keeps (hP.of (by decide)) h2)))

theorem sdmCommits_keeps {a1} (hP : Within [.regs, .pts, .queues, .q0pend, .helm, .ax, .pwmA, .pwmG, .clu, .sdm, .drv] P) (h0 : Keeps P s t) :
    Keeps P s (sdmCommits a1 t) := by
  unfold sdmCommits
  extract_lets -merge -useContext x1
  have h1 : Keeps P s x1 := (forEach_keeps (fun _ _ h2 => (Keeps.ite (sdmCommit_keeps (hP.of (by decide)) h2) h2)) h0)
  clear_value x1
  exact (forEach_keeps (fun _ _ h3 => (Keeps.ite (sdmClkCommit_keeps (hP.of (by decide)) h3) h3)) h1)

theorem sdFeed_keeps {a1 a2 a3} (hP : Within [.regs, .sdm] P) (h0 : Keeps P s t) :
    Keeps P s (sdFeed a1 a2 a3 t) := by
  unfold sdFeed
  extract_lets -merge -useContext x1 x2 x3 x4
  have h4 : Keeps P s x4 := (modSdm_keeps (hP.of (by decide)) h0)
  clear_value x4
  exact (Keeps.ite h0 (Keeps.ite (iw_keeps (hP.of (by decide)) h4) h4))

theorem sdSample_keeps {a1 a2 a3} (hP : Within [.regs, .pts, .queues, .q0pend, .helm, .ax, .clu, .sdm] P) (h0 : Keeps P s t) :
    Keeps P s (sdSample a1 a2 a3 t) := by
  unfold sdSample
  extract_lets -merge -useContext x1 x2 x3 x4 x5 x6 x7 x8
  have h2 : Keeps P s x2 := (sdFeed_keeps (hP.of (by decide)) h0)
  clear_value x2
  have h6 : Keeps P s x6 := (modSdm_keeps (hP.of (by decide)) h2)
  clear_value x6
  have h7 : Keeps P s x7 := (Keeps.ite (ev_keeps (hP.of (by decide)) h6) h6)
  clear_value x7
  exact (Keeps.ite (iw_keeps (hP.of (by decide)) h2) (Keeps.ite h7 (iw_keeps (hP.of (by decide)) h7)))

theorem sdAxis_keeps {a1 a2} (hP : Within [.regs, .pts, .queues, .q0pend, .helm, .ax, .clu, .sdm] P) (h0 : Keeps P s t) :
    Keeps P s (sdAxis a1 a2 t) := by
  unfold sdAxis
  extract_lets -merge -useContext x1
  have h1 : Keeps P s x1 := (Keeps.ite (formCoef_keeps (hP.of (by decide)) h0) h0)
  clear_value x1
  exact (forEach_keeps (fun _ _ h2 => (sdSample_keeps (hP.of (by decide)) h2)) h1)

theorem sdIdle_keeps {a1 a2} (hP : Within [.regs, .sdm] P) (h0 : Keeps P s t) :
    Keeps P s (sdIdle a1 a2 t) := by
  unfold sdIdle
  exact (forEach_keeps (fun _ _ h1 => (sdFeed_keeps (hP.of (by decide)) h1)) h0)

theorem sdStuck_keeps {a1 a2 a3} (hP : Within [.regs, .pts, .queues, .q0pend, .helm, .ax, .clu, .sdm] P) (h0 : Keeps P s t) :
    Keeps P s (sdStuck a1 a2 a3 t) := by
  unfold sdStuck
  extract_lets -merge -useContext x1 x2 x3
  have h2 : Keeps P s x2 := (modSdm_keeps (hP.of (by decide)) h0)
  clear_value x2
  have h3 : Keeps P s x3 := (Keeps.ite (bwBit_keeps (hP.of (by decide)) h2) (bwBit_keeps (hP.of (by decide)) h2))
  clear_value x3
  exact (Keeps.ite (modSdm_keeps (hP.of (by decide)) h0) (Keeps.ite h0 (Keeps.ite (raiseAx_keeps (hP.of (by decide)) h3) (ev_keeps (hP.of (by decide)) h3))))

theorem execSdStuck_keeps {a1 a2 a3 a4} (hP : Within [.now, .regs, .pts, .queues, .q0pend, .helm, .ax, .clu, .sdm] P) (h0 : Keeps P s t) :
    Runs P s (execSdStuck a1 a2 a3 a4 t) := by
  unfold execSdStuck
  exact (Runs.next (sdStuck_keeps (hP.of (by decide)) (atTime_keeps (hP.of (by decide)) h0)))

theorem hkRaise_keeps {a1 a2 a3} (hP : Within [.regs, .pts, .queues, .q0pend, .helm, .ax, .clu] P) (h0 : Keeps P s t) :
    Keeps P s (hkRaise a1 a2 a3 t) := by
  unfold hkRaise
  extract_lets -merge -useContext x1
  exact (Keeps.ite (raiseDev_keeps (hP.of (by decide)) h0) (Keeps.ite (raise_keeps (hP.of (by decide)) h0) (ev_keeps (hP.of (by decide)) h0)))

theorem hkResult_keeps {a1 a2} (hP : Within [.regs, .pts, .queues, .q0pend, .helm, .ax, .clu, .hk] P) (h0 : Keeps P s t) :
    Keeps P s (hkResult a1 a2 t) := by
  unfold hkResult
  extract_lets -merge -useContext x1 x2 x3 x4 x5 x6 x7 x8 x9 x10 x11 x12 x13
  have h6 : Keeps P s x6 := (modHk_keeps (hP.of (by decide)) h0)
  clear_value x6
  exact (Keeps.ite (iw_keeps (hP.of (by decide)) (iw_keeps (hP.of (by decide)) h0)) (by
    split
    · extract_lets -merge -useContext x14 x15 x16
      have h14 : Keeps P s x14 := (iw_keeps (hP.of (by decide)) (iw_keeps (hP.of (by decide)) h6))
      clear_value x14
      have h15 : Keeps P s x15 := (Keeps.ite (hkRaise_keeps (hP.of (by decide)) h14) h14)
      clear_value x15
      have h16 : Keeps P s x16 := (Keeps.ite (hkRaise_keeps (hP.of (by decide)) h15) h15)
      clear_value x16
      exact (Keeps.ite (raiseDev_keeps (hP.of (by decide)) h16) h16)))

theorem hkConversion_keeps {a1 a2} (hP : Within [.regs, .pts, .queues, .q0pend, .helm, .ax, .clu, .hk] P) (h0 : Keeps P s t) :
    Keeps P s (hkConversion a1 a2 t) := by
  unfold hkConversion
  extract_lets -merge -useContext x1
  have h1 : Keeps P s x1 := (Keeps.ite (hkCommits_keeps (hP.of (by decide)) h0) h0)
  clear_value x1
  exact (Keeps.ite h0 (hkResult_keeps (hP.of (by decide)) (modHk_keeps (hP.of (by decide)) (Keeps.upd h1 (by intro p hp; cases p <;> first | exact absurd (hP _ (by decide)) hp | rfl) ⟨rfl, rfl, rfl, rfl⟩))))

theorem execHkConversion_keeps {a1 a2 a3} (hP : Within [.now, .regs, .pts, .queues, .q0pend, .helm, .ax, .clu, .hk] P) (h0 : Keeps P s t) :
    Runs P s (execHkConversion a1 a2 a3 t) := by
  unfold execHkConversion
  exact (Runs.next (hkConversion_keeps (hP.of (by decide)) (atTime_keeps (hP.of (by decide)) h0)))

theorem sdmSleep_keeps (hP : Within [.regs, .pts, .queues, .q0pend, .helm, .ax, .pwmA, .pwmG, .clu, .sdm, .drv] P) (h0 : Keeps P s t) :
    Keeps P s (sdmSleep t) := by
  unfold sdmSleep
  exact (forEach_keeps (fun _ _ h1 => (sdClkAgain_keeps (hP.of (by decide)) h1)) h0)

end Sys2Proof.Machine
end

