-- ==== Sys2Proof/Laws/KeepsStepping.lean ====
section
/-!
SUPPORT. What the operations of Machine/Stepping.lean may touch, and that they keep the canonical form: one lemma per operation.
-/
namespace Sys2Proof.Machine

variable {P : List Part} {s t : State}

theorem stepTabCopy_keeps {a1} (hP : Within [.regs] P) (h0 : Keeps P s t) :
    Keeps P s (stepTabCopy a1 t) := by
  unfold stepTabCopy
  extract_lets -merge -useContext x1
  exact (bwBit_keeps (hP.of (by decide)) (Keeps.foldl (fun _ _ h2 => (wr_keeps (hP.of (by decide)) h2)) _ h0))

theorem stepTabCommits_keeps (hP : Within [.regs] P) (h0 : Keeps P s t) :
    Keeps P s (stepTabCommits t) := by
  unfold stepTabCommits
  exact (forEach_keeps (fun _ _ h1 => (Keeps.ite (stepTabCopy_keeps (hP.of (by decide)) h1) h1)) h0)

theorem stepCommit_keeps {a1} (hP : Within [.regs, .pts, .queues, .q0pend, .helm, .ax, .clu] P) (h0 : Keeps P s t) :
    Keeps P s (stepCommit a1 t) := by
  unfold stepCommit
  extract_lets -merge -useContext x1 x2 x3
  clear_value x2
  have h3 : Keeps P s x3 := (bwBit_keeps (hP.of (by decide)) h0)
  clear_value x3
  split
  · exact (ev_keeps (hP.of (by decide)) h3)
  · exact (copySet_keeps (hP.of (by decide)) h3)

theorem stepHold_keeps {a1 a2} (hP : Within [.regs, .stp] P) (h0 : Keeps P s t) :
    Keeps P s (stepHold a1 a2 t) := by
  unfold stepHold
  extract_lets -merge -useContext x1 x2 x3 x4
  have h2 : Keeps P s x2 := (modStp_keeps (hP.of (by decide)) h0)
  clear_value x2
  have h4 : Keeps P s x4 := (modStp_keeps (hP.of (by decide)) h2)
  clear_value x4
  exact (iw_keeps (hP.of (by decide)) h4)

theorem stepEvaluate_keeps {a1 a2} (hP : Within [.regs, .pts, .queues, .q0pend, .helm, .ax, .stp, .clu] P) (h0 : Keeps P s t) :
    Keeps P s (stepEvaluate a1 a2 t).1 := by
  unfold stepEvaluate
  extract_lets -merge -useContext x1 x2 x3 x4 x5 x6 x7 x8 x9 x10 x11
  have h1 : Keeps P s x1 := (stepHold_keeps (hP.of (by decide)) h0)
  clear_value x1
  have h9 : Keeps P s x9 := (modStp_keeps (hP.of (by decide)) h1)
  clear_value x9
  have h10 : Keeps P s x10 := (iw64_keeps (hP.of (by decide)) (iw_keeps (hP.of (by decide)) h9))
  clear_value x10
  have h11 : Keeps P s x11 := (Keeps.ite (raiseAx_keeps (hP.of (by decide)) (bwBit_keeps (hP.of (by decide)) h10)) h10)
  clear_value x11
  split
  · split
    · extract_lets -merge -useContext x12
      exact (Keeps.fst h11)

theorem execStepHoldCurrent_keeps {a1 a2} (hP : Within [.now, .regs, .stp] P) (h0 : Keeps P s t) :
    Runs P s (execStepHoldCurrent a1 a2 t) := by
  unfold execStepHoldCurrent
  extract_lets -merge -useContext x1
  have h1 : Keeps P s x1 := (atTime_keeps (hP.of (by decide)) h0)
  clear_value x1
  exact (Runs.next (Keeps.ite (stepHold_keeps (hP.of (by decide)) h1) h1))

end Sys2Proof.Machine
end

