-- ==== Sys2Proof/Laws/KeepsAxisCmd.lean ====
section
/-!
SUPPORT. What the operations of Machine/AxisCmd.lean may touch, and that they keep the canonical form: one lemma per operation.
-/
namespace Sys2Proof.Machine

variable {P : List Part} {s t : State}

theorem clearCmd_keeps {a1 a2} (hP : Within [.pts] P) (h0 : Keeps P s t) :
    Keeps P s (clearCmd a1 a2 t) := by
  unfold clearCmd
  exact (setAp_keeps (hP.of (by decide)) h0)

theorem ackTake_keeps {a1 a2} (hP : Within [.regs, .pts, .queues, .q0pend, .helm, .mot, .ax, .gear, .igrp, .homing, .pwmA, .pwmG, .loop, .clu, .drv, .adm] P) (h0 : Keeps P s t) :
    Keeps P s (ackTake a1 a2 t) := by
  unfold ackTake
  exact (Keeps.ite (ackAxis_keeps (hP.of (by decide)) (clearCmd_keeps (hP.of (by decide)) h0)) h0)

theorem motDo_keeps {a1 a2} (hP : Within [.regs, .pts, .queues, .q0pend, .helm, .mot, .ax, .igrp, .clu] P) (h0 : Keeps P s t) :
    Keeps P s (motDo a1 a2 t) := by
  unfold motDo
  extract_lets -merge -useContext x1
  split
  · exact (Keeps.ite (igDo_keeps (hP.of (by decide)) h0) h0)
  · exact (planEvents_keeps (hP.of (by decide)) (modMot_keeps (hP.of (by decide)) h0))

theorem motAt_keeps {a1 a2} (hP : Within [.regs, .pts, .queues, .q0pend, .helm, .mot, .ax, .igrp, .clu] P) (h0 : Keeps P s t) :
    Keeps P s (motAt a1 a2 t) := by
  unfold motAt
  split
  · exact (Keeps.ite (igDo_keeps (hP.of (by decide)) h0) h0)
  · exact (motDo_keeps (hP.of (by decide)) h0)

theorem atAxB_keeps {a1 a2 a3} (hP : Within [.now, .regs, .pts, .queues, .q0pend, .helm, .mot, .ax, .igrp, .clu] P) (hf3 : ∀ x, Keeps P s x → Keeps P s (a3 x)) (h0 : Keeps P s t) :
    Runs P s (atAxB a1 a2 a3 t) := by
  unfold atAxB
  extract_lets -merge -useContext x1
  have h1 : Keeps P s x1 := (atTime_keeps (hP.of (by decide)) h0)
  clear_value x1
  exact (Runs.next (Keeps.ite (hf3 _ (motAt_keeps (hP.of (by decide)) h1)) h1))

theorem readyAt_keeps {a1 a2} (hP : Within [.regs, .mot, .ax, .env, .igrp, .loop] P) (h0 : Keeps P s t) :
    Keeps P s (readyAt a1 a2 t) := by
  unfold readyAt
  extract_lets -merge -useContext x1 x2 x3 x4 x5 x6
  have h3 : Keeps P s x3 := (modMot_keeps (hP.of (by decide)) h0)
  clear_value x3
  have h4 : Keeps P s x4 := (by
    unfold x4
    split
    · exact (Keeps.ite h3 (modIg_keeps (hP.of (by decide)) h3))
    · exact h3)
  clear_value x4
  have h5 : Keeps P s x5 := (modEnv_keeps (hP.of (by decide)) h4)
  clear_value x5
  have h6 : Keeps P s x6 := (modLoop_keeps (hP.of (by decide)) h5)
  clear_value x6
  exact (Keeps.ite (bwBit_keeps (hP.of (by decide)) (modAx_keeps (hP.of (by decide)) h6)) h0)

theorem levelOne_keeps {a1 a2} (hP : Within [.regs, .pts, .queues, .q0pend, .helm, .mot, .ax, .gear, .sup, .env, .igrp, .homing, .loop, .clu, .drv, .adm] P) (h0 : Keeps P s t) :
    Keeps P s (levelOne a1 a2 t) := by
  unfold levelOne
  extract_lets -merge -useContext x1
  have h1 : Keeps P s x1 := (Keeps.ite h0 (quickStop_keeps (hP.of (by decide)) h0))
  clear_value x1
  exact (Keeps.ite h0 (by
    split
    · exact h0
    · exact h0
    · exact (torqueOff_keeps (hP.of (by decide)) h0)
    · exact (modAx_keeps (hP.of (by decide)) h1)))

theorem qstopOn_keeps {a1 a2} (hP : Within [.regs, .pts, .queues, .q0pend, .helm, .mot, .ax, .gear, .sup, .env, .igrp, .clu] P) (h0 : Keeps P s t) :
    Keeps P s (qstopOn a1 a2 t) := by
  unfold qstopOn
  split
  · exact h0
  · exact h0
  · exact (Keeps.ite h0 (modAx_keeps (hP.of (by decide)) (quickStop_keeps (hP.of (by decide)) h0)))

theorem pathStopEnd_keeps {a1} (hP : Within [.igrp] P) (h0 : Keeps P s t) :
    Keeps P s (pathStopEnd a1 t) := by
  unfold pathStopEnd
  extract_lets -merge -useContext x1
  exact (Keeps.ite (modIg_keeps (hP.of (by decide)) h0) h0)

theorem qstopEnd_keeps {a1} (hP : Within [.mot, .igrp] P) (h0 : Keeps P s t) :
    Keeps P s (qstopEnd a1 t) := by
  unfold qstopEnd
  extract_lets -merge -useContext x1
  have h1 : Keeps P s x1 := (modMot_keeps (hP.of (by decide)) h0)
  clear_value x1
  exact (Keeps.ite (by
    split
    · exact (pathStopEnd_keeps (hP.of (by decide)) h1)
    · exact h1) h0)

theorem enableRead_keeps {a1} (hP : Within [.regs, .pts, .queues, .q0pend, .helm, .ax, .clu, .drv, .adm] P) (h0 : Keeps P s t) :
    Keeps P s (enableRead a1 t) := by
  unfold enableRead
  extract_lets -merge -useContext x1 x2 x3
  have h3 : Keeps P s x3 := (modAx_keeps (hP.of (by decide)) h0)
  clear_value x3
  exact (Keeps.ite (by
    split
    · exact (axRequest_keeps (hP.of (by decide)) (modAx_keeps (hP.of (by decide)) h3))
    · exact (ev_keeps (hP.of (by decide)) h3)) h3)

theorem enableOff_keeps {a1 a2} (hP : Within [.regs, .pts, .queues, .q0pend, .helm, .mot, .ax, .gear, .sup, .env, .igrp, .homing, .loop, .clu, .drv, .adm] P) (h0 : Keeps P s t) :
    Keeps P s (enableOff a1 a2 t) := by
  unfold enableOff
  extract_lets -merge -useContext x1
  have h1 : Keeps P s x1 := (Keeps.ite h0 (quickStop_keeps (hP.of (by decide)) h0))
  clear_value x1
  split
  · exact h0
  · exact (torqueOff_keeps (hP.of (by decide)) h0)
  · exact (Keeps.ite (torqueOff_keeps (hP.of (by decide)) h0) (Keeps.ite h0 (modAx_keeps (hP.of (by decide)) h1)))

theorem clearqTake_keeps {a1 a2} (hP : Within [.regs, .pts, .queues, .q0pend, .helm, .mot, .ax, .igrp, .clu] P) (h0 : Keeps P s t) :
    Keeps P s (clearqTake a1 a2 t) := by
  unfold clearqTake
  exact (Keeps.ite (motDo_keeps (hP.of (by decide)) (clearCmd_keeps (hP.of (by decide)) h0)) h0)

theorem holdTake_keeps {a1 a2} (hP : Within [.regs, .pts, .queues, .q0pend, .helm, .mot, .ax, .igrp, .clu] P) (h0 : Keeps P s t) :
    Keeps P s (holdTake a1 a2 t) := by
  unfold holdTake
  extract_lets -merge -useContext x1
  exact (Keeps.ite (motDo_keeps (hP.of (by decide)) h0) h0)

theorem withOffs_keeps {a1 a2} (hP : Within [.igrp] P) (hf2 : ∀ x, Keeps P s x → Keeps P s (a2 x)) (h0 : Keeps P s t) :
    Keeps P s (withOffs a1 a2 t) := by
  unfold withOffs
  extract_lets -merge -useContext x1 x2
  have h2 : Keeps P s x2 := (hf2 _ h0)
  clear_value x2
  split
  · extract_lets -merge -useContext x3
    exact (modIg_keeps (hP.of (by decide)) h2)
  · exact h2

theorem gearTake_keeps {a1 a2} (hP : Within [.regs, .pts, .queues, .q0pend, .helm, .mot, .ax, .gear, .sup, .env, .igrp, .clu] P) (h0 : Keeps P s t) :
    Keeps P s (gearTake a1 a2 t) := by
  unfold gearTake
  exact (withOffs_keeps (hP.of (by decide)) (fun _ h1 => (gearChange_keeps (hP.of (by decide)) h1)) h0)

theorem homeTake_keeps {a1 a2} (hP : Within [.regs, .pts, .queues, .q0pend, .helm, .mot, .ax, .homing, .clu] P) (h0 : Keeps P s t) :
    Keeps P s (homeTake a1 a2 t) := by
  unfold homeTake
  exact (homePublish_keeps (hP.of (by decide)) (homeChange_keeps (hP.of (by decide)) h0))

theorem superTake_keeps {a1} (hP : Within [.sup] P) (h0 : Keeps P s t) :
    Keeps P s (superTake a1 t) := by
  unfold superTake
  exact (superChange_keeps (hP.of (by decide)) h0)

theorem subReject_keeps {a1 a2 a3} (hP : Within [.regs, .pts, .queues, .q0pend, .helm, .ax, .clu] P) (h0 : Keeps P s t) :
    Keeps P s (subReject a1 a2 a3 t) := by
  unfold subReject
  extract_lets -merge -useContext x1 x2
  have h2 : Keeps P s x2 := (bw_keeps (hP.of (by decide)) h0)
  clear_value x2
  exact (ev_keeps (hP.of (by decide)) h2)

theorem enterApply_keeps {a1 a2} (hP : Within [.regs, .pts, .queues, .q0pend, .helm, .mot, .ax, .igrp, .clu] P) (h0 : Keeps P s t) :
    Keeps P s (enterApply a1 a2 t) := by
  unfold enterApply
  extract_lets -merge -useContext x1 x2 x3
  have h3 : Keeps P s x3 := (Keeps.ite h0 (motDo_keeps (hP.of (by decide)) h0))
  clear_value x3
  exact (forEach_keeps (fun _ _ h4 => (by
    extract_lets -merge -useContext x5
    exact (Keeps.ite (subReject_keeps (hP.of (by decide)) h4) (motDo_keeps (hP.of (by decide)) h4)))) h3)

theorem planOne_keeps {a1} (hP : Within [.helm] P) (h0 : Keeps P s t) :
    Keeps P s (planOne a1 t) := by
  unfold planOne
  extract_lets -merge -useContext x1
  exact (Keeps.upd h0 (by intro p hp; cases p <;> first | exact absurd (hP _ (by decide)) hp | rfl) ⟨rfl, rfl, rfl, rfl⟩)

theorem deferEntries_keeps {a1 a2 a3 a4} (hP : Within [.regs, .pts, .queues, .q0pend, .helm, .mot, .ax, .igrp, .clu] P) (h0 : Keeps P s t) :
    Keeps P s (deferEntries a1 a2 a3 a4 t) := by
  unfold deferEntries
  extract_lets -merge -useContext x1 x2 x3 x4 x5 x6
  have h5 : Keeps P s x5 := (motDo_keeps (hP.of (by decide)) h0)
  clear_value x5
  have h6 : Keeps P s x6 := (Keeps.ite (planOne_keeps (hP.of (by decide)) h5) h5)
  clear_value x6
  exact (Keeps.ite h0 (forEach_keeps (fun _ _ h7 => (ev_keeps (hP.of (by decide)) (bwSat_keeps (hP.of (by decide)) h7))) h6))

theorem subTake_keeps {a1 a2} (hP : Within [.regs, .pts, .queues, .q0pend, .helm, .mot, .ax, .igrp, .clu] P) (h0 : Keeps P s t) :
    Keeps P s (subTake a1 a2 t) := by
  unfold subTake
  extract_lets -merge -useContext x1 x2 x3 x4 x5
  clear_value x3 x4
  have h2 : Keeps P s x2 := (modAx_keeps (hP.of (by decide)) h0)
  clear_value x2
  have h5 : Keeps P s x5 := (setAp_keeps (hP.of (by decide)) h2)
  clear_value x5
  exact (Keeps.ite h0 (by
    split
    · extract_lets -merge -useContext x6 x7
      have h6 : Keeps P s x6 := (setAp_keeps (hP.of (by decide)) h5)
      clear_value x6
      exact (planOne_keeps (hP.of (by decide)) (motDo_keeps (hP.of (by decide)) h6))
    · exact (subReject_keeps (hP.of (by decide)) (setAp_keeps (hP.of (by decide)) h5))))

theorem pathFault_keeps {a1 a2} (hP : Within [.mot, .igrp] P) (h0 : Keeps P s t) :
    Keeps P s (pathFault a1 a2 t) := by
  unfold pathFault
  extract_lets -merge -useContext x1 x2
  have h2 : Keeps P s x2 := (modIg_keeps (hP.of (by decide)) h0)
  clear_value x2
  exact (Keeps.ite (igStop_keeps (hP.of (by decide)) h2) h2)

theorem stopTimeout_keeps {a1 a2} (hP : Within [.regs, .pts, .queues, .q0pend, .helm, .ax, .clu] P) (h0 : Keeps P s t) :
    Keeps P s (stopTimeout a1 a2 t) := by
  unfold stopTimeout
  extract_lets -merge -useContext x1
  exact (Keeps.ite (raiseAx_keeps (hP.of (by decide)) h0) h0)

theorem seqUpdate_keeps {a1} (hP : Within [.regs, .pts, .queues, .q0pend, .helm, .mot, .ax, .gear, .igrp, .homing, .loop, .clu, .drv, .adm] P) (h0 : Keeps P s t) :
    Keeps P s (seqUpdate a1 t) := by
  unfold seqUpdate
  extract_lets -merge -useContext x1
  split
  · exact (Keeps.ite (Keeps.ite (torqueOff_keeps (hP.of (by decide)) h0) (modAx_keeps (hP.of (by decide)) h0)) h0)
  · exact (Keeps.ite (modAx_keeps (hP.of (by decide)) h0) h0)
  · exact (Keeps.ite h0 (modAx_keeps (hP.of (by decide)) h0))
  · exact h0

theorem execAxisStopTimeout_keeps {a1 a2} (hP : Within [.now, .regs, .pts, .queues, .q0pend, .helm, .ax, .clu] P) (h0 : Keeps P s t) :
    Runs P s (execAxisStopTimeout a1 a2 t) := by
  unfold execAxisStopTimeout
  extract_lets -merge -useContext x1
  have h1 : Keeps P s x1 := (atTime_keeps (hP.of (by decide)) h0)
  clear_value x1
  exact (Runs.next (stopTimeout_keeps (hP.of (by decide)) h1))

theorem execHomeTimeout_keeps {a1 a2} (hP : Within [.now, .regs, .pts, .queues, .q0pend, .helm, .mot, .ax, .igrp, .homing, .clu] P) (h0 : Keeps P s t) :
    Runs P s (execHomeTimeout a1 a2 t) := by
  unfold execHomeTimeout
  exact (atAxB_keeps (hP.of (by decide)) (fun _ h1 => (homeTimeout_keeps (hP.of (by decide)) h1)) h0)

theorem execHomeNotFound_keeps {a1 a2} (hP : Within [.now, .regs, .pts, .queues, .q0pend, .helm, .mot, .ax, .igrp, .homing, .clu] P) (h0 : Keeps P s t) :
    Runs P s (execHomeNotFound a1 a2 t) := by
  unfold execHomeNotFound
  exact (atAxB_keeps (hP.of (by decide)) (fun _ h1 => (homeNotFound_keeps (hP.of (by decide)) h1)) h0)

theorem execHardstopDetect_keeps {a1 a2} (hP : Within [.now, .regs, .pts, .queues, .q0pend, .helm, .mot, .ax, .env, .igrp, .homing, .stp, .loop, .clu] P) (h0 : Keeps P s t) :
    Runs P s (execHardstopDetect a1 a2 t) := by
  unfold execHardstopDetect
  exact (atAxB_keeps (hP.of (by decide)) (fun _ h1 => (hardStop_keeps (hP.of (by decide)) h1)) h0)

theorem execGearMasterStale_keeps {a1 a2} (hP : Within [.now, .regs, .pts, .queues, .q0pend, .helm, .mot, .ax, .gear, .igrp, .clu] P) (h0 : Keeps P s t) :
    Runs P s (execGearMasterStale a1 a2 t) := by
  unfold execGearMasterStale
  exact (atAxB_keeps (hP.of (by decide)) (fun _ h1 => (gearStale_keeps (hP.of (by decide)) h1)) h0)

theorem execSuperStale_keeps {a1 a2} (hP : Within [.now, .regs, .pts, .queues, .q0pend, .helm, .mot, .ax, .sup, .igrp, .clu] P) (h0 : Keeps P s t) :
    Runs P s (execSuperStale a1 a2 t) := by
  unfold execSuperStale
  exact (atAxB_keeps (hP.of (by decide)) (fun _ h1 => (superStale_keeps (hP.of (by decide)) h1)) h0)

theorem execEnable_keeps {a1 a2} (hP : Within [.now, .regs, .pts, .queues, .q0pend, .helm, .mot, .ax, .igrp, .clu, .drv, .adm] P) (h0 : Keeps P s t) :
    Runs P s (execEnable a1 a2 t) := by
  unfold execEnable
  exact (atAxB_keeps (hP.of (by decide)) (fun _ h1 => (enableRead_keeps (hP.of (by decide)) h1)) h0)

theorem execEnableClear_keeps {a1 a2} (hP : Within [.now, .regs, .pts, .queues, .q0pend, .helm, .mot, .ax, .gear, .sup, .env, .igrp, .homing, .loop, .clu, .drv, .adm] P) (h0 : Keeps P s t) :
    Runs P s (execEnableClear a1 a2 t) := by
  unfold execEnableClear
  exact (atAxB_keeps (hP.of (by decide)) (fun _ h1 => (by
    extract_lets -merge -useContext x2
    have h2 : Keeps P s x2 := (enableRead_keeps (hP.of (by decide)) h1)
    clear_value x2
    exact (Keeps.ite (enableOff_keeps (hP.of (by decide)) h2) h2))) h0)

theorem execAck_keeps {a1 a2} (hP : Within [.now, .regs, .pts, .queues, .q0pend, .helm, .mot, .ax, .gear, .igrp, .homing, .pwmA, .pwmG, .loop, .clu, .drv, .adm] P) (h0 : Keeps P s t) :
    Runs P s (execAck a1 a2 t) := by
  unfold execAck
  exact (atAxB_keeps (hP.of (by decide)) (fun _ h1 => (ackTake_keeps (hP.of (by decide)) h1)) h0)

theorem execQstop_keeps {a1 a2} (hP : Within [.now, .regs, .pts, .queues, .q0pend, .helm, .mot, .ax, .gear, .sup, .env, .igrp, .clu] P) (h0 : Keeps P s t) :
    Runs P s (execQstop a1 a2 t) := by
  unfold execQstop
  exact (atAxB_keeps (hP.of (by decide)) (fun _ h1 => (Keeps.ite (qstopOn_keeps (hP.of (by decide)) h1) h1)) h0)

theorem execQstopRelease_keeps {a1 a2} (hP : Within [.now, .regs, .pts, .queues, .q0pend, .helm, .mot, .ax, .igrp, .clu] P) (h0 : Keeps P s t) :
    Runs P s (execQstopRelease a1 a2 t) := by
  unfold execQstopRelease
  exact (atAxB_keeps (hP.of (by decide)) (fun _ h1 => (qstopEnd_keeps (hP.of (by decide)) h1)) h0)

theorem execHold_keeps {a1 a2} (hP : Within [.now, .regs, .pts, .queues, .q0pend, .helm, .mot, .ax, .igrp, .clu] P) (h0 : Keeps P s t) :
    Runs P s (execHold a1 a2 t) := by
  unfold execHold
  exact (atAxB_keeps (hP.of (by decide)) (fun _ h1 => (Keeps.ite (holdTake_keeps (hP.of (by decide)) h1) h1)) h0)

theorem execHoldRelease_keeps {a1 a2} (hP : Within [.now, .regs, .pts, .queues, .q0pend, .helm, .mot, .ax, .igrp, .clu] P) (h0 : Keeps P s t) :
    Runs P s (execHoldRelease a1 a2 t) := by
  unfold execHoldRelease
  exact (atAxB_keeps (hP.of (by decide)) (fun _ h1 => (Keeps.ite h1 (holdTake_keeps (hP.of (by decide)) h1))) h0)

theorem execClearq_keeps {a1 a2} (hP : Within [.now, .regs, .pts, .queues, .q0pend, .helm, .mot, .ax, .igrp, .clu] P) (h0 : Keeps P s t) :
    Runs P s (execClearq a1 a2 t) := by
  unfold execClearq
  exact (atAxB_keeps (hP.of (by decide)) (fun _ h1 => (clearqTake_keeps (hP.of (by decide)) h1)) h0)

theorem execHome_keeps {a1 a2} (hP : Within [.now, .regs, .pts, .queues, .q0pend, .helm, .mot, .ax, .igrp, .homing, .clu] P) (h0 : Keeps P s t) :
    Runs P s (execHome a1 a2 t) := by
  unfold execHome
  exact (atAxB_keeps (hP.of (by decide)) (fun _ h1 => (Keeps.ite (homeTake_keeps (hP.of (by decide)) h1) h1)) h0)

theorem execHomeClear_keeps {a1 a2} (hP : Within [.now, .regs, .pts, .queues, .q0pend, .helm, .mot, .ax, .igrp, .homing, .clu] P) (h0 : Keeps P s t) :
    Runs P s (execHomeClear a1 a2 t) := by
  unfold execHomeClear
  exact (atAxB_keeps (hP.of (by decide)) (fun _ h1 => (Keeps.ite h1 (homeTake_keeps (hP.of (by decide)) h1))) h0)

theorem execGear_keeps {a1 a2} (hP : Within [.now, .regs, .pts, .queues, .q0pend, .helm, .mot, .ax, .gear, .sup, .env, .igrp, .clu] P) (h0 : Keeps P s t) :
    Runs P s (execGear a1 a2 t) := by
  unfold execGear
  exact (atAxB_keeps (hP.of (by decide)) (fun _ h1 => (Keeps.ite (gearTake_keeps (hP.of (by decide)) h1) h1)) h0)

theorem execGearClear_keeps {a1 a2} (hP : Within [.now, .regs, .pts, .queues, .q0pend, .helm, .mot, .ax, .gear, .sup, .env, .igrp, .clu] P) (h0 : Keeps P s t) :
    Runs P s (execGearClear a1 a2 t) := by
  unfold execGearClear
  exact (atAxB_keeps (hP.of (by decide)) (fun _ h1 => (Keeps.ite h1 (gearTake_keeps (hP.of (by decide)) h1))) h0)

theorem execSuper_keeps {a1 a2} (hP : Within [.now, .regs, .pts, .queues, .q0pend, .helm, .mot, .ax, .sup, .igrp, .clu] P) (h0 : Keeps P s t) :
    Runs P s (execSuper a1 a2 t) := by
  unfold execSuper
  exact (atAxB_keeps (hP.of (by decide)) (fun _ h1 => (Keeps.ite (superTake_keeps (hP.of (by decide)) h1) h1)) h0)

theorem execSuperClear_keeps {a1 a2} (hP : Within [.now, .regs, .pts, .queues, .q0pend, .helm, .mot, .ax, .sup, .igrp, .clu] P) (h0 : Keeps P s t) :
    Runs P s (execSuperClear a1 a2 t) := by
  unfold execSuperClear
  exact (atAxB_keeps (hP.of (by decide)) (fun _ h1 => (Keeps.ite h1 (superTake_keeps (hP.of (by decide)) h1))) h0)

theorem subRow_keeps {a1 a2 a3} (hP : Within [.now, .regs, .pts, .queues, .q0pend, .helm, .mot, .ax, .igrp, .clu] P) (h0 : Keeps P s t) :
    Runs P s (subRow a1 a2 a3 t) := by
  unfold subRow
  exact (atAxB_keeps (hP.of (by decide)) (fun _ h1 => (Keeps.ite (subTake_keeps (hP.of (by decide)) h1) h1)) h0)

theorem execAppend_keeps {a1 a2} (hP : Within [.now, .regs, .pts, .queues, .q0pend, .helm, .mot, .ax, .igrp, .clu] P) (h0 : Keeps P s t) :
    Runs P s (execAppend a1 a2 t) := by
  unfold execAppend
  exact (subRow_keeps (hP.of (by decide)) h0)

theorem execReplace_keeps {a1 a2} (hP : Within [.now, .regs, .pts, .queues, .q0pend, .helm, .mot, .ax, .igrp, .clu] P) (h0 : Keeps P s t) :
    Runs P s (execReplace a1 a2 t) := by
  unfold execReplace
  exact (subRow_keeps (hP.of (by decide)) h0)

theorem execCut_keeps {a1 a2} (hP : Within [.now, .regs, .pts, .queues, .q0pend, .helm, .mot, .ax, .igrp, .clu] P) (h0 : Keeps P s t) :
    Runs P s (execCut a1 a2 t) := by
  unfold execCut
  exact (subRow_keeps (hP.of (by decide)) h0)

end Sys2Proof.Machine
end

