-- ==== Sys2Proof/Laws/KeepsLoops.lean ====
section
/-!
SUPPORT. What the operations of Machine/Loops.lean may touch, and that they keep the canonical form: one lemma per operation.
-/
namespace Sys2Proof.Machine

variable {P : List Part} {s t : State}

theorem addBusy_keeps {a1 a2} (hP : Within [.clu] P) (h0 : Keeps P s t) :
    Keeps P s (addBusy a1 a2 t) := by
  unfold addBusy
  exact (modClu_keeps (hP.of (by decide)) h0)

theorem adopt_keeps {a1} (hP : Within [.loop] P) (h0 : Keeps P s t) :
    Keeps P s (adopt a1 t) := by
  unfold adopt
  exact (modLoop_keeps (hP.of (by decide)) h0)

theorem putStatusI_keeps {a1 a2 a3 a4} (hP : Within [.clu] P) (h0 : Keeps P s t) :
    Keeps P s (putStatusI a1 a2 a3 a4 t) := by
  unfold putStatusI
  extract_lets -merge -useContext x1
  exact (putXb_keeps (hP.of (by decide)) (putXb_keeps (hP.of (by decide)) h0))

theorem satStep_keeps {a1 a2} (hP : Within [.regs, .pts, .queues, .q0pend, .helm, .ax, .loop, .clu] P) (h0 : Keeps P s t) :
    Keeps P s (satStep a1 a2 t) := by
  unfold satStep
  extract_lets -merge -useContext x1
  have h1 : Keeps P s x1 := (iwBit_keeps (hP.of (by decide)) h0)
  clear_value x1
  exact (Keeps.ite (modLoop_keeps (hP.of (by decide)) h1) (satEnd_keeps (hP.of (by decide)) h1))

theorem putDuty_keeps {a1 a2 a3} (hP : Within [.pwmA] P) (h0 : Keeps P s t) :
    Keeps P s (putDuty a1 a2 a3 t) := by
  unfold putDuty
  exact (modPa_keeps (hP.of (by decide)) h0)

theorem putMark_keeps {a1} (hP : Within [.pwmA] P) (h0 : Keeps P s t) :
    Keeps P s (putMark a1 t) := by
  unfold putMark
  exact (modPa_keeps (hP.of (by decide)) h0)

theorem brassDuties_keeps {a1 a2} (hP : Within [.pwmA] P) (h0 : Keeps P s t) :
    Keeps P s (brassDuties a1 a2 t) := by
  unfold brassDuties
  extract_lets -merge -useContext x1
  have h1 : Keeps P s x1 := (Keeps.ite h0 (forEach_keeps (fun _ _ h2 => (putDuty_keeps (hP.of (by decide)) h2)) h0))
  clear_value x1
  exact (putMark_keeps (hP.of (by decide)) h1)

theorem estFlags_keeps {a1 a2} (hP : Within [.regs] P) (h0 : Keeps P s t) :
    Keeps P s (estFlags a1 a2 t) := by
  unfold estFlags
  exact (iwBit_keeps (hP.of (by decide)) (iwBit_keeps (hP.of (by decide)) h0))

theorem estStep_keeps {a1 a2 a3 a4} (hP : Within [.regs, .pts, .queues, .q0pend, .helm, .fresh, .ax, .loop, .clu] P) (h0 : Keeps P s t) :
    Keeps P s (estStep a1 a2 a3 a4 t) := by
  unfold estStep
  extract_lets -merge -useContext x1 x2 x3
  exact (Keeps.ite (estFlags_keeps (hP.of (by decide)) (modLoop_keeps (hP.of (by decide)) h0)) (Keeps.ite (estFlags_keeps (hP.of (by decide)) h0) (by
    split
    rename_i x4 e4
    have h4 : Keeps P s x4 := Keeps.ofEq e4 (takeFresh_keeps (hP.of (by decide)) h0)
    extract_lets -merge -useContext x5 x6 x7 x8 x9 x10
    have h10 : Keeps P s x10 := (estFlags_keeps (hP.of (by decide)) (modLoop_keeps (hP.of (by decide)) h4))
    clear_value x10
    exact (Keeps.ite (ev_keeps (hP.of (by decide)) h10) h10))))

theorem kernelOff_keeps {a1} (hP : Within [.regs, .pts, .queues, .q0pend, .helm, .fresh, .ax, .pwmA, .loop, .clu] P) (h0 : Keeps P s t) :
    Keeps P s (kernelOff a1 t) := by
  unfold kernelOff
  extract_lets -merge -useContext x1
  have h1 : Keeps P s x1 := (satStep_keeps (hP.of (by decide)) (brassDuties_keeps (hP.of (by decide)) h0))
  clear_value x1
  exact (Keeps.ite (estStep_keeps (hP.of (by decide)) h1) h1)

theorem triDuties_keeps {a1 a2 a3} (hP : Within [.regs, .pts, .queues, .q0pend, .helm, .ax, .pwmA, .loop, .clu] P) (h0 : Keeps P s t) :
    Keeps P s (triDuties a1 a2 a3 t) := by
  unfold triDuties
  extract_lets -merge -useContext x1
  exact (satStep_keeps (hP.of (by decide)) (brassDuties_keeps (hP.of (by decide)) h0))

theorem dbFoc_keeps {a1 a2 a3} (hP : Within [.regs, .pts, .queues, .q0pend, .helm, .fresh, .ax, .pwmA, .loop, .clu] P) (h0 : Keeps P s t) :
    Keeps P s (dbFoc a1 a2 a3 t) := by
  unfold dbFoc
  extract_lets -merge -useContext x1 x2 x3 x4 x5 x6 x7 x8 x9 x10
  split
  · split
    · split
      · extract_lets -merge -useContext x11 x12 x13
        have h12 : Keeps P s x12 := (estStep_keeps (hP.of (by decide)) h0)
        clear_value x12
        have h13 : Keeps P s x13 := (modLoop_keeps (hP.of (by decide)) h12)
        clear_value x13
        exact (triDuties_keeps (hP.of (by decide)) h13)

theorem piFoc_keeps {a1 a2 a3 a4} (hP : Within [.regs, .pts, .queues, .q0pend, .helm, .ax, .pwmA, .loop, .clu] P) (h0 : Keeps P s t) :
    Keeps P s (piFoc a1 a2 a3 a4 t) := by
  unfold piFoc
  extract_lets -merge -useContext x1 x2
  split
  · split
    · split
      · extract_lets -merge -useContext x3
        have h3 : Keeps P s x3 := (modLoop_keeps (hP.of (by decide)) h0)
        clear_value x3
        exact (triDuties_keeps (hP.of (by decide)) h3)

theorem kernelFoc_keeps {a1 a2} (hP : Within [.regs, .pts, .queues, .q0pend, .helm, .fresh, .ax, .pwmA, .loop, .clu] P) (h0 : Keeps P s t) :
    Keeps P s (kernelFoc a1 a2 t) := by
  unfold kernelFoc
  extract_lets -merge -useContext x1 x2 x3
  split
  · extract_lets -merge -useContext x4 x5
    have h5 : Keeps P s x5 := (putStatusI_keeps (hP.of (by decide)) h0)
    clear_value x5
    exact (Keeps.ite (kernelOff_keeps (hP.of (by decide)) h5) (Keeps.ite (dbFoc_keeps (hP.of (by decide)) h5) (piFoc_keeps (hP.of (by decide)) h5)))

theorem cmdTurns_keeps {a1} (hP : Within [.fresh] P) (h0 : Keeps P s t) :
    Keeps P s (cmdTurns a1 t).2 := by
  unfold cmdTurns
  extract_lets -merge -useContext x1 x2
  exact (Keeps.ite2 (by
    split
    rename_i x3 e3
    have h3 : Keeps P s x3 := Keeps.ofEq e3 (takeFresh_keeps (hP.of (by decide)) h0)
    exact (Keeps.snd h3)) (Keeps.snd h0))

theorem kernelVf_keeps {a1} (hP : Within [.regs, .pts, .queues, .q0pend, .helm, .fresh, .ax, .pwmA, .loop, .clu] P) (h0 : Keeps P s t) :
    Keeps P s (kernelVf a1 t) := by
  unfold kernelVf
  extract_lets -merge -useContext x1 x2 x3
  split
  · extract_lets -merge -useContext x4 x5
    split
    rename_i x6 e6
    have h6 : Keeps P s x6 := Keeps.ofEq e6 (takeFresh_keeps (hP.of (by decide)) h0)
    split
    rename_i x7 e7
    have h7 : Keeps P s x7 := Keeps.ofEq e7 (takeFresh_keeps (hP.of (by decide)) h6)
    extract_lets -merge -useContext x8 x9
    have h8 : Keeps P s x8 := (putXb_keeps (hP.of (by decide)) (putXb_keeps (hP.of (by decide)) h7))
    clear_value x8
    exact (Keeps.ite (kernelOff_keeps (hP.of (by decide)) h8) (by
      split
      rename_i x10 e10
      have h10 : Keeps P s x10 := Keeps.ofEq e10 (cmdTurns_keeps (hP.of (by decide)) h8)
      split
      rename_i x11 e11
      have h11 : Keeps P s x11 := Keeps.ofEq e11 (takeFresh_keeps (hP.of (by decide)) h10)
      extract_lets -merge -useContext x12 x13 x14
      split
      · exact (triDuties_keeps (hP.of (by decide)) (modLoop_keeps (hP.of (by decide)) h11))))

theorem kernelRfoc_keeps {a1} (hP : Within [.regs, .pts, .queues, .q0pend, .helm, .fresh, .ax, .pwmA, .loop, .clu] P) (h0 : Keeps P s t) :
    Keeps P s (kernelRfoc a1 t) := by
  unfold kernelRfoc
  extract_lets -merge -useContext x1 x2 x3 x4 x5 x6 x7
  split
  · extract_lets -merge -useContext x8 x9 x10 x11 x12
    have h9 : Keeps P s x9 := (putStatusI_keeps (hP.of (by decide)) h0)
    clear_value x9
    have h12 : Keeps P s x12 := (modLoop_keeps (hP.of (by decide)) h9)
    clear_value x12
    exact (Keeps.ite (kernelOff_keeps (hP.of (by decide)) h9) (piFoc_keeps (hP.of (by decide)) h12))

theorem kernelBridge_keeps {a1} (hP : Within [.regs, .pts, .queues, .q0pend, .helm, .fresh, .ax, .pwmA, .loop, .clu] P) (h0 : Keeps P s t) :
    Keeps P s (kernelBridge a1 t) := by
  unfold kernelBridge
  extract_lets -merge -useContext x1 x2 x3 x4 x5
  clear_value x5
  split
  · extract_lets -merge -useContext x6 x7 x8
    have h6 : Keeps P s x6 := (by
      unfold x6
      split
      · exact (putStatusI_keeps (hP.of (by decide)) h0)
      · exact (putStatusI_keeps (hP.of (by decide)) h0)
      · exact (putStatusI_keeps (hP.of (by decide)) h0))
    clear_value x6
    exact (Keeps.ite (kernelOff_keeps (hP.of (by decide)) h6) (by
      split
      · split
        · extract_lets -merge -useContext x9
          have h9 : Keeps P s x9 := (modLoop_keeps (hP.of (by decide)) h6)
          clear_value x9
          exact (satStep_keeps (hP.of (by decide)) (brassDuties_keeps (hP.of (by decide)) h9))
      · split
        · extract_lets -merge -useContext x10
          split
          · extract_lets -merge -useContext x11
            exact (Keeps.ite (satStep_keeps (hP.of (by decide)) (brassDuties_keeps (hP.of (by decide)) (modLoop_keeps (hP.of (by decide)) h6))) (Keeps.ite (satStep_keeps (hP.of (by decide)) (brassDuties_keeps (hP.of (by decide)) (modLoop_keeps (hP.of (by decide)) h6))) (satStep_keeps (hP.of (by decide)) (brassDuties_keeps (hP.of (by decide)) (modLoop_keeps (hP.of (by decide)) h6)))))
      · split
        · split
          · extract_lets -merge -useContext x12
            have h12 : Keeps P s x12 := (modLoop_keeps (hP.of (by decide)) h6)
            clear_value x12
            exact (satStep_keeps (hP.of (by decide)) (brassDuties_keeps (hP.of (by decide)) h12))))

theorem brassCurrent_keeps {a1} (hP : Within [.regs, .pts, .queues, .q0pend, .helm, .fresh, .ax, .pwmA, .loop, .clu] P) (h0 : Keeps P s t) :
    Keeps P s (brassCurrent a1 t) := by
  unfold brassCurrent
  extract_lets -merge -useContext x1 x2
  clear_value x1
  have h2 : Keeps P s x2 := (addBusy_keeps (hP.of (by decide)) (adopt_keeps (hP.of (by decide)) h0))
  clear_value x2
  exact (Keeps.ite h0 (by
    split
    · exact (kernelFoc_keeps (hP.of (by decide)) h2)
    · exact (kernelFoc_keeps (hP.of (by decide)) h2)
    · exact (kernelVf_keeps (hP.of (by decide)) h2)
    · exact (kernelRfoc_keeps (hP.of (by decide)) h2)
    · exact (kernelBridge_keeps (hP.of (by decide)) h2)))

theorem watchStatus_keeps {a1} (hP : Within [.loop, .clu] P) (h0 : Keeps P s t) :
    Keeps P s (watchStatus a1 t) := by
  unfold watchStatus
  extract_lets -merge -useContext x1 x2 x3 x4 x5 x6 x7 x8
  exact (modLoop_keeps (hP.of (by decide)) (putXb_keeps (hP.of (by decide)) (putXb64_keeps (hP.of (by decide)) h0)))

theorem notchAll_keeps {n iq} (hP : Within [.loop] P) (h0 : Keeps P s t) : Keeps P s (notchAll n iq t).2 := by
  unfold notchAll
  refine Keeps.foldlPair (fun acc k h => ?_) _ h0
  dsimp only
  exact modLoop_keeps (hP.of (by decide)) h

theorem brassWatch_keeps {a1} (hP : Within [.regs, .loop, .clu] P) (h0 : Keeps P s t) :
    Keeps P s (brassWatch a1 t) := by
  unfold brassWatch
  extract_lets -merge -useContext x1 x2 x3 x4 x5 x6 x7 x8 x9 x10 x11 x12
  have h1 : Keeps P s x1 := (adopt_keeps (hP.of (by decide)) h0)
  clear_value x1
  have h3 : Keeps P s x3 := (watchStatus_keeps (hP.of (by decide)) (addBusy_keeps (hP.of (by decide)) h1))
  clear_value x3
  exact (Keeps.ite (modLoop_keeps (hP.of (by decide)) h3) (Keeps.ite (modLoop_keeps (hP.of (by decide)) h3) (by
    split
    rename_i x13 e13
    have h13 : Keeps P s x13 := Keeps.ofEq e13 (notchAll_keeps (hP.of (by decide)) h3)
    extract_lets -merge -useContext x14 x15 x16
    have h16 : Keeps P s x16 := (modLoop_keeps (hP.of (by decide)) h13)
    clear_value x16
    exact (iwBit_keeps (hP.of (by decide)) h16))))

theorem swTrig_keeps {a1} (hP : Within [.regs, .pts, .queues, .clu] P) (h0 : Keeps P s t) :
    Keeps P s (swTrig a1 t) := by
  unfold swTrig
  exact (forEach_keeps (fun _ _ h1 => (forEach_keeps (fun _ _ h2 => (Keeps.ite (raiseTrig_keeps (hP.of (by decide)) h2) h2)) h1)) h0)

theorem loadClr_keeps {a1} (hP : Within [.regs] P) (h0 : Keeps P s t) :
    Keeps P s (loadClr a1 t) := by
  unfold loadClr
  exact (forEach_keeps (fun _ _ h1 => (Keeps.ite (bw_keeps (hP.of (by decide)) h1) h1)) h0)

theorem startEntry_keeps {a1 a2} (hP : Within [.clu] P) (h0 : Keeps P s t) :
    Keeps P s (startEntry a1 a2 t) := by
  unfold startEntry
  extract_lets -merge -useContext x1
  exact (modClu_keeps (hP.of (by decide)) h0)

theorem chainDone_keeps {a1 a2} (hP : Within [.regs, .pts, .queues, .loop, .clu] P) (h0 : Keeps P s t) :
    Keeps P s (chainDone a1 a2 t) := by
  unfold chainDone
  extract_lets -merge -useContext x1
  exact (Keeps.ite (forEach_keeps (fun _ _ h2 => (statusCopy_keeps (hP.of (by decide)) (modLoop_keeps (hP.of (by decide)) h2))) h0) (Keeps.ite (Keeps.ite h0 (raiseTrig_keeps (hP.of (by decide)) h0)) h0))

theorem chainNext_keeps {a1} (hP : Within [.regs, .pts, .queues, .fresh, .loop, .clu] P) (h0 : Keeps P s t) :
    Keeps P s (chainNext a1 t) := by
  unfold chainNext
  split
  · exact h0
  · extract_lets -merge -useContext x1
    have h1 : Keeps P s x1 := (by
      unfold x1
      split
      · split
        rename_i x2 e2
        have h2 : Keeps P s x2 := Keeps.ofEq e2 (takeFresh_keeps (hP.of (by decide)) h0)
        exact (modClu_keeps (hP.of (by decide)) h2)
      · exact (modClu_keeps (hP.of (by decide)) h0))
    clear_value x1
    split
    · exact (startEntry_keeps (hP.of (by decide)) (modClu_keeps (hP.of (by decide)) h0))
    · exact (chainDone_keeps (hP.of (by decide)) h1)

theorem chainDispatch_keeps {a1} (hP : Within [.regs, .pts, .queues, .q0pend, .helm, .fresh, .ax, .pwmA, .loop, .clu] P) (h0 : Keeps P s t) :
    Keeps P s (chainDispatch a1 t) := by
  unfold chainDispatch
  extract_lets -merge -useContext x1 x2 x3
  clear_value x2
  split
  · exact h0
  · extract_lets -merge -useContext x4 x5 x6
    have h5 : Keeps P s x5 := (modClu_keeps (hP.of (by decide)) h0)
    clear_value x5
    have h6 : Keeps P s x6 := (Keeps.ite (forEach_keeps (fun _ _ h7 => (brassCurrent_keeps (hP.of (by decide)) h7)) h5) (Keeps.ite (forEach_keeps (fun _ _ h8 => (brassWatch_keeps (hP.of (by decide)) h8)) h5) h5))
    clear_value x6
    exact (Keeps.ite h0 (chainNext_keeps (hP.of (by decide)) h6))

theorem loopCommit_keeps {a1} (hP : Within [.regs, .pts, .queues, .q0pend, .helm, .ax, .clu] P) (h0 : Keeps P s t) :
    Keeps P s (loopCommit a1 t) := by
  unfold loopCommit
  extract_lets -merge -useContext x1 x2
  clear_value x1
  have h2 : Keeps P s x2 := (bwBit_keeps (hP.of (by decide)) h0)
  clear_value x2
  split
  · exact (ev_keeps (hP.of (by decide)) h2)
  · exact (copySet_keeps (hP.of (by decide)) h2)

theorem trigCommit_keeps {a1} (hP : Within [.regs, .pts, .queues, .q0pend, .helm, .ax, .clu] P) (h0 : Keeps P s t) :
    Keeps P s (trigCommit a1 t) := by
  unfold trigCommit
  extract_lets -merge -useContext x1 x2
  clear_value x1
  have h2 : Keeps P s x2 := (bwBit_keeps (hP.of (by decide)) h0)
  clear_value x2
  split
  · exact (ev_keeps (hP.of (by decide)) h2)
  · exact (copySet_keeps (hP.of (by decide)) h2)

theorem refAxis_keeps {a1 a2} (hP : Within [.regs, .pts, .queues, .q0pend, .helm, .ax, .loop, .clu] P) (h0 : Keeps P s t) :
    Keeps P s (refAxis a1 a2 t) := by
  unfold refAxis
  extract_lets -merge -useContext x1 x2 x3 x4 x5 x6
  have h3 : Keeps P s x3 := (modLoop_keeps (hP.of (by decide)) h0)
  clear_value x3
  have h4 : Keeps P s x4 := (modLoop_keeps (hP.of (by decide)) h0)
  clear_value x4
  have h5 : Keeps P s x5 := (iwSat_keeps (hP.of (by decide)) h4)
  clear_value x5
  have h6 : Keeps P s x6 := (iwBit_keeps (hP.of (by decide)) (bwBit_keeps (hP.of (by decide)) h5))
  clear_value x6
  exact (Keeps.ite (iwBit_keeps (hP.of (by decide)) h3) (Keeps.ite (Keeps.ite (ev_keeps (hP.of (by decide)) h6) h6) h0))

theorem lateWatchCheck_keeps {a1 a2} (hP : Within [.regs, .pts, .queues, .q0pend, .helm, .mot, .ax, .gear, .igrp, .homing, .pwmA, .loop, .clu, .drv, .adm] P) (h0 : Keeps P s t) :
    Keeps P s (lateWatchCheck a1 a2 t) := by
  unfold lateWatchCheck
  extract_lets -merge -useContext x1
  exact (forEach_keeps (fun _ _ h2 => (by
    extract_lets -merge -useContext x3
    exact (Keeps.ite (raise_keeps (hP.of (by decide)) (groupOff_keeps (hP.of (by decide)) (bwBit_keeps (hP.of (by decide)) h2))) h2))) h0)

theorem followCheck_keeps {a1} (hP : Within [.regs, .pts, .queues, .q0pend, .helm, .ax, .loop, .clu] P) (h0 : Keeps P s t) :
    Keeps P s (followCheck a1 t) := by
  unfold followCheck
  extract_lets -merge -useContext x1 x2 x3 x4 x5
  have h4 : Keeps P s x4 := (iw_keeps (hP.of (by decide)) h0)
  clear_value x4
  have h5 : Keeps P s x5 := (modLoop_keeps (hP.of (by decide)) h4)
  clear_value x5
  exact (Keeps.ite (raiseAx_keeps (hP.of (by decide)) h5) h5)

theorem loopReadbacks_keeps {a1} (hP : Within [.regs, .clu] P) (h0 : Keeps P s t) :
    Keeps P s (loopReadbacks a1 t) := by
  unfold loopReadbacks
  extract_lets -merge -useContext x1 x2 x3 x4 x5 x6
  have h1 : Keeps P s x1 := (forEach_keeps (fun _ _ h7 => (iw_keeps (hP.of (by decide)) (iw_keeps (hP.of (by decide)) h7))) h0)
  clear_value x1
  have h6 : Keeps P s x6 := (bw_keeps (hP.of (by decide)) h1)
  clear_value x6
  exact (modClu_keeps (hP.of (by decide)) h6)

theorem refsActive_keeps {a1 a2} (hP : Within [.regs, .pts, .queues, .q0pend, .helm, .mot, .ax, .gear, .igrp, .homing, .pwmA, .loop, .clu, .drv, .adm] P) (h0 : Keeps P s t) :
    Keeps P s (refsActive a1 a2 t) := by
  unfold refsActive
  extract_lets -merge -useContext x1
  have h1 : Keeps P s x1 := (forEach_keeps (fun _ _ h2 => (refAxis_keeps (hP.of (by decide)) h2)) h0)
  clear_value x1
  exact (lateWatchCheck_keeps (hP.of (by decide)) (forEach_keeps (fun _ _ h3 => (followCheck_keeps (hP.of (by decide)) h3)) (loopReadbacks_keeps (hP.of (by decide)) h1)))

theorem execChainDispatch_keeps {a1 a2} (hP : Within [.now, .regs, .pts, .queues, .q0pend, .helm, .fresh, .ax, .pwmA, .loop, .clu] P) (h0 : Keeps P s t) :
    Runs P s (execChainDispatch a1 a2 t) := by
  unfold execChainDispatch
  exact (Runs.next (chainDispatch_keeps (hP.of (by decide)) (atTime_keeps (hP.of (by decide)) h0)))

theorem execSoftwareTrigger_keeps {a1} (hP : Within [.regs, .pts, .queues, .clu] P) (h0 : Keeps P s t) :
    Runs P s (execSoftwareTrigger a1 t) := by
  unfold execSoftwareTrigger
  exact (Runs.next (swTrig_keeps (hP.of (by decide)) h0))

theorem execCoeffConversionDone_keeps {a1 a2} (hP : Within [.now, .loop] P) (h0 : Keeps P s t) :
    Runs P s (execCoeffConversionDone a1 a2 t) := by
  unfold execCoeffConversionDone
  extract_lets -merge -useContext x1
  have h1 : Keeps P s x1 := (atTime_keeps (hP.of (by decide)) h0)
  clear_value x1
  exact (Runs.next (Keeps.ite (modLoop_keeps (hP.of (by decide)) h1) h1))

theorem execLoopLoadclr_keeps {a1} (hP : Within [.regs] P) (h0 : Keeps P s t) :
    Runs P s (execLoopLoadclr a1 t) := by
  unfold execLoopLoadclr
  exact (Runs.next (loadClr_keeps (hP.of (by decide)) h0))

end Sys2Proof.Machine
end

