-- ==== Sys2Proof/Laws/KeepsEngine.lean ====
section
/-!
SUPPORT. What the operations of Machine/Engine.lean may touch, and that they keep the canonical form: one lemma per operation.
-/
namespace Sys2Proof.Machine

variable {P : List Part} {s t : State}

theorem axisAdvance_keeps {a1 a2 a3} (hP : Within [.regs, .pts, .queues, .q0pend, .helm, .ax, .gear, .sup, .env, .homing, .stp, .clu] P) (h0 : Keeps P s t) :
    Keeps P s (axisAdvance a1 a2 a3 t) := by
  unfold axisAdvance
  split
  rename_i x1 _ _ e1
  have h1 : Keeps P s x1 := Keeps.ofEq1 e1 (gearAdvance_keeps (hP.of (by decide)) h0)
  split
  rename_i x2 _ _ e2
  have h2 : Keeps P s x2 := Keeps.ofEq1 e2 (superAdvance_keeps (hP.of (by decide)) h1)
  extract_lets -merge -useContext x3 x4 x5 x6 x7 x8 x9
  have h5 : Keeps P s x5 := (envAdvance_keeps (hP.of (by decide)) h2)
  clear_value x5
  have h6 : Keeps P s x6 := (softCheck_keeps (hP.of (by decide)) h5)
  clear_value x6
  have h8 : Keeps P s x8 := (writeCommand_keeps (hP.of (by decide)) h6)
  clear_value x8
  have h9 : Keeps P s x9 := (Keeps.ite (modStp_keeps (hP.of (by decide)) h8) h8)
  clear_value x9
  exact (gearPublish_keeps (hP.of (by decide)) h9)

theorem relimitAxis_keeps {a1 a2} (hP : Within [.regs, .pts, .queues, .q0pend, .helm, .mot, .ax, .igrp, .clu] P) (h0 : Keeps P s t) :
    Keeps P s (relimitAxis a1 a2 t) := by
  unfold relimitAxis
  split
  · extract_lets -merge -useContext x1
    exact (Keeps.ite (igDo_keeps (hP.of (by decide)) h0) h0)
  · exact (motDo_keeps (hP.of (by decide)) h0)

theorem axisLimits_keeps {a1 a2} (hP : Within [.regs, .pts, .queues, .q0pend, .helm, .mot, .ax, .gear, .homing, .clu] P) (h0 : Keeps P s t) :
    Keeps P s (axisLimits a1 a2 t) := by
  unfold axisLimits
  extract_lets -merge -useContext x1 x2 x3 x4 x5 x6
  have h1 : Keeps P s x1 := (chatter_keeps (hP.of (by decide)) (homeGroupEnd_keeps (hP.of (by decide)) h0))
  clear_value x1
  have h2 : Keeps P s x2 := (limitBoth_keeps (hP.of (by decide)) h1)
  clear_value x2
  have h3 : Keeps P s x3 := (hwLimit_keeps (hP.of (by decide)) h2)
  clear_value x3
  have h4 : Keeps P s x4 := (homeLimits_keeps (hP.of (by decide)) h3)
  clear_value x4
  have h5 : Keeps P s x5 := (homeNotFound_keeps (hP.of (by decide)) h4)
  clear_value x5
  have h6 : Keeps P s x6 := (homeTimeout_keeps (hP.of (by decide)) h5)
  clear_value x6
  exact (gearStale_keeps (hP.of (by decide)) h6)

theorem axisHelm_keeps {a1 a2} (hP : Within [.regs, .pts, .queues, .q0pend, .helm, .mot, .ax, .gear, .sup, .env, .igrp, .homing, .pwmA, .pwmG, .loop, .clu, .drv, .adm] P) (h0 : Keeps P s t) :
    Keeps P s (axisHelm a1 a2 t) := by
  unfold axisHelm
  extract_lets -merge -useContext x1 x2 x3 x4 x5 x6 x7 x8 x9
  have h1 : Keeps P s x1 := (ackTake_keeps (hP.of (by decide)) h0)
  clear_value x1
  have h2 : Keeps P s x2 := (levelOne_keeps (hP.of (by decide)) h1)
  clear_value x2
  have h3 : Keeps P s x3 := (Keeps.ite (qstopOn_keeps (hP.of (by decide)) h2) (qstopEnd_keeps (hP.of (by decide)) h2))
  clear_value x3
  have h4 : Keeps P s x4 := (enableRead_keeps (hP.of (by decide)) h3)
  clear_value x4
  have h5 : Keeps P s x5 := (Keeps.ite (enableOff_keeps (hP.of (by decide)) h4) h4)
  clear_value x5
  have h6 : Keeps P s x6 := (clearqTake_keeps (hP.of (by decide)) h5)
  clear_value x6
  have h7 : Keeps P s x7 := (holdTake_keeps (hP.of (by decide)) h6)
  clear_value x7
  have h8 : Keeps P s x8 := (foldOff_keeps (hP.of (by decide)) h7)
  clear_value x8
  have h9 : Keeps P s x9 := (gearTake_keeps (hP.of (by decide)) h8)
  clear_value x9
  exact (homeTake_keeps (hP.of (by decide)) (superTake_keeps (hP.of (by decide)) h9))

theorem axisComplete_keeps {a1 a2} (hP : Within [.regs, .pts, .queues, .q0pend, .helm, .mot, .ax, .igrp, .clu] P) (h0 : Keeps P s t) :
    Keeps P s (axisComplete a1 a2 t) := by
  unfold axisComplete
  extract_lets -merge -useContext x1 x2 x3 x4
  have h1 : Keeps P s x1 := (motDo_keeps (hP.of (by decide)) h0)
  clear_value x1
  have h2 : Keeps P s x2 := (motDo_keeps (hP.of (by decide)) h1)
  clear_value x2
  have h3 : Keeps P s x3 := (motDo_keeps (hP.of (by decide)) h2)
  clear_value x3
  have h4 : Keeps P s x4 := (modMot_keeps (hP.of (by decide)) h3)
  clear_value x4
  exact (Keeps.ite (raiseAx_keeps (hP.of (by decide)) h4) h3)

theorem axisBoundary_keeps {a1 a2 a3} (hP : Within [.regs, .pts, .queues, .q0pend, .helm, .mot, .ax, .gear, .sup, .env, .igrp, .homing, .stp, .pwmA, .pwmG, .loop, .clu, .drv, .adm] P) (h0 : Keeps P s t) :
    Keeps P s (axisBoundary a1 a2 a3 t) := by
  unfold axisBoundary
  extract_lets -merge -useContext x1 x2 x3 x4 x5 x6 x7 x8
  have h1 : Keeps P s x1 := (motAt_keeps (hP.of (by decide)) h0)
  clear_value x1
  have h2 : Keeps P s x2 := (Keeps.ite (relimitAxis_keeps (hP.of (by decide)) h1) h1)
  clear_value x2
  have h3 : Keeps P s x3 := (axisLimits_keeps (hP.of (by decide)) h2)
  clear_value x3
  have h5 : Keeps P s x5 := (Keeps.ite h3 (readyAt_keeps (hP.of (by decide)) h3))
  clear_value x5
  have h6 : Keeps P s x6 := (Keeps.ite (axisHelm_keeps (hP.of (by decide)) h5) (levelOne_keeps (hP.of (by decide)) (foldOff_keeps (hP.of (by decide)) h5)))
  clear_value x6
  have h7 : Keeps P s x7 := (enterApply_keeps (hP.of (by decide)) (deferEntries_keeps (hP.of (by decide)) h6))
  clear_value x7
  have h8 : Keeps P s x8 := (Keeps.ite (subTake_keeps (hP.of (by decide)) h7) h7)
  clear_value x8
  exact (homeStep_keeps (hP.of (by decide)) (axisComplete_keeps (hP.of (by decide)) h8))

theorem axisPoints_keeps {a1} (hP : Within [.pts] P) (h0 : Keeps P s t) :
    Keeps P s (axisPoints a1 t) := by
  unfold axisPoints
  extract_lets -merge -useContext x1 x2 x3 x4
  have h3 : Keeps P s x3 := (setAp_keeps (hP.of (by decide)) (setPt64_keeps (hP.of (by decide)) h0))
  clear_value x3
  have h4 : Keeps P s x4 := (setAp_keeps (hP.of (by decide)) h3)
  clear_value x4
  exact (Keeps.ite (setAp_keeps (hP.of (by decide)) h4) h0)

theorem dropRecord_keeps {a1 a2} (hP : Within [.gear] P) (h0 : Keeps P s t) :
    Keeps P s (dropRecord a1 a2 t) := by
  unfold dropRecord
  exact (Keeps.ite h0 (modGear_keeps (hP.of (by decide)) h0))

theorem profCommit_keeps {a1} (hP : Within [.regs, .pts, .queues, .q0pend, .helm, .mot, .ax, .gear, .igrp, .clu] P) (h0 : Keeps P s t) :
    Keeps P s (profCommit a1 t) := by
  unfold profCommit
  extract_lets -merge -useContext x1 x2 x3 x4 x5 x6
  clear_value x1 x2
  have h3 : Keeps P s x3 := (bwBit_keeps (hP.of (by decide)) h0)
  clear_value x3
  have h5 : Keeps P s x5 := (dropRecord_keeps (hP.of (by decide)) (copySet_keeps (hP.of (by decide)) h3))
  clear_value x5
  split
  · exact (ev_keeps (hP.of (by decide)) h3)
  · exact (ev_keeps (hP.of (by decide)) h3)
  · split
    · extract_lets -merge -useContext x7
      have h7 : Keeps P s x7 := (modMot_keeps (hP.of (by decide)) h5)
      clear_value x7
      split
      · exact (modIg_keeps (hP.of (by decide)) h7)
      · exact h7

theorem watchCommits_keeps {a1} (hP : Within [.regs, .pts, .queues, .q0pend, .helm, .mot, .ax, .gear, .igrp, .homing, .clu] P) (h0 : Keeps P s t) :
    Keeps P s (watchCommits a1 t) := by
  unfold watchCommits
  extract_lets -merge -useContext x1 x2 x3 x4 x5
  have h1 : Keeps P s x1 := (forEach_keeps (fun _ _ h6 => (Keeps.ite (stepCommit_keeps (hP.of (by decide)) h6) h6)) h0)
  clear_value x1
  have h2 : Keeps P s x2 := (forEach_keeps (fun _ _ h7 => (Keeps.ite (loopCommit_keeps (hP.of (by decide)) h7) h7)) h1)
  clear_value x2
  have h3 : Keeps P s x3 := (Keeps.ite (trigCommit_keeps (hP.of (by decide)) h2) h2)
  clear_value x3
  have h4 : Keeps P s x4 := (forEach_keeps (fun _ _ h8 => (Keeps.ite (profCommit_keeps (hP.of (by decide)) h8) h8)) h3)
  clear_value x4
  have h5 : Keeps P s x5 := (forEach_keeps (fun _ _ h9 => (Keeps.ite (igCommit_keeps (hP.of (by decide)) h9) h9)) h4)
  clear_value x5
  exact (forEach_keeps (fun _ _ h10 => (Keeps.ite (homeCommit_keeps (hP.of (by decide)) h10) h10)) h5)

theorem drainQ1_keeps (hP : Within [.queues] P) (h0 : Keeps P s t) :
    Keeps P s (drainQ1 t) := by
  unfold drainQ1
  exact (Keeps.ite (setQ_keeps (hP.of (by decide)) h0) h0)

theorem profReadbacks_keeps {a1} (hP : Within [.regs] P) (h0 : Keeps P s t) :
    Keeps P s (profReadbacks a1 t) := by
  unfold profReadbacks
  extract_lets -merge -useContext x1 x2 x3 x4 x5
  have h3 : Keeps P s x3 := (iw64_keeps (hP.of (by decide)) h0)
  clear_value x3
  have h4 : Keeps P s x4 := (iw_keeps (hP.of (by decide)) (iw_keeps (hP.of (by decide)) h3))
  clear_value x4
  have h5 : Keeps P s x5 := (iw_keeps (hP.of (by decide)) h4)
  clear_value x5
  exact (bwBit_keeps (hP.of (by decide)) (bwBit_keeps (hP.of (by decide)) h5))

theorem profileEngine_keeps {a1 a2 a3} (hP : Within [.regs, .pts, .queues, .q0pend, .helm, .mot, .ax, .gear, .sup, .env, .igrp, .homing, .stp, .pwmA, .pwmG, .loop, .clu, .drv, .adm] P) (h0 : Keeps P s t) :
    Keeps P s (profileEngine a1 a2 a3 t) := by
  unfold profileEngine
  extract_lets -merge -useContext x1 x2 x3 x4 x5 x6 x7 x8
  have h2 : Keeps P s x2 := (drainQ1_keeps (hP.of (by decide)) h0)
  clear_value x2
  have h3 : Keeps P s x3 := (forEach_keeps (fun _ _ h9 => (sampleLimits_keeps (hP.of (by decide)) h9)) h2)
  clear_value x3
  have h4 : Keeps P s x4 := (forEach_keeps (fun _ _ h10 => (Keeps.ite (pathStopEnd_keeps (hP.of (by decide)) (pathFault_keeps (hP.of (by decide)) h10)) h10)) h3)
  clear_value x4
  have h5 : Keeps P s x5 := (forEach_keeps (fun _ _ h11 => (axisBoundary_keeps (hP.of (by decide)) h11)) h4)
  clear_value x5
  have h6 : Keeps P s x6 := (forEach_keeps (fun _ _ h12 => (axisAdvance_keeps (hP.of (by decide)) h12)) h5)
  clear_value x6
  have h7 : Keeps P s x7 := (forEach_keeps (fun _ _ h13 => (stopTimeout_keeps (hP.of (by decide)) (seqUpdate_keeps (hP.of (by decide)) h13))) h6)
  clear_value x7
  have h8 : Keeps P s x8 := (forEach_keeps (fun _ _ h14 => (igPublish_keeps (hP.of (by decide)) h14)) h7)
  clear_value x8
  exact (forEach_keeps (fun _ _ h15 => (axisPoints_keeps (hP.of (by decide)) (profReadbacks_keeps (hP.of (by decide)) (homePublish_keeps (hP.of (by decide)) h15)))) h8)

theorem stoppedAxes_keeps {a1 a2} (hP : Within [.regs, .pts, .queues, .q0pend, .helm, .mot, .ax, .gear, .sup, .env, .igrp, .homing, .pwmA, .pwmG, .loop, .clu, .drv, .adm] P) (h0 : Keeps P s t) :
    Keeps P s (stoppedAxes a1 a2 t) := by
  unfold stoppedAxes
  extract_lets -merge -useContext x1 x2
  have h1 : Keeps P s x1 := (drainQ1_keeps (hP.of (by decide)) h0)
  clear_value x1
  have h2 : Keeps P s x2 := (forEach_keeps (fun _ _ h3 => (by
    extract_lets -merge -useContext x4
    have h4 : Keeps P s x4 := (sampleLimits_keeps (hP.of (by decide)) h3)
    clear_value x4
    exact (Keeps.ite (subTake_keeps (hP.of (by decide)) (axisHelm_keeps (hP.of (by decide)) h4)) (foldOff_keeps (hP.of (by decide)) h4)))) h1)
  clear_value x2
  exact (forEach_keeps (fun _ _ h5 => (axisPoints_keeps (hP.of (by decide)) (profReadbacks_keeps (hP.of (by decide)) (homePublish_keeps (hP.of (by decide)) (seqUpdate_keeps (hP.of (by decide)) h5))))) h2)

end Sys2Proof.Machine
end

