-- ==== Sys2Proof/Laws/KeepsFio.lean ====
section
/-!
SUPPORT. What the operations of Machine/Fio.lean may touch, and that they keep the canonical form: one lemma per operation.
-/
namespace Sys2Proof.Machine

variable {P : List Part} {s t : State}

theorem fioForce_keeps {a1} (hP : Within [.regs] P) (h0 : Keeps P s t) :
    Keeps P s (fioForce a1 t) := by
  unfold fioForce
  exact (Keeps.ite (bw_keeps (hP.of (by decide)) h0) h0)

theorem modFio_keeps {a1} (hP : Within [.fio] P) (h0 : Keeps P s t) :
    Keeps P s (modFio a1 t) := by
  unfold modFio
  exact (Keeps.upd h0 (by intro p hp; cases p <;> first | exact absurd (hP _ (by decide)) hp | rfl) ⟨rfl, rfl, rfl, rfl⟩)

theorem diCommit_keeps {a1} (hP : Within [.regs, .fio] P) (h0 : Keeps P s t) :
    Keeps P s (diCommit a1 t) := by
  unfold diCommit
  extract_lets -merge -useContext x1 x2
  have h2 : Keeps P s x2 := (copySet_keeps (hP.of (by decide)) h0)
  clear_value x2
  exact (Keeps.ite (modFio_keeps (hP.of (by decide)) h2) h2)

theorem fioCommits_keeps (hP : Within [.regs, .pts, .queues, .q0pend, .helm, .ax, .clu, .fio] P) (h0 : Keeps P s t) :
    Keeps P s (fioCommits t) := by
  unfold fioCommits
  extract_lets -merge -useContext x1
  have h1 : Keeps P s x1 := (forEach_keeps (fun _ _ h2 => (Keeps.ite (diCommit_keeps (hP.of (by decide)) (bwBit_keeps (hP.of (by decide)) h2)) h2)) h0)
  clear_value x1
  exact (forEach_keeps (fun _ _ h3 => (by
    extract_lets -merge -useContext x4 x5
    have h5 : Keeps P s x5 := (bwBit_keeps (hP.of (by decide)) h3)
    clear_value x5
    exact (Keeps.ite (Keeps.ite (ev_keeps (hP.of (by decide)) h5) (copySet_keeps (hP.of (by decide)) h5)) h3))) h1)

theorem diFilter_keeps {a1 a2} (hP : Within [.fio] P) (h0 : Keeps P s t) :
    Keeps P s (diFilter a1 a2 t) := by
  unfold diFilter
  extract_lets -merge -useContext x1
  split
  · exact (modFio_keeps (hP.of (by decide)) h0)

theorem diValidUpd_keeps (hP : Within [.regs, .pts] P) (h0 : Keeps P s t) :
    Keeps P s (diValidUpd t) := by
  unfold diValidUpd
  exact (setPt_keeps (hP.of (by decide)) (bw_keeps (hP.of (by decide)) h0))

theorem doBit_keeps {a1 a2 a3} (hP : Within [.regs] P) (h0 : Keeps P s t) :
    Keeps P s (doBit a1 a2 a3 t) := by
  unfold doBit
  exact (iwBit_keeps (hP.of (by decide)) h0)

theorem diagClear_keeps {a1 a2} (hP : Within [.regs, .fio] P) (h0 : Keeps P s t) :
    Keeps P s (diagClear a1 a2 t) := by
  unfold diagClear
  exact (Keeps.ite (modFio_keeps (hP.of (by decide)) h0) (doBit_keeps (hP.of (by decide)) h0))

theorem doPut_keeps {a1 a2} (hP : Within [.regs, .fio] P) (h0 : Keeps P s t) :
    Keeps P s (doPut a1 a2 t) := by
  unfold doPut
  exact (doBit_keeps (hP.of (by decide)) (doBit_keeps (hP.of (by decide)) (modFio_keeps (hP.of (by decide)) h0)))

theorem doReport_keeps {a1 a2 a3 a4} (hP : Within [.regs, .pts, .queues, .q0pend, .helm, .ax, .clu] P) (h0 : Keeps P s t) :
    Keeps P s (doReport a1 a2 a3 a4 t) := by
  unfold doReport
  exact (Keeps.ite h0 (ev_keeps (hP.of (by decide)) (doBit_keeps (hP.of (by decide)) h0)))

theorem doStart_keeps {a1} (hP : Within [.regs, .ax, .drv, .adm, .fio] P) (h0 : Keeps P s t) :
    Keeps P s (doStart a1 t) := by
  unfold doStart
  extract_lets -merge -useContext x1
  exact (Keeps.ite (doPut_keeps (hP.of (by decide)) h0) (doPut_keeps (hP.of (by decide)) (admRequest_keeps (hP.of (by decide)) h0)))

theorem doStep_keeps {a1} (hP : Within [.regs, .ax, .drv, .adm, .fio] P) (h0 : Keeps P s t) :
    Keeps P s (doStep a1 t) := by
  unfold doStep
  extract_lets -merge -useContext x1 x2 x3 x4 x5 x6
  have h1 : Keeps P s x1 := (Keeps.ite (doBit_keeps (hP.of (by decide)) (doBit_keeps (hP.of (by decide)) h0)) h0)
  clear_value x1
  have h4 : Keeps P s x4 := (doBit_keeps (hP.of (by decide)) h1)
  clear_value x4
  have h6 : Keeps P s x6 := (Keeps.ite (Keeps.ite h4 (doPut_keeps (hP.of (by decide)) (Keeps.ite (admWithdraw_keeps (hP.of (by decide)) h4) h4))) (by
    split
    · exact (doStart_keeps (hP.of (by decide)) h4)
    · exact (Keeps.ite (doPut_keeps (hP.of (by decide)) (Keeps.upd h4 (by intro p hp; cases p <;> first | exact absurd (hP _ (by decide)) hp | rfl) ⟨rfl, rfl, rfl, rfl⟩)) (Keeps.ite h4 (doPut_keeps (hP.of (by decide)) h4)))
    · exact h4))
  clear_value x6
  exact (modFio_keeps (hP.of (by decide)) h6)

theorem downstream_keeps (hP : Within [.regs, .pts, .queues, .q0pend, .helm, .ax, .clu, .drv, .adm, .fio] P) (h0 : Keeps P s t) :
    Keeps P s (downstream t) := by
  unfold downstream
  extract_lets -merge -useContext x1
  have h1 : Keeps P s x1 := (modFio_keeps (hP.of (by decide)) (fioCommits_keeps (hP.of (by decide)) h0))
  clear_value x1
  exact (Keeps.ite h0 (forEach_keeps (fun _ _ h2 => (doStep_keeps (hP.of (by decide)) h2)) h1))

theorem linkTrained_keeps (hP : Within [.regs, .fio] P) (h0 : Keeps P s t) :
    Keeps P s (linkTrained t) := by
  unfold linkTrained
  exact (Keeps.ite (modFio_keeps (hP.of (by decide)) (bwBit_keeps (hP.of (by decide)) h0)) h0)

theorem execFioLinkTrained_keeps {a1} (hP : Within [.now, .regs, .fio] P) (h0 : Keeps P s t) :
    Runs P s (execFioLinkTrained a1 t) := by
  unfold execFioLinkTrained
  exact (Runs.next (linkTrained_keeps (hP.of (by decide)) (atTime_keeps (hP.of (by decide)) h0)))

theorem execFioLinkFail_keeps {a1 a2} (hP : Within [.now, .regs, .pts, .queues, .q0pend, .helm, .ax, .clu] P) (h0 : Keeps P s t) :
    Runs P s (execFioLinkFail a1 a2 t) := by
  unfold execFioLinkFail
  extract_lets -merge -useContext x1
  have h1 : Keeps P s x1 := (atTime_keeps (hP.of (by decide)) h0)
  clear_value x1
  exact (Runs.next (Keeps.ite (raiseDev_keeps (hP.of (by decide)) h1) h1))

theorem fioPoints_keeps (hP : Within [.pts] P) (h0 : Keeps P s t) :
    Keeps P s (fioPoints t) := by
  unfold fioPoints
  extract_lets -merge -useContext x1 x2 x3 x4 x5
  have h5 : Keeps P s x5 := (setPt_keeps (hP.of (by decide)) (setPt_keeps (hP.of (by decide)) h0))
  clear_value x5
  exact (setPt_keeps (hP.of (by decide)) (setPt_keeps (hP.of (by decide)) h5))

theorem execFioDownstreamFrame_keeps {a1} (hP : Within [.now, .regs, .pts, .queues, .q0pend, .helm, .ax, .clu, .drv, .adm, .fio] P) (h0 : Keeps P s t) :
    Runs P s (execFioDownstreamFrame a1 t) := by
  unfold execFioDownstreamFrame
  extract_lets -merge -useContext x1
  have h1 : Keeps P s x1 := (atTime_keeps (hP.of (by decide)) h0)
  clear_value x1
  exact (Runs.next (Keeps.ite (downstream_keeps (hP.of (by decide)) h1) h1))

theorem fioStatus_keeps (hP : Within [.regs] P) (h0 : Keeps P s t) :
    Keeps P s (fioStatus t) := by
  unfold fioStatus
  exact (bw_keeps (hP.of (by decide)) h0)

theorem raiseAll_keeps {a1 a2 a3} (hP : Within [.regs, .pts, .queues, .q0pend, .helm, .ax, .clu] P) (h0 : Keeps P s t) :
    Keeps P s (raiseAll a1 a2 a3 t) := by
  unfold raiseAll
  exact (raise_keeps (hP.of (by decide)) h0)

theorem fieldState_keeps {a1 a2} (hP : Within [.regs, .pts, .queues, .q0pend, .helm, .ax, .clu, .fio] P) (h0 : Keeps P s t) :
    Keeps P s (fieldState a1 a2 t) := by
  unfold fieldState
  extract_lets -merge -useContext x1 x2 x3
  have h3 : Keeps P s x3 := (modFio_keeps (hP.of (by decide)) h0)
  clear_value x3
  exact (Keeps.ite (raiseAll_keeps (hP.of (by decide)) h3) (Keeps.ite (raiseAll_keeps (hP.of (by decide)) h3) h3))

theorem sinSample_keeps {a1} (hP : Within [.safe] P) (h0 : Keeps P s t) :
    Keeps P s (sinSample a1 t) := by
  unfold sinSample
  extract_lets -merge -useContext x1 x2
  exact (Keeps.upd h0 (by intro p hp; cases p <;> first | exact absurd (hP _ (by decide)) hp | rfl) ⟨rfl, rfl, rfl, rfl⟩)

theorem upstream_keeps {a1 a2 a3 a4 a5} (hP : Within [.regs, .pts, .queues, .q0pend, .helm, .ax, .homing, .clu, .hk, .fio, .safe] P) (h0 : Keeps P s t) :
    Keeps P s (upstream a1 a2 a3 a4 a5 t) := by
  unfold upstream
  extract_lets -merge -useContext x1 x2 x3 x4 x5 x6 x7 x8 x9 x10
  have h1 : Keeps P s x1 := (modFio_keeps (hP.of (by decide)) h0)
  clear_value x1
  have h2 : Keeps P s x2 := (Keeps.ite (bwBit_keeps (hP.of (by decide)) h1) h1)
  clear_value x2
  have h3 : Keeps P s x3 := (fioStatus_keeps (hP.of (by decide)) (fieldState_keeps (hP.of (by decide)) h2))
  clear_value x3
  have h5 : Keeps P s x5 := (bw_keeps (hP.of (by decide)) (bw_keeps (hP.of (by decide)) h3))
  clear_value x5
  have h6 : Keeps P s x6 := (bw_keeps (hP.of (by decide)) h5)
  clear_value x6
  have h7 : Keeps P s x7 := (Keeps.ite h6 (setPt_keeps (hP.of (by decide)) h6))
  clear_value x7
  have h8 : Keeps P s x8 := (forEach_keeps (fun _ _ h11 => (by
    extract_lets -merge -useContext x12 x13
    have h13 : Keeps P s x13 := (iw_keeps (hP.of (by decide)) h11)
    clear_value x13
    exact (forEach_keeps (fun _ _ h14 => (inputEdge_keeps (hP.of (by decide)) h14)) h13))) h7)
  clear_value x8
  have h9 : Keeps P s x9 := (modFio_keeps (hP.of (by decide)) h8)
  clear_value x9
  have h10 : Keeps P s x10 := (forEach_keeps (fun _ _ h15 => (iw_keeps (hP.of (by decide)) h15)) h9)
  clear_value x10
  exact (Keeps.ite h0 (hkResult_keeps (hP.of (by decide)) (sinSample_keeps (hP.of (by decide)) (diValidUpd_keeps (hP.of (by decide)) h10))))

theorem upMissing_keeps {a1} (hP : Within [.regs, .pts, .queues, .q0pend, .helm, .ax, .clu, .fio] P) (h0 : Keeps P s t) :
    Keeps P s (upMissing a1 t) := by
  unfold upMissing
  extract_lets -merge -useContext x1 x2 x3
  have h1 : Keeps P s x1 := (bwSat_keeps (hP.of (by decide)) (modFio_keeps (hP.of (by decide)) h0))
  clear_value x1
  have h2 : Keeps P s x2 := (evOnce_keeps (hP.of (by decide)) h1)
  clear_value x2
  have h3 : Keeps P s x3 := (diValidUpd_keeps (hP.of (by decide)) (bwSat_keeps (hP.of (by decide)) (bwBit_keeps (hP.of (by decide)) h2)))
  clear_value x3
  exact (Keeps.ite h0 (Keeps.ite (raiseAll_keeps (hP.of (by decide)) h3) h2))

theorem execFioUpstreamFrame_keeps {a1 a2 a3 a4 a5 a6} (hP : Within [.now, .regs, .pts, .queues, .q0pend, .helm, .ax, .homing, .clu, .hk, .fio, .safe] P) (h0 : Keeps P s t) :
    Runs P s (execFioUpstreamFrame a1 a2 a3 a4 a5 a6 t) := by
  unfold execFioUpstreamFrame
  extract_lets -merge -useContext x1
  have h1 : Keeps P s x1 := (atTime_keeps (hP.of (by decide)) h0)
  clear_value x1
  exact (Runs.next (Keeps.ite (upstream_keeps (hP.of (by decide)) h1) (upMissing_keeps (hP.of (by decide)) h1)))

theorem execFieldGoodSettled_keeps {a1} (hP : Within [.now, .fio] P) (h0 : Keeps P s t) :
    Runs P s (execFieldGoodSettled a1 t) := by
  unfold execFieldGoodSettled
  extract_lets -merge -useContext x1
  have h1 : Keeps P s x1 := (atTime_keeps (hP.of (by decide)) h0)
  clear_value x1
  exact (Runs.next (by
    split
    · exact (Keeps.ite (modFio_keeps (hP.of (by decide)) h1) h1)
    · exact h1))

theorem execFioUpstreamMissing_keeps {a1 a2} (hP : Within [.now, .regs, .pts, .queues, .q0pend, .helm, .ax, .clu, .fio] P) (h0 : Keeps P s t) :
    Runs P s (execFioUpstreamMissing a1 a2 t) := by
  unfold execFioUpstreamMissing
  exact (Runs.next (upMissing_keeps (hP.of (by decide)) (atTime_keeps (hP.of (by decide)) h0)))

theorem fioSilent_keeps (hP : Within [.regs, .adm, .fio] P) (h0 : Keeps P s t) :
    Keeps P s (fioSilent t) := by
  unfold fioSilent
  exact (forEach_keeps (fun _ _ h1 => (Keeps.ite h1 (doPut_keeps (hP.of (by decide)) (Keeps.ite (admWithdraw_keeps (hP.of (by decide)) h1) h1)))) (modFio_keeps (hP.of (by decide)) h0))

theorem execFioDownstreamSilent_keeps {a1} (hP : Within [.now, .regs, .adm, .fio] P) (h0 : Keeps P s t) :
    Runs P s (execFioDownstreamSilent a1 t) := by
  unfold execFioDownstreamSilent
  extract_lets -merge -useContext x1
  have h1 : Keeps P s x1 := (atTime_keeps (hP.of (by decide)) h0)
  clear_value x1
  exact (Runs.next (Keeps.ite (fioSilent_keeps (hP.of (by decide)) h1) h1))

theorem execDiFilterChange_keeps {a1 a2 a3} (hP : Within [.now, .fio] P) (h0 : Keeps P s t) :
    Runs P s (execDiFilterChange a1 a2 a3 t) := by
  unfold execDiFilterChange
  extract_lets -merge -useContext x1
  have h1 : Keeps P s x1 := (atTime_keeps (hP.of (by decide)) h0)
  clear_value x1
  exact (Runs.next (Keeps.ite h1 (diFilter_keeps (hP.of (by decide)) h1)))

theorem execDoOverload_keeps {a1 a2 a3 a4} (hP : Within [.now, .regs, .pts, .queues, .q0pend, .helm, .ax, .clu] P) (h0 : Keeps P s t) :
    Runs P s (execDoOverload a1 a2 a3 a4 t) := by
  unfold execDoOverload
  extract_lets -merge -useContext x1
  have h1 : Keeps P s x1 := (atTime_keeps (hP.of (by decide)) h0)
  clear_value x1
  exact (Runs.next (Keeps.ite (doReport_keeps (hP.of (by decide)) h1) h1))

theorem execDoOvertemp_keeps {a1 a2} (hP : Within [.now, .regs, .pts, .queues, .q0pend, .helm, .ax, .clu, .fio] P) (h0 : Keeps P s t) :
    Runs P s (execDoOvertemp a1 a2 t) := by
  unfold execDoOvertemp
  extract_lets -merge -useContext x1
  have h1 : Keeps P s x1 := (atTime_keeps (hP.of (by decide)) h0)
  clear_value x1
  exact (Runs.next (Keeps.ite (modFio_keeps (hP.of (by decide)) (doPut_keeps (hP.of (by decide)) (doBit_keeps (hP.of (by decide)) (doReport_keeps (hP.of (by decide)) h1)))) h1))

theorem execDoOpenload_keeps {a1 a2 a3 a4} (hP : Within [.now, .regs, .pts, .queues, .q0pend, .helm, .ax, .clu] P) (h0 : Keeps P s t) :
    Runs P s (execDoOpenload a1 a2 a3 a4 t) := by
  unfold execDoOpenload
  extract_lets -merge -useContext x1
  have h1 : Keeps P s x1 := (atTime_keeps (hP.of (by decide)) h0)
  clear_value x1
  exact (Runs.next (Keeps.ite (doReport_keeps (hP.of (by decide)) h1) h1))

theorem execDoOpenoff_keeps {a1 a2 a3 a4} (hP : Within [.now, .regs, .pts, .queues, .q0pend, .helm, .ax, .clu] P) (h0 : Keeps P s t) :
    Runs P s (execDoOpenoff a1 a2 a3 a4 t) := by
  unfold execDoOpenoff
  extract_lets -merge -useContext x1
  have h1 : Keeps P s x1 := (atTime_keeps (hP.of (by decide)) h0)
  clear_value x1
  exact (Runs.next (Keeps.ite (doReport_keeps (hP.of (by decide)) h1) h1))

theorem execDoBackfeed_keeps {a1 a2 a3 a4} (hP : Within [.now, .regs, .pts, .queues, .q0pend, .helm, .ax, .clu] P) (h0 : Keeps P s t) :
    Runs P s (execDoBackfeed a1 a2 a3 a4 t) := by
  unfold execDoBackfeed
  extract_lets -merge -useContext x1
  have h1 : Keeps P s x1 := (atTime_keeps (hP.of (by decide)) h0)
  clear_value x1
  exact (Runs.next (Keeps.ite (doReport_keeps (hP.of (by decide)) h1) h1))

theorem execTpsOverload_keeps {a1 a2 a3} (hP : Within [.now, .regs, .pts, .queues, .q0pend, .helm, .ax, .clu, .fio] P) (h0 : Keeps P s t) :
    Runs P s (execTpsOverload a1 a2 a3 t) := by
  unfold execTpsOverload
  extract_lets -merge -useContext x1
  have h1 : Keeps P s x1 := (atTime_keeps (hP.of (by decide)) h0)
  clear_value x1
  exact (Runs.next (Keeps.ite (ev_keeps (hP.of (by decide)) (bwBit_keeps (hP.of (by decide)) (modFio_keeps (hP.of (by decide)) h1))) h1))

theorem execTpsRetry_keeps {a1 a2} (hP : Within [.now, .regs] P) (h0 : Keeps P s t) :
    Runs P s (execTpsRetry a1 a2 t) := by
  unfold execTpsRetry
  extract_lets -merge -useContext x1
  have h1 : Keeps P s x1 := (atTime_keeps (hP.of (by decide)) h0)
  clear_value x1
  exact (Runs.next (Keeps.ite (bwBit_keeps (hP.of (by decide)) h1) h1))

theorem execFioForceWrite_keeps {a1} (hP : Within [.regs] P) (h0 : Keeps P s t) :
    Runs P s (execFioForceWrite a1 t) := by
  unfold execFioForceWrite
  exact (Runs.next (fioForce_keeps (hP.of (by decide)) h0))

theorem execDoDiagnosticClear_keeps {a1 a2 a3 a4 a5} (hP : Within [.now, .regs, .fio] P) (h0 : Keeps P s t) :
    Runs P s (execDoDiagnosticClear a1 a2 a3 a4 a5 t) := by
  unfold execDoDiagnosticClear
  extract_lets -merge -useContext x1
  have h1 : Keeps P s x1 := (atTime_keeps (hP.of (by decide)) h0)
  clear_value x1
  exact (Runs.next (Keeps.ite (diagClear_keeps (hP.of (by decide)) h1) h1))

end Sys2Proof.Machine
end

