-- ==== Sys2Proof/Laws/KeepsSafetyUnit.lean ====
section
/-!
SUPPORT. What the operations of Machine/SafetyUnit.lean may touch, and that they keep the canonical form: one lemma per operation.
-/
namespace Sys2Proof.Machine

variable {P : List Part} {s t : State}

theorem modSafe_keeps {a1} (hP : Within [.safe] P) (h0 : Keeps P s t) :
    Keeps P s (modSafe a1 t) := by
  unfold modSafe
  exact (Keeps.upd h0 (by intro p hp; cases p <;> first | exact absurd (hP _ (by decide)) hp | rfl) ⟨rfl, rfl, rfl, rfl⟩)

theorem sstat_keeps {a1 a2} (hP : Within [.regs] P) (h0 : Keeps P s t) :
    Keeps P s (sstat a1 a2 t) := by
  unfold sstat
  exact (bwBit_keeps (hP.of (by decide)) h0)

theorem confirmedUpd_keeps (hP : Within [.regs] P) (h0 : Keeps P s t) :
    Keeps P s (confirmedUpd t) := by
  unfold confirmedUpd
  exact (sstat_keeps (hP.of (by decide)) h0)

theorem useBlock_keeps {a1 a2} (hP : Within [.regs, .pts] P) (h0 : Keeps P s t) :
    Keeps P s (useBlock a1 a2 t) := by
  unfold useBlock
  extract_lets -merge -useContext x1 x2 x3
  have h1 : Keeps P s x1 := (Keeps.foldl (fun _ _ h4 => (bw_keeps (hP.of (by decide)) h4)) _ h0)
  clear_value x1
  have h2 : Keeps P s x2 := (bw_keeps (hP.of (by decide)) (bw_keeps (hP.of (by decide)) h1))
  clear_value x2
  have h3 : Keeps P s x3 := (setPt_keeps (hP.of (by decide)) (setPt_keeps (hP.of (by decide)) h2))
  clear_value x3
  exact (confirmedUpd_keeps (hP.of (by decide)) (sstat_keeps (hP.of (by decide)) h3))

theorem editRes_keeps {a1 a2} (hP : Within [.safe] P) (h0 : Keeps P s t) :
    Keeps P s (editRes a1 a2 t) := by
  unfold editRes
  exact (modSafe_keeps (hP.of (by decide)) h0)

theorem adoptCopy_keeps (hP : Within [.regs, .pts, .queues, .q0pend, .helm, .ax, .clu, .safe] P) (h0 : Keeps P s t) :
    Keeps P s (adoptCopy t) := by
  unfold adoptCopy
  extract_lets -merge -useContext x1 x2 x3
  have h3 : Keeps P s x3 := (useBlock_keeps (hP.of (by decide)) (editRes_keeps (hP.of (by decide)) (modSafe_keeps (hP.of (by decide)) h0)))
  clear_value x3
  exact (Keeps.ite h0 (ev_keeps (hP.of (by decide)) h3))

theorem putWork_keeps {a1} (hP : Within [.regs] P) (h0 : Keeps P s t) :
    Keeps P s (putWork a1 t) := by
  unfold putWork
  exact (bw_keeps (hP.of (by decide)) (Keeps.foldl (fun _ _ h1 => (bw_keeps (hP.of (by decide)) h1)) _ h0))

theorem freeW_keeps (hP : Within [.fresh] P) (h0 : Keeps P s t) :
    Keeps P s (freeW t).2 := by
  unfold freeW
  split
  rename_i x1 e1
  have h1 : Keeps P s x1 := Keeps.ofEq e1 (takeFresh_keeps (hP.of (by decide)) h0)
  exact (Keeps.snd h1)

theorem ss1Start_keeps {a1} (hP : Within [.regs, .pts, .queues, .q0pend, .helm, .fresh, .ax, .clu, .safe] P) (h0 : Keeps P s t) :
    Keeps P s (ss1Start a1 t) := by
  unfold ss1Start
  extract_lets -merge -useContext x1 x2 x3
  have h2 : Keeps P s x2 := (modSafe_keeps (hP.of (by decide)) h0)
  clear_value x2
  have h3 : Keeps P s x3 := (bw_keeps (hP.of (by decide)) (sstat_keeps (hP.of (by decide)) h2))
  clear_value x3
  exact (Keeps.ite h0 (Keeps.ite (modSafe_keeps (hP.of (by decide)) h0) (by
    split
    rename_i x4 e4
    have h4 : Keeps P s x4 := Keeps.ofEq e4 (freeW_keeps (hP.of (by decide)) h3)
    exact (ev_keeps (hP.of (by decide)) h4))))

theorem rampOver_keeps {a1} (hP : Within [.regs, .safe] P) (h0 : Keeps P s t) :
    Keeps P s (rampOver a1 t) := by
  unfold rampOver
  exact (sstat_keeps (hP.of (by decide)) (modSafe_keeps (hP.of (by decide)) h0))

theorem rampSto_keeps {a1} (hP : Within [.regs, .safe] P) (h0 : Keeps P s t) :
    Keeps P s (rampSto a1 t) := by
  unfold rampSto
  exact (rampOver_keeps (hP.of (by decide)) (modSafe_keeps (hP.of (by decide)) h0))

theorem sdem_keeps {a1 a2} (hP : Within [.regs] P) (h0 : Keeps P s t) :
    Keeps P s (sdem a1 a2 t) := by
  unfold sdem
  exact (bwBit_keeps (hP.of (by decide)) h0)

theorem stoApply_keeps {a1} (hP : Within [.regs, .pts, .queues, .q0pend, .helm, .mot, .ax, .gear, .igrp, .homing, .loop, .clu, .drv, .adm, .safe] P) (h0 : Keeps P s t) :
    Keeps P s (stoApply a1 t) := by
  unfold stoApply
  extract_lets -merge -useContext x1 x2 x3 x4
  have h1 : Keeps P s x1 := (Keeps.ite (rampSto_keeps (hP.of (by decide)) h0) h0)
  clear_value x1
  have h2 : Keeps P s x2 := (modSafe_keeps (hP.of (by decide)) (sstat_keeps (hP.of (by decide)) h1))
  clear_value x2
  have h3 : Keeps P s x3 := (Keeps.ite (modDrv_keeps (hP.of (by decide)) h2) h2)
  clear_value x3
  have h4 : Keeps P s x4 := (forEach_keeps (fun _ _ h5 => (torqueOff_keeps (hP.of (by decide)) h5)) h3)
  clear_value x4
  exact (forEach_keeps (fun _ _ h6 => (by
    extract_lets -merge -useContext x7
    exact (Keeps.ite (sdem_keeps (hP.of (by decide)) h6) (modSafe_keeps (hP.of (by decide)) h6)))) h4)

theorem stoRelease_keeps {a1} (hP : Within [.regs, .drv, .safe] P) (h0 : Keeps P s t) :
    Keeps P s (stoRelease a1 t) := by
  unfold stoRelease
  extract_lets -merge -useContext x1
  have h1 : Keeps P s x1 := (modSafe_keeps (hP.of (by decide)) (sstat_keeps (hP.of (by decide)) h0))
  clear_value x1
  exact (Keeps.ite (modDrv_keeps (hP.of (by decide)) h1) h1)

theorem stoGrp_keeps {a1} (hP : Within [.regs, .pts, .queues, .q0pend, .helm, .mot, .ax, .gear, .igrp, .homing, .loop, .clu, .drv, .adm, .safe] P) (h0 : Keeps P s t) :
    Keeps P s (stoGrp a1 t) := by
  unfold stoGrp
  exact (Keeps.ite (Keeps.ite h0 (stoApply_keeps (hP.of (by decide)) h0)) (Keeps.ite (stoRelease_keeps (hP.of (by decide)) h0) h0))

theorem stoDecide_keeps (hP : Within [.regs, .pts, .queues, .q0pend, .helm, .mot, .ax, .gear, .igrp, .homing, .loop, .clu, .drv, .adm, .safe] P) (h0 : Keeps P s t) :
    Keeps P s (stoDecide t) := by
  unfold stoDecide
  exact (forEach_keeps (fun _ _ h1 => (stoGrp_keeps (hP.of (by decide)) h1)) h0)

theorem dropCopy_keeps (hP : Within [.regs, .safe] P) (h0 : Keeps P s t) :
    Keeps P s (dropCopy t) := by
  unfold dropCopy
  exact (putWork_keeps (hP.of (by decide)) (modSafe_keeps (hP.of (by decide)) h0))

theorem safeFault_keeps {a1 a2 a3 a4 a5} (hP : Within [.regs, .pts, .queues, .q0pend, .helm, .ax, .clu, .safe] P) (h0 : Keeps P s t) :
    Keeps P s (safeFault a1 a2 a3 a4 a5 t) := by
  unfold safeFault
  extract_lets -merge -useContext x1 x2 x3 x4
  have h3 : Keeps P s x3 := (bw_keeps (hP.of (by decide)) h0)
  clear_value x3
  have h4 : Keeps P s x4 := (modSafe_keeps (hP.of (by decide)) h3)
  clear_value x4
  exact (Keeps.ite h0 (raise_keeps (hP.of (by decide)) h4))

theorem safeCheck_keeps {a1 a2 a3 a4 a5 a6} (hP : Within [.regs, .pts, .queues, .q0pend, .helm, .ax, .clu, .safe] P) (h0 : Keeps P s t) :
    Keeps P s (safeCheck a1 a2 a3 a4 a5 a6 t) := by
  unfold safeCheck
  extract_lets -merge -useContext x1
  have h1 : Keeps P s x1 := (modSafe_keeps (hP.of (by decide)) h0)
  clear_value x1
  exact (Keeps.ite (safeFault_keeps (hP.of (by decide)) h1) h1)

theorem chanStep_keeps {a1} (hP : Within [.regs, .pts, .queues, .q0pend, .helm, .fresh, .ax, .clu, .safe] P) (h0 : Keeps P s t) :
    Keeps P s (chanStep a1 t).2 := by
  unfold chanStep
  extract_lets -merge -useContext x1 x2 x3 x4 x5 x6 x7 x8 x9
  clear_value x7
  exact (Keeps.ite2 (Keeps.snd h0) (by
    split
    · extract_lets -merge -useContext x10 x11 x12 x13 x14 x15 x16
      have h12 : Keeps P s x12 := (modSafe_keeps (hP.of (by decide)) h0)
      clear_value x12
      have h13 : Keeps P s x13 := (safeCheck_keeps (hP.of (by decide)) h12)
      clear_value x13
      have h14 : Keeps P s x14 := (sdem_keeps (hP.of (by decide)) h13)
      clear_value x14
      have h16 : Keeps P s x16 := (Keeps.ite (ss1Start_keeps (hP.of (by decide)) (ev_keeps (hP.of (by decide)) h14)) h14)
      clear_value x16
      exact (Keeps.snd h16)))

theorem chansStep_keeps (hP : Within [.regs, .pts, .queues, .q0pend, .helm, .fresh, .ax, .clu, .safe] P) (h0 : Keeps P s t) : Keeps P s (chansStep t) := by
  have step : ∀ (p : Bool × State) (k : Fin 4), Keeps P s p.2 →
      Keeps P s (match chanStep k p.2 with | (b, s) => (p.1 || b, s)).2 := fun p k h => by
    split
    rename_i e
    exact Keeps.ofEq e (chanStep_keeps (hP.of (by decide)) h)
  unfold chansStep
  refine Keeps.ite (modSafe_keeps (hP.of (by decide)) h0) ?_
  extract_lets -merge -useContext x
  have hx : Keeps P s x := Keeps.ite (modSafe_keeps (hP.of (by decide)) h0) h0
  clear_value x
  split
  rename_i e
  exact safeCheck_keeps (hP.of (by decide)) (Keeps.ofEq e (Keeps.foldlPair step _ (Keeps.snd hx)))

theorem demand_keeps {a1} (hP : Within [.regs, .pts, .queues, .q0pend, .helm, .fresh, .ax, .clu, .safe] P) (h0 : Keeps P s t) :
    Keeps P s (demand a1 t) := by
  unfold demand
  extract_lets -merge -useContext x1 x2 x3
  have h2 : Keeps P s x2 := (bwSat_keeps (hP.of (by decide)) (sdem_keeps (hP.of (by decide)) (modSafe_keeps (hP.of (by decide)) h0)))
  clear_value x2
  have h3 : Keeps P s x3 := (ev_keeps (hP.of (by decide)) h2)
  clear_value x3
  exact (Keeps.ite h0 (forEach_keeps (fun _ _ h4 => (Keeps.ite (Keeps.ite (modSafe_keeps (hP.of (by decide)) h4) (ss1Start_keeps (hP.of (by decide)) h4)) h4)) h3))

theorem denFb_keeps {a1} (hP : Within [.regs, .pts, .queues, .q0pend, .helm, .ax, .clu, .safe] P) (h0 : Keeps P s t) :
    Keeps P s (denFb a1 t) := by
  unfold denFb
  exact (safeCheck_keeps (hP.of (by decide)) h0)

theorem dueCheck_keeps {a1} (hP : Within [.regs, .pts, .queues, .q0pend, .helm, .ax, .clu, .safe] P) (h0 : Keeps P s t) :
    Keeps P s (dueCheck a1 t) := by
  unfold dueCheck
  extract_lets -merge -useContext x1
  exact (Keeps.ite (ev_keeps (hP.of (by decide)) (modSafe_keeps (hP.of (by decide)) h0)) h0)

theorem editConfirm_keeps {a1 a2} (hP : Within [.regs, .pts, .queues, .q0pend, .helm, .ax, .clu, .safe] P) (h0 : Keeps P s t) :
    Keeps P s (editConfirm a1 a2 t) := by
  unfold editConfirm
  exact (Keeps.ite (ev_keeps (hP.of (by decide)) (editRes_keeps (hP.of (by decide)) h0)) (editRes_keeps (hP.of (by decide)) (modSafe_keeps (hP.of (by decide)) h0)))

theorem editWrite_keeps {a1 a2} (hP : Within [.regs, .pts, .queues, .q0pend, .helm, .fresh, .ax, .clu, .safe] P) (h0 : Keeps P s t) :
    Keeps P s (editWrite a1 a2 t) := by
  unfold editWrite
  extract_lets -merge -useContext x1 x2 x3
  exact (Keeps.ite (by
    split
    rename_i x4 e4
    have h4 : Keeps P s x4 := Keeps.ofEq e4 (freeW_keeps (hP.of (by decide)) h0)
    exact (ev_keeps (hP.of (by decide)) (editRes_keeps (hP.of (by decide)) h4))) (editRes_keeps (hP.of (by decide)) (putWork_keeps (hP.of (by decide)) h0)))

theorem editRequest_keeps {a1 a2} (hP : Within [.regs, .pts, .queues, .q0pend, .helm, .fresh, .ax, .clu, .safe] P) (h0 : Keeps P s t) :
    Keeps P s (editRequest a1 a2 t) := by
  unfold editRequest
  exact (Keeps.ite (editConfirm_keeps (hP.of (by decide)) h0) (Keeps.ite (editWrite_keeps (hP.of (by decide)) h0) h0))

theorem loadBlock_keeps {a1} (hP : Within [.regs, .pts, .queues, .q0pend, .helm, .mot, .ax, .gear, .igrp, .homing, .loop, .clu, .drv, .adm, .safe] P) (h0 : Keeps P s t) :
    Keeps P s (loadBlock a1 t) := by
  unfold loadBlock
  extract_lets -merge -useContext x1 x2 x3
  have h2 : Keeps P s x2 := (modSafe_keeps (hP.of (by decide)) h0)
  clear_value x2
  split
  · split
    · exact (stoDecide_keeps (hP.of (by decide)) (safeCheck_keeps (hP.of (by decide)) h2))
    · exact (stoDecide_keeps (hP.of (by decide)) (useBlock_keeps (hP.of (by decide)) h2))

theorem pulseJudge_keeps {a1 a2} (hP : Within [.regs, .pts, .queues, .q0pend, .helm, .fresh, .mot, .ax, .gear, .igrp, .homing, .loop, .clu, .drv, .adm, .safe] P) (h0 : Keeps P s t) :
    Keeps P s (pulseJudge a1 a2 t) := by
  unfold pulseJudge
  exact (forEach_keeps (fun _ _ h1 => (by
    extract_lets -merge -useContext x2 x3 x4
    have h4 : Keeps P s x4 := (safeCheck_keeps (hP.of (by decide)) h1)
    clear_value x4
    exact (Keeps.ite (Keeps.ite (stoDecide_keeps (hP.of (by decide)) (demand_keeps (hP.of (by decide)) (sdem_keeps (hP.of (by decide)) h4))) h4) h1))) h0)

theorem execTpsPulse_keeps {a1 a2 a3 a4} (hP : Within [.now, .regs, .pts, .queues, .q0pend, .helm, .fresh, .mot, .ax, .gear, .igrp, .homing, .loop, .clu, .drv, .adm, .fio, .safe] P) (h0 : Keeps P s t) :
    Runs P s (execTpsPulse a1 a2 a3 a4 t) := by
  unfold execTpsPulse
  extract_lets -merge -useContext x1 x2
  have h1 : Keeps P s x1 := (atTime_keeps (hP.of (by decide)) h0)
  clear_value x1
  have h2 : Keeps P s x2 := (modFio_keeps (hP.of (by decide)) h1)
  clear_value x2
  exact (Runs.next (Keeps.ite (Keeps.ite (modFio_keeps (hP.of (by decide)) h1) h1) (Keeps.ite h1 (Keeps.ite (pulseJudge_keeps (hP.of (by decide)) h2) h2))))

theorem rampStep_keeps {a1} (hP : Within [.regs, .pts, .queues, .q0pend, .helm, .ax, .clu, .safe] P) (h0 : Keeps P s t) :
    Keeps P s (rampStep a1 t) := by
  unfold rampStep
  extract_lets -merge -useContext x1 x2 x3
  split
  · exact h0
  · extract_lets -merge -useContext x4 x5 x6 x7 x8
    have h7 : Keeps P s x7 := (modSafe_keeps (hP.of (by decide)) h0)
    clear_value x7
    have h8 : Keeps P s x8 := (bw_keeps (hP.of (by decide)) h7)
    clear_value x8
    exact (Keeps.ite (rampSto_keeps (hP.of (by decide)) h0) (by
      split
      · extract_lets -merge -useContext x9
        exact (rampSto_keeps (hP.of (by decide)) (safeFault_keeps (hP.of (by decide)) h0))
      · exact (Keeps.ite (rampSto_keeps (hP.of (by decide)) h8) (Keeps.ite (rampSto_keeps (hP.of (by decide)) (safeFault_keeps (hP.of (by decide)) h8)) h8))))

theorem stoFb_keeps {a1} (hP : Within [.regs, .pts, .queues, .q0pend, .helm, .ax, .clu, .safe] P) (h0 : Keeps P s t) :
    Keeps P s (stoFb a1 t) := by
  unfold stoFb
  extract_lets -merge -useContext x1
  exact (safeCheck_keeps (hP.of (by decide)) h0)

theorem helmWd_keeps (hP : Within [.regs, .pts, .queues, .q0pend, .helm, .ax, .clu, .safe] P) (h0 : Keeps P s t) :
    Keeps P s (helmWd t) := by
  unfold helmWd
  exact (safeCheck_keeps (hP.of (by decide)) (sstat_keeps (hP.of (by decide)) h0))

theorem sbcFb_keeps {a1} (hP : Within [.regs, .pts, .queues, .q0pend, .helm, .ax, .clu, .safe] P) (h0 : Keeps P s t) :
    Keeps P s (sbcFb a1 t) := by
  unfold sbcFb
  extract_lets -merge -useContext x1 x2 x3 x4 x5 x6
  have h4 : Keeps P s x4 := (Keeps.ite (modSafe_keeps (hP.of (by decide)) h0) h0)
  clear_value x4
  have h6 : Keeps P s x6 := (safeCheck_keeps (hP.of (by decide)) h4)
  clear_value x6
  exact (Keeps.ite h0 (Keeps.ite (sdem_keeps (hP.of (by decide)) h6) h6))

theorem readbacks_keeps {a1} (hP : Within [.regs, .pts, .queues, .q0pend, .helm, .ax, .clu, .safe] P) (h0 : Keeps P s t) :
    Keeps P s (readbacks a1 t) := by
  unfold readbacks
  extract_lets -merge -useContext x1 x2 x3 x4 x5
  have h1 : Keeps P s x1 := (forEach_keeps (fun _ _ h6 => (stoFb_keeps (hP.of (by decide)) h6)) h0)
  clear_value x1
  have h2 : Keeps P s x2 := (Keeps.ite (denFb_keeps (hP.of (by decide)) h1) h1)
  clear_value x2
  have h3 : Keeps P s x3 := (helmWd_keeps (hP.of (by decide)) h2)
  clear_value x3
  have h5 : Keeps P s x5 := (modSafe_keeps (hP.of (by decide)) h3)
  clear_value x5
  exact (Keeps.ite h2 (forEach_keeps (fun _ _ h7 => (sbcFb_keeps (hP.of (by decide)) h7)) (safeCheck_keeps (hP.of (by decide)) h5)))

theorem sinStep_keeps {a1} (hP : Within [.regs, .pts, .queues, .q0pend, .helm, .fresh, .ax, .clu, .safe] P) (h0 : Keeps P s t) :
    Keeps P s (sinStep a1 t) := by
  unfold sinStep
  extract_lets -merge -useContext x1 x2 x3 x4
  have h4 : Keeps P s x4 := (sdem_keeps (hP.of (by decide)) (modSafe_keeps (hP.of (by decide)) h0))
  clear_value x4
  exact (Keeps.ite h0 (Keeps.ite (demand_keeps (hP.of (by decide)) h4) h4))

theorem testGood_keeps {a1} (hP : Within [.regs, .safe] P) (h0 : Keeps P s t) :
    Keeps P s (testGood a1 t) := by
  unfold testGood
  extract_lets -merge -useContext x1
  have h1 : Keeps P s x1 := (modSafe_keeps (hP.of (by decide)) h0)
  clear_value x1
  exact (bw_keeps (hP.of (by decide)) h1)

theorem testOver_keeps (hP : Within [.regs, .pts, .queues, .q0pend, .helm, .mot, .ax, .gear, .igrp, .homing, .loop, .clu, .drv, .adm, .safe] P) (h0 : Keeps P s t) :
    Keeps P s (testOver t) := by
  unfold testOver
  extract_lets -merge -useContext x1 x2
  have h2 : Keeps P s x2 := (forEach_keeps (fun _ _ h3 => (Keeps.ite (testGood_keeps (hP.of (by decide)) h3) h3)) h0)
  clear_value x2
  exact (stoDecide_keeps (hP.of (by decide)) (modSafe_keeps (hP.of (by decide)) h2))

theorem putAge_keeps {a1 a2} (hP : Within [.regs, .safe] P) (h0 : Keeps P s t) :
    Keeps P s (putAge a1 a2 t) := by
  unfold putAge
  exact (bw_keeps (hP.of (by decide)) (modSafe_keeps (hP.of (by decide)) h0))

theorem testsStep_keeps (hP : Within [.regs, .pts, .queues, .q0pend, .helm, .mot, .ax, .gear, .igrp, .homing, .loop, .clu, .drv, .adm, .safe] P) (h0 : Keeps P s t) :
    Keeps P s (testsStep t) := by
  unfold testsStep
  extract_lets -merge -useContext x1
  have h1 : Keeps P s x1 := (Keeps.ite (testOver_keeps (hP.of (by decide)) h0) h0)
  clear_value x1
  exact (forEach_keeps (fun _ _ h2 => (by
    extract_lets -merge -useContext x3
    have h3 : Keeps P s x3 := (Keeps.ite (testGood_keeps (hP.of (by decide)) h2) (putAge_keeps (hP.of (by decide)) h2))
    clear_value x3
    exact (dueCheck_keeps (hP.of (by decide)) h3))) h1)

theorem sbcDelay_keeps {a1} (hP : Within [.regs, .safe] P) (h0 : Keeps P s t) :
    Keeps P s (sbcDelay a1 t) := by
  unfold sbcDelay
  split
  · exact (Keeps.ite (modSafe_keeps (hP.of (by decide)) (sdem_keeps (hP.of (by decide)) h0)) h0)
  · exact h0

theorem sbcStep_keeps (hP : Within [.regs, .safe] P) (h0 : Keeps P s t) :
    Keeps P s (sbcStep t) := by
  unfold sbcStep
  exact (forEach_keeps (fun _ _ h1 => (by
    extract_lets -merge -useContext x2 x3 x4
    have h4 : Keeps P s x4 := (sbcDelay_keeps (hP.of (by decide)) h1)
    clear_value x4
    exact (Keeps.ite (sdem_keeps (hP.of (by decide)) h4) (Keeps.ite (modSafe_keeps (hP.of (by decide)) (sdem_keeps (hP.of (by decide)) h4)) h4)))) h0)

theorem resetDecide_keeps (hP : Within [.regs, .pts, .queues, .q0pend, .helm, .mot, .ax, .gear, .igrp, .homing, .loop, .clu, .drv, .adm, .safe] P) (h0 : Keeps P s t) :
    Keeps P s (resetDecide t) := by
  unfold resetDecide
  extract_lets -merge -useContext x1 x2 x3 x4 x5 x6
  have h4 : Keeps P s x4 := (modSafe_keeps (hP.of (by decide)) h0)
  clear_value x4
  have h6 : Keeps P s x6 := (bw_keeps (hP.of (by decide)) h4)
  clear_value x6
  exact (Keeps.ite (sbcStep_keeps (hP.of (by decide)) (stoDecide_keeps (hP.of (by decide)) (sstat_keeps (hP.of (by decide)) (bwSat_keeps (hP.of (by decide)) h6)))) (sstat_keeps (hP.of (by decide)) (modSafe_keeps (hP.of (by decide)) h0)))

theorem stoTest_keeps {a1} (hP : Within [.regs, .pts, .queues, .q0pend, .helm, .mot, .ax, .gear, .igrp, .homing, .loop, .clu, .drv, .adm, .safe] P) (h0 : Keeps P s t) :
    Keeps P s (stoTest a1 t) := by
  unfold stoTest
  extract_lets -merge -useContext x1
  exact (Keeps.ite (stoDecide_keeps (hP.of (by decide)) (modSafe_keeps (hP.of (by decide)) h0)) h0)

theorem requests_keeps (hP : Within [.regs, .pts, .queues, .q0pend, .helm, .fresh, .mot, .ax, .gear, .igrp, .homing, .loop, .clu, .drv, .adm, .safe] P) (h0 : Keeps P s t) :
    Keeps P s (requests t) := by
  unfold requests
  extract_lets -merge -useContext x1 x2 x3 x4
  have h2 : Keeps P s x2 := (modSafe_keeps (hP.of (by decide)) h0)
  clear_value x2
  have h3 : Keeps P s x3 := (Keeps.ite (resetDecide_keeps (hP.of (by decide)) h2) h2)
  clear_value x3
  have h4 : Keeps P s x4 := (Keeps.ite (stoTest_keeps (hP.of (by decide)) h3) h3)
  clear_value x4
  split
  · exact (editRequest_keeps (hP.of (by decide)) (modSafe_keeps (hP.of (by decide)) h4))
  · exact h4

theorem safetyCycle_keeps {a1 a2} (hP : Within [.regs, .pts, .queues, .q0pend, .helm, .fresh, .mot, .ax, .gear, .igrp, .homing, .loop, .clu, .drv, .adm, .safe] P) (h0 : Keeps P s t) :
    Keeps P s (safetyCycle a1 a2 t) := by
  unfold safetyCycle
  extract_lets -merge -useContext x1 x2 x3 x4
  have h1 : Keeps P s x1 := (adoptCopy_keeps (hP.of (by decide)) (modSafe_keeps (hP.of (by decide)) h0))
  clear_value x1
  have h2 : Keeps P s x2 := (bw_keeps (hP.of (by decide)) h1)
  clear_value x2
  have h3 : Keeps P s x3 := (sstat_keeps (hP.of (by decide)) h2)
  clear_value x3
  have h4 : Keeps P s x4 := (Keeps.ite (forEach_keeps (fun _ _ h5 => (rampStep_keeps (hP.of (by decide)) h5)) (readbacks_keeps (hP.of (by decide)) (chansStep_keeps (hP.of (by decide)) (forEach_keeps (fun _ _ h6 => (sinStep_keeps (hP.of (by decide)) h6)) h3)))) h3)
  clear_value x4
  exact (Keeps.ite h0 (testsStep_keeps (hP.of (by decide)) (requests_keeps (hP.of (by decide)) (sbcStep_keeps (hP.of (by decide)) (stoDecide_keeps (hP.of (by decide)) h4)))))

theorem execSafeDemand_keeps {a1 a2} (hP : Within [.now, .regs, .pts, .queues, .q0pend, .helm, .fresh, .mot, .ax, .gear, .igrp, .homing, .loop, .clu, .drv, .adm, .safe] P) (h0 : Keeps P s t) :
    Runs P s (execSafeDemand a1 a2 t) := by
  unfold execSafeDemand
  extract_lets -merge -useContext x1 x2
  have h1 : Keeps P s x1 := (atTime_keeps (hP.of (by decide)) h0)
  clear_value x1
  exact (Runs.next (Keeps.ite (stoDecide_keeps (hP.of (by decide)) (demand_keeps (hP.of (by decide)) h1)) h1))

theorem execSs1RampEnd_keeps {a1 a2} (hP : Within [.now, .regs, .pts, .queues, .q0pend, .helm, .mot, .ax, .gear, .igrp, .homing, .loop, .clu, .drv, .adm, .safe] P) (h0 : Keeps P s t) :
    Runs P s (execSs1RampEnd a1 a2 t) := by
  unfold execSs1RampEnd
  extract_lets -merge -useContext x1
  have h1 : Keeps P s x1 := (atTime_keeps (hP.of (by decide)) h0)
  clear_value x1
  exact (Runs.next (by
    split
    · exact (Keeps.ite (stoDecide_keeps (hP.of (by decide)) (rampSto_keeps (hP.of (by decide)) h1)) h1)
    · exact h1))

theorem execSs1Timeout_keeps {a1 a2} (hP : Within [.now, .regs, .pts, .queues, .q0pend, .helm, .mot, .ax, .gear, .igrp, .homing, .loop, .clu, .drv, .adm, .safe] P) (h0 : Keeps P s t) :
    Runs P s (execSs1Timeout a1 a2 t) := by
  unfold execSs1Timeout
  extract_lets -merge -useContext x1
  have h1 : Keeps P s x1 := (atTime_keeps (hP.of (by decide)) h0)
  clear_value x1
  exact (Runs.next (by
    split
    · exact (Keeps.ite (stoDecide_keeps (hP.of (by decide)) (rampSto_keeps (hP.of (by decide)) (safeFault_keeps (hP.of (by decide)) h1))) h1)
    · exact h1))

theorem execSfHelmWd_keeps {a1} (hP : Within [.now, .regs, .pts, .queues, .q0pend, .helm, .mot, .ax, .gear, .igrp, .homing, .loop, .clu, .drv, .adm, .safe] P) (h0 : Keeps P s t) :
    Runs P s (execSfHelmWd a1 t) := by
  unfold execSfHelmWd
  extract_lets -merge -useContext x1
  have h1 : Keeps P s x1 := (atTime_keeps (hP.of (by decide)) h0)
  clear_value x1
  exact (Runs.next (Keeps.ite (stoDecide_keeps (hP.of (by decide)) (helmWd_keeps (hP.of (by decide)) h1)) h1))

theorem execSfClock_keeps {a1 a2 a3 a4} (hP : Within [.now, .regs, .pts, .queues, .q0pend, .helm, .mot, .ax, .gear, .igrp, .homing, .loop, .clu, .drv, .adm, .safe] P) (h0 : Keeps P s t) :
    Runs P s (execSfClock a1 a2 a3 a4 t) := by
  unfold execSfClock
  extract_lets -merge -useContext x1
  have h1 : Keeps P s x1 := (atTime_keeps (hP.of (by decide)) h0)
  clear_value x1
  exact (Runs.next (Keeps.ite (stoDecide_keeps (hP.of (by decide)) (safeCheck_keeps (hP.of (by decide)) h1)) h1))

theorem execSafetyMemoryTest_keeps {a1 a2 a3} (hP : Within [.now, .regs, .pts, .queues, .q0pend, .helm, .mot, .ax, .gear, .igrp, .homing, .loop, .clu, .drv, .adm, .safe] P) (h0 : Keeps P s t) :
    Runs P s (execSafetyMemoryTest a1 a2 a3 t) := by
  unfold execSafetyMemoryTest
  extract_lets -merge -useContext x1
  have h1 : Keeps P s x1 := (atTime_keeps (hP.of (by decide)) h0)
  clear_value x1
  exact (Runs.next (Keeps.ite h1 (stoDecide_keeps (hP.of (by decide)) (safeCheck_keeps (hP.of (by decide)) h1))))

theorem paramCheck_keeps {a1} (hP : Within [.regs, .pts, .queues, .q0pend, .helm, .mot, .ax, .gear, .igrp, .homing, .loop, .clu, .drv, .adm, .safe] P) (h0 : Keeps P s t) :
    Keeps P s (paramCheck a1 t) := by
  unfold paramCheck
  exact (Keeps.ite (stoDecide_keeps (hP.of (by decide)) (safeCheck_keeps (hP.of (by decide)) h0)) h0)

theorem execSafetyParamCrc_keeps {a1 a2 a3} (hP : Within [.now, .regs, .pts, .queues, .q0pend, .helm, .mot, .ax, .gear, .igrp, .homing, .loop, .clu, .drv, .adm, .safe] P) (h0 : Keeps P s t) :
    Runs P s (execSafetyParamCrc a1 a2 a3 t) := by
  unfold execSafetyParamCrc
  extract_lets -merge -useContext x1
  have h1 : Keeps P s x1 := (atTime_keeps (hP.of (by decide)) h0)
  clear_value x1
  exact (Runs.next (paramCheck_keeps (hP.of (by decide)) (bw_keeps (hP.of (by decide)) h1)))

theorem execSfStoFb_keeps {a1 a2 a3} (hP : Within [.now, .regs, .pts, .queues, .q0pend, .helm, .mot, .ax, .gear, .igrp, .homing, .loop, .clu, .drv, .adm, .safe] P) (h0 : Keeps P s t) :
    Runs P s (execSfStoFb a1 a2 a3 t) := by
  unfold execSfStoFb
  extract_lets -merge -useContext x1
  have h1 : Keeps P s x1 := (atTime_keeps (hP.of (by decide)) h0)
  clear_value x1
  exact (Runs.next (Keeps.ite (stoDecide_keeps (hP.of (by decide)) (stoFb_keeps (hP.of (by decide)) (sstat_keeps (hP.of (by decide)) h1))) h1))

theorem execSfDenFb_keeps {a1 a2} (hP : Within [.now, .regs, .pts, .queues, .q0pend, .helm, .mot, .ax, .gear, .igrp, .homing, .loop, .clu, .drv, .adm, .safe] P) (h0 : Keeps P s t) :
    Runs P s (execSfDenFb a1 a2 t) := by
  unfold execSfDenFb
  extract_lets -merge -useContext x1
  have h1 : Keeps P s x1 := (atTime_keeps (hP.of (by decide)) h0)
  clear_value x1
  exact (Runs.next (Keeps.ite (stoDecide_keeps (hP.of (by decide)) (denFb_keeps (hP.of (by decide)) (sstat_keeps (hP.of (by decide)) h1))) h1))

theorem execSbcDelayExpiry_keeps {a1 a2} (hP : Within [.now, .regs, .safe] P) (h0 : Keeps P s t) :
    Runs P s (execSbcDelayExpiry a1 a2 t) := by
  unfold execSbcDelayExpiry
  exact (Runs.next (sbcDelay_keeps (hP.of (by decide)) (atTime_keeps (hP.of (by decide)) h0)))

theorem execSbcFeedback_keeps {a1 a2} (hP : Within [.now, .regs, .pts, .queues, .q0pend, .helm, .mot, .ax, .gear, .igrp, .homing, .loop, .clu, .drv, .adm, .safe] P) (h0 : Keeps P s t) :
    Runs P s (execSbcFeedback a1 a2 t) := by
  unfold execSbcFeedback
  extract_lets -merge -useContext x1
  have h1 : Keeps P s x1 := (atTime_keeps (hP.of (by decide)) h0)
  clear_value x1
  exact (Runs.next (Keeps.ite (sbcStep_keeps (hP.of (by decide)) (stoDecide_keeps (hP.of (by decide)) (sbcFb_keeps (hP.of (by decide)) h1))) h1))

theorem execSafetyReset_keeps {a1} (hP : Within [.now, .regs, .pts, .queues, .q0pend, .helm, .mot, .ax, .gear, .igrp, .homing, .loop, .clu, .drv, .adm, .safe] P) (h0 : Keeps P s t) :
    Runs P s (execSafetyReset a1 t) := by
  unfold execSafetyReset
  exact (Runs.next (resetDecide_keeps (hP.of (by decide)) (atTime_keeps (hP.of (by decide)) h0)))

theorem execStotest_keeps {a1 a2} (hP : Within [.now, .regs, .pts, .queues, .q0pend, .helm, .mot, .ax, .gear, .igrp, .homing, .loop, .clu, .drv, .adm, .safe] P) (h0 : Keeps P s t) :
    Runs P s (execStotest a1 a2 t) := by
  unfold execStotest
  exact (Runs.next (stoTest_keeps (hP.of (by decide)) (atTime_keeps (hP.of (by decide)) h0)))

theorem execStoTestEnd_keeps {a1} (hP : Within [.now, .regs, .pts, .queues, .q0pend, .helm, .mot, .ax, .gear, .igrp, .homing, .loop, .clu, .drv, .adm, .safe] P) (h0 : Keeps P s t) :
    Runs P s (execStoTestEnd a1 t) := by
  unfold execStoTestEnd
  extract_lets -merge -useContext x1
  have h1 : Keeps P s x1 := (atTime_keeps (hP.of (by decide)) h0)
  clear_value x1
  exact (Runs.next (Keeps.ite h1 (testOver_keeps (hP.of (by decide)) h1)))

theorem execStoTestDue_keeps {a1 a2} (hP : Within [.now, .regs, .pts, .queues, .q0pend, .helm, .ax, .clu, .safe] P) (h0 : Keeps P s t) :
    Runs P s (execStoTestDue a1 a2 t) := by
  unfold execStoTestDue
  extract_lets -merge -useContext x1
  have h1 : Keeps P s x1 := (atTime_keeps (hP.of (by decide)) h0)
  clear_value x1
  exact (Runs.next (Keeps.ite (dueCheck_keeps (hP.of (by decide)) h1) h1))

theorem execSafeEditWrite_keeps {a1 a2 a3} (hP : Within [.now, .regs, .pts, .queues, .q0pend, .helm, .fresh, .ax, .clu, .safe] P) (h0 : Keeps P s t) :
    Runs P s (execSafeEditWrite a1 a2 a3 t) := by
  unfold execSafeEditWrite
  exact (Runs.next (editWrite_keeps (hP.of (by decide)) (atTime_keeps (hP.of (by decide)) h0)))

theorem execSafeEditConfirm_keeps {a1 a2 a3} (hP : Within [.now, .regs, .pts, .queues, .q0pend, .helm, .ax, .clu, .safe] P) (h0 : Keeps P s t) :
    Runs P s (execSafeEditConfirm a1 a2 a3 t) := by
  unfold execSafeEditConfirm
  exact (Runs.next (editConfirm_keeps (hP.of (by decide)) (atTime_keeps (hP.of (by decide)) h0)))

theorem recordWritten_keeps {a1 a2} (hP : Within [.regs, .pts, .queues, .q0pend, .helm, .ax, .clu, .safe] P) (h0 : Keeps P s t) :
    Keeps P s (recordWritten a1 a2 t) := by
  unfold recordWritten
  extract_lets -merge -useContext x1 x2 x3 x4
  have h4 : Keeps P s x4 := (modSafe_keeps (hP.of (by decide)) h0)
  clear_value x4
  exact (Keeps.ite h0 (Keeps.ite (bw_keeps (hP.of (by decide)) h4) (ev_keeps (hP.of (by decide)) (editRes_keeps (hP.of (by decide)) (modSafe_keeps (hP.of (by decide)) h0)))))

theorem execSafeRecordWritten_keeps {a1 a2 a3} (hP : Within [.now, .regs, .pts, .queues, .q0pend, .helm, .ax, .clu, .safe] P) (h0 : Keeps P s t) :
    Runs P s (execSafeRecordWritten a1 a2 a3 t) := by
  unfold execSafeRecordWritten
  exact (Runs.next (recordWritten_keeps (hP.of (by decide)) (atTime_keeps (hP.of (by decide)) h0)))

end Sys2Proof.Machine
end

