-- ==== Sys2Proof/Laws/KeepsHalt.lean ====
section
/-!
SUPPORT. What the operations of Machine/Halt.lean may touch, and that they keep the canonical form: one lemma per operation.
-/
namespace Sys2Proof.Machine

variable {P : List Part} {s t : State}

theorem modHelm_keeps {a1} (hP : Within [.helm] P) (h0 : Keeps P s t) :
    Keeps P s (modHelm a1 t) := by
  unfold modHelm
  exact (Keeps.upd h0 (by intro p hp; cases p <;> first | exact absurd (hP _ (by decide)) hp | rfl) ⟨rfl, rfl, rfl, rfl⟩)

theorem busyUpd_keeps (hP : Within [.regs] P) (h0 : Keeps P s t) :
    Keeps P s (busyUpd t) := by
  unfold busyUpd
  exact (bwBit_keeps (hP.of (by decide)) h0)

theorem modBoot_keeps {a1} (hP : Within [.boot] P) (h0 : Keeps P s t) :
    Keeps P s (modBoot a1 t) := by
  unfold modBoot
  exact (Keeps.upd h0 (by intro p hp; cases p <;> first | exact absurd (hP _ (by decide)) hp | rfl) ⟨rfl, rfl, rfl, rfl⟩)

theorem addJob_keeps {a1} (hP : Within [.regs, .boot] P) (h0 : Keeps P s t) :
    Keeps P s (addJob a1 t) := by
  unfold addJob
  exact (busyUpd_keeps (hP.of (by decide)) (modBoot_keeps (hP.of (by decide)) h0))

theorem pmStart_keeps {a1 a2 a3 a4} (hP : Within [.regs, .helm, .boot] P) (h0 : Keeps P s t) :
    Keeps P s (pmStart a1 a2 a3 a4 t) := by
  unfold pmStart
  extract_lets -merge -useContext x1 x2
  have h1 : Keeps P s x1 := (modHelm_keeps (hP.of (by decide)) h0)
  clear_value x1
  have h2 : Keeps P s x2 := (addJob_keeps (hP.of (by decide)) (modHelm_keeps (hP.of (by decide)) h1))
  clear_value x2
  exact (Keeps.ite h1 (Keeps.ite (modHelm_keeps (hP.of (by decide)) h2) (modHelm_keeps (hP.of (by decide)) h1)))

theorem closeUpd_keeps (hP : Within [.regs, .boot] P) (h0 : Keeps P s t) :
    Keeps P s (closeUpd t) := by
  unfold closeUpd
  exact (bwBit_keeps (hP.of (by decide)) (busyUpd_keeps (hP.of (by decide)) (modBoot_keeps (hP.of (by decide)) h0)))

theorem haltEntry_keeps {a1 a2} (hP : Within [.regs, .pts, .queues, .q0pend, .helm, .mot, .ax, .gear, .igrp, .homing, .loop, .clu, .drv, .adm, .pwr, .safe, .boot] P) (h0 : Keeps P s t) :
    Keeps P s (haltEntry a1 a2 t) := by
  unfold haltEntry
  extract_lets -merge -useContext x1 x2 x3 x4 x5 x6 x7 x8 x9 x10
  have h2 : Keeps P s x2 := (forEach_keeps (fun _ _ h11 => (iw_keeps (hP.of (by decide)) h11)) (bw_keeps (hP.of (by decide)) h0))
  clear_value x2
  have h3 : Keeps P s x3 := (modSafe_keeps (hP.of (by decide)) h2)
  clear_value x3
  have h4 : Keeps P s x4 := (modHelm_keeps (hP.of (by decide)) h3)
  clear_value x4
  have h5 : Keeps P s x5 := (bwBit_keeps (hP.of (by decide)) h4)
  clear_value x5
  have h7 : Keeps P s x7 := (Keeps.upd h5 (by intro p hp; cases p <;> first | exact absurd (hP _ (by decide)) hp | rfl) ⟨rfl, rfl, rfl, rfl⟩)
  clear_value x7
  have h8 : Keeps P s x8 := (stoDecide_keeps (hP.of (by decide)) h7)
  clear_value x8
  have h9 : Keeps P s x9 := (rbHalt_keeps (hP.of (by decide)) (sumUpd_keeps (hP.of (by decide)) (faultnUpd_keeps (hP.of (by decide)) (setMode_keeps (hP.of (by decide)) h8))))
  clear_value x9
  have h10 : Keeps P s x10 := (pmStart_keeps (hP.of (by decide)) h9)
  clear_value x10
  exact (Keeps.ite h0 (Keeps.ite h10 (closeUpd_keeps (hP.of (by decide)) h10)))

end Sys2Proof.Machine
end

