-- ==== Sys2Proof/Laws/KeepsProt.lean ====
section
/-!
SUPPORT. What the operations of Machine/Prot.lean may touch, and that they keep the canonical form: one lemma per operation.
-/
namespace Sys2Proof.Machine

variable {P : List Part} {s t : State}

theorem decodeErr_keeps {a1 a2 a3} (hP : Within [.regs, .pts, .queues, .q0pend, .helm, .ax, .clu] P) (h0 : Keeps P s t) :
    Keeps P s (decodeErr a1 a2 a3 t) := by
  unfold decodeErr
  extract_lets -merge -useContext x1 x2 x3 x4
  have h2 : Keeps P s x2 := (bw_keeps (hP.of (by decide)) h0)
  clear_value x2
  have h3 : Keeps P s x3 := (evOnce_keeps (hP.of (by decide)) h2)
  clear_value x3
  exact (Keeps.ite (evOnce_keeps (hP.of (by decide)) (sw_keeps (hP.of (by decide)) h3)) h3)

theorem raiseFrozen_keeps {a1 a2} (hP : Within [.regs, .pts, .queues, .q0pend, .helm, .ax, .clu] P) (h0 : Keeps P s t) :
    Keeps P s (raiseFrozen a1 a2 t) := by
  unfold raiseFrozen
  split
  · extract_lets -merge -useContext x1 x2 x3 x4
    have h2 : Keeps P s x2 := (modHelm_keeps (hP.of (by decide)) h0)
    clear_value x2
    have h3 : Keeps P s x3 := (Keeps.upd h2 (by intro p hp; cases p <;> first | exact absurd (hP _ (by decide)) hp | rfl) ⟨rfl, rfl, rfl, rfl⟩)
    clear_value x3
    have h4 : Keeps P s x4 := (Keeps.ite h0 (firstPut_keeps (hP.of (by decide)) h3))
    clear_value x4
    exact (sumUpd_keeps (hP.of (by decide)) (faultnUpd_keeps (hP.of (by decide)) (toQueue0_keeps (hP.of (by decide)) (logRec_keeps (hP.of (by decide)) h4))))

theorem freezeEffect_keeps {a1} (hP : Within [.regs, .pts, .helm, .clu, .drv, .safe, .boot] P) (h0 : Keeps P s t) :
    Keeps P s (freezeEffect a1 t) := by
  unfold freezeEffect
  extract_lets -merge -useContext x1 x2
  have h2 : Keeps P s x2 := (setPt_keeps (hP.of (by decide)) (rbHalt_keeps (hP.of (by decide)) (setMode_keeps (hP.of (by decide)) h0)))
  clear_value x2
  exact (Keeps.ite (Keeps.ite h2 (pmStart_keeps (hP.of (by decide)) h2)) (Keeps.ite (modClu_keeps (hP.of (by decide)) h0) (Keeps.ite (closeUpd_keeps (hP.of (by decide)) (modSafe_keeps (hP.of (by decide)) (modBoot_keeps (hP.of (by decide)) h0))) h0)))

theorem queCommit_keeps {a1} (hP : Within [.regs, .pts, .queues, .q0pend, .helm, .ax, .clu] P) (h0 : Keeps P s t) :
    Keeps P s (queCommit a1 t) := by
  unfold queCommit
  extract_lets -merge -useContext x1
  have h1 : Keeps P s x1 := (Keeps.ite (bwBit_keeps (hP.of (by decide)) h0) (bwBit_keeps (hP.of (by decide)) h0))
  clear_value x1
  exact (Keeps.ite (by
    split
    · exact (ev_keeps (hP.of (by decide)) h1)
    · exact (copySet_keeps (hP.of (by decide)) h1)) h0)

theorem dropOpens_keeps {a1} (hP : Within [.regs, .pts, .queues, .q0pend, .helm, .ax, .clu] P) (h0 : Keeps P s t) :
    Keeps P s (dropOpens a1 t) := by
  unfold dropOpens
  exact (forEach_keeps (fun _ _ h1 => (by
    extract_lets -merge -useContext x2 x3
    have h3 : Keeps P s x3 := (setQ_keeps (hP.of (by decide)) h1)
    clear_value x3
    split
    · exact h1
    · exact (queCommit_keeps (hP.of (by decide)) (ev_keeps (hP.of (by decide)) (iwSat_keeps (hP.of (by decide)) h3))))) h0)

theorem freezeMaster_keeps {a1 a2 a3 a4 a5} (hP : Within [.regs, .pts, .held, .queues, .q0pend, .helm, .ax, .clu, .drv, .safe, .boot] P) (h0 : Keeps P s t) :
    Keeps P s (freezeMaster a1 a2 a3 a4 a5 t) := by
  unfold freezeMaster
  extract_lets -merge -useContext x1 x2 x3 x4 x5 x6 x7
  have h2 : Keeps P s x2 := (iw_keeps (hP.of (by decide)) (iw_keeps (hP.of (by decide)) h0))
  clear_value x2
  have h3 : Keeps P s x3 := (bwBit_keeps (hP.of (by decide)) (iw64_keeps (hP.of (by decide)) h2))
  clear_value x3
  have h4 : Keeps P s x4 := (bwBit_keeps (hP.of (by decide)) h3)
  clear_value x4
  have h5 : Keeps P s x5 := (Keeps.ite (setPt_keeps (hP.of (by decide)) h4) h4)
  clear_value x5
  have h6 : Keeps P s x6 := (Keeps.upd h5 (by intro p hp; cases p <;> first | exact absurd (hP _ (by decide)) hp | rfl) ⟨rfl, rfl, rfl, rfl⟩)
  clear_value x6
  have h7 : Keeps P s x7 := (modHelm_keeps (hP.of (by decide)) h6)
  clear_value x7
  exact (raiseFrozen_keeps (hP.of (by decide)) (freezeEffect_keeps (hP.of (by decide)) (dropOpens_keeps (hP.of (by decide)) h7)))

theorem access_keeps {a1 a2 a3 a4 a5} (hP : Within [.regs, .pts, .held, .queues, .q0pend, .helm, .ax, .clu, .drv, .safe, .boot] P) (h0 : Keeps P s t) :
    Keeps P s (access a1 a2 a3 a4 a5 t).2 := by
  unfold access
  exact (Keeps.ite2 (Keeps.snd h0) (Keeps.ite2 (Keeps.snd (decodeErr_keeps (hP.of (by decide)) h0)) (Keeps.ite2 (Keeps.snd (freezeMaster_keeps (hP.of (by decide)) h0)) (Keeps.ite2 (Keeps.snd (decodeErr_keeps (hP.of (by decide)) h0)) (Keeps.snd h0)))))

theorem thawMaster_keeps {a1} (hP : Within [.regs, .pts, .stalls, .helm, .clu] P) (h0 : Keeps P s t) :
    Keeps P s (thawMaster a1 t) := by
  unfold thawMaster
  extract_lets -merge -useContext x1 x2 x3 x4 x5
  have h1 : Keeps P s x1 := (bwBit_keeps (hP.of (by decide)) (bwBit_keeps (hP.of (by decide)) h0))
  clear_value x1
  have h2 : Keeps P s x2 := (setPt_keeps (hP.of (by decide)) h1)
  clear_value x2
  have h3 : Keeps P s x3 := (bwBit_keeps (hP.of (by decide)) (iw64_keeps (hP.of (by decide)) (iw_keeps (hP.of (by decide)) (iw_keeps (hP.of (by decide)) h2))))
  clear_value x3
  have h4 : Keeps P s x4 := (Keeps.upd h3 (by intro p hp; cases p <;> first | exact absurd (hP _ (by decide)) hp | rfl) ⟨rfl, rfl, rfl, rfl⟩)
  clear_value x4
  have h5 : Keeps P s x5 := (modHelm_keeps (hP.of (by decide)) h4)
  clear_value x5
  exact (Keeps.ite (cluRestart_keeps (hP.of (by decide)) h5) h5)

theorem setBad_keeps {a1 a2} (hP : Within [.bad] P) (h0 : Keeps P s t) :
    Keeps P s (setBad a1 a2 t) := by
  unfold setBad
  exact (Keeps.upd h0 (by intro p hp; cases p <;> first | exact absurd (hP _ (by decide)) hp | rfl) ⟨rfl, rfl, rfl, rfl⟩)

theorem corrErr_keeps {a1} (hP : Within [.regs, .pts, .bad, .queues, .q0pend, .helm, .ax, .clu] P) (h0 : Keeps P s t) :
    Keeps P s (corrErr a1 t) := by
  unfold corrErr
  extract_lets -merge -useContext x1 x2 x3
  have h2 : Keeps P s x2 := (bwSat_keeps (hP.of (by decide)) h0)
  clear_value x2
  have h3 : Keeps P s x3 := (modHelm_keeps (hP.of (by decide)) h2)
  clear_value x3
  exact (evOnce_keeps (hP.of (by decide)) (setBad_keeps (hP.of (by decide)) h3))

theorem zeroWord_keeps {a1} (hP : Within [.pts, .attrs, .mem] P) (h0 : Keeps P s t) :
    Keeps P s (zeroWord a1 t) := by
  unfold zeroWord
  exact (Keeps.ite (Keeps.ite (setPt_keeps (hP.of (by decide)) h0) (setAttr_keeps (hP.of (by decide)) h0)) (writeWord_keeps (hP.of (by decide)) h0))

theorem uncErr_keeps {a1 a2} (hP : Within [.regs, .pts, .attrs, .mem, .bad, .queues, .q0pend, .helm, .ax, .clu] P) (h0 : Keeps P s t) :
    Keeps P s (uncErr a1 a2 t) := by
  unfold uncErr
  extract_lets -merge -useContext x1 x2
  have h2 : Keeps P s x2 := (bw_keeps (hP.of (by decide)) (bwSat_keeps (hP.of (by decide)) h0))
  clear_value x2
  split
  · extract_lets -merge -useContext x3 x4
    have h3 : Keeps P s x3 := (Keeps.ite (setBad_keeps (hP.of (by decide)) (zeroWord_keeps (hP.of (by decide)) h2)) (setBad_keeps (hP.of (by decide)) h2))
    clear_value x3
    have h4 : Keeps P s x4 := (Keeps.ite (bwSat_keeps (hP.of (by decide)) h3) h3)
    clear_value x4
    split
    rename_i x5 e5
    have h5 : Keeps P s x5 := Keeps.ofEq e5 (Keeps.ite2 (Keeps.snd h4) (onceSec_keeps (hP.of (by decide)) h4))
    exact (Keeps.ite h5 (Keeps.ite (ev_keeps (hP.of (by decide)) h5) (raiseDev_keeps (hP.of (by decide)) h5)))

theorem eccRead_keeps {a1 a2 a3} (hP : Within [.regs, .pts, .attrs, .mem, .bad, .queues, .q0pend, .helm, .ax, .clu] P) (h0 : Keeps P s t) :
    Keeps P s (eccRead a1 a2 a3 t).2 := by
  unfold eccRead
  extract_lets -merge -useContext x1
  exact (Keeps.ite2 (Keeps.snd h0) (Keeps.ite2 (Keeps.snd (corrErr_keeps (hP.of (by decide)) h0)) (Keeps.snd (uncErr_keeps (hP.of (by decide)) h0))))

theorem protLock_keeps {a1} (hP : Within [.regs] P) (h0 : Keeps P s t) :
    Keeps P s (protLock a1 t) := by
  unfold protLock
  exact (Keeps.ite (bwBit_keeps (hP.of (by decide)) (bwBit_keeps (hP.of (by decide)) h0)) h0)

theorem execProtLock_keeps {a1 a2 a3} (hP : Within [.now, .regs, .pts, .held, .queues, .q0pend, .helm, .ax, .clu, .drv, .safe, .boot] P) (h0 : Keeps P s t) :
    Runs P s (execProtLock a1 a2 a3 t) := by
  unfold execProtLock
  split
  rename_i x1 e1
  have h1 : Keeps P s x1 := Keeps.ofEq e1 (access_keeps (hP.of (by decide)) (atTime_keeps (hP.of (by decide)) h0))
  exact (Runs.next (Keeps.ite (protLock_keeps (hP.of (by decide)) h1) h1))

theorem scrub_keeps {a1 a2} (hP : Within [.regs, .pts, .attrs, .mem, .bad, .queues, .q0pend, .helm, .ax, .clu] P) (h0 : Keeps P s t) :
    Keeps P s (scrub a1 a2 t) := by
  unfold scrub
  extract_lets -merge -useContext x1
  exact (Keeps.ite h0 (by
    split
    rename_i x2 e2
    have h2 : Keeps P s x2 := Keeps.ofEq e2 (eccRead_keeps (hP.of (by decide)) h0)
    extract_lets -merge -useContext x3
    exact (Keeps.ite (bw_keeps (hP.of (by decide)) h2) h2)))

theorem execScrubRead_keeps {a1 a2 a3} (hP : Within [.now, .regs, .pts, .attrs, .mem, .bad, .queues, .q0pend, .helm, .ax, .clu] P) (h0 : Keeps P s t) :
    Runs P s (execScrubRead a1 a2 a3 t) := by
  unfold execScrubRead
  exact (Runs.next (scrub_keeps (hP.of (by decide)) (atTime_keeps (hP.of (by decide)) h0)))

theorem execEdramRefresh_keeps {a1 a2} (hP : Within [.now, .regs, .pts, .queues, .q0pend, .helm, .ax, .clu] P) (h0 : Keeps P s t) :
    Runs P s (execEdramRefresh a1 a2 t) := by
  unfold execEdramRefresh
  exact (Runs.next (raiseDev_keeps (hP.of (by decide)) (atTime_keeps (hP.of (by decide)) h0)))

end Sys2Proof.Machine
end

