-- ==== Sys2Proof/Laws/KeepsChart.lean ====
section
/-!
SUPPORT. What the operations of Machine/Chart.lean may touch, and that they keep the canonical form: one lemma per operation.
-/
namespace Sys2Proof.Machine

variable {P : List Part} {s t : State}

theorem refuseCmd_keeps {a1 a2} (hP : Within [.regs, .pts, .queues, .q0pend, .helm, .ax, .clu] P) (h0 : Keeps P s t) :
    Keeps P s (refuseCmd a1 a2 t) := by
  unfold refuseCmd
  extract_lets -merge -useContext x1 x2
  have h2 : Keeps P s x2 := (bw_keeps (hP.of (by decide)) h0)
  clear_value x2
  exact (evOnce_keeps (hP.of (by decide)) h2)

theorem refuseAttr_keeps {a1 a2} (hP : Within [.regs, .pts, .queues, .q0pend, .helm, .ax, .clu] P) (h0 : Keeps P s t) :
    Keeps P s (refuseAttr a1 a2 t) := by
  unfold refuseAttr
  extract_lets -merge -useContext x1 x2
  have h2 : Keeps P s x2 := (bw_keeps (hP.of (by decide)) h0)
  clear_value x2
  exact (evOnce_keeps (hP.of (by decide)) h2)

theorem ownerSeen_keeps {a1 a2 a3} (hP : Within [.helm] P) (h0 : Keeps P s t) :
    Keeps P s (ownerSeen a1 a2 a3 t) := by
  unfold ownerSeen
  exact (Keeps.ite (modHelm_keeps (hP.of (by decide)) h0) h0)

theorem admitPt_keeps {a1 a2 a3} (hP : Within [.regs, .pts, .queues, .q0pend, .helm, .ax, .clu] P) (h0 : Keeps P s t) :
    Keeps P s (admitPt a1 a2 a3 t).2 := by
  unfold admitPt
  extract_lets -merge -useContext x1
  exact (Keeps.ite2 (Keeps.snd (refuseCmd_keeps (hP.of (by decide)) h0)) (Keeps.ite2 (Keeps.snd (refuseAttr_keeps (hP.of (by decide)) h0)) (Keeps.snd (ownerSeen_keeps (hP.of (by decide)) h0))))

theorem modCan_keeps {a1 a2} (hP : Within [.can] P) (h0 : Keeps P s t) :
    Keeps P s (modCan a1 a2 t) := by
  unfold modCan
  exact (Keeps.upd h0 (by intro p hp; cases p <;> first | exact absurd (hP _ (by decide)) hp | rfl) ⟨rfl, rfl, rfl, rfl⟩)

theorem chartRead_keeps {a1 a2 a3} (hP : Within [.regs, .pts, .attrs, .snaps, .mem, .bad, .queues, .q0pend, .helm, .ax, .clu] P) (h0 : Keeps P s t) :
    Keeps P s (chartRead a1 a2 a3 t).2 := by
  unfold chartRead
  split
  rename_i x1 e1
  have h1 : Keeps P s x1 := Keeps.ofEq e1 (eccRead_keeps (hP.of (by decide)) h0)
  exact (Keeps.ite2 (Keeps.snd h1) (Keeps.ite2 (Keeps.snd h1) (Keeps.ite2 (Keeps.snd (Keeps.upd h1 (by intro p hp; cases p <;> first | exact absurd (hP _ (by decide)) hp | rfl) ⟨rfl, rfl, rfl, rfl⟩)) (by
    split
    · exact (Keeps.snd (Keeps.upd h1 (by intro p hp; cases p <;> first | exact absurd (hP _ (by decide)) hp | rfl) ⟨rfl, rfl, rfl, rfl⟩))
    · exact (Keeps.snd h1)))))

theorem dropHeld_keeps {a1} (hP : Within [.held] P) (h0 : Keeps P s t) :
    Keeps P s (dropHeld a1 t) := by
  unfold dropHeld
  exact (Keeps.upd h0 (by intro p hp; cases p <;> first | exact absurd (hP _ (by decide)) hp | rfl) ⟨rfl, rfl, rfl, rfl⟩)

theorem seqPend_keeps {a1} (hP : Within [.can] P) (h0 : Keeps P s t) :
    Keeps P s (seqPend a1 t) := by
  unfold seqPend
  extract_lets -merge -useContext x1
  exact (Keeps.ite h0 (forEach_keeps (fun _ _ h2 => (by
    extract_lets -merge -useContext x3
    exact (Keeps.ite h2 (modCan_keeps (hP.of (by decide)) h2)))) h0))

theorem storePt_keeps {a1 a2} (hP : Within [.pts, .attrs, .bad, .can] P) (h0 : Keeps P s t) :
    Keeps P s (storePt a1 a2 t) := by
  unfold storePt
  exact (seqPend_keeps (hP.of (by decide)) (setBad_keeps (hP.of (by decide)) (setAttr_keeps (hP.of (by decide)) (setPt_keeps (hP.of (by decide)) h0))))

theorem takePt_keeps {a1 a2 a3 a4} (hP : Within [.pts, .attrs, .held, .bad, .can] P) (h0 : Keeps P s t) :
    Keeps P s (takePt a1 a2 a3 a4 t) := by
  unfold takePt
  exact (Keeps.ite (Keeps.upd h0 (by intro p hp; cases p <;> first | exact absurd (hP _ (by decide)) hp | rfl) ⟨rfl, rfl, rfl, rfl⟩) (by
    split
    · exact (storePt_keeps (hP.of (by decide)) (storePt_keeps (hP.of (by decide)) h0))
    · exact (storePt_keeps (hP.of (by decide)) h0)))

theorem chartWrite_keeps {a1 a2 a3 a4 a5} (hP : Within [.regs, .pts, .attrs, .held, .bad, .queues, .q0pend, .helm, .ax, .clu, .drv, .safe, .can, .boot] P) (h0 : Keeps P s t) :
    Keeps P s (chartWrite a1 a2 a3 a4 a5 t) := by
  unfold chartWrite
  extract_lets -merge -useContext x1 x2
  clear_value x1
  have h2 : Keeps P s x2 := (dropHeld_keeps (hP.of (by decide)) h0)
  clear_value x2
  exact (Keeps.ite h0 (by
    split
    rename_i x3 e3
    have h3 : Keeps P s x3 := Keeps.ofEq e3 (by
      split
      · exact (Keeps.ite2 (Keeps.snd h2) (Keeps.snd (storePt_keeps (hP.of (by decide)) h2)))
      · exact (Keeps.snd h2))
    split
    rename_i x4 e4
    have h4 : Keeps P s x4 := Keeps.ofEq e4 (access_keeps (hP.of (by decide)) h3)
    exact (Keeps.ite h4 (by
      split
      rename_i x5 e5
      have h5 : Keeps P s x5 := Keeps.ofEq e5 (admitPt_keeps (hP.of (by decide)) h4)
      exact (Keeps.ite (takePt_keeps (hP.of (by decide)) h5) h5)))))

theorem execChartWrite_keeps {a1 a2 a3 a4 a5} (hP : Within [.now, .regs, .pts, .attrs, .held, .bad, .queues, .q0pend, .helm, .ax, .clu, .drv, .safe, .can, .boot] P) (h0 : Keeps P s t) :
    Runs P s (execChartWrite a1 a2 a3 a4 a5 t) := by
  unfold execChartWrite
  exact (Runs.next (chartWrite_keeps (hP.of (by decide)) (atTime_keeps (hP.of (by decide)) h0)))

theorem putData_keeps {a1 a2} (hP : Within [.busData] P) (h0 : Keeps P s t) :
    Keeps P s (putData a1 a2 t) := by
  unfold putData
  exact (Keeps.upd h0 (by intro p hp; cases p <;> first | exact absurd (hP _ (by decide)) hp | rfl) ⟨rfl, rfl, rfl, rfl⟩)

theorem execChartEvenRead_keeps {a1 a2 a3 a4} (hP : Within [.now, .regs, .pts, .attrs, .held, .snaps, .mem, .bad, .busData, .queues, .q0pend, .helm, .ax, .clu, .drv, .safe, .boot] P) (h0 : Keeps P s t) :
    Runs P s (execChartEvenRead a1 a2 a3 a4 t) := by
  unfold execChartEvenRead
  extract_lets -merge -useContext x1 x2
  have h2 : Keeps P s x2 := (atTime_keeps (hP.of (by decide)) h0)
  clear_value x2
  exact (Runs.ite (Runs.next h2) (by
    split
    rename_i x3 e3
    have h3 : Keeps P s x3 := Keeps.ofEq e3 (access_keeps (hP.of (by decide)) h2)
    split
    rename_i x4 e4
    have h4 : Keeps P s x4 := Keeps.ofEq e4 (Keeps.ite2 (chartRead_keeps (hP.of (by decide)) h3) (Keeps.snd h3))
    exact (Runs.next (putData_keeps (hP.of (by decide)) h4))))

end Sys2Proof.Machine
end

