-- ==== Sys2Proof/Laws/KeepsQue.lean ====
section
/-!
SUPPORT. What the operations of Machine/Que.lean may touch, and that they keep the canonical form: one lemma per operation.
-/
namespace Sys2Proof.Machine

variable {P : List Part} {s t : State}

theorem queUncorr_keeps {a1 a2} (hP : Within [.regs, .pts, .queues, .q0pend, .helm, .ax, .clu] P) (h0 : Keeps P s t) :
    Keeps P s (queUncorr a1 a2 t) := by
  unfold queUncorr
  extract_lets -merge -useContext x1
  have h1 : Keeps P s x1 := (Keeps.ite (bwBit_keeps (hP.of (by decide)) h0) (bwBit_keeps (hP.of (by decide)) h0))
  clear_value x1
  exact (Keeps.ite (raiseDev_keeps (hP.of (by decide)) h1) (ev_keeps (hP.of (by decide)) h1))

theorem badItem_keeps {a1 a2} (hP : Within [.regs, .pts, .queues, .q0pend, .helm, .ax, .clu] P) (h0 : Keeps P s t) :
    Keeps P s (badItem a1 a2 t).2 := by
  unfold badItem
  extract_lets -merge -useContext x1 x2 x3
  have h2 : Keeps P s x2 := (queUncorr_keeps (hP.of (by decide)) h0)
  clear_value x2
  exact (Keeps.ite2 (Keeps.snd (queCommit_keeps (hP.of (by decide)) (iwSat_keeps (hP.of (by decide)) (setQ_keeps (hP.of (by decide)) h2)))) (Keeps.snd (queCommit_keeps (hP.of (by decide)) (setQ_keeps (hP.of (by decide)) h2))))

theorem deliver_keeps {a1} (hP : Within [.regs, .pts, .queues, .q0pend, .helm, .ax, .clu] P) (h0 : Keeps P s t) :
    Keeps P s (deliver a1 t).2 := by
  unfold deliver
  extract_lets -merge -useContext x1
  split
  · exact (Keeps.snd h0)
  · exact (Keeps.ite2 (Keeps.snd h0) (Keeps.snd (queCommit_keeps (hP.of (by decide)) (setQ_keeps (hP.of (by decide)) h0))))

theorem queCorr_keeps {a1} (hP : Within [.regs, .pts, .queues, .q0pend, .helm, .ax, .clu] P) (h0 : Keeps P s t) :
    Keeps P s (queCorr a1 t) := by
  unfold queCorr
  exact (evOnce_keeps (hP.of (by decide)) (iwSat_keeps (hP.of (by decide)) h0))

theorem popItem_keeps {a1 a2} (hP : Within [.regs, .pts, .queues, .q0pend, .helm, .ax, .clu] P) (h0 : Keeps P s t) :
    Keeps P s (popItem a1 a2 t).2 := by
  unfold popItem
  extract_lets -merge -useContext x1
  exact (Keeps.ite2 (Keeps.snd h0) (Keeps.ite2 (Keeps.snd h0) (Keeps.ite2 (Keeps.snd h0) (Keeps.ite2 (by
    split
    · rename_i x2 e2
      have h2 : Keeps P s x2 := Keeps.ofEq e2 (badItem_keeps (hP.of (by decide)) h0)
      exact (Keeps.snd h2)
    · rename_i x3 e3
      have h3 : Keeps P s x3 := Keeps.ofEq e3 (badItem_keeps (hP.of (by decide)) h0)
      exact (Keeps.ite2 (Keeps.snd h3) (deliver_keeps (hP.of (by decide)) h3))) (deliver_keeps (hP.of (by decide)) (Keeps.ite (queCorr_keeps (hP.of (by decide)) h0) h0))))))

theorem refuseItem_keeps {a1 a2 a3} (hP : Within [.regs, .pts, .queues, .q0pend, .helm, .ax, .clu] P) (h0 : Keeps P s t) :
    Keeps P s (refuseItem a1 a2 a3 t) := by
  unfold refuseItem
  extract_lets -merge -useContext x1 x2 x3 x4
  have h1 : Keeps P s x1 := (iwSat_keeps (hP.of (by decide)) h0)
  clear_value x1
  have h3 : Keeps P s x3 := (Keeps.ite h1 (iwSat_keeps (hP.of (by decide)) (setQ_keeps (hP.of (by decide)) h1)))
  clear_value x3
  have h4 : Keeps P s x4 := (Keeps.ite (evOnce_keeps (hP.of (by decide)) h3) (evOnce_keeps (hP.of (by decide)) h3))
  clear_value x4
  exact (queCommit_keeps (hP.of (by decide)) h4)

theorem takeItem_keeps {a1 a2 a3 a4 a5} (hP : Within [.regs, .pts, .queues, .q0pend, .helm, .ax, .clu] P) (h0 : Keeps P s t) :
    Keeps P s (takeItem a1 a2 a3 a4 a5 t) := by
  unfold takeItem
  extract_lets -merge -useContext x1 x2 x3 x4 x5 x6 x7 x8
  have h7 : Keeps P s x7 := (setQ_keeps (hP.of (by decide)) h0)
  clear_value x7
  have h8 : Keeps P s x8 := (Keeps.ite (Keeps.ite (raiseQueue_keeps (hP.of (by decide)) h7) h7) (setQ_keeps (hP.of (by decide)) h0))
  clear_value x8
  exact (Keeps.ite (ev_keeps (hP.of (by decide)) h8) h8)

theorem pushItem_keeps {a1 a2 a3 a4 a5} (hP : Within [.regs, .pts, .queues, .q0pend, .helm, .ax, .clu] P) (h0 : Keeps P s t) :
    Keeps P s (pushItem a1 a2 a3 a4 a5 t) := by
  unfold pushItem
  extract_lets -merge -useContext x1
  exact (Keeps.ite (refuseItem_keeps (hP.of (by decide)) h0) (Keeps.ite (refuseItem_keeps (hP.of (by decide)) h0) (Keeps.ite (refuseItem_keeps (hP.of (by decide)) h0) (takeItem_keeps (hP.of (by decide)) h0))))

theorem putSide_keeps {a1 a2 a3} (hP : Within [.sides] P) (h0 : Keeps P s t) :
    Keeps P s (putSide a1 a2 a3 t) := by
  unfold putSide
  exact (Keeps.upd h0 (by intro p hp; cases p <;> first | exact absurd (hP _ (by decide)) hp | rfl) ⟨rfl, rfl, rfl, rfl⟩)

theorem popDone_keeps {a1 a2 a3 a4} (hP : Within [.busData, .sides] P) (h0 : Keeps P s t) :
    Keeps P s (popDone a1 a2 a3 a4 t) := by
  unfold popDone
  exact (putData_keeps (hP.of (by decide)) (putSide_keeps (hP.of (by decide)) h0))

theorem execQuePush_keeps {a1 a2 a3 a4 a5 a6} (hP : Within [.now, .regs, .pts, .held, .queues, .q0pend, .helm, .ax, .clu, .drv, .safe, .boot] P) (h0 : Keeps P s t) :
    Runs P s (execQuePush a1 a2 a3 a4 a5 a6 t) := by
  unfold execQuePush
  extract_lets -merge -useContext x1
  split
  rename_i x2 e2
  have h2 : Keeps P s x2 := Keeps.ofEq e2 (access_keeps (hP.of (by decide)) (atTime_keeps (hP.of (by decide)) h0))
  exact (Runs.next (Keeps.ite (pushItem_keeps (hP.of (by decide)) h2) h2))

theorem pop_keeps {a1 a2 a3} (hP : Within [.regs, .pts, .busData, .queues, .sides, .stalls, .q0pend, .helm, .ax, .clu] P) (h0 : Keeps P s t) :
    Keeps P s (pop a1 a2 a3 t) := by
  unfold pop
  split
  · rename_i x1 e1
    have h1 : Keeps P s x1 := Keeps.ofEq e1 (popItem_keeps (hP.of (by decide)) h0)
    exact (popDone_keeps (hP.of (by decide)) h1)
  · rename_i x2 e2
    have h2 : Keeps P s x2 := Keeps.ofEq e2 (popItem_keeps (hP.of (by decide)) h0)
    exact (Keeps.upd h2 (by intro p hp; cases p <;> first | exact absurd (hP _ (by decide)) hp | rfl) ⟨rfl, rfl, rfl, rfl⟩)

theorem execQuePop_keeps {a1 a2 a3 a4} (hP : Within [.now, .regs, .pts, .held, .busData, .queues, .sides, .stalls, .q0pend, .helm, .ax, .clu, .drv, .safe, .boot] P) (h0 : Keeps P s t) :
    Runs P s (execQuePop a1 a2 a3 a4 t) := by
  unfold execQuePop
  extract_lets -merge -useContext x1
  split
  rename_i x2 e2
  have h2 : Keeps P s x2 := Keeps.ofEq e2 (access_keeps (hP.of (by decide)) (atTime_keeps (hP.of (by decide)) h0))
  exact (Runs.next (Keeps.ite (pop_keeps (hP.of (by decide)) h2) h2))

theorem readComplete_keeps {a1 a2} (hP : Within [.regs, .pts, .busData, .queues, .sides, .stalls, .q0pend, .helm, .ax, .clu] P) (h0 : Keeps P s t) :
    Keeps P s (readComplete a1 a2 t) := by
  unfold readComplete
  split
  · exact h0
  · exact (Keeps.ite h0 (by
      split
      · rename_i x1 e1
        have h1 : Keeps P s x1 := Keeps.ofEq e1 (popItem_keeps (hP.of (by decide)) h0)
        exact (popDone_keeps (hP.of (by decide)) (Keeps.upd h1 (by intro p hp; cases p <;> first | exact absurd (hP _ (by decide)) hp | rfl) ⟨rfl, rfl, rfl, rfl⟩))
      · rename_i x2 e2
        have h2 : Keeps P s x2 := Keeps.ofEq e2 (popItem_keeps (hP.of (by decide)) h0)
        exact h2))

theorem execQueReadComplete_keeps {a1 a2 a3} (hP : Within [.now, .regs, .pts, .busData, .queues, .sides, .stalls, .q0pend, .helm, .ax, .clu] P) (h0 : Keeps P s t) :
    Runs P s (execQueReadComplete a1 a2 a3 t) := by
  unfold execQueReadComplete
  exact (Runs.next (readComplete_keeps (hP.of (by decide)) (atTime_keeps (hP.of (by decide)) h0)))

theorem execQueSpill_keeps {a1 a2 a3} (hP : Within [.now, .queues] P) (h0 : Keeps P s t) :
    Runs P s (execQueSpill a1 a2 a3 t) := by
  unfold execQueSpill
  extract_lets -merge -useContext x1 x2
  have h1 : Keeps P s x1 := (atTime_keeps (hP.of (by decide)) h0)
  clear_value x1
  exact (Runs.next (Keeps.ite (setQ_keeps (hP.of (by decide)) h1) h1))

theorem queRefill_keeps {a1 a2} (hP : Within [.regs, .pts, .queues, .q0pend, .helm, .ax, .clu] P) (h0 : Keeps P s t) :
    Keeps P s (queRefill a1 a2 t) := by
  unfold queRefill
  extract_lets -merge -useContext x1 x2 x3
  have h3 : Keeps P s x3 := (Keeps.ite (queCorr_keeps (hP.of (by decide)) h0) h0)
  clear_value x3
  exact (Keeps.ite (Keeps.ite (Keeps.ite (badItem_keeps (hP.of (by decide)) h0) (setQ_keeps (hP.of (by decide)) (queUncorr_keeps (hP.of (by decide)) h0))) (setQ_keeps (hP.of (by decide)) h3)) h0)

theorem execQueRefill_keeps {a1 a2 a3} (hP : Within [.now, .regs, .pts, .queues, .q0pend, .helm, .ax, .clu] P) (h0 : Keeps P s t) :
    Runs P s (execQueRefill a1 a2 a3 t) := by
  unfold execQueRefill
  exact (Runs.next (queRefill_keeps (hP.of (by decide)) (atTime_keeps (hP.of (by decide)) h0)))

end Sys2Proof.Machine
end

