-- ==== Sys2Proof/Laws/KeepsUpdate.lean ====
section
/-!
SUPPORT. What the operations of Machine/Update.lean may touch, and that they keep the canonical form: one lemma per operation.
-/
namespace Sys2Proof.Machine

variable {P : List Part} {s t : State}

theorem updSeen_keeps (hP : Within [.boot] P) (h0 : Keeps P s t) :
    Keeps P s (updSeen t) := by
  unfold updSeen
  exact (modBoot_keeps (hP.of (by decide)) h0)

theorem pushWhole_keeps {q m p} (hP : Within [.regs, .pts, .queues, .q0pend, .helm, .ax, .clu] P) : ∀ {l : List Word} {t : State}, Keeps P s t → Keeps P s (pushWhole q m p l t)
  | [], _, h => h
  | [_], _, h => pushItem_keeps (hP.of (by decide)) h
  | _ :: _ :: _, _, h => by
    unfold pushWhole; exact
    Keeps.ite (pushWhole_keeps hP (pushItem_keeps (hP.of (by decide)) h)) (refuseItem_keeps (hP.of (by decide)) h)

theorem updAnswer_keeps {a1 a2 a3} (hP : Within [.regs, .pts, .queues, .q0pend, .helm, .ax, .clu, .boot] P) (h0 : Keeps P s t) :
    Keeps P s (updAnswer a1 a2 a3 t) := by
  unfold updAnswer
  extract_lets -merge -useContext x1 x2 x3
  have h2 : Keeps P s x2 := (bw_keeps (hP.of (by decide)) h0)
  clear_value x2
  have h3 : Keeps P s x3 := (modBoot_keeps (hP.of (by decide)) h2)
  clear_value x3
  exact (Keeps.ite h3 (Keeps.ite (pushWhole_keeps (hP.of (by decide)) h3) (pushWhole_keeps (hP.of (by decide)) h3)))

theorem updRepeat_keeps {a1 a2} (hP : Within [.regs, .pts, .queues, .q0pend, .helm, .ax, .clu, .boot] P) (h0 : Keeps P s t) :
    Keeps P s (updRepeat a1 a2 t) := by
  unfold updRepeat
  extract_lets -merge -useContext x1
  exact (Keeps.ite h0 (Keeps.ite (updAnswer_keeps (hP.of (by decide)) h0) (updAnswer_keeps (hP.of (by decide)) h0)))

theorem updRefuse_keeps {a1 a2 a3} (hP : Within [.regs, .pts, .queues, .q0pend, .helm, .ax, .clu, .boot] P) (h0 : Keeps P s t) :
    Keeps P s (updRefuse a1 a2 a3 t) := by
  unfold updRefuse
  exact (ev_keeps (hP.of (by decide)) (updAnswer_keeps (hP.of (by decide)) (bwSat_keeps (hP.of (by decide)) h0)))

theorem putValid_keeps {a1 a2 a3} (hP : Within [.regs] P) (h0 : Keeps P s t) :
    Keeps P s (putValid a1 a2 a3 t) := by
  unfold putValid
  extract_lets -merge -useContext x1
  exact (bw_keeps (hP.of (by decide)) h0)

theorem updTake_keeps {a1} (hP : Within [.regs, .boot] P) (h0 : Keeps P s t) :
    Keeps P s (updTake a1 t) := by
  unfold updTake
  extract_lets -merge -useContext x1
  have h1 : Keeps P s x1 := (modBoot_keeps (hP.of (by decide)) h0)
  clear_value x1
  exact (bw_keeps (hP.of (by decide)) (bw_keeps (hP.of (by decide)) h1))

theorem updBegin_keeps {a1 a2 a3} (hP : Within [.regs, .pts, .queues, .q0pend, .helm, .ax, .clu, .boot] P) (h0 : Keeps P s t) :
    Keeps P s (updBegin a1 a2 a3 t) := by
  unfold updBegin
  extract_lets -merge -useContext x1 x2 x3
  have h1 : Keeps P s x1 := (updSeen_keeps (hP.of (by decide)) h0)
  clear_value x1
  have h2 : Keeps P s x2 := (bwBit_keeps (hP.of (by decide)) (putValid_keeps (hP.of (by decide)) h1))
  clear_value x2
  have h3 : Keeps P s x3 := (updTake_keeps (hP.of (by decide)) h2)
  clear_value x3
  split
  · exact (Keeps.ite (updRepeat_keeps (hP.of (by decide)) h1) (updAnswer_keeps (hP.of (by decide)) h1))
  · exact (Keeps.ite (updAnswer_keeps (hP.of (by decide)) h1) (Keeps.ite (updRefuse_keeps (hP.of (by decide)) h1) (Keeps.ite (updRefuse_keeps (hP.of (by decide)) h1) (addJob_keeps (hP.of (by decide)) h3))))

theorem updData_keeps {a1 a2 a3 a4} (hP : Within [.regs, .pts, .queues, .q0pend, .helm, .ax, .clu, .boot] P) (h0 : Keeps P s t) :
    Keeps P s (updData a1 a2 a3 a4 t) := by
  unfold updData
  extract_lets -merge -useContext x1 x2
  have h1 : Keeps P s x1 := (updSeen_keeps (hP.of (by decide)) h0)
  clear_value x1
  split
  · exact (updRefuse_keeps (hP.of (by decide)) h1)
  · extract_lets -merge -useContext x3 x4
    have h4 : Keeps P s x4 := (updTake_keeps (hP.of (by decide)) h1)
    clear_value x4
    exact (Keeps.ite (updRepeat_keeps (hP.of (by decide)) h1) (Keeps.ite (updAnswer_keeps (hP.of (by decide)) h1) (Keeps.ite (updRefuse_keeps (hP.of (by decide)) h1) (Keeps.ite (updAnswer_keeps (hP.of (by decide)) h1) (Keeps.ite (updRefuse_keeps (hP.of (by decide)) h1) (Keeps.ite (updAnswer_keeps (hP.of (by decide)) h4) (addJob_keeps (hP.of (by decide)) h4)))))))

theorem updFinish_keeps {a1} (hP : Within [.regs, .pts, .queues, .q0pend, .helm, .ax, .clu, .boot] P) (h0 : Keeps P s t) :
    Keeps P s (updFinish a1 t) := by
  unfold updFinish
  extract_lets -merge -useContext x1
  have h1 : Keeps P s x1 := (updSeen_keeps (hP.of (by decide)) h0)
  clear_value x1
  split
  · exact (Keeps.ite (updRepeat_keeps (hP.of (by decide)) h1) (updRefuse_keeps (hP.of (by decide)) h1))
  · exact (Keeps.ite (updRepeat_keeps (hP.of (by decide)) h1) (Keeps.ite (updAnswer_keeps (hP.of (by decide)) h1) (Keeps.ite (updAnswer_keeps (hP.of (by decide)) h1) (Keeps.ite (updRefuse_keeps (hP.of (by decide)) h1) (addJob_keeps (hP.of (by decide)) (updTake_keeps (hP.of (by decide)) h1))))))

theorem updAbort_keeps {a1} (hP : Within [.regs, .pts, .queues, .q0pend, .helm, .ax, .clu, .boot] P) (h0 : Keeps P s t) :
    Keeps P s (updAbort a1 t) := by
  unfold updAbort
  extract_lets -merge -useContext x1
  have h1 : Keeps P s x1 := (updSeen_keeps (hP.of (by decide)) h0)
  clear_value x1
  split
  · exact (Keeps.ite (updRepeat_keeps (hP.of (by decide)) h1) (updRefuse_keeps (hP.of (by decide)) h1))
  · exact (Keeps.ite (updAnswer_keeps (hP.of (by decide)) h1) (updAnswer_keeps (hP.of (by decide)) (closeUpd_keeps (hP.of (by decide)) (updTake_keeps (hP.of (by decide)) h1))))

theorem updMsg_keeps {a1} (hP : Within [.regs, .pts, .queues, .q0pend, .helm, .ax, .clu, .boot] P) (h0 : Keeps P s t) :
    Keeps P s (updMsg a1 t) := by
  unfold updMsg
  extract_lets -merge -useContext x1 x2 x3
  split
  · exact (updBegin_keeps (hP.of (by decide)) h0)
  · exact (updData_keeps (hP.of (by decide)) h0)
  · exact (updFinish_keeps (hP.of (by decide)) h0)
  · exact (updAbort_keeps (hP.of (by decide)) h0)
  · exact h0

theorem popJob_keeps (hP : Within [.regs, .boot] P) (h0 : Keeps P s t) :
    Keeps P s (popJob t) := by
  unfold popJob
  exact (busyUpd_keeps (hP.of (by decide)) (modBoot_keeps (hP.of (by decide)) h0))

theorem pmWritten_keeps {a1 a2} (hP : Within [.regs, .pts, .queues, .q0pend, .helm, .ax, .clu, .boot] P) (h0 : Keeps P s t) :
    Keeps P s (pmWritten a1 a2 t) := by
  unfold pmWritten
  extract_lets -merge -useContext x1 x2 x3 x4
  have h2 : Keeps P s x2 := (popJob_keeps (hP.of (by decide)) h0)
  clear_value x2
  have h3 : Keeps P s x3 := (modHelm_keeps (hP.of (by decide)) h2)
  clear_value x3
  have h4 : Keeps P s x4 := (Keeps.ite (addJob_keeps (hP.of (by decide)) (bw_keeps (hP.of (by decide)) (modBoot_keeps (hP.of (by decide)) h3))) (ev_keeps (hP.of (by decide)) h3))
  clear_value x4
  exact (Keeps.ite (closeUpd_keeps (hP.of (by decide)) h4) h0)

theorem execPostmortemWriteDone_keeps {a1 a2 a3} (hP : Within [.now, .regs, .pts, .queues, .q0pend, .helm, .ax, .clu, .boot] P) (h0 : Keeps P s t) :
    Runs P s (execPostmortemWriteDone a1 a2 a3 t) := by
  unfold execPostmortemWriteDone
  exact (Runs.next (pmWritten_keeps (hP.of (by decide)) (atTime_keeps (hP.of (by decide)) h0)))

theorem execBegin_keeps {a1 a2 a3 a4} (hP : Within [.now, .regs, .pts, .queues, .q0pend, .helm, .ax, .clu, .boot] P) (h0 : Keeps P s t) :
    Runs P s (execBegin a1 a2 a3 a4 t) := by
  unfold execBegin
  exact (Runs.next (updBegin_keeps (hP.of (by decide)) (atTime_keeps (hP.of (by decide)) h0)))

theorem execData_keeps {a1 a2 a3 a4 a5} (hP : Within [.now, .regs, .pts, .queues, .q0pend, .helm, .ax, .clu, .boot] P) (h0 : Keeps P s t) :
    Runs P s (execData a1 a2 a3 a4 a5 t) := by
  unfold execData
  exact (Runs.next (updData_keeps (hP.of (by decide)) (atTime_keeps (hP.of (by decide)) h0)))

theorem execFinish_keeps {a1 a2} (hP : Within [.now, .regs, .pts, .queues, .q0pend, .helm, .ax, .clu, .boot] P) (h0 : Keeps P s t) :
    Runs P s (execFinish a1 a2 t) := by
  unfold execFinish
  exact (Runs.next (updFinish_keeps (hP.of (by decide)) (atTime_keeps (hP.of (by decide)) h0)))

theorem execAbort_keeps {a1 a2} (hP : Within [.now, .regs, .pts, .queues, .q0pend, .helm, .ax, .clu, .boot] P) (h0 : Keeps P s t) :
    Runs P s (execAbort a1 a2 t) := by
  unfold execAbort
  exact (Runs.next (updAbort_keeps (hP.of (by decide)) (atTime_keeps (hP.of (by decide)) h0)))

theorem execUpdateTimeout_keeps {a1} (hP : Within [.now, .regs, .pts, .queues, .q0pend, .helm, .ax, .clu, .boot] P) (h0 : Keeps P s t) :
    Runs P s (execUpdateTimeout a1 t) := by
  unfold execUpdateTimeout
  extract_lets -merge -useContext x1
  have h1 : Keeps P s x1 := (atTime_keeps (hP.of (by decide)) h0)
  clear_value x1
  exact (Runs.next (by
    split
    · exact (Keeps.ite (ev_keeps (hP.of (by decide)) (closeUpd_keeps (hP.of (by decide)) h1)) h1)
    · exact h1))

theorem finishDone_keeps {a1} (hP : Within [.regs, .pts, .queues, .q0pend, .helm, .ax, .clu, .boot] P) (h0 : Keeps P s t) :
    Keeps P s (finishDone a1 t) := by
  unfold finishDone
  extract_lets -merge -useContext x1 x2 x3
  have h3 : Keeps P s x3 := (bw_keeps (hP.of (by decide)) (putValid_keeps (hP.of (by decide)) h0))
  clear_value x3
  split
  · exact h0
  · extract_lets -merge -useContext x4
    exact (Keeps.ite (updAnswer_keeps (hP.of (by decide)) (ev_keeps (hP.of (by decide)) (closeUpd_keeps (hP.of (by decide)) h3))) (updAnswer_keeps (hP.of (by decide)) (ev_keeps (hP.of (by decide)) (closeUpd_keeps (hP.of (by decide)) (putValid_keeps (hP.of (by decide)) h0)))))

theorem flashDone_keeps {a1 a2 a3} (hP : Within [.regs, .pts, .queues, .q0pend, .helm, .ax, .clu, .boot] P) (h0 : Keeps P s t) :
    Keeps P s (flashDone a1 a2 a3 t) := by
  unfold flashDone
  extract_lets -merge -useContext x1
  have h1 : Keeps P s x1 := (popJob_keeps (hP.of (by decide)) h0)
  clear_value x1
  exact (Keeps.ite h0 (by
    split
    · exact (Keeps.ite (popJob_keeps (hP.of (by decide)) h0) (Keeps.ite (ev_keeps (hP.of (by decide)) (popJob_keeps (hP.of (by decide)) (bwSat_keeps (hP.of (by decide)) h0))) (modBoot_keeps (hP.of (by decide)) (bwSat_keeps (hP.of (by decide)) h0))))
    · exact (Keeps.ite (Keeps.ite (finishDone_keeps (hP.of (by decide)) h1) (updAnswer_keeps (hP.of (by decide)) h1)) (Keeps.ite (updAnswer_keeps (hP.of (by decide)) (closeUpd_keeps (hP.of (by decide)) (ev_keeps (hP.of (by decide)) (popJob_keeps (hP.of (by decide)) (bwSat_keeps (hP.of (by decide)) h0))))) (modBoot_keeps (hP.of (by decide)) (bwSat_keeps (hP.of (by decide)) h0))))
    · exact h0))

theorem execFlashOperationDone_keeps {a1 a2 a3 a4} (hP : Within [.now, .regs, .pts, .queues, .q0pend, .helm, .ax, .clu, .boot] P) (h0 : Keeps P s t) :
    Runs P s (execFlashOperationDone a1 a2 a3 a4 t) := by
  unfold execFlashOperationDone
  exact (Runs.next (flashDone_keeps (hP.of (by decide)) (atTime_keeps (hP.of (by decide)) h0)))

end Sys2Proof.Machine
end

