-- ==== Sys2Proof/Laws/KeepsCan.lean ====
section
/-!
SUPPORT. What the operations of Machine/Can.lean may touch, and that they keep the canonical form: one lemma per operation.
-/
namespace Sys2Proof.Machine

variable {P : List Part} {s t : State}

theorem borec_keeps {a1} (hP : Within [.regs] P) (h0 : Keeps P s t) :
    Keeps P s (borec a1 t) := by
  unfold borec
  exact (Keeps.ite (bwBit_keeps (hP.of (by decide)) h0) h0)

theorem canRefused_keeps {a1 a2 a3} (hP : Within [.regs, .pts, .queues, .q0pend, .helm, .ax, .clu] P) (h0 : Keeps P s t) :
    Keeps P s (canRefused a1 a2 a3 t) := by
  unfold canRefused
  exact (ev_keeps (hP.of (by decide)) h0)

theorem seqStart_keeps {a1 a2} (hP : Within [.can] P) (h0 : Keeps P s t) :
    Keeps P s (seqStart a1 a2 t) := by
  unfold seqStart
  exact (forEach_keeps (fun _ _ h1 => (by
    extract_lets -merge -useContext x2
    exact (Keeps.ite (modCan_keeps (hP.of (by decide)) h1) h1))) h0)

theorem keepOld_keeps {a1 a2} (hP : Within [.can] P) (h0 : Keeps P s t) :
    Keeps P s (keepOld a1 a2 t) := by
  unfold keepOld
  exact (Keeps.ite h0 (modCan_keeps (hP.of (by decide)) h0))

theorem timArm_keeps {a1} (hP : Within [.regs] P) (h0 : Keeps P s t) :
    Keeps P s (timArm a1 t) := by
  unfold timArm
  exact (bwBit_keeps (hP.of (by decide)) h0)

theorem canCommits_keeps {a1} (hP : Within [.regs, .pts, .queues, .q0pend, .helm, .ax, .clu, .can] P) (h0 : Keeps P s t) :
    Keeps P s (canCommits a1 t) := by
  unfold canCommits
  extract_lets -merge -useContext x1 x2 x3 x4
  have h2 : Keeps P s x2 := (forEach_keeps (fun _ _ h5 => (by
    extract_lets -merge -useContext x6
    have h6 : Keeps P s x6 := (bwBit_keeps (hP.of (by decide)) h5)
    clear_value x6
    exact (Keeps.ite (by
      split
      · exact (canRefused_keeps (hP.of (by decide)) h6)
      · exact (seqStart_keeps (hP.of (by decide)) (copySet_keeps (hP.of (by decide)) (keepOld_keeps (hP.of (by decide)) h6)))) h5))) h0)
  clear_value x2
  have h3 : Keeps P s x3 := (bwBit_keeps (hP.of (by decide)) h2)
  clear_value x3
  have h4 : Keeps P s x4 := (Keeps.ite (by
    split
    · exact (canRefused_keeps (hP.of (by decide)) h3)
    · exact (copySet_keeps (hP.of (by decide)) h3)) h2)
  clear_value x4
  exact (timArm_keeps (hP.of (by decide)) h4)

theorem putErr_keeps {a1 a2 a3} (hP : Within [.regs] P) (h0 : Keeps P s t) :
    Keeps P s (putErr a1 a2 a3 t) := by
  unfold putErr
  exact (bw_keeps (hP.of (by decide)) h0)

theorem putCanState_keeps {a1 a2} (hP : Within [.regs] P) (h0 : Keeps P s t) :
    Keeps P s (putCanState a1 a2 t) := by
  unfold putCanState
  exact (bw_keeps (hP.of (by decide)) h0)

theorem initEnter_keeps {a1} (hP : Within [.regs, .pts, .queues, .q0pend, .helm, .ax, .clu, .can] P) (h0 : Keeps P s t) :
    Keeps P s (initEnter a1 t) := by
  unfold initEnter
  extract_lets -merge -useContext x1
  have h1 : Keeps P s x1 := (modCan_keeps (hP.of (by decide)) h0)
  clear_value x1
  exact (canCommits_keeps (hP.of (by decide)) (putErr_keeps (hP.of (by decide)) (putCanState_keeps (hP.of (by decide)) h1)))

theorem initAsk_keeps {a1} (hP : Within [.regs, .pts, .queues, .q0pend, .helm, .ax, .clu, .can] P) (h0 : Keeps P s t) :
    Keeps P s (initAsk a1 t) := by
  unfold initAsk
  exact (Keeps.ite h0 (Keeps.ite (modCan_keeps (hP.of (by decide)) h0) (Keeps.ite (modCan_keeps (hP.of (by decide)) h0) (initEnter_keeps (hP.of (by decide)) h0))))

theorem initLeave_keeps {a1} (hP : Within [.can] P) (h0 : Keeps P s t) :
    Keeps P s (initLeave a1 t) := by
  unfold initLeave
  extract_lets -merge -useContext x1
  have h1 : Keeps P s x1 := (modCan_keeps (hP.of (by decide)) h0)
  clear_value x1
  exact (Keeps.ite (modCan_keeps (hP.of (by decide)) h1) h1)

theorem canCtrl_keeps {a1 a2} (hP : Within [.regs, .pts, .queues, .q0pend, .helm, .ax, .clu, .can] P) (h0 : Keeps P s t) :
    Keeps P s (canCtrl a1 a2 t) := by
  unfold canCtrl
  extract_lets -merge -useContext x1 x2 x3 x4
  have h2 : Keeps P s x2 := (Keeps.ite (borec_keeps (hP.of (by decide)) h0) h0)
  clear_value x2
  have h4 : Keeps P s x4 := (bw_keeps (hP.of (by decide)) h2)
  clear_value x4
  exact (Keeps.ite h4 (Keeps.ite (initAsk_keeps (hP.of (by decide)) h4) (initLeave_keeps (hP.of (by decide)) h4)))

theorem dropSent_keeps {a1 a2} (hP : Within [.queues] P) (h0 : Keeps P s t) :
    Keeps P s (dropSent a1 a2 t) := by
  unfold dropSent
  extract_lets -merge -useContext x1
  split
  · exact (setQ_keeps (hP.of (by decide)) h0)
  · exact h0

theorem busError_keeps {a1 a2 a3 a4 a5} (hP : Within [.regs, .pts, .queues, .q0pend, .helm, .ax, .clu, .can] P) (h0 : Keeps P s t) :
    Keeps P s (busError a1 a2 a3 a4 a5 t) := by
  unfold busError
  extract_lets -merge -useContext x1 x2 x3 x4 x5 x6 x7
  clear_value x3
  have h1 : Keeps P s x1 := (putErr_keeps (hP.of (by decide)) h0)
  clear_value x1
  have h2 : Keeps P s x2 := (bw_keeps (hP.of (by decide)) h1)
  clear_value x2
  have h4 : Keeps P s x4 := (modCan_keeps (hP.of (by decide)) h2)
  clear_value x4
  have h5 : Keeps P s x5 := (bwSat_keeps (hP.of (by decide)) (modCan_keeps (hP.of (by decide)) (putCanState_keeps (hP.of (by decide)) h4)))
  clear_value x5
  have h6 : Keeps P s x6 := (ev_keeps (hP.of (by decide)) h5)
  clear_value x6
  have h7 : Keeps P s x7 := (Keeps.ite (by
    split
    · exact (Keeps.ite (ev_keeps (hP.of (by decide)) (dropSent_keeps (hP.of (by decide)) h6)) h6)
    · exact h6) (Keeps.ite (Keeps.ite (ev_keeps (hP.of (by decide)) (putCanState_keeps (hP.of (by decide)) h4)) h4) (putCanState_keeps (hP.of (by decide)) h4)))
  clear_value x7
  exact (Keeps.ite h0 (canCommits_keeps (hP.of (by decide)) h7))

theorem txReq_keeps {a1 a2 a3} (hP : Within [.can] P) (h0 : Keeps P s t) :
    Keeps P s (txReq a1 a2 a3 t) := by
  unfold txReq
  extract_lets -merge -useContext x1 x2
  exact (modCan_keeps (hP.of (by decide)) h0)

theorem canNotify_keeps {a1 a2 a3 a4 a5 a6} (hP : Within [.regs, .pts, .queues, .q0pend, .helm, .ax, .clu] P) (h0 : Keeps P s t) :
    Keeps P s (canNotify a1 a2 a3 a4 a5 a6 t) := by
  unfold canNotify
  extract_lets -merge -useContext x1 x2 x3
  have h3 : Keeps P s x3 := (pushItem_keeps (hP.of (by decide)) h0)
  clear_value x3
  exact (Keeps.ite h3 (bwSat_keeps (hP.of (by decide)) h3))

theorem recLess_keeps {a1} (hP : Within [.fresh] P) (h0 : Keeps P s t) :
    Keeps P s (recLess t a1).2 := by
  unfold recLess
  exact (Keeps.ite2 (Keeps.snd h0) (Keeps.ite2 (Keeps.snd h0) (by
    split
    rename_i x1 e1
    have h1 : Keeps P s x1 := Keeps.ofEq e1 (takeFresh_keeps (hP.of (by decide)) h0)
    exact (Keeps.snd h1))))

theorem passiveEnds_keeps {a1} (hP : Within [.regs] P) (h0 : Keeps P s t) :
    Keeps P s (passiveEnds a1 t) := by
  unfold passiveEnds
  extract_lets -merge -useContext x1
  exact (Keeps.ite (putCanState_keeps (hP.of (by decide)) h0) h0)

theorem moverWrites_keeps {m p o} (hP : Within [.regs, .pts, .attrs, .held, .bad, .queues, .q0pend, .helm, .ax, .clu, .drv, .safe, .can, .boot] P) : ∀ {l : List (Nat × Word)} {k : Nat} {t : State},
    Keeps P s t → Keeps P s (moverWrites m p o k l t)
  | [], _, _, h => h
  | _ :: _, _, _, h => by unfold moverWrites; exact moverWrites_keeps hP (chartWrite_keeps (hP.of (by decide)) h)

theorem takeFrame_keeps {a1 a2 a3} (hP : Within [.regs, .pts, .attrs, .held, .bad, .queues, .q0pend, .helm, .ax, .clu, .drv, .safe, .can, .boot] P) (h0 : Keeps P s t) :
    Keeps P s (takeFrame a1 a2 a3 t) := by
  unfold takeFrame
  extract_lets -merge -useContext x1 x2 x3 x4 x5
  have h1 : Keeps P s x1 := (bwSat_keeps (hP.of (by decide)) h0)
  clear_value x1
  have h4 : Keeps P s x4 := (Keeps.ite h1 (moverWrites_keeps (hP.of (by decide)) h1))
  clear_value x4
  have h5 : Keeps P s x5 := (Keeps.ite (canNotify_keeps (hP.of (by decide)) h4) h4)
  clear_value x5
  exact (Keeps.ite h1 (Keeps.ite (updMsg_keeps (hP.of (by decide)) h5) h5))

theorem canReceive_keeps {a1 a2} (hP : Within [.regs, .pts, .attrs, .held, .bad, .queues, .q0pend, .helm, .fresh, .ax, .clu, .drv, .safe, .can, .boot] P) (h0 : Keeps P s t) :
    Keeps P s (canReceive a1 a2 t) := by
  unfold canReceive
  extract_lets -merge -useContext x1
  exact (Keeps.ite h0 (by
    split
    rename_i x2 e2
    have h2 : Keeps P s x2 := Keeps.ofEq e2 (recLess_keeps (hP.of (by decide)) h0)
    extract_lets -merge -useContext x3 x4 x5
    clear_value x4
    have h3 : Keeps P s x3 := (passiveEnds_keeps (hP.of (by decide)) (putErr_keeps (hP.of (by decide)) h2))
    clear_value x3
    have h5 : Keeps P s x5 := (by
      unfold x5
      split
      · exact (takeFrame_keeps (hP.of (by decide)) h3)
      · exact (bwSat_keeps (hP.of (by decide)) h3))
    clear_value x5
    exact (canCommits_keeps (hP.of (by decide)) (modCan_keeps (hP.of (by decide)) h5))))

theorem ctrlBy_keeps {a1 a2 a3 a4} (hP : Within [.now, .regs, .pts, .held, .queues, .q0pend, .helm, .ax, .clu, .drv, .safe, .can, .boot] P) (h0 : Keeps P s t) :
    Keeps P s (ctrlBy a1 a2 a3 a4 t) := by
  unfold ctrlBy
  extract_lets -merge -useContext x1
  split
  rename_i x2 e2
  have h2 : Keeps P s x2 := Keeps.ofEq e2 (access_keeps (hP.of (by decide)) (atTime_keeps (hP.of (by decide)) h0))
  exact (Keeps.ite (canCtrl_keeps (hP.of (by decide)) h2) h2)

theorem cyclicTx_keeps {a1 a2} (hP : Within [.can] P) (h0 : Keeps P s t) :
    Keeps P s (cyclicTx a1 a2 t) := by
  unfold cyclicTx
  extract_lets -merge -useContext x1
  exact (modCan_keeps (hP.of (by decide)) h0)

theorem dropFirst_keeps {a1} (hP : Within [.queues] P) (h0 : Keeps P s t) :
    Keeps P s (dropFirst a1 t) := by
  unfold dropFirst
  extract_lets -merge -useContext x1
  exact (setQ_keeps (hP.of (by decide)) h0)

theorem dropBad_keeps {c} (hP : Within [.regs, .pts, .queues, .q0pend, .helm, .ax, .clu] P) : ∀ {k : Nat} {t : State}, Keeps P s t → Keeps P s (dropBad c k t)
  | 0, _, h => h
  | k + 1, t, h => by
    unfold dropBad
    split
    · exact Keeps.ite (dropBad_keeps hP (ev_keeps (hP.of (by decide)) (dropFirst_keeps (hP.of (by decide)) h))) h
    · exact h

theorem execCanFrameReceived_keeps {a1 a2 a3} (hP : Within [.now, .regs, .pts, .attrs, .held, .bad, .queues, .q0pend, .helm, .fresh, .ax, .clu, .drv, .safe, .can, .boot] P) (h0 : Keeps P s t) :
    Runs P s (execCanFrameReceived a1 a2 a3 t) := by
  unfold execCanFrameReceived
  exact (Runs.next (canReceive_keeps (hP.of (by decide)) (atTime_keeps (hP.of (by decide)) h0)))

theorem readBlock_keeps {a1 a2 a3 a4} (hP : Within [.regs, .pts, .held, .queues, .q0pend, .helm, .ax, .clu, .drv, .safe, .boot] P) (h0 : Keeps P s t) :
    Keeps P s (readBlock a1 a2 a3 a4 t) := by
  unfold readBlock
  exact (forEach_keeps (fun _ _ h1 => (access_keeps (hP.of (by decide)) h1)) h0)

theorem startObj_keeps {a1 a2 a3} (hP : Within [.regs, .pts, .held, .queues, .q0pend, .helm, .ax, .clu, .drv, .safe, .can, .boot] P) (h0 : Keeps P s t) :
    Keeps P s (startObj a1 a2 a3 t) := by
  unfold startObj
  extract_lets -merge -useContext x1 x2 x3 x4 x5 x6 x7 x8
  have h5 : Keeps P s x5 := (readBlock_keeps (hP.of (by decide)) h0)
  clear_value x5
  have h6 : Keeps P s x6 := (bwSat_keeps (hP.of (by decide)) h5)
  clear_value x6
  have h7 : Keeps P s x7 := (modCan_keeps (hP.of (by decide)) h6)
  clear_value x7
  exact (Keeps.ite h5 (Keeps.ite (evOnce_keeps (hP.of (by decide)) h7) (modCan_keeps (hP.of (by decide)) h5)))

theorem startPkt_keeps {a1 a2} (hP : Within [.can] P) (h0 : Keeps P s t) :
    Keeps P s (startPkt a1 a2 t) := by
  unfold startPkt
  extract_lets -merge -useContext x1 x2 x3 x4
  exact (modCan_keeps (hP.of (by decide)) h0)

theorem txStart_keeps {a1 a2} (hP : Within [.regs, .pts, .held, .queues, .q0pend, .helm, .ax, .clu, .drv, .safe, .can, .boot] P) (h0 : Keeps P s t) :
    Keeps P s (txStart a1 a2 t) := by
  unfold txStart
  extract_lets -merge -useContext x1 x2 x3
  clear_value x3
  have h1 : Keeps P s x1 := (modCan_keeps (hP.of (by decide)) h0)
  clear_value x1
  have h2 : Keeps P s x2 := (canCommits_keeps (hP.of (by decide)) (dropBad_keeps (hP.of (by decide)) h1))
  clear_value x2
  exact (Keeps.ite h0 (by
    split
    · exact (Keeps.ite (startObj_keeps (hP.of (by decide)) h2) (startPkt_keeps (hP.of (by decide)) h2))
    · exact (startObj_keeps (hP.of (by decide)) h2)
    · exact (startPkt_keeps (hP.of (by decide)) h2)
    · exact h2))

theorem execCanTxStart_keeps {a1 a2 a3} (hP : Within [.now, .regs, .pts, .held, .queues, .q0pend, .helm, .ax, .clu, .drv, .safe, .can, .boot] P) (h0 : Keeps P s t) :
    Runs P s (execCanTxStart a1 a2 a3 t) := by
  unfold execCanTxStart
  exact (Runs.next (txStart_keeps (hP.of (by decide)) (atTime_keeps (hP.of (by decide)) h0)))

theorem txComplete_keeps {a1 a2} (hP : Within [.regs, .pts, .attrs, .held, .bad, .queues, .q0pend, .helm, .ax, .clu, .drv, .safe, .can, .boot] P) (h0 : Keeps P s t) :
    Keeps P s (txComplete a1 a2 t) := by
  unfold txComplete
  extract_lets -merge -useContext x1 x2 x3 x4 x5
  have h1 : Keeps P s x1 := (modCan_keeps (hP.of (by decide)) h0)
  clear_value x1
  have h2 : Keeps P s x2 := (bwSat_keeps (hP.of (by decide)) h1)
  clear_value x2
  have h4 : Keeps P s x4 := (passiveEnds_keeps (hP.of (by decide)) (putErr_keeps (hP.of (by decide)) h2))
  clear_value x4
  split
  · exact h0
  · extract_lets -merge -useContext x6 x7
    have h6 : Keeps P s x6 := (by
      unfold x6
      split
      · extract_lets -merge -useContext x8 x9 x10
        have h9 : Keeps P s x9 := (modCan_keeps (hP.of (by decide)) h4)
        clear_value x9
        have h10 : Keeps P s x10 := (seqPend_keeps (hP.of (by decide)) h9)
        clear_value x10
        exact (moverWrites_keeps (hP.of (by decide)) h10)
      · exact (dropSent_keeps (hP.of (by decide)) h4))
    clear_value x6
    have h7 : Keeps P s x7 := (Keeps.ite (canNotify_keeps (hP.of (by decide)) h6) h6)
    clear_value x7
    exact (canCommits_keeps (hP.of (by decide)) h7)

theorem execCanTxComplete_keeps {a1 a2 a3} (hP : Within [.now, .regs, .pts, .attrs, .held, .bad, .queues, .q0pend, .helm, .ax, .clu, .drv, .safe, .can, .boot] P) (h0 : Keeps P s t) :
    Runs P s (execCanTxComplete a1 a2 a3 t) := by
  unfold execCanTxComplete
  exact (Runs.next (txComplete_keeps (hP.of (by decide)) (atTime_keeps (hP.of (by decide)) h0)))

theorem execCanBusError_keeps {a1 a2 a3 a4 a5 a6} (hP : Within [.now, .regs, .pts, .queues, .q0pend, .helm, .ax, .clu, .can] P) (h0 : Keeps P s t) :
    Runs P s (execCanBusError a1 a2 a3 a4 a5 a6 t) := by
  unfold execCanBusError
  exact (Runs.next (busError_keeps (hP.of (by decide)) (atTime_keeps (hP.of (by decide)) h0)))

theorem execCanCyclicTx_keeps {a1 a2} (hP : Within [.now, .can] P) (h0 : Keeps P s t) :
    Runs P s (execCanCyclicTx a1 a2 t) := by
  unfold execCanCyclicTx
  exact (Runs.next (cyclicTx_keeps (hP.of (by decide)) (atTime_keeps (hP.of (by decide)) h0)))

theorem execCanInitSet_keeps {a1 a2 a3} (hP : Within [.now, .regs, .pts, .held, .queues, .q0pend, .helm, .ax, .clu, .drv, .safe, .can, .boot] P) (h0 : Keeps P s t) :
    Runs P s (execCanInitSet a1 a2 a3 t) := by
  unfold execCanInitSet
  exact (Runs.next (ctrlBy_keeps (hP.of (by decide)) h0))

theorem execCanInitEntered_keeps {a1 a2} (hP : Within [.now, .regs, .pts, .queues, .q0pend, .helm, .ax, .clu, .can] P) (h0 : Keeps P s t) :
    Runs P s (execCanInitEntered a1 a2 t) := by
  unfold execCanInitEntered
  extract_lets -merge -useContext x1
  have h1 : Keeps P s x1 := (atTime_keeps (hP.of (by decide)) h0)
  clear_value x1
  exact (Runs.next (Keeps.ite (initEnter_keeps (hP.of (by decide)) h1) h1))

theorem execCanInitClear_keeps {a1 a2 a3} (hP : Within [.now, .regs, .pts, .held, .queues, .q0pend, .helm, .ax, .clu, .drv, .safe, .can, .boot] P) (h0 : Keeps P s t) :
    Runs P s (execCanInitClear a1 a2 a3 t) := by
  unfold execCanInitClear
  exact (Runs.next (ctrlBy_keeps (hP.of (by decide)) h0))

theorem execCanActive_keeps {a1 a2} (hP : Within [.now, .regs, .can] P) (h0 : Keeps P s t) :
    Runs P s (execCanActive a1 a2 t) := by
  unfold execCanActive
  extract_lets -merge -useContext x1
  have h1 : Keeps P s x1 := (atTime_keeps (hP.of (by decide)) h0)
  clear_value x1
  exact (Runs.next (Keeps.ite (timArm_keeps (hP.of (by decide)) (putCanState_keeps (hP.of (by decide)) (modCan_keeps (hP.of (by decide)) h1))) h1))

theorem execBorec_keeps {a1 a2 a3} (hP : Within [.now, .regs, .pts, .held, .queues, .q0pend, .helm, .ax, .clu, .drv, .safe, .can, .boot] P) (h0 : Keeps P s t) :
    Runs P s (execBorec a1 a2 a3 t) := by
  unfold execBorec
  exact (Runs.next (ctrlBy_keeps (hP.of (by decide)) h0))

theorem execCanRecovered_keeps {a1 a2} (hP : Within [.now, .regs, .pts, .queues, .q0pend, .helm, .ax, .clu, .can] P) (h0 : Keeps P s t) :
    Runs P s (execCanRecovered a1 a2 t) := by
  unfold execCanRecovered
  extract_lets -merge -useContext x1 x2
  have h1 : Keeps P s x1 := (atTime_keeps (hP.of (by decide)) h0)
  clear_value x1
  have h2 : Keeps P s x2 := (putErr_keeps (hP.of (by decide)) (putCanState_keeps (hP.of (by decide)) (bwBit_keeps (hP.of (by decide)) h1)))
  clear_value x2
  exact (Runs.next (Keeps.ite (ev_keeps (hP.of (by decide)) (canCommits_keeps (hP.of (by decide)) (Keeps.ite (initAsk_keeps (hP.of (by decide)) h2) h2))) h1))

theorem execStbreq_keeps {a1 a2 a3 a4} (hP : Within [.now, .regs, .pts, .held, .queues, .q0pend, .helm, .ax, .clu, .drv, .safe, .can, .boot] P) (h0 : Keeps P s t) :
    Runs P s (execStbreq a1 a2 a3 a4 t) := by
  unfold execStbreq
  exact (Runs.next (ctrlBy_keeps (hP.of (by decide)) h0))

theorem execCanTxreq_keeps {a1 a2 a3 a4 a5} (hP : Within [.now, .regs, .pts, .held, .queues, .q0pend, .helm, .ax, .clu, .drv, .safe, .can, .boot] P) (h0 : Keeps P s t) :
    Runs P s (execCanTxreq a1 a2 a3 a4 a5 t) := by
  unfold execCanTxreq
  extract_lets -merge -useContext x1
  split
  rename_i x2 e2
  have h2 : Keeps P s x2 := Keeps.ofEq e2 (access_keeps (hP.of (by decide)) (atTime_keeps (hP.of (by decide)) h0))
  exact (Runs.next (Keeps.ite (txReq_keeps (hP.of (by decide)) h2) h2))

end Sys2Proof.Machine
end

