-- ==== Sys2Proof/Laws/KeepsPublish.lean ====
section
/-!
SUPPORT. What the operations of Machine/Publish.lean may touch, and that they keep the canonical form: one lemma per operation.
-/
namespace Sys2Proof.Machine

variable {P : List Part} {s t : State}

theorem modRing_keeps {a1} (hP : Within [.ring] P) (h0 : Keeps P s t) :
    Keeps P s (modRing a1 t) := by
  unfold modRing
  exact (Keeps.upd h0 (by intro p hp; cases p <;> first | exact absurd (hP _ (by decide)) hp | rfl) ⟨rfl, rfl, rfl, rfl⟩)

theorem publish_keeps (hP : Within [.ring] P) (h0 : Keeps P s t) :
    Keeps P s (publish t) := by
  unfold publish
  exact (Keeps.ite (modRing_keeps (hP.of (by decide)) h0) h0)

end Sys2Proof.Machine
end

