-- ==== Sys2Proof/Laws/KeepsRing.lean ====
section
/-!
SUPPORT. What the operations of Machine/Ring.lean may touch, and that they keep the canonical form: one lemma per operation.
-/
namespace Sys2Proof.Machine

variable {P : List Part} {s t : State}

theorem mapBit_keeps {a1 a2 a3} (hP : Within [.pts] P) (h0 : Keeps P s t) :
    Keeps P s (mapBit a1 a2 a3 t) := by
  unfold mapBit
  exact (setPt_keeps (hP.of (by decide)) h0)

theorem staleCheck_keeps {a1} (hP : Within [.regs, .pts, .queues, .q0pend, .helm, .ax, .clu] P) (h0 : Keeps P s t) :
    Keeps P s (staleCheck a1 t) := by
  unfold staleCheck
  exact (Keeps.ite (ev_keeps (hP.of (by decide)) (mapBit_keeps (hP.of (by decide)) h0)) h0)

theorem bitmaps_keeps {a1} (hP : Within [.regs, .pts, .queues, .q0pend, .helm, .ax, .clu, .ring] P) (h0 : Keeps P s t) :
    Keeps P s (bitmaps a1 t) := by
  unfold bitmaps
  extract_lets -merge -useContext x1
  have h1 : Keeps P s x1 := (modRing_keeps (hP.of (by decide)) h0)
  clear_value x1
  exact (Keeps.ite h0 (by
    split
    · exact (Keeps.ite h1 (mapBit_keeps (hP.of (by decide)) (mapBit_keeps (hP.of (by decide)) h1)))
    · exact (staleCheck_keeps (hP.of (by decide)) (modRing_keeps (hP.of (by decide)) h0))))

theorem bootHalt_keeps {a1 a2} (hP : Within [.regs, .pts, .queues, .q0pend, .helm, .mot, .ax, .gear, .igrp, .homing, .loop, .clu, .drv, .adm, .pwr, .safe, .boot] P) (h0 : Keeps P s t) :
    Keeps P s (bootHalt a1 a2 t) := by
  unfold bootHalt
  exact (Keeps.ite (haltEntry_keeps (hP.of (by decide)) (bw_keeps (hP.of (by decide)) (modBoot_keeps (hP.of (by decide)) h0))) h0)

theorem bootFail_keeps {a1 a2 a3 a4} (hP : Within [.regs, .pts, .queues, .q0pend, .helm, .mot, .ax, .gear, .igrp, .homing, .loop, .clu, .drv, .adm, .pwr, .safe, .boot] P) (h0 : Keeps P s t) :
    Keeps P s (bootFail a1 a2 a3 a4 t) := by
  unfold bootFail
  exact (bootHalt_keeps (hP.of (by decide)) (raiseDev_keeps (hP.of (by decide)) h0))

theorem ringCommit_keeps {a1} (hP : Within [.regs, .pts, .queues, .q0pend, .helm, .ax, .clu] P) (h0 : Keeps P s t) :
    Keeps P s (ringCommit a1 t) := by
  unfold ringCommit
  extract_lets -merge -useContext x1
  have h1 : Keeps P s x1 := (bwBit_keeps (hP.of (by decide)) h0)
  clear_value x1
  split
  · exact (ev_keeps (hP.of (by decide)) h1)
  · exact (copySet_keeps (hP.of (by decide)) h1)

theorem ringCommits_keeps (hP : Within [.regs, .pts, .queues, .q0pend, .helm, .ax, .clu] P) (h0 : Keeps P s t) :
    Keeps P s (ringCommits t) := by
  unfold ringCommits
  exact (forEach_keeps (fun _ _ h1 => (Keeps.ite (ringCommit_keeps (hP.of (by decide)) h1) h1)) h0)

theorem ringBit_keeps {a1 a2} (hP : Within [.regs] P) (h0 : Keeps P s t) :
    Keeps P s (ringBit a1 a2 t) := by
  unfold ringBit
  exact (bwBit_keeps (hP.of (by decide)) h0)

theorem breakCheck_keeps (hP : Within [.regs, .pts, .queues, .q0pend, .helm, .ax, .clu] P) (h0 : Keeps P s t) :
    Keeps P s (breakCheck t) := by
  unfold breakCheck
  extract_lets -merge -useContext x1 x2 x3 x4 x5 x6 x7 x8 x9 x10
  have h10 : Keeps P s x10 := (bw_keeps (hP.of (by decide)) (ringBit_keeps (hP.of (by decide)) h0))
  clear_value x10
  exact (Keeps.ite h0 (Keeps.ite h0 (ev_keeps (hP.of (by decide)) (bwSat_keeps (hP.of (by decide)) h10))))

theorem subsStart_keeps (hP : Within [.regs, .pts, .queues, .q0pend, .helm, .ax, .clu] P) (h0 : Keeps P s t) :
    Keeps P s (subsStart t) := by
  unfold subsStart
  extract_lets -merge -useContext x1
  exact (forEach_keeps (fun _ _ h2 => (by
    split
    · exact (ev_keeps (hP.of (by decide)) (aw_keeps (hP.of (by decide)) h2)))) h0)

theorem configMsg_keeps {a1} (hP : Within [.now, .regs, .pts, .queues, .q0pend, .helm, .ax, .clu, .ring, .boot] P) (h0 : Keeps P s t) :
    Keeps P s (configMsg a1 t) := by
  unfold configMsg
  extract_lets -merge -useContext x1 x2 x3 x4 x5
  have h4 : Keeps P s x4 := (modBoot_keeps (hP.of (by decide)) (Keeps.upd h0 (by intro p hp; cases p <;> first | exact absurd (hP _ (by decide)) hp | rfl) ⟨rfl, rfl, rfl, rfl⟩))
  clear_value x4
  have h5 : Keeps P s x5 := (bw_keeps (hP.of (by decide)) (modRing_keeps (hP.of (by decide)) h4))
  clear_value x5
  exact (Keeps.ite h0 (subsStart_keeps (hP.of (by decide)) h5))

theorem writePairs_keeps {o r} (hP : Within [.regs, .pts, .attrs, .held, .bad, .queues, .q0pend, .helm, .ax, .clu, .drv, .safe, .can, .boot] P) : ∀ {l : List Word} {t : State}, Keeps P s t → Keeps P s (writePairs o r l t)
  | [], _, h => h
  | [_], _, h => h
  | _ :: _ :: _, _, h => by unfold writePairs; exact writePairs_keeps hP (chartWrite_keeps (hP.of (by decide)) h)

theorem deliverMail_keeps {a1} (hP : Within [.regs, .pts, .attrs, .held, .bad, .queues, .q0pend, .helm, .ax, .clu, .drv, .safe, .can, .boot] P) (h0 : Keeps P s t) :
    Keeps P s (deliverMail a1 t) := by
  unfold deliverMail
  exact (Keeps.ite h0 (Keeps.ite (pushWhole_keeps (hP.of (by decide)) h0) (Keeps.ite (writePairs_keeps (hP.of (by decide)) h0) h0)))

theorem unfoldNow_keeps (hP : Within [.regs, .pts, .queues, .q0pend, .helm, .ax, .clu, .ring] P) (h0 : Keeps P s t) :
    Keeps P s (unfoldNow t) := by
  unfold unfoldNow
  extract_lets -merge -useContext x1 x2
  have h2 : Keeps P s x2 := (ringBit_keeps (hP.of (by decide)) (ringBit_keeps (hP.of (by decide)) (ringBit_keeps (hP.of (by decide)) (modRing_keeps (hP.of (by decide)) h0))))
  clear_value x2
  exact (Keeps.ite h0 (Keeps.ite (ev_keeps (hP.of (by decide)) (bw_keeps (hP.of (by decide)) h2)) h2))

theorem writeSlot_keeps {a1} (hP : Within [.regs, .pts, .attrs, .held, .bad, .queues, .q0pend, .helm, .ax, .clu, .drv, .safe, .can, .boot] P) (h0 : Keeps P s t) :
    Keeps P s (writeSlot a1 t) := by
  unfold writeSlot
  extract_lets -merge -useContext x1
  exact (forEach_keeps (fun _ _ h2 => (by
    extract_lets -merge -useContext x3
    exact (Keeps.ite (forEach_keeps (fun _ _ h4 => (by
      extract_lets -merge -useContext x5
      exact (chartWrite_keeps (hP.of (by decide)) h4))) h2) h2))) h0)

theorem handRecord_keeps {a1} (hP : Within [.regs, .pts, .queues, .q0pend, .helm, .ax, .gear, .clu] P) (h0 : Keeps P s t) :
    Keeps P s (handRecord a1 t) := by
  unfold handRecord
  extract_lets -merge -useContext x1 x2
  exact (Keeps.ite h0 (by
    split
    · exact (modGear_keeps (hP.of (by decide)) h0)
    · extract_lets -merge -useContext x3 x4
      have h4 : Keeps P s x4 := (modGear_keeps (hP.of (by decide)) h0)
      clear_value x4
      exact (Keeps.ite (raiseAx_keeps (hP.of (by decide)) h4) h4)))

theorem lostCheck_keeps (hP : Within [.regs, .pts, .queues, .q0pend, .helm, .ax, .clu, .ring] P) (h0 : Keeps P s t) :
    Keeps P s (lostCheck t) := by
  unfold lostCheck
  extract_lets -merge -useContext x1
  have h1 : Keeps P s x1 := (modRing_keeps (hP.of (by decide)) h0)
  clear_value x1
  exact (Keeps.ite (Keeps.ite (ev_keeps (hP.of (by decide)) h1) (raise_keeps (hP.of (by decide)) (ringBit_keeps (hP.of (by decide)) (ringBit_keeps (hP.of (by decide)) h1)))) h0)

theorem headerCheck_keeps (hP : Within [.regs, .pts, .queues, .q0pend, .helm, .ax, .clu, .ring] P) (h0 : Keeps P s t) :
    Keeps P s (headerCheck t) := by
  unfold headerCheck
  exact (Keeps.ite h0 (lostCheck_keeps (hP.of (by decide)) (modRing_keeps (hP.of (by decide)) (bwSat_keeps (hP.of (by decide)) h0))))

theorem steerDpll_keeps (hP : Within [.regs, .fresh] P) (h0 : Keeps P s t) :
    Keeps P s (steerDpll t) := by
  unfold steerDpll
  split
  rename_i x1 e1
  have h1 : Keeps P s x1 := Keeps.ofEq e1 (takeFresh_keeps (hP.of (by decide)) h0)
  exact (bw_keeps (hP.of (by decide)) h1)

theorem timeErrCheck_keeps (hP : Within [.regs, .pts, .queues, .q0pend, .helm, .ax, .clu, .ring] P) (h0 : Keeps P s t) :
    Keeps P s (timeErrCheck t) := by
  unfold timeErrCheck
  extract_lets -merge -useContext x1 x2
  have h2 : Keeps P s x2 := (ringBit_keeps (hP.of (by decide)) (modRing_keeps (hP.of (by decide)) h0))
  clear_value x2
  exact (Keeps.ite (raise_keeps (hP.of (by decide)) h2) h0)

theorem tlockCheck_keeps (hP : Within [.regs] P) (h0 : Keeps P s t) :
    Keeps P s (tlockCheck t) := by
  unfold tlockCheck
  exact (Keeps.ite (ringBit_keeps (hP.of (by decide)) h0) h0)

theorem timeCorrect_keeps (hP : Within [.regs, .pts, .queues, .q0pend, .helm, .fresh, .ax, .clu, .ring] P) (h0 : Keeps P s t) :
    Keeps P s (timeCorrect t) := by
  unfold timeCorrect
  split
  · exact (modRing_keeps (hP.of (by decide)) h0)
  · extract_lets -merge -useContext x1 x2 x3
    have h2 : Keeps P s x2 := (bw_keeps (hP.of (by decide)) (steerDpll_keeps (hP.of (by decide)) h0))
    clear_value x2
    exact (timeErrCheck_keeps (hP.of (by decide)) (tlockCheck_keeps (hP.of (by decide)) (modRing_keeps (hP.of (by decide)) h2)))

theorem ringBoundary_keeps {a1} (hP : Within [.regs, .pts, .attrs, .held, .bad, .queues, .q0pend, .helm, .fresh, .ax, .gear, .clu, .drv, .safe, .ring, .can, .boot] P) (h0 : Keeps P s t) :
    Keeps P s (ringBoundary a1 t) := by
  unfold ringBoundary
  extract_lets -merge -useContext x1 x2 x3 x4 x5 x6 x7 x8 x9
  have h1 : Keeps P s x1 := (modRing_keeps (hP.of (by decide)) h0)
  clear_value x1
  have h2 : Keeps P s x2 := (unfoldNow_keeps (hP.of (by decide)) (ringCommits_keeps (hP.of (by decide)) h1))
  clear_value x2
  have h4 : Keeps P s x4 := (forEach_keeps (fun _ _ h10 => (writeSlot_keeps (hP.of (by decide)) h10)) h2)
  clear_value x4
  have h5 : Keeps P s x5 := (forEach_keeps (fun _ _ h11 => (handRecord_keeps (hP.of (by decide)) h11)) h4)
  clear_value x5
  have h6 : Keeps P s x6 := (forEach_keeps (fun _ _ h12 => (deliverMail_keeps (hP.of (by decide)) h12)) h5)
  clear_value x6
  have h7 : Keeps P s x7 := (forEach_keeps (fun _ _ h13 => (bitmaps_keeps (hP.of (by decide)) h13)) h6)
  clear_value x7
  have h8 : Keeps P s x8 := (breakCheck_keeps (hP.of (by decide)) (headerCheck_keeps (hP.of (by decide)) (timeCorrect_keeps (hP.of (by decide)) h7)))
  clear_value x8
  have h9 : Keeps P s x9 := (modRing_keeps (hP.of (by decide)) h8)
  clear_value x9
  exact (Keeps.ite h0 (forEach_keeps (fun _ _ h14 => (raiseTrig_keeps (hP.of (by decide)) h14)) h9))

theorem startFail_keeps {a1} (hP : Within [.regs, .pts, .queues, .q0pend, .helm, .mot, .ax, .gear, .igrp, .homing, .loop, .clu, .drv, .adm, .pwr, .safe, .ring, .boot] P) (h0 : Keeps P s t) :
    Keeps P s (startFail a1 t) := by
  unfold startFail
  exact (bootFail_keeps (hP.of (by decide)) (modRing_keeps (hP.of (by decide)) h0))

theorem enumHome_keeps {a1} (hP : Within [.regs, .pts, .queues, .q0pend, .helm, .mot, .ax, .gear, .igrp, .homing, .loop, .clu, .drv, .adm, .pwr, .safe, .ring, .boot] P) (h0 : Keeps P s t) :
    Keeps P s (enumHome a1 t) := by
  unfold enumHome
  extract_lets -merge -useContext x1 x2 x3 x4 x5
  have h5 : Keeps P s x5 := (bw_keeps (hP.of (by decide)) (bw_keeps (hP.of (by decide)) (bw_keeps (hP.of (by decide)) h0)))
  clear_value x5
  exact (Keeps.ite (startFail_keeps (hP.of (by decide)) h5) (Keeps.ite (startFail_keeps (hP.of (by decide)) h5) (ringBit_keeps (hP.of (by decide)) (modRing_keeps (hP.of (by decide)) h5))))

theorem joinRefuse_keeps {a1} (hP : Within [.regs, .pts, .queues, .q0pend, .helm, .mot, .ax, .gear, .igrp, .homing, .loop, .clu, .drv, .adm, .pwr, .safe, .ring, .boot] P) (h0 : Keeps P s t) :
    Keeps P s (joinRefuse a1 t) := by
  unfold joinRefuse
  exact (bootFail_keeps (hP.of (by decide)) (ringBit_keeps (hP.of (by decide)) (modRing_keeps (hP.of (by decide)) h0)))

theorem enumMsg_keeps {a1 a2 a3} (hP : Within [.regs, .pts, .queues, .q0pend, .helm, .mot, .ax, .gear, .igrp, .homing, .loop, .clu, .drv, .adm, .pwr, .safe, .ring, .boot] P) (h0 : Keeps P s t) :
    Keeps P s (enumMsg a1 a2 a3 t) := by
  unfold enumMsg
  exact (Keeps.ite h0 (Keeps.ite (Keeps.ite (bootHalt_keeps (hP.of (by decide)) (raiseDev_keeps (hP.of (by decide)) (Keeps.ite (modRing_keeps (hP.of (by decide)) h0) h0))) (Keeps.ite (enumHome_keeps (hP.of (by decide)) h0) h0)) (Keeps.ite (Keeps.ite (joinRefuse_keeps (hP.of (by decide)) h0) (Keeps.ite (joinRefuse_keeps (hP.of (by decide)) h0) (modRing_keeps (hP.of (by decide)) (bw_keeps (hP.of (by decide)) h0)))) h0)))

theorem putLink_keeps {a1 a2} (hP : Within [.regs] P) (h0 : Keeps P s t) :
    Keeps P s (putLink a1 a2 t) := by
  unfold putLink
  extract_lets -merge -useContext x1
  exact (Keeps.ite (bw_keeps (hP.of (by decide)) h0) (bw_keeps (hP.of (by decide)) h0))

theorem portLock_keeps {a1 a2} (hP : Within [.regs, .ring] P) (h0 : Keeps P s t) :
    Keeps P s (portLock a1 a2 t) := by
  unfold portLock
  extract_lets -merge -useContext x1 x2
  have h1 : Keeps P s x1 := (putLink_keeps (hP.of (by decide)) (ringBit_keeps (hP.of (by decide)) h0))
  clear_value x1
  exact (Keeps.ite h0 (Keeps.ite (modRing_keeps (hP.of (by decide)) h1) h1))

theorem execPortLock_keeps {a1 a2 a3} (hP : Within [.now, .regs, .ring] P) (h0 : Keeps P s t) :
    Runs P s (execPortLock a1 a2 a3 t) := by
  unfold execPortLock
  exact (Runs.next (portLock_keeps (hP.of (by decide)) (atTime_keeps (hP.of (by decide)) h0)))

theorem execEnum_keeps {a1 a2 a3 a4} (hP : Within [.now, .regs, .pts, .queues, .q0pend, .helm, .mot, .ax, .gear, .igrp, .homing, .loop, .clu, .drv, .adm, .pwr, .safe, .ring, .boot] P) (h0 : Keeps P s t) :
    Runs P s (execEnum a1 a2 a3 a4 t) := by
  unfold execEnum
  exact (Runs.next (enumMsg_keeps (hP.of (by decide)) (atTime_keeps (hP.of (by decide)) h0)))

theorem execConfig_keeps {a1 a2} (hP : Within [.now, .regs, .pts, .queues, .q0pend, .helm, .ax, .clu, .ring, .boot] P) (h0 : Keeps P s t) :
    Runs P s (execConfig a1 a2 t) := by
  unfold execConfig
  exact (Runs.next (configMsg_keeps (hP.of (by decide)) (Keeps.ite (atTime_keeps (hP.of (by decide)) h0) h0)))

theorem ringZero_keeps {a1} (hP : Within [.regs, .ring] P) (h0 : Keeps P s t) :
    Keeps P s (ringZero a1 t) := by
  unfold ringZero
  exact (publish_keeps (hP.of (by decide)) (bwBit_keeps (hP.of (by decide)) (ringBit_keeps (hP.of (by decide)) (modRing_keeps (hP.of (by decide)) h0))))

theorem ringStartTimeout_keeps (hP : Within [.regs, .pts, .queues, .q0pend, .helm, .mot, .ax, .gear, .igrp, .homing, .loop, .clu, .drv, .adm, .pwr, .safe, .ring, .boot] P) (h0 : Keeps P s t) :
    Keeps P s (ringStartTimeout t) := by
  unfold ringStartTimeout
  extract_lets -merge -useContext x1
  exact (Keeps.ite (startFail_keeps (hP.of (by decide)) h0) h0)

theorem execRingStartFail_keeps {a1} (hP : Within [.now, .regs, .pts, .queues, .q0pend, .helm, .mot, .ax, .gear, .igrp, .homing, .loop, .clu, .drv, .adm, .pwr, .safe, .ring, .boot] P) (h0 : Keeps P s t) :
    Runs P s (execRingStartFail a1 t) := by
  unfold execRingStartFail
  exact (Runs.next (ringStartTimeout_keeps (hP.of (by decide)) (atTime_keeps (hP.of (by decide)) h0)))

theorem popWhole_keeps {q e} (hP : Within [.regs, .pts, .queues, .q0pend, .helm, .ax, .clu] P) : ∀ {k : Nat} {t : State} {r : List Word × State}, Keeps P s t →
    popWhole q e k t = some r → Keeps P s r.2
  | 0, _, _, _, h => by cases h
  | k + 1, t, r, h0, h => by
    have item : ∀ {w : Word} {side : Nat} {x : State}, Keeps P s x →
        (if side % 2 = 1 then some ([w], x) else (popWhole q 0 k x).map fun x => (w :: x.1, x.2)) = some r → Keeps P s r.2 := by
      intro w side x hx e
      split at e
      · cases e; exact hx
      · obtain ⟨y, hy, rfl⟩ := Option.map_eq_some_iff.mp e
        exact popWhole_keeps hP (r := y) hx hy
    unfold popWhole at h
    split at h
    · cases h
    · split at h
      rename_i r1 x1 e1
      have h1 : Keeps P s x1 := Keeps.ofEq e1 (popItem_keeps (hP.of (by decide)) h0)
      split at h
      · dsimp only at h
        split at h
        · rename_i e2
          exact item (Keeps.ofEq e2 (popItem_keeps (hP.of (by decide)) (queRefill_keeps (hP.of (by decide)) h1))) h
        · cases h
      · exact item h1 h

theorem insertMail_keeps {a1 a2} (hP : Within [.ring] P) (h0 : Keeps P s t) :
    Keeps P s (insertMail a1 a2 t).2 := by
  unfold insertMail
  extract_lets -merge -useContext x1 x2
  exact (Keeps.ite2 (Keeps.snd (modRing_keeps (hP.of (by decide)) h0)) (by
    split
    · extract_lets -merge -useContext x3
      exact (Keeps.snd (modRing_keeps (hP.of (by decide)) h0))))

theorem frameLaunch_keeps {a1} (hP : Within [.ring] P) (h0 : Keeps P s t) :
    Keeps P s (frameLaunch a1 t) := by
  unfold frameLaunch
  extract_lets -merge -useContext x1
  exact (Keeps.ite h0 (by
    split
    rename_i x2 e2
    have h2 : Keeps P s x2 := Keeps.ofEq e2 (insertMail_keeps (hP.of (by decide)) h0)
    split
    rename_i x3 e3
    have h3 : Keeps P s x3 := Keeps.ofEq e3 (insertMail_keeps (hP.of (by decide)) h2)
    extract_lets -merge -useContext x4 x5
    exact (modRing_keeps (hP.of (by decide)) h3)))

theorem execRingFrameLaunch_keeps {a1} (hP : Within [.now, .ring] P) (h0 : Keeps P s t) :
    Runs P s (execRingFrameLaunch a1 t) := by
  unfold execRingFrameLaunch
  exact (Runs.next (frameLaunch_keeps (hP.of (by decide)) (atTime_keeps (hP.of (by decide)) h0)))

theorem spanDown_keeps {a1} (hP : Within [.regs] P) (h0 : Keeps P s t) :
    Keeps P s (spanDown a1 t) := by
  unfold spanDown
  exact (Keeps.ite (ringBit_keeps (hP.of (by decide)) (ringBit_keeps (hP.of (by decide)) h0)) (Keeps.ite (ringBit_keeps (hP.of (by decide)) (ringBit_keeps (hP.of (by decide)) h0)) h0))

theorem headCount_keeps {a1 a2} (hP : Within [.regs, .ring] P) (h0 : Keeps P s t) :
    Keeps P s (headCount a1 a2 t) := by
  unfold headCount
  extract_lets -merge -useContext x1 x2
  have h2 : Keeps P s x2 := (modRing_keeps (hP.of (by decide)) h0)
  clear_value x2
  exact (Keeps.ite (spanDown_keeps (hP.of (by decide)) h2) h2)

theorem sent_keeps {a1} (hP : Within [.ring] P) (h0 : Keeps P s t) :
    Keeps P s (sent a1 t) := by
  unfold sent
  exact (modRing_keeps (hP.of (by decide)) h0)

theorem takeMail_keeps {a1} (hP : Within [.ring] P) (h0 : Keeps P s t) :
    Keeps P s (takeMail a1 t) := by
  unfold takeMail
  extract_lets -merge -useContext x1 x2 x3
  exact (modRing_keeps (hP.of (by decide)) h0)

theorem takeSlot_keeps {a1} (hP : Within [.regs, .pts, .queues, .q0pend, .helm, .ax, .clu, .ring] P) (h0 : Keeps P s t) :
    Keeps P s (takeSlot a1 t) := by
  unfold takeSlot
  exact (Keeps.ite h0 (Keeps.ite (evOnce_keeps (hP.of (by decide)) (bwSat_keeps (hP.of (by decide)) h0)) (by
    split
    · exact (Keeps.ite (modRing_keeps (hP.of (by decide)) h0) h0)
    · exact (modRing_keeps (hP.of (by decide)) h0))))

theorem frameHeader_keeps {a1 a2} (hP : Within [.regs, .ring] P) (h0 : Keeps P s t) :
    Keeps P s (frameHeader a1 a2 t) := by
  unfold frameHeader
  extract_lets -merge -useContext x1 x2 x3 x4 x5
  have h4 : Keeps P s x4 := (Keeps.ite h0 (ringBit_keeps (hP.of (by decide)) h0))
  clear_value x4
  have h5 : Keeps P s x5 := (Keeps.ite (ringBit_keeps (hP.of (by decide)) h4) h4)
  clear_value x5
  exact (modRing_keeps (hP.of (by decide)) h5)

theorem framePass_keeps {a1 a2} (hP : Within [.regs, .pts, .queues, .q0pend, .helm, .ax, .clu, .ring] P) (h0 : Keeps P s t) :
    Keeps P s (framePass a1 a2 t) := by
  unfold framePass
  extract_lets -merge -useContext x1 x2 x3 x4
  have h1 : Keeps P s x1 := (headCount_keeps (hP.of (by decide)) h0)
  clear_value x1
  have h2 : Keeps P s x2 := (Keeps.ite (raiseDev_keeps (hP.of (by decide)) (ringBit_keeps (hP.of (by decide)) (modRing_keeps (hP.of (by decide)) h1))) h1)
  clear_value x2
  have h3 : Keeps P s x3 := (Keeps.ite (takeMail_keeps (hP.of (by decide)) (forEach_keeps (fun _ _ h5 => (takeSlot_keeps (hP.of (by decide)) h5)) (frameHeader_keeps (hP.of (by decide)) h1))) h1)
  clear_value x3
  exact (Keeps.ite h1 (Keeps.ite (sent_keeps (hP.of (by decide)) h2) (Keeps.ite h3 (Keeps.ite (sent_keeps (hP.of (by decide)) h3) (by
    split
    rename_i x6 e6
    have h6 : Keeps P s x6 := Keeps.ofEq e6 (insertMail_keeps (hP.of (by decide)) h3)
    exact (modRing_keeps (hP.of (by decide)) (sent_keeps (hP.of (by decide)) h6)))))))

theorem execRingFramePass_keeps {a1 a2 a3} (hP : Within [.now, .regs, .pts, .queues, .q0pend, .helm, .ax, .clu, .ring] P) (h0 : Keeps P s t) :
    Runs P s (execRingFramePass a1 a2 a3 t) := by
  unfold execRingFramePass
  exact (Runs.next (framePass_keeps (hP.of (by decide)) (atTime_keeps (hP.of (by decide)) h0)))

theorem execRingWatchBoundary_keeps {a1} (hP : Within [.now, .regs, .pts, .attrs, .held, .bad, .queues, .q0pend, .helm, .fresh, .ax, .gear, .clu, .drv, .safe, .ring, .can, .boot] P) (h0 : Keeps P s t) :
    Runs P s (execRingWatchBoundary a1 t) := by
  unfold execRingWatchBoundary
  exact (Runs.next (ringBoundary_keeps (hP.of (by decide)) (atTime_keeps (hP.of (by decide)) h0)))

theorem mailRefuse_keeps {a1} (hP : Within [.regs, .pts, .queues, .q0pend, .helm, .ax, .clu] P) (h0 : Keeps P s t) :
    Keeps P s (mailRefuse a1 t) := by
  unfold mailRefuse
  exact (ev_keeps (hP.of (by decide)) (bwSat_keeps (hP.of (by decide)) h0))

theorem mailTake_keeps {a1} (hP : Within [.regs, .pts, .queues, .q0pend, .helm, .ax, .clu, .ring] P) (h0 : Keeps P s t) : Keeps P s (mailTake a1 t) := by
  unfold mailTake
  refine Keeps.ite h0 ?_
  split
  · exact h0
  · rename_i e
    exact popWhole_keeps (hP.of (by decide)) h0 e
  · rename_i e
    have hx := popWhole_keeps (hP.of (by decide)) h0 e
    exact Keeps.ite (mailRefuse_keeps (hP.of (by decide)) hx) (modRing_keeps (hP.of (by decide)) hx)

theorem execMailboxPacketTake_keeps {a1 a2} (hP : Within [.now, .regs, .pts, .queues, .q0pend, .helm, .ax, .clu, .ring] P) (h0 : Keeps P s t) :
    Runs P s (execMailboxPacketTake a1 a2 t) := by
  unfold execMailboxPacketTake
  exact (Runs.next (mailTake_keeps (hP.of (by decide)) (atTime_keeps (hP.of (by decide)) h0)))

theorem execSpanDown_keeps {a1 a2} (hP : Within [.now, .regs] P) (h0 : Keeps P s t) :
    Runs P s (execSpanDown a1 a2 t) := by
  unfold execSpanDown
  exact (Runs.next (spanDown_keeps (hP.of (by decide)) (atTime_keeps (hP.of (by decide)) h0)))

theorem spanRelock_keeps {a1 a2} (hP : Within [.regs, .ring] P) (h0 : Keeps P s t) :
    Keeps P s (spanRelock a1 a2 t) := by
  unfold spanRelock
  extract_lets -merge -useContext x1
  have h1 : Keeps P s x1 := (Keeps.ite (putLink_keeps (hP.of (by decide)) (ringBit_keeps (hP.of (by decide)) h0)) h0)
  clear_value x1
  exact (Keeps.ite (modRing_keeps (hP.of (by decide)) h1) h1)

theorem execSpanRelock_keeps {a1 a2 a3} (hP : Within [.now, .regs, .ring] P) (h0 : Keeps P s t) :
    Runs P s (execSpanRelock a1 a2 a3 t) := by
  unfold execSpanRelock
  exact (Runs.next (spanRelock_keeps (hP.of (by decide)) (atTime_keeps (hP.of (by decide)) h0)))

theorem execRingLost_keeps {a1} (hP : Within [.now, .regs, .pts, .queues, .q0pend, .helm, .ax, .clu, .ring] P) (h0 : Keeps P s t) :
    Runs P s (execRingLost a1 t) := by
  unfold execRingLost
  exact (Runs.next (lostCheck_keeps (hP.of (by decide)) (atTime_keeps (hP.of (by decide)) h0)))

theorem execRingStale_keeps {a1 a2} (hP : Within [.now, .regs, .pts, .queues, .q0pend, .helm, .ax, .clu] P) (h0 : Keeps P s t) :
    Runs P s (execRingStale a1 a2 t) := by
  unfold execRingStale
  exact (Runs.next (staleCheck_keeps (hP.of (by decide)) (atTime_keeps (hP.of (by decide)) h0)))

theorem execTlock_keeps {a1} (hP : Within [.now, .regs] P) (h0 : Keeps P s t) :
    Runs P s (execTlock a1 t) := by
  unfold execTlock
  exact (Runs.next (tlockCheck_keeps (hP.of (by decide)) (atTime_keeps (hP.of (by decide)) h0)))

theorem execRingTimeErr_keeps {a1} (hP : Within [.now, .regs, .pts, .queues, .q0pend, .helm, .ax, .clu, .ring] P) (h0 : Keeps P s t) :
    Runs P s (execRingTimeErr a1 t) := by
  unfold execRingTimeErr
  exact (Runs.next (timeErrCheck_keeps (hP.of (by decide)) (atTime_keeps (hP.of (by decide)) h0)))

end Sys2Proof.Machine
end

