-- ==== Sys2Proof/Laws/KeepsCommit.lean ====
section
/-!
SUPPORT. What the operations of Machine/Commit.lean may touch, and that they keep the canonical form: one lemma per operation.
-/
namespace Sys2Proof.Machine

variable {P : List Part} {s t : State}

theorem armCommit_keeps {a1 a2} (hP : Within [.regs] P) (h0 : Keeps P s t) :
    Keeps P s (armCommit a1 a2 t) := by
  unfold armCommit
  exact (Keeps.ite (bwBit_keeps (hP.of (by decide)) h0) (Keeps.ite (bwBit_keeps (hP.of (by decide)) h0) h0))

theorem boundPut_keeps {a1 a2 a3 a4} (hP : Within [.regs] P) (h0 : Keeps P s t) :
    Keeps P s (boundPut a1 a2 a3 a4 t) := by
  unfold boundPut
  exact (Keeps.ite h0 (by
    split
    · exact (Keeps.ite h0 (iw_keeps (hP.of (by decide)) h0))
    · exact h0))

theorem commitNow_keeps {a1} (hP : Within [.regs, .pts, .queues, .q0pend, .helm, .ax, .clu, .can] P) (h0 : Keeps P s t) :
    Keeps P s (commitNow a1 t) := by
  unfold commitNow
  split
  · exact (forEach_keeps (fun _ _ h1 => (queCommit_keeps (hP.of (by decide)) h1)) h0)
  · exact (canCommits_keeps (hP.of (by decide)) h0)
  · exact (canCommits_keeps (hP.of (by decide)) h0)
  · exact (Keeps.ite h0 (ringCommits_keeps (hP.of (by decide)) h0))
  · exact h0

theorem boundCopies_keeps {a1} (hP : Within [.regs, .pts, .attrs, .queues, .q0pend, .helm, .ax, .clu, .can] P) (h0 : Keeps P s t) :
    Keeps P s (boundCopies a1 t) := by
  unfold boundCopies
  extract_lets -merge -useContext x1 x2 x3 x4
  have h2 : Keeps P s x2 := (forEach_keeps (fun _ _ h5 => (by
    extract_lets -merge -useContext x6
    have h6 : Keeps P s x6 := (by
      unfold x6
      split
      · exact (boundPut_keeps (hP.of (by decide)) h5)
      · exact h5)
    clear_value x6
    exact (setAttr_keeps (hP.of (by decide)) h6))) h0)
  clear_value x2
  have h4 : Keeps P s x4 := (forEach_keeps (fun _ _ h7 => (armCommit_keeps (hP.of (by decide)) h7)) h2)
  clear_value x4
  exact (forEach_keeps (fun _ _ h8 => (commitNow_keeps (hP.of (by decide)) h8)) h4)

end Sys2Proof.Machine
end

