-- ==== Sys2Proof/Laws/KeepsWatch.lean ====
section
/-!
SUPPORT. What the operations of Machine/Watch.lean may touch, and that they keep the canonical form: one lemma per operation.
-/
namespace Sys2Proof.Machine

variable {P : List Part} {s t : State}

theorem stepOne_keeps {a1 a2} (hP : Within [.regs, .pts, .attrs, .held, .bad, .queues, .q0pend, .helm, .fresh, .ax, .gear, .clu, .drv, .safe, .ring, .can, .boot] P) (h0 : Keeps P s t) :
    Keeps P s (stepOne a1 a2 t) := by
  unfold stepOne
  exact (Keeps.ite (ringBoundary_keeps (hP.of (by decide)) h0) h0)

theorem periodPart_keeps {a1 a2} (hP : Within [.regs, .pts, .queues, .q0pend, .helm, .ax, .pwmA, .pwmG, .pinsLow, .clu, .sdm, .drv] P) (h0 : Keeps P s t) :
    Keeps P s (periodPart a1 a2 t) := by
  unfold periodPart
  extract_lets -merge -useContext x1 x2
  have h1 : Keeps P s x1 := (modPg_keeps (hP.of (by decide)) h0)
  clear_value x1
  have h2 : Keeps P s x2 := (sdmCommits_keeps (hP.of (by decide)) (pwmBoundary_keeps (hP.of (by decide)) h1))
  clear_value x2
  exact (Keeps.ite (Keeps.ite (stepTabCommits_keeps (hP.of (by decide)) h2) h2) h0)

theorem serve_keeps {a1 a2} (hP : Within [.pwmG] P) (h0 : Keeps P s t) :
    Keeps P s (serve a1 a2 t) := by
  unfold serve
  extract_lets -merge -useContext x1
  exact (modPg_keeps (hP.of (by decide)) h0)

theorem runningBoundary_keeps {a1 a2} (hP : Within [.regs, .pts, .attrs, .held, .bad, .queues, .q0pend, .helm, .fresh, .mot, .ax, .gear, .sup, .env, .igrp, .homing, .stp, .pwmA, .pwmG, .pinsLow, .loop, .clu, .sdm, .drv, .adm, .safe, .ring, .can, .boot] P) (h0 : Keeps P s t) :
    Keeps P s (runningBoundary a1 a2 t) := by
  unfold runningBoundary
  extract_lets -merge -useContext x1 x2 x3 x4 x5
  have h1 : Keeps P s x1 := (stepOne_keeps (hP.of (by decide)) h0)
  clear_value x1
  have h2 : Keeps P s x2 := (periodPart_keeps (hP.of (by decide)) (boundCopies_keeps (hP.of (by decide)) h1))
  clear_value x2
  have h3 : Keeps P s x3 := (modPg_keeps (hP.of (by decide)) h2)
  clear_value x3
  have h5 : Keeps P s x5 := (refsActive_keeps (hP.of (by decide)) (watchCommits_keeps (hP.of (by decide)) h3))
  clear_value x5
  exact (Keeps.ite (serve_keeps (hP.of (by decide)) (profileEngine_keeps (hP.of (by decide)) h5)) h0)

theorem stoppedWork_keeps {a1 a2} (hP : Within [.regs, .pts, .attrs, .held, .bad, .queues, .q0pend, .helm, .fresh, .mot, .ax, .gear, .sup, .env, .igrp, .homing, .pwmA, .pwmG, .pinsLow, .loop, .clu, .sdm, .drv, .adm, .safe, .ring, .can, .boot] P) (h0 : Keeps P s t) :
    Keeps P s (stoppedWork a1 a2 t) := by
  unfold stoppedWork
  extract_lets -merge -useContext x1 x2
  have h1 : Keeps P s x1 := (sdmCommits_keeps (hP.of (by decide)) (pwmCommits_keeps (hP.of (by decide)) (boundCopies_keeps (hP.of (by decide)) (ringBoundary_keeps (hP.of (by decide)) h0))))
  clear_value x1
  have h2 : Keeps P s x2 := (modPg_keeps (hP.of (by decide)) h1)
  clear_value x2
  exact (Keeps.ite (stoppedAxes_keeps (hP.of (by decide)) (watchCommits_keeps (hP.of (by decide)) h2)) h0)

theorem stoppedBoundary_keeps {a1 a2} (hP : Within [.regs, .pts, .attrs, .held, .bad, .queues, .q0pend, .helm, .fresh, .mot, .ax, .gear, .sup, .env, .igrp, .homing, .pwmA, .pwmG, .pinsLow, .loop, .clu, .sdm, .drv, .adm, .safe, .ring, .can, .boot] P) (h0 : Keeps P s t) :
    Keeps P s (stoppedBoundary a1 a2 t) := by
  unfold stoppedBoundary
  exact (Keeps.ite (stoppedWork_keeps (hP.of (by decide)) h0) h0)

theorem watchBoundary_keeps {a1 a2} (hP : Within [.regs, .pts, .attrs, .held, .bad, .queues, .q0pend, .helm, .fresh, .mot, .ax, .gear, .sup, .env, .igrp, .homing, .stp, .pwmA, .pwmG, .pinsLow, .loop, .clu, .sdm, .drv, .adm, .safe, .ring, .can, .boot] P) (h0 : Keeps P s t) :
    Keeps P s (watchBoundary a1 a2 t) := by
  unfold watchBoundary
  exact (Keeps.ite (Keeps.ite (forEach_keeps (fun _ _ h1 => (publish_keeps (hP.of (by decide)) (runningBoundary_keeps (hP.of (by decide)) h1))) h0) (publish_keeps (hP.of (by decide)) h0)) (publish_keeps (hP.of (by decide)) (stoppedBoundary_keeps (hP.of (by decide)) h0)))

theorem periodBoundary_keeps {a1 a2} (hP : Within [.regs, .pts, .attrs, .held, .bad, .queues, .q0pend, .helm, .fresh, .ax, .gear, .pwmA, .pwmG, .pinsLow, .clu, .sdm, .drv, .safe, .ring, .can, .boot] P) (h0 : Keeps P s t) :
    Keeps P s (periodBoundary a1 a2 t) := by
  unfold periodBoundary
  extract_lets -merge -useContext x1
  have h1 : Keeps P s x1 := (stepOne_keeps (hP.of (by decide)) h0)
  clear_value x1
  exact (periodPart_keeps (hP.of (by decide)) (Keeps.ite (boundCopies_keeps (hP.of (by decide)) h1) h1))

theorem execPeriodBoundary_keeps {a1 a2} (hP : Within [.now, .regs, .pts, .attrs, .held, .bad, .queues, .q0pend, .helm, .fresh, .ax, .gear, .pwmA, .pwmG, .pinsLow, .clu, .sdm, .drv, .safe, .ring, .can, .boot] P) (h0 : Keeps P s t) :
    Runs P s (execPeriodBoundary a1 a2 t) := by
  unfold execPeriodBoundary
  exact (Runs.next (periodBoundary_keeps (hP.of (by decide)) (atTime_keeps (hP.of (by decide)) h0)))

theorem periodCentre_keeps {a1 a2 a3} (hP : Within [.regs, .pts, .queues, .q0pend, .helm, .ax, .homing, .stp, .clu, .enc, .cmpPins, .sdm] P) (h0 : Keeps P s t) :
    Keeps P s (periodCentre a1 a2 a3 t) := by
  unfold periodCentre
  extract_lets -merge -useContext x1 x2 x3
  have h3 : Keeps P s x3 := (forEach_keeps (fun _ _ h4 => (encCentre_keeps (hP.of (by decide)) h4)) h0)
  clear_value x3
  exact (Keeps.ite (forEach_keeps (fun _ _ h5 => (by
    extract_lets -merge -useContext x6 x7
    have h6 : Keeps P s x6 := (sdAxis_keeps (hP.of (by decide)) h5)
    clear_value x6
    split
    · split
      rename_i x9 _ _ _ e9
      have h9 : Keeps P s x9 := Keeps.ofEq1 e9 (Keeps.ite1 (by
        split
        rename_i x8 _ e8
        have h8 : Keeps P s x8 := Keeps.ofEq1 e8 (stepEvaluate_keeps (hP.of (by decide)) h6)
        exact (Keeps.ite1 (Keeps.fst h8) (Keeps.fst h8))) (Keeps.fst h6))
      extract_lets -merge -useContext x10
      exact (writeSample_keeps (hP.of (by decide)) h9))) h3) (Keeps.ite h0 (forEach_keeps (fun _ _ h11 => (sdIdle_keeps (hP.of (by decide)) h11)) h0)))

theorem execPeriodCentre_keeps {a1 a2 a3} (hP : Within [.now, .regs, .pts, .queues, .q0pend, .helm, .ax, .homing, .stp, .clu, .enc, .cmpPins, .sdm] P) (h0 : Keeps P s t) :
    Runs P s (execPeriodCentre a1 a2 a3 t) := by
  unfold execPeriodCentre
  exact (Runs.next (periodCentre_keeps (hP.of (by decide)) (encTime_keeps (hP.of (by decide)) h0)))

theorem pwmCentreTrigger_keeps {a1 a2} (hP : Within [.regs, .pts, .queues, .clu] P) (h0 : Keeps P s t) :
    Keeps P s (pwmCentreTrigger a1 a2 t) := by
  unfold pwmCentreTrigger
  extract_lets -merge -useContext x1 x2
  exact (Keeps.ite (raiseTrig_keeps (hP.of (by decide)) (modClu_keeps (hP.of (by decide)) h0)) h0)

theorem execPwmCentreTrigger_keeps {a1 a2} (hP : Within [.now, .regs, .pts, .queues, .clu] P) (h0 : Keeps P s t) :
    Runs P s (execPwmCentreTrigger a1 a2 t) := by
  unfold execPwmCentreTrigger
  exact (Runs.next (pwmCentreTrigger_keeps (hP.of (by decide)) (atTime_keeps (hP.of (by decide)) h0)))

theorem execWatchBoundary_keeps {a1 a2} (hP : Within [.now, .regs, .pts, .attrs, .held, .bad, .queues, .q0pend, .helm, .fresh, .mot, .ax, .gear, .sup, .env, .igrp, .homing, .stp, .pwmA, .pwmG, .pinsLow, .loop, .clu, .sdm, .drv, .adm, .safe, .ring, .can, .boot] P) (h0 : Keeps P s t) :
    Runs P s (execWatchBoundary a1 a2 t) := by
  unfold execWatchBoundary
  exact (Runs.next (watchBoundary_keeps (hP.of (by decide)) (atTime_keeps (hP.of (by decide)) h0)))

theorem execLateWatch_keeps {a1 a2} (hP : Within [.now, .regs, .pts, .queues, .q0pend, .helm, .mot, .ax, .gear, .igrp, .homing, .pwmA, .loop, .clu, .drv, .adm] P) (h0 : Keeps P s t) :
    Runs P s (execLateWatch a1 a2 t) := by
  unfold execLateWatch
  extract_lets -merge -useContext x1
  have h1 : Keeps P s x1 := (atTime_keeps (hP.of (by decide)) h0)
  clear_value x1
  exact (Runs.next (Keeps.ite h1 (lateWatchCheck_keeps (hP.of (by decide)) h1)))

theorem watchTrigger_keeps {a1 a2} (hP : Within [.regs, .pts, .queues, .pwmG, .clu] P) (h0 : Keeps P s t) :
    Keeps P s (watchTrigger a1 a2 t) := by
  unfold watchTrigger
  extract_lets -merge -useContext x1 x2
  have h2 : Keeps P s x2 := (modPg_keeps (hP.of (by decide)) h0)
  clear_value x2
  split
  · exact (Keeps.ite (raiseTrig_keeps (hP.of (by decide)) (modClu_keeps (hP.of (by decide)) h2)) h0)
  · exact h0

theorem execWatchTrigger_keeps {a1 a2} (hP : Within [.now, .regs, .pts, .queues, .pwmG, .clu] P) (h0 : Keeps P s t) :
    Runs P s (execWatchTrigger a1 a2 t) := by
  unfold execWatchTrigger
  exact (Runs.next (watchTrigger_keeps (hP.of (by decide)) (atTime_keeps (hP.of (by decide)) h0)))

end Sys2Proof.Machine
end

