-- ==== Sys2Proof/Laws/KeepsBus.lean ====
section
/-!
SUPPORT. What the operations of Machine/Bus.lean may touch, and that they keep the canonical form: one lemma per operation.
-/
namespace Sys2Proof.Machine

variable {P : List Part} {s t : State}

theorem progErr_keeps {a1} (hP : Within [.regs] P) (h0 : Keeps P s t) :
    Keeps P s (progErr a1 t) := by
  unfold progErr
  exact (sw_keeps (hP.of (by decide)) h0)

theorem markLatch_keeps {a1 a2} (hP : Within [.regs] P) (h0 : Keeps P s t) :
    Keeps P s (markLatch a1 a2 t) := by
  unfold markLatch
  extract_lets -merge -useContext x1
  exact (Keeps.ite (Keeps.ite (setStat_keeps (hP.of (by decide)) h0) (Keeps.ite (setStat_keeps (hP.of (by decide)) h0) h0)) h0)

theorem takeSnap_keeps {a1 a2 a3} (hP : Within [.snaps] P) (h0 : Keeps P s t) :
    Keeps P s (takeSnap a1 a2 a3 t) := by
  unfold takeSnap
  extract_lets -merge -useContext x1
  exact (Keeps.upd h0 (by intro p hp; cases p <;> first | exact absurd (hP _ (by decide)) hp | rfl) ⟨rfl, rfl, rfl, rfl⟩)

theorem regRead_keeps {a1 a2} (hP : Within [.regs, .snaps] P) (h0 : Keeps P s t) :
    Keeps P s (regRead a1 a2 t).2 := by
  unfold regRead
  split
  · exact (Keeps.snd h0)
  · exact (Keeps.ite2 (Keeps.snd h0) (by
      split
      · exact (Keeps.snd h0)
      · exact (Keeps.ite2 (Keeps.snd (markLatch_keeps (hP.of (by decide)) (takeSnap_keeps (hP.of (by decide)) h0))) (by
          split
          · exact (Keeps.snd h0)
          · exact (Keeps.snd h0)))))

theorem readAt_keeps {a1 a2 a3} (hP : Within [.regs, .pts, .attrs, .snaps, .mem, .bad, .queues, .q0pend, .helm, .ax, .clu] P) (h0 : Keeps P s t) :
    Keeps P s (readAt a1 a2 a3 t).2 := by
  unfold readAt
  extract_lets -merge -useContext x1 x2 x3
  exact (Keeps.ite2 (Keeps.snd (chartRead_keeps (hP.of (by decide)) h0)) (Keeps.ite2 (by
    split
    rename_i x4 e4
    have h4 : Keeps P s x4 := Keeps.ofEq e4 (eccRead_keeps (hP.of (by decide)) h0)
    exact (Keeps.snd (Keeps.snd h4))) (Keeps.ite2 (by
    split
    rename_i x5 e5
    have h5 : Keeps P s x5 := Keeps.ofEq e5 (eccRead_keeps (hP.of (by decide)) h0)
    exact (Keeps.snd (Keeps.snd h5))) (Keeps.ite2 (Keeps.ite2 (Keeps.ite2 (Keeps.snd (Keeps.snd h0)) (Keeps.snd (Keeps.snd (progErr_keeps (hP.of (by decide)) h0)))) (Keeps.ite2 (Keeps.snd (Keeps.snd h0)) (Keeps.ite2 (Keeps.snd (Keeps.snd h0)) (Keeps.snd (regRead_keeps (hP.of (by decide)) h0))))) (by
    split
    · exact (popItem_keeps (hP.of (by decide)) h0)
    · exact (Keeps.snd (regRead_keeps (hP.of (by decide)) h0)))))))

theorem busRead_keeps {a1 a2 a3} (hP : Within [.regs, .pts, .attrs, .held, .snaps, .mem, .bad, .queues, .q0pend, .helm, .ax, .clu, .drv, .safe, .boot] P) (h0 : Keeps P s t) :
    Keeps P s (busRead a1 a2 a3 t).2 := by
  unfold busRead
  split
  rename_i x1 e1
  have h1 : Keeps P s x1 := Keeps.ofEq e1 (access_keeps (hP.of (by decide)) h0)
  exact (Keeps.ite2 (readAt_keeps (hP.of (by decide)) h1) (Keeps.snd h1))

theorem commitWrite_keeps {a1 a2 a3} (hP : Within [.regs, .pts, .queues, .q0pend, .helm, .ax, .clu, .can] P) (h0 : Keeps P s t) :
    Keeps P s (commitWrite a1 a2 a3 t) := by
  unfold commitWrite
  extract_lets -merge -useContext x1 x2
  exact (Keeps.ite h0 (Keeps.ite h0 (commitNow_keeps (hP.of (by decide)) (wr_keeps (hP.of (by decide)) h0))))

theorem chronInit_keeps {a1} (hP : Within [.now, .regs, .pts, .queues, .q0pend, .helm, .ax, .clu, .boot] P) (h0 : Keeps P s t) :
    Keeps P s (chronInit a1 t) := by
  unfold chronInit
  extract_lets -merge -useContext x1 x2 x3
  have h1 : Keeps P s x1 := (bw_keeps (hP.of (by decide)) h0)
  clear_value x1
  exact (Keeps.ite (ev_keeps (hP.of (by decide)) h1) (Keeps.ite (ev_keeps (hP.of (by decide)) h1) (modBoot_keeps (hP.of (by decide)) (Keeps.upd h1 (by intro p hp; cases p <;> first | exact absurd (hP _ (by decide)) hp | rfl) ⟨rfl, rfl, rfl, rfl⟩))))

theorem chronTrim_keeps {a1} (hP : Within [.regs] P) (h0 : Keeps P s t) :
    Keeps P s (chronTrim a1 t) := by
  unfold chronTrim
  extract_lets -merge -useContext x1 x2
  have h2 : Keeps P s x2 := (bw_keeps (hP.of (by decide)) h0)
  clear_value x2
  exact (Keeps.ite h2 (bw_keeps (hP.of (by decide)) (bwBit_keeps (hP.of (by decide)) h2)))

theorem plainWrite_keeps {a1 a2 a3} (hP : Within [.regs] P) (h0 : Keeps P s t) :
    Keeps P s (plainWrite a1 a2 a3 t) := by
  unfold plainWrite
  extract_lets -merge -useContext x1 x2 x3
  exact (wr_keeps (hP.of (by decide)) h0)

theorem sxCtrl_keeps {a1 a2} (hP : Within [.regs, .clu] P) (h0 : Keeps P s t) :
    Keeps P s (sxCtrl a1 a2 t) := by
  unfold sxCtrl
  extract_lets -merge -useContext x1
  have h1 : Keeps P s x1 := (sw_keeps (hP.of (by decide)) h0)
  clear_value x1
  exact (Keeps.ite (cluRestart_keeps (hP.of (by decide)) h1) h1)

theorem sxProbe_keeps {a1 a2} (hP : Within [.regs] P) (h0 : Keeps P s t) :
    Keeps P s (sxProbe a1 a2 t) := by
  unfold sxProbe
  exact (sw_keeps (hP.of (by decide)) (sw_keeps (hP.of (by decide)) h0))

theorem regWrite_keeps {a1 a2 a3} (hP : Within [.now, .regs, .pts, .queues, .q0pend, .helm, .ax, .homing, .pwmA, .pwmG, .clu, .cmpPins, .drv, .can, .boot] P) (h0 : Keeps P s t) :
    Keeps P s (regWrite a1 a2 a3 t) := by
  unfold regWrite
  split
  · exact (Keeps.ite (wr_keeps (hP.of (by decide)) h0) h0)
  · extract_lets -merge -useContext x1 x2 x3
    have h3 : Keeps P s x3 := (plainWrite_keeps (hP.of (by decide)) h0)
    clear_value x3
    exact (Keeps.ite h0 (Keeps.ite (commitWrite_keeps (hP.of (by decide)) h0) (by
      split
      · exact (bw_keeps (hP.of (by decide)) h0)
      · exact (chronInit_keeps (hP.of (by decide)) h0)
      · exact (chronTrim_keeps (hP.of (by decide)) h0)
      · exact (protLock_keeps (hP.of (by decide)) h0)
      · exact (Keeps.ite h0 (plainWrite_keeps (hP.of (by decide)) h0))
      · exact (Keeps.ite (pushItem_keeps (hP.of (by decide)) h0) (Keeps.ite h0 (plainWrite_keeps (hP.of (by decide)) h0)))
      · exact (swTrig_keeps (hP.of (by decide)) h0)
      · exact (loadClr_keeps (hP.of (by decide)) h0)
      · exact (swLatch_keeps (hP.of (by decide)) h0)
      · exact (encArm_keeps (hP.of (by decide)) h0)
      · exact (Keeps.ite (cmpPinSet_keeps (hP.of (by decide)) h3) h3)
      · exact (tripClrWrite_keeps (hP.of (by decide)) h0)
      · exact (forceWrite_keeps (hP.of (by decide)) h0)
      · exact (dsClr_keeps (hP.of (by decide)) h0)
      · exact (drvRbWrite_keeps (hP.of (by decide)) h0)
      · exact (fioForce_keeps (hP.of (by decide)) h0)
      · exact (canCtrl_keeps (hP.of (by decide)) h0)
      · exact (canCtrl_keeps (hP.of (by decide)) h0)
      · exact (Keeps.ite (txReq_keeps (hP.of (by decide)) h0) (plainWrite_keeps (hP.of (by decide)) h0))
      · exact (Keeps.ite (txReq_keeps (hP.of (by decide)) h0) (plainWrite_keeps (hP.of (by decide)) h0))
      · exact (sxCtrl_keeps (hP.of (by decide)) h0)
      · exact (sxProbe_keeps (hP.of (by decide)) h0)
      · exact (plainWrite_keeps (hP.of (by decide)) h0))))

theorem writeAt_keeps {a1 a2 a3} (hP : Within [.now, .regs, .pts, .attrs, .mem, .bad, .queues, .q0pend, .helm, .ax, .homing, .pwmA, .pwmG, .clu, .cmpPins, .drv, .can, .boot] P) (h0 : Keeps P s t) :
    Keeps P s (writeAt a1 a2 a3 t) := by
  unfold writeAt
  extract_lets -merge -useContext x1 x2 x3
  exact (Keeps.ite h0 (Keeps.ite (setBad_keeps (hP.of (by decide)) (setAttr_keeps (hP.of (by decide)) h0)) (Keeps.ite (setBad_keeps (hP.of (by decide)) (writeWord_keeps (hP.of (by decide)) h0)) (Keeps.ite (Keeps.ite (Keeps.ite (modClu_keeps (hP.of (by decide)) h0) (progErr_keeps (hP.of (by decide)) h0)) (Keeps.ite (putX_keeps (hP.of (by decide)) h0) (Keeps.ite (modClu_keeps (hP.of (by decide)) h0) (regWrite_keeps (hP.of (by decide)) h0)))) (regWrite_keeps (hP.of (by decide)) h0)))))

theorem busWrite_keeps {a1 a2 a3 a4} (hP : Within [.now, .regs, .pts, .attrs, .held, .mem, .bad, .queues, .q0pend, .helm, .ax, .homing, .pwmA, .pwmG, .clu, .cmpPins, .drv, .safe, .can, .boot] P) (h0 : Keeps P s t) :
    Keeps P s (busWrite a1 a2 a3 a4 t) := by
  unfold busWrite
  exact (Keeps.ite (chartWrite_keeps (hP.of (by decide)) h0) (by
    split
    rename_i x1 e1
    have h1 : Keeps P s x1 := Keeps.ofEq e1 (access_keeps (hP.of (by decide)) h0)
    exact (Keeps.ite (writeAt_keeps (hP.of (by decide)) h1) h1)))

theorem execSxRun_keeps {a1 a2 a3 a4} (hP : Within [.now, .regs, .pts, .attrs, .held, .mem, .bad, .queues, .q0pend, .helm, .ax, .homing, .pwmA, .pwmG, .clu, .cmpPins, .drv, .safe, .can, .boot] P) (h0 : Keeps P s t) :
    Runs P s (execSxRun a1 a2 a3 a4 t) := by
  unfold execSxRun
  exact (Runs.next (busWrite_keeps (hP.of (by decide)) (atTime_keeps (hP.of (by decide)) h0)))

theorem execSxRestart_keeps {a1 a2 a3 a4} (hP : Within [.now, .regs, .pts, .attrs, .held, .mem, .bad, .queues, .q0pend, .helm, .ax, .homing, .pwmA, .pwmG, .clu, .cmpPins, .drv, .safe, .can, .boot] P) (h0 : Keeps P s t) :
    Runs P s (execSxRestart a1 a2 a3 a4 t) := by
  unfold execSxRestart
  exact (Runs.next (busWrite_keeps (hP.of (by decide)) (atTime_keeps (hP.of (by decide)) h0)))

theorem execSxProbeWrite_keeps {a1 a2 a3 a4} (hP : Within [.now, .regs, .pts, .attrs, .held, .mem, .bad, .queues, .q0pend, .helm, .ax, .homing, .pwmA, .pwmG, .clu, .cmpPins, .drv, .safe, .can, .boot] P) (h0 : Keeps P s t) :
    Runs P s (execSxProbeWrite a1 a2 a3 a4 t) := by
  unfold execSxProbeWrite
  exact (Runs.next (busWrite_keeps (hP.of (by decide)) (atTime_keeps (hP.of (by decide)) h0)))

theorem execSnapshotRead_keeps {a1 a2 a3} (hP : Within [.now, .regs, .pts, .attrs, .held, .snaps, .mem, .bad, .busData, .queues, .sides, .stalls, .q0pend, .helm, .ax, .homing, .clu, .enc, .cmpPins, .drv, .safe, .boot] P) (h0 : Keeps P s t) :
    Runs P s (execSnapshotRead a1 a2 a3 t) := by
  unfold execSnapshotRead
  extract_lets -merge -useContext x1 x2
  have h2 : Keeps P s x2 := (encTime_keeps (hP.of (by decide)) h0)
  clear_value x2
  exact (Runs.ite (Runs.next h2) (by
    split
    rename_i x3 e3
    have h3 : Keeps P s x3 := Keeps.ofEq e3 (busRead_keeps (hP.of (by decide)) h2)
    exact (Runs.next (by
      split
      · exact (popDone_keeps (hP.of (by decide)) h3)
      · exact (putData_keeps (hP.of (by decide)) h3)
      · exact (Keeps.upd h3 (by intro p hp; cases p <;> first | exact absurd (hP _ (by decide)) hp | rfl) ⟨rfl, rfl, rfl, rfl⟩)
      · exact h3))))

theorem execCommitArm_keeps {a1 a2 a3 a4} (hP : Within [.now, .regs, .pts, .attrs, .held, .mem, .bad, .queues, .q0pend, .helm, .ax, .homing, .pwmA, .pwmG, .clu, .enc, .cmpPins, .drv, .safe, .can, .boot] P) (h0 : Keeps P s t) :
    Runs P s (execCommitArm a1 a2 a3 a4 t) := by
  unfold execCommitArm
  extract_lets -merge -useContext x1
  have h1 : Keeps P s x1 := (encTime_keeps (hP.of (by decide)) h0)
  clear_value x1
  exact (Runs.next (by
    split
    · exact (Keeps.ite (busWrite_keeps (hP.of (by decide)) h1) h1)
    · exact h1))

theorem execRegisterWrite_keeps {a1 a2 a3 a4} (hP : Within [.now, .regs, .pts, .attrs, .held, .mem, .bad, .queues, .q0pend, .helm, .ax, .homing, .pwmA, .pwmG, .clu, .enc, .cmpPins, .drv, .safe, .can, .boot] P) (h0 : Keeps P s t) :
    Runs P s (execRegisterWrite a1 a2 a3 a4 t) := by
  unfold execRegisterWrite
  exact (Runs.next (busWrite_keeps (hP.of (by decide)) (encTime_keeps (hP.of (by decide)) h0)))

theorem execChronInitHi_keeps {a1 a2 a3} (hP : Within [.now, .regs, .pts, .attrs, .held, .mem, .bad, .queues, .q0pend, .helm, .ax, .homing, .pwmA, .pwmG, .clu, .cmpPins, .drv, .safe, .can, .boot] P) (h0 : Keeps P s t) :
    Runs P s (execChronInitHi a1 a2 a3 t) := by
  unfold execChronInitHi
  exact (Runs.next (busWrite_keeps (hP.of (by decide)) (atTime_keeps (hP.of (by decide)) h0)))

theorem execProfClippkWrite_keeps {a1 a2 a3 a4} (hP : Within [.now, .regs, .pts, .attrs, .held, .mem, .bad, .queues, .q0pend, .helm, .ax, .homing, .pwmA, .pwmG, .clu, .cmpPins, .drv, .safe, .can, .boot] P) (h0 : Keeps P s t) :
    Runs P s (execProfClippkWrite a1 a2 a3 a4 t) := by
  unfold execProfClippkWrite
  exact (Runs.next (busWrite_keeps (hP.of (by decide)) (atTime_keeps (hP.of (by decide)) h0)))

end Sys2Proof.Machine
end

