-- ==== Sys2Proof/Laws/KeepsBoot.lean ====
section
/-!
SUPPORT. What the operations of Machine/Boot.lean may touch, and that they keep the canonical form: one lemma per operation.
-/
namespace Sys2Proof.Machine

variable {P : List Part} {s t : State}

theorem armTouched_keeps {a1 a2} (hP : Within [.regs] P) (h0 : Keeps P s t) :
    Keeps P s (armTouched a1 a2 t) := by
  unfold armTouched
  exact (forEach_keeps (fun _ _ h1 => (Keeps.ite (Keeps.ite (bwBit_keeps (hP.of (by decide)) h1) (bwBit_keeps (hP.of (by decide)) h1)) h1)) h0)

theorem armProf_keeps (hP : Within [.regs] P) (h0 : Keeps P s t) :
    Keeps P s (armProf t) := by
  unfold armProf
  exact (forEach_keeps (fun _ _ h1 => (bwBit_keeps (hP.of (by decide)) h1)) (armTouched_keeps (hP.of (by decide)) h0))

theorem armTabs_keeps (hP : Within [.regs] P) (h0 : Keeps P s t) :
    Keeps P s (armTabs t) := by
  unfold armTabs
  exact (forEach_keeps (fun _ _ h1 => (by
    extract_lets -merge -useContext x2
    exact (Keeps.ite (bwBit_keeps (hP.of (by decide)) h1) h1))) h0)

theorem bootPoints_keeps (hP : Within [.pts] P) (h0 : Keeps P s t) :
    Keeps P s (bootPoints t) := by
  unfold bootPoints
  extract_lets -merge -useContext x1 x2
  exact (forEach_keeps (fun _ _ h3 => (setPt_keeps (hP.of (by decide)) h3)) h0)

theorem stage_keeps {a1} (hP : Within [.regs] P) (h0 : Keeps P s t) :
    Keeps P s (stage a1 t) := by
  unfold stage
  exact (bw_keeps (hP.of (by decide)) h0)

theorem sealAct_keeps {a1} (hP : Within [.regs, .pts, .queues, .q0pend, .helm, .fresh, .mot, .ax, .gear, .igrp, .homing, .loop, .clu, .drv, .adm, .pwr, .safe, .boot] P) (h0 : Keeps P s t) :
    Keeps P s (sealAct a1 t) := by
  unfold sealAct
  extract_lets -merge -useContext x1 x2
  have h1 : Keeps P s x1 := (forEach_keeps (fun _ _ h3 => (Keeps.ite (ss1Start_keeps (hP.of (by decide)) h3) h3)) h0)
  clear_value x1
  have h2 : Keeps P s x2 := (stoDecide_keeps (hP.of (by decide)) h1)
  clear_value x2
  exact (Keeps.ite (Keeps.ite (modHelm_keeps (hP.of (by decide)) h2) (haltEntry_keeps (hP.of (by decide)) h2)) (haltEntry_keeps (hP.of (by decide)) h0))

theorem sealChange_keeps {a1} (hP : Within [.regs, .pts, .queues, .q0pend, .helm, .fresh, .mot, .ax, .gear, .igrp, .homing, .loop, .clu, .drv, .adm, .pwr, .safe, .boot] P) (h0 : Keeps P s t) :
    Keeps P s (sealChange a1 t) := by
  unfold sealChange
  exact (sealAct_keeps (hP.of (by decide)) (dropCopy_keeps (hP.of (by decide)) (raiseDev_keeps (hP.of (by decide)) h0)))

theorem bootEnd_keeps (hP : Within [.regs, .pts, .queues, .q0pend, .helm, .fresh, .mot, .ax, .gear, .igrp, .homing, .loop, .clu, .drv, .adm, .pwr, .safe, .can, .boot] P) (h0 : Keeps P s t) :
    Keeps P s (bootEnd t) := by
  unfold bootEnd
  extract_lets -merge -useContext x1 x2 x3 x4 x5 x6 x7 x8 x9 x10 x11 x12
  have h1 : Keeps P s x1 := (forEach_keeps (fun _ _ h13 => (sw_keeps (hP.of (by decide)) h13)) h0)
  clear_value x1
  have h2 : Keeps P s x2 := (forEach_keeps (fun _ _ h14 => (Keeps.ite (canCtrl_keeps (hP.of (by decide)) h14) h14)) h1)
  clear_value x2
  have h4 : Keeps P s x4 := (bootPoints_keeps (hP.of (by decide)) h2)
  clear_value x4
  have h5 : Keeps P s x5 := (setMode_keeps (hP.of (by decide)) h4)
  clear_value x5
  have h6 : Keeps P s x6 := (setPt_keeps (hP.of (by decide)) h5)
  clear_value x6
  have h7 : Keeps P s x7 := (bw_keeps (hP.of (by decide)) (stage_keeps (hP.of (by decide)) h6))
  clear_value x7
  have h8 : Keeps P s x8 := (modHelm_keeps (hP.of (by decide)) (setPt_keeps (hP.of (by decide)) h7))
  clear_value x8
  have h9 : Keeps P s x9 := (Keeps.ite (putWork_keeps (hP.of (by decide)) (modSafe_keeps (hP.of (by decide)) h8)) h8)
  clear_value x9
  have h10 : Keeps P s x10 := (Keeps.ite (ev_keeps (hP.of (by decide)) h9) h9)
  clear_value x10
  have h12 : Keeps P s x12 := (Keeps.upd h10 (by intro p hp; cases p <;> first | exact absurd (hP _ (by decide)) hp | rfl) ⟨rfl, rfl, rfl, rfl⟩)
  clear_value x12
  exact (Keeps.ite (sealChange_keeps (hP.of (by decide)) h12) h12)

theorem bootDone_keeps (hP : Within [.regs, .pts, .queues, .q0pend, .helm, .fresh, .mot, .ax, .gear, .igrp, .homing, .loop, .clu, .drv, .adm, .pwr, .safe, .can, .boot] P) (h0 : Keeps P s t) :
    Keeps P s (bootDone t) := by
  unfold bootDone
  exact (Keeps.ite (bootEnd_keeps (hP.of (by decide)) h0) h0)

theorem bootRequests_keeps (hP : Within [.regs, .ax, .drv, .adm] P) (h0 : Keeps P s t) :
    Keeps P s (bootRequests t) := by
  unfold bootRequests
  extract_lets -merge -useContext x1 x2
  have h1 : Keeps P s x1 := (forEach_keeps (fun _ _ h3 => (admRequest_keeps (hP.of (by decide)) h3)) h0)
  clear_value x1
  have h2 : Keeps P s x2 := (admRequest_keeps (hP.of (by decide)) h1)
  clear_value x2
  exact (Keeps.ite (admRequest_keeps (hP.of (by decide)) h2) h2)

theorem keepRegs_keeps {l o} (hP : Within [.regs] P) (h0 : Keeps P s t) : Keeps P s (keepRegs l o t) :=
  forEach_keeps (fun _ _ h => wr_keeps (hP.of (by decide)) h) h0

/-- The points at reset are canonical and lie below the user points. -/
theorem reset_pts : swf (fun _ => 0#32) State.reset.pts = true ∧ ∀ x ∈ State.reset.pts, x.1 < 8192 := by decide

theorem reset_canon : Canon State.reset := ⟨rfl, reset_pts.1, rfl, rfl⟩

theorem resetState_keeps {w} (hP : Within [.now, .regs, .pts, .attrs, .held, .snaps, .mem, .bad, .busData, .queues, .sides, .stalls, .q0pend, .helm, .mot, .ax, .gear, .sup, .env, .igrp, .homing, .stp, .pwmA, .pwmG, .pinsLow, .loop, .clu, .enc, .cmpPins, .latPins, .sdm, .hk, .drv, .adm, .pwr, .fio, .safe, .ring, .can, .boot] P) (h0 : Keeps P s t) : Keeps P s (resetState w t) := by
  refine h0.trans ?_
  unfold resetState
  extract_lets r0 x1 x2 x3 r1 r2 r3 r4
  have h2 : Keeps [.regs] r1 r2 := keepRegs_keeps (Within.refl _) Keeps.refl
  have p2 : r2.pts = State.reset.pts := h2.1 .pts (by decide)
  have m2 : r2.mem = [] := h2.1 .mem (by decide)
  have c2 : Canon r2 := h2.2 reset_canon
  have o1 : r1.fresh = t.fresh ∧ r1.pending = t.pending ∧ r1.pins = t.pins := ⟨rfl, rfl, rfl⟩
  clear_value r1 r2
  have h3 : Only [.mem, .bad, .pts] r2 r3 ∧ (Canon t → Canon r3) := by
    unfold r3
    split
    · refine ⟨fun p hp => by cases p <;> first | exact absurd (by decide) hp | rfl, fun c => ⟨c2.1, ?_, c2.2.2.1, swf_filter _ c.2.2.2⟩⟩
      refine swf_append (m := 8192) (by rw [p2]; exact reset_pts.2) ?_ c2.2.1 (swf_filter _ c.2.1)
      intro x hx
      exact of_decide_eq_true (List.mem_filter.mp hx).2
    · exact ⟨fun p _ => p.same_refl _, fun _ => c2⟩
  clear_value r3
  have h4 : Keeps [.pts] r3 r4 := by
    unfold r4
    exact Keeps.ite (setPt_keeps (Within.refl _) (setPt_keeps (Within.refl _) Keeps.refl)) Keeps.refl
  have h5 : Keeps [.regs] r4 (bw r4 .safe 0 (setFld (br r4 .safe 0) 0 4 15)) := bw_keeps (Within.refl _) Keeps.refl
  clear_value r4
  generalize bw r4 .safe 0 (setFld (br r4 .safe 0) 0 4 15) = u at h5 ⊢
  have same : ∀ p, p ∉ [Part.regs, .mem, .bad, .pts] → p.same r1 u := by
    intro p hp
    have hr : p ∉ [Part.regs] := fun h => hp (by simp only [List.mem_singleton] at h; subst h; decide)
    have hq : p ∉ [Part.pts] := fun h => hp (by simp only [List.mem_singleton] at h; subst h; decide)
    have hm : p ∉ [Part.mem, .bad, .pts] := fun h => hp (List.mem_cons_of_mem _ h)
    exact p.same_trans (h2.1 p hr) (p.same_trans (h3.1 p hm) (p.same_trans (h4.1 p hq) (h5.1 p hr)))
  refine ⟨?_, fun c => h5.2 (h4.2 (h3.2 c))⟩
  intro p hp
  cases p <;> first
    | exact absurd (hP _ (by decide)) hp
    | exact (same .fresh (by decide)).trans o1.1
    | exact (same .pending (by decide)).trans o1.2.1
    | exact (same .pins (by decide)).trans o1.2.2

theorem loadSlot_keeps {a1 a2} (hP : Within [.regs, .boot] P) (h0 : Keeps P s t) :
    Keeps P s (loadSlot a1 a2 t) := by
  unfold loadSlot
  extract_lets -merge -useContext x1 x2 x3 x4
  have h1 : Keeps P s x1 := (bwBit_keeps (hP.of (by decide)) (stage_keeps (hP.of (by decide)) h0))
  clear_value x1
  have h4 : Keeps P s x4 := (bw_keeps (hP.of (by decide)) h1)
  clear_value x4
  exact (modBoot_keeps (hP.of (by decide)) h4)

theorem writeFixed_keeps (hP : Within [.attrs] P) (h0 : Keeps P s t) :
    Keeps P s (writeFixed t) := by
  unfold writeFixed
  exact (forEach_keeps (fun _ _ h1 => (setAttr_keeps (hP.of (by decide)) h1)) h0)

theorem reloadReset_keeps (hP : Within [.regs, .pts, .attrs, .held, .snaps, .mem, .bad, .busData, .queues, .sides, .stalls, .mot, .ax, .gear, .sup, .env, .igrp, .homing, .stp, .pwmA, .pwmG, .loop, .clu, .enc, .cmpPins, .latPins, .sdm, .hk, .ring, .can] P) (h0 : Keeps P s t) : Keeps P s (reloadReset t) := by
  unfold reloadReset
  extract_lets -merge -useContext r keep word0 n1 n2 n3
  have h1 : Keeps P s n1 := h0.trans ⟨fun p hp => by cases p <;> first | exact absurd (hP _ (by decide)) hp | rfl,
    fun c => ⟨swf_filter _ c.1, reset_pts.1, rfl, swf_filter _ c.2.2.2⟩⟩
  clear_value n1
  have h2 : Keeps P s n2 := keepRegs_keeps (hP.of (by decide)) h1
  clear_value n2
  have h3 : Keeps P s n3 := ringBit_keeps (hP.of (by decide)) h2
  clear_value n3
  exact sumUpd_keeps (hP.of (by decide)) (setPt_keeps (hP.of (by decide)) (setPt_keeps (hP.of (by decide)) (setPt_keeps (hP.of (by decide))
    (writeFixed_keeps (hP.of (by decide)) h3))))

theorem slotFail_keeps {a1 a2} (hP : Within [.regs, .pts, .attrs, .held, .snaps, .mem, .bad, .busData, .queues, .sides, .stalls, .q0pend, .helm, .mot, .ax, .gear, .sup, .env, .igrp, .homing, .stp, .pwmA, .pwmG, .loop, .clu, .enc, .cmpPins, .latPins, .sdm, .hk, .drv, .adm, .pwr, .safe, .ring, .can, .boot] P) (h0 : Keeps P s t) :
    Keeps P s (slotFail a1 a2 t) := by
  unfold slotFail
  extract_lets -merge -useContext x1 x2 x3 x4 x5 x6
  have h2 : Keeps P s x2 := (ev_keeps (hP.of (by decide)) (putValid_keeps (hP.of (by decide)) h0))
  clear_value x2
  have h4 : Keeps P s x4 := (modBoot_keeps (hP.of (by decide)) h2)
  clear_value x4
  have h6 : ∀ x, Keeps P s x → Keeps P s (x6 x) := fun _ h7 => (bootFail_keeps (hP.of (by decide)) h7)
  clear_value x6
  exact (Keeps.ite (h6 _ h4) (by
    split
    · exact (h6 _ h4)
    · extract_lets -merge -useContext x8
      have h8 : Keeps P s x8 := (loadSlot_keeps (hP.of (by decide)) (reloadReset_keeps (hP.of (by decide)) h4))
      clear_value x8
      exact (Keeps.ite (h6 _ (ev_keeps (hP.of (by decide)) (putValid_keeps (hP.of (by decide)) h4))) (Keeps.ite h8 (ev_keeps (hP.of (by decide)) (bwBit_keeps (hP.of (by decide)) h8))))))

theorem chooseSlot_keeps {a1} (hP : Within [.regs, .pts, .attrs, .held, .snaps, .mem, .bad, .busData, .queues, .sides, .stalls, .q0pend, .helm, .mot, .ax, .gear, .sup, .env, .igrp, .homing, .stp, .pwmA, .pwmG, .loop, .clu, .enc, .cmpPins, .latPins, .sdm, .hk, .drv, .adm, .pwr, .safe, .ring, .can, .boot] P) (h0 : Keeps P s t) :
    Keeps P s (chooseSlot a1 t) := by
  unfold chooseSlot
  split
  · exact (bootFail_keeps (hP.of (by decide)) h0)
  · extract_lets -merge -useContext x1
    split
    · exact h0
    · extract_lets -merge -useContext x2 x3
      have h2 : Keeps P s x2 := (loadSlot_keeps (hP.of (by decide)) (bwBit_keeps (hP.of (by decide)) h0))
      clear_value x2
      exact (Keeps.ite h2 (slotFail_keeps (hP.of (by decide)) h2))

theorem commitEarly_keeps (hP : Within [.regs, .pts, .queues, .q0pend, .helm, .ax, .homing, .pwmA, .pwmG, .clu, .enc, .sdm, .drv, .fio, .can] P) (h0 : Keeps P s t) :
    Keeps P s (commitEarly t) := by
  unfold commitEarly
  extract_lets -merge -useContext x1 x2 x3 x4 x5 x6 x7 x8 x9 x10 x11 x12 x13
  have h2 : Keeps P s x2 := (bw_keeps (hP.of (by decide)) h0)
  clear_value x2
  have h3 : Keeps P s x3 := (forEach_keeps (fun _ _ h14 => (copySet_keeps (hP.of (by decide)) (bwBit_keeps (hP.of (by decide)) h14))) (armTouched_keeps (hP.of (by decide)) h2))
  clear_value x3
  have h4 : Keeps P s x4 := (protLock_keeps (hP.of (by decide)) h3)
  clear_value x4
  have h5 : Keeps P s x5 := (forEach_keeps (fun _ _ h15 => (queCommit_keeps (hP.of (by decide)) h15)) (armTouched_keeps (hP.of (by decide)) h4))
  clear_value x5
  have h6 : Keeps P s x6 := (canCommits_keeps (hP.of (by decide)) (canCommits_keeps (hP.of (by decide)) (armTouched_keeps (hP.of (by decide)) (armTouched_keeps (hP.of (by decide)) h5))))
  clear_value x6
  have h7 : Keeps P s x7 := (hkCommits_keeps (hP.of (by decide)) (armTouched_keeps (hP.of (by decide)) h6))
  clear_value x7
  have h8 : Keeps P s x8 := (armTouched_keeps (hP.of (by decide)) h7)
  clear_value x8
  have h9 : Keeps P s x9 := (forEach_keeps (fun _ _ h16 => (Keeps.ite (sdmClkCommit_keeps (hP.of (by decide)) h16) h16)) h8)
  clear_value x9
  have h10 : Keeps P s x10 := (forEach_keeps (fun _ _ h17 => (Keeps.ite (sdmCommit_keeps (hP.of (by decide)) h17) h17)) h9)
  clear_value x10
  have h11 : Keeps P s x11 := (armTouched_keeps (hP.of (by decide)) h10)
  clear_value x11
  have h12 : Keeps P s x12 := (forEach_keeps (fun _ _ h18 => (Keeps.ite (encCommit_keeps (hP.of (by decide)) h18) h18)) h11)
  clear_value x12
  have h13 : Keeps P s x13 := (fioCommits_keeps (hP.of (by decide)) (armTouched_keeps (hP.of (by decide)) h12))
  clear_value x13
  exact (drvCommits_keeps (hP.of (by decide)) (armTouched_keeps (hP.of (by decide)) h13))

theorem commitLate_keeps (hP : Within [.regs, .pts, .queues, .q0pend, .helm, .fresh, .mot, .ax, .gear, .igrp, .homing, .pwmA, .pwmG, .pinsLow, .loop, .clu, .drv, .adm, .pwr, .safe, .can, .boot] P) (h0 : Keeps P s t) :
    Keeps P s (commitLate t) := by
  unfold commitLate
  extract_lets -merge -useContext x1 x2 x3 x4 x5
  have h3 : Keeps P s x3 := (bwBit_keeps (hP.of (by decide)) (Keeps.upd h0 (by intro p hp; cases p <;> first | exact absurd (hP _ (by decide)) hp | rfl) ⟨rfl, rfl, rfl, rfl⟩))
  clear_value x3
  have h4 : Keeps P s x4 := (forEach_keeps (fun _ _ h6 => (pwmCommits_keeps (hP.of (by decide)) h6)) (armTouched_keeps (hP.of (by decide)) h3))
  clear_value x4
  have h5 : Keeps P s x5 := (armTouched_keeps (hP.of (by decide)) (armProf_keeps (hP.of (by decide)) (armTouched_keeps (hP.of (by decide)) (armTabs_keeps (hP.of (by decide)) (armTouched_keeps (hP.of (by decide)) h4)))))
  clear_value x5
  exact (Keeps.ite (bootDone_keeps (hP.of (by decide)) (stepTabCommits_keeps (hP.of (by decide)) (forEach_keeps (fun _ _ h7 => (watchCommits_keeps (hP.of (by decide)) h7)) h5))) h5)

theorem commitRing_keeps (hP : Within [.regs, .pts, .queues, .q0pend, .helm, .fresh, .mot, .ax, .gear, .igrp, .homing, .pwmA, .pwmG, .pinsLow, .loop, .clu, .drv, .adm, .pwr, .safe, .can, .boot] P) (h0 : Keeps P s t) :
    Keeps P s (commitRing t) := by
  unfold commitRing
  extract_lets -merge -useContext x1
  have h1 : Keeps P s x1 := (ringCommits_keeps (hP.of (by decide)) (armTouched_keeps (hP.of (by decide)) h0))
  clear_value x1
  exact (Keeps.ite (modBoot_keeps (hP.of (by decide)) h1) (commitLate_keeps (hP.of (by decide)) h1))

theorem resetUnhomed_keeps (hP : Within [.regs, .pts, .queues, .q0pend, .helm, .ax, .clu, .boot] P) (h0 : Keeps P s t) :
    Keeps P s (resetUnhomed t) := by
  unfold resetUnhomed
  extract_lets -merge -useContext x1
  exact (forEach_keeps (fun _ _ h2 => (Keeps.ite (ev_keeps (hP.of (by decide)) h2) h2)) (modBoot_keeps (hP.of (by decide)) h0))

theorem startBoot_keeps {a1} (hP : Within [.now, .regs, .pts, .attrs, .held, .snaps, .mem, .bad, .busData, .queues, .sides, .stalls, .q0pend, .helm, .mot, .ax, .gear, .sup, .env, .igrp, .homing, .stp, .pwmA, .pwmG, .pinsLow, .loop, .clu, .enc, .cmpPins, .latPins, .sdm, .hk, .drv, .adm, .pwr, .fio, .safe, .ring, .can, .boot, .pins] P) (h0 : Keeps P s t) :
    Keeps P s (startBoot a1 t) := by
  unfold startBoot
  extract_lets -merge -useContext x1 x2 x3 x4 x5 x6 x7 x8 x9 x10 x11 x12 x13 x14 x15 x16 x17
  have h3 : Keeps P s x3 := (resetState_keeps (hP.of (by decide)) h0)
  clear_value x3
  have h6 : Keeps P s x6 := (Keeps.upd h3 (by intro p hp; cases p <;> first | exact absurd (hP _ (by decide)) hp | rfl) ⟨rfl, rfl, rfl, rfl⟩)
  clear_value x6
  have h7 : Keeps P s x7 := (modHelm_keeps (hP.of (by decide)) (modBoot_keeps (hP.of (by decide)) h6))
  clear_value x7
  have h8 : Keeps P s x8 := (ringBit_keeps (hP.of (by decide)) (bw_keeps (hP.of (by decide)) (bw_keeps (hP.of (by decide)) h7)))
  clear_value x8
  have h9 : Keeps P s x9 := (bw_keeps (hP.of (by decide)) (bw_keeps (hP.of (by decide)) h8))
  clear_value x9
  have h11 : Keeps P s x11 := (bw_keeps (hP.of (by decide)) (bw_keeps (hP.of (by decide)) h9))
  clear_value x11
  have h14 : Keeps P s x14 := (putValid_keeps (hP.of (by decide)) (putValid_keeps (hP.of (by decide)) h11))
  clear_value x14
  have h15 : Keeps P s x15 := (bw_keeps (hP.of (by decide)) h14)
  clear_value x15
  have h16 : Keeps P s x16 := (bw_keeps (hP.of (by decide)) h15)
  clear_value x16
  have h17 : Keeps P s x17 := (resetUnhomed_keeps (hP.of (by decide)) (bootRequests_keeps (hP.of (by decide)) (busyUpd_keeps (hP.of (by decide)) (writeFixed_keeps (hP.of (by decide)) (stage_keeps (hP.of (by decide)) h16)))))
  clear_value x17
  exact (Keeps.ite (bootFail_keeps (hP.of (by decide)) h17) (Keeps.ite (bootFail_keeps (hP.of (by decide)) h17) h17))

theorem execResetnRelease_keeps {a1} (hP : Within [.now, .regs, .pts, .attrs, .held, .snaps, .mem, .bad, .busData, .queues, .sides, .stalls, .q0pend, .helm, .mot, .ax, .gear, .sup, .env, .igrp, .homing, .stp, .pwmA, .pwmG, .pinsLow, .loop, .clu, .enc, .cmpPins, .latPins, .sdm, .hk, .drv, .adm, .pwr, .fio, .safe, .ring, .can, .boot, .pins] P) (h0 : Keeps P s t) :
    Runs P s (execResetnRelease a1 t) := by
  unfold execResetnRelease
  extract_lets -merge -useContext x1
  exact (Runs.next (Keeps.ite (Keeps.ite (modBoot_keeps (hP.of (by decide)) (Keeps.upd h0 (by intro p hp; cases p <;> first | exact absurd (hP _ (by decide)) hp | rfl) ⟨rfl, rfl, rfl, rfl⟩)) (startBoot_keeps (hP.of (by decide)) h0)) h0))

theorem execFlashNoResponse_keeps {a1 a2} (hP : Within [.now, .regs, .pts, .queues, .q0pend, .helm, .mot, .ax, .gear, .igrp, .homing, .loop, .clu, .drv, .adm, .pwr, .safe, .boot] P) (h0 : Keeps P s t) :
    Runs P s (execFlashNoResponse a1 a2 t) := by
  unfold execFlashNoResponse
  extract_lets -merge -useContext x1
  have h1 : Keeps P s x1 := (atTime_keeps (hP.of (by decide)) h0)
  clear_value x1
  exact (Runs.next (Keeps.ite (bootHalt_keeps (hP.of (by decide)) (raiseDev_keeps (hP.of (by decide)) h1)) h1))

theorem putSeal_keeps {a1} (hP : Within [.regs, .pts] P) (h0 : Keeps P s t) :
    Keeps P s (putSeal a1 t) := by
  unfold putSeal
  extract_lets -merge -useContext x1
  have h1 : Keeps P s x1 := (bw_keeps (hP.of (by decide)) h0)
  clear_value x1
  exact (Keeps.ite (setPt_keeps (hP.of (by decide)) h1) h1)

theorem sealSeen_keeps {a1} (hP : Within [.regs, .pts, .attrs, .held, .snaps, .mem, .bad, .busData, .queues, .sides, .stalls, .q0pend, .helm, .fresh, .mot, .ax, .gear, .sup, .env, .igrp, .homing, .stp, .pwmA, .pwmG, .loop, .clu, .enc, .cmpPins, .latPins, .sdm, .hk, .drv, .adm, .pwr, .safe, .ring, .can, .boot] P) (h0 : Keeps P s t) :
    Keeps P s (sealSeen a1 t) := by
  unfold sealSeen
  extract_lets -merge -useContext x1
  have h1 : Keeps P s x1 := (putSeal_keeps (hP.of (by decide)) (modBoot_keeps (hP.of (by decide)) h0))
  clear_value x1
  exact (Keeps.ite h0 (Keeps.ite (by
    split
    · exact (putSeal_keeps (hP.of (by decide)) (modBoot_keeps (hP.of (by decide)) h0))
    · exact (Keeps.ite (bootFail_keeps (hP.of (by decide)) h1) (Keeps.ite (chooseSlot_keeps (hP.of (by decide)) h1) h1))) (Keeps.ite h0 (sealChange_keeps (hP.of (by decide)) (putSeal_keeps (hP.of (by decide)) h0)))))

theorem execSealInForce_keeps {a1 a2} (hP : Within [.now, .regs, .pts, .attrs, .held, .snaps, .mem, .bad, .busData, .queues, .sides, .stalls, .q0pend, .helm, .fresh, .mot, .ax, .gear, .sup, .env, .igrp, .homing, .stp, .pwmA, .pwmG, .loop, .clu, .enc, .cmpPins, .latPins, .sdm, .hk, .drv, .adm, .pwr, .safe, .ring, .can, .boot] P) (h0 : Keeps P s t) :
    Runs P s (execSealInForce a1 a2 t) := by
  unfold execSealInForce
  extract_lets -merge -useContext x1
  have h1 : Keeps P s x1 := (atTime_keeps (hP.of (by decide)) h0)
  clear_value x1
  exact (Runs.next (Keeps.ite (sealSeen_keeps (hP.of (by decide)) h1) h1))

theorem readBytes_keeps {a1} (hP : Within [.boot] P) (h0 : Keeps P s t) :
    Keeps P s (readBytes a1 t) := by
  unfold readBytes
  exact (modBoot_keeps (hP.of (by decide)) h0)

theorem skipOthers_keeps (hP : Within [.boot] P) : ∀ {l : List OtherRec} {t : State}, Keeps P s t → Keeps P s (skipOthers l t).2
  | [], _, h => h
  | _ :: _, _, h => by
    unfold skipOthers
    dsimp only
    split
    · exact h
    · exact skipOthers_keeps hP (readBytes_keeps (hP.of (by decide)) h)

theorem takeRec_keeps {a1 a2 a3 a4} (hP : Within [.regs, .pts, .attrs, .held, .snaps, .mem, .bad, .busData, .queues, .sides, .stalls, .q0pend, .helm, .mot, .ax, .gear, .sup, .env, .igrp, .homing, .stp, .pwmA, .pwmG, .loop, .clu, .enc, .cmpPins, .latPins, .sdm, .hk, .drv, .adm, .pwr, .safe, .ring, .can, .boot] P) (hf4 : ∀ b0 x, Keeps P s x → Keeps P s (a4 b0 x).2) (h0 : Keeps P s t) :
    Keeps P s (takeRec a1 a2 a3 a4 t) := by
  unfold takeRec
  exact (Keeps.ite h0 (by
    split
    rename_i x1 e1
    have h1 : Keeps P s x1 := Keeps.ofEq e1 (skipOthers_keeps (hP.of (by decide)) h0)
    extract_lets -merge -useContext x2 x3
    have h3 : Keeps P s x3 := (readBytes_keeps (hP.of (by decide)) h1)
    clear_value x3
    exact (Keeps.ite (slotFail_keeps (hP.of (by decide)) h1) (Keeps.ite (slotFail_keeps (hP.of (by decide)) h1) (Keeps.ite h3 (by
      split
      rename_i x4 e4
      have h4 : Keeps P s x4 := Keeps.ofEq e4 (hf4 _ _ h3)
      exact (Keeps.ite (slotFail_keeps (hP.of (by decide)) h4) h4)))))))

theorem recReg_keeps (hP : Within [.now, .regs, .pts, .queues, .q0pend, .helm, .ax, .homing, .pwmA, .pwmG, .clu, .cmpPins, .drv, .can, .boot] P) : ∀ {l : List Word} {t : State}, Keeps P s t → Keeps P s (recReg l t).2
  | [], _, h => h
  | [_], _, h => h
  | _ :: _ :: _, _, h => by unfold recReg; exact Keeps.ite2 (recReg_keeps hP (regWrite_keeps (hP.of (by decide)) h)) h

theorem execReg_keeps {a1 a2 a3} (hP : Within [.now, .regs, .pts, .attrs, .held, .snaps, .mem, .bad, .busData, .queues, .sides, .stalls, .q0pend, .helm, .mot, .ax, .gear, .sup, .env, .igrp, .homing, .stp, .pwmA, .pwmG, .loop, .clu, .enc, .cmpPins, .latPins, .sdm, .hk, .drv, .adm, .pwr, .safe, .ring, .can, .boot] P) (h0 : Keeps P s t) :
    Runs P s (execReg a1 a2 a3 t) := by
  unfold execReg
  exact (Runs.next (takeRec_keeps (hP.of (by decide)) (fun _ _ h1 => (recReg_keeps (hP.of (by decide)) h1)) (atTime_keeps (hP.of (by decide)) h0)))

theorem markBrass_keeps {a1} (hP : Within [.boot] P) (h0 : Keeps P s t) :
    Keeps P s (markBrass a1 t) := by
  unfold markBrass
  exact (Keeps.ite (modBoot_keeps (hP.of (by decide)) h0) h0)

theorem recWords_keeps {f} (hP : Within [.now, .regs, .pts, .attrs, .mem, .bad, .queues, .q0pend, .helm, .ax, .homing, .pwmA, .pwmG, .clu, .cmpPins, .drv, .can, .boot] P) : ∀ {l : List Word} {a : Nat} {t : State}, Keeps P s t → Keeps P s (recWords f a l t).2
  | [], _, _, h => h
  | _ :: _, _, _, h => by unfold recWords; exact Keeps.ite2 (recWords_keeps hP (writeAt_keeps (hP.of (by decide)) (markBrass_keeps (hP.of (by decide)) h))) h

theorem recMem_keeps (hP : Within [.now, .regs, .pts, .attrs, .mem, .bad, .queues, .q0pend, .helm, .ax, .homing, .pwmA, .pwmG, .clu, .cmpPins, .drv, .can, .boot] P) : ∀ {l : List Word} {t : State}, Keeps P s t → Keeps P s (recMem l t).2
  | [], _, h => h
  | _ :: _, _, h => by unfold recMem; exact Keeps.ite2 (recWords_keeps (hP.of (by decide)) h) h

theorem execMem_keeps {a1 a2 a3} (hP : Within [.now, .regs, .pts, .attrs, .held, .snaps, .mem, .bad, .busData, .queues, .sides, .stalls, .q0pend, .helm, .mot, .ax, .gear, .sup, .env, .igrp, .homing, .stp, .pwmA, .pwmG, .loop, .clu, .enc, .cmpPins, .latPins, .sdm, .hk, .drv, .adm, .pwr, .safe, .ring, .can, .boot] P) (h0 : Keeps P s t) :
    Runs P s (execMem a1 a2 a3 t) := by
  unfold execMem
  exact (Runs.next (takeRec_keeps (hP.of (by decide)) (fun _ _ h1 => (recMem_keeps (hP.of (by decide)) h1)) (atTime_keeps (hP.of (by decide)) h0)))

theorem recKernel_keeps (hP : Within [.now, .regs, .pts, .attrs, .mem, .bad, .queues, .q0pend, .helm, .ax, .homing, .pwmA, .pwmG, .clu, .cmpPins, .drv, .can, .boot] P) : ∀ {l : List Word} {t : State}, Keeps P s t → Keeps P s (recKernel l t).2
  | [], _, h => h
  | _ :: _, _, h => by unfold recKernel; exact Keeps.ite2 h (recWords_keeps (hP.of (by decide)) h)

theorem execKernel_keeps {a1 a2 a3} (hP : Within [.now, .regs, .pts, .attrs, .held, .snaps, .mem, .bad, .busData, .queues, .sides, .stalls, .q0pend, .helm, .mot, .ax, .gear, .sup, .env, .igrp, .homing, .stp, .pwmA, .pwmG, .loop, .clu, .enc, .cmpPins, .latPins, .sdm, .hk, .drv, .adm, .pwr, .safe, .ring, .can, .boot] P) (h0 : Keeps P s t) :
    Runs P s (execKernel a1 a2 a3 t) := by
  unfold execKernel
  exact (Runs.next (takeRec_keeps (hP.of (by decide)) (fun _ _ h1 => (recKernel_keeps (hP.of (by decide)) h1)) (atTime_keeps (hP.of (by decide)) h0)))

theorem recPairs_keeps (hP : Within [.pts, .attrs] P) : ∀ {l : List Word} {i : Nat} {t : State}, Keeps P s t → Keeps P s (recPairs i l t).2
  | [], _, _, h => h
  | [_], _, _, h => h
  | _ :: _ :: _, _, _, h => by
    unfold recPairs
    refine Keeps.ite2 h ?_
    extract_lets x
    have hx : Keeps P s x := Keeps.ite (setAttr_keeps (hP.of (by decide)) h) h
    clear_value x
    exact recPairs_keeps hP (Keeps.ite hx (setPt_keeps (hP.of (by decide)) hx))

theorem recPoints_keeps (hP : Within [.pts, .attrs] P) : ∀ {l : List Word} {t : State}, Keeps P s t → Keeps P s (recPoints l t).2
  | [], _, h => h
  | [_], _, h => h
  | _ :: _ :: _, _, h => by unfold recPoints; exact Keeps.ite2 h (recPairs_keeps (hP.of (by decide)) h)

theorem execPoints_keeps {a1 a2 a3} (hP : Within [.now, .regs, .pts, .attrs, .held, .snaps, .mem, .bad, .busData, .queues, .sides, .stalls, .q0pend, .helm, .mot, .ax, .gear, .sup, .env, .igrp, .homing, .stp, .pwmA, .pwmG, .loop, .clu, .enc, .cmpPins, .latPins, .sdm, .hk, .drv, .adm, .pwr, .safe, .ring, .can, .boot] P) (h0 : Keeps P s t) :
    Runs P s (execPoints a1 a2 a3 t) := by
  unfold execPoints
  exact (Runs.next (takeRec_keeps (hP.of (by decide)) (fun _ _ h1 => (recPoints_keeps (hP.of (by decide)) h1)) (atTime_keeps (hP.of (by decide)) h0)))

theorem recProt_keeps {a1} (hP : Within [.now, .regs, .pts, .queues, .q0pend, .helm, .ax, .homing, .pwmA, .pwmG, .clu, .cmpPins, .drv, .can, .boot] P) (h0 : Keeps P s t) :
    Keeps P s (recProt a1 t).2 := by
  unfold recProt
  extract_lets -merge -useContext x1 x2
  exact (Keeps.ite2 (Keeps.snd h0) (Keeps.ite2 (Keeps.snd h0) (Keeps.snd (forEach_keeps (fun _ _ h3 => (regWrite_keeps (hP.of (by decide)) (regWrite_keeps (hP.of (by decide)) h3))) h0))))

theorem execProt_keeps {a1 a2 a3} (hP : Within [.now, .regs, .pts, .attrs, .held, .snaps, .mem, .bad, .busData, .queues, .sides, .stalls, .q0pend, .helm, .mot, .ax, .gear, .sup, .env, .igrp, .homing, .stp, .pwmA, .pwmG, .loop, .clu, .enc, .cmpPins, .latPins, .sdm, .hk, .drv, .adm, .pwr, .safe, .ring, .can, .boot] P) (h0 : Keeps P s t) :
    Runs P s (execProt a1 a2 a3 t) := by
  unfold execProt
  exact (Runs.next (takeRec_keeps (hP.of (by decide)) (fun _ _ h1 => (recProt_keeps (hP.of (by decide)) h1)) (atTime_keeps (hP.of (by decide)) h0)))

theorem recQueue_keeps (hP : Within [.now, .regs, .pts, .queues, .q0pend, .helm, .ax, .homing, .pwmA, .pwmG, .clu, .cmpPins, .drv, .can, .boot] P) : ∀ {l : List Word} {t : State}, Keeps P s t → Keeps P s (recQueue l t).2
  | [], _, h | [_], _, h | [_, _], _, h | [_, _, _], _, h | [_, _, _, _], _, h => h
  | q :: c :: k :: b :: i :: ws, t, h => by
    unfold recQueue
    refine Keeps.ite2 h ?_
    extract_lets a
    clear_value a
    exact recQueue_keeps hP (regWrite_keeps (hP.of (by decide)) (regWrite_keeps (hP.of (by decide)) (regWrite_keeps (hP.of (by decide))
      (regWrite_keeps (hP.of (by decide)) h))))

theorem execQueue_keeps {a1 a2 a3} (hP : Within [.now, .regs, .pts, .attrs, .held, .snaps, .mem, .bad, .busData, .queues, .sides, .stalls, .q0pend, .helm, .mot, .ax, .gear, .sup, .env, .igrp, .homing, .stp, .pwmA, .pwmG, .loop, .clu, .enc, .cmpPins, .latPins, .sdm, .hk, .drv, .adm, .pwr, .safe, .ring, .can, .boot] P) (h0 : Keeps P s t) :
    Runs P s (execQueue a1 a2 a3 t) := by
  unfold execQueue
  exact (Runs.next (takeRec_keeps (hP.of (by decide)) (fun _ _ h1 => (recQueue_keeps (hP.of (by decide)) h1)) (atTime_keeps (hP.of (by decide)) h0)))

theorem recObjs_keeps {b} (hP : Within [.now, .regs, .pts, .queues, .q0pend, .helm, .ax, .homing, .pwmA, .pwmG, .clu, .cmpPins, .drv, .can, .boot] P) : ∀ {l : List Word} {t : State}, Keeps P s t → Keeps P s (recObjs b l t).2
  | [], _, h | [_], _, h | [_, _], _, h | [_, _, _], _, h | [_, _, _, _], _, h => h
  | n :: c :: i :: m :: p :: ws, t, h => by
    unfold recObjs
    refine Keeps.ite2 h ?_
    extract_lets a
    clear_value a
    exact recObjs_keeps hP (regWrite_keeps (hP.of (by decide)) (regWrite_keeps (hP.of (by decide)) (regWrite_keeps (hP.of (by decide))
      (regWrite_keeps (hP.of (by decide)) h))))

theorem recCanmap_keeps (hP : Within [.now, .regs, .pts, .queues, .q0pend, .helm, .ax, .homing, .pwmA, .pwmG, .clu, .cmpPins, .drv, .can, .boot] P) {l : List Word} {t : State} (h : Keeps P s t) : Keeps P s (recCanmap l t).2 := by
  unfold recCanmap
  split
  · refine Keeps.ite2 h ?_
    extract_lets b x
    have hx : Keeps P s x := modBoot_keeps (hP.of (by decide)) h
    clear_value x
    exact recObjs_keeps (hP.of (by decide)) (regWrite_keeps (hP.of (by decide)) (regWrite_keeps (hP.of (by decide))
      (regWrite_keeps (hP.of (by decide)) hx)))
  · exact h

theorem execCanmap_keeps {a1 a2 a3} (hP : Within [.now, .regs, .pts, .attrs, .held, .snaps, .mem, .bad, .busData, .queues, .sides, .stalls, .q0pend, .helm, .mot, .ax, .gear, .sup, .env, .igrp, .homing, .stp, .pwmA, .pwmG, .loop, .clu, .enc, .cmpPins, .latPins, .sdm, .hk, .drv, .adm, .pwr, .safe, .ring, .can, .boot] P) (h0 : Keeps P s t) :
    Runs P s (execCanmap a1 a2 a3 t) := by
  unfold execCanmap
  exact (Runs.next (takeRec_keeps (hP.of (by decide)) (fun _ _ h1 => (recCanmap_keeps (hP.of (by decide)) h1)) (atTime_keeps (hP.of (by decide)) h0)))

theorem recRingmap_keeps {a1} (hP : Within [.now, .regs, .pts, .queues, .q0pend, .helm, .ax, .homing, .pwmA, .pwmG, .clu, .cmpPins, .drv, .adm, .can, .boot] P) (h0 : Keeps P s t) :
    Keeps P s (recRingmap a1 t).2 := by
  unfold recRingmap
  extract_lets -merge -useContext x1 x2
  have h1 : Keeps P s x1 := (forEach_keeps (fun _ _ h3 => (regWrite_keeps (hP.of (by decide)) h3)) h0)
  clear_value x1
  have h2 : Keeps P s x2 := (forEach_keeps (fun _ _ h4 => (by
    extract_lets -merge -useContext x5
    exact (regWrite_keeps (hP.of (by decide)) h4))) h1)
  clear_value x2
  exact (Keeps.ite2 (Keeps.snd h0) (Keeps.snd (Keeps.ite (admRequest_keeps (hP.of (by decide)) h2) h2)))

theorem execRingmap_keeps {a1 a2 a3} (hP : Within [.now, .regs, .pts, .attrs, .held, .snaps, .mem, .bad, .busData, .queues, .sides, .stalls, .q0pend, .helm, .mot, .ax, .gear, .sup, .env, .igrp, .homing, .stp, .pwmA, .pwmG, .loop, .clu, .enc, .cmpPins, .latPins, .sdm, .hk, .drv, .adm, .pwr, .safe, .ring, .can, .boot] P) (h0 : Keeps P s t) :
    Runs P s (execRingmap a1 a2 a3 t) := by
  unfold execRingmap
  exact (Runs.next (takeRec_keeps (hP.of (by decide)) (fun _ _ h1 => (recRingmap_keeps (hP.of (by decide)) h1)) (atTime_keeps (hP.of (by decide)) h0)))

theorem recOwner_keeps {a1} (hP : Within [.regs] P) (h0 : Keeps P s t) :
    Keeps P s (recOwner a1 t).2 := by
  unfold recOwner
  exact (Keeps.snd (bw_keeps (hP.of (by decide)) (bw_keeps (hP.of (by decide)) (bw_keeps (hP.of (by decide)) h0))))

theorem execOwner_keeps {a1 a2 a3} (hP : Within [.now, .regs, .pts, .attrs, .held, .snaps, .mem, .bad, .busData, .queues, .sides, .stalls, .q0pend, .helm, .mot, .ax, .gear, .sup, .env, .igrp, .homing, .stp, .pwmA, .pwmG, .loop, .clu, .enc, .cmpPins, .latPins, .sdm, .hk, .drv, .adm, .pwr, .safe, .ring, .can, .boot] P) (h0 : Keeps P s t) :
    Runs P s (execOwner a1 a2 a3 t) := by
  unfold execOwner
  exact (Runs.next (takeRec_keeps (hP.of (by decide)) (fun _ _ h1 => (recOwner_keeps (hP.of (by decide)) h1)) (atTime_keeps (hP.of (by decide)) h0)))

theorem recSafety_keeps {a1} (hP : Within [.boot] P) (h0 : Keeps P s t) :
    Keeps P s (recSafety a1 t).2 := by
  unfold recSafety
  exact (Keeps.snd (modBoot_keeps (hP.of (by decide)) h0))

theorem execSafety_keeps {a1 a2 a3} (hP : Within [.now, .regs, .pts, .attrs, .held, .snaps, .mem, .bad, .busData, .queues, .sides, .stalls, .q0pend, .helm, .mot, .ax, .gear, .sup, .env, .igrp, .homing, .stp, .pwmA, .pwmG, .loop, .clu, .enc, .cmpPins, .latPins, .sdm, .hk, .drv, .adm, .pwr, .safe, .ring, .can, .boot] P) (h0 : Keeps P s t) :
    Runs P s (execSafety a1 a2 a3 t) := by
  unfold execSafety
  exact (Runs.next (takeRec_keeps (hP.of (by decide)) (fun _ _ h1 => (recSafety_keeps (hP.of (by decide)) h1)) (atTime_keeps (hP.of (by decide)) h0)))

theorem recPatch_keeps {a1} (hP : Within [.boot] P) (h0 : Keeps P s t) :
    Keeps P s (recPatch a1 t).2 := by
  unfold recPatch
  extract_lets -merge -useContext x1 x2
  exact (Keeps.ite2 (Keeps.snd h0) (Keeps.snd (modBoot_keeps (hP.of (by decide)) h0)))

theorem execPatch_keeps {a1 a2 a3} (hP : Within [.now, .regs, .pts, .attrs, .held, .snaps, .mem, .bad, .busData, .queues, .sides, .stalls, .q0pend, .helm, .mot, .ax, .gear, .sup, .env, .igrp, .homing, .stp, .pwmA, .pwmG, .loop, .clu, .enc, .cmpPins, .latPins, .sdm, .hk, .drv, .adm, .pwr, .safe, .ring, .can, .boot] P) (h0 : Keeps P s t) :
    Runs P s (execPatch a1 a2 a3 t) := by
  unfold execPatch
  exact (Runs.next (takeRec_keeps (hP.of (by decide)) (fun _ _ h1 => (recPatch_keeps (hP.of (by decide)) h1)) (atTime_keeps (hP.of (by decide)) h0)))

theorem recKey_keeps {a1} (hP : Within [.boot] P) (h0 : Keeps P s t) :
    Keeps P s (recKey a1 t).2 := by
  unfold recKey
  exact (Keeps.snd (modBoot_keeps (hP.of (by decide)) h0))

theorem execKeyfuse_keeps {a1 a2 a3} (hP : Within [.now, .regs, .pts, .attrs, .held, .snaps, .mem, .bad, .busData, .queues, .sides, .stalls, .q0pend, .helm, .mot, .ax, .gear, .sup, .env, .igrp, .homing, .stp, .pwmA, .pwmG, .loop, .clu, .enc, .cmpPins, .latPins, .sdm, .hk, .drv, .adm, .pwr, .safe, .ring, .can, .boot] P) (h0 : Keeps P s t) :
    Runs P s (execKeyfuse a1 a2 a3 t) := by
  unfold execKeyfuse
  exact (Runs.next (takeRec_keeps (hP.of (by decide)) (fun _ _ h1 => (recKey_keeps (hP.of (by decide)) h1)) (atTime_keeps (hP.of (by decide)) h0)))

theorem recSign_keeps {a1 a2} (hP : Within [.boot] P) (h0 : Keeps P s t) :
    Keeps P s (recSign a1 a2 t).2 := by
  unfold recSign
  exact (Keeps.snd (modBoot_keeps (hP.of (by decide)) h0))

theorem execSign_keeps {a1 a2 a3} (hP : Within [.now, .regs, .pts, .attrs, .held, .snaps, .mem, .bad, .busData, .queues, .sides, .stalls, .q0pend, .helm, .mot, .ax, .gear, .sup, .env, .igrp, .homing, .stp, .pwmA, .pwmG, .loop, .clu, .enc, .cmpPins, .latPins, .sdm, .hk, .drv, .adm, .pwr, .safe, .ring, .can, .boot] P) (h0 : Keeps P s t) :
    Runs P s (execSign a1 a2 a3 t) := by
  unfold execSign
  exact (Runs.next (takeRec_keeps (hP.of (by decide)) (fun _ _ h1 => (recSign_keeps (hP.of (by decide)) h1)) (atTime_keeps (hP.of (by decide)) h0)))

theorem keyfuse_keeps (hP : Within [.regs, .pts, .queues, .q0pend, .helm, .ax, .clu] P) (h0 : Keeps P s t) :
    Keeps P s (keyfuse t) := by
  unfold keyfuse
  split
  · exact h0
  · extract_lets -merge -useContext x1 x2 x3
    have h3 : Keeps P s x3 := (forEach_keeps (fun _ _ h4 => (bw_keeps (hP.of (by decide)) h4)) h0)
    clear_value x3
    exact (Keeps.ite (ev_keeps (hP.of (by decide)) h0) (ev_keeps (hP.of (by decide)) (bw_keeps (hP.of (by decide)) h3)))

theorem imageGood_keeps (hP : Within [.regs, .pts, .queues, .q0pend, .helm, .fresh, .mot, .ax, .gear, .igrp, .homing, .pwmA, .pwmG, .pinsLow, .loop, .clu, .enc, .sdm, .drv, .adm, .pwr, .fio, .safe, .can, .boot] P) (h0 : Keeps P s t) :
    Keeps P s (imageGood t) := by
  unfold imageGood
  extract_lets -merge -useContext x1 x2 x3
  have h2 : Keeps P s x2 := (putValid_keeps (hP.of (by decide)) (bwBit_keeps (hP.of (by decide)) h0))
  clear_value x2
  have h3 : Keeps P s x3 := (loadBlock_keeps (hP.of (by decide)) (keyfuse_keeps (hP.of (by decide)) h2))
  clear_value x3
  exact (Keeps.ite (commitRing_keeps (hP.of (by decide)) (commitEarly_keeps (hP.of (by decide)) (stage_keeps (hP.of (by decide)) h3))) (bootHalt_keeps (hP.of (by decide)) h3))

theorem imageEnd_keeps {a1} (hP : Within [.regs, .pts, .attrs, .held, .snaps, .mem, .bad, .busData, .queues, .sides, .stalls, .q0pend, .helm, .fresh, .mot, .ax, .gear, .sup, .env, .igrp, .homing, .stp, .pwmA, .pwmG, .pinsLow, .loop, .clu, .enc, .cmpPins, .latPins, .sdm, .hk, .drv, .adm, .pwr, .fio, .safe, .ring, .can, .boot] P) (h0 : Keeps P s t) :
    Keeps P s (imageEnd a1 t) := by
  unfold imageEnd
  exact (Keeps.ite h0 (by
    split
    rename_i x1 e1
    have h1 : Keeps P s x1 := Keeps.ofEq e1 (skipOthers_keeps (hP.of (by decide)) h0)
    extract_lets -merge -useContext x2 x3 x4
    have h3 : Keeps P s x3 := (stage_keeps (hP.of (by decide)) (readBytes_keeps (hP.of (by decide)) h1))
    clear_value x3
    exact (Keeps.ite (slotFail_keeps (hP.of (by decide)) h1) (Keeps.ite (slotFail_keeps (hP.of (by decide)) h1) (Keeps.ite (slotFail_keeps (hP.of (by decide)) h3) (imageGood_keeps (hP.of (by decide)) h3))))))

theorem execEnd_keeps {a1 a2} (hP : Within [.now, .regs, .pts, .attrs, .held, .snaps, .mem, .bad, .busData, .queues, .sides, .stalls, .q0pend, .helm, .fresh, .mot, .ax, .gear, .sup, .env, .igrp, .homing, .stp, .pwmA, .pwmG, .pinsLow, .loop, .clu, .enc, .cmpPins, .latPins, .sdm, .hk, .drv, .adm, .pwr, .fio, .safe, .ring, .can, .boot] P) (h0 : Keeps P s t) :
    Runs P s (execEnd a1 a2 t) := by
  unfold execEnd
  exact (Runs.next (imageEnd_keeps (hP.of (by decide)) (atTime_keeps (hP.of (by decide)) h0)))

theorem execRingWatchZero_keeps {a1} (hP : Within [.now, .regs, .pts, .queues, .q0pend, .helm, .fresh, .mot, .ax, .gear, .igrp, .homing, .pwmA, .pwmG, .pinsLow, .loop, .clu, .drv, .adm, .pwr, .safe, .ring, .can, .boot] P) (h0 : Keeps P s t) :
    Runs P s (execRingWatchZero a1 t) := by
  unfold execRingWatchZero
  extract_lets -merge -useContext x1
  have h1 : Keeps P s x1 := (atTime_keeps (hP.of (by decide)) h0)
  clear_value x1
  exact (Runs.next (Keeps.ite (commitLate_keeps (hP.of (by decide)) (modBoot_keeps (hP.of (by decide)) (ringZero_keeps (hP.of (by decide)) h1))) h1))

theorem sealSample_keeps {a1} (hP : Within [.regs, .pts, .attrs, .held, .snaps, .mem, .bad, .busData, .queues, .sides, .stalls, .q0pend, .helm, .fresh, .mot, .ax, .gear, .sup, .env, .igrp, .homing, .stp, .pwmA, .pwmG, .loop, .clu, .enc, .cmpPins, .latPins, .sdm, .hk, .drv, .adm, .pwr, .safe, .ring, .can, .boot] P) (h0 : Keeps P s t) :
    Keeps P s (sealSample a1 t) := by
  unfold sealSample
  extract_lets -merge -useContext x1
  have h1 : Keeps P s x1 := (modSafe_keeps (hP.of (by decide)) h0)
  clear_value x1
  exact (Keeps.ite (sealSeen_keeps (hP.of (by decide)) h1) h1)

theorem execSafetyCycle_keeps {a1 a2 a3 a4} (hP : Within [.now, .regs, .pts, .attrs, .held, .snaps, .mem, .bad, .busData, .queues, .sides, .stalls, .q0pend, .helm, .fresh, .mot, .ax, .gear, .sup, .env, .igrp, .homing, .stp, .pwmA, .pwmG, .loop, .clu, .enc, .cmpPins, .latPins, .sdm, .hk, .drv, .adm, .pwr, .safe, .ring, .can, .boot] P) (h0 : Keeps P s t) :
    Runs P s (execSafetyCycle a1 a2 a3 a4 t) := by
  unfold execSafetyCycle
  extract_lets -merge -useContext x1
  have h1 : Keeps P s x1 := (atTime_keeps (hP.of (by decide)) h0)
  clear_value x1
  exact (Runs.next (Keeps.ite h1 (sealSample_keeps (hP.of (by decide)) (safetyCycle_keeps (hP.of (by decide)) h1))))

theorem trial_keeps {b bad l} (hP : Within [.regs] P) {o : Option State} (h0 : ∀ x, o = some x → Keeps P s x) :
    ∀ x, trial b bad l o = some x → Keeps P s x := by
  unfold trial
  induction l generalizing o with
  | nil => exact h0
  | cons i l ih =>
    refine ih ?_
    intro x hx
    cases o with
    | none => cases hx
    | some y =>
      have hy := h0 y rfl
      simp only [Option.bind_some] at hx
      split at hx
      · split at hx
        · cases hx
        · cases hx; exact copySet_keeps (hP.of (by decide)) hy
      · cases hx; exact hy

end Sys2Proof.Machine
end

