-- ==== Sys2Proof/Laws/KeepsHelm.lean ====
section
/-!
SUPPORT. What the operations of Machine/Helm.lean may touch, and that they keep the canonical form: one lemma per operation.
-/
namespace Sys2Proof.Machine

variable {P : List Part} {s t : State}

theorem standbyDone_keeps (hP : Within [.pts, .helm] P) (h0 : Keeps P s t) :
    Keeps P s (standbyDone t) := by
  unfold standbyDone
  extract_lets -merge -useContext x1
  have h1 : Keeps P s x1 := (modHelm_keeps (hP.of (by decide)) h0)
  clear_value x1
  exact (Keeps.ite (Keeps.ite (setMode_keeps (hP.of (by decide)) h1) h1) h0)

theorem reqDone_keeps {a1} (hP : Within [.regs, .pts, .queues, .q0pend, .helm, .ax, .clu] P) (h0 : Keeps P s t) :
    Keeps P s (reqDone a1 t) := by
  unfold reqDone
  extract_lets -merge -useContext x1 x2 x3
  have h2 : Keeps P s x2 := (setPt_keeps (hP.of (by decide)) h0)
  clear_value x2
  have h3 : Keeps P s x3 := (modHelm_keeps (hP.of (by decide)) h2)
  clear_value x3
  exact (Keeps.ite h3 (ev_keeps (hP.of (by decide)) h3))

theorem reqStandby_keeps (hP : Within [.regs, .pts, .queues, .q0pend, .helm, .ax, .clu] P) (h0 : Keeps P s t) :
    Keeps P s (reqStandby t) := by
  unfold reqStandby
  exact (Keeps.ite (reqDone_keeps (hP.of (by decide)) h0) (reqDone_keeps (hP.of (by decide)) (modHelm_keeps (hP.of (by decide)) h0)))

theorem enterOn_keeps {a1 a2} (hP : Within [.pts, .helm, .ring] P) (h0 : Keeps P s t) :
    Keeps P s (enterOn a1 a2 t) := by
  unfold enterOn
  extract_lets -merge -useContext x1
  have h1 : Keeps P s x1 := (modHelm_keeps (hP.of (by decide)) (setMode_keeps (hP.of (by decide)) h0))
  clear_value x1
  exact (Keeps.ite (modRing_keeps (hP.of (by decide)) h1) h1)

theorem reqRun_keeps {a1} (hP : Within [.regs, .pts, .queues, .q0pend, .helm, .ax, .clu, .ring] P) (h0 : Keeps P s t) :
    Keeps P s (reqRun a1 t) := by
  unfold reqRun
  exact (Keeps.ite (modHelm_keeps (hP.of (by decide)) h0) (Keeps.ite (reqDone_keeps (hP.of (by decide)) h0) (Keeps.ite (reqDone_keeps (hP.of (by decide)) (enterOn_keeps (hP.of (by decide)) h0)) (reqDone_keeps (hP.of (by decide)) h0))))

theorem reqSleep_keeps (hP : Within [.regs, .pts, .queues, .q0pend, .helm, .ax, .clu, .pwr] P) (h0 : Keeps P s t) :
    Keeps P s (reqSleep t) := by
  unfold reqSleep
  extract_lets -merge -useContext x1 x2 x3
  have h1 : Keeps P s x1 := (modHelm_keeps (hP.of (by decide)) (reqDone_keeps (hP.of (by decide)) h0))
  clear_value x1
  have h2 : Keeps P s x2 := (bwBit_keeps (hP.of (by decide)) h1)
  clear_value x2
  exact (Keeps.ite (reqDone_keeps (hP.of (by decide)) h0) (Keeps.ite (reqDone_keeps (hP.of (by decide)) h0) (Keeps.upd h2 (by intro p hp; cases p <;> first | exact absurd (hP _ (by decide)) hp | rfl) ⟨rfl, rfl, rfl, rfl⟩)))

theorem leaveHalt_keeps (hP : Within [.pts, .helm, .safe] P) (h0 : Keeps P s t) :
    Keeps P s (leaveHalt t) := by
  unfold leaveHalt
  exact (sumUpd_keeps (hP.of (by decide)) (faultnUpd_keeps (hP.of (by decide)) (setMode_keeps (hP.of (by decide)) (modSafe_keeps (hP.of (by decide)) h0))))

theorem reqAck_keeps {a1} (hP : Within [.regs, .pts, .queues, .q0pend, .helm, .mot, .ax, .gear, .igrp, .homing, .pwmA, .pwmG, .loop, .clu, .drv, .adm, .safe] P) (h0 : Keeps P s t) :
    Keeps P s (reqAck a1 t) := by
  unfold reqAck
  exact (Keeps.ite (reqDone_keeps (hP.of (by decide)) h0) (by
    split
    rename_i x1 e1
    have h1 : Keeps P s x1 := Keeps.ofEq e1 (acknowledge_keeps (hP.of (by decide)) (ackUncertain_keeps (hP.of (by decide)) h0))
    split
    · exact (reqDone_keeps (hP.of (by decide)) h1)
    · exact (Keeps.ite (reqDone_keeps (hP.of (by decide)) (modHelm_keeps (hP.of (by decide)) h1)) (Keeps.ite (reqDone_keeps (hP.of (by decide)) (leaveHalt_keeps (hP.of (by decide)) (modHelm_keeps (hP.of (by decide)) h1))) (reqDone_keeps (hP.of (by decide)) (ev_keeps (hP.of (by decide)) h1))))))

theorem reqThaw_keeps (hP : Within [.regs, .pts, .queues, .stalls, .q0pend, .helm, .ax, .clu] P) (h0 : Keeps P s t) :
    Keeps P s (reqThaw t) := by
  unfold reqThaw
  extract_lets -merge -useContext x1
  exact (Keeps.ite (reqDone_keeps (hP.of (by decide)) (ev_keeps (hP.of (by decide)) h0)) (Keeps.ite (reqDone_keeps (hP.of (by decide)) (thawMaster_keeps (hP.of (by decide)) h0)) (reqDone_keeps (hP.of (by decide)) (ev_keeps (hP.of (by decide)) h0))))

theorem takeReq_keeps {a1} (hP : Within [.regs, .pts, .queues, .stalls, .q0pend, .helm, .mot, .ax, .gear, .igrp, .homing, .pwmA, .pwmG, .loop, .clu, .drv, .adm, .pwr, .safe, .ring] P) (h0 : Keeps P s t) :
    Keeps P s (takeReq a1 t) := by
  unfold takeReq
  split
  · exact h0
  · exact (Keeps.ite (reqDone_keeps (hP.of (by decide)) h0) (Keeps.ite (reqDone_keeps (hP.of (by decide)) h0) (Keeps.ite (reqStandby_keeps (hP.of (by decide)) h0) (Keeps.ite (reqRun_keeps (hP.of (by decide)) h0) (Keeps.ite (reqSleep_keeps (hP.of (by decide)) h0) (Keeps.ite (reqAck_keeps (hP.of (by decide)) h0) (reqThaw_keeps (hP.of (by decide)) h0)))))))

theorem atRequest_keeps {a1 a2} (hP : Within [.regs, .pts, .queues, .stalls, .q0pend, .helm, .mot, .ax, .gear, .igrp, .homing, .pwmA, .pwmG, .loop, .clu, .drv, .adm, .pwr, .safe, .ring] P) (h0 : Keeps P s t) :
    Keeps P s (atRequest a1 a2 t) := by
  unfold atRequest
  exact (Keeps.ite (standbyDone_keeps (hP.of (by decide)) (takeReq_keeps (hP.of (by decide)) h0)) h0)

theorem safeStopSeen_keeps (hP : Within [.pts] P) (h0 : Keeps P s t) :
    Keeps P s (safeStopSeen t) := by
  unfold safeStopSeen
  extract_lets -merge -useContext x1
  have h1 : Keeps P s x1 := (setPt_keeps (hP.of (by decide)) h0)
  clear_value x1
  exact (Keeps.ite (setMode_keeps (hP.of (by decide)) h1) h1)

theorem safeStopExit_keeps {a1} (hP : Within [.regs, .pts, .queues, .q0pend, .helm, .mot, .ax, .gear, .igrp, .homing, .loop, .clu, .drv, .adm, .pwr, .safe, .ring, .boot] P) (h0 : Keeps P s t) :
    Keeps P s (safeStopExit a1 t) := by
  unfold safeStopExit
  extract_lets -merge -useContext x1
  have h1 : Keeps P s x1 := (safeStopSeen_keeps (hP.of (by decide)) h0)
  clear_value x1
  exact (Keeps.ite h1 (Keeps.ite (haltEntry_keeps (hP.of (by decide)) h1) (Keeps.ite (enterOn_keeps (hP.of (by decide)) h1) h1)))

theorem deviceBoundary_keeps {a1} (hP : Within [.regs, .pts, .attrs, .held, .bad, .queues, .stalls, .q0pend, .helm, .fresh, .mot, .ax, .gear, .sup, .env, .igrp, .homing, .stp, .pwmA, .pwmG, .pinsLow, .loop, .clu, .sdm, .drv, .adm, .pwr, .safe, .ring, .can, .boot] P) (h0 : Keeps P s t) :
    Keeps P s (deviceBoundary a1 t) := by
  unfold deviceBoundary
  extract_lets -merge -useContext x1
  have h1 : Keeps P s x1 := (forEach_keeps (fun _ _ h2 => (Keeps.ite (watchBoundary_keeps (hP.of (by decide)) h2) (Keeps.ite h2 (publish_keeps (hP.of (by decide)) (stoppedWork_keeps (hP.of (by decide)) h2))))) h0)
  clear_value x1
  exact (Keeps.ite (Keeps.ite (bootDone_keeps (hP.of (by decide)) (standbyDone_keeps (hP.of (by decide)) (takeReq_keeps (hP.of (by decide)) (safeStopExit_keeps (hP.of (by decide)) h1)))) h1) h0)

theorem dispatch3_keeps {a1} (hP : Within [.regs, .pts, .queues, .q0pend, .helm, .mot, .ax, .gear, .igrp, .homing, .loop, .clu, .drv, .adm, .pwr, .safe, .boot] P) (h0 : Keeps P s t) :
    Keeps P s (dispatch3 a1 t) := by
  unfold dispatch3
  exact (Keeps.ite h0 (Keeps.ite (bootHalt_keeps (hP.of (by decide)) h0) (haltEntry_keeps (hP.of (by decide)) h0)))

theorem dispatch2_keeps {a1} (hP : Within [.regs, .pts, .queues, .q0pend, .helm, .mot, .ax, .gear, .igrp, .homing, .pwmA, .loop, .clu, .drv, .adm] P) (h0 : Keeps P s t) :
    Keeps P s (dispatch2 a1 t) := by
  unfold dispatch2
  exact (forEach_keeps (fun _ _ h1 => (Keeps.ite (groupOff_keeps (hP.of (by decide)) h1) h1)) h0)

theorem dispatch_keeps {a1} (hP : Within [.regs, .pts, .queues, .q0pend, .helm, .mot, .ax, .gear, .igrp, .homing, .pwmA, .loop, .clu, .drv, .adm, .pwr, .safe, .boot] P) (h0 : Keeps P s t) :
    Keeps P s (dispatch a1 t) := by
  unfold dispatch
  split
  · exact (Keeps.ite (dispatch3_keeps (hP.of (by decide)) h0) (Keeps.ite (dispatch2_keeps (hP.of (by decide)) h0) h0))
  · exact h0

theorem eccPoint_keeps (hP : Within [.pts, .helm] P) (h0 : Keeps P s t) :
    Keeps P s (eccPoint t) := by
  unfold eccPoint
  extract_lets -merge -useContext x1
  have h1 : Keeps P s x1 := (Keeps.ite (modHelm_keeps (hP.of (by decide)) h0) h0)
  clear_value x1
  exact (setPt_keeps (hP.of (by decide)) h1)

theorem execModeReqStandby_keeps {a1} (hP : Within [.now, .regs, .pts, .queues, .stalls, .q0pend, .helm, .mot, .ax, .gear, .igrp, .homing, .pwmA, .pwmG, .loop, .clu, .drv, .adm, .pwr, .safe, .ring] P) (h0 : Keeps P s t) :
    Runs P s (execModeReqStandby a1 t) := by
  unfold execModeReqStandby
  exact (Runs.next (atRequest_keeps (hP.of (by decide)) (atTime_keeps (hP.of (by decide)) h0)))

theorem execModeReqRun_keeps {a1} (hP : Within [.now, .regs, .pts, .queues, .stalls, .q0pend, .helm, .mot, .ax, .gear, .igrp, .homing, .pwmA, .pwmG, .loop, .clu, .drv, .adm, .pwr, .safe, .ring] P) (h0 : Keeps P s t) :
    Runs P s (execModeReqRun a1 t) := by
  unfold execModeReqRun
  exact (Runs.next (atRequest_keeps (hP.of (by decide)) (atTime_keeps (hP.of (by decide)) h0)))

theorem execModeReqSleep_keeps {a1} (hP : Within [.now, .regs, .pts, .queues, .stalls, .q0pend, .helm, .mot, .ax, .gear, .igrp, .homing, .pwmA, .pwmG, .loop, .clu, .drv, .adm, .pwr, .safe, .ring] P) (h0 : Keeps P s t) :
    Runs P s (execModeReqSleep a1 t) := by
  unfold execModeReqSleep
  exact (Runs.next (atRequest_keeps (hP.of (by decide)) (atTime_keeps (hP.of (by decide)) h0)))

theorem execFaultAck_keeps {a1} (hP : Within [.now, .regs, .pts, .queues, .stalls, .q0pend, .helm, .mot, .ax, .gear, .igrp, .homing, .pwmA, .pwmG, .loop, .clu, .drv, .adm, .pwr, .safe, .ring] P) (h0 : Keeps P s t) :
    Runs P s (execFaultAck a1 t) := by
  unfold execFaultAck
  exact (Runs.next (atRequest_keeps (hP.of (by decide)) (atTime_keeps (hP.of (by decide)) h0)))

theorem execThaw_keeps {a1} (hP : Within [.now, .regs, .pts, .queues, .stalls, .q0pend, .helm, .mot, .ax, .gear, .igrp, .homing, .pwmA, .pwmG, .loop, .clu, .drv, .adm, .pwr, .safe, .ring] P) (h0 : Keeps P s t) :
    Runs P s (execThaw a1 t) := by
  unfold execThaw
  exact (Runs.next (atRequest_keeps (hP.of (by decide)) (atTime_keeps (hP.of (by decide)) h0)))

theorem execModeReqUndefined_keeps {a1} (hP : Within [.now, .regs, .pts, .queues, .stalls, .q0pend, .helm, .mot, .ax, .gear, .igrp, .homing, .pwmA, .pwmG, .loop, .clu, .drv, .adm, .pwr, .safe, .ring] P) (h0 : Keeps P s t) :
    Runs P s (execModeReqUndefined a1 t) := by
  unfold execModeReqUndefined
  exact (Runs.next (atRequest_keeps (hP.of (by decide)) (atTime_keeps (hP.of (by decide)) h0)))

theorem execRunReleaseWave_keeps {a1} (hP : Within [.now, .regs, .pts, .queues, .stalls, .q0pend, .helm, .mot, .ax, .gear, .igrp, .homing, .pwmA, .pwmG, .loop, .clu, .drv, .adm, .pwr, .safe, .ring] P) (h0 : Keeps P s t) :
    Runs P s (execRunReleaseWave a1 t) := by
  unfold execRunReleaseWave
  extract_lets -merge -useContext x1
  have h1 : Keeps P s x1 := (atTime_keeps (hP.of (by decide)) h0)
  clear_value x1
  exact (Runs.next (Keeps.ite (atRequest_keeps (hP.of (by decide)) h1) h1))

theorem ownerCheck_keeps (hP : Within [.regs, .pts, .queues, .q0pend, .helm, .ax, .clu] P) (h0 : Keeps P s t) :
    Keeps P s (ownerCheck t) := by
  unfold ownerCheck
  extract_lets -merge -useContext x1
  exact (Keeps.ite (modHelm_keeps (hP.of (by decide)) (raise_keeps (hP.of (by decide)) h0)) h0)

theorem execOwnerLost_keeps {a1} (hP : Within [.now, .regs, .pts, .queues, .q0pend, .helm, .ax, .clu] P) (h0 : Keeps P s t) :
    Runs P s (execOwnerLost a1 t) := by
  unfold execOwnerLost
  extract_lets -merge -useContext x1
  have h1 : Keeps P s x1 := (atTime_keeps (hP.of (by decide)) h0)
  clear_value x1
  exact (Runs.next (Keeps.ite (ownerCheck_keeps (hP.of (by decide)) h1) h1))

theorem q0Lost_keeps (hP : Within [.regs, .pts, .queues, .q0pend, .helm, .ax, .clu] P) (h0 : Keeps P s t) :
    Keeps P s (q0Lost t) := by
  unfold q0Lost
  exact (Keeps.ite (raiseDev_keeps (hP.of (by decide)) h0) h0)

theorem queue0Take_keeps {a1} (hP : Within [.regs, .pts, .queues, .q0pend, .helm, .mot, .ax, .gear, .igrp, .homing, .pwmA, .loop, .clu, .drv, .adm, .pwr, .safe, .boot] P) (h0 : Keeps P s t) :
    Keeps P s (queue0Take a1 t) := by
  unfold queue0Take
  extract_lets -merge -useContext x1 x2
  have h1 : Keeps P s x1 := (Keeps.ite h0 (by
    split
    · rename_i x3 e3
      have h3 : Keeps P s x3 := Keeps.ofEq e3 (popItem_keeps (hP.of (by decide)) h0)
      exact (dispatch_keeps (hP.of (by decide)) h3)
    · rename_i x4 e4
      have h4 : Keeps P s x4 := Keeps.ofEq e4 (popItem_keeps (hP.of (by decide)) h0)
      exact h4))
  clear_value x1
  have h2 : Keeps P s x2 := (q0Lost_keeps (hP.of (by decide)) (drainQ0_keeps (hP.of (by decide)) h1))
  clear_value x2
  exact (Keeps.ite (haltEntry_keeps (hP.of (by decide)) h2) h2)

theorem execHelmQueue0Take_keeps {a1 a2} (hP : Within [.now, .regs, .pts, .queues, .q0pend, .helm, .mot, .ax, .gear, .igrp, .homing, .pwmA, .loop, .clu, .drv, .adm, .pwr, .safe, .boot] P) (h0 : Keeps P s t) :
    Runs P s (execHelmQueue0Take a1 a2 t) := by
  unfold execHelmQueue0Take
  extract_lets -merge -useContext x1
  have h1 : Keeps P s x1 := (atTime_keeps (hP.of (by decide)) h0)
  clear_value x1
  exact (Runs.next (Keeps.ite (queue0Take_keeps (hP.of (by decide)) h1) h1))

theorem execSafeStopEntry_keeps {a1} (hP : Within [.now, .pts] P) (h0 : Keeps P s t) :
    Runs P s (execSafeStopEntry a1 t) := by
  unfold execSafeStopEntry
  extract_lets -merge -useContext x1
  have h1 : Keeps P s x1 := (atTime_keeps (hP.of (by decide)) h0)
  clear_value x1
  exact (Runs.next (Keeps.ite (safeStopSeen_keeps (hP.of (by decide)) h1) h1))

theorem execDeviceBoundary_keeps {a1} (hP : Within [.now, .regs, .pts, .attrs, .held, .bad, .queues, .stalls, .q0pend, .helm, .fresh, .mot, .ax, .gear, .sup, .env, .igrp, .homing, .stp, .pwmA, .pwmG, .pinsLow, .loop, .clu, .sdm, .drv, .adm, .pwr, .safe, .ring, .can, .boot] P) (h0 : Keeps P s t) :
    Runs P s (execDeviceBoundary a1 t) := by
  unfold execDeviceBoundary
  exact (Runs.next (deviceBoundary_keeps (hP.of (by decide)) (atTime_keeps (hP.of (by decide)) h0)))

theorem passBorec_keeps {a1} (hP : Within [.regs, .pts] P) (h0 : Keeps P s t) :
    Keeps P s (passBorec a1 t) := by
  unfold passBorec
  extract_lets -merge -useContext x1
  exact (Keeps.ite (setPt_keeps (hP.of (by decide)) (borec_keeps (hP.of (by decide)) h0)) h0)

theorem passSafety_keeps (hP : Within [.pts, .safe] P) (h0 : Keeps P s t) :
    Keeps P s (passSafety t) := by
  unfold passSafety
  extract_lets -merge -useContext x1 x2 x3
  have h2 : Keeps P s x2 := (Keeps.ite (setPt_keeps (hP.of (by decide)) (modSafe_keeps (hP.of (by decide)) h0)) h0)
  clear_value x2
  exact (Keeps.ite (setPt_keeps (hP.of (by decide)) (modSafe_keeps (hP.of (by decide)) h2)) h2)

theorem mirrorPoints_keeps (hP : Within [.pts] P) (h0 : Keeps P s t) :
    Keeps P s (mirrorPoints t) := by
  unfold mirrorPoints
  extract_lets -merge -useContext x1 x2 x3 x4 x5
  have h1 : Keeps P s x1 := (forEach_keeps (fun _ _ h6 => (setPt_keeps (hP.of (by decide)) h6)) h0)
  clear_value x1
  have h2 : Keeps P s x2 := (setPt_keeps (hP.of (by decide)) h1)
  clear_value x2
  have h3 : Keeps P s x3 := (setPt_keeps (hP.of (by decide)) h2)
  clear_value x3
  have h4 : Keeps P s x4 := (forEach_keeps (fun _ _ h7 => (setPt_keeps (hP.of (by decide)) h7)) h3)
  clear_value x4
  have h5 : Keeps P s x5 := (by
    unfold x5
    split
    · exact (setPt64_keeps (hP.of (by decide)) h4)
    · exact h4)
  clear_value x5
  exact (setPt_keeps (hP.of (by decide)) (fioPoints_keeps (hP.of (by decide)) h5))

theorem logDeliver_keeps {a1 a2 a3 a4 a5} (hP : Within [.regs, .pts, .attrs, .held, .bad, .queues, .q0pend, .helm, .ax, .clu, .drv, .safe, .can, .boot] P) (h0 : Keeps P s t) :
    Keeps P s (logDeliver a1 a2 a3 a4 a5 t) := by
  unfold logDeliver
  extract_lets -merge -useContext x1 x2
  have h2 : Keeps P s x2 := (forEach_keeps (fun _ _ h3 => (chartWrite_keeps (hP.of (by decide)) h3)) (chartWrite_keeps (hP.of (by decide)) h0))
  clear_value x2
  exact (Keeps.ite (forEach_keeps (fun _ _ h4 => (setPt_keeps (hP.of (by decide)) h4)) h0) (Keeps.ite (pushWhole_keeps (hP.of (by decide)) h0) (chartWrite_keeps (hP.of (by decide)) h2)))

theorem logRequest_keeps (hP : Within [.regs, .pts, .attrs, .held, .bad, .queues, .q0pend, .helm, .ax, .clu, .drv, .safe, .can, .boot] P) (h0 : Keeps P s t) :
    Keeps P s (logRequest t) := by
  unfold logRequest
  extract_lets -merge -useContext x1 x2 x3 x4 x5 x6 x7 x8 x9 x10
  have h10 : Keeps P s x10 := (setPt_keeps (hP.of (by decide)) (Keeps.ite (logDeliver_keeps (hP.of (by decide)) h0) h0))
  clear_value x10
  exact (Keeps.ite h0 (setPt_keeps (hP.of (by decide)) (setPt_keeps (hP.of (by decide)) h10)))

theorem takeMails_keeps (hP : Within [.regs, .pts, .queues, .q0pend, .helm, .ax, .clu, .boot] P) : ∀ {k : Nat} {t : State}, Keeps P s t → Keeps P s (takeMails k t)
  | 0, _, h => h
  | k + 1, t, h => by
    unfold takeMails
    refine Keeps.ite ?_ h
    split
    · rename_i e
      exact takeMails_keeps hP (updMsg_keeps (hP.of (by decide)) (popWhole_keeps (hP.of (by decide)) h e))
    · exact h

theorem helm1ms_keeps (hP : Within [.regs, .pts, .attrs, .held, .bad, .queues, .q0pend, .helm, .ax, .clu, .drv, .safe, .can, .boot] P) (h0 : Keeps P s t) :
    Keeps P s (helm1ms t) := by
  unfold helm1ms
  extract_lets -merge -useContext x1 x2 x3
  have h1 : Keeps P s x1 := (modSafe_keeps (hP.of (by decide)) h0)
  clear_value x1
  have h2 : Keeps P s x2 := (forEach_keeps (fun _ _ h4 => (passBorec_keeps (hP.of (by decide)) h4)) (passSafety_keeps (hP.of (by decide)) h1))
  clear_value x2
  have h3 : Keeps P s x3 := (eccPoint_keeps (hP.of (by decide)) (mirrorPoints_keeps (hP.of (by decide)) h2))
  clear_value x3
  exact (logRequest_keeps (hP.of (by decide)) (takeMails_keeps (hP.of (by decide)) (ownerCheck_keeps (hP.of (by decide)) h3)))

theorem execHelm1msUpdate_keeps {a1} (hP : Within [.now, .regs, .pts, .attrs, .held, .bad, .queues, .q0pend, .helm, .ax, .clu, .drv, .safe, .can, .boot] P) (h0 : Keeps P s t) :
    Runs P s (execHelm1msUpdate a1 t) := by
  unfold execHelm1msUpdate
  extract_lets -merge -useContext x1
  have h1 : Keeps P s x1 := (atTime_keeps (hP.of (by decide)) h0)
  clear_value x1
  exact (Runs.next (Keeps.ite (helm1ms_keeps (hP.of (by decide)) h1) h1))

theorem logHead_keeps {a1} (hP : Within [.regs, .pts] P) (h0 : Keeps P s t) :
    Keeps P s (logHead a1 t) := by
  unfold logHead
  extract_lets -merge -useContext x1 x2 x3 x4
  have h4 : Keeps P s x4 := (bwBit_keeps (hP.of (by decide)) (bw_keeps (hP.of (by decide)) (bw_keeps (hP.of (by decide)) h0)))
  clear_value x4
  exact (setPt_keeps (hP.of (by decide)) (setPt_keeps (hP.of (by decide)) (setPt_keeps (hP.of (by decide)) h4)))

theorem logPut_keeps {a1} (hP : Within [.regs, .pts, .mem] P) (h0 : Keeps P s t) :
    Keeps P s (logPut a1 t) := by
  unfold logPut
  extract_lets -merge -useContext x1
  exact (logHead_keeps (hP.of (by decide)) (writeWords_keeps (hP.of (by decide)) h0))

theorem logDump_keeps {a1 a2 a3 a4} (hP : Within [.regs, .pts, .mem] P) (h0 : Keeps P s t) :
    Keeps P s (logDump a1 a2 a3 a4 t) := by
  unfold logDump
  extract_lets -merge -useContext x1 x2
  exact (forEach_keeps (fun _ _ h3 => (logPut_keeps (hP.of (by decide)) h3)) h0)

theorem logFollow_keeps {a1} (hP : Within [.regs, .pts, .mem, .helm] P) (h0 : Keeps P s t) :
    Keeps P s (logFollow a1 t) := by
  unfold logFollow
  extract_lets -merge -useContext x1 x2 x3 x4 x5 x6 x7 x8
  have h4 : ∀ b9 x, Keeps P s x → Keeps P s (x4 b9 x) := fun _ _ h10 => (logDump_keeps (hP.of (by decide)) h10)
  clear_value x4
  have h6 : Keeps P s x6 := (h4 _ _ h0)
  clear_value x6
  have h7 : Keeps P s x7 := (modHelm_keeps (hP.of (by decide)) h6)
  clear_value x7
  have h8 : Keeps P s x8 := (bwBit_keeps (hP.of (by decide)) h7)
  clear_value x8
  exact (Keeps.ite (setPt_keeps (hP.of (by decide)) h8) (Keeps.ite (h4 _ _ h0) h0))

theorem logEntry_keeps {a1} (hP : Within [.regs, .pts, .mem, .queues, .q0pend, .helm, .ax, .clu] P) (h0 : Keeps P s t) : Keeps P s (logEntry a1 t) := by
  unfold logEntry
  refine Keeps.ite h0 ?_
  extract_lets x
  have hx : Keeps P s x := Keeps.ite (logHead_keeps (hP.of (by decide)) (bwSat_keeps (hP.of (by decide)) h0)) h0
  clear_value x
  split
  · exact hx
  · rename_i e
    exact logFollow_keeps (hP.of (by decide)) (logPut_keeps (hP.of (by decide)) (popWhole_keeps (hP.of (by decide)) hx e))

theorem execLogEntryWrite_keeps {a1 a2} (hP : Within [.now, .regs, .pts, .mem, .queues, .q0pend, .helm, .ax, .clu] P) (h0 : Keeps P s t) :
    Runs P s (execLogEntryWrite a1 a2 t) := by
  unfold execLogEntryWrite
  extract_lets -merge -useContext x1
  have h1 : Keeps P s x1 := (atTime_keeps (hP.of (by decide)) h0)
  clear_value x1
  exact (Runs.next (Keeps.ite (logEntry_keeps (hP.of (by decide)) h1) h1))

theorem execLogRequest_keeps {a1} (hP : Within [.now, .regs, .pts, .attrs, .held, .bad, .queues, .q0pend, .helm, .ax, .clu, .drv, .safe, .can, .boot] P) (h0 : Keeps P s t) :
    Runs P s (execLogRequest a1 t) := by
  unfold execLogRequest
  extract_lets -merge -useContext x1
  have h1 : Keeps P s x1 := (atTime_keeps (hP.of (by decide)) h0)
  clear_value x1
  exact (Runs.next (Keeps.ite (logRequest_keeps (hP.of (by decide)) h1) h1))

end Sys2Proof.Machine
end

