-- ==== Sys2Proof/Laws/KeepsPower.lean ====
section
/-!
SUPPORT. What the operations of Machine/Power.lean may touch, and that they keep the canonical form: one lemma per operation.
-/
namespace Sys2Proof.Machine

variable {P : List Part} {s t : State}

theorem modPwr_keeps {a1} (hP : Within [.pwr] P) (h0 : Keeps P s t) :
    Keeps P s (modPwr a1 t) := by
  unfold modPwr
  exact (Keeps.upd h0 (by intro p hp; cases p <;> first | exact absurd (hP _ (by decide)) hp | rfl) ⟨rfl, rfl, rfl, rfl⟩)

theorem modPins_keeps {a1} (hP : Within [.pins] P) (h0 : Keeps P s t) :
    Keeps P s (modPins a1 t) := by
  unfold modPins
  exact (Keeps.upd h0 (by intro p hp; cases p <;> first | exact absurd (hP _ (by decide)) hp | rfl) ⟨rfl, rfl, rfl, rfl⟩)

theorem tapOff_keeps (hP : Within [.pins] P) (h0 : Keeps P s t) :
    Keeps P s (tapOff t) := by
  unfold tapOff
  exact (modPins_keeps (hP.of (by decide)) h0)

theorem railsDown_keeps (hP : Within [.now, .regs, .pts, .attrs, .held, .snaps, .mem, .bad, .busData, .queues, .sides, .stalls, .q0pend, .helm, .mot, .ax, .gear, .sup, .env, .igrp, .homing, .stp, .pwmA, .pwmG, .pinsLow, .loop, .clu, .enc, .cmpPins, .latPins, .sdm, .hk, .drv, .adm, .pwr, .fio, .safe, .ring, .can, .boot, .pins] P) (h0 : Keeps P s t) :
    Keeps P s (railsDown t) := by
  unfold railsDown
  exact (bw_keeps (hP.of (by decide)) (modPwr_keeps (hP.of (by decide)) (tapOff_keeps (hP.of (by decide)) (resetState_keeps (hP.of (by decide)) h0))))

theorem cause_keeps {a1} (hP : Within [.regs] P) (h0 : Keeps P s t) :
    Keeps P s (cause a1 t) := by
  unfold cause
  exact (bw_keeps (hP.of (by decide)) h0)

theorem causeRail_keeps {a1 a2} (hP : Within [.regs] P) (h0 : Keeps P s t) :
    Keeps P s (causeRail a1 a2 t) := by
  unfold causeRail
  exact (bw_keeps (hP.of (by decide)) h0)

theorem brownout_keeps {a1 a2} (hP : Within [.now, .regs, .pts, .attrs, .held, .snaps, .mem, .bad, .busData, .queues, .sides, .stalls, .q0pend, .helm, .mot, .ax, .gear, .sup, .env, .igrp, .homing, .stp, .pwmA, .pwmG, .pinsLow, .loop, .clu, .enc, .cmpPins, .latPins, .sdm, .hk, .drv, .adm, .pwr, .fio, .safe, .ring, .can, .boot, .pins] P) (h0 : Keeps P s t) :
    Keeps P s (brownout a1 a2 t) := by
  unfold brownout
  extract_lets -merge -useContext x1
  have h1 : Keeps P s x1 := (Keeps.ite (railsDown_keeps (hP.of (by decide)) (modPwr_keeps (hP.of (by decide)) h0)) h0)
  clear_value x1
  exact (Keeps.ite (cause_keeps (hP.of (by decide)) h1) (Keeps.ite (causeRail_keeps (hP.of (by decide)) h1) (bwBit_keeps (hP.of (by decide)) (cause_keeps (hP.of (by decide)) (modPwr_keeps (hP.of (by decide)) h1)))))

theorem railsUp_keeps (hP : Within [.regs, .pwr] P) (h0 : Keeps P s t) :
    Keeps P s (railsUp t) := by
  unfold railsUp
  exact (bw_keeps (hP.of (by decide)) (modPwr_keeps (hP.of (by decide)) h0))

theorem execPowerUp_keeps (hP : Within [.regs, .pwr] P) (h0 : Keeps P s t) :
    Runs P s (execPowerUp t) := by
  unfold execPowerUp
  exact (Runs.next (Keeps.ite h0 (railsUp_keeps (hP.of (by decide)) (bw_keeps (hP.of (by decide)) (cause_keeps (hP.of (by decide)) (modPwr_keeps (hP.of (by decide)) h0))))))

theorem execRailTmo_keeps {a1} (hP : Within [.now, .regs, .pts, .attrs, .held, .snaps, .mem, .bad, .busData, .queues, .sides, .stalls, .q0pend, .helm, .mot, .ax, .gear, .sup, .env, .igrp, .homing, .stp, .pwmA, .pwmG, .pinsLow, .loop, .clu, .enc, .cmpPins, .latPins, .sdm, .hk, .drv, .adm, .pwr, .fio, .safe, .ring, .can, .boot, .pins] P) (h0 : Keeps P s t) :
    Runs P s (execRailTmo a1 t) := by
  unfold execRailTmo
  exact (Runs.next (Keeps.ite (causeRail_keeps (hP.of (by decide)) (railsDown_keeps (hP.of (by decide)) (modPwr_keeps (hP.of (by decide)) h0))) h0))

theorem execBrownout_keeps {a1 a2} (hP : Within [.now, .regs, .pts, .attrs, .held, .snaps, .mem, .bad, .busData, .queues, .sides, .stalls, .q0pend, .helm, .mot, .ax, .gear, .sup, .env, .igrp, .homing, .stp, .pwmA, .pwmG, .pinsLow, .loop, .clu, .enc, .cmpPins, .latPins, .sdm, .hk, .drv, .adm, .pwr, .fio, .safe, .ring, .can, .boot, .pins] P) (h0 : Keeps P s t) :
    Runs P s (execBrownout a1 a2 t) := by
  unfold execBrownout
  exact (Runs.next (brownout_keeps (hP.of (by decide)) h0))

theorem execResetnExternalLow_keeps (hP : Within [.now, .regs, .pts, .attrs, .held, .snaps, .mem, .bad, .busData, .queues, .sides, .stalls, .q0pend, .helm, .mot, .ax, .gear, .sup, .env, .igrp, .homing, .stp, .pwmA, .pwmG, .pinsLow, .loop, .clu, .enc, .cmpPins, .latPins, .sdm, .hk, .drv, .adm, .pwr, .fio, .safe, .ring, .can, .boot] P) (h0 : Keeps P s t) :
    Runs P s (execResetnExternalLow t) := by
  unfold execResetnExternalLow
  exact (Runs.next (Keeps.ite (cause_keeps (hP.of (by decide)) (modPwr_keeps (hP.of (by decide)) (resetState_keeps (hP.of (by decide)) h0))) h0))

theorem wake_keeps {a1 a2} (hP : Within [.pwr] P) (h0 : Keeps P s t) :
    Keeps P s (wake a1 a2 t) := by
  unfold wake
  extract_lets -merge -useContext x1 x2
  exact (Keeps.ite h0 (modPwr_keeps (hP.of (by decide)) h0))

theorem execRingWakePattern_keeps {a1} (hP : Within [.now, .pwr] P) (h0 : Keeps P s t) :
    Runs P s (execRingWakePattern a1 t) := by
  unfold execRingWakePattern
  extract_lets -merge -useContext x1
  have h1 : Keeps P s x1 := (atTime_keeps (hP.of (by decide)) h0)
  clear_value x1
  exact (Runs.next (Keeps.ite (wake_keeps (hP.of (by decide)) h1) h1))

theorem execCanWake_keeps {a1 a2 a3} (hP : Within [.now, .pwr] P) (h0 : Keeps P s t) :
    Runs P s (execCanWake a1 a2 a3 t) := by
  unfold execCanWake
  extract_lets -merge -useContext x1 x2
  have h1 : Keeps P s x1 := (atTime_keeps (hP.of (by decide)) h0)
  clear_value x1
  exact (Runs.next (Keeps.ite (wake_keeps (hP.of (by decide)) h1) h1))

theorem execWakePin_keeps {a1 a2 a3} (hP : Within [.now, .pwr] P) (h0 : Keeps P s t) :
    Runs P s (execWakePin a1 a2 a3 t) := by
  unfold execWakePin
  extract_lets -merge -useContext x1 x2
  have h1 : Keeps P s x1 := (atTime_keeps (hP.of (by decide)) h0)
  clear_value x1
  exact (Runs.next (Keeps.ite (wake_keeps (hP.of (by decide)) h1) h1))

theorem sleepEnter_keeps (hP : Within [.regs, .pts, .queues, .q0pend, .helm, .mot, .ax, .gear, .igrp, .homing, .pwmA, .pwmG, .pinsLow, .loop, .clu, .sdm, .drv, .adm, .pwr, .fio, .safe, .ring] P) (h0 : Keeps P s t) :
    Keeps P s (sleepEnter t) := by
  unfold sleepEnter
  extract_lets -merge -useContext x1 x2 x3 x4 x5 x6 x7
  have h1 : Keeps P s x1 := (modPwr_keeps (hP.of (by decide)) h0)
  clear_value x1
  have h2 : Keeps P s x2 := (bwBit_keeps (hP.of (by decide)) (modHelm_keeps (hP.of (by decide)) h1))
  clear_value x2
  have h3 : Keeps P s x3 := (stoDecide_keeps (hP.of (by decide)) (setMode_keeps (hP.of (by decide)) h2))
  clear_value x3
  have h4 : Keeps P s x4 := (modDrv_keeps (hP.of (by decide)) h3)
  clear_value x4
  have h5 : Keeps P s x5 := (bwBit_keeps (hP.of (by decide)) (bwBit_keeps (hP.of (by decide)) (bwBit_keeps (hP.of (by decide)) h4)))
  clear_value x5
  have h6 : Keeps P s x6 := (modFio_keeps (hP.of (by decide)) (bwBit_keeps (hP.of (by decide)) h5))
  clear_value x6
  have h7 : Keeps P s x7 := (modRing_keeps (hP.of (by decide)) (ringBit_keeps (hP.of (by decide)) h6))
  clear_value x7
  exact (sdmSleep_keeps (hP.of (by decide)) (Keeps.upd h7 (by intro p hp; cases p <;> first | exact absurd (hP _ (by decide)) hp | rfl) ⟨rfl, rfl, rfl, rfl⟩))

theorem execSleepEntered_keeps {a1} (hP : Within [.now, .regs, .pts, .queues, .q0pend, .helm, .mot, .ax, .gear, .igrp, .homing, .pwmA, .pwmG, .pinsLow, .loop, .clu, .sdm, .drv, .adm, .pwr, .fio, .safe, .ring] P) (h0 : Keeps P s t) :
    Runs P s (execSleepEntered a1 t) := by
  unfold execSleepEntered
  extract_lets -merge -useContext x1
  have h1 : Keeps P s x1 := (atTime_keeps (hP.of (by decide)) h0)
  clear_value x1
  exact (Runs.next (Keeps.ite (sleepEnter_keeps (hP.of (by decide)) h1) h1))

theorem execRefclkLost_keeps {a1} (hP : Within [.now, .regs, .pts, .queues, .q0pend, .helm, .ax, .clu] P) (h0 : Keeps P s t) :
    Runs P s (execRefclkLost a1 t) := by
  unfold execRefclkLost
  extract_lets -merge -useContext x1
  have h1 : Keeps P s x1 := (atTime_keeps (hP.of (by decide)) h0)
  clear_value x1
  exact (Runs.next (Keeps.ite (raiseDev_keeps (hP.of (by decide)) (bwBit_keeps (hP.of (by decide)) h1)) h1))

theorem execDpllUnlock_keeps {a1 a2} (hP : Within [.now, .regs, .pts, .queues, .q0pend, .helm, .ax, .clu] P) (h0 : Keeps P s t) :
    Runs P s (execDpllUnlock a1 a2 t) := by
  unfold execDpllUnlock
  extract_lets -merge -useContext x1
  have h1 : Keeps P s x1 := (atTime_keeps (hP.of (by decide)) h0)
  clear_value x1
  exact (Runs.next (Keeps.ite (raiseDev_keeps (hP.of (by decide)) (bwBit_keeps (hP.of (by decide)) h1)) h1))

theorem execTestenHigh_keeps (hP : Within [.now, .regs, .pts, .attrs, .held, .snaps, .mem, .bad, .busData, .queues, .sides, .stalls, .q0pend, .helm, .mot, .ax, .gear, .sup, .env, .igrp, .homing, .stp, .pwmA, .pwmG, .pinsLow, .loop, .clu, .enc, .cmpPins, .latPins, .sdm, .hk, .drv, .adm, .pwr, .fio, .safe, .ring, .can, .boot, .pins] P) (h0 : Keeps P s t) :
    Runs P s (execTestenHigh t) := by
  unfold execTestenHigh
  extract_lets -merge -useContext x1
  have h1 : Keeps P s x1 := (modPins_keeps (hP.of (by decide)) h0)
  clear_value x1
  exact (Runs.next (Keeps.ite (resetState_keeps (hP.of (by decide)) h1) h1))

theorem tapLoad_keeps {a1 a2} (hP : Within [.now, .regs, .pts, .attrs, .held, .snaps, .mem, .bad, .busData, .queues, .sides, .stalls, .q0pend, .helm, .mot, .ax, .gear, .sup, .env, .igrp, .homing, .stp, .pwmA, .pwmG, .pinsLow, .loop, .clu, .enc, .cmpPins, .latPins, .sdm, .hk, .drv, .adm, .pwr, .fio, .safe, .ring, .can, .boot, .pins] P) (h0 : Keeps P s t) :
    Keeps P s (tapLoad a1 a2 t) := by
  unfold tapLoad
  extract_lets -merge -useContext x1 x2
  have h1 : Keeps P s x1 := (modPins_keeps (hP.of (by decide)) h0)
  clear_value x1
  have h2 : Keeps P s x2 := (modPins_keeps (hP.of (by decide)) h1)
  clear_value x2
  exact (Keeps.ite (by
    split
    · exact (Keeps.ite (startBoot_keeps (hP.of (by decide)) h2) h2)
    · exact h2) h1)

theorem tapDrive_keeps {a1} (hP : Within [.now, .regs, .pts, .attrs, .held, .snaps, .mem, .bad, .busData, .queues, .sides, .stalls, .q0pend, .helm, .mot, .ax, .gear, .sup, .env, .igrp, .homing, .stp, .pwmA, .pwmG, .pinsLow, .loop, .clu, .enc, .cmpPins, .latPins, .sdm, .hk, .drv, .adm, .pwr, .fio, .safe, .ring, .can, .boot, .pins] P) (h0 : Keeps P s t) :
    Keeps P s (tapDrive a1 t) := by
  unfold tapDrive
  exact (tapLoad_keeps (hP.of (by decide)) h0)

theorem execExtest_keeps {a1} (hP : Within [.now, .regs, .pts, .attrs, .held, .snaps, .mem, .bad, .busData, .queues, .sides, .stalls, .q0pend, .helm, .mot, .ax, .gear, .sup, .env, .igrp, .homing, .stp, .pwmA, .pwmG, .pinsLow, .loop, .clu, .enc, .cmpPins, .latPins, .sdm, .hk, .drv, .adm, .pwr, .fio, .safe, .ring, .can, .boot, .pins] P) (h0 : Keeps P s t) :
    Runs P s (execExtest a1 t) := by
  unfold execExtest
  exact (Runs.next (tapDrive_keeps (hP.of (by decide)) (Keeps.ite (modPins_keeps (hP.of (by decide)) h0) h0)))

theorem execIdcode_keeps (hP : Within [.now, .regs, .pts, .attrs, .held, .snaps, .mem, .bad, .busData, .queues, .sides, .stalls, .q0pend, .helm, .mot, .ax, .gear, .sup, .env, .igrp, .homing, .stp, .pwmA, .pwmG, .pinsLow, .loop, .clu, .enc, .cmpPins, .latPins, .sdm, .hk, .drv, .adm, .pwr, .fio, .safe, .ring, .can, .boot, .pins] P) (h0 : Keeps P s t) :
    Runs P s (execIdcode t) := by
  unfold execIdcode
  exact (Runs.next (tapLoad_keeps (hP.of (by decide)) h0))

theorem execSamplePreload_keeps {a1 a2} (hP : Within [.now, .regs, .pts, .attrs, .held, .snaps, .mem, .bad, .busData, .queues, .sides, .stalls, .q0pend, .helm, .mot, .ax, .gear, .sup, .env, .igrp, .homing, .stp, .pwmA, .pwmG, .pinsLow, .loop, .clu, .enc, .cmpPins, .latPins, .sdm, .hk, .drv, .adm, .pwr, .fio, .safe, .ring, .can, .boot, .pins] P) (h0 : Keeps P s t) :
    Runs P s (execSamplePreload a1 a2 t) := by
  unfold execSamplePreload
  exact (Runs.next (tapLoad_keeps (hP.of (by decide)) (modPins_keeps (hP.of (by decide)) h0)))

theorem execClamp_keeps (hP : Within [.now, .regs, .pts, .attrs, .held, .snaps, .mem, .bad, .busData, .queues, .sides, .stalls, .q0pend, .helm, .mot, .ax, .gear, .sup, .env, .igrp, .homing, .stp, .pwmA, .pwmG, .pinsLow, .loop, .clu, .enc, .cmpPins, .latPins, .sdm, .hk, .drv, .adm, .pwr, .fio, .safe, .ring, .can, .boot, .pins] P) (h0 : Keeps P s t) :
    Runs P s (execClamp t) := by
  unfold execClamp
  exact (Runs.next (tapDrive_keeps (hP.of (by decide)) h0))

theorem execHighz_keeps (hP : Within [.now, .regs, .pts, .attrs, .held, .snaps, .mem, .bad, .busData, .queues, .sides, .stalls, .q0pend, .helm, .mot, .ax, .gear, .sup, .env, .igrp, .homing, .stp, .pwmA, .pwmG, .pinsLow, .loop, .clu, .enc, .cmpPins, .latPins, .sdm, .hk, .drv, .adm, .pwr, .fio, .safe, .ring, .can, .boot, .pins] P) (h0 : Keeps P s t) :
    Runs P s (execHighz t) := by
  unfold execHighz
  exact (Runs.next (tapDrive_keeps (hP.of (by decide)) h0))

theorem execBypass_keeps (hP : Within [.now, .regs, .pts, .attrs, .held, .snaps, .mem, .bad, .busData, .queues, .sides, .stalls, .q0pend, .helm, .mot, .ax, .gear, .sup, .env, .igrp, .homing, .stp, .pwmA, .pwmG, .pinsLow, .loop, .clu, .enc, .cmpPins, .latPins, .sdm, .hk, .drv, .adm, .pwr, .fio, .safe, .ring, .can, .boot, .pins] P) (h0 : Keeps P s t) :
    Runs P s (execBypass t) := by
  unfold execBypass
  exact (Runs.next (tapLoad_keeps (hP.of (by decide)) h0))

theorem execOvpRelease_keeps (hP : Within [.regs, .pwr] P) (h0 : Keeps P s t) :
    Runs P s (execOvpRelease t) := by
  unfold execOvpRelease
  extract_lets -merge -useContext x1
  have h1 : Keeps P s x1 := (bwBit_keeps (hP.of (by decide)) (modPwr_keeps (hP.of (by decide)) h0))
  clear_value x1
  exact (Runs.next (Keeps.ite (Keeps.ite h1 (railsUp_keeps (hP.of (by decide)) h1)) h0))

theorem execRailSequenceRestart_keeps (hP : Within [.regs, .pwr] P) (h0 : Keeps P s t) :
    Runs P s (execRailSequenceRestart t) := by
  unfold execRailSequenceRestart
  exact (Runs.next (Keeps.ite h0 (railsUp_keeps (hP.of (by decide)) h0)))

theorem execWakeStepElapsed_keeps {a1} (hP : Within [.now, .pwr] P) (h0 : Keeps P s t) :
    Runs P s (execWakeStepElapsed a1 t) := by
  unfold execWakeStepElapsed
  extract_lets -merge -useContext x1
  have h1 : Keeps P s x1 := (atTime_keeps (hP.of (by decide)) h0)
  clear_value x1
  exact (Runs.next (by
    split
    · exact (Keeps.ite (modPwr_keeps (hP.of (by decide)) h1) h1)
    · exact h1))

theorem execTestenRelease_keeps (hP : Within [.pins] P) (h0 : Keeps P s t) :
    Runs P s (execTestenRelease t) := by
  unfold execTestenRelease
  exact (Runs.next (modPins_keeps (hP.of (by decide)) h0))

theorem execTestLogicReset_keeps (hP : Within [.now, .regs, .pts, .attrs, .held, .snaps, .mem, .bad, .busData, .queues, .sides, .stalls, .q0pend, .helm, .mot, .ax, .gear, .sup, .env, .igrp, .homing, .stp, .pwmA, .pwmG, .pinsLow, .loop, .clu, .enc, .cmpPins, .latPins, .sdm, .hk, .drv, .adm, .pwr, .fio, .safe, .ring, .can, .boot, .pins] P) (h0 : Keeps P s t) :
    Runs P s (execTestLogicReset t) := by
  unfold execTestLogicReset
  exact (Runs.next (tapLoad_keeps (hP.of (by decide)) h0))

end Sys2Proof.Machine
end

