-- ==== Sys2Proof/Laws/KeepsSxIssue.lean ====
section
/-!
SUPPORT. What the operations of Machine/SxIssue.lean may touch, and that they keep the canonical form: one lemma per operation.
-/
namespace Sys2Proof.Machine

variable {P : List Part} {s t : State}

theorem extPlain_keeps {a1 a2 a3 a4} (hP : Within [.now, .regs, .pts, .attrs, .held, .mem, .bad, .queues, .q0pend, .helm, .ax, .homing, .pwmA, .pwmG, .clu, .cmpPins, .drv, .safe, .can, .boot] P) (h0 : Keeps P s t) :
    Keeps P s (extPlain a1 a2 a3 a4 t) := by
  unfold extPlain
  exact (Keeps.ite (busWrite_keeps (hP.of (by decide)) h0) (by
    split
    rename_i x1 e1
    have h1 : Keeps P s x1 := Keeps.ofEq e1 (access_keeps (hP.of (by decide)) h0)
    exact (Keeps.ite (writeAt_keeps (hP.of (by decide)) h1) h1)))

theorem extWrite_keeps {a1 a2 a3 a4} (hP : Within [.now, .regs, .pts, .attrs, .held, .mem, .bad, .queues, .q0pend, .helm, .ax, .homing, .pwmA, .pwmG, .clu, .cmpPins, .drv, .safe, .can, .boot] P) (h0 : Keeps P s t) :
    Keeps P s (extWrite a1 a2 a3 a4 t) := by
  unfold extWrite
  split
  · exact (Keeps.ite (by
      split
      rename_i x1 e1
      have h1 : Keeps P s x1 := Keeps.ofEq e1 (access_keeps (hP.of (by decide)) h0)
      exact (Keeps.ite (pushItem_keeps (hP.of (by decide)) h1) h1)) (extPlain_keeps (hP.of (by decide)) h0))
  · exact (extPlain_keeps (hP.of (by decide)) h0)
  · exact (busWrite_keeps (hP.of (by decide)) h0)

theorem drainWrite_keeps {a1} (hP : Within [.now, .regs, .pts, .attrs, .held, .mem, .bad, .queues, .q0pend, .helm, .ax, .homing, .pwmA, .pwmG, .clu, .cmpPins, .drv, .safe, .can, .boot] P) (h0 : Keeps P s t) :
    Keeps P s (drainWrite a1 t) := by
  unfold drainWrite
  extract_lets -merge -useContext x1
  split
  · exact h0
  · extract_lets -merge -useContext x2
    have h2 : Keeps P s x2 := (modClu_keeps (hP.of (by decide)) h0)
    clear_value x2
    exact (Keeps.ite h0 (Keeps.ite (Keeps.ite (bwBit_keeps (hP.of (by decide)) (extWrite_keeps (hP.of (by decide)) (bwBit_keeps (hP.of (by decide)) h2))) h2) (extWrite_keeps (hP.of (by decide)) h2)))

theorem dutyPort_keeps {a1 a2 a3} (hP : Within [.pwmA] P) (h0 : Keeps P s t) :
    Keeps P s (dutyPort a1 a2 a3 t) := by
  unfold dutyPort
  exact (Keeps.dite (fun _ => (putDuty_keeps (hP.of (by decide)) h0)) (fun _ => (Keeps.dite (fun _ => (putMark_keeps (hP.of (by decide)) h0)) (fun _ => h0))))

theorem dutyOp_keeps {a1 a2 a3 a4 a5 a6} (hP : Within [.pwmA] P) (h0 : Keeps P s t) :
    Keeps P s (dutyOp a1 a2 a3 a4 a5 a6 t) := by
  unfold dutyOp
  exact (Keeps.ite (forEach_keeps (fun _ _ h1 => (dutyPort_keeps (hP.of (by decide)) h1)) h0) (dutyPort_keeps (hP.of (by decide)) h0))

theorem sxFault_keeps {a1 a2 a3} (hP : Within [.regs, .pts, .queues, .q0pend, .helm, .ax, .clu] P) (h0 : Keeps P s t) :
    Keeps P s (sxFault a1 a2 a3 t) := by
  unfold sxFault
  extract_lets -merge -useContext x1 x2 x3
  have h2 : Keeps P s x2 := (sw_keeps (hP.of (by decide)) h0)
  clear_value x2
  have h3 : Keeps P s x3 := (modClu_keeps (hP.of (by decide)) h2)
  clear_value x3
  exact (Keeps.ite (raiseGrp_keeps (hP.of (by decide)) h3) (ev_keeps (hP.of (by decide)) h3))

theorem trigReturn_keeps {a1} (hP : Within [.regs, .pts, .queues, .fresh, .loop, .clu] P) (h0 : Keeps P s t) :
    Keeps P s (trigReturn a1 t) := by
  unfold trigReturn
  extract_lets -merge -useContext x1 x2 x3 x4
  have h4 : Keeps P s x4 := (Keeps.ite (sw_keeps (hP.of (by decide)) h0) h0)
  clear_value x4
  exact (chainNext_keeps (hP.of (by decide)) h4)

theorem runWord_keeps {a1 a2 a3} (hP : Within [.regs, .pts, .queues, .fresh, .pwmA, .loop, .clu] P) (h0 : Keeps P s t) :
    Keeps P s (runWord a1 a2 a3 t) := by
  unfold runWord
  extract_lets -merge -useContext x1
  have h1 : Keeps P s x1 := (Keeps.upd h0 (by intro p hp; cases p <;> first | exact absurd (hP _ (by decide)) hp | rfl) ⟨rfl, rfl, rfl, rfl⟩)
  clear_value x1
  split
  · exact (dutyOp_keeps (hP.of (by decide)) h1)
  · exact (trigReturn_keeps (hP.of (by decide)) h1)
  · exact h1

theorem issueWord_keeps {a1 a2 a3} (hP : Within [.regs, .pts, .queues, .q0pend, .helm, .fresh, .ax, .pwmA, .loop, .clu] P) (h0 : Keeps P s t) :
    Keeps P s (issueWord a1 a2 a3 t) := by
  unfold issueWord
  extract_lets -merge -useContext x1
  exact (Keeps.ite (sxFault_keeps (hP.of (by decide)) h0) (by
    split
    · split
      rename_i x2 e2
      have h2 : Keeps P s x2 := Keeps.ofEq e2 (takeFresh_keeps (hP.of (by decide)) h0)
      exact (sxFault_keeps (hP.of (by decide)) h2)
    · split
      · exact (sxFault_keeps (hP.of (by decide)) h0)
      · exact (Keeps.ite h0 (runWord_keeps (hP.of (by decide)) h0))))

theorem issue_keeps {a1 a2 a3} (hP : Within [.now, .regs, .pts, .queues, .q0pend, .helm, .fresh, .ax, .pwmA, .loop, .clu] P) (h0 : Keeps P s t) :
    Keeps P s (issue a1 a2 a3 t) := by
  unfold issue
  extract_lets -merge -useContext x1
  have h1 : Keeps P s x1 := (atTime_keeps (hP.of (by decide)) h0)
  clear_value x1
  exact (Keeps.ite (by
    split
    · exact (Keeps.ite (issueWord_keeps (hP.of (by decide)) h1) h1)
    · exact h1) h1)

theorem extReturn_keeps {a1 a2} (hP : Within [.regs, .pts, .attrs, .held, .snaps, .mem, .bad, .queues, .q0pend, .helm, .fresh, .ax, .clu, .drv, .safe, .boot] P) (h0 : Keeps P s t) :
    Keeps P s (extReturn a1 a2 t) := by
  unfold extReturn
  extract_lets -merge -useContext x1
  split
  · exact h0
  · split
    · exact h0
    · split
      · exact (modClu_keeps (hP.of (by decide)) h0)
      · extract_lets -merge -useContext x2 x3
        split
        rename_i x4 e4
        have h4 : Keeps P s x4 := Keeps.ofEq e4 (busRead_keeps (hP.of (by decide)) h0)
        exact (Keeps.ite h4 (by
          split
          · exact h4
          · split
            rename_i x5 e5
            have h5 : Keeps P s x5 := Keeps.ofEq e5 (takeFresh_keeps (hP.of (by decide)) h4)
            extract_lets -merge -useContext x6
            exact (Keeps.ite (modClu_keeps (hP.of (by decide)) h5) (modClu_keeps (hP.of (by decide)) h5))))

theorem execExtReadReturn_keeps {a1 a2 a3} (hP : Within [.now, .regs, .pts, .attrs, .held, .snaps, .mem, .bad, .queues, .q0pend, .helm, .fresh, .ax, .clu, .drv, .safe, .boot] P) (h0 : Keeps P s t) :
    Runs P s (execExtReadReturn a1 a2 a3 t) := by
  unfold execExtReadReturn
  exact (Runs.next (extReturn_keeps (hP.of (by decide)) (atTime_keeps (hP.of (by decide)) h0)))

theorem execPostedWriteDrain_keeps {a1 a2} (hP : Within [.now, .regs, .pts, .attrs, .held, .mem, .bad, .queues, .q0pend, .helm, .ax, .homing, .pwmA, .pwmG, .clu, .cmpPins, .drv, .safe, .can, .boot] P) (h0 : Keeps P s t) :
    Runs P s (execPostedWriteDrain a1 a2 t) := by
  unfold execPostedWriteDrain
  exact (Runs.next (drainWrite_keeps (hP.of (by decide)) (atTime_keeps (hP.of (by decide)) h0)))

theorem issueUndefined_keeps {a1 a2} (hP : Within [.now, .regs, .pts, .queues, .q0pend, .helm, .ax, .clu] P) (h0 : Keeps P s t) :
    Keeps P s (issueUndefined a1 a2 t) := by
  unfold issueUndefined
  extract_lets -merge -useContext x1
  have h1 : Keeps P s x1 := (atTime_keeps (hP.of (by decide)) h0)
  clear_value x1
  exact (Keeps.ite (by
    split
    · exact (Keeps.ite (sxFault_keeps (hP.of (by decide)) h1) h1)
    · exact (sxFault_keeps (hP.of (by decide)) h1)) h1)

end Sys2Proof.Machine
end

