-- ==== Sys2Proof/Laws/KeepsSxRows.lean ====
section
/-!
SUPPORT. What the operations of Machine/SxRows.lean may touch, and that they keep the canonical form: one lemma per operation.
-/
namespace Sys2Proof.Machine

variable {P : List Part} {s t : State}

theorem execSxNop_keeps {a1 a2} (hP : Within [.now, .regs, .pts, .queues, .q0pend, .helm, .fresh, .ax, .pwmA, .loop, .clu] P) (h0 : Keeps P s t) :
    Runs P s (execSxNop a1 a2 t) := by
  unfold execSxNop
  exact (Runs.next (issue_keeps (hP.of (by decide)) h0))

theorem execSxAdd_keeps {a1 a2} (hP : Within [.now, .regs, .pts, .queues, .q0pend, .helm, .fresh, .ax, .pwmA, .loop, .clu] P) (h0 : Keeps P s t) :
    Runs P s (execSxAdd a1 a2 t) := by
  unfold execSxAdd
  exact (Runs.next (issue_keeps (hP.of (by decide)) h0))

theorem execSxSub_keeps {a1 a2} (hP : Within [.now, .regs, .pts, .queues, .q0pend, .helm, .fresh, .ax, .pwmA, .loop, .clu] P) (h0 : Keeps P s t) :
    Runs P s (execSxSub a1 a2 t) := by
  unfold execSxSub
  exact (Runs.next (issue_keeps (hP.of (by decide)) h0))

theorem execSxAbs_keeps {a1 a2} (hP : Within [.now, .regs, .pts, .queues, .q0pend, .helm, .fresh, .ax, .pwmA, .loop, .clu] P) (h0 : Keeps P s t) :
    Runs P s (execSxAbs a1 a2 t) := by
  unfold execSxAbs
  exact (Runs.next (issue_keeps (hP.of (by decide)) h0))

theorem execSxNeg_keeps {a1 a2} (hP : Within [.now, .regs, .pts, .queues, .q0pend, .helm, .fresh, .ax, .pwmA, .loop, .clu] P) (h0 : Keeps P s t) :
    Runs P s (execSxNeg a1 a2 t) := by
  unfold execSxNeg
  exact (Runs.next (issue_keeps (hP.of (by decide)) h0))

theorem execSxMax_keeps {a1 a2} (hP : Within [.now, .regs, .pts, .queues, .q0pend, .helm, .fresh, .ax, .pwmA, .loop, .clu] P) (h0 : Keeps P s t) :
    Runs P s (execSxMax a1 a2 t) := by
  unfold execSxMax
  exact (Runs.next (issue_keeps (hP.of (by decide)) h0))

theorem execSxMin_keeps {a1 a2} (hP : Within [.now, .regs, .pts, .queues, .q0pend, .helm, .fresh, .ax, .pwmA, .loop, .clu] P) (h0 : Keeps P s t) :
    Runs P s (execSxMin a1 a2 t) := by
  unfold execSxMin
  exact (Runs.next (issue_keeps (hP.of (by decide)) h0))

theorem execSxMov_keeps {a1 a2} (hP : Within [.now, .regs, .pts, .queues, .q0pend, .helm, .fresh, .ax, .pwmA, .loop, .clu] P) (h0 : Keeps P s t) :
    Runs P s (execSxMov a1 a2 t) := by
  unfold execSxMov
  exact (Runs.next (issue_keeps (hP.of (by decide)) h0))

theorem execSxAnd_keeps {a1 a2} (hP : Within [.now, .regs, .pts, .queues, .q0pend, .helm, .fresh, .ax, .pwmA, .loop, .clu] P) (h0 : Keeps P s t) :
    Runs P s (execSxAnd a1 a2 t) := by
  unfold execSxAnd
  exact (Runs.next (issue_keeps (hP.of (by decide)) h0))

theorem execSxOr_keeps {a1 a2} (hP : Within [.now, .regs, .pts, .queues, .q0pend, .helm, .fresh, .ax, .pwmA, .loop, .clu] P) (h0 : Keeps P s t) :
    Runs P s (execSxOr a1 a2 t) := by
  unfold execSxOr
  exact (Runs.next (issue_keeps (hP.of (by decide)) h0))

theorem execSxXor_keeps {a1 a2} (hP : Within [.now, .regs, .pts, .queues, .q0pend, .helm, .fresh, .ax, .pwmA, .loop, .clu] P) (h0 : Keeps P s t) :
    Runs P s (execSxXor a1 a2 t) := by
  unfold execSxXor
  exact (Runs.next (issue_keeps (hP.of (by decide)) h0))

theorem execSxLsl_keeps {a1 a2} (hP : Within [.now, .regs, .pts, .queues, .q0pend, .helm, .fresh, .ax, .pwmA, .loop, .clu] P) (h0 : Keeps P s t) :
    Runs P s (execSxLsl a1 a2 t) := by
  unfold execSxLsl
  exact (Runs.next (issue_keeps (hP.of (by decide)) h0))

theorem execSxLsr_keeps {a1 a2} (hP : Within [.now, .regs, .pts, .queues, .q0pend, .helm, .fresh, .ax, .pwmA, .loop, .clu] P) (h0 : Keeps P s t) :
    Runs P s (execSxLsr a1 a2 t) := by
  unfold execSxLsr
  exact (Runs.next (issue_keeps (hP.of (by decide)) h0))

theorem execSxAsr_keeps {a1 a2} (hP : Within [.now, .regs, .pts, .queues, .q0pend, .helm, .fresh, .ax, .pwmA, .loop, .clu] P) (h0 : Keeps P s t) :
    Runs P s (execSxAsr a1 a2 t) := by
  unfold execSxAsr
  exact (Runs.next (issue_keeps (hP.of (by decide)) h0))

theorem execSxCmpeq_keeps {a1 a2} (hP : Within [.now, .regs, .pts, .queues, .q0pend, .helm, .fresh, .ax, .pwmA, .loop, .clu] P) (h0 : Keeps P s t) :
    Runs P s (execSxCmpeq a1 a2 t) := by
  unfold execSxCmpeq
  exact (Runs.next (issue_keeps (hP.of (by decide)) h0))

theorem execSxCmplt_keeps {a1 a2} (hP : Within [.now, .regs, .pts, .queues, .q0pend, .helm, .fresh, .ax, .pwmA, .loop, .clu] P) (h0 : Keeps P s t) :
    Runs P s (execSxCmplt a1 a2 t) := by
  unfold execSxCmplt
  exact (Runs.next (issue_keeps (hP.of (by decide)) h0))

theorem execSxCmple_keeps {a1 a2} (hP : Within [.now, .regs, .pts, .queues, .q0pend, .helm, .fresh, .ax, .pwmA, .loop, .clu] P) (h0 : Keeps P s t) :
    Runs P s (execSxCmple a1 a2 t) := by
  unfold execSxCmple
  exact (Runs.next (issue_keeps (hP.of (by decide)) h0))

theorem execSxSel_keeps {a1 a2} (hP : Within [.now, .regs, .pts, .queues, .q0pend, .helm, .fresh, .ax, .pwmA, .loop, .clu] P) (h0 : Keeps P s t) :
    Runs P s (execSxSel a1 a2 t) := by
  unfold execSxSel
  exact (Runs.next (issue_keeps (hP.of (by decide)) h0))

theorem execSxMpy_keeps {a1 a2} (hP : Within [.now, .regs, .pts, .queues, .q0pend, .helm, .fresh, .ax, .pwmA, .loop, .clu] P) (h0 : Keeps P s t) :
    Runs P s (execSxMpy a1 a2 t) := by
  unfold execSxMpy
  exact (Runs.next (issue_keeps (hP.of (by decide)) h0))

theorem execSxMac_keeps {a1 a2} (hP : Within [.now, .regs, .pts, .queues, .q0pend, .helm, .fresh, .ax, .pwmA, .loop, .clu] P) (h0 : Keeps P s t) :
    Runs P s (execSxMac a1 a2 t) := by
  unfold execSxMac
  exact (Runs.next (issue_keeps (hP.of (by decide)) h0))

theorem execSxMsu_keeps {a1 a2} (hP : Within [.now, .regs, .pts, .queues, .q0pend, .helm, .fresh, .ax, .pwmA, .loop, .clu] P) (h0 : Keeps P s t) :
    Runs P s (execSxMsu a1 a2 t) := by
  unfold execSxMsu
  exact (Runs.next (issue_keeps (hP.of (by decide)) h0))

theorem execSxMpyr_keeps {a1 a2} (hP : Within [.now, .regs, .pts, .queues, .q0pend, .helm, .fresh, .ax, .pwmA, .loop, .clu] P) (h0 : Keeps P s t) :
    Runs P s (execSxMpyr a1 a2 t) := by
  unfold execSxMpyr
  exact (Runs.next (issue_keeps (hP.of (by decide)) h0))

theorem execSxClra_keeps {a1 a2} (hP : Within [.now, .regs, .pts, .queues, .q0pend, .helm, .fresh, .ax, .pwmA, .loop, .clu] P) (h0 : Keeps P s t) :
    Runs P s (execSxClra a1 a2 t) := by
  unfold execSxClra
  exact (Runs.next (issue_keeps (hP.of (by decide)) h0))

theorem execSxLda_keeps {a1 a2} (hP : Within [.now, .regs, .pts, .queues, .q0pend, .helm, .fresh, .ax, .pwmA, .loop, .clu] P) (h0 : Keeps P s t) :
    Runs P s (execSxLda a1 a2 t) := by
  unfold execSxLda
  exact (Runs.next (issue_keeps (hP.of (by decide)) h0))

theorem execSxAdda_keeps {a1 a2} (hP : Within [.now, .regs, .pts, .queues, .q0pend, .helm, .fresh, .ax, .pwmA, .loop, .clu] P) (h0 : Keeps P s t) :
    Runs P s (execSxAdda a1 a2 t) := by
  unfold execSxAdda
  exact (Runs.next (issue_keeps (hP.of (by decide)) h0))

theorem execSxSuba_keeps {a1 a2} (hP : Within [.now, .regs, .pts, .queues, .q0pend, .helm, .fresh, .ax, .pwmA, .loop, .clu] P) (h0 : Keeps P s t) :
    Runs P s (execSxSuba a1 a2 t) := by
  unfold execSxSuba
  exact (Runs.next (issue_keeps (hP.of (by decide)) h0))

theorem execSxSha_keeps {a1 a2} (hP : Within [.now, .regs, .pts, .queues, .q0pend, .helm, .fresh, .ax, .pwmA, .loop, .clu] P) (h0 : Keeps P s t) :
    Runs P s (execSxSha a1 a2 t) := by
  unfold execSxSha
  exact (Runs.next (issue_keeps (hP.of (by decide)) h0))

theorem execSxMovxa_keeps {a1 a2} (hP : Within [.now, .regs, .pts, .queues, .q0pend, .helm, .fresh, .ax, .pwmA, .loop, .clu] P) (h0 : Keeps P s t) :
    Runs P s (execSxMovxa a1 a2 t) := by
  unfold execSxMovxa
  exact (Runs.next (issue_keeps (hP.of (by decide)) h0))

theorem execSxExp_keeps {a1 a2} (hP : Within [.now, .regs, .pts, .queues, .q0pend, .helm, .fresh, .ax, .pwmA, .loop, .clu] P) (h0 : Keeps P s t) :
    Runs P s (execSxExp a1 a2 t) := by
  unfold execSxExp
  exact (Runs.next (issue_keeps (hP.of (by decide)) h0))

theorem execSxNorm_keeps {a1 a2} (hP : Within [.now, .regs, .pts, .queues, .q0pend, .helm, .fresh, .ax, .pwmA, .loop, .clu] P) (h0 : Keeps P s t) :
    Runs P s (execSxNorm a1 a2 t) := by
  unfold execSxNorm
  exact (Runs.next (issue_keeps (hP.of (by decide)) h0))

theorem execSxBcast_keeps {a1 a2} (hP : Within [.now, .regs, .pts, .queues, .q0pend, .helm, .fresh, .ax, .pwmA, .loop, .clu] P) (h0 : Keeps P s t) :
    Runs P s (execSxBcast a1 a2 t) := by
  unfold execSxBcast
  exact (Runs.next (issue_keeps (hP.of (by decide)) h0))

theorem execSxExtr_keeps {a1 a2} (hP : Within [.now, .regs, .pts, .queues, .q0pend, .helm, .fresh, .ax, .pwmA, .loop, .clu] P) (h0 : Keeps P s t) :
    Runs P s (execSxExtr a1 a2 t) := by
  unfold execSxExtr
  exact (Runs.next (issue_keeps (hP.of (by decide)) h0))

theorem execSxSadd_keeps {a1 a2} (hP : Within [.now, .regs, .pts, .queues, .q0pend, .helm, .fresh, .ax, .pwmA, .loop, .clu] P) (h0 : Keeps P s t) :
    Runs P s (execSxSadd a1 a2 t) := by
  unfold execSxSadd
  exact (Runs.next (issue_keeps (hP.of (by decide)) h0))

theorem execSxSsub_keeps {a1 a2} (hP : Within [.now, .regs, .pts, .queues, .q0pend, .helm, .fresh, .ax, .pwmA, .loop, .clu] P) (h0 : Keeps P s t) :
    Runs P s (execSxSsub a1 a2 t) := by
  unfold execSxSsub
  exact (Runs.next (issue_keeps (hP.of (by decide)) h0))

theorem execSxSand_keeps {a1 a2} (hP : Within [.now, .regs, .pts, .queues, .q0pend, .helm, .fresh, .ax, .pwmA, .loop, .clu] P) (h0 : Keeps P s t) :
    Runs P s (execSxSand a1 a2 t) := by
  unfold execSxSand
  exact (Runs.next (issue_keeps (hP.of (by decide)) h0))

theorem execSxSor_keeps {a1 a2} (hP : Within [.now, .regs, .pts, .queues, .q0pend, .helm, .fresh, .ax, .pwmA, .loop, .clu] P) (h0 : Keeps P s t) :
    Runs P s (execSxSor a1 a2 t) := by
  unfold execSxSor
  exact (Runs.next (issue_keeps (hP.of (by decide)) h0))

theorem execSxSxor_keeps {a1 a2} (hP : Within [.now, .regs, .pts, .queues, .q0pend, .helm, .fresh, .ax, .pwmA, .loop, .clu] P) (h0 : Keeps P s t) :
    Runs P s (execSxSxor a1 a2 t) := by
  unfold execSxSxor
  exact (Runs.next (issue_keeps (hP.of (by decide)) h0))

theorem execSxSlsl_keeps {a1 a2} (hP : Within [.now, .regs, .pts, .queues, .q0pend, .helm, .fresh, .ax, .pwmA, .loop, .clu] P) (h0 : Keeps P s t) :
    Runs P s (execSxSlsl a1 a2 t) := by
  unfold execSxSlsl
  exact (Runs.next (issue_keeps (hP.of (by decide)) h0))

theorem execSxSlsr_keeps {a1 a2} (hP : Within [.now, .regs, .pts, .queues, .q0pend, .helm, .fresh, .ax, .pwmA, .loop, .clu] P) (h0 : Keeps P s t) :
    Runs P s (execSxSlsr a1 a2 t) := by
  unfold execSxSlsr
  exact (Runs.next (issue_keeps (hP.of (by decide)) h0))

theorem execSxSasr_keeps {a1 a2} (hP : Within [.now, .regs, .pts, .queues, .q0pend, .helm, .fresh, .ax, .pwmA, .loop, .clu] P) (h0 : Keeps P s t) :
    Runs P s (execSxSasr a1 a2 t) := by
  unfold execSxSasr
  exact (Runs.next (issue_keeps (hP.of (by decide)) h0))

theorem execSxScmp_keeps {a1 a2} (hP : Within [.now, .regs, .pts, .queues, .q0pend, .helm, .fresh, .ax, .pwmA, .loop, .clu] P) (h0 : Keeps P s t) :
    Runs P s (execSxScmp a1 a2 t) := by
  unfold execSxScmp
  exact (Runs.next (issue_keeps (hP.of (by decide)) h0))

theorem execSxSmov_keeps {a1 a2} (hP : Within [.now, .regs, .pts, .queues, .q0pend, .helm, .fresh, .ax, .pwmA, .loop, .clu] P) (h0 : Keeps P s t) :
    Runs P s (execSxSmov a1 a2 t) := by
  unfold execSxSmov
  exact (Runs.next (issue_keeps (hP.of (by decide)) h0))

theorem execSxSldi_keeps {a1 a2} (hP : Within [.now, .regs, .pts, .queues, .q0pend, .helm, .fresh, .ax, .pwmA, .loop, .clu] P) (h0 : Keeps P s t) :
    Runs P s (execSxSldi a1 a2 t) := by
  unfold execSxSldi
  exact (Runs.next (issue_keeps (hP.of (by decide)) h0))

theorem execSxSldh_keeps {a1 a2} (hP : Within [.now, .regs, .pts, .queues, .q0pend, .helm, .fresh, .ax, .pwmA, .loop, .clu] P) (h0 : Keeps P s t) :
    Runs P s (execSxSldh a1 a2 t) := by
  unfold execSxSldh
  exact (Runs.next (issue_keeps (hP.of (by decide)) h0))

theorem execSxSaddi_keeps {a1 a2} (hP : Within [.now, .regs, .pts, .queues, .q0pend, .helm, .fresh, .ax, .pwmA, .loop, .clu] P) (h0 : Keeps P s t) :
    Runs P s (execSxSaddi a1 a2 t) := by
  unfold execSxSaddi
  exact (Runs.next (issue_keeps (hP.of (by decide)) h0))

theorem execSxSrd_keeps {a1 a2} (hP : Within [.now, .regs, .pts, .queues, .q0pend, .helm, .fresh, .ax, .pwmA, .loop, .clu] P) (h0 : Keeps P s t) :
    Runs P s (execSxSrd a1 a2 t) := by
  unfold execSxSrd
  exact (Runs.next (issue_keeps (hP.of (by decide)) h0))

theorem execSxSwr_keeps {a1 a2} (hP : Within [.now, .regs, .pts, .queues, .q0pend, .helm, .fresh, .ax, .pwmA, .loop, .clu] P) (h0 : Keeps P s t) :
    Runs P s (execSxSwr a1 a2 t) := by
  unfold execSxSwr
  exact (Runs.next (issue_keeps (hP.of (by decide)) h0))

theorem execSxSwri_keeps {a1 a2} (hP : Within [.now, .regs, .pts, .queues, .q0pend, .helm, .fresh, .ax, .pwmA, .loop, .clu] P) (h0 : Keeps P s t) :
    Runs P s (execSxSwri a1 a2 t) := by
  unfold execSxSwri
  exact (Runs.next (issue_keeps (hP.of (by decide)) h0))

theorem execSxLdb_keeps {a1 a2} (hP : Within [.now, .regs, .pts, .queues, .q0pend, .helm, .fresh, .ax, .pwmA, .loop, .clu] P) (h0 : Keeps P s t) :
    Runs P s (execSxLdb a1 a2 t) := by
  unfold execSxLdb
  exact (Runs.next (issue_keeps (hP.of (by decide)) h0))

theorem execSxLdv_keeps {a1 a2} (hP : Within [.now, .regs, .pts, .queues, .q0pend, .helm, .fresh, .ax, .pwmA, .loop, .clu] P) (h0 : Keeps P s t) :
    Runs P s (execSxLdv a1 a2 t) := by
  unfold execSxLdv
  exact (Runs.next (issue_keeps (hP.of (by decide)) h0))

theorem execSxStl_keeps {a1 a2} (hP : Within [.now, .regs, .pts, .queues, .q0pend, .helm, .fresh, .ax, .pwmA, .loop, .clu] P) (h0 : Keeps P s t) :
    Runs P s (execSxStl a1 a2 t) := by
  unfold execSxStl
  exact (Runs.next (issue_keeps (hP.of (by decide)) h0))

theorem execSxStv_keeps {a1 a2} (hP : Within [.now, .regs, .pts, .queues, .q0pend, .helm, .fresh, .ax, .pwmA, .loop, .clu] P) (h0 : Keeps P s t) :
    Runs P s (execSxStv a1 a2 t) := by
  unfold execSxStv
  exact (Runs.next (issue_keeps (hP.of (by decide)) h0))

theorem execSxLds_keeps {a1 a2} (hP : Within [.now, .regs, .pts, .queues, .q0pend, .helm, .fresh, .ax, .pwmA, .loop, .clu] P) (h0 : Keeps P s t) :
    Runs P s (execSxLds a1 a2 t) := by
  unfold execSxLds
  exact (Runs.next (issue_keeps (hP.of (by decide)) h0))

theorem execSxSts_keeps {a1 a2} (hP : Within [.now, .regs, .pts, .queues, .q0pend, .helm, .fresh, .ax, .pwmA, .loop, .clu] P) (h0 : Keeps P s t) :
    Runs P s (execSxSts a1 a2 t) := by
  unfold execSxSts
  exact (Runs.next (issue_keeps (hP.of (by decide)) h0))

theorem execSxStav_keeps {a1 a2} (hP : Within [.now, .regs, .pts, .queues, .q0pend, .helm, .fresh, .ax, .pwmA, .loop, .clu] P) (h0 : Keeps P s t) :
    Runs P s (execSxStav a1 a2 t) := by
  unfold execSxStav
  exact (Runs.next (issue_keeps (hP.of (by decide)) h0))

theorem execSxDuty_keeps {a1 a2} (hP : Within [.now, .regs, .pts, .queues, .q0pend, .helm, .fresh, .ax, .pwmA, .loop, .clu] P) (h0 : Keeps P s t) :
    Runs P s (execSxDuty a1 a2 t) := by
  unfold execSxDuty
  exact (Runs.next (issue_keeps (hP.of (by decide)) h0))

theorem execSxExtLoad_keeps {a1 a2} (hP : Within [.now, .regs, .pts, .queues, .q0pend, .helm, .fresh, .ax, .pwmA, .loop, .clu] P) (h0 : Keeps P s t) :
    Runs P s (execSxExtLoad a1 a2 t) := by
  unfold execSxExtLoad
  exact (Runs.next (issue_keeps (hP.of (by decide)) h0))

theorem execSxExtStore_keeps {a1 a2} (hP : Within [.now, .regs, .pts, .queues, .q0pend, .helm, .fresh, .ax, .pwmA, .loop, .clu] P) (h0 : Keeps P s t) :
    Runs P s (execSxExtStore a1 a2 t) := by
  unfold execSxExtStore
  exact (Runs.next (issue_keeps (hP.of (by decide)) h0))

theorem execSxLoop_keeps {a1 a2} (hP : Within [.now, .regs, .pts, .queues, .q0pend, .helm, .fresh, .ax, .pwmA, .loop, .clu] P) (h0 : Keeps P s t) :
    Runs P s (execSxLoop a1 a2 t) := by
  unfold execSxLoop
  exact (Runs.next (issue_keeps (hP.of (by decide)) h0))

theorem execSxBr_keeps {a1 a2} (hP : Within [.now, .regs, .pts, .queues, .q0pend, .helm, .fresh, .ax, .pwmA, .loop, .clu] P) (h0 : Keeps P s t) :
    Runs P s (execSxBr a1 a2 t) := by
  unfold execSxBr
  exact (Runs.next (issue_keeps (hP.of (by decide)) h0))

theorem execSxJmp_keeps {a1 a2} (hP : Within [.now, .regs, .pts, .queues, .q0pend, .helm, .fresh, .ax, .pwmA, .loop, .clu] P) (h0 : Keeps P s t) :
    Runs P s (execSxJmp a1 a2 t) := by
  unfold execSxJmp
  exact (Runs.next (issue_keeps (hP.of (by decide)) h0))

theorem execSxRet_keeps {a1 a2} (hP : Within [.now, .regs, .pts, .queues, .q0pend, .helm, .fresh, .ax, .pwmA, .loop, .clu] P) (h0 : Keeps P s t) :
    Runs P s (execSxRet a1 a2 t) := by
  unfold execSxRet
  exact (Runs.next (issue_keeps (hP.of (by decide)) h0))

theorem execSxLdag_keeps {a1 a2} (hP : Within [.now, .regs, .pts, .queues, .q0pend, .helm, .fresh, .ax, .pwmA, .loop, .clu] P) (h0 : Keeps P s t) :
    Runs P s (execSxLdag a1 a2 t) := by
  unfold execSxLdag
  exact (Runs.next (issue_keeps (hP.of (by decide)) h0))

theorem execUndefinedEncoding_keeps {a1 a2} (hP : Within [.now, .regs, .pts, .queues, .q0pend, .helm, .ax, .clu] P) (h0 : Keeps P s t) :
    Runs P s (execUndefinedEncoding a1 a2 t) := by
  unfold execUndefinedEncoding
  exact (Runs.next (issueUndefined_keeps (hP.of (by decide)) h0))

end Sys2Proof.Machine
end

