-- ==== Sys2Proof/Laws/State.lean ====
section
/-!
SUPPORT. The small lemmas of the updates of State: for each named update, what each field of the result is.
-/
namespace Sys2Proof.Machine

variable (s : State)

section
variable (n : Fin 16) (f : Motion → Motion)

@[simp] theorem modMot_now : (modMot n f s).now = s.now := rfl
@[simp] theorem modMot_regs : (modMot n f s).regs = s.regs := rfl
@[simp] theorem modMot_pts : (modMot n f s).pts = s.pts := rfl
@[simp] theorem modMot_attrs : (modMot n f s).attrs = s.attrs := rfl
@[simp] theorem modMot_held : (modMot n f s).held = s.held := rfl
@[simp] theorem modMot_snaps : (modMot n f s).snaps = s.snaps := rfl
@[simp] theorem modMot_mem : (modMot n f s).mem = s.mem := rfl
@[simp] theorem modMot_bad : (modMot n f s).bad = s.bad := rfl
@[simp] theorem modMot_busData : (modMot n f s).busData = s.busData := rfl
@[simp] theorem modMot_queues : (modMot n f s).queues = s.queues := rfl
@[simp] theorem modMot_sides : (modMot n f s).sides = s.sides := rfl
@[simp] theorem modMot_stalls : (modMot n f s).stalls = s.stalls := rfl
@[simp] theorem modMot_q0pend : (modMot n f s).q0pend = s.q0pend := rfl
@[simp] theorem modMot_helm : (modMot n f s).helm = s.helm := rfl
@[simp] theorem modMot_fresh : (modMot n f s).fresh = s.fresh := rfl
@[simp] theorem modMot_ax : (modMot n f s).ax = s.ax := rfl
@[simp] theorem modMot_gear : (modMot n f s).gear = s.gear := rfl
@[simp] theorem modMot_sup : (modMot n f s).sup = s.sup := rfl
@[simp] theorem modMot_env : (modMot n f s).env = s.env := rfl
@[simp] theorem modMot_igrp : (modMot n f s).igrp = s.igrp := rfl
@[simp] theorem modMot_homing : (modMot n f s).homing = s.homing := rfl
@[simp] theorem modMot_stp : (modMot n f s).stp = s.stp := rfl
@[simp] theorem modMot_pwmA : (modMot n f s).pwmA = s.pwmA := rfl
@[simp] theorem modMot_pwmG : (modMot n f s).pwmG = s.pwmG := rfl
@[simp] theorem modMot_pinsLow : (modMot n f s).pinsLow = s.pinsLow := rfl
@[simp] theorem modMot_loop : (modMot n f s).loop = s.loop := rfl
@[simp] theorem modMot_clu : (modMot n f s).clu = s.clu := rfl
@[simp] theorem modMot_enc : (modMot n f s).enc = s.enc := rfl
@[simp] theorem modMot_cmpPins : (modMot n f s).cmpPins = s.cmpPins := rfl
@[simp] theorem modMot_latPins : (modMot n f s).latPins = s.latPins := rfl
@[simp] theorem modMot_sdm : (modMot n f s).sdm = s.sdm := rfl
@[simp] theorem modMot_hk : (modMot n f s).hk = s.hk := rfl
@[simp] theorem modMot_drv : (modMot n f s).drv = s.drv := rfl
@[simp] theorem modMot_adm : (modMot n f s).adm = s.adm := rfl
@[simp] theorem modMot_pwr : (modMot n f s).pwr = s.pwr := rfl
@[simp] theorem modMot_fio : (modMot n f s).fio = s.fio := rfl
@[simp] theorem modMot_safe : (modMot n f s).safe = s.safe := rfl
@[simp] theorem modMot_ring : (modMot n f s).ring = s.ring := rfl
@[simp] theorem modMot_can : (modMot n f s).can = s.can := rfl
@[simp] theorem modMot_boot : (modMot n f s).boot = s.boot := rfl
@[simp] theorem modMot_pins : (modMot n f s).pins = s.pins := rfl
@[simp] theorem modMot_pending : (modMot n f s).pending = s.pending := rfl
/-- The element after modMot. -/
@[simp] theorem modMot_mot (m : Fin 16) : (modMot n f s).mot[m] = if n = m then f s.mot[n] else s.mot[m] := by
  simp only [modMot, Fin.getElem_fin, Vector.getElem_set, Fin.ext_iff]

end

section
variable (n : Fin 16) (f : AxisSeq → AxisSeq)

@[simp] theorem modAx_now : (modAx n f s).now = s.now := rfl
@[simp] theorem modAx_regs : (modAx n f s).regs = s.regs := rfl
@[simp] theorem modAx_pts : (modAx n f s).pts = s.pts := rfl
@[simp] theorem modAx_attrs : (modAx n f s).attrs = s.attrs := rfl
@[simp] theorem modAx_held : (modAx n f s).held = s.held := rfl
@[simp] theorem modAx_snaps : (modAx n f s).snaps = s.snaps := rfl
@[simp] theorem modAx_mem : (modAx n f s).mem = s.mem := rfl
@[simp] theorem modAx_bad : (modAx n f s).bad = s.bad := rfl
@[simp] theorem modAx_busData : (modAx n f s).busData = s.busData := rfl
@[simp] theorem modAx_queues : (modAx n f s).queues = s.queues := rfl
@[simp] theorem modAx_sides : (modAx n f s).sides = s.sides := rfl
@[simp] theorem modAx_stalls : (modAx n f s).stalls = s.stalls := rfl
@[simp] theorem modAx_q0pend : (modAx n f s).q0pend = s.q0pend := rfl
@[simp] theorem modAx_helm : (modAx n f s).helm = s.helm := rfl
@[simp] theorem modAx_fresh : (modAx n f s).fresh = s.fresh := rfl
@[simp] theorem modAx_mot : (modAx n f s).mot = s.mot := rfl
@[simp] theorem modAx_gear : (modAx n f s).gear = s.gear := rfl
@[simp] theorem modAx_sup : (modAx n f s).sup = s.sup := rfl
@[simp] theorem modAx_env : (modAx n f s).env = s.env := rfl
@[simp] theorem modAx_igrp : (modAx n f s).igrp = s.igrp := rfl
@[simp] theorem modAx_homing : (modAx n f s).homing = s.homing := rfl
@[simp] theorem modAx_stp : (modAx n f s).stp = s.stp := rfl
@[simp] theorem modAx_pwmA : (modAx n f s).pwmA = s.pwmA := rfl
@[simp] theorem modAx_pwmG : (modAx n f s).pwmG = s.pwmG := rfl
@[simp] theorem modAx_pinsLow : (modAx n f s).pinsLow = s.pinsLow := rfl
@[simp] theorem modAx_loop : (modAx n f s).loop = s.loop := rfl
@[simp] theorem modAx_clu : (modAx n f s).clu = s.clu := rfl
@[simp] theorem modAx_enc : (modAx n f s).enc = s.enc := rfl
@[simp] theorem modAx_cmpPins : (modAx n f s).cmpPins = s.cmpPins := rfl
@[simp] theorem modAx_latPins : (modAx n f s).latPins = s.latPins := rfl
@[simp] theorem modAx_sdm : (modAx n f s).sdm = s.sdm := rfl
@[simp] theorem modAx_hk : (modAx n f s).hk = s.hk := rfl
@[simp] theorem modAx_drv : (modAx n f s).drv = s.drv := rfl
@[simp] theorem modAx_adm : (modAx n f s).adm = s.adm := rfl
@[simp] theorem modAx_pwr : (modAx n f s).pwr = s.pwr := rfl
@[simp] theorem modAx_fio : (modAx n f s).fio = s.fio := rfl
@[simp] theorem modAx_safe : (modAx n f s).safe = s.safe := rfl
@[simp] theorem modAx_ring : (modAx n f s).ring = s.ring := rfl
@[simp] theorem modAx_can : (modAx n f s).can = s.can := rfl
@[simp] theorem modAx_boot : (modAx n f s).boot = s.boot := rfl
@[simp] theorem modAx_pins : (modAx n f s).pins = s.pins := rfl
@[simp] theorem modAx_pending : (modAx n f s).pending = s.pending := rfl
/-- The element after modAx. -/
@[simp] theorem modAx_ax (m : Fin 16) : (modAx n f s).ax[m] = if n = m then f s.ax[n] else s.ax[m] := by
  simp only [modAx, Fin.getElem_fin, Vector.getElem_set, Fin.ext_iff]

end

section
variable (n : Fin 16) (f : Gear → Gear)

@[simp] theorem modGear_now : (modGear n f s).now = s.now := rfl
@[simp] theorem modGear_regs : (modGear n f s).regs = s.regs := rfl
@[simp] theorem modGear_pts : (modGear n f s).pts = s.pts := rfl
@[simp] theorem modGear_attrs : (modGear n f s).attrs = s.attrs := rfl
@[simp] theorem modGear_held : (modGear n f s).held = s.held := rfl
@[simp] theorem modGear_snaps : (modGear n f s).snaps = s.snaps := rfl
@[simp] theorem modGear_mem : (modGear n f s).mem = s.mem := rfl
@[simp] theorem modGear_bad : (modGear n f s).bad = s.bad := rfl
@[simp] theorem modGear_busData : (modGear n f s).busData = s.busData := rfl
@[simp] theorem modGear_queues : (modGear n f s).queues = s.queues := rfl
@[simp] theorem modGear_sides : (modGear n f s).sides = s.sides := rfl
@[simp] theorem modGear_stalls : (modGear n f s).stalls = s.stalls := rfl
@[simp] theorem modGear_q0pend : (modGear n f s).q0pend = s.q0pend := rfl
@[simp] theorem modGear_helm : (modGear n f s).helm = s.helm := rfl
@[simp] theorem modGear_fresh : (modGear n f s).fresh = s.fresh := rfl
@[simp] theorem modGear_mot : (modGear n f s).mot = s.mot := rfl
@[simp] theorem modGear_ax : (modGear n f s).ax = s.ax := rfl
@[simp] theorem modGear_sup : (modGear n f s).sup = s.sup := rfl
@[simp] theorem modGear_env : (modGear n f s).env = s.env := rfl
@[simp] theorem modGear_igrp : (modGear n f s).igrp = s.igrp := rfl
@[simp] theorem modGear_homing : (modGear n f s).homing = s.homing := rfl
@[simp] theorem modGear_stp : (modGear n f s).stp = s.stp := rfl
@[simp] theorem modGear_pwmA : (modGear n f s).pwmA = s.pwmA := rfl
@[simp] theorem modGear_pwmG : (modGear n f s).pwmG = s.pwmG := rfl
@[simp] theorem modGear_pinsLow : (modGear n f s).pinsLow = s.pinsLow := rfl
@[simp] theorem modGear_loop : (modGear n f s).loop = s.loop := rfl
@[simp] theorem modGear_clu : (modGear n f s).clu = s.clu := rfl
@[simp] theorem modGear_enc : (modGear n f s).enc = s.enc := rfl
@[simp] theorem modGear_cmpPins : (modGear n f s).cmpPins = s.cmpPins := rfl
@[simp] theorem modGear_latPins : (modGear n f s).latPins = s.latPins := rfl
@[simp] theorem modGear_sdm : (modGear n f s).sdm = s.sdm := rfl
@[simp] theorem modGear_hk : (modGear n f s).hk = s.hk := rfl
@[simp] theorem modGear_drv : (modGear n f s).drv = s.drv := rfl
@[simp] theorem modGear_adm : (modGear n f s).adm = s.adm := rfl
@[simp] theorem modGear_pwr : (modGear n f s).pwr = s.pwr := rfl
@[simp] theorem modGear_fio : (modGear n f s).fio = s.fio := rfl
@[simp] theorem modGear_safe : (modGear n f s).safe = s.safe := rfl
@[simp] theorem modGear_ring : (modGear n f s).ring = s.ring := rfl
@[simp] theorem modGear_can : (modGear n f s).can = s.can := rfl
@[simp] theorem modGear_boot : (modGear n f s).boot = s.boot := rfl
@[simp] theorem modGear_pins : (modGear n f s).pins = s.pins := rfl
@[simp] theorem modGear_pending : (modGear n f s).pending = s.pending := rfl
/-- The element after modGear. -/
@[simp] theorem modGear_gear (m : Fin 16) : (modGear n f s).gear[m] = if n = m then f s.gear[n] else s.gear[m] := by
  simp only [modGear, Fin.getElem_fin, Vector.getElem_set, Fin.ext_iff]

end

section
variable (n : Fin 16) (f : Super → Super)

@[simp] theorem modSup_now : (modSup n f s).now = s.now := rfl
@[simp] theorem modSup_regs : (modSup n f s).regs = s.regs := rfl
@[simp] theorem modSup_pts : (modSup n f s).pts = s.pts := rfl
@[simp] theorem modSup_attrs : (modSup n f s).attrs = s.attrs := rfl
@[simp] theorem modSup_held : (modSup n f s).held = s.held := rfl
@[simp] theorem modSup_snaps : (modSup n f s).snaps = s.snaps := rfl
@[simp] theorem modSup_mem : (modSup n f s).mem = s.mem := rfl
@[simp] theorem modSup_bad : (modSup n f s).bad = s.bad := rfl
@[simp] theorem modSup_busData : (modSup n f s).busData = s.busData := rfl
@[simp] theorem modSup_queues : (modSup n f s).queues = s.queues := rfl
@[simp] theorem modSup_sides : (modSup n f s).sides = s.sides := rfl
@[simp] theorem modSup_stalls : (modSup n f s).stalls = s.stalls := rfl
@[simp] theorem modSup_q0pend : (modSup n f s).q0pend = s.q0pend := rfl
@[simp] theorem modSup_helm : (modSup n f s).helm = s.helm := rfl
@[simp] theorem modSup_fresh : (modSup n f s).fresh = s.fresh := rfl
@[simp] theorem modSup_mot : (modSup n f s).mot = s.mot := rfl
@[simp] theorem modSup_ax : (modSup n f s).ax = s.ax := rfl
@[simp] theorem modSup_gear : (modSup n f s).gear = s.gear := rfl
@[simp] theorem modSup_env : (modSup n f s).env = s.env := rfl
@[simp] theorem modSup_igrp : (modSup n f s).igrp = s.igrp := rfl
@[simp] theorem modSup_homing : (modSup n f s).homing = s.homing := rfl
@[simp] theorem modSup_stp : (modSup n f s).stp = s.stp := rfl
@[simp] theorem modSup_pwmA : (modSup n f s).pwmA = s.pwmA := rfl
@[simp] theorem modSup_pwmG : (modSup n f s).pwmG = s.pwmG := rfl
@[simp] theorem modSup_pinsLow : (modSup n f s).pinsLow = s.pinsLow := rfl
@[simp] theorem modSup_loop : (modSup n f s).loop = s.loop := rfl
@[simp] theorem modSup_clu : (modSup n f s).clu = s.clu := rfl
@[simp] theorem modSup_enc : (modSup n f s).enc = s.enc := rfl
@[simp] theorem modSup_cmpPins : (modSup n f s).cmpPins = s.cmpPins := rfl
@[simp] theorem modSup_latPins : (modSup n f s).latPins = s.latPins := rfl
@[simp] theorem modSup_sdm : (modSup n f s).sdm = s.sdm := rfl
@[simp] theorem modSup_hk : (modSup n f s).hk = s.hk := rfl
@[simp] theorem modSup_drv : (modSup n f s).drv = s.drv := rfl
@[simp] theorem modSup_adm : (modSup n f s).adm = s.adm := rfl
@[simp] theorem modSup_pwr : (modSup n f s).pwr = s.pwr := rfl
@[simp] theorem modSup_fio : (modSup n f s).fio = s.fio := rfl
@[simp] theorem modSup_safe : (modSup n f s).safe = s.safe := rfl
@[simp] theorem modSup_ring : (modSup n f s).ring = s.ring := rfl
@[simp] theorem modSup_can : (modSup n f s).can = s.can := rfl
@[simp] theorem modSup_boot : (modSup n f s).boot = s.boot := rfl
@[simp] theorem modSup_pins : (modSup n f s).pins = s.pins := rfl
@[simp] theorem modSup_pending : (modSup n f s).pending = s.pending := rfl
/-- The element after modSup. -/
@[simp] theorem modSup_sup (m : Fin 16) : (modSup n f s).sup[m] = if n = m then f s.sup[n] else s.sup[m] := by
  simp only [modSup, Fin.getElem_fin, Vector.getElem_set, Fin.ext_iff]

end

section
variable (n : Fin 16) (f : Env → Env)

@[simp] theorem modEnv_now : (modEnv n f s).now = s.now := rfl
@[simp] theorem modEnv_regs : (modEnv n f s).regs = s.regs := rfl
@[simp] theorem modEnv_pts : (modEnv n f s).pts = s.pts := rfl
@[simp] theorem modEnv_attrs : (modEnv n f s).attrs = s.attrs := rfl
@[simp] theorem modEnv_held : (modEnv n f s).held = s.held := rfl
@[simp] theorem modEnv_snaps : (modEnv n f s).snaps = s.snaps := rfl
@[simp] theorem modEnv_mem : (modEnv n f s).mem = s.mem := rfl
@[simp] theorem modEnv_bad : (modEnv n f s).bad = s.bad := rfl
@[simp] theorem modEnv_busData : (modEnv n f s).busData = s.busData := rfl
@[simp] theorem modEnv_queues : (modEnv n f s).queues = s.queues := rfl
@[simp] theorem modEnv_sides : (modEnv n f s).sides = s.sides := rfl
@[simp] theorem modEnv_stalls : (modEnv n f s).stalls = s.stalls := rfl
@[simp] theorem modEnv_q0pend : (modEnv n f s).q0pend = s.q0pend := rfl
@[simp] theorem modEnv_helm : (modEnv n f s).helm = s.helm := rfl
@[simp] theorem modEnv_fresh : (modEnv n f s).fresh = s.fresh := rfl
@[simp] theorem modEnv_mot : (modEnv n f s).mot = s.mot := rfl
@[simp] theorem modEnv_ax : (modEnv n f s).ax = s.ax := rfl
@[simp] theorem modEnv_gear : (modEnv n f s).gear = s.gear := rfl
@[simp] theorem modEnv_sup : (modEnv n f s).sup = s.sup := rfl
@[simp] theorem modEnv_igrp : (modEnv n f s).igrp = s.igrp := rfl
@[simp] theorem modEnv_homing : (modEnv n f s).homing = s.homing := rfl
@[simp] theorem modEnv_stp : (modEnv n f s).stp = s.stp := rfl
@[simp] theorem modEnv_pwmA : (modEnv n f s).pwmA = s.pwmA := rfl
@[simp] theorem modEnv_pwmG : (modEnv n f s).pwmG = s.pwmG := rfl
@[simp] theorem modEnv_pinsLow : (modEnv n f s).pinsLow = s.pinsLow := rfl
@[simp] theorem modEnv_loop : (modEnv n f s).loop = s.loop := rfl
@[simp] theorem modEnv_clu : (modEnv n f s).clu = s.clu := rfl
@[simp] theorem modEnv_enc : (modEnv n f s).enc = s.enc := rfl
@[simp] theorem modEnv_cmpPins : (modEnv n f s).cmpPins = s.cmpPins := rfl
@[simp] theorem modEnv_latPins : (modEnv n f s).latPins = s.latPins := rfl
@[simp] theorem modEnv_sdm : (modEnv n f s).sdm = s.sdm := rfl
@[simp] theorem modEnv_hk : (modEnv n f s).hk = s.hk := rfl
@[simp] theorem modEnv_drv : (modEnv n f s).drv = s.drv := rfl
@[simp] theorem modEnv_adm : (modEnv n f s).adm = s.adm := rfl
@[simp] theorem modEnv_pwr : (modEnv n f s).pwr = s.pwr := rfl
@[simp] theorem modEnv_fio : (modEnv n f s).fio = s.fio := rfl
@[simp] theorem modEnv_safe : (modEnv n f s).safe = s.safe := rfl
@[simp] theorem modEnv_ring : (modEnv n f s).ring = s.ring := rfl
@[simp] theorem modEnv_can : (modEnv n f s).can = s.can := rfl
@[simp] theorem modEnv_boot : (modEnv n f s).boot = s.boot := rfl
@[simp] theorem modEnv_pins : (modEnv n f s).pins = s.pins := rfl
@[simp] theorem modEnv_pending : (modEnv n f s).pending = s.pending := rfl
/-- The element after modEnv. -/
@[simp] theorem modEnv_env (m : Fin 16) : (modEnv n f s).env[m] = if n = m then f s.env[n] else s.env[m] := by
  simp only [modEnv, Fin.getElem_fin, Vector.getElem_set, Fin.ext_iff]

end

section
variable (n : Fin 4) (f : IGroup → IGroup)

@[simp] theorem modIg_now : (modIg n f s).now = s.now := rfl
@[simp] theorem modIg_regs : (modIg n f s).regs = s.regs := rfl
@[simp] theorem modIg_pts : (modIg n f s).pts = s.pts := rfl
@[simp] theorem modIg_attrs : (modIg n f s).attrs = s.attrs := rfl
@[simp] theorem modIg_held : (modIg n f s).held = s.held := rfl
@[simp] theorem modIg_snaps : (modIg n f s).snaps = s.snaps := rfl
@[simp] theorem modIg_mem : (modIg n f s).mem = s.mem := rfl
@[simp] theorem modIg_bad : (modIg n f s).bad = s.bad := rfl
@[simp] theorem modIg_busData : (modIg n f s).busData = s.busData := rfl
@[simp] theorem modIg_queues : (modIg n f s).queues = s.queues := rfl
@[simp] theorem modIg_sides : (modIg n f s).sides = s.sides := rfl
@[simp] theorem modIg_stalls : (modIg n f s).stalls = s.stalls := rfl
@[simp] theorem modIg_q0pend : (modIg n f s).q0pend = s.q0pend := rfl
@[simp] theorem modIg_helm : (modIg n f s).helm = s.helm := rfl
@[simp] theorem modIg_fresh : (modIg n f s).fresh = s.fresh := rfl
@[simp] theorem modIg_mot : (modIg n f s).mot = s.mot := rfl
@[simp] theorem modIg_ax : (modIg n f s).ax = s.ax := rfl
@[simp] theorem modIg_gear : (modIg n f s).gear = s.gear := rfl
@[simp] theorem modIg_sup : (modIg n f s).sup = s.sup := rfl
@[simp] theorem modIg_env : (modIg n f s).env = s.env := rfl
@[simp] theorem modIg_homing : (modIg n f s).homing = s.homing := rfl
@[simp] theorem modIg_stp : (modIg n f s).stp = s.stp := rfl
@[simp] theorem modIg_pwmA : (modIg n f s).pwmA = s.pwmA := rfl
@[simp] theorem modIg_pwmG : (modIg n f s).pwmG = s.pwmG := rfl
@[simp] theorem modIg_pinsLow : (modIg n f s).pinsLow = s.pinsLow := rfl
@[simp] theorem modIg_loop : (modIg n f s).loop = s.loop := rfl
@[simp] theorem modIg_clu : (modIg n f s).clu = s.clu := rfl
@[simp] theorem modIg_enc : (modIg n f s).enc = s.enc := rfl
@[simp] theorem modIg_cmpPins : (modIg n f s).cmpPins = s.cmpPins := rfl
@[simp] theorem modIg_latPins : (modIg n f s).latPins = s.latPins := rfl
@[simp] theorem modIg_sdm : (modIg n f s).sdm = s.sdm := rfl
@[simp] theorem modIg_hk : (modIg n f s).hk = s.hk := rfl
@[simp] theorem modIg_drv : (modIg n f s).drv = s.drv := rfl
@[simp] theorem modIg_adm : (modIg n f s).adm = s.adm := rfl
@[simp] theorem modIg_pwr : (modIg n f s).pwr = s.pwr := rfl
@[simp] theorem modIg_fio : (modIg n f s).fio = s.fio := rfl
@[simp] theorem modIg_safe : (modIg n f s).safe = s.safe := rfl
@[simp] theorem modIg_ring : (modIg n f s).ring = s.ring := rfl
@[simp] theorem modIg_can : (modIg n f s).can = s.can := rfl
@[simp] theorem modIg_boot : (modIg n f s).boot = s.boot := rfl
@[simp] theorem modIg_pins : (modIg n f s).pins = s.pins := rfl
@[simp] theorem modIg_pending : (modIg n f s).pending = s.pending := rfl
/-- The element after modIg. -/
@[simp] theorem modIg_igrp (m : Fin 4) : (modIg n f s).igrp[m] = if n = m then f s.igrp[n] else s.igrp[m] := by
  simp only [modIg, Fin.getElem_fin, Vector.getElem_set, Fin.ext_iff]

end

section
variable (n : Fin 16) (f : Homing → Homing)

@[simp] theorem modHom_now : (modHom n f s).now = s.now := rfl
@[simp] theorem modHom_regs : (modHom n f s).regs = s.regs := rfl
@[simp] theorem modHom_pts : (modHom n f s).pts = s.pts := rfl
@[simp] theorem modHom_attrs : (modHom n f s).attrs = s.attrs := rfl
@[simp] theorem modHom_held : (modHom n f s).held = s.held := rfl
@[simp] theorem modHom_snaps : (modHom n f s).snaps = s.snaps := rfl
@[simp] theorem modHom_mem : (modHom n f s).mem = s.mem := rfl
@[simp] theorem modHom_bad : (modHom n f s).bad = s.bad := rfl
@[simp] theorem modHom_busData : (modHom n f s).busData = s.busData := rfl
@[simp] theorem modHom_queues : (modHom n f s).queues = s.queues := rfl
@[simp] theorem modHom_sides : (modHom n f s).sides = s.sides := rfl
@[simp] theorem modHom_stalls : (modHom n f s).stalls = s.stalls := rfl
@[simp] theorem modHom_q0pend : (modHom n f s).q0pend = s.q0pend := rfl
@[simp] theorem modHom_helm : (modHom n f s).helm = s.helm := rfl
@[simp] theorem modHom_fresh : (modHom n f s).fresh = s.fresh := rfl
@[simp] theorem modHom_mot : (modHom n f s).mot = s.mot := rfl
@[simp] theorem modHom_ax : (modHom n f s).ax = s.ax := rfl
@[simp] theorem modHom_gear : (modHom n f s).gear = s.gear := rfl
@[simp] theorem modHom_sup : (modHom n f s).sup = s.sup := rfl
@[simp] theorem modHom_env : (modHom n f s).env = s.env := rfl
@[simp] theorem modHom_igrp : (modHom n f s).igrp = s.igrp := rfl
@[simp] theorem modHom_stp : (modHom n f s).stp = s.stp := rfl
@[simp] theorem modHom_pwmA : (modHom n f s).pwmA = s.pwmA := rfl
@[simp] theorem modHom_pwmG : (modHom n f s).pwmG = s.pwmG := rfl
@[simp] theorem modHom_pinsLow : (modHom n f s).pinsLow = s.pinsLow := rfl
@[simp] theorem modHom_loop : (modHom n f s).loop = s.loop := rfl
@[simp] theorem modHom_clu : (modHom n f s).clu = s.clu := rfl
@[simp] theorem modHom_enc : (modHom n f s).enc = s.enc := rfl
@[simp] theorem modHom_cmpPins : (modHom n f s).cmpPins = s.cmpPins := rfl
@[simp] theorem modHom_latPins : (modHom n f s).latPins = s.latPins := rfl
@[simp] theorem modHom_sdm : (modHom n f s).sdm = s.sdm := rfl
@[simp] theorem modHom_hk : (modHom n f s).hk = s.hk := rfl
@[simp] theorem modHom_drv : (modHom n f s).drv = s.drv := rfl
@[simp] theorem modHom_adm : (modHom n f s).adm = s.adm := rfl
@[simp] theorem modHom_pwr : (modHom n f s).pwr = s.pwr := rfl
@[simp] theorem modHom_fio : (modHom n f s).fio = s.fio := rfl
@[simp] theorem modHom_safe : (modHom n f s).safe = s.safe := rfl
@[simp] theorem modHom_ring : (modHom n f s).ring = s.ring := rfl
@[simp] theorem modHom_can : (modHom n f s).can = s.can := rfl
@[simp] theorem modHom_boot : (modHom n f s).boot = s.boot := rfl
@[simp] theorem modHom_pins : (modHom n f s).pins = s.pins := rfl
@[simp] theorem modHom_pending : (modHom n f s).pending = s.pending := rfl
/-- The element after modHom. -/
@[simp] theorem modHom_homing (m : Fin 16) : (modHom n f s).homing[m] = if n = m then f s.homing[n] else s.homing[m] := by
  simp only [modHom, Fin.getElem_fin, Vector.getElem_set, Fin.ext_iff]

end

section
variable (n : Fin 16) (f : Stepper → Stepper)

@[simp] theorem modStp_now : (modStp n f s).now = s.now := rfl
@[simp] theorem modStp_regs : (modStp n f s).regs = s.regs := rfl
@[simp] theorem modStp_pts : (modStp n f s).pts = s.pts := rfl
@[simp] theorem modStp_attrs : (modStp n f s).attrs = s.attrs := rfl
@[simp] theorem modStp_held : (modStp n f s).held = s.held := rfl
@[simp] theorem modStp_snaps : (modStp n f s).snaps = s.snaps := rfl
@[simp] theorem modStp_mem : (modStp n f s).mem = s.mem := rfl
@[simp] theorem modStp_bad : (modStp n f s).bad = s.bad := rfl
@[simp] theorem modStp_busData : (modStp n f s).busData = s.busData := rfl
@[simp] theorem modStp_queues : (modStp n f s).queues = s.queues := rfl
@[simp] theorem modStp_sides : (modStp n f s).sides = s.sides := rfl
@[simp] theorem modStp_stalls : (modStp n f s).stalls = s.stalls := rfl
@[simp] theorem modStp_q0pend : (modStp n f s).q0pend = s.q0pend := rfl
@[simp] theorem modStp_helm : (modStp n f s).helm = s.helm := rfl
@[simp] theorem modStp_fresh : (modStp n f s).fresh = s.fresh := rfl
@[simp] theorem modStp_mot : (modStp n f s).mot = s.mot := rfl
@[simp] theorem modStp_ax : (modStp n f s).ax = s.ax := rfl
@[simp] theorem modStp_gear : (modStp n f s).gear = s.gear := rfl
@[simp] theorem modStp_sup : (modStp n f s).sup = s.sup := rfl
@[simp] theorem modStp_env : (modStp n f s).env = s.env := rfl
@[simp] theorem modStp_igrp : (modStp n f s).igrp = s.igrp := rfl
@[simp] theorem modStp_homing : (modStp n f s).homing = s.homing := rfl
@[simp] theorem modStp_pwmA : (modStp n f s).pwmA = s.pwmA := rfl
@[simp] theorem modStp_pwmG : (modStp n f s).pwmG = s.pwmG := rfl
@[simp] theorem modStp_pinsLow : (modStp n f s).pinsLow = s.pinsLow := rfl
@[simp] theorem modStp_loop : (modStp n f s).loop = s.loop := rfl
@[simp] theorem modStp_clu : (modStp n f s).clu = s.clu := rfl
@[simp] theorem modStp_enc : (modStp n f s).enc = s.enc := rfl
@[simp] theorem modStp_cmpPins : (modStp n f s).cmpPins = s.cmpPins := rfl
@[simp] theorem modStp_latPins : (modStp n f s).latPins = s.latPins := rfl
@[simp] theorem modStp_sdm : (modStp n f s).sdm = s.sdm := rfl
@[simp] theorem modStp_hk : (modStp n f s).hk = s.hk := rfl
@[simp] theorem modStp_drv : (modStp n f s).drv = s.drv := rfl
@[simp] theorem modStp_adm : (modStp n f s).adm = s.adm := rfl
@[simp] theorem modStp_pwr : (modStp n f s).pwr = s.pwr := rfl
@[simp] theorem modStp_fio : (modStp n f s).fio = s.fio := rfl
@[simp] theorem modStp_safe : (modStp n f s).safe = s.safe := rfl
@[simp] theorem modStp_ring : (modStp n f s).ring = s.ring := rfl
@[simp] theorem modStp_can : (modStp n f s).can = s.can := rfl
@[simp] theorem modStp_boot : (modStp n f s).boot = s.boot := rfl
@[simp] theorem modStp_pins : (modStp n f s).pins = s.pins := rfl
@[simp] theorem modStp_pending : (modStp n f s).pending = s.pending := rfl
/-- The element after modStp. -/
@[simp] theorem modStp_stp (m : Fin 16) : (modStp n f s).stp[m] = if n = m then f s.stp[n] else s.stp[m] := by
  simp only [modStp, Fin.getElem_fin, Vector.getElem_set, Fin.ext_iff]

end

section
variable (n : Fin 16) (f : PwmAxis → PwmAxis)

@[simp] theorem modPa_now : (modPa n f s).now = s.now := rfl
@[simp] theorem modPa_regs : (modPa n f s).regs = s.regs := rfl
@[simp] theorem modPa_pts : (modPa n f s).pts = s.pts := rfl
@[simp] theorem modPa_attrs : (modPa n f s).attrs = s.attrs := rfl
@[simp] theorem modPa_held : (modPa n f s).held = s.held := rfl
@[simp] theorem modPa_snaps : (modPa n f s).snaps = s.snaps := rfl
@[simp] theorem modPa_mem : (modPa n f s).mem = s.mem := rfl
@[simp] theorem modPa_bad : (modPa n f s).bad = s.bad := rfl
@[simp] theorem modPa_busData : (modPa n f s).busData = s.busData := rfl
@[simp] theorem modPa_queues : (modPa n f s).queues = s.queues := rfl
@[simp] theorem modPa_sides : (modPa n f s).sides = s.sides := rfl
@[simp] theorem modPa_stalls : (modPa n f s).stalls = s.stalls := rfl
@[simp] theorem modPa_q0pend : (modPa n f s).q0pend = s.q0pend := rfl
@[simp] theorem modPa_helm : (modPa n f s).helm = s.helm := rfl
@[simp] theorem modPa_fresh : (modPa n f s).fresh = s.fresh := rfl
@[simp] theorem modPa_mot : (modPa n f s).mot = s.mot := rfl
@[simp] theorem modPa_ax : (modPa n f s).ax = s.ax := rfl
@[simp] theorem modPa_gear : (modPa n f s).gear = s.gear := rfl
@[simp] theorem modPa_sup : (modPa n f s).sup = s.sup := rfl
@[simp] theorem modPa_env : (modPa n f s).env = s.env := rfl
@[simp] theorem modPa_igrp : (modPa n f s).igrp = s.igrp := rfl
@[simp] theorem modPa_homing : (modPa n f s).homing = s.homing := rfl
@[simp] theorem modPa_stp : (modPa n f s).stp = s.stp := rfl
@[simp] theorem modPa_pwmG : (modPa n f s).pwmG = s.pwmG := rfl
@[simp] theorem modPa_pinsLow : (modPa n f s).pinsLow = s.pinsLow := rfl
@[simp] theorem modPa_loop : (modPa n f s).loop = s.loop := rfl
@[simp] theorem modPa_clu : (modPa n f s).clu = s.clu := rfl
@[simp] theorem modPa_enc : (modPa n f s).enc = s.enc := rfl
@[simp] theorem modPa_cmpPins : (modPa n f s).cmpPins = s.cmpPins := rfl
@[simp] theorem modPa_latPins : (modPa n f s).latPins = s.latPins := rfl
@[simp] theorem modPa_sdm : (modPa n f s).sdm = s.sdm := rfl
@[simp] theorem modPa_hk : (modPa n f s).hk = s.hk := rfl
@[simp] theorem modPa_drv : (modPa n f s).drv = s.drv := rfl
@[simp] theorem modPa_adm : (modPa n f s).adm = s.adm := rfl
@[simp] theorem modPa_pwr : (modPa n f s).pwr = s.pwr := rfl
@[simp] theorem modPa_fio : (modPa n f s).fio = s.fio := rfl
@[simp] theorem modPa_safe : (modPa n f s).safe = s.safe := rfl
@[simp] theorem modPa_ring : (modPa n f s).ring = s.ring := rfl
@[simp] theorem modPa_can : (modPa n f s).can = s.can := rfl
@[simp] theorem modPa_boot : (modPa n f s).boot = s.boot := rfl
@[simp] theorem modPa_pins : (modPa n f s).pins = s.pins := rfl
@[simp] theorem modPa_pending : (modPa n f s).pending = s.pending := rfl
/-- The element after modPa. -/
@[simp] theorem modPa_pwmA (m : Fin 16) : (modPa n f s).pwmA[m] = if n = m then f s.pwmA[n] else s.pwmA[m] := by
  simp only [modPa, Fin.getElem_fin, Vector.getElem_set, Fin.ext_iff]

end

section
variable (n : Fin 4) (f : PwmGroup → PwmGroup)

@[simp] theorem modPg_now : (modPg n f s).now = s.now := rfl
@[simp] theorem modPg_regs : (modPg n f s).regs = s.regs := rfl
@[simp] theorem modPg_pts : (modPg n f s).pts = s.pts := rfl
@[simp] theorem modPg_attrs : (modPg n f s).attrs = s.attrs := rfl
@[simp] theorem modPg_held : (modPg n f s).held = s.held := rfl
@[simp] theorem modPg_snaps : (modPg n f s).snaps = s.snaps := rfl
@[simp] theorem modPg_mem : (modPg n f s).mem = s.mem := rfl
@[simp] theorem modPg_bad : (modPg n f s).bad = s.bad := rfl
@[simp] theorem modPg_busData : (modPg n f s).busData = s.busData := rfl
@[simp] theorem modPg_queues : (modPg n f s).queues = s.queues := rfl
@[simp] theorem modPg_sides : (modPg n f s).sides = s.sides := rfl
@[simp] theorem modPg_stalls : (modPg n f s).stalls = s.stalls := rfl
@[simp] theorem modPg_q0pend : (modPg n f s).q0pend = s.q0pend := rfl
@[simp] theorem modPg_helm : (modPg n f s).helm = s.helm := rfl
@[simp] theorem modPg_fresh : (modPg n f s).fresh = s.fresh := rfl
@[simp] theorem modPg_mot : (modPg n f s).mot = s.mot := rfl
@[simp] theorem modPg_ax : (modPg n f s).ax = s.ax := rfl
@[simp] theorem modPg_gear : (modPg n f s).gear = s.gear := rfl
@[simp] theorem modPg_sup : (modPg n f s).sup = s.sup := rfl
@[simp] theorem modPg_env : (modPg n f s).env = s.env := rfl
@[simp] theorem modPg_igrp : (modPg n f s).igrp = s.igrp := rfl
@[simp] theorem modPg_homing : (modPg n f s).homing = s.homing := rfl
@[simp] theorem modPg_stp : (modPg n f s).stp = s.stp := rfl
@[simp] theorem modPg_pwmA : (modPg n f s).pwmA = s.pwmA := rfl
@[simp] theorem modPg_pinsLow : (modPg n f s).pinsLow = s.pinsLow := rfl
@[simp] theorem modPg_loop : (modPg n f s).loop = s.loop := rfl
@[simp] theorem modPg_clu : (modPg n f s).clu = s.clu := rfl
@[simp] theorem modPg_enc : (modPg n f s).enc = s.enc := rfl
@[simp] theorem modPg_cmpPins : (modPg n f s).cmpPins = s.cmpPins := rfl
@[simp] theorem modPg_latPins : (modPg n f s).latPins = s.latPins := rfl
@[simp] theorem modPg_sdm : (modPg n f s).sdm = s.sdm := rfl
@[simp] theorem modPg_hk : (modPg n f s).hk = s.hk := rfl
@[simp] theorem modPg_drv : (modPg n f s).drv = s.drv := rfl
@[simp] theorem modPg_adm : (modPg n f s).adm = s.adm := rfl
@[simp] theorem modPg_pwr : (modPg n f s).pwr = s.pwr := rfl
@[simp] theorem modPg_fio : (modPg n f s).fio = s.fio := rfl
@[simp] theorem modPg_safe : (modPg n f s).safe = s.safe := rfl
@[simp] theorem modPg_ring : (modPg n f s).ring = s.ring := rfl
@[simp] theorem modPg_can : (modPg n f s).can = s.can := rfl
@[simp] theorem modPg_boot : (modPg n f s).boot = s.boot := rfl
@[simp] theorem modPg_pins : (modPg n f s).pins = s.pins := rfl
@[simp] theorem modPg_pending : (modPg n f s).pending = s.pending := rfl
/-- The element after modPg. -/
@[simp] theorem modPg_pwmG (m : Fin 4) : (modPg n f s).pwmG[m] = if n = m then f s.pwmG[n] else s.pwmG[m] := by
  simp only [modPg, Fin.getElem_fin, Vector.getElem_set, Fin.ext_iff]

end

section
variable (n : Fin 16) (f : LoopAx → LoopAx)

@[simp] theorem modLoop_now : (modLoop n f s).now = s.now := rfl
@[simp] theorem modLoop_regs : (modLoop n f s).regs = s.regs := rfl
@[simp] theorem modLoop_pts : (modLoop n f s).pts = s.pts := rfl
@[simp] theorem modLoop_attrs : (modLoop n f s).attrs = s.attrs := rfl
@[simp] theorem modLoop_held : (modLoop n f s).held = s.held := rfl
@[simp] theorem modLoop_snaps : (modLoop n f s).snaps = s.snaps := rfl
@[simp] theorem modLoop_mem : (modLoop n f s).mem = s.mem := rfl
@[simp] theorem modLoop_bad : (modLoop n f s).bad = s.bad := rfl
@[simp] theorem modLoop_busData : (modLoop n f s).busData = s.busData := rfl
@[simp] theorem modLoop_queues : (modLoop n f s).queues = s.queues := rfl
@[simp] theorem modLoop_sides : (modLoop n f s).sides = s.sides := rfl
@[simp] theorem modLoop_stalls : (modLoop n f s).stalls = s.stalls := rfl
@[simp] theorem modLoop_q0pend : (modLoop n f s).q0pend = s.q0pend := rfl
@[simp] theorem modLoop_helm : (modLoop n f s).helm = s.helm := rfl
@[simp] theorem modLoop_fresh : (modLoop n f s).fresh = s.fresh := rfl
@[simp] theorem modLoop_mot : (modLoop n f s).mot = s.mot := rfl
@[simp] theorem modLoop_ax : (modLoop n f s).ax = s.ax := rfl
@[simp] theorem modLoop_gear : (modLoop n f s).gear = s.gear := rfl
@[simp] theorem modLoop_sup : (modLoop n f s).sup = s.sup := rfl
@[simp] theorem modLoop_env : (modLoop n f s).env = s.env := rfl
@[simp] theorem modLoop_igrp : (modLoop n f s).igrp = s.igrp := rfl
@[simp] theorem modLoop_homing : (modLoop n f s).homing = s.homing := rfl
@[simp] theorem modLoop_stp : (modLoop n f s).stp = s.stp := rfl
@[simp] theorem modLoop_pwmA : (modLoop n f s).pwmA = s.pwmA := rfl
@[simp] theorem modLoop_pwmG : (modLoop n f s).pwmG = s.pwmG := rfl
@[simp] theorem modLoop_pinsLow : (modLoop n f s).pinsLow = s.pinsLow := rfl
@[simp] theorem modLoop_clu : (modLoop n f s).clu = s.clu := rfl
@[simp] theorem modLoop_enc : (modLoop n f s).enc = s.enc := rfl
@[simp] theorem modLoop_cmpPins : (modLoop n f s).cmpPins = s.cmpPins := rfl
@[simp] theorem modLoop_latPins : (modLoop n f s).latPins = s.latPins := rfl
@[simp] theorem modLoop_sdm : (modLoop n f s).sdm = s.sdm := rfl
@[simp] theorem modLoop_hk : (modLoop n f s).hk = s.hk := rfl
@[simp] theorem modLoop_drv : (modLoop n f s).drv = s.drv := rfl
@[simp] theorem modLoop_adm : (modLoop n f s).adm = s.adm := rfl
@[simp] theorem modLoop_pwr : (modLoop n f s).pwr = s.pwr := rfl
@[simp] theorem modLoop_fio : (modLoop n f s).fio = s.fio := rfl
@[simp] theorem modLoop_safe : (modLoop n f s).safe = s.safe := rfl
@[simp] theorem modLoop_ring : (modLoop n f s).ring = s.ring := rfl
@[simp] theorem modLoop_can : (modLoop n f s).can = s.can := rfl
@[simp] theorem modLoop_boot : (modLoop n f s).boot = s.boot := rfl
@[simp] theorem modLoop_pins : (modLoop n f s).pins = s.pins := rfl
@[simp] theorem modLoop_pending : (modLoop n f s).pending = s.pending := rfl
/-- The element after modLoop. -/
@[simp] theorem modLoop_loop (m : Fin 16) : (modLoop n f s).loop[m] = if n = m then f s.loop[n] else s.loop[m] := by
  simp only [modLoop, Fin.getElem_fin, Vector.getElem_set, Fin.ext_iff]

end

section
variable (n : Fin 4) (f : Cluster → Cluster)

@[simp] theorem modClu_now : (modClu n f s).now = s.now := rfl
@[simp] theorem modClu_regs : (modClu n f s).regs = s.regs := rfl
@[simp] theorem modClu_pts : (modClu n f s).pts = s.pts := rfl
@[simp] theorem modClu_attrs : (modClu n f s).attrs = s.attrs := rfl
@[simp] theorem modClu_held : (modClu n f s).held = s.held := rfl
@[simp] theorem modClu_snaps : (modClu n f s).snaps = s.snaps := rfl
@[simp] theorem modClu_mem : (modClu n f s).mem = s.mem := rfl
@[simp] theorem modClu_bad : (modClu n f s).bad = s.bad := rfl
@[simp] theorem modClu_busData : (modClu n f s).busData = s.busData := rfl
@[simp] theorem modClu_queues : (modClu n f s).queues = s.queues := rfl
@[simp] theorem modClu_sides : (modClu n f s).sides = s.sides := rfl
@[simp] theorem modClu_stalls : (modClu n f s).stalls = s.stalls := rfl
@[simp] theorem modClu_q0pend : (modClu n f s).q0pend = s.q0pend := rfl
@[simp] theorem modClu_helm : (modClu n f s).helm = s.helm := rfl
@[simp] theorem modClu_fresh : (modClu n f s).fresh = s.fresh := rfl
@[simp] theorem modClu_mot : (modClu n f s).mot = s.mot := rfl
@[simp] theorem modClu_ax : (modClu n f s).ax = s.ax := rfl
@[simp] theorem modClu_gear : (modClu n f s).gear = s.gear := rfl
@[simp] theorem modClu_sup : (modClu n f s).sup = s.sup := rfl
@[simp] theorem modClu_env : (modClu n f s).env = s.env := rfl
@[simp] theorem modClu_igrp : (modClu n f s).igrp = s.igrp := rfl
@[simp] theorem modClu_homing : (modClu n f s).homing = s.homing := rfl
@[simp] theorem modClu_stp : (modClu n f s).stp = s.stp := rfl
@[simp] theorem modClu_pwmA : (modClu n f s).pwmA = s.pwmA := rfl
@[simp] theorem modClu_pwmG : (modClu n f s).pwmG = s.pwmG := rfl
@[simp] theorem modClu_pinsLow : (modClu n f s).pinsLow = s.pinsLow := rfl
@[simp] theorem modClu_loop : (modClu n f s).loop = s.loop := rfl
@[simp] theorem modClu_enc : (modClu n f s).enc = s.enc := rfl
@[simp] theorem modClu_cmpPins : (modClu n f s).cmpPins = s.cmpPins := rfl
@[simp] theorem modClu_latPins : (modClu n f s).latPins = s.latPins := rfl
@[simp] theorem modClu_sdm : (modClu n f s).sdm = s.sdm := rfl
@[simp] theorem modClu_hk : (modClu n f s).hk = s.hk := rfl
@[simp] theorem modClu_drv : (modClu n f s).drv = s.drv := rfl
@[simp] theorem modClu_adm : (modClu n f s).adm = s.adm := rfl
@[simp] theorem modClu_pwr : (modClu n f s).pwr = s.pwr := rfl
@[simp] theorem modClu_fio : (modClu n f s).fio = s.fio := rfl
@[simp] theorem modClu_safe : (modClu n f s).safe = s.safe := rfl
@[simp] theorem modClu_ring : (modClu n f s).ring = s.ring := rfl
@[simp] theorem modClu_can : (modClu n f s).can = s.can := rfl
@[simp] theorem modClu_boot : (modClu n f s).boot = s.boot := rfl
@[simp] theorem modClu_pins : (modClu n f s).pins = s.pins := rfl
@[simp] theorem modClu_pending : (modClu n f s).pending = s.pending := rfl
/-- The element after modClu. -/
@[simp] theorem modClu_clu (m : Fin 4) : (modClu n f s).clu[m] = if n = m then f s.clu[n] else s.clu[m] := by
  simp only [modClu, Fin.getElem_fin, Vector.getElem_set, Fin.ext_iff]

end

section
variable (n : Fin 16) (f : EncCh → EncCh)

@[simp] theorem modEnc_now : (modEnc n f s).now = s.now := rfl
@[simp] theorem modEnc_regs : (modEnc n f s).regs = s.regs := rfl
@[simp] theorem modEnc_pts : (modEnc n f s).pts = s.pts := rfl
@[simp] theorem modEnc_attrs : (modEnc n f s).attrs = s.attrs := rfl
@[simp] theorem modEnc_held : (modEnc n f s).held = s.held := rfl
@[simp] theorem modEnc_snaps : (modEnc n f s).snaps = s.snaps := rfl
@[simp] theorem modEnc_mem : (modEnc n f s).mem = s.mem := rfl
@[simp] theorem modEnc_bad : (modEnc n f s).bad = s.bad := rfl
@[simp] theorem modEnc_busData : (modEnc n f s).busData = s.busData := rfl
@[simp] theorem modEnc_queues : (modEnc n f s).queues = s.queues := rfl
@[simp] theorem modEnc_sides : (modEnc n f s).sides = s.sides := rfl
@[simp] theorem modEnc_stalls : (modEnc n f s).stalls = s.stalls := rfl
@[simp] theorem modEnc_q0pend : (modEnc n f s).q0pend = s.q0pend := rfl
@[simp] theorem modEnc_helm : (modEnc n f s).helm = s.helm := rfl
@[simp] theorem modEnc_fresh : (modEnc n f s).fresh = s.fresh := rfl
@[simp] theorem modEnc_mot : (modEnc n f s).mot = s.mot := rfl
@[simp] theorem modEnc_ax : (modEnc n f s).ax = s.ax := rfl
@[simp] theorem modEnc_gear : (modEnc n f s).gear = s.gear := rfl
@[simp] theorem modEnc_sup : (modEnc n f s).sup = s.sup := rfl
@[simp] theorem modEnc_env : (modEnc n f s).env = s.env := rfl
@[simp] theorem modEnc_igrp : (modEnc n f s).igrp = s.igrp := rfl
@[simp] theorem modEnc_homing : (modEnc n f s).homing = s.homing := rfl
@[simp] theorem modEnc_stp : (modEnc n f s).stp = s.stp := rfl
@[simp] theorem modEnc_pwmA : (modEnc n f s).pwmA = s.pwmA := rfl
@[simp] theorem modEnc_pwmG : (modEnc n f s).pwmG = s.pwmG := rfl
@[simp] theorem modEnc_pinsLow : (modEnc n f s).pinsLow = s.pinsLow := rfl
@[simp] theorem modEnc_loop : (modEnc n f s).loop = s.loop := rfl
@[simp] theorem modEnc_clu : (modEnc n f s).clu = s.clu := rfl
@[simp] theorem modEnc_cmpPins : (modEnc n f s).cmpPins = s.cmpPins := rfl
@[simp] theorem modEnc_latPins : (modEnc n f s).latPins = s.latPins := rfl
@[simp] theorem modEnc_sdm : (modEnc n f s).sdm = s.sdm := rfl
@[simp] theorem modEnc_hk : (modEnc n f s).hk = s.hk := rfl
@[simp] theorem modEnc_drv : (modEnc n f s).drv = s.drv := rfl
@[simp] theorem modEnc_adm : (modEnc n f s).adm = s.adm := rfl
@[simp] theorem modEnc_pwr : (modEnc n f s).pwr = s.pwr := rfl
@[simp] theorem modEnc_fio : (modEnc n f s).fio = s.fio := rfl
@[simp] theorem modEnc_safe : (modEnc n f s).safe = s.safe := rfl
@[simp] theorem modEnc_ring : (modEnc n f s).ring = s.ring := rfl
@[simp] theorem modEnc_can : (modEnc n f s).can = s.can := rfl
@[simp] theorem modEnc_boot : (modEnc n f s).boot = s.boot := rfl
@[simp] theorem modEnc_pins : (modEnc n f s).pins = s.pins := rfl
@[simp] theorem modEnc_pending : (modEnc n f s).pending = s.pending := rfl
/-- The element after modEnc. -/
@[simp] theorem modEnc_enc (m : Fin 16) : (modEnc n f s).enc[m] = if n = m then f s.enc[n] else s.enc[m] := by
  simp only [modEnc, Fin.getElem_fin, Vector.getElem_set, Fin.ext_iff]

end

section
variable (n : Fin 16) (f : SdmAx → SdmAx)

@[simp] theorem modSdm_now : (modSdm n f s).now = s.now := rfl
@[simp] theorem modSdm_regs : (modSdm n f s).regs = s.regs := rfl
@[simp] theorem modSdm_pts : (modSdm n f s).pts = s.pts := rfl
@[simp] theorem modSdm_attrs : (modSdm n f s).attrs = s.attrs := rfl
@[simp] theorem modSdm_held : (modSdm n f s).held = s.held := rfl
@[simp] theorem modSdm_snaps : (modSdm n f s).snaps = s.snaps := rfl
@[simp] theorem modSdm_mem : (modSdm n f s).mem = s.mem := rfl
@[simp] theorem modSdm_bad : (modSdm n f s).bad = s.bad := rfl
@[simp] theorem modSdm_busData : (modSdm n f s).busData = s.busData := rfl
@[simp] theorem modSdm_queues : (modSdm n f s).queues = s.queues := rfl
@[simp] theorem modSdm_sides : (modSdm n f s).sides = s.sides := rfl
@[simp] theorem modSdm_stalls : (modSdm n f s).stalls = s.stalls := rfl
@[simp] theorem modSdm_q0pend : (modSdm n f s).q0pend = s.q0pend := rfl
@[simp] theorem modSdm_helm : (modSdm n f s).helm = s.helm := rfl
@[simp] theorem modSdm_fresh : (modSdm n f s).fresh = s.fresh := rfl
@[simp] theorem modSdm_mot : (modSdm n f s).mot = s.mot := rfl
@[simp] theorem modSdm_ax : (modSdm n f s).ax = s.ax := rfl
@[simp] theorem modSdm_gear : (modSdm n f s).gear = s.gear := rfl
@[simp] theorem modSdm_sup : (modSdm n f s).sup = s.sup := rfl
@[simp] theorem modSdm_env : (modSdm n f s).env = s.env := rfl
@[simp] theorem modSdm_igrp : (modSdm n f s).igrp = s.igrp := rfl
@[simp] theorem modSdm_homing : (modSdm n f s).homing = s.homing := rfl
@[simp] theorem modSdm_stp : (modSdm n f s).stp = s.stp := rfl
@[simp] theorem modSdm_pwmA : (modSdm n f s).pwmA = s.pwmA := rfl
@[simp] theorem modSdm_pwmG : (modSdm n f s).pwmG = s.pwmG := rfl
@[simp] theorem modSdm_pinsLow : (modSdm n f s).pinsLow = s.pinsLow := rfl
@[simp] theorem modSdm_loop : (modSdm n f s).loop = s.loop := rfl
@[simp] theorem modSdm_clu : (modSdm n f s).clu = s.clu := rfl
@[simp] theorem modSdm_enc : (modSdm n f s).enc = s.enc := rfl
@[simp] theorem modSdm_cmpPins : (modSdm n f s).cmpPins = s.cmpPins := rfl
@[simp] theorem modSdm_latPins : (modSdm n f s).latPins = s.latPins := rfl
@[simp] theorem modSdm_hk : (modSdm n f s).hk = s.hk := rfl
@[simp] theorem modSdm_drv : (modSdm n f s).drv = s.drv := rfl
@[simp] theorem modSdm_adm : (modSdm n f s).adm = s.adm := rfl
@[simp] theorem modSdm_pwr : (modSdm n f s).pwr = s.pwr := rfl
@[simp] theorem modSdm_fio : (modSdm n f s).fio = s.fio := rfl
@[simp] theorem modSdm_safe : (modSdm n f s).safe = s.safe := rfl
@[simp] theorem modSdm_ring : (modSdm n f s).ring = s.ring := rfl
@[simp] theorem modSdm_can : (modSdm n f s).can = s.can := rfl
@[simp] theorem modSdm_boot : (modSdm n f s).boot = s.boot := rfl
@[simp] theorem modSdm_pins : (modSdm n f s).pins = s.pins := rfl
@[simp] theorem modSdm_pending : (modSdm n f s).pending = s.pending := rfl
/-- The element after modSdm. -/
@[simp] theorem modSdm_sdm (m : Fin 16) : (modSdm n f s).sdm[m] = if n = m then f s.sdm[n] else s.sdm[m] := by
  simp only [modSdm, Fin.getElem_fin, Vector.getElem_set, Fin.ext_iff]

end

section
variable (n : Fin 24) (f : HkCh → HkCh)

@[simp] theorem modHk_now : (modHk n f s).now = s.now := rfl
@[simp] theorem modHk_regs : (modHk n f s).regs = s.regs := rfl
@[simp] theorem modHk_pts : (modHk n f s).pts = s.pts := rfl
@[simp] theorem modHk_attrs : (modHk n f s).attrs = s.attrs := rfl
@[simp] theorem modHk_held : (modHk n f s).held = s.held := rfl
@[simp] theorem modHk_snaps : (modHk n f s).snaps = s.snaps := rfl
@[simp] theorem modHk_mem : (modHk n f s).mem = s.mem := rfl
@[simp] theorem modHk_bad : (modHk n f s).bad = s.bad := rfl
@[simp] theorem modHk_busData : (modHk n f s).busData = s.busData := rfl
@[simp] theorem modHk_queues : (modHk n f s).queues = s.queues := rfl
@[simp] theorem modHk_sides : (modHk n f s).sides = s.sides := rfl
@[simp] theorem modHk_stalls : (modHk n f s).stalls = s.stalls := rfl
@[simp] theorem modHk_q0pend : (modHk n f s).q0pend = s.q0pend := rfl
@[simp] theorem modHk_helm : (modHk n f s).helm = s.helm := rfl
@[simp] theorem modHk_fresh : (modHk n f s).fresh = s.fresh := rfl
@[simp] theorem modHk_mot : (modHk n f s).mot = s.mot := rfl
@[simp] theorem modHk_ax : (modHk n f s).ax = s.ax := rfl
@[simp] theorem modHk_gear : (modHk n f s).gear = s.gear := rfl
@[simp] theorem modHk_sup : (modHk n f s).sup = s.sup := rfl
@[simp] theorem modHk_env : (modHk n f s).env = s.env := rfl
@[simp] theorem modHk_igrp : (modHk n f s).igrp = s.igrp := rfl
@[simp] theorem modHk_homing : (modHk n f s).homing = s.homing := rfl
@[simp] theorem modHk_stp : (modHk n f s).stp = s.stp := rfl
@[simp] theorem modHk_pwmA : (modHk n f s).pwmA = s.pwmA := rfl
@[simp] theorem modHk_pwmG : (modHk n f s).pwmG = s.pwmG := rfl
@[simp] theorem modHk_pinsLow : (modHk n f s).pinsLow = s.pinsLow := rfl
@[simp] theorem modHk_loop : (modHk n f s).loop = s.loop := rfl
@[simp] theorem modHk_clu : (modHk n f s).clu = s.clu := rfl
@[simp] theorem modHk_enc : (modHk n f s).enc = s.enc := rfl
@[simp] theorem modHk_cmpPins : (modHk n f s).cmpPins = s.cmpPins := rfl
@[simp] theorem modHk_latPins : (modHk n f s).latPins = s.latPins := rfl
@[simp] theorem modHk_sdm : (modHk n f s).sdm = s.sdm := rfl
@[simp] theorem modHk_drv : (modHk n f s).drv = s.drv := rfl
@[simp] theorem modHk_adm : (modHk n f s).adm = s.adm := rfl
@[simp] theorem modHk_pwr : (modHk n f s).pwr = s.pwr := rfl
@[simp] theorem modHk_fio : (modHk n f s).fio = s.fio := rfl
@[simp] theorem modHk_safe : (modHk n f s).safe = s.safe := rfl
@[simp] theorem modHk_ring : (modHk n f s).ring = s.ring := rfl
@[simp] theorem modHk_can : (modHk n f s).can = s.can := rfl
@[simp] theorem modHk_boot : (modHk n f s).boot = s.boot := rfl
@[simp] theorem modHk_pins : (modHk n f s).pins = s.pins := rfl
@[simp] theorem modHk_pending : (modHk n f s).pending = s.pending := rfl
/-- The element after modHk. -/
@[simp] theorem modHk_hk (m : Fin 24) : (modHk n f s).hk[m] = if n = m then f s.hk[n] else s.hk[m] := by
  simp only [modHk, Fin.getElem_fin, Vector.getElem_set, Fin.ext_iff]

end

section
variable (n : Fin 2) (f : CanCtl → CanCtl)

@[simp] theorem modCan_now : (modCan n f s).now = s.now := rfl
@[simp] theorem modCan_regs : (modCan n f s).regs = s.regs := rfl
@[simp] theorem modCan_pts : (modCan n f s).pts = s.pts := rfl
@[simp] theorem modCan_attrs : (modCan n f s).attrs = s.attrs := rfl
@[simp] theorem modCan_held : (modCan n f s).held = s.held := rfl
@[simp] theorem modCan_snaps : (modCan n f s).snaps = s.snaps := rfl
@[simp] theorem modCan_mem : (modCan n f s).mem = s.mem := rfl
@[simp] theorem modCan_bad : (modCan n f s).bad = s.bad := rfl
@[simp] theorem modCan_busData : (modCan n f s).busData = s.busData := rfl
@[simp] theorem modCan_queues : (modCan n f s).queues = s.queues := rfl
@[simp] theorem modCan_sides : (modCan n f s).sides = s.sides := rfl
@[simp] theorem modCan_stalls : (modCan n f s).stalls = s.stalls := rfl
@[simp] theorem modCan_q0pend : (modCan n f s).q0pend = s.q0pend := rfl
@[simp] theorem modCan_helm : (modCan n f s).helm = s.helm := rfl
@[simp] theorem modCan_fresh : (modCan n f s).fresh = s.fresh := rfl
@[simp] theorem modCan_mot : (modCan n f s).mot = s.mot := rfl
@[simp] theorem modCan_ax : (modCan n f s).ax = s.ax := rfl
@[simp] theorem modCan_gear : (modCan n f s).gear = s.gear := rfl
@[simp] theorem modCan_sup : (modCan n f s).sup = s.sup := rfl
@[simp] theorem modCan_env : (modCan n f s).env = s.env := rfl
@[simp] theorem modCan_igrp : (modCan n f s).igrp = s.igrp := rfl
@[simp] theorem modCan_homing : (modCan n f s).homing = s.homing := rfl
@[simp] theorem modCan_stp : (modCan n f s).stp = s.stp := rfl
@[simp] theorem modCan_pwmA : (modCan n f s).pwmA = s.pwmA := rfl
@[simp] theorem modCan_pwmG : (modCan n f s).pwmG = s.pwmG := rfl
@[simp] theorem modCan_pinsLow : (modCan n f s).pinsLow = s.pinsLow := rfl
@[simp] theorem modCan_loop : (modCan n f s).loop = s.loop := rfl
@[simp] theorem modCan_clu : (modCan n f s).clu = s.clu := rfl
@[simp] theorem modCan_enc : (modCan n f s).enc = s.enc := rfl
@[simp] theorem modCan_cmpPins : (modCan n f s).cmpPins = s.cmpPins := rfl
@[simp] theorem modCan_latPins : (modCan n f s).latPins = s.latPins := rfl
@[simp] theorem modCan_sdm : (modCan n f s).sdm = s.sdm := rfl
@[simp] theorem modCan_hk : (modCan n f s).hk = s.hk := rfl
@[simp] theorem modCan_drv : (modCan n f s).drv = s.drv := rfl
@[simp] theorem modCan_adm : (modCan n f s).adm = s.adm := rfl
@[simp] theorem modCan_pwr : (modCan n f s).pwr = s.pwr := rfl
@[simp] theorem modCan_fio : (modCan n f s).fio = s.fio := rfl
@[simp] theorem modCan_safe : (modCan n f s).safe = s.safe := rfl
@[simp] theorem modCan_ring : (modCan n f s).ring = s.ring := rfl
@[simp] theorem modCan_boot : (modCan n f s).boot = s.boot := rfl
@[simp] theorem modCan_pins : (modCan n f s).pins = s.pins := rfl
@[simp] theorem modCan_pending : (modCan n f s).pending = s.pending := rfl
/-- The element after modCan. -/
@[simp] theorem modCan_can (m : Fin 2) : (modCan n f s).can[m] = if n = m then f s.can[n] else s.can[m] := by
  simp only [modCan, Fin.getElem_fin, Vector.getElem_set, Fin.ext_iff]

end

section
variable (f : Drive → Drive)

@[simp] theorem modDrv_now : (modDrv f s).now = s.now := rfl
@[simp] theorem modDrv_regs : (modDrv f s).regs = s.regs := rfl
@[simp] theorem modDrv_pts : (modDrv f s).pts = s.pts := rfl
@[simp] theorem modDrv_attrs : (modDrv f s).attrs = s.attrs := rfl
@[simp] theorem modDrv_held : (modDrv f s).held = s.held := rfl
@[simp] theorem modDrv_snaps : (modDrv f s).snaps = s.snaps := rfl
@[simp] theorem modDrv_mem : (modDrv f s).mem = s.mem := rfl
@[simp] theorem modDrv_bad : (modDrv f s).bad = s.bad := rfl
@[simp] theorem modDrv_busData : (modDrv f s).busData = s.busData := rfl
@[simp] theorem modDrv_queues : (modDrv f s).queues = s.queues := rfl
@[simp] theorem modDrv_sides : (modDrv f s).sides = s.sides := rfl
@[simp] theorem modDrv_stalls : (modDrv f s).stalls = s.stalls := rfl
@[simp] theorem modDrv_q0pend : (modDrv f s).q0pend = s.q0pend := rfl
@[simp] theorem modDrv_helm : (modDrv f s).helm = s.helm := rfl
@[simp] theorem modDrv_fresh : (modDrv f s).fresh = s.fresh := rfl
@[simp] theorem modDrv_mot : (modDrv f s).mot = s.mot := rfl
@[simp] theorem modDrv_ax : (modDrv f s).ax = s.ax := rfl
@[simp] theorem modDrv_gear : (modDrv f s).gear = s.gear := rfl
@[simp] theorem modDrv_sup : (modDrv f s).sup = s.sup := rfl
@[simp] theorem modDrv_env : (modDrv f s).env = s.env := rfl
@[simp] theorem modDrv_igrp : (modDrv f s).igrp = s.igrp := rfl
@[simp] theorem modDrv_homing : (modDrv f s).homing = s.homing := rfl
@[simp] theorem modDrv_stp : (modDrv f s).stp = s.stp := rfl
@[simp] theorem modDrv_pwmA : (modDrv f s).pwmA = s.pwmA := rfl
@[simp] theorem modDrv_pwmG : (modDrv f s).pwmG = s.pwmG := rfl
@[simp] theorem modDrv_pinsLow : (modDrv f s).pinsLow = s.pinsLow := rfl
@[simp] theorem modDrv_loop : (modDrv f s).loop = s.loop := rfl
@[simp] theorem modDrv_clu : (modDrv f s).clu = s.clu := rfl
@[simp] theorem modDrv_enc : (modDrv f s).enc = s.enc := rfl
@[simp] theorem modDrv_cmpPins : (modDrv f s).cmpPins = s.cmpPins := rfl
@[simp] theorem modDrv_latPins : (modDrv f s).latPins = s.latPins := rfl
@[simp] theorem modDrv_sdm : (modDrv f s).sdm = s.sdm := rfl
@[simp] theorem modDrv_hk : (modDrv f s).hk = s.hk := rfl
@[simp] theorem modDrv_adm : (modDrv f s).adm = s.adm := rfl
@[simp] theorem modDrv_pwr : (modDrv f s).pwr = s.pwr := rfl
@[simp] theorem modDrv_fio : (modDrv f s).fio = s.fio := rfl
@[simp] theorem modDrv_safe : (modDrv f s).safe = s.safe := rfl
@[simp] theorem modDrv_ring : (modDrv f s).ring = s.ring := rfl
@[simp] theorem modDrv_can : (modDrv f s).can = s.can := rfl
@[simp] theorem modDrv_boot : (modDrv f s).boot = s.boot := rfl
@[simp] theorem modDrv_pins : (modDrv f s).pins = s.pins := rfl
@[simp] theorem modDrv_pending : (modDrv f s).pending = s.pending := rfl
@[simp] theorem modDrv_drv : (modDrv f s).drv = f s.drv := rfl

end

section
variable (f : Fio → Fio)

@[simp] theorem modFio_now : (modFio f s).now = s.now := rfl
@[simp] theorem modFio_regs : (modFio f s).regs = s.regs := rfl
@[simp] theorem modFio_pts : (modFio f s).pts = s.pts := rfl
@[simp] theorem modFio_attrs : (modFio f s).attrs = s.attrs := rfl
@[simp] theorem modFio_held : (modFio f s).held = s.held := rfl
@[simp] theorem modFio_snaps : (modFio f s).snaps = s.snaps := rfl
@[simp] theorem modFio_mem : (modFio f s).mem = s.mem := rfl
@[simp] theorem modFio_bad : (modFio f s).bad = s.bad := rfl
@[simp] theorem modFio_busData : (modFio f s).busData = s.busData := rfl
@[simp] theorem modFio_queues : (modFio f s).queues = s.queues := rfl
@[simp] theorem modFio_sides : (modFio f s).sides = s.sides := rfl
@[simp] theorem modFio_stalls : (modFio f s).stalls = s.stalls := rfl
@[simp] theorem modFio_q0pend : (modFio f s).q0pend = s.q0pend := rfl
@[simp] theorem modFio_helm : (modFio f s).helm = s.helm := rfl
@[simp] theorem modFio_fresh : (modFio f s).fresh = s.fresh := rfl
@[simp] theorem modFio_mot : (modFio f s).mot = s.mot := rfl
@[simp] theorem modFio_ax : (modFio f s).ax = s.ax := rfl
@[simp] theorem modFio_gear : (modFio f s).gear = s.gear := rfl
@[simp] theorem modFio_sup : (modFio f s).sup = s.sup := rfl
@[simp] theorem modFio_env : (modFio f s).env = s.env := rfl
@[simp] theorem modFio_igrp : (modFio f s).igrp = s.igrp := rfl
@[simp] theorem modFio_homing : (modFio f s).homing = s.homing := rfl
@[simp] theorem modFio_stp : (modFio f s).stp = s.stp := rfl
@[simp] theorem modFio_pwmA : (modFio f s).pwmA = s.pwmA := rfl
@[simp] theorem modFio_pwmG : (modFio f s).pwmG = s.pwmG := rfl
@[simp] theorem modFio_pinsLow : (modFio f s).pinsLow = s.pinsLow := rfl
@[simp] theorem modFio_loop : (modFio f s).loop = s.loop := rfl
@[simp] theorem modFio_clu : (modFio f s).clu = s.clu := rfl
@[simp] theorem modFio_enc : (modFio f s).enc = s.enc := rfl
@[simp] theorem modFio_cmpPins : (modFio f s).cmpPins = s.cmpPins := rfl
@[simp] theorem modFio_latPins : (modFio f s).latPins = s.latPins := rfl
@[simp] theorem modFio_sdm : (modFio f s).sdm = s.sdm := rfl
@[simp] theorem modFio_hk : (modFio f s).hk = s.hk := rfl
@[simp] theorem modFio_drv : (modFio f s).drv = s.drv := rfl
@[simp] theorem modFio_adm : (modFio f s).adm = s.adm := rfl
@[simp] theorem modFio_pwr : (modFio f s).pwr = s.pwr := rfl
@[simp] theorem modFio_safe : (modFio f s).safe = s.safe := rfl
@[simp] theorem modFio_ring : (modFio f s).ring = s.ring := rfl
@[simp] theorem modFio_can : (modFio f s).can = s.can := rfl
@[simp] theorem modFio_boot : (modFio f s).boot = s.boot := rfl
@[simp] theorem modFio_pins : (modFio f s).pins = s.pins := rfl
@[simp] theorem modFio_pending : (modFio f s).pending = s.pending := rfl
@[simp] theorem modFio_fio : (modFio f s).fio = f s.fio := rfl

end

section
variable (f : BootSt → BootSt)

@[simp] theorem modBoot_now : (modBoot f s).now = s.now := rfl
@[simp] theorem modBoot_regs : (modBoot f s).regs = s.regs := rfl
@[simp] theorem modBoot_pts : (modBoot f s).pts = s.pts := rfl
@[simp] theorem modBoot_attrs : (modBoot f s).attrs = s.attrs := rfl
@[simp] theorem modBoot_held : (modBoot f s).held = s.held := rfl
@[simp] theorem modBoot_snaps : (modBoot f s).snaps = s.snaps := rfl
@[simp] theorem modBoot_mem : (modBoot f s).mem = s.mem := rfl
@[simp] theorem modBoot_bad : (modBoot f s).bad = s.bad := rfl
@[simp] theorem modBoot_busData : (modBoot f s).busData = s.busData := rfl
@[simp] theorem modBoot_queues : (modBoot f s).queues = s.queues := rfl
@[simp] theorem modBoot_sides : (modBoot f s).sides = s.sides := rfl
@[simp] theorem modBoot_stalls : (modBoot f s).stalls = s.stalls := rfl
@[simp] theorem modBoot_q0pend : (modBoot f s).q0pend = s.q0pend := rfl
@[simp] theorem modBoot_helm : (modBoot f s).helm = s.helm := rfl
@[simp] theorem modBoot_fresh : (modBoot f s).fresh = s.fresh := rfl
@[simp] theorem modBoot_mot : (modBoot f s).mot = s.mot := rfl
@[simp] theorem modBoot_ax : (modBoot f s).ax = s.ax := rfl
@[simp] theorem modBoot_gear : (modBoot f s).gear = s.gear := rfl
@[simp] theorem modBoot_sup : (modBoot f s).sup = s.sup := rfl
@[simp] theorem modBoot_env : (modBoot f s).env = s.env := rfl
@[simp] theorem modBoot_igrp : (modBoot f s).igrp = s.igrp := rfl
@[simp] theorem modBoot_homing : (modBoot f s).homing = s.homing := rfl
@[simp] theorem modBoot_stp : (modBoot f s).stp = s.stp := rfl
@[simp] theorem modBoot_pwmA : (modBoot f s).pwmA = s.pwmA := rfl
@[simp] theorem modBoot_pwmG : (modBoot f s).pwmG = s.pwmG := rfl
@[simp] theorem modBoot_pinsLow : (modBoot f s).pinsLow = s.pinsLow := rfl
@[simp] theorem modBoot_loop : (modBoot f s).loop = s.loop := rfl
@[simp] theorem modBoot_clu : (modBoot f s).clu = s.clu := rfl
@[simp] theorem modBoot_enc : (modBoot f s).enc = s.enc := rfl
@[simp] theorem modBoot_cmpPins : (modBoot f s).cmpPins = s.cmpPins := rfl
@[simp] theorem modBoot_latPins : (modBoot f s).latPins = s.latPins := rfl
@[simp] theorem modBoot_sdm : (modBoot f s).sdm = s.sdm := rfl
@[simp] theorem modBoot_hk : (modBoot f s).hk = s.hk := rfl
@[simp] theorem modBoot_drv : (modBoot f s).drv = s.drv := rfl
@[simp] theorem modBoot_adm : (modBoot f s).adm = s.adm := rfl
@[simp] theorem modBoot_pwr : (modBoot f s).pwr = s.pwr := rfl
@[simp] theorem modBoot_fio : (modBoot f s).fio = s.fio := rfl
@[simp] theorem modBoot_safe : (modBoot f s).safe = s.safe := rfl
@[simp] theorem modBoot_ring : (modBoot f s).ring = s.ring := rfl
@[simp] theorem modBoot_can : (modBoot f s).can = s.can := rfl
@[simp] theorem modBoot_pins : (modBoot f s).pins = s.pins := rfl
@[simp] theorem modBoot_pending : (modBoot f s).pending = s.pending := rfl
@[simp] theorem modBoot_boot : (modBoot f s).boot = f s.boot := rfl

end

section
variable (f : Helm → Helm)

@[simp] theorem modHelm_now : (modHelm f s).now = s.now := rfl
@[simp] theorem modHelm_regs : (modHelm f s).regs = s.regs := rfl
@[simp] theorem modHelm_pts : (modHelm f s).pts = s.pts := rfl
@[simp] theorem modHelm_attrs : (modHelm f s).attrs = s.attrs := rfl
@[simp] theorem modHelm_held : (modHelm f s).held = s.held := rfl
@[simp] theorem modHelm_snaps : (modHelm f s).snaps = s.snaps := rfl
@[simp] theorem modHelm_mem : (modHelm f s).mem = s.mem := rfl
@[simp] theorem modHelm_bad : (modHelm f s).bad = s.bad := rfl
@[simp] theorem modHelm_busData : (modHelm f s).busData = s.busData := rfl
@[simp] theorem modHelm_queues : (modHelm f s).queues = s.queues := rfl
@[simp] theorem modHelm_sides : (modHelm f s).sides = s.sides := rfl
@[simp] theorem modHelm_stalls : (modHelm f s).stalls = s.stalls := rfl
@[simp] theorem modHelm_q0pend : (modHelm f s).q0pend = s.q0pend := rfl
@[simp] theorem modHelm_fresh : (modHelm f s).fresh = s.fresh := rfl
@[simp] theorem modHelm_mot : (modHelm f s).mot = s.mot := rfl
@[simp] theorem modHelm_ax : (modHelm f s).ax = s.ax := rfl
@[simp] theorem modHelm_gear : (modHelm f s).gear = s.gear := rfl
@[simp] theorem modHelm_sup : (modHelm f s).sup = s.sup := rfl
@[simp] theorem modHelm_env : (modHelm f s).env = s.env := rfl
@[simp] theorem modHelm_igrp : (modHelm f s).igrp = s.igrp := rfl
@[simp] theorem modHelm_homing : (modHelm f s).homing = s.homing := rfl
@[simp] theorem modHelm_stp : (modHelm f s).stp = s.stp := rfl
@[simp] theorem modHelm_pwmA : (modHelm f s).pwmA = s.pwmA := rfl
@[simp] theorem modHelm_pwmG : (modHelm f s).pwmG = s.pwmG := rfl
@[simp] theorem modHelm_pinsLow : (modHelm f s).pinsLow = s.pinsLow := rfl
@[simp] theorem modHelm_loop : (modHelm f s).loop = s.loop := rfl
@[simp] theorem modHelm_clu : (modHelm f s).clu = s.clu := rfl
@[simp] theorem modHelm_enc : (modHelm f s).enc = s.enc := rfl
@[simp] theorem modHelm_cmpPins : (modHelm f s).cmpPins = s.cmpPins := rfl
@[simp] theorem modHelm_latPins : (modHelm f s).latPins = s.latPins := rfl
@[simp] theorem modHelm_sdm : (modHelm f s).sdm = s.sdm := rfl
@[simp] theorem modHelm_hk : (modHelm f s).hk = s.hk := rfl
@[simp] theorem modHelm_drv : (modHelm f s).drv = s.drv := rfl
@[simp] theorem modHelm_adm : (modHelm f s).adm = s.adm := rfl
@[simp] theorem modHelm_pwr : (modHelm f s).pwr = s.pwr := rfl
@[simp] theorem modHelm_fio : (modHelm f s).fio = s.fio := rfl
@[simp] theorem modHelm_safe : (modHelm f s).safe = s.safe := rfl
@[simp] theorem modHelm_ring : (modHelm f s).ring = s.ring := rfl
@[simp] theorem modHelm_can : (modHelm f s).can = s.can := rfl
@[simp] theorem modHelm_boot : (modHelm f s).boot = s.boot := rfl
@[simp] theorem modHelm_pins : (modHelm f s).pins = s.pins := rfl
@[simp] theorem modHelm_pending : (modHelm f s).pending = s.pending := rfl
@[simp] theorem modHelm_helm : (modHelm f s).helm = f s.helm := rfl

end

section
variable (f : Power → Power)

@[simp] theorem modPwr_now : (modPwr f s).now = s.now := rfl
@[simp] theorem modPwr_regs : (modPwr f s).regs = s.regs := rfl
@[simp] theorem modPwr_pts : (modPwr f s).pts = s.pts := rfl
@[simp] theorem modPwr_attrs : (modPwr f s).attrs = s.attrs := rfl
@[simp] theorem modPwr_held : (modPwr f s).held = s.held := rfl
@[simp] theorem modPwr_snaps : (modPwr f s).snaps = s.snaps := rfl
@[simp] theorem modPwr_mem : (modPwr f s).mem = s.mem := rfl
@[simp] theorem modPwr_bad : (modPwr f s).bad = s.bad := rfl
@[simp] theorem modPwr_busData : (modPwr f s).busData = s.busData := rfl
@[simp] theorem modPwr_queues : (modPwr f s).queues = s.queues := rfl
@[simp] theorem modPwr_sides : (modPwr f s).sides = s.sides := rfl
@[simp] theorem modPwr_stalls : (modPwr f s).stalls = s.stalls := rfl
@[simp] theorem modPwr_q0pend : (modPwr f s).q0pend = s.q0pend := rfl
@[simp] theorem modPwr_helm : (modPwr f s).helm = s.helm := rfl
@[simp] theorem modPwr_fresh : (modPwr f s).fresh = s.fresh := rfl
@[simp] theorem modPwr_mot : (modPwr f s).mot = s.mot := rfl
@[simp] theorem modPwr_ax : (modPwr f s).ax = s.ax := rfl
@[simp] theorem modPwr_gear : (modPwr f s).gear = s.gear := rfl
@[simp] theorem modPwr_sup : (modPwr f s).sup = s.sup := rfl
@[simp] theorem modPwr_env : (modPwr f s).env = s.env := rfl
@[simp] theorem modPwr_igrp : (modPwr f s).igrp = s.igrp := rfl
@[simp] theorem modPwr_homing : (modPwr f s).homing = s.homing := rfl
@[simp] theorem modPwr_stp : (modPwr f s).stp = s.stp := rfl
@[simp] theorem modPwr_pwmA : (modPwr f s).pwmA = s.pwmA := rfl
@[simp] theorem modPwr_pwmG : (modPwr f s).pwmG = s.pwmG := rfl
@[simp] theorem modPwr_pinsLow : (modPwr f s).pinsLow = s.pinsLow := rfl
@[simp] theorem modPwr_loop : (modPwr f s).loop = s.loop := rfl
@[simp] theorem modPwr_clu : (modPwr f s).clu = s.clu := rfl
@[simp] theorem modPwr_enc : (modPwr f s).enc = s.enc := rfl
@[simp] theorem modPwr_cmpPins : (modPwr f s).cmpPins = s.cmpPins := rfl
@[simp] theorem modPwr_latPins : (modPwr f s).latPins = s.latPins := rfl
@[simp] theorem modPwr_sdm : (modPwr f s).sdm = s.sdm := rfl
@[simp] theorem modPwr_hk : (modPwr f s).hk = s.hk := rfl
@[simp] theorem modPwr_drv : (modPwr f s).drv = s.drv := rfl
@[simp] theorem modPwr_adm : (modPwr f s).adm = s.adm := rfl
@[simp] theorem modPwr_fio : (modPwr f s).fio = s.fio := rfl
@[simp] theorem modPwr_safe : (modPwr f s).safe = s.safe := rfl
@[simp] theorem modPwr_ring : (modPwr f s).ring = s.ring := rfl
@[simp] theorem modPwr_can : (modPwr f s).can = s.can := rfl
@[simp] theorem modPwr_boot : (modPwr f s).boot = s.boot := rfl
@[simp] theorem modPwr_pins : (modPwr f s).pins = s.pins := rfl
@[simp] theorem modPwr_pending : (modPwr f s).pending = s.pending := rfl
@[simp] theorem modPwr_pwr : (modPwr f s).pwr = f s.pwr := rfl

end

section
variable (f : Pins → Pins)

@[simp] theorem modPins_now : (modPins f s).now = s.now := rfl
@[simp] theorem modPins_regs : (modPins f s).regs = s.regs := rfl
@[simp] theorem modPins_pts : (modPins f s).pts = s.pts := rfl
@[simp] theorem modPins_attrs : (modPins f s).attrs = s.attrs := rfl
@[simp] theorem modPins_held : (modPins f s).held = s.held := rfl
@[simp] theorem modPins_snaps : (modPins f s).snaps = s.snaps := rfl
@[simp] theorem modPins_mem : (modPins f s).mem = s.mem := rfl
@[simp] theorem modPins_bad : (modPins f s).bad = s.bad := rfl
@[simp] theorem modPins_busData : (modPins f s).busData = s.busData := rfl
@[simp] theorem modPins_queues : (modPins f s).queues = s.queues := rfl
@[simp] theorem modPins_sides : (modPins f s).sides = s.sides := rfl
@[simp] theorem modPins_stalls : (modPins f s).stalls = s.stalls := rfl
@[simp] theorem modPins_q0pend : (modPins f s).q0pend = s.q0pend := rfl
@[simp] theorem modPins_helm : (modPins f s).helm = s.helm := rfl
@[simp] theorem modPins_fresh : (modPins f s).fresh = s.fresh := rfl
@[simp] theorem modPins_mot : (modPins f s).mot = s.mot := rfl
@[simp] theorem modPins_ax : (modPins f s).ax = s.ax := rfl
@[simp] theorem modPins_gear : (modPins f s).gear = s.gear := rfl
@[simp] theorem modPins_sup : (modPins f s).sup = s.sup := rfl
@[simp] theorem modPins_env : (modPins f s).env = s.env := rfl
@[simp] theorem modPins_igrp : (modPins f s).igrp = s.igrp := rfl
@[simp] theorem modPins_homing : (modPins f s).homing = s.homing := rfl
@[simp] theorem modPins_stp : (modPins f s).stp = s.stp := rfl
@[simp] theorem modPins_pwmA : (modPins f s).pwmA = s.pwmA := rfl
@[simp] theorem modPins_pwmG : (modPins f s).pwmG = s.pwmG := rfl
@[simp] theorem modPins_pinsLow : (modPins f s).pinsLow = s.pinsLow := rfl
@[simp] theorem modPins_loop : (modPins f s).loop = s.loop := rfl
@[simp] theorem modPins_clu : (modPins f s).clu = s.clu := rfl
@[simp] theorem modPins_enc : (modPins f s).enc = s.enc := rfl
@[simp] theorem modPins_cmpPins : (modPins f s).cmpPins = s.cmpPins := rfl
@[simp] theorem modPins_latPins : (modPins f s).latPins = s.latPins := rfl
@[simp] theorem modPins_sdm : (modPins f s).sdm = s.sdm := rfl
@[simp] theorem modPins_hk : (modPins f s).hk = s.hk := rfl
@[simp] theorem modPins_drv : (modPins f s).drv = s.drv := rfl
@[simp] theorem modPins_adm : (modPins f s).adm = s.adm := rfl
@[simp] theorem modPins_pwr : (modPins f s).pwr = s.pwr := rfl
@[simp] theorem modPins_fio : (modPins f s).fio = s.fio := rfl
@[simp] theorem modPins_safe : (modPins f s).safe = s.safe := rfl
@[simp] theorem modPins_ring : (modPins f s).ring = s.ring := rfl
@[simp] theorem modPins_can : (modPins f s).can = s.can := rfl
@[simp] theorem modPins_boot : (modPins f s).boot = s.boot := rfl
@[simp] theorem modPins_pending : (modPins f s).pending = s.pending := rfl
@[simp] theorem modPins_pins : (modPins f s).pins = f s.pins := rfl

end

section
variable (f : Ring → Ring)

@[simp] theorem modRing_now : (modRing f s).now = s.now := rfl
@[simp] theorem modRing_regs : (modRing f s).regs = s.regs := rfl
@[simp] theorem modRing_pts : (modRing f s).pts = s.pts := rfl
@[simp] theorem modRing_attrs : (modRing f s).attrs = s.attrs := rfl
@[simp] theorem modRing_held : (modRing f s).held = s.held := rfl
@[simp] theorem modRing_snaps : (modRing f s).snaps = s.snaps := rfl
@[simp] theorem modRing_mem : (modRing f s).mem = s.mem := rfl
@[simp] theorem modRing_bad : (modRing f s).bad = s.bad := rfl
@[simp] theorem modRing_busData : (modRing f s).busData = s.busData := rfl
@[simp] theorem modRing_queues : (modRing f s).queues = s.queues := rfl
@[simp] theorem modRing_sides : (modRing f s).sides = s.sides := rfl
@[simp] theorem modRing_stalls : (modRing f s).stalls = s.stalls := rfl
@[simp] theorem modRing_q0pend : (modRing f s).q0pend = s.q0pend := rfl
@[simp] theorem modRing_helm : (modRing f s).helm = s.helm := rfl
@[simp] theorem modRing_fresh : (modRing f s).fresh = s.fresh := rfl
@[simp] theorem modRing_mot : (modRing f s).mot = s.mot := rfl
@[simp] theorem modRing_ax : (modRing f s).ax = s.ax := rfl
@[simp] theorem modRing_gear : (modRing f s).gear = s.gear := rfl
@[simp] theorem modRing_sup : (modRing f s).sup = s.sup := rfl
@[simp] theorem modRing_env : (modRing f s).env = s.env := rfl
@[simp] theorem modRing_igrp : (modRing f s).igrp = s.igrp := rfl
@[simp] theorem modRing_homing : (modRing f s).homing = s.homing := rfl
@[simp] theorem modRing_stp : (modRing f s).stp = s.stp := rfl
@[simp] theorem modRing_pwmA : (modRing f s).pwmA = s.pwmA := rfl
@[simp] theorem modRing_pwmG : (modRing f s).pwmG = s.pwmG := rfl
@[simp] theorem modRing_pinsLow : (modRing f s).pinsLow = s.pinsLow := rfl
@[simp] theorem modRing_loop : (modRing f s).loop = s.loop := rfl
@[simp] theorem modRing_clu : (modRing f s).clu = s.clu := rfl
@[simp] theorem modRing_enc : (modRing f s).enc = s.enc := rfl
@[simp] theorem modRing_cmpPins : (modRing f s).cmpPins = s.cmpPins := rfl
@[simp] theorem modRing_latPins : (modRing f s).latPins = s.latPins := rfl
@[simp] theorem modRing_sdm : (modRing f s).sdm = s.sdm := rfl
@[simp] theorem modRing_hk : (modRing f s).hk = s.hk := rfl
@[simp] theorem modRing_drv : (modRing f s).drv = s.drv := rfl
@[simp] theorem modRing_adm : (modRing f s).adm = s.adm := rfl
@[simp] theorem modRing_pwr : (modRing f s).pwr = s.pwr := rfl
@[simp] theorem modRing_fio : (modRing f s).fio = s.fio := rfl
@[simp] theorem modRing_safe : (modRing f s).safe = s.safe := rfl
@[simp] theorem modRing_can : (modRing f s).can = s.can := rfl
@[simp] theorem modRing_boot : (modRing f s).boot = s.boot := rfl
@[simp] theorem modRing_pins : (modRing f s).pins = s.pins := rfl
@[simp] theorem modRing_pending : (modRing f s).pending = s.pending := rfl
@[simp] theorem modRing_ring : (modRing f s).ring = f s.ring := rfl

end

section
variable (f : Safety → Safety)

@[simp] theorem modSafe_now : (modSafe f s).now = s.now := rfl
@[simp] theorem modSafe_regs : (modSafe f s).regs = s.regs := rfl
@[simp] theorem modSafe_pts : (modSafe f s).pts = s.pts := rfl
@[simp] theorem modSafe_attrs : (modSafe f s).attrs = s.attrs := rfl
@[simp] theorem modSafe_held : (modSafe f s).held = s.held := rfl
@[simp] theorem modSafe_snaps : (modSafe f s).snaps = s.snaps := rfl
@[simp] theorem modSafe_mem : (modSafe f s).mem = s.mem := rfl
@[simp] theorem modSafe_bad : (modSafe f s).bad = s.bad := rfl
@[simp] theorem modSafe_busData : (modSafe f s).busData = s.busData := rfl
@[simp] theorem modSafe_queues : (modSafe f s).queues = s.queues := rfl
@[simp] theorem modSafe_sides : (modSafe f s).sides = s.sides := rfl
@[simp] theorem modSafe_stalls : (modSafe f s).stalls = s.stalls := rfl
@[simp] theorem modSafe_q0pend : (modSafe f s).q0pend = s.q0pend := rfl
@[simp] theorem modSafe_helm : (modSafe f s).helm = s.helm := rfl
@[simp] theorem modSafe_fresh : (modSafe f s).fresh = s.fresh := rfl
@[simp] theorem modSafe_mot : (modSafe f s).mot = s.mot := rfl
@[simp] theorem modSafe_ax : (modSafe f s).ax = s.ax := rfl
@[simp] theorem modSafe_gear : (modSafe f s).gear = s.gear := rfl
@[simp] theorem modSafe_sup : (modSafe f s).sup = s.sup := rfl
@[simp] theorem modSafe_env : (modSafe f s).env = s.env := rfl
@[simp] theorem modSafe_igrp : (modSafe f s).igrp = s.igrp := rfl
@[simp] theorem modSafe_homing : (modSafe f s).homing = s.homing := rfl
@[simp] theorem modSafe_stp : (modSafe f s).stp = s.stp := rfl
@[simp] theorem modSafe_pwmA : (modSafe f s).pwmA = s.pwmA := rfl
@[simp] theorem modSafe_pwmG : (modSafe f s).pwmG = s.pwmG := rfl
@[simp] theorem modSafe_pinsLow : (modSafe f s).pinsLow = s.pinsLow := rfl
@[simp] theorem modSafe_loop : (modSafe f s).loop = s.loop := rfl
@[simp] theorem modSafe_clu : (modSafe f s).clu = s.clu := rfl
@[simp] theorem modSafe_enc : (modSafe f s).enc = s.enc := rfl
@[simp] theorem modSafe_cmpPins : (modSafe f s).cmpPins = s.cmpPins := rfl
@[simp] theorem modSafe_latPins : (modSafe f s).latPins = s.latPins := rfl
@[simp] theorem modSafe_sdm : (modSafe f s).sdm = s.sdm := rfl
@[simp] theorem modSafe_hk : (modSafe f s).hk = s.hk := rfl
@[simp] theorem modSafe_drv : (modSafe f s).drv = s.drv := rfl
@[simp] theorem modSafe_adm : (modSafe f s).adm = s.adm := rfl
@[simp] theorem modSafe_pwr : (modSafe f s).pwr = s.pwr := rfl
@[simp] theorem modSafe_fio : (modSafe f s).fio = s.fio := rfl
@[simp] theorem modSafe_ring : (modSafe f s).ring = s.ring := rfl
@[simp] theorem modSafe_can : (modSafe f s).can = s.can := rfl
@[simp] theorem modSafe_boot : (modSafe f s).boot = s.boot := rfl
@[simp] theorem modSafe_pins : (modSafe f s).pins = s.pins := rfl
@[simp] theorem modSafe_pending : (modSafe f s).pending = s.pending := rfl
@[simp] theorem modSafe_safe : (modSafe f s).safe = f s.safe := rfl

end

section
variable (a : Nat) (v : Word)

@[simp] theorem wr_now : (wr s a v).now = s.now := rfl
@[simp] theorem wr_pts : (wr s a v).pts = s.pts := rfl
@[simp] theorem wr_attrs : (wr s a v).attrs = s.attrs := rfl
@[simp] theorem wr_held : (wr s a v).held = s.held := rfl
@[simp] theorem wr_snaps : (wr s a v).snaps = s.snaps := rfl
@[simp] theorem wr_mem : (wr s a v).mem = s.mem := rfl
@[simp] theorem wr_bad : (wr s a v).bad = s.bad := rfl
@[simp] theorem wr_busData : (wr s a v).busData = s.busData := rfl
@[simp] theorem wr_queues : (wr s a v).queues = s.queues := rfl
@[simp] theorem wr_sides : (wr s a v).sides = s.sides := rfl
@[simp] theorem wr_stalls : (wr s a v).stalls = s.stalls := rfl
@[simp] theorem wr_q0pend : (wr s a v).q0pend = s.q0pend := rfl
@[simp] theorem wr_helm : (wr s a v).helm = s.helm := rfl
@[simp] theorem wr_fresh : (wr s a v).fresh = s.fresh := rfl
@[simp] theorem wr_mot : (wr s a v).mot = s.mot := rfl
@[simp] theorem wr_ax : (wr s a v).ax = s.ax := rfl
@[simp] theorem wr_gear : (wr s a v).gear = s.gear := rfl
@[simp] theorem wr_sup : (wr s a v).sup = s.sup := rfl
@[simp] theorem wr_env : (wr s a v).env = s.env := rfl
@[simp] theorem wr_igrp : (wr s a v).igrp = s.igrp := rfl
@[simp] theorem wr_homing : (wr s a v).homing = s.homing := rfl
@[simp] theorem wr_stp : (wr s a v).stp = s.stp := rfl
@[simp] theorem wr_pwmA : (wr s a v).pwmA = s.pwmA := rfl
@[simp] theorem wr_pwmG : (wr s a v).pwmG = s.pwmG := rfl
@[simp] theorem wr_pinsLow : (wr s a v).pinsLow = s.pinsLow := rfl
@[simp] theorem wr_loop : (wr s a v).loop = s.loop := rfl
@[simp] theorem wr_clu : (wr s a v).clu = s.clu := rfl
@[simp] theorem wr_enc : (wr s a v).enc = s.enc := rfl
@[simp] theorem wr_cmpPins : (wr s a v).cmpPins = s.cmpPins := rfl
@[simp] theorem wr_latPins : (wr s a v).latPins = s.latPins := rfl
@[simp] theorem wr_sdm : (wr s a v).sdm = s.sdm := rfl
@[simp] theorem wr_hk : (wr s a v).hk = s.hk := rfl
@[simp] theorem wr_drv : (wr s a v).drv = s.drv := rfl
@[simp] theorem wr_adm : (wr s a v).adm = s.adm := rfl
@[simp] theorem wr_pwr : (wr s a v).pwr = s.pwr := rfl
@[simp] theorem wr_fio : (wr s a v).fio = s.fio := rfl
@[simp] theorem wr_safe : (wr s a v).safe = s.safe := rfl
@[simp] theorem wr_ring : (wr s a v).ring = s.ring := rfl
@[simp] theorem wr_can : (wr s a v).can = s.can := rfl
@[simp] theorem wr_boot : (wr s a v).boot = s.boot := rfl
@[simp] theorem wr_pins : (wr s a v).pins = s.pins := rfl
@[simp] theorem wr_pending : (wr s a v).pending = s.pending := rfl

end

section
variable (b : Blk) (o : Nat) (v : Word)

@[simp] theorem bw_now : (bw s b o v).now = s.now := wr_now s _ _
@[simp] theorem bw_pts : (bw s b o v).pts = s.pts := wr_pts s _ _
@[simp] theorem bw_attrs : (bw s b o v).attrs = s.attrs := wr_attrs s _ _
@[simp] theorem bw_held : (bw s b o v).held = s.held := wr_held s _ _
@[simp] theorem bw_snaps : (bw s b o v).snaps = s.snaps := wr_snaps s _ _
@[simp] theorem bw_mem : (bw s b o v).mem = s.mem := wr_mem s _ _
@[simp] theorem bw_bad : (bw s b o v).bad = s.bad := wr_bad s _ _
@[simp] theorem bw_busData : (bw s b o v).busData = s.busData := wr_busData s _ _
@[simp] theorem bw_queues : (bw s b o v).queues = s.queues := wr_queues s _ _
@[simp] theorem bw_sides : (bw s b o v).sides = s.sides := wr_sides s _ _
@[simp] theorem bw_stalls : (bw s b o v).stalls = s.stalls := wr_stalls s _ _
@[simp] theorem bw_q0pend : (bw s b o v).q0pend = s.q0pend := wr_q0pend s _ _
@[simp] theorem bw_helm : (bw s b o v).helm = s.helm := wr_helm s _ _
@[simp] theorem bw_fresh : (bw s b o v).fresh = s.fresh := wr_fresh s _ _
@[simp] theorem bw_mot : (bw s b o v).mot = s.mot := wr_mot s _ _
@[simp] theorem bw_ax : (bw s b o v).ax = s.ax := wr_ax s _ _
@[simp] theorem bw_gear : (bw s b o v).gear = s.gear := wr_gear s _ _
@[simp] theorem bw_sup : (bw s b o v).sup = s.sup := wr_sup s _ _
@[simp] theorem bw_env : (bw s b o v).env = s.env := wr_env s _ _
@[simp] theorem bw_igrp : (bw s b o v).igrp = s.igrp := wr_igrp s _ _
@[simp] theorem bw_homing : (bw s b o v).homing = s.homing := wr_homing s _ _
@[simp] theorem bw_stp : (bw s b o v).stp = s.stp := wr_stp s _ _
@[simp] theorem bw_pwmA : (bw s b o v).pwmA = s.pwmA := wr_pwmA s _ _
@[simp] theorem bw_pwmG : (bw s b o v).pwmG = s.pwmG := wr_pwmG s _ _
@[simp] theorem bw_pinsLow : (bw s b o v).pinsLow = s.pinsLow := wr_pinsLow s _ _
@[simp] theorem bw_loop : (bw s b o v).loop = s.loop := wr_loop s _ _
@[simp] theorem bw_clu : (bw s b o v).clu = s.clu := wr_clu s _ _
@[simp] theorem bw_enc : (bw s b o v).enc = s.enc := wr_enc s _ _
@[simp] theorem bw_cmpPins : (bw s b o v).cmpPins = s.cmpPins := wr_cmpPins s _ _
@[simp] theorem bw_latPins : (bw s b o v).latPins = s.latPins := wr_latPins s _ _
@[simp] theorem bw_sdm : (bw s b o v).sdm = s.sdm := wr_sdm s _ _
@[simp] theorem bw_hk : (bw s b o v).hk = s.hk := wr_hk s _ _
@[simp] theorem bw_drv : (bw s b o v).drv = s.drv := wr_drv s _ _
@[simp] theorem bw_adm : (bw s b o v).adm = s.adm := wr_adm s _ _
@[simp] theorem bw_pwr : (bw s b o v).pwr = s.pwr := wr_pwr s _ _
@[simp] theorem bw_fio : (bw s b o v).fio = s.fio := wr_fio s _ _
@[simp] theorem bw_safe : (bw s b o v).safe = s.safe := wr_safe s _ _
@[simp] theorem bw_ring : (bw s b o v).ring = s.ring := wr_ring s _ _
@[simp] theorem bw_can : (bw s b o v).can = s.can := wr_can s _ _
@[simp] theorem bw_boot : (bw s b o v).boot = s.boot := wr_boot s _ _
@[simp] theorem bw_pins : (bw s b o v).pins = s.pins := wr_pins s _ _
@[simp] theorem bw_pending : (bw s b o v).pending = s.pending := wr_pending s _ _

end

section
variable (b : Blk) (n o : Nat) (v : Word)

@[simp] theorem iw_now : (iw s b n o v).now = s.now := wr_now s _ _
@[simp] theorem iw_pts : (iw s b n o v).pts = s.pts := wr_pts s _ _
@[simp] theorem iw_attrs : (iw s b n o v).attrs = s.attrs := wr_attrs s _ _
@[simp] theorem iw_held : (iw s b n o v).held = s.held := wr_held s _ _
@[simp] theorem iw_snaps : (iw s b n o v).snaps = s.snaps := wr_snaps s _ _
@[simp] theorem iw_mem : (iw s b n o v).mem = s.mem := wr_mem s _ _
@[simp] theorem iw_bad : (iw s b n o v).bad = s.bad := wr_bad s _ _
@[simp] theorem iw_busData : (iw s b n o v).busData = s.busData := wr_busData s _ _
@[simp] theorem iw_queues : (iw s b n o v).queues = s.queues := wr_queues s _ _
@[simp] theorem iw_sides : (iw s b n o v).sides = s.sides := wr_sides s _ _
@[simp] theorem iw_stalls : (iw s b n o v).stalls = s.stalls := wr_stalls s _ _
@[simp] theorem iw_q0pend : (iw s b n o v).q0pend = s.q0pend := wr_q0pend s _ _
@[simp] theorem iw_helm : (iw s b n o v).helm = s.helm := wr_helm s _ _
@[simp] theorem iw_fresh : (iw s b n o v).fresh = s.fresh := wr_fresh s _ _
@[simp] theorem iw_mot : (iw s b n o v).mot = s.mot := wr_mot s _ _
@[simp] theorem iw_ax : (iw s b n o v).ax = s.ax := wr_ax s _ _
@[simp] theorem iw_gear : (iw s b n o v).gear = s.gear := wr_gear s _ _
@[simp] theorem iw_sup : (iw s b n o v).sup = s.sup := wr_sup s _ _
@[simp] theorem iw_env : (iw s b n o v).env = s.env := wr_env s _ _
@[simp] theorem iw_igrp : (iw s b n o v).igrp = s.igrp := wr_igrp s _ _
@[simp] theorem iw_homing : (iw s b n o v).homing = s.homing := wr_homing s _ _
@[simp] theorem iw_stp : (iw s b n o v).stp = s.stp := wr_stp s _ _
@[simp] theorem iw_pwmA : (iw s b n o v).pwmA = s.pwmA := wr_pwmA s _ _
@[simp] theorem iw_pwmG : (iw s b n o v).pwmG = s.pwmG := wr_pwmG s _ _
@[simp] theorem iw_pinsLow : (iw s b n o v).pinsLow = s.pinsLow := wr_pinsLow s _ _
@[simp] theorem iw_loop : (iw s b n o v).loop = s.loop := wr_loop s _ _
@[simp] theorem iw_clu : (iw s b n o v).clu = s.clu := wr_clu s _ _
@[simp] theorem iw_enc : (iw s b n o v).enc = s.enc := wr_enc s _ _
@[simp] theorem iw_cmpPins : (iw s b n o v).cmpPins = s.cmpPins := wr_cmpPins s _ _
@[simp] theorem iw_latPins : (iw s b n o v).latPins = s.latPins := wr_latPins s _ _
@[simp] theorem iw_sdm : (iw s b n o v).sdm = s.sdm := wr_sdm s _ _
@[simp] theorem iw_hk : (iw s b n o v).hk = s.hk := wr_hk s _ _
@[simp] theorem iw_drv : (iw s b n o v).drv = s.drv := wr_drv s _ _
@[simp] theorem iw_adm : (iw s b n o v).adm = s.adm := wr_adm s _ _
@[simp] theorem iw_pwr : (iw s b n o v).pwr = s.pwr := wr_pwr s _ _
@[simp] theorem iw_fio : (iw s b n o v).fio = s.fio := wr_fio s _ _
@[simp] theorem iw_safe : (iw s b n o v).safe = s.safe := wr_safe s _ _
@[simp] theorem iw_ring : (iw s b n o v).ring = s.ring := wr_ring s _ _
@[simp] theorem iw_can : (iw s b n o v).can = s.can := wr_can s _ _
@[simp] theorem iw_boot : (iw s b n o v).boot = s.boot := wr_boot s _ _
@[simp] theorem iw_pins : (iw s b n o v).pins = s.pins := wr_pins s _ _
@[simp] theorem iw_pending : (iw s b n o v).pending = s.pending := wr_pending s _ _

end

section
variable (b : Blk) (n o : Nat) (v : Word)

@[simp] theorem aw_now : (aw s b n o v).now = s.now := wr_now s _ _
@[simp] theorem aw_pts : (aw s b n o v).pts = s.pts := wr_pts s _ _
@[simp] theorem aw_attrs : (aw s b n o v).attrs = s.attrs := wr_attrs s _ _
@[simp] theorem aw_held : (aw s b n o v).held = s.held := wr_held s _ _
@[simp] theorem aw_snaps : (aw s b n o v).snaps = s.snaps := wr_snaps s _ _
@[simp] theorem aw_mem : (aw s b n o v).mem = s.mem := wr_mem s _ _
@[simp] theorem aw_bad : (aw s b n o v).bad = s.bad := wr_bad s _ _
@[simp] theorem aw_busData : (aw s b n o v).busData = s.busData := wr_busData s _ _
@[simp] theorem aw_queues : (aw s b n o v).queues = s.queues := wr_queues s _ _
@[simp] theorem aw_sides : (aw s b n o v).sides = s.sides := wr_sides s _ _
@[simp] theorem aw_stalls : (aw s b n o v).stalls = s.stalls := wr_stalls s _ _
@[simp] theorem aw_q0pend : (aw s b n o v).q0pend = s.q0pend := wr_q0pend s _ _
@[simp] theorem aw_helm : (aw s b n o v).helm = s.helm := wr_helm s _ _
@[simp] theorem aw_fresh : (aw s b n o v).fresh = s.fresh := wr_fresh s _ _
@[simp] theorem aw_mot : (aw s b n o v).mot = s.mot := wr_mot s _ _
@[simp] theorem aw_ax : (aw s b n o v).ax = s.ax := wr_ax s _ _
@[simp] theorem aw_gear : (aw s b n o v).gear = s.gear := wr_gear s _ _
@[simp] theorem aw_sup : (aw s b n o v).sup = s.sup := wr_sup s _ _
@[simp] theorem aw_env : (aw s b n o v).env = s.env := wr_env s _ _
@[simp] theorem aw_igrp : (aw s b n o v).igrp = s.igrp := wr_igrp s _ _
@[simp] theorem aw_homing : (aw s b n o v).homing = s.homing := wr_homing s _ _
@[simp] theorem aw_stp : (aw s b n o v).stp = s.stp := wr_stp s _ _
@[simp] theorem aw_pwmA : (aw s b n o v).pwmA = s.pwmA := wr_pwmA s _ _
@[simp] theorem aw_pwmG : (aw s b n o v).pwmG = s.pwmG := wr_pwmG s _ _
@[simp] theorem aw_pinsLow : (aw s b n o v).pinsLow = s.pinsLow := wr_pinsLow s _ _
@[simp] theorem aw_loop : (aw s b n o v).loop = s.loop := wr_loop s _ _
@[simp] theorem aw_clu : (aw s b n o v).clu = s.clu := wr_clu s _ _
@[simp] theorem aw_enc : (aw s b n o v).enc = s.enc := wr_enc s _ _
@[simp] theorem aw_cmpPins : (aw s b n o v).cmpPins = s.cmpPins := wr_cmpPins s _ _
@[simp] theorem aw_latPins : (aw s b n o v).latPins = s.latPins := wr_latPins s _ _
@[simp] theorem aw_sdm : (aw s b n o v).sdm = s.sdm := wr_sdm s _ _
@[simp] theorem aw_hk : (aw s b n o v).hk = s.hk := wr_hk s _ _
@[simp] theorem aw_drv : (aw s b n o v).drv = s.drv := wr_drv s _ _
@[simp] theorem aw_adm : (aw s b n o v).adm = s.adm := wr_adm s _ _
@[simp] theorem aw_pwr : (aw s b n o v).pwr = s.pwr := wr_pwr s _ _
@[simp] theorem aw_fio : (aw s b n o v).fio = s.fio := wr_fio s _ _
@[simp] theorem aw_safe : (aw s b n o v).safe = s.safe := wr_safe s _ _
@[simp] theorem aw_ring : (aw s b n o v).ring = s.ring := wr_ring s _ _
@[simp] theorem aw_can : (aw s b n o v).can = s.can := wr_can s _ _
@[simp] theorem aw_boot : (aw s b n o v).boot = s.boot := wr_boot s _ _
@[simp] theorem aw_pins : (aw s b n o v).pins = s.pins := wr_pins s _ _
@[simp] theorem aw_pending : (aw s b n o v).pending = s.pending := wr_pending s _ _

end

section
variable (g : Fin 4) (o : Nat) (v : Word)

@[simp] theorem sw_now : (sw s g o v).now = s.now := wr_now s _ _
@[simp] theorem sw_pts : (sw s g o v).pts = s.pts := wr_pts s _ _
@[simp] theorem sw_attrs : (sw s g o v).attrs = s.attrs := wr_attrs s _ _
@[simp] theorem sw_held : (sw s g o v).held = s.held := wr_held s _ _
@[simp] theorem sw_snaps : (sw s g o v).snaps = s.snaps := wr_snaps s _ _
@[simp] theorem sw_mem : (sw s g o v).mem = s.mem := wr_mem s _ _
@[simp] theorem sw_bad : (sw s g o v).bad = s.bad := wr_bad s _ _
@[simp] theorem sw_busData : (sw s g o v).busData = s.busData := wr_busData s _ _
@[simp] theorem sw_queues : (sw s g o v).queues = s.queues := wr_queues s _ _
@[simp] theorem sw_sides : (sw s g o v).sides = s.sides := wr_sides s _ _
@[simp] theorem sw_stalls : (sw s g o v).stalls = s.stalls := wr_stalls s _ _
@[simp] theorem sw_q0pend : (sw s g o v).q0pend = s.q0pend := wr_q0pend s _ _
@[simp] theorem sw_helm : (sw s g o v).helm = s.helm := wr_helm s _ _
@[simp] theorem sw_fresh : (sw s g o v).fresh = s.fresh := wr_fresh s _ _
@[simp] theorem sw_mot : (sw s g o v).mot = s.mot := wr_mot s _ _
@[simp] theorem sw_ax : (sw s g o v).ax = s.ax := wr_ax s _ _
@[simp] theorem sw_gear : (sw s g o v).gear = s.gear := wr_gear s _ _
@[simp] theorem sw_sup : (sw s g o v).sup = s.sup := wr_sup s _ _
@[simp] theorem sw_env : (sw s g o v).env = s.env := wr_env s _ _
@[simp] theorem sw_igrp : (sw s g o v).igrp = s.igrp := wr_igrp s _ _
@[simp] theorem sw_homing : (sw s g o v).homing = s.homing := wr_homing s _ _
@[simp] theorem sw_stp : (sw s g o v).stp = s.stp := wr_stp s _ _
@[simp] theorem sw_pwmA : (sw s g o v).pwmA = s.pwmA := wr_pwmA s _ _
@[simp] theorem sw_pwmG : (sw s g o v).pwmG = s.pwmG := wr_pwmG s _ _
@[simp] theorem sw_pinsLow : (sw s g o v).pinsLow = s.pinsLow := wr_pinsLow s _ _
@[simp] theorem sw_loop : (sw s g o v).loop = s.loop := wr_loop s _ _
@[simp] theorem sw_clu : (sw s g o v).clu = s.clu := wr_clu s _ _
@[simp] theorem sw_enc : (sw s g o v).enc = s.enc := wr_enc s _ _
@[simp] theorem sw_cmpPins : (sw s g o v).cmpPins = s.cmpPins := wr_cmpPins s _ _
@[simp] theorem sw_latPins : (sw s g o v).latPins = s.latPins := wr_latPins s _ _
@[simp] theorem sw_sdm : (sw s g o v).sdm = s.sdm := wr_sdm s _ _
@[simp] theorem sw_hk : (sw s g o v).hk = s.hk := wr_hk s _ _
@[simp] theorem sw_drv : (sw s g o v).drv = s.drv := wr_drv s _ _
@[simp] theorem sw_adm : (sw s g o v).adm = s.adm := wr_adm s _ _
@[simp] theorem sw_pwr : (sw s g o v).pwr = s.pwr := wr_pwr s _ _
@[simp] theorem sw_fio : (sw s g o v).fio = s.fio := wr_fio s _ _
@[simp] theorem sw_safe : (sw s g o v).safe = s.safe := wr_safe s _ _
@[simp] theorem sw_ring : (sw s g o v).ring = s.ring := wr_ring s _ _
@[simp] theorem sw_can : (sw s g o v).can = s.can := wr_can s _ _
@[simp] theorem sw_boot : (sw s g o v).boot = s.boot := wr_boot s _ _
@[simp] theorem sw_pins : (sw s g o v).pins = s.pins := wr_pins s _ _
@[simp] theorem sw_pending : (sw s g o v).pending = s.pending := wr_pending s _ _

end

section
variable (b : Blk) (o i : Nat) (v : Bool)

@[simp] theorem bwBit_now : (bwBit s b o i v).now = s.now := bw_now s _ _ _
@[simp] theorem bwBit_pts : (bwBit s b o i v).pts = s.pts := bw_pts s _ _ _
@[simp] theorem bwBit_attrs : (bwBit s b o i v).attrs = s.attrs := bw_attrs s _ _ _
@[simp] theorem bwBit_held : (bwBit s b o i v).held = s.held := bw_held s _ _ _
@[simp] theorem bwBit_snaps : (bwBit s b o i v).snaps = s.snaps := bw_snaps s _ _ _
@[simp] theorem bwBit_mem : (bwBit s b o i v).mem = s.mem := bw_mem s _ _ _
@[simp] theorem bwBit_bad : (bwBit s b o i v).bad = s.bad := bw_bad s _ _ _
@[simp] theorem bwBit_busData : (bwBit s b o i v).busData = s.busData := bw_busData s _ _ _
@[simp] theorem bwBit_queues : (bwBit s b o i v).queues = s.queues := bw_queues s _ _ _
@[simp] theorem bwBit_sides : (bwBit s b o i v).sides = s.sides := bw_sides s _ _ _
@[simp] theorem bwBit_stalls : (bwBit s b o i v).stalls = s.stalls := bw_stalls s _ _ _
@[simp] theorem bwBit_q0pend : (bwBit s b o i v).q0pend = s.q0pend := bw_q0pend s _ _ _
@[simp] theorem bwBit_helm : (bwBit s b o i v).helm = s.helm := bw_helm s _ _ _
@[simp] theorem bwBit_fresh : (bwBit s b o i v).fresh = s.fresh := bw_fresh s _ _ _
@[simp] theorem bwBit_mot : (bwBit s b o i v).mot = s.mot := bw_mot s _ _ _
@[simp] theorem bwBit_ax : (bwBit s b o i v).ax = s.ax := bw_ax s _ _ _
@[simp] theorem bwBit_gear : (bwBit s b o i v).gear = s.gear := bw_gear s _ _ _
@[simp] theorem bwBit_sup : (bwBit s b o i v).sup = s.sup := bw_sup s _ _ _
@[simp] theorem bwBit_env : (bwBit s b o i v).env = s.env := bw_env s _ _ _
@[simp] theorem bwBit_igrp : (bwBit s b o i v).igrp = s.igrp := bw_igrp s _ _ _
@[simp] theorem bwBit_homing : (bwBit s b o i v).homing = s.homing := bw_homing s _ _ _
@[simp] theorem bwBit_stp : (bwBit s b o i v).stp = s.stp := bw_stp s _ _ _
@[simp] theorem bwBit_pwmA : (bwBit s b o i v).pwmA = s.pwmA := bw_pwmA s _ _ _
@[simp] theorem bwBit_pwmG : (bwBit s b o i v).pwmG = s.pwmG := bw_pwmG s _ _ _
@[simp] theorem bwBit_pinsLow : (bwBit s b o i v).pinsLow = s.pinsLow := bw_pinsLow s _ _ _
@[simp] theorem bwBit_loop : (bwBit s b o i v).loop = s.loop := bw_loop s _ _ _
@[simp] theorem bwBit_clu : (bwBit s b o i v).clu = s.clu := bw_clu s _ _ _
@[simp] theorem bwBit_enc : (bwBit s b o i v).enc = s.enc := bw_enc s _ _ _
@[simp] theorem bwBit_cmpPins : (bwBit s b o i v).cmpPins = s.cmpPins := bw_cmpPins s _ _ _
@[simp] theorem bwBit_latPins : (bwBit s b o i v).latPins = s.latPins := bw_latPins s _ _ _
@[simp] theorem bwBit_sdm : (bwBit s b o i v).sdm = s.sdm := bw_sdm s _ _ _
@[simp] theorem bwBit_hk : (bwBit s b o i v).hk = s.hk := bw_hk s _ _ _
@[simp] theorem bwBit_drv : (bwBit s b o i v).drv = s.drv := bw_drv s _ _ _
@[simp] theorem bwBit_adm : (bwBit s b o i v).adm = s.adm := bw_adm s _ _ _
@[simp] theorem bwBit_pwr : (bwBit s b o i v).pwr = s.pwr := bw_pwr s _ _ _
@[simp] theorem bwBit_fio : (bwBit s b o i v).fio = s.fio := bw_fio s _ _ _
@[simp] theorem bwBit_safe : (bwBit s b o i v).safe = s.safe := bw_safe s _ _ _
@[simp] theorem bwBit_ring : (bwBit s b o i v).ring = s.ring := bw_ring s _ _ _
@[simp] theorem bwBit_can : (bwBit s b o i v).can = s.can := bw_can s _ _ _
@[simp] theorem bwBit_boot : (bwBit s b o i v).boot = s.boot := bw_boot s _ _ _
@[simp] theorem bwBit_pins : (bwBit s b o i v).pins = s.pins := bw_pins s _ _ _
@[simp] theorem bwBit_pending : (bwBit s b o i v).pending = s.pending := bw_pending s _ _ _

end

section
variable (b : Blk) (n o i : Nat) (v : Bool)

@[simp] theorem iwBit_now : (iwBit s b n o i v).now = s.now := iw_now s _ _ _ _
@[simp] theorem iwBit_pts : (iwBit s b n o i v).pts = s.pts := iw_pts s _ _ _ _
@[simp] theorem iwBit_attrs : (iwBit s b n o i v).attrs = s.attrs := iw_attrs s _ _ _ _
@[simp] theorem iwBit_held : (iwBit s b n o i v).held = s.held := iw_held s _ _ _ _
@[simp] theorem iwBit_snaps : (iwBit s b n o i v).snaps = s.snaps := iw_snaps s _ _ _ _
@[simp] theorem iwBit_mem : (iwBit s b n o i v).mem = s.mem := iw_mem s _ _ _ _
@[simp] theorem iwBit_bad : (iwBit s b n o i v).bad = s.bad := iw_bad s _ _ _ _
@[simp] theorem iwBit_busData : (iwBit s b n o i v).busData = s.busData := iw_busData s _ _ _ _
@[simp] theorem iwBit_queues : (iwBit s b n o i v).queues = s.queues := iw_queues s _ _ _ _
@[simp] theorem iwBit_sides : (iwBit s b n o i v).sides = s.sides := iw_sides s _ _ _ _
@[simp] theorem iwBit_stalls : (iwBit s b n o i v).stalls = s.stalls := iw_stalls s _ _ _ _
@[simp] theorem iwBit_q0pend : (iwBit s b n o i v).q0pend = s.q0pend := iw_q0pend s _ _ _ _
@[simp] theorem iwBit_helm : (iwBit s b n o i v).helm = s.helm := iw_helm s _ _ _ _
@[simp] theorem iwBit_fresh : (iwBit s b n o i v).fresh = s.fresh := iw_fresh s _ _ _ _
@[simp] theorem iwBit_mot : (iwBit s b n o i v).mot = s.mot := iw_mot s _ _ _ _
@[simp] theorem iwBit_ax : (iwBit s b n o i v).ax = s.ax := iw_ax s _ _ _ _
@[simp] theorem iwBit_gear : (iwBit s b n o i v).gear = s.gear := iw_gear s _ _ _ _
@[simp] theorem iwBit_sup : (iwBit s b n o i v).sup = s.sup := iw_sup s _ _ _ _
@[simp] theorem iwBit_env : (iwBit s b n o i v).env = s.env := iw_env s _ _ _ _
@[simp] theorem iwBit_igrp : (iwBit s b n o i v).igrp = s.igrp := iw_igrp s _ _ _ _
@[simp] theorem iwBit_homing : (iwBit s b n o i v).homing = s.homing := iw_homing s _ _ _ _
@[simp] theorem iwBit_stp : (iwBit s b n o i v).stp = s.stp := iw_stp s _ _ _ _
@[simp] theorem iwBit_pwmA : (iwBit s b n o i v).pwmA = s.pwmA := iw_pwmA s _ _ _ _
@[simp] theorem iwBit_pwmG : (iwBit s b n o i v).pwmG = s.pwmG := iw_pwmG s _ _ _ _
@[simp] theorem iwBit_pinsLow : (iwBit s b n o i v).pinsLow = s.pinsLow := iw_pinsLow s _ _ _ _
@[simp] theorem iwBit_loop : (iwBit s b n o i v).loop = s.loop := iw_loop s _ _ _ _
@[simp] theorem iwBit_clu : (iwBit s b n o i v).clu = s.clu := iw_clu s _ _ _ _
@[simp] theorem iwBit_enc : (iwBit s b n o i v).enc = s.enc := iw_enc s _ _ _ _
@[simp] theorem iwBit_cmpPins : (iwBit s b n o i v).cmpPins = s.cmpPins := iw_cmpPins s _ _ _ _
@[simp] theorem iwBit_latPins : (iwBit s b n o i v).latPins = s.latPins := iw_latPins s _ _ _ _
@[simp] theorem iwBit_sdm : (iwBit s b n o i v).sdm = s.sdm := iw_sdm s _ _ _ _
@[simp] theorem iwBit_hk : (iwBit s b n o i v).hk = s.hk := iw_hk s _ _ _ _
@[simp] theorem iwBit_drv : (iwBit s b n o i v).drv = s.drv := iw_drv s _ _ _ _
@[simp] theorem iwBit_adm : (iwBit s b n o i v).adm = s.adm := iw_adm s _ _ _ _
@[simp] theorem iwBit_pwr : (iwBit s b n o i v).pwr = s.pwr := iw_pwr s _ _ _ _
@[simp] theorem iwBit_fio : (iwBit s b n o i v).fio = s.fio := iw_fio s _ _ _ _
@[simp] theorem iwBit_safe : (iwBit s b n o i v).safe = s.safe := iw_safe s _ _ _ _
@[simp] theorem iwBit_ring : (iwBit s b n o i v).ring = s.ring := iw_ring s _ _ _ _
@[simp] theorem iwBit_can : (iwBit s b n o i v).can = s.can := iw_can s _ _ _ _
@[simp] theorem iwBit_boot : (iwBit s b n o i v).boot = s.boot := iw_boot s _ _ _ _
@[simp] theorem iwBit_pins : (iwBit s b n o i v).pins = s.pins := iw_pins s _ _ _ _
@[simp] theorem iwBit_pending : (iwBit s b n o i v).pending = s.pending := iw_pending s _ _ _ _

end

section
variable (b : Blk) (o i k : Nat)

@[simp] theorem bwSat_now : (bwSat s b o i k).now = s.now := bw_now s _ _ _
@[simp] theorem bwSat_pts : (bwSat s b o i k).pts = s.pts := bw_pts s _ _ _
@[simp] theorem bwSat_attrs : (bwSat s b o i k).attrs = s.attrs := bw_attrs s _ _ _
@[simp] theorem bwSat_held : (bwSat s b o i k).held = s.held := bw_held s _ _ _
@[simp] theorem bwSat_snaps : (bwSat s b o i k).snaps = s.snaps := bw_snaps s _ _ _
@[simp] theorem bwSat_mem : (bwSat s b o i k).mem = s.mem := bw_mem s _ _ _
@[simp] theorem bwSat_bad : (bwSat s b o i k).bad = s.bad := bw_bad s _ _ _
@[simp] theorem bwSat_busData : (bwSat s b o i k).busData = s.busData := bw_busData s _ _ _
@[simp] theorem bwSat_queues : (bwSat s b o i k).queues = s.queues := bw_queues s _ _ _
@[simp] theorem bwSat_sides : (bwSat s b o i k).sides = s.sides := bw_sides s _ _ _
@[simp] theorem bwSat_stalls : (bwSat s b o i k).stalls = s.stalls := bw_stalls s _ _ _
@[simp] theorem bwSat_q0pend : (bwSat s b o i k).q0pend = s.q0pend := bw_q0pend s _ _ _
@[simp] theorem bwSat_helm : (bwSat s b o i k).helm = s.helm := bw_helm s _ _ _
@[simp] theorem bwSat_fresh : (bwSat s b o i k).fresh = s.fresh := bw_fresh s _ _ _
@[simp] theorem bwSat_mot : (bwSat s b o i k).mot = s.mot := bw_mot s _ _ _
@[simp] theorem bwSat_ax : (bwSat s b o i k).ax = s.ax := bw_ax s _ _ _
@[simp] theorem bwSat_gear : (bwSat s b o i k).gear = s.gear := bw_gear s _ _ _
@[simp] theorem bwSat_sup : (bwSat s b o i k).sup = s.sup := bw_sup s _ _ _
@[simp] theorem bwSat_env : (bwSat s b o i k).env = s.env := bw_env s _ _ _
@[simp] theorem bwSat_igrp : (bwSat s b o i k).igrp = s.igrp := bw_igrp s _ _ _
@[simp] theorem bwSat_homing : (bwSat s b o i k).homing = s.homing := bw_homing s _ _ _
@[simp] theorem bwSat_stp : (bwSat s b o i k).stp = s.stp := bw_stp s _ _ _
@[simp] theorem bwSat_pwmA : (bwSat s b o i k).pwmA = s.pwmA := bw_pwmA s _ _ _
@[simp] theorem bwSat_pwmG : (bwSat s b o i k).pwmG = s.pwmG := bw_pwmG s _ _ _
@[simp] theorem bwSat_pinsLow : (bwSat s b o i k).pinsLow = s.pinsLow := bw_pinsLow s _ _ _
@[simp] theorem bwSat_loop : (bwSat s b o i k).loop = s.loop := bw_loop s _ _ _
@[simp] theorem bwSat_clu : (bwSat s b o i k).clu = s.clu := bw_clu s _ _ _
@[simp] theorem bwSat_enc : (bwSat s b o i k).enc = s.enc := bw_enc s _ _ _
@[simp] theorem bwSat_cmpPins : (bwSat s b o i k).cmpPins = s.cmpPins := bw_cmpPins s _ _ _
@[simp] theorem bwSat_latPins : (bwSat s b o i k).latPins = s.latPins := bw_latPins s _ _ _
@[simp] theorem bwSat_sdm : (bwSat s b o i k).sdm = s.sdm := bw_sdm s _ _ _
@[simp] theorem bwSat_hk : (bwSat s b o i k).hk = s.hk := bw_hk s _ _ _
@[simp] theorem bwSat_drv : (bwSat s b o i k).drv = s.drv := bw_drv s _ _ _
@[simp] theorem bwSat_adm : (bwSat s b o i k).adm = s.adm := bw_adm s _ _ _
@[simp] theorem bwSat_pwr : (bwSat s b o i k).pwr = s.pwr := bw_pwr s _ _ _
@[simp] theorem bwSat_fio : (bwSat s b o i k).fio = s.fio := bw_fio s _ _ _
@[simp] theorem bwSat_safe : (bwSat s b o i k).safe = s.safe := bw_safe s _ _ _
@[simp] theorem bwSat_ring : (bwSat s b o i k).ring = s.ring := bw_ring s _ _ _
@[simp] theorem bwSat_can : (bwSat s b o i k).can = s.can := bw_can s _ _ _
@[simp] theorem bwSat_boot : (bwSat s b o i k).boot = s.boot := bw_boot s _ _ _
@[simp] theorem bwSat_pins : (bwSat s b o i k).pins = s.pins := bw_pins s _ _ _
@[simp] theorem bwSat_pending : (bwSat s b o i k).pending = s.pending := bw_pending s _ _ _

end

section
variable (b : Blk) (n o i k : Nat)

@[simp] theorem iwSat_now : (iwSat s b n o i k).now = s.now := iw_now s _ _ _ _
@[simp] theorem iwSat_pts : (iwSat s b n o i k).pts = s.pts := iw_pts s _ _ _ _
@[simp] theorem iwSat_attrs : (iwSat s b n o i k).attrs = s.attrs := iw_attrs s _ _ _ _
@[simp] theorem iwSat_held : (iwSat s b n o i k).held = s.held := iw_held s _ _ _ _
@[simp] theorem iwSat_snaps : (iwSat s b n o i k).snaps = s.snaps := iw_snaps s _ _ _ _
@[simp] theorem iwSat_mem : (iwSat s b n o i k).mem = s.mem := iw_mem s _ _ _ _
@[simp] theorem iwSat_bad : (iwSat s b n o i k).bad = s.bad := iw_bad s _ _ _ _
@[simp] theorem iwSat_busData : (iwSat s b n o i k).busData = s.busData := iw_busData s _ _ _ _
@[simp] theorem iwSat_queues : (iwSat s b n o i k).queues = s.queues := iw_queues s _ _ _ _
@[simp] theorem iwSat_sides : (iwSat s b n o i k).sides = s.sides := iw_sides s _ _ _ _
@[simp] theorem iwSat_stalls : (iwSat s b n o i k).stalls = s.stalls := iw_stalls s _ _ _ _
@[simp] theorem iwSat_q0pend : (iwSat s b n o i k).q0pend = s.q0pend := iw_q0pend s _ _ _ _
@[simp] theorem iwSat_helm : (iwSat s b n o i k).helm = s.helm := iw_helm s _ _ _ _
@[simp] theorem iwSat_fresh : (iwSat s b n o i k).fresh = s.fresh := iw_fresh s _ _ _ _
@[simp] theorem iwSat_mot : (iwSat s b n o i k).mot = s.mot := iw_mot s _ _ _ _
@[simp] theorem iwSat_ax : (iwSat s b n o i k).ax = s.ax := iw_ax s _ _ _ _
@[simp] theorem iwSat_gear : (iwSat s b n o i k).gear = s.gear := iw_gear s _ _ _ _
@[simp] theorem iwSat_sup : (iwSat s b n o i k).sup = s.sup := iw_sup s _ _ _ _
@[simp] theorem iwSat_env : (iwSat s b n o i k).env = s.env := iw_env s _ _ _ _
@[simp] theorem iwSat_igrp : (iwSat s b n o i k).igrp = s.igrp := iw_igrp s _ _ _ _
@[simp] theorem iwSat_homing : (iwSat s b n o i k).homing = s.homing := iw_homing s _ _ _ _
@[simp] theorem iwSat_stp : (iwSat s b n o i k).stp = s.stp := iw_stp s _ _ _ _
@[simp] theorem iwSat_pwmA : (iwSat s b n o i k).pwmA = s.pwmA := iw_pwmA s _ _ _ _
@[simp] theorem iwSat_pwmG : (iwSat s b n o i k).pwmG = s.pwmG := iw_pwmG s _ _ _ _
@[simp] theorem iwSat_pinsLow : (iwSat s b n o i k).pinsLow = s.pinsLow := iw_pinsLow s _ _ _ _
@[simp] theorem iwSat_loop : (iwSat s b n o i k).loop = s.loop := iw_loop s _ _ _ _
@[simp] theorem iwSat_clu : (iwSat s b n o i k).clu = s.clu := iw_clu s _ _ _ _
@[simp] theorem iwSat_enc : (iwSat s b n o i k).enc = s.enc := iw_enc s _ _ _ _
@[simp] theorem iwSat_cmpPins : (iwSat s b n o i k).cmpPins = s.cmpPins := iw_cmpPins s _ _ _ _
@[simp] theorem iwSat_latPins : (iwSat s b n o i k).latPins = s.latPins := iw_latPins s _ _ _ _
@[simp] theorem iwSat_sdm : (iwSat s b n o i k).sdm = s.sdm := iw_sdm s _ _ _ _
@[simp] theorem iwSat_hk : (iwSat s b n o i k).hk = s.hk := iw_hk s _ _ _ _
@[simp] theorem iwSat_drv : (iwSat s b n o i k).drv = s.drv := iw_drv s _ _ _ _
@[simp] theorem iwSat_adm : (iwSat s b n o i k).adm = s.adm := iw_adm s _ _ _ _
@[simp] theorem iwSat_pwr : (iwSat s b n o i k).pwr = s.pwr := iw_pwr s _ _ _ _
@[simp] theorem iwSat_fio : (iwSat s b n o i k).fio = s.fio := iw_fio s _ _ _ _
@[simp] theorem iwSat_safe : (iwSat s b n o i k).safe = s.safe := iw_safe s _ _ _ _
@[simp] theorem iwSat_ring : (iwSat s b n o i k).ring = s.ring := iw_ring s _ _ _ _
@[simp] theorem iwSat_can : (iwSat s b n o i k).can = s.can := iw_can s _ _ _ _
@[simp] theorem iwSat_boot : (iwSat s b n o i k).boot = s.boot := iw_boot s _ _ _ _
@[simp] theorem iwSat_pins : (iwSat s b n o i k).pins = s.pins := iw_pins s _ _ _ _
@[simp] theorem iwSat_pending : (iwSat s b n o i k).pending = s.pending := iw_pending s _ _ _ _

end

section
variable (i : Nat) (v : Word)

@[simp] theorem setPt_now : (setPt s i v).now = s.now := rfl
@[simp] theorem setPt_regs : (setPt s i v).regs = s.regs := rfl
@[simp] theorem setPt_attrs : (setPt s i v).attrs = s.attrs := rfl
@[simp] theorem setPt_held : (setPt s i v).held = s.held := rfl
@[simp] theorem setPt_snaps : (setPt s i v).snaps = s.snaps := rfl
@[simp] theorem setPt_mem : (setPt s i v).mem = s.mem := rfl
@[simp] theorem setPt_bad : (setPt s i v).bad = s.bad := rfl
@[simp] theorem setPt_busData : (setPt s i v).busData = s.busData := rfl
@[simp] theorem setPt_queues : (setPt s i v).queues = s.queues := rfl
@[simp] theorem setPt_sides : (setPt s i v).sides = s.sides := rfl
@[simp] theorem setPt_stalls : (setPt s i v).stalls = s.stalls := rfl
@[simp] theorem setPt_q0pend : (setPt s i v).q0pend = s.q0pend := rfl
@[simp] theorem setPt_helm : (setPt s i v).helm = s.helm := rfl
@[simp] theorem setPt_fresh : (setPt s i v).fresh = s.fresh := rfl
@[simp] theorem setPt_mot : (setPt s i v).mot = s.mot := rfl
@[simp] theorem setPt_ax : (setPt s i v).ax = s.ax := rfl
@[simp] theorem setPt_gear : (setPt s i v).gear = s.gear := rfl
@[simp] theorem setPt_sup : (setPt s i v).sup = s.sup := rfl
@[simp] theorem setPt_env : (setPt s i v).env = s.env := rfl
@[simp] theorem setPt_igrp : (setPt s i v).igrp = s.igrp := rfl
@[simp] theorem setPt_homing : (setPt s i v).homing = s.homing := rfl
@[simp] theorem setPt_stp : (setPt s i v).stp = s.stp := rfl
@[simp] theorem setPt_pwmA : (setPt s i v).pwmA = s.pwmA := rfl
@[simp] theorem setPt_pwmG : (setPt s i v).pwmG = s.pwmG := rfl
@[simp] theorem setPt_pinsLow : (setPt s i v).pinsLow = s.pinsLow := rfl
@[simp] theorem setPt_loop : (setPt s i v).loop = s.loop := rfl
@[simp] theorem setPt_clu : (setPt s i v).clu = s.clu := rfl
@[simp] theorem setPt_enc : (setPt s i v).enc = s.enc := rfl
@[simp] theorem setPt_cmpPins : (setPt s i v).cmpPins = s.cmpPins := rfl
@[simp] theorem setPt_latPins : (setPt s i v).latPins = s.latPins := rfl
@[simp] theorem setPt_sdm : (setPt s i v).sdm = s.sdm := rfl
@[simp] theorem setPt_hk : (setPt s i v).hk = s.hk := rfl
@[simp] theorem setPt_drv : (setPt s i v).drv = s.drv := rfl
@[simp] theorem setPt_adm : (setPt s i v).adm = s.adm := rfl
@[simp] theorem setPt_pwr : (setPt s i v).pwr = s.pwr := rfl
@[simp] theorem setPt_fio : (setPt s i v).fio = s.fio := rfl
@[simp] theorem setPt_safe : (setPt s i v).safe = s.safe := rfl
@[simp] theorem setPt_ring : (setPt s i v).ring = s.ring := rfl
@[simp] theorem setPt_can : (setPt s i v).can = s.can := rfl
@[simp] theorem setPt_boot : (setPt s i v).boot = s.boot := rfl
@[simp] theorem setPt_pins : (setPt s i v).pins = s.pins := rfl
@[simp] theorem setPt_pending : (setPt s i v).pending = s.pending := rfl

end

section
variable (i : Nat) (v : Word)

@[simp] theorem setAttr_now : (setAttr s i v).now = s.now := rfl
@[simp] theorem setAttr_regs : (setAttr s i v).regs = s.regs := rfl
@[simp] theorem setAttr_pts : (setAttr s i v).pts = s.pts := rfl
@[simp] theorem setAttr_held : (setAttr s i v).held = s.held := rfl
@[simp] theorem setAttr_snaps : (setAttr s i v).snaps = s.snaps := rfl
@[simp] theorem setAttr_mem : (setAttr s i v).mem = s.mem := rfl
@[simp] theorem setAttr_bad : (setAttr s i v).bad = s.bad := rfl
@[simp] theorem setAttr_busData : (setAttr s i v).busData = s.busData := rfl
@[simp] theorem setAttr_queues : (setAttr s i v).queues = s.queues := rfl
@[simp] theorem setAttr_sides : (setAttr s i v).sides = s.sides := rfl
@[simp] theorem setAttr_stalls : (setAttr s i v).stalls = s.stalls := rfl
@[simp] theorem setAttr_q0pend : (setAttr s i v).q0pend = s.q0pend := rfl
@[simp] theorem setAttr_helm : (setAttr s i v).helm = s.helm := rfl
@[simp] theorem setAttr_fresh : (setAttr s i v).fresh = s.fresh := rfl
@[simp] theorem setAttr_mot : (setAttr s i v).mot = s.mot := rfl
@[simp] theorem setAttr_ax : (setAttr s i v).ax = s.ax := rfl
@[simp] theorem setAttr_gear : (setAttr s i v).gear = s.gear := rfl
@[simp] theorem setAttr_sup : (setAttr s i v).sup = s.sup := rfl
@[simp] theorem setAttr_env : (setAttr s i v).env = s.env := rfl
@[simp] theorem setAttr_igrp : (setAttr s i v).igrp = s.igrp := rfl
@[simp] theorem setAttr_homing : (setAttr s i v).homing = s.homing := rfl
@[simp] theorem setAttr_stp : (setAttr s i v).stp = s.stp := rfl
@[simp] theorem setAttr_pwmA : (setAttr s i v).pwmA = s.pwmA := rfl
@[simp] theorem setAttr_pwmG : (setAttr s i v).pwmG = s.pwmG := rfl
@[simp] theorem setAttr_pinsLow : (setAttr s i v).pinsLow = s.pinsLow := rfl
@[simp] theorem setAttr_loop : (setAttr s i v).loop = s.loop := rfl
@[simp] theorem setAttr_clu : (setAttr s i v).clu = s.clu := rfl
@[simp] theorem setAttr_enc : (setAttr s i v).enc = s.enc := rfl
@[simp] theorem setAttr_cmpPins : (setAttr s i v).cmpPins = s.cmpPins := rfl
@[simp] theorem setAttr_latPins : (setAttr s i v).latPins = s.latPins := rfl
@[simp] theorem setAttr_sdm : (setAttr s i v).sdm = s.sdm := rfl
@[simp] theorem setAttr_hk : (setAttr s i v).hk = s.hk := rfl
@[simp] theorem setAttr_drv : (setAttr s i v).drv = s.drv := rfl
@[simp] theorem setAttr_adm : (setAttr s i v).adm = s.adm := rfl
@[simp] theorem setAttr_pwr : (setAttr s i v).pwr = s.pwr := rfl
@[simp] theorem setAttr_fio : (setAttr s i v).fio = s.fio := rfl
@[simp] theorem setAttr_safe : (setAttr s i v).safe = s.safe := rfl
@[simp] theorem setAttr_ring : (setAttr s i v).ring = s.ring := rfl
@[simp] theorem setAttr_can : (setAttr s i v).can = s.can := rfl
@[simp] theorem setAttr_boot : (setAttr s i v).boot = s.boot := rfl
@[simp] theorem setAttr_pins : (setAttr s i v).pins = s.pins := rfl
@[simp] theorem setAttr_pending : (setAttr s i v).pending = s.pending := rfl

end

section
variable (q : Fin 64) (x : Queue)

@[simp] theorem setQ_now : (setQ s q x).now = s.now := rfl
@[simp] theorem setQ_regs : (setQ s q x).regs = s.regs := rfl
@[simp] theorem setQ_pts : (setQ s q x).pts = s.pts := rfl
@[simp] theorem setQ_attrs : (setQ s q x).attrs = s.attrs := rfl
@[simp] theorem setQ_held : (setQ s q x).held = s.held := rfl
@[simp] theorem setQ_snaps : (setQ s q x).snaps = s.snaps := rfl
@[simp] theorem setQ_mem : (setQ s q x).mem = s.mem := rfl
@[simp] theorem setQ_bad : (setQ s q x).bad = s.bad := rfl
@[simp] theorem setQ_busData : (setQ s q x).busData = s.busData := rfl
@[simp] theorem setQ_sides : (setQ s q x).sides = s.sides := rfl
@[simp] theorem setQ_stalls : (setQ s q x).stalls = s.stalls := rfl
@[simp] theorem setQ_q0pend : (setQ s q x).q0pend = s.q0pend := rfl
@[simp] theorem setQ_helm : (setQ s q x).helm = s.helm := rfl
@[simp] theorem setQ_fresh : (setQ s q x).fresh = s.fresh := rfl
@[simp] theorem setQ_mot : (setQ s q x).mot = s.mot := rfl
@[simp] theorem setQ_ax : (setQ s q x).ax = s.ax := rfl
@[simp] theorem setQ_gear : (setQ s q x).gear = s.gear := rfl
@[simp] theorem setQ_sup : (setQ s q x).sup = s.sup := rfl
@[simp] theorem setQ_env : (setQ s q x).env = s.env := rfl
@[simp] theorem setQ_igrp : (setQ s q x).igrp = s.igrp := rfl
@[simp] theorem setQ_homing : (setQ s q x).homing = s.homing := rfl
@[simp] theorem setQ_stp : (setQ s q x).stp = s.stp := rfl
@[simp] theorem setQ_pwmA : (setQ s q x).pwmA = s.pwmA := rfl
@[simp] theorem setQ_pwmG : (setQ s q x).pwmG = s.pwmG := rfl
@[simp] theorem setQ_pinsLow : (setQ s q x).pinsLow = s.pinsLow := rfl
@[simp] theorem setQ_loop : (setQ s q x).loop = s.loop := rfl
@[simp] theorem setQ_clu : (setQ s q x).clu = s.clu := rfl
@[simp] theorem setQ_enc : (setQ s q x).enc = s.enc := rfl
@[simp] theorem setQ_cmpPins : (setQ s q x).cmpPins = s.cmpPins := rfl
@[simp] theorem setQ_latPins : (setQ s q x).latPins = s.latPins := rfl
@[simp] theorem setQ_sdm : (setQ s q x).sdm = s.sdm := rfl
@[simp] theorem setQ_hk : (setQ s q x).hk = s.hk := rfl
@[simp] theorem setQ_drv : (setQ s q x).drv = s.drv := rfl
@[simp] theorem setQ_adm : (setQ s q x).adm = s.adm := rfl
@[simp] theorem setQ_pwr : (setQ s q x).pwr = s.pwr := rfl
@[simp] theorem setQ_fio : (setQ s q x).fio = s.fio := rfl
@[simp] theorem setQ_safe : (setQ s q x).safe = s.safe := rfl
@[simp] theorem setQ_ring : (setQ s q x).ring = s.ring := rfl
@[simp] theorem setQ_can : (setQ s q x).can = s.can := rfl
@[simp] theorem setQ_boot : (setQ s q x).boot = s.boot := rfl
@[simp] theorem setQ_pins : (setQ s q x).pins = s.pins := rfl
@[simp] theorem setQ_pending : (setQ s q x).pending = s.pending := rfl

end

section
variable (t : Nat)

@[simp] theorem atTime_regs : (atTime t s).regs = s.regs := by unfold atTime; split <;> rfl
@[simp] theorem atTime_pts : (atTime t s).pts = s.pts := by unfold atTime; split <;> rfl
@[simp] theorem atTime_attrs : (atTime t s).attrs = s.attrs := by unfold atTime; split <;> rfl
@[simp] theorem atTime_held : (atTime t s).held = s.held := by unfold atTime; split <;> rfl
@[simp] theorem atTime_snaps : (atTime t s).snaps = s.snaps := by unfold atTime; split <;> rfl
@[simp] theorem atTime_mem : (atTime t s).mem = s.mem := by unfold atTime; split <;> rfl
@[simp] theorem atTime_bad : (atTime t s).bad = s.bad := by unfold atTime; split <;> rfl
@[simp] theorem atTime_busData : (atTime t s).busData = s.busData := by unfold atTime; split <;> rfl
@[simp] theorem atTime_queues : (atTime t s).queues = s.queues := by unfold atTime; split <;> rfl
@[simp] theorem atTime_sides : (atTime t s).sides = s.sides := by unfold atTime; split <;> rfl
@[simp] theorem atTime_stalls : (atTime t s).stalls = s.stalls := by unfold atTime; split <;> rfl
@[simp] theorem atTime_q0pend : (atTime t s).q0pend = s.q0pend := by unfold atTime; split <;> rfl
@[simp] theorem atTime_helm : (atTime t s).helm = s.helm := by unfold atTime; split <;> rfl
@[simp] theorem atTime_fresh : (atTime t s).fresh = s.fresh := by unfold atTime; split <;> rfl
@[simp] theorem atTime_mot : (atTime t s).mot = s.mot := by unfold atTime; split <;> rfl
@[simp] theorem atTime_ax : (atTime t s).ax = s.ax := by unfold atTime; split <;> rfl
@[simp] theorem atTime_gear : (atTime t s).gear = s.gear := by unfold atTime; split <;> rfl
@[simp] theorem atTime_sup : (atTime t s).sup = s.sup := by unfold atTime; split <;> rfl
@[simp] theorem atTime_env : (atTime t s).env = s.env := by unfold atTime; split <;> rfl
@[simp] theorem atTime_igrp : (atTime t s).igrp = s.igrp := by unfold atTime; split <;> rfl
@[simp] theorem atTime_homing : (atTime t s).homing = s.homing := by unfold atTime; split <;> rfl
@[simp] theorem atTime_stp : (atTime t s).stp = s.stp := by unfold atTime; split <;> rfl
@[simp] theorem atTime_pwmA : (atTime t s).pwmA = s.pwmA := by unfold atTime; split <;> rfl
@[simp] theorem atTime_pwmG : (atTime t s).pwmG = s.pwmG := by unfold atTime; split <;> rfl
@[simp] theorem atTime_pinsLow : (atTime t s).pinsLow = s.pinsLow := by unfold atTime; split <;> rfl
@[simp] theorem atTime_loop : (atTime t s).loop = s.loop := by unfold atTime; split <;> rfl
@[simp] theorem atTime_clu : (atTime t s).clu = s.clu := by unfold atTime; split <;> rfl
@[simp] theorem atTime_enc : (atTime t s).enc = s.enc := by unfold atTime; split <;> rfl
@[simp] theorem atTime_cmpPins : (atTime t s).cmpPins = s.cmpPins := by unfold atTime; split <;> rfl
@[simp] theorem atTime_latPins : (atTime t s).latPins = s.latPins := by unfold atTime; split <;> rfl
@[simp] theorem atTime_sdm : (atTime t s).sdm = s.sdm := by unfold atTime; split <;> rfl
@[simp] theorem atTime_hk : (atTime t s).hk = s.hk := by unfold atTime; split <;> rfl
@[simp] theorem atTime_drv : (atTime t s).drv = s.drv := by unfold atTime; split <;> rfl
@[simp] theorem atTime_adm : (atTime t s).adm = s.adm := by unfold atTime; split <;> rfl
@[simp] theorem atTime_pwr : (atTime t s).pwr = s.pwr := by unfold atTime; split <;> rfl
@[simp] theorem atTime_fio : (atTime t s).fio = s.fio := by unfold atTime; split <;> rfl
@[simp] theorem atTime_safe : (atTime t s).safe = s.safe := by unfold atTime; split <;> rfl
@[simp] theorem atTime_ring : (atTime t s).ring = s.ring := by unfold atTime; split <;> rfl
@[simp] theorem atTime_can : (atTime t s).can = s.can := by unfold atTime; split <;> rfl
@[simp] theorem atTime_boot : (atTime t s).boot = s.boot := by unfold atTime; split <;> rfl
@[simp] theorem atTime_pins : (atTime t s).pins = s.pins := by unfold atTime; split <;> rfl
@[simp] theorem atTime_pending : (atTime t s).pending = s.pending := by unfold atTime; split <;> rfl
/-- Ship time after a timed command: its instant, and never back. -/
@[simp] theorem atTime_now : (atTime t s).now = max s.now t := by unfold atTime; split <;> simp <;> omega

end

/-! ### Reads after writes -/

/-- A register after a write of it. -/
@[simp] theorem rd_wr_same (a : Nat) (v : Word) : rd (wr s a v) a = v := sget_sset_same _ a v
/-- A register after a write of another. -/
@[simp] theorem rd_wr_other {a b : Nat} (v : Word) (h : b ≠ a) : rd (wr s a v) b = rd s b := sget_sset_other _ v h
/-- A point after a write of it. -/
@[simp] theorem pt_setPt_same (i : Nat) (v : Word) : pt (setPt s i v) i = v := sget_sset_same _ i v
/-- A point after a write of another. -/
@[simp] theorem pt_setPt_other {i j : Nat} (v : Word) (h : j ≠ i) : pt (setPt s i v) j = pt s j := sget_sset_other _ v h
/-- An attribute word after a write of it. -/
@[simp] theorem attr_setAttr_same (i : Nat) (v : Word) : attr (setAttr s i v) i = v := sget_sset_same _ i v
/-- An attribute word after a write of another. -/
@[simp] theorem attr_setAttr_other {i j : Nat} (v : Word) (h : j ≠ i) : attr (setAttr s i v) j = attr s j := sget_sset_other _ v h
/-- A byte after a write of another. -/
@[simp] theorem readByte_writeByte_other {a b : Nat} (v : Byte) (h : b ≠ a) : readByte (writeByte s a v) b = readByte s b := by
  unfold readByte writeByte
  split
  · rfl
  · split
    · rfl
    · exact sget_sset_other _ v h

/-- A byte outside the ROM after a write of it. -/
theorem readByte_writeByte_same {a : Nat} (ha : 0x80000 ≤ a) (v : Byte) : readByte (writeByte s a v) a = v := by
  have : ¬ a < 0x80000 := by omega
  unfold readByte writeByte
  rw [if_neg this, if_neg this]
  exact sget_sset_same _ a v

end Sys2Proof.Machine
end

