-- ==== Sys2Proof/Laws/Sextant.lean ====
section
/-!
SUPPORT. What a Sextant word does to the registers and memories of its cluster, slot by slot.
-/
namespace Sys2Proof.Machine

/-! ### Lane registers and accumulators -/

theorem overLanes_eq (f : Fin 4 → Cluster → Cluster) (c : Cluster) : overLanes f c = f 3 (f 2 (f 1 (f 0 c))) := rfl

theorem putXr_x (c : Cluster) (rrb : Nat) (n r : Fin 32) (l m : Fin 4) (v : Word) :
    (c.putXr rrb n l v).lanes[m].x[r] = if l = m ∧ physX rrb n = r then v else c.lanes[m].x[r] := by
  unfold Cluster.putXr
  by_cases h : l = m
  · subst h
    simp only [Fin.getElem_fin, Vector.getElem_set_self, true_and, Vector.getElem_set, Fin.val_inj]
  · have : l.val ≠ m.val := fun e => h (Fin.ext e)
    simp only [Fin.getElem_fin, Vector.getElem_set_ne _ _ this, h, false_and, if_false]

theorem putXr_a (c : Cluster) (rrb : Nat) (n : Fin 32) (l m : Fin 4) (v : Word) : (c.putXr rrb n l v).lanes[m].a = c.lanes[m].a := by
  unfold Cluster.putXr
  by_cases h : l = m
  · subst h; simp only [Fin.getElem_fin, Vector.getElem_set_self]
  · have : l.val ≠ m.val := fun e => h (Fin.ext e)
    simp only [Fin.getElem_fin, Vector.getElem_set_ne _ _ this]

theorem putAcc_a (c : Cluster) (n r : Nat) (l m : Fin 4) (v : BitVec 72) :
    (c.putAcc n l v).accOf r m = if l = m ∧ n % 4 = r % 4 then v else c.accOf r m := by
  unfold Cluster.putAcc Cluster.accOf
  by_cases h : l = m
  · subst h
    simp only [Fin.getElem_fin, Vector.getElem_set_self, true_and, Vector.getElem_set, Fin.ofNat_eq_cast, Fin.val_natCast]
  · have : l.val ≠ m.val := fun e => h (Fin.ext e)
    simp only [Fin.getElem_fin, Vector.getElem_set_ne _ _ this, h, false_and, if_false]

theorem putAcc_x (c : Cluster) (n : Nat) (l m : Fin 4) (v : BitVec 72) : (c.putAcc n l v).lanes[m].x = c.lanes[m].x := by
  unfold Cluster.putAcc
  by_cases h : l = m
  · subst h; simp only [Fin.getElem_fin, Vector.getElem_set_self]
  · have : l.val ≠ m.val := fun e => h (Fin.ext e)
    simp only [Fin.getElem_fin, Vector.getElem_set_ne _ _ this]

@[simp] theorem sticky_lanes (i : Nat) (h : Bool) (c : Cluster) : (sticky i h c).lanes = c.lanes := by unfold sticky; split <;> rfl

@[simp] theorem sticky_accOf (i : Nat) (h : Bool) (c : Cluster) (n : Nat) (l : Fin 4) : (sticky i h c).accOf n l = c.accOf n l := by
  unfold Cluster.accOf; rw [sticky_lanes]

/-! ### The arithmetic slot -/

/-- The mapping of R274 is one to one. -/
theorem physX_inj (rrb : Nat) {n m : Fin 32} (h : physX rrb n = physX rrb m) : n = m := by
  unfold physX at h
  split at h <;> split at h <;> simp only [Fin.ext_iff, Fin.ofNat_eq_cast, Fin.val_natCast] at h ⊢ <;> omega

/-- A fold that puts one lane register, lane by lane, where a lane may write. -/
theorem overLanes_putXr (c : Cluster) (rrb : Nat) (d r : Fin 32) (l : Fin 4) (on : Fin 4 → Bool) (v : Fin 4 → Word × Bool) :
    (overLanes (fun l c => if on l then sticky 9 (v l).2 (c.putXr rrb d l (v l).1) else c) c).lanes[l].x[r] =
      if on l = true ∧ physX rrb d = r then (v l).1 else c.lanes[l].x[r] := by
  have one : ∀ (m : Fin 4) (c : Cluster), (if on m then sticky 9 (v m).2 (c.putXr rrb d m (v m).1) else c).lanes[l].x[r] =
      if on m = true ∧ m = l ∧ physX rrb d = r then (v m).1 else c.lanes[l].x[r] := by
    intro m c
    by_cases h : on m
    · rw [if_pos h, sticky_lanes, putXr_x]; simp only [h, true_and]
    · rw [if_neg h, if_neg (fun e => h e.1)]
  rw [overLanes_eq, one, one, one, one]
  fin_cases l <;> simp

/-- A fold that puts one accumulator, lane by lane, where a lane may write. -/
theorem overLanes_putAcc (c : Cluster) (d r : Nat) (l : Fin 4) (on : Fin 4 → Bool) (v : Fin 4 → BitVec 72 × Bool) :
    (overLanes (fun l c => if on l then sticky 8 (v l).2 (c.putAcc d l (v l).1) else c) c).accOf r l =
      if on l = true ∧ d % 4 = r % 4 then (v l).1 else c.accOf r l := by
  have one : ∀ (m : Fin 4) (c : Cluster), (if on m then sticky 8 (v m).2 (c.putAcc d m (v m).1) else c).accOf r l =
      if on m = true ∧ m = l ∧ d % 4 = r % 4 then (v m).1 else c.accOf r l := by
    intro m c
    by_cases h : on m
    · rw [if_pos h, sticky_accOf, putAcc_a]; simp only [h, true_and]
    · rw [if_neg h, if_neg (fun e => h e.1)]
  rw [overLanes_eq, one, one, one, one]
  fin_cases l <;> simp

theorem laneOp_x {k : LaneK} (hk : writesLane k = true) (fmt : Nat) (msk : Bool) (d a b r : Fin 32) (aux k0 : Nat) (c0 c : Cluster) (l : Fin 4) :
    (laneOp k fmt msk d a b aux k0 c0 c).lanes[l].x[r] =
      if (!msk || c0.lf l) = true ∧ physX c0.rrb d = r then (laneVal k fmt c0 a b aux k0 l).1 else c.lanes[l].x[r] := by
  have h : (laneOp k fmt msk d a b aux k0 c0 c) = overLanes (fun l c => if (!msk || c0.lf l) then
      sticky 9 (laneVal k fmt c0 a b aux k0 l).2 (c.putXr c0.rrb d l (laneVal k fmt c0 a b aux k0 l).1) else c) c := by
    cases k <;> first | rfl | (exact absurd hk (by decide))
  rw [h, overLanes_putXr]

theorem laneOp_acc {k : LaneK} (hk : k.toAcc = true) (fmt : Nat) (msk : Bool) (d a b : Fin 32) (r aux k0 : Nat) (c0 c : Cluster) (l : Fin 4) :
    (laneOp k fmt msk d a b aux k0 c0 c).accOf r l =
      if (!msk || c0.lf l) = true ∧ d.val % 4 = r % 4 then (laneAcc k fmt c0 d a b aux l).1 else c.accOf r l := by
  have h : (laneOp k fmt msk d a b aux k0 c0 c) = overLanes (fun l c => if (!msk || c0.lf l) then
      sticky 8 (laneAcc k fmt c0 d a b aux l).2 (c.putAcc d.val l (laneAcc k fmt c0 d a b aux l).1) else c) c := by
    cases k <;> first | rfl | (exact absurd hk (by decide))
  rw [h, overLanes_putAcc]

theorem normOp_acc (fmt : Nat) (msk : Bool) (d a b : Fin 32) (r aux k0 : Nat) (c0 c : Cluster) (l : Fin 4) :
    (laneOp .norm fmt msk d a b aux k0 c0 c).accOf r l =
      if (!msk || c0.lf l) = true ∧ a.val % 4 = r % 4 then (laneAcc .norm fmt c0 d a b aux l).1 else c.accOf r l := by
  have h : (laneOp .norm fmt msk d a b aux k0 c0 c) = overLanes (fun l c => if (!msk || c0.lf l) then
      sticky 8 (laneAcc .norm fmt c0 d a b aux l).2 (c.putAcc a.val l (laneAcc .norm fmt c0 d a b aux l).1) else c) c := rfl
  rw [h, overLanes_putAcc]

theorem shaOp_acc (fmt : Nat) (msk : Bool) (d cnt r : Nat) (c0 c : Cluster) (l : Fin 4) :
    (shaOp fmt msk d cnt c0 c).accOf r l =
      if (!msk || c0.lf l) = true ∧ d % 4 = r % 4 then (accShift fmt (c0.accOf d l) (sext 7 cnt) (sext 7 cnt) (sext 7 cnt)).1 else c.accOf r l :=
  overLanes_putAcc c d r l (fun l => !msk || c0.lf l) (fun l => accShift fmt (c0.accOf d l) (sext 7 cnt) (sext 7 cnt) (sext 7 cnt))

theorem sr_putSr (c : Cluster) (n m : Nat) (v : Word) : (c.putSr n v).sr m = if n % 16 = m % 16 then v else c.sr m := by
  unfold Cluster.putSr Cluster.sr
  simp only [Fin.getElem_fin, Vector.getElem_set, Fin.ofNat_eq_cast, Fin.val_natCast]

/-! ### What the move slots leave -/

section Moves
variable (m : MemOp) (mem : List (Nat × Word)) (c0 c : Cluster)

theorem overLanes_load (rrb : Nat) (n r : Fin 32) (v : Fin 4 → Word) (l : Fin 4) :
    (overLanes (fun l c => c.putXr rrb n l (v l)) c).lanes[l].x[r] = if physX rrb n = r then v l else c.lanes[l].x[r] := by
  have h := overLanes_putXr c rrb n r l (fun _ => true) (fun l => (v l, false))
  simpa [sticky] using h

theorem overLanes_load_a (rrb : Nat) (n : Fin 32) (v : Fin 4 → Word) (r : Nat) (l : Fin 4) :
    (overLanes (fun l c => c.putXr rrb n l (v l)) c).accOf r l = c.accOf r l := by
  unfold Cluster.accOf
  rw [overLanes_eq, putXr_a, putXr_a, putXr_a, putXr_a]

theorem memRun_x_keep {n : Fin 32} (h : SxReg.x n.val ∉ m.loads) (l : Fin 4) :
    (memRun m mem c0 c).1.lanes[l].x[physX c0.rrb n] = c.lanes[l].x[physX c0.rrb n] := by
  unfold memRun
  unfold MemOp.loads at h
  cases hk : m.k <;> simp only [hk] at h ⊢
  case ldb | ldv =>
    rw [overLanes_load, if_neg]
    intro e
    rw [physX_inj _ e] at h
    exact h (List.mem_singleton.mpr rfl)
  case stav => rw [overLanes_eq, sticky_lanes, sticky_lanes, sticky_lanes, sticky_lanes]
  case lds => rfl

theorem memRun_acc (r : Nat) (l : Fin 4) : (memRun m mem c0 c).1.accOf r l = c.accOf r l := by
  unfold memRun
  cases m.k <;> dsimp only
  case ldb | ldv => rw [overLanes_load_a]
  case stav => rw [overLanes_eq, sticky_accOf, sticky_accOf, sticky_accOf, sticky_accOf]
  case lds => rfl

@[simp] theorem putXr_s (rrb : Nat) (n : Fin 32) (l : Fin 4) (v : Word) : (c.putXr rrb n l v).s = c.s := rfl
@[simp] theorem sticky_s (i : Nat) (h : Bool) : (sticky i h c).s = c.s := by unfold sticky; split <;> rfl

theorem memRun_sr_keep {n : Nat} (h : SxReg.s n ∉ m.loads) (hn : n < 16) (wf : m.wf = true) : (memRun m mem c0 c).1.sr n = c.sr n := by
  unfold memRun
  unfold MemOp.loads at h
  cases hk : m.k <;> simp only [hk] at h ⊢
  case lds =>
    rw [sr_putSr, if_neg]
    intro e
    simp only [MemOp.wf, hk, Bool.and_eq_true, decide_eq_true_eq] at wf
    rw [Nat.mod_eq_of_lt wf.1.1, Nat.mod_eq_of_lt hn] at e
    exact h (by rw [e]; exact List.mem_singleton.mpr rfl)
  all_goals simp only [Cluster.sr, overLanes_eq, putXr_s, sticky_s]

end Moves

section Slots
variable (c0 c : Cluster) (x : XSlot) (y : YSlot)

@[simp] theorem postMod_lanes (o : Option Nat) : (postMod c0 o c).lanes = c.lanes := by cases o <;> rfl
@[simp] theorem postMod_s (o : Option Nat) : (postMod c0 o c).s = c.s := by cases o <;> rfl
@[simp] theorem postMod_st (o : Option Nat) : (postMod c0 o c).st = c.st := by cases o <;> rfl
@[simp] theorem postMod_accOf (o : Option Nat) (r : Nat) (l : Fin 4) : (postMod c0 o c).accOf r l = c.accOf r l := by
  unfold Cluster.accOf; rw [postMod_lanes]

theorem xMove_x_keep {n : Fin 32} (h : SxReg.x n.val ∉ x.writes) (l : Fin 4) :
    (xMove x c0 c).1.lanes[l].x[physX c0.rrb n] = c.lanes[l].x[physX c0.rrb n] := by
  cases x with
  | none => rfl
  | mem m => simp only [xMove, postMod_lanes]; exact memRun_x_keep m c0.x c0 c h l

theorem xMove_acc (r : Nat) (l : Fin 4) : (xMove x c0 c).1.accOf r l = c.accOf r l := by
  cases x with
  | none => rfl
  | mem m => simp only [xMove, postMod_accOf]; exact memRun_acc m c0.x c0 c r l

theorem xMove_sr_keep {n : Nat} (h : SxReg.s n ∉ x.writes) (hn : n < 16) (wf : x.wf = true) : (xMove x c0 c).1.sr n = c.sr n := by
  cases x with
  | none => rfl
  | mem m => simp only [xMove, Cluster.sr, postMod_s]; exact memRun_sr_keep m c0.x c0 c h hn wf

theorem yMove_x_keep {n : Fin 32} (h : SxReg.x n.val ∉ y.writes) (l : Fin 4) :
    (yMove y c0 c).1.lanes[l].x[physX c0.rrb n] = c.lanes[l].x[physX c0.rrb n] := by
  cases y with
  | mem m => simp only [yMove, postMod_lanes]; exact memRun_x_keep m c0.y c0 c h l
  | ext d a st pi sb low => unfold yMove; dsimp only; split <;> rfl
  | _ => rfl

theorem yMove_acc (r : Nat) (l : Fin 4) : (yMove y c0 c).1.accOf r l = c.accOf r l := by
  cases y with
  | mem m => simp only [yMove, postMod_accOf]; exact memRun_acc m c0.y c0 c r l
  | ext d a st pi sb low => unfold yMove; dsimp only; split <;> rfl
  | _ => rfl

theorem yMove_sr_keep {n : Nat} (h : SxReg.s n ∉ y.writes) (hn : n < 16) (wf : y.wf = true) : (yMove y c0 c).1.sr n = c.sr n := by
  cases y with
  | mem m =>
    simp only [yMove, Cluster.sr, postMod_s]
    simp only [YSlot.wf, Bool.and_eq_true] at wf
    exact memRun_sr_keep m c0.y c0 c h hn wf.1
  | ext d a st pi sb low =>
    unfold yMove
    dsimp only
    split
    · rw [sr_putSr, if_neg]
      rename_i hp
      rw [Nat.mod_eq_of_lt a.isLt, Nat.mod_eq_of_lt hn]
      intro e
      subst e
      apply h
      unfold YSlot.writes
      simp [hp]
    · rfl
  | _ => rfl

/-! ### The sequencer leaves the registers of the other parts -/

theorem extOp_lanes (t : Nat) : (extOp y t c0 c).lanes = c.lanes := by unfold extOp; split <;> rfl
theorem extOp_s (t : Nat) : (extOp y t c0 c).s = c.s := by unfold extOp; split <;> rfl
theorem extOp_st (t : Nat) : (extOp y t c0 c).st = c.st := by unfold extOp; split <;> rfl

theorem shut_lanes (k : Fin 2) : (c.shut k).lanes = c.lanes := by unfold Cluster.shut; dsimp only; split <;> rfl
theorem shut_s (k : Fin 2) : (c.shut k).s = c.s := by unfold Cluster.shut; dsimp only; split <;> rfl

theorem finish_lanes (j : Bool) : (c.finish j).lanes = c.lanes := by
  unfold Cluster.finish Cluster.iterate
  simp only [apply_ite Cluster.lanes, shut_lanes, ite_self]

theorem finish_s (j : Bool) : (c.finish j).s = c.s := by
  unfold Cluster.finish Cluster.iterate
  simp only [apply_ite Cluster.s, shut_s, ite_self]

theorem jump_lanes (a : Nat) : (c.jump a).lanes = c.lanes := by
  unfold Cluster.jump; dsimp only; split
  · rw [shut_lanes]
  · split
    · rw [shut_lanes]
    · rfl

theorem jump_s (a : Nat) : (c.jump a).s = c.s := by
  unfold Cluster.jump; dsimp only; split
  · rw [shut_s]
  · split
    · rw [shut_s]
    · rfl

theorem loopOp_lanes (rot : Bool) (n len : Nat) : (loopOp rot n len c).lanes = c.lanes := by
  unfold loopOp; split
  · rfl
  · split <;> rfl

theorem loopOp_s (rot : Bool) (n len : Nat) : (loopOp rot n len c).s = c.s := by
  unfold loopOp; split
  · rfl
  · split <;> rfl

theorem sequence_lanes (j : Bool) : (sequence y j c0 c).lanes = c.lanes := by
  unfold sequence
  split
  · exact jump_lanes ..
  · exact loopOp_lanes ..
  · rfl
  · exact shut_lanes ..
  · exact finish_lanes ..

theorem sequence_s (j : Bool) : (sequence y j c0 c).s = c.s := by
  unfold sequence
  split
  · exact jump_s ..
  · exact loopOp_s ..
  · rfl
  · exact shut_s ..
  · exact finish_s ..

theorem sticky_bit (k i : Nat) (h : Bool) (hi : i < 32) (hk : i ≠ k) : bit (sticky k h c).st i = bit c.st i := by
  unfold sticky
  split
  · exact (bit_setBit _ _ _ _ hi).trans (if_neg hk)
  · rfl

theorem memRun_bit (m : MemOp) (mem : List (Nat × Word)) {i : Nat} (hi : i < 32) (h9 : i ≠ 9) : bit (memRun m mem c0 c).1.st i = bit c.st i := by
  unfold memRun
  cases m.k <;> dsimp only
  case ldb | ldv => rfl
  case lds => rfl
  case stav => simp only [overLanes_eq, sticky_bit _ 9 i _ hi h9]

theorem xMove_bit {i : Nat} (hi : i < 32) (h9 : i ≠ 9) : bit (xMove x c0 c).1.st i = bit c.st i := by
  cases x with
  | none => rfl
  | mem m => simp only [xMove, postMod_st]; exact memRun_bit c0 c m c0.x hi h9

theorem yMove_bit {i : Nat} (hi : i < 32) (h9 : i ≠ 9) : bit (yMove y c0 c).1.st i = bit c.st i := by
  cases y with
  | mem m => simp only [yMove, postMod_st]; exact memRun_bit c0 c m c0.y hi h9
  | ext d a st pi sb low => unfold yMove; dsimp only; split <;> rfl
  | _ => rfl

theorem shut_bit (k : Fin 2) {i : Nat} (hi : i < 32) (h : i ≠ 10 ∧ i ≠ 11) : bit (c.shut k).st i = bit c.st i := by
  unfold Cluster.shut
  dsimp only
  split
  · dsimp only; rw [bit_setBit _ _ _ _ hi, if_neg h.1, bit_setBit _ _ _ _ hi, if_neg h.2]
  · dsimp only; rw [bit_setBit _ _ _ _ hi, if_neg h.2]

theorem finish_bit (j : Bool) {i : Nat} (hi : i < 32) (h : i ≠ 10 ∧ i ≠ 11) : bit (c.finish j).st i = bit c.st i := by
  unfold Cluster.finish Cluster.iterate
  simp only [apply_ite Cluster.st, apply_ite (fun w => bit w i), shut_bit _ _ hi h, ite_self]

theorem sequence_bit (j : Bool) {i : Nat} (hi : i < 32) (h : i ≠ 10 ∧ i ≠ 11) : bit (sequence y j c0 c).st i = bit c.st i := by
  unfold sequence
  split
  · unfold Cluster.jump
    dsimp only
    split
    · exact shut_bit c _ hi h
    · split
      · exact shut_bit c _ hi h
      · rfl
  · unfold loopOp
    split
    · rfl
    · split
      · rename_i k _
        have : i ≠ 10 + k.val := by have := k.isLt; omega
        exact (bit_setBit _ _ _ _ hi).trans (if_neg this)
      · rfl
  · rfl
  · exact shut_bit c _ hi h
  · exact finish_bit c j hi h

/-! ### Pointers -/

/-- Pointers, their modifiers and QSB, in one tuple. -/
def Cluster.ptrs (c : Cluster) : Vector (BitVec 16) 8 × Vector (BitVec 16) 8 × Vector (BitVec 16) 8 × Vector (BitVec 16) 8 × Nat := (c.p, c.m, c.b, c.l, c.qsb)

theorem sticky_ptrs (i : Nat) (h : Bool) : (sticky i h c).ptrs = c.ptrs := by unfold sticky; split <;> rfl

theorem memRun_ptrs (m : MemOp) (mem : List (Nat × Word)) : (memRun m mem c0 c).1.ptrs = c.ptrs := by
  unfold memRun
  dsimp only
  split
  any_goals rfl
  dsimp only
  simp only [overLanes_eq, sticky_ptrs]

theorem memRun_p (m : MemOp) (mem : List (Nat × Word)) :
    (memRun m mem c0 c).1.p = c.p ∧ (memRun m mem c0 c).1.m = c.m ∧ (memRun m mem c0 c).1.b = c.b ∧ (memRun m mem c0 c).1.l = c.l ∧
      (memRun m mem c0 c).1.qsb = c.qsb := by
  have h := memRun_ptrs c0 c m mem
  unfold Cluster.ptrs at h
  simpa only [Prod.mk.injEq] using h

/-- The pointer after a post-modify. -/
theorem postMod_p (o : Option Nat) (j : Fin 8) (ho : ∀ n, o = some n → n < 8) :
    (postMod c0 o c).p[j] = if o = some j.val then stepPtr c.p[j] c0.m[j] c0.b[j] c0.l[j] else c.p[j] := by
  cases o with
  | none => rfl
  | some n =>
    have hn := ho n rfl
    have e : (Fin.ofNat 8 n : Fin 8).val = n := Nat.mod_eq_of_lt hn
    unfold postMod
    simp only [Fin.getElem_fin, Vector.getElem_set, e, Option.some.injEq]
    split
    · rename_i h; subst h; rfl
    · rfl

theorem postMod_rest (o : Option Nat) : (postMod c0 o c).m = c.m ∧ (postMod c0 o c).b = c.b ∧ (postMod c0 o c).l = c.l ∧ (postMod c0 o c).qsb = c.qsb := by
  cases o <;> exact ⟨rfl, rfl, rfl, rfl⟩

theorem post_lt (m : MemOp) : ∀ n, m.post = some n → n < 8 := by
  intro n h; unfold MemOp.post at h; split at h
  · cases h; exact m.p.isLt
  · cases h

theorem xMove_p (j : Fin 8) :
    (xMove x c0 c).1.p[j] = if x.post = some j.val then stepPtr c.p[j] c0.m[j] c0.b[j] c0.l[j] else c.p[j] := by
  cases x with
  | none => rfl
  | mem m =>
    unfold xMove
    rw [postMod_p _ _ _ _ (post_lt m)]
    simp only [(memRun_p c0 c m c0.x).1, XSlot.post]
    rfl

/-- The Y slot on a pointer that LDAG does not load. -/
theorem yMove_p (j : Fin 8) (h : SxReg.sp j.val ∉ y.writes) :
    (yMove y c0 c).1.p[j] = if y.post = some j.val then stepPtr c.p[j] c0.m[j] c0.b[j] c0.l[j] else c.p[j] := by
  cases y with
  | mem m =>
    unfold yMove
    rw [postMod_p _ _ _ _ (post_lt m)]
    simp only [(memRun_p c0 c m c0.y).1, YSlot.post]
    rfl
  | ext d a st pi sb low => unfold yMove; dsimp only; split <;> rfl
  | ldag n a =>
    have : n.val ≠ j.val := fun e => h (by simp only [YSlot.writes]; rw [e]; exact List.mem_cons_self ..)
    unfold yMove YSlot.post
    simp only [Fin.getElem_fin, Vector.getElem_set_ne _ _ this]
    rfl
  | _ => rfl

theorem xMove_rest : (xMove x c0 c).1.m = c.m ∧ (xMove x c0 c).1.b = c.b ∧ (xMove x c0 c).1.l = c.l ∧ (xMove x c0 c).1.qsb = c.qsb := by
  cases x with
  | none => exact ⟨rfl, rfl, rfl, rfl⟩
  | mem m =>
    unfold xMove
    have h := memRun_p c0 c m c0.x
    have g := postMod_rest c0 { (memRun m c0.x c0 c).1 with x := (memRun m c0.x c0 c).2.1 } m.post
    exact ⟨g.1.trans h.2.1, g.2.1.trans h.2.2.1, g.2.2.1.trans h.2.2.2.1, g.2.2.2.trans h.2.2.2.2⟩

theorem yMove_rest (h : ∀ n a, y ≠ .ldag n a) : (yMove y c0 c).1.m = c.m ∧ (yMove y c0 c).1.b = c.b ∧ (yMove y c0 c).1.l = c.l ∧ (yMove y c0 c).1.qsb = c.qsb := by
  cases y with
  | mem m =>
    unfold yMove
    have h := memRun_p c0 c m c0.y
    have g := postMod_rest c0 { (memRun m c0.y c0 c).1 with y := (memRun m c0.y c0 c).2.1 } m.post
    exact ⟨g.1.trans h.2.1, g.2.1.trans h.2.2.1, g.2.2.1.trans h.2.2.2.1, g.2.2.2.trans h.2.2.2.2⟩
  | ext d a st pi sb low => unfold yMove; dsimp only; split <;> exact ⟨rfl, rfl, rfl, rfl⟩
  | ldag n a => exact absurd rfl (h n a)
  | _ => exact ⟨rfl, rfl, rfl, rfl⟩

/-- The sequencer and the external port leave pointers, their modifiers and QSB. -/
theorem shut_p (k : Fin 2) : (c.shut k).p = c.p ∧ (c.shut k).m = c.m ∧ (c.shut k).b = c.b ∧ (c.shut k).l = c.l ∧ (c.shut k).qsb = c.qsb := by
  unfold Cluster.shut; dsimp only; split <;> exact ⟨rfl, rfl, rfl, rfl, rfl⟩

theorem sequence_p (j : Bool) : (sequence y j c0 c).p = c.p ∧ (sequence y j c0 c).m = c.m ∧ (sequence y j c0 c).b = c.b ∧
    (sequence y j c0 c).l = c.l ∧ (sequence y j c0 c).qsb = c.qsb := by
  unfold sequence
  split
  · unfold Cluster.jump
    dsimp only
    split
    · exact shut_p c _
    · split
      · exact shut_p c _
      · exact ⟨rfl, rfl, rfl, rfl, rfl⟩
  · unfold loopOp
    split
    · exact ⟨rfl, rfl, rfl, rfl, rfl⟩
    · split <;> exact ⟨rfl, rfl, rfl, rfl, rfl⟩
  · exact ⟨rfl, rfl, rfl, rfl, rfl⟩
  · exact shut_p c _
  · unfold Cluster.finish Cluster.iterate
    have s := fun k c => shut_p c k
    refine ⟨?_, ?_, ?_, ?_, ?_⟩
    · simp only [apply_ite Cluster.p, (s _ _).1, ite_self]
    · simp only [apply_ite Cluster.m, (s _ _).2.1, ite_self]
    · simp only [apply_ite Cluster.b, (s _ _).2.2.1, ite_self]
    · simp only [apply_ite Cluster.l, (s _ _).2.2.2.1, ite_self]
    · simp only [apply_ite Cluster.qsb, (s _ _).2.2.2.2, ite_self]

theorem extOp_p (t : Nat) : (extOp y t c0 c).p = c.p ∧ (extOp y t c0 c).m = c.m ∧ (extOp y t c0 c).b = c.b ∧ (extOp y t c0 c).l = c.l ∧
    (extOp y t c0 c).qsb = c.qsb := by
  unfold extOp; split <;> exact ⟨rfl, rfl, rfl, rfl, rfl⟩

end Slots

/-! ### The word -/

section Word
variable (g : Fin 4) (raw : DWord) {w : SxWord} (s : State)

/-- What the clash rule of R317 gives of a defined word: the arithmetic slot writes no register that a move slot writes. -/
theorem wf_disjoint (hw : w.wf = true) {r : SxReg} (h : r ∈ w.ar.writes) : r ∉ w.xs.writes ∧ r ∉ w.ys.writes := by
  unfold SxWord.wf SxWord.clash at hw
  simp only [Bool.and_eq_true, Bool.not_eq_true', Bool.or_eq_false_iff, List.any_eq_false, Bool.or_eq_true, not_or,
    List.contains_iff_mem] at hw
  exact hw.2.1.1 r h

theorem word_x (hw : w.wf = true) {n : Fin 32} (h : SxReg.x n.val ∈ w.ar.writes) (l : Fin 4) :
    (wordCluster g raw w s).lanes[l].x[physX s.clu[g].rrb n] = (arithOp w.ar s.fresh s.clu[g] s.clu[g]).lanes[l].x[physX s.clu[g].rrb n] := by
  unfold wordCluster
  simp only [sequence_lanes, extOp_lanes]
  rw [yMove_x_keep _ _ _ (wf_disjoint hw h).2, xMove_x_keep _ _ _ (wf_disjoint hw h).1]

theorem word_acc (r : Nat) (l : Fin 4) : (wordCluster g raw w s).accOf r l = (arithOp w.ar s.fresh s.clu[g] s.clu[g]).accOf r l := by
  have h : (wordCluster g raw w s).lanes = (yMove w.ys s.clu[g] (xMove w.xs s.clu[g] (arithOp w.ar s.fresh s.clu[g] s.clu[g])).1).1.lanes := by
    unfold wordCluster
    simp only [sequence_lanes, extOp_lanes]
  unfold Cluster.accOf
  rw [h]
  exact (yMove_acc ..).trans (xMove_acc ..)

theorem wf_slots (hw : w.wf = true) : w.ar.wf = true ∧ w.xs.wf = true ∧ w.ys.wf = true := by
  unfold SxWord.wf at hw
  simp only [Bool.and_eq_true] at hw
  exact ⟨hw.1.1.1, hw.1.1.2, hw.1.2⟩

theorem word_sr (hw : w.wf = true) {n : Nat} (hn : n < 16) (h : SxReg.s n ∈ w.ar.writes) :
    (wordCluster g raw w s).sr n = (arithOp w.ar s.fresh s.clu[g] s.clu[g]).sr n := by
  have e : (wordCluster g raw w s).s = (yMove w.ys s.clu[g] (xMove w.xs s.clu[g] (arithOp w.ar s.fresh s.clu[g] s.clu[g])).1).1.s := by
    unfold wordCluster
    simp only [sequence_s, extOp_s]
  have d := wf_disjoint hw h
  have f := wf_slots hw
  have : (wordCluster g raw w s).sr n = (yMove w.ys s.clu[g] (xMove w.xs s.clu[g] (arithOp w.ar s.fresh s.clu[g] s.clu[g])).1).1.sr n := by
    unfold Cluster.sr; rw [e]
  rw [this, yMove_sr_keep _ _ _ d.2 hn f.2.2, xMove_sr_keep _ _ _ d.1 hn f.2.1]

/-- ST after a word, in the bits that neither a conversion of STAV nor a loop level changes: what the arithmetic slot left. -/
theorem word_bit (w : SxWord) {i : Nat} (hi : i < 32) (h9 : i ≠ 9) (h : i ≠ 10 ∧ i ≠ 11) :
    bit (wordCluster g raw w s).st i = bit (arithOp w.ar s.fresh s.clu[g] s.clu[g]).st i := by
  unfold wordCluster
  dsimp only
  rw [sequence_bit _ _ _ _ hi h, extOp_st, yMove_bit _ _ _ hi h9, xMove_bit _ _ _ hi h9]

/-- Pointers and QSB after a word: the moves' post-modify, and LDAG, on top of what the arithmetic slot left. -/
theorem word_ptrs (w : SxWord) :
    (wordCluster g raw w s).p = (yMove w.ys s.clu[g] (xMove w.xs s.clu[g] (arithOp w.ar s.fresh s.clu[g] s.clu[g])).1).1.p ∧
    (wordCluster g raw w s).m = (yMove w.ys s.clu[g] (xMove w.xs s.clu[g] (arithOp w.ar s.fresh s.clu[g] s.clu[g])).1).1.m ∧
    (wordCluster g raw w s).b = (yMove w.ys s.clu[g] (xMove w.xs s.clu[g] (arithOp w.ar s.fresh s.clu[g] s.clu[g])).1).1.b ∧
    (wordCluster g raw w s).l = (yMove w.ys s.clu[g] (xMove w.xs s.clu[g] (arithOp w.ar s.fresh s.clu[g] s.clu[g])).1).1.l ∧
    (wordCluster g raw w s).qsb = (yMove w.ys s.clu[g] (xMove w.xs s.clu[g] (arithOp w.ar s.fresh s.clu[g] s.clu[g])).1).1.qsb := by
  unfold wordCluster
  dsimp only
  have a := fun c => sequence_p s.clu[g] c w.ys (Config.freeBool (s.fresh + 4))
  have b := fun c => extOp_p s.clu[g] c w.ys s.now
  exact ⟨((a _).1).trans (b _).1, ((a _).2.1).trans (b _).2.1, ((a _).2.2.1).trans (b _).2.2.1, ((a _).2.2.2.1).trans (b _).2.2.2.1,
    ((a _).2.2.2.2).trans (b _).2.2.2.2⟩

/-- The clash rule for pointers: the arithmetic slot writes no pointer that a move slot post-modifies. -/
theorem wf_post (hw : w.wf = true) {n : Nat} (h : SxReg.sp n ∈ w.ar.writes) : w.xs.post ≠ some n ∧ w.ys.post ≠ some n := by
  unfold SxWord.wf SxWord.clash at hw
  simp only [Bool.and_eq_true, Bool.not_eq_true', Bool.or_eq_false_iff, List.any_eq_false, Bool.or_eq_true, not_or,
    List.contains_iff_mem] at hw
  have k := hw.2.2
  constructor
  · intro e; exact (k n (by rw [e]; simp)).1 h
  · intro e; exact (k n (by rw [e]; simp)).1 h

end Word

/-! ### The issue -/

theorem decodeWord_wf {n : Nat} {w : SxWord} (h : decodeWord n = some w) : w.wf = true := by
  unfold decodeWord at h
  split at h
  · split at h
    · cases h; assumption
    · cases h
  · cases h

/-- The row of an operation runs the word that the cluster issues. -/
theorem issue_runs {holds : SxWord → Bool} {g : Fin 4} {s : State} {w : SxWord} (t : Nat) (h : Issues s g w) (hw : holds w = true) :
    issue holds g t s = runWord g (nextWord s g) w (atTime t s) := by
  obtain ⟨h1, h2, h3, h4, h5, h6⟩ := h
  have e1 : canIssue (atTime t s) g = true := by unfold canIssue at *; rw [atTime_clu]; exact h1
  have e2 : nextWord (atTime t s) g = nextWord s g := by unfold nextWord; rw [atTime_clu]
  unfold issue
  simp only [e1, e2, h2, hw, if_true]
  unfold issueWord
  simp only [atTime_clu, h3, h4, h5, h6, if_false, Bool.false_eq_true]

/-- Every row of a word that a cluster issues runs the word. -/
theorem rowOf_runs {w : SxWord} {g : Fin 4} {t : Nat} {i : Instr} {s : State} (r : rowOf w g t i) (h : Issues s g w) :
    exec i s = .next (runWord g (nextWord s g) w (atTime t s)) := by
  have go : ∀ {holds : SxWord → Bool}, holds w = true →
      (Host.Outcome.next (issue holds g t s) : Host.Outcome State Fault Refusal) = .next (runWord g (nextWord s g) w (atTime t s)) :=
    fun hw => congrArg _ (issue_runs t h hw)
  have mem : ∀ {k : MemK} {m : MemOp}, m ∈ memOps w → m.k = k → holdsMem k w = true := fun hm e =>
    List.any_eq_true.mpr ⟨_, hm, by simp [e]⟩
  rcases r with ⟨_, e, rfl⟩ | ⟨k, _, _, _, _, _, _, e, hr⟩ | ⟨_, _, _, _, _, e, rfl⟩ | ⟨k, _, _, _, _, _, _, e, hr⟩ | ⟨k, _, _, _, e, hr⟩ |
    ⟨_, _, _, e, rfl⟩ | ⟨_, _, _, e, rfl⟩ | ⟨_, _, e, rfl⟩ | ⟨m, hm, hr⟩ | ⟨_, _, _, _, e, rfl⟩ | ⟨_, _, _, _, _, e, rfl⟩ | ⟨_, _, _, _, _, e, rfl⟩ |
    ⟨_, _, _, e, rfl⟩ | ⟨_, _, _, e, rfl⟩ | ⟨_, _, e, rfl⟩ | ⟨_, _, e, rfl⟩ | ⟨_, e, rfl⟩ | ⟨_, _, e, rfl⟩
  case inr.inl => cases k <;> cases hr <;> exact go (by simp [holdsLane, e])
  case inr.inr.inr.inl => cases k <;> cases hr <;> exact go (by simp [holdsScal, e])
  case inr.inr.inr.inr.inl => cases k <;> cases hr <;> exact go (by simp [holdsImm, e])
  case inr.inr.inr.inr.inr.inr.inr.inr.inl =>
    cases hk : m.k <;> rw [hk] at hr <;> cases hr <;> exact go (mem hm hk)
  all_goals exact go (by simp only [e])

theorem dutyOp_keeps_clu (g : Fin 4) (reg : Fin 32) (port : Nat) (v : Bool) (lane : Fin 4) (c0 : Cluster) (s : State) :
    (dutyOp g reg port v lane c0 s).clu = s.clu :=
  (dutyOp_keeps (P := [.pwmA]) (Within.refl _) Keeps.refl).1 .clu (by decide)

/-- The cluster after a word that does not end its entry. -/
theorem runWord_clu {w : SxWord} (hw : stays w) (g : Fin 4) (raw : DWord) (s : State) :
    (runWord g raw w s).clu = s.clu.set g.val (wordCluster g raw w s) := by
  unfold runWord
  dsimp only
  split
  · rw [dutyOp_keeps_clu]
  · rename_i h; exact absurd h (hw _)
  · rfl

/-- The cluster of a row after its word. -/
theorem issue_clu {holds : SxWord → Bool} {g : Fin 4} {s : State} {w : SxWord} (t : Nat) (h : Issues s g w) (hw : holds w = true) (st : stays w) :
    (issue holds g t s).clu[g] = wordCluster g (nextWord s g) w (atTime t s) := by
  rw [issue_runs t h hw, Fin.getElem_fin, runWord_clu st]
  simp only [Vector.getElem_set_self]

end Sys2Proof.Machine
end

