-- ==== Sys2Proof/Tests/Slice0.lean ====
section
/-!
SUPPORT. Tests: ill-formed terms that well-formedness refuses, program words written out from the tables of spec 12, and for every
statement with hypotheses a concrete state and operands that meet them, clause by clause.
-/
namespace Sys2Proof.Machine.Tests

set_option maxRecDepth 100000
set_option Elab.async false
set_option linter.unusedVariables false

/-! ### States to build on -/

/-- The state after reset in another mode. -/
def inMode (m : Nat) : State := setMode m State.reset
/-- A state with STO released on every group and the safety block marked valid. -/
def noSto (s : State) : State := bw s .safe 0 0x2000#32
/-- A state in which group g runs with a period of 50 us, one watch a period. -/
def running (g : Fin 4) (s : State) : State := aw s .pwm (16 + g.val) 0 0x010061A8#32
/-- Axis 0 in a sequence state. -/
def seqOf (q : Seq) (s : State) : State := modAx 0 (fun a => { a with seq := q }) s
/-- RUN with STO released, axis 0 READY. -/
def readyRun : State := seqOf .ready (noSto (inMode mRun))
/-- A level-1 fault of axis 0. -/
def flt (lvl : Nat) (code : BitVec 16) (axes : BitVec 16) : FaultRec :=
  { code := code, level := lvl, axes := axes, axis := 0, time := 0, data := [] }
/-- A queue item. -/
def item (w : Word) (fin : Bool) : QItem := { word := w, prio := 0, fin := fin, place := .head }
/-- A queue with readable packets. -/
def holding (q : Fin 64) (ps : List (List QItem)) (s : State) : State := setQ s q { pkts := ps, opens := [], rest := [] }
/-- Every region register of master m open for reads and writes of the Chart and memories. -/
def open_ (m : Nat) (s : State) : State := aw (aw s .prot m 0 0x1000000F#32) .prot m 4 0x6FFFFFE0#32
/-- BOOT loading records. -/
def loadingState : State := bw State.reset .boot 0 2#32
/-- A slot header of 64 bytes: a ZX-1604M image of a length with its IMAGE_CRC. -/
def hdrOf (len : Nat) (crc : Word) : List Byte :=
  let b := leBytes 0x49475A58 4 ++ [1, 0, 4, 0, 16, 0, 0, 0] ++ leBytes 1 4 ++ leBytes len 4 ++ leBytes crc.toNat 4 ++ List.replicate 36 0
  b ++ leBytes (crc32 b).toNat 4
/-- That of an image of 4,096 bytes. -/
def hdr0 : List Byte := hdrOf 0x1000 0#32
/-- An image that holds its END record alone. -/
def end0 : List Byte :=
  let b := leBytes 0xFF 2 ++ leBytes 0 6
  b ++ leBytes (crc32 b).toNat 4
/-- What the boot loader finds. -/
def view0 : BootView := { size := 24, slotA := hdr0, slotB := List.replicate 64 255, ringMaster := false, romOk := true, build := 0#32 }
/-- BOOT loading from slot A. -/
def loads0 : State := modBoot (fun b => { b with view := some view0 }) loadingState
/-- The head of a record with its CRC-32, as the boot loader reads it next. -/
def headFor (s : State) (ty : Nat) (flags : BitVec 16) (p : List Word) : RecHead :=
  { before := [], flags := flags, len := 4 * p.length, crc := crc32 (rawRec s ty flags.toNat (4 * p.length) (bytesOf p) 0#32).sum }
/-- A device on the ring, running; bit 1 of RING_STATUS makes it the master. -/
def ringRun (status : Word) : State :=
  let d : RingDev := { slot := 64, npts := 0, tr := 1000000, heal := false }
  modRing (fun r => { r with stage := 4, devs := [d, d, d], cfgAt := 0 }) (aw (aw (bw (inMode mRun) .ring 0 status) .ring 0 4 1000000#32) .ring 0 0 0x00010101#32)
/-- A device in ring start. -/
def ringStart (status : Word) (k : Nat) : State :=
  modBoot (fun b => { b with waitRing := true }) (modRing (fun r => { r with stage := k }) (aw (aw (aw (bw State.reset .ring 0 status) .ring 0 0 1#32) .ring 0 4 1000000#32) .ring 0 0xC 0x000500C8#32))
/-- A cluster that runs a chain at a program of one word. -/
def issuing (d : DWord) (s : State) : State :=
  modClu 0 (fun c => { c with state := .running, chain := some { trig := { src := 6, sel := 0 }, rest := [], entry := 0 }, prog := sset progDefault [] 0 d }) s
/-- CAN controller 0 active, object 0 given. -/
def canUp (cfg id map : Word) (s : State) : State :=
  aw (aw (aw (bw s .can0 0 1#32) .can0 1 0 cfg) .can0 1 4 id) .can0 1 12 map
/-- A plain user point writable by every master. -/
def plainPt (i : Nat) (s : State) : State := setAttr s i 0x01#32
/-- Change start admission. -/
def modAdm (f : Adm → Adm) (s : State) : State := { s with adm := f s.adm }


/-! ### Well-formedness: one ill-formed term for each check -/

/-- A lane operation with nothing else in its word. -/
def laneWord (k : LaneK) (fmt : Fin 4) (msk : Bool) (d a b : Fin 32) (aux : Fin 16) : SxWord :=
  { ar := .lane k fmt msk d a b aux, xs := .none, ys := .none }
/-- A word with nothing but a Y slot. -/
def yWord (y : YSlot) : SxWord := { ar := .nop 0, xs := .none, ys := y }
/-- A word with nothing but an X-move. -/
def xWord (m : MemOp) : SxWord := { ar := .nop 0, xs := .mem m, ys := .none }
/-- A word with nothing but an arithmetic slot. -/
def aWord (a : Arith) : SxWord := { ar := a, xs := .none, ys := .none }

/-- 12 R299, R301, Table 12-2: FMT 3; AUX bits without a meaning; a masked compare; accumulator numbers above 3 in D and in A; scalar
numbers above 15 in BCAST and EXTR. -/
theorem test_wf_lane_refused :
    (laneWord .add 3 false 1 2 3 0).wf = false ∧ (laneWord .add 0 false 1 2 3 1).wf = false ∧ (laneWord .adda 0 false 1 2 3 4).wf = false ∧
    (laneWord .lsl 0 false 1 2 3 2).wf = false ∧ (laneWord .norm 0 false 1 2 3 4).wf = false ∧ (laneWord .cmpeq 0 true 1 2 3 0).wf = false ∧
    (laneWord .mac 0 false 4 2 3 0).wf = false ∧ (laneWord .movxa 0 false 1 4 3 0).wf = false ∧ (laneWord .bcast 0 false 1 16 3 0).wf = false ∧
    (laneWord .extr 0 false 16 2 3 0).wf = false := by decide

/-- 12 R299, Table 12-4: bits that are 0 in SHA, the scalar, immediate and special forms; I with an operation that is no shift; special
registers that are reserved, or, as TIX, not written. -/
theorem test_wf_scalar_refused :
    (aWord (.sha 3 false 0 1 0)).wf = false ∧ (aWord (.sha 0 false 4 1 0)).wf = false ∧ (aWord (.sha 0 false 0 1 1)).wf = false ∧
    (aWord (.scal .sadd 1 2 3 false 0 1)).wf = false ∧ (aWord (.scal .sadd 1 2 3 true 0 0)).wf = false ∧ (aWord (.simm .sldi 1 1 5)).wf = false ∧
    (aWord (.srd 0x2A 1 0)).wf = false ∧ (aWord (.srd 0 1 1)).wf = false ∧ (aWord (.swr 0x22 1 0)).wf = false ∧ (aWord (.swr 0 1 1)).wf = false ∧
    (aWord (.swri 0x2A 1)).wf = false := by decide

/-- 12 R306, R307, Table 12-5: bits that are 0 in each memory operation; IX with PM; an index above 7 in the Y slot. -/
theorem test_wf_memory_refused :
    (xWord { k := .ldb, reg := 1, p := 0, pm := false, lf := 1, idx := 0 }).wf = false ∧
    (xWord { k := .stl, reg := 1, p := 0, pm := false, lf := 1, idx := 1 }).wf = false ∧
    (xWord { k := .lds, reg := 16, p := 0, pm := false, lf := 0, idx := 0 }).wf = false ∧
    (xWord { k := .sts, reg := 1, p := 0, pm := true, lf := 1, idx := 0 }).wf = false ∧
    (xWord { k := .stav, reg := 4, p := 0, pm := false, lf := 0, idx := 0 }).wf = false ∧
    (xWord { k := .stav, reg := 1, p := 0, pm := false, lf := 3, idx := 0 }).wf = false ∧
    (yWord (.mem { k := .lds, reg := 1, p := 0, pm := false, lf := 1, idx := 8 })).wf = false := by decide

/-- 12 R308, R309, Tables 12-6 and 12-7: a vector DUTY to another port, EXT and RET with bits that are 0, condition 15, JMP with bit 13. -/
theorem test_wf_control_refused :
    (yWord (.duty 1 5 true 0)).wf = false ∧ (yWord (.ext 1 2 true false false 1)).wf = false ∧ (yWord (.br 15 1)).wf = false ∧
    (yWord (.jmp true 5)).wf = false ∧ (yWord (.ret 1)).wf = false := by decide

/-- 12 R317: two slots that write one register; a pointer that is post-modified twice over, or post-modified and written. -/
theorem test_wf_clash_refused :
    ({ ar := .lane .add 0 false 3 1 2 0, xs := .mem { k := .ldb, reg := 3, p := 0, pm := false, lf := 0, idx := 0 }, ys := .none } : SxWord).wf = false ∧
    ({ ar := .swri 1 5, xs := .mem { k := .ldb, reg := 3, p := 1, pm := true, lf := 0, idx := 0 }, ys := .none } : SxWord).wf = false := by decide

/-- A ring slot with records. -/
def slotWith (n k : Nat) : RingSlot :=
  { emptySlot 1 with recs := List.replicate n { axis := 0, act := true, words := List.replicate k 0#32 } }
/-- A mailbox packet with items. -/
def pktWith (n : Nat) : MailPkt :=
  let p : MailPkt := { src := 1, dest := 2, bc := false, kind := 0, items := List.replicate n 0#32, crc := 0#32 }
  { p with crc := crc32 (mailBytes p) }
/-- A ring frame with a slot and a packet. -/
def ringWith (x : RingSlot) (p : MailPkt) : RingFrame :=
  headSum { j := 1, back := false, fold := false, unfold := false, wave := false, tM := 0, tw := 0, crc := 0#32, slots := [x], mail := [p] }
/-- A CAN frame with a payload. -/
def canWith (fd : Bool) (n : Nat) : CanFrame :=
  { id := 5, rtr := false, xtd := false, fdf := fd, brs := false, esi := false, dlc := 8, data := List.replicate n 0, sof := 0 }

/-- Commands: CAN frames of 9 bytes and, FD, of 65; in a ring frame a packet of 64 items, a record of seven words, a slot of seven records; a
flash of 1 MiB, a slot header of 63 bytes; voltages and currents of the wrong number; a record with a word too many, with a listed TYPE among
the records before it, END with a length. -/
theorem test_wf_command_refused :
    Instr.wf (.canFrameReceived 0 (canWith false 9) 0) = false ∧ Instr.wf (.canFrameReceived 0 (canWith true 65) 0) = false ∧
    Instr.wf (.ringFramePass 0 (ringWith (slotWith 1 8) (pktWith 64)) 0) = false ∧ Instr.wf (.ringFramePass 0 (ringWith (slotWith 1 7) (pktWith 1)) 0) = false ∧
    Instr.wf (.ringFramePass 0 (ringWith (slotWith 7 8) (pktWith 1)) 0) = false ∧ Instr.wf (.ringFramePass 0 (ringWith (slotWith 6 8) (pktWith 63)) 0) = true ∧
    Instr.wf (.resetnRelease { view0 with size := 20 }) = false ∧ Instr.wf (.resetnRelease { view0 with slotB := List.replicate 63 255 }) = false ∧
    Instr.wf (.resetnRelease view0) = true ∧ Instr.wf (.stat [1] [] 0) = false ∧ Instr.wf (.prechargeEnd 0 [1] 0) = false ∧
    Instr.wf (.fioUpstreamFrame 0 0 0 [1] [] 0) = false ∧ Instr.wf (.mem (headFor loads0 2 0 [5#32]) [5#32, 6#32] 0) = false ∧
    Instr.wf (.mem { headFor loads0 2 0 [5#32] with before := [{ ty := 5, flags := 0, body := [], crc := 0#32 }] } [5#32] 0) = false ∧
    Instr.wf (.imgEnd (headFor loads0 0xFF 0 [1#32]) 0) = false ∧ Instr.wf (.canFrameReceived 0 (canWith true 64) 0) = true := by decide +kernel

/-- 00 Table 0-9, against the published check values of the two algorithms: the CRC-32 of "123456789" is 0xCBF4_3926; its CRC-8 with polynomial
0x2F and initial value 0xFF is the complement of 0xDF, which the published variant inverts at the end. -/
theorem test_crc :
    let d : List Byte := [49, 50, 51, 52, 53, 54, 55, 56, 57]
    crc32 d = 0xCBF43926#32 ∧ crc8 d = 0x20#8 := by decide +kernel


/-! ### Program words written out from the tables of spec 12 -/

/-- Table 12-3: ADD.I.M X3, X4, X5 is OPC 1, FMT 2, MSK 1, D 3, A 4, B 5. -/
theorem test_decode_add : decodeWord (0x01 * 2 ^ 58 + 2 * 2 ^ 56 + 1 * 2 ^ 55 + 3 * 2 ^ 50 + 4 * 2 ^ 45 + 5 * 2 ^ 40) =
    some (laneWord .add 2 true 3 4 5 0) := by decide +kernel

/-- Table 12-3: LSR.Q X1, X2, #9 is OPC 0x0C with B the count and AUX 1. -/
theorem test_decode_lsr : decodeWord (0x0C * 2 ^ 58 + 1 * 2 ^ 50 + 2 * 2 ^ 45 + 9 * 2 ^ 40 + 1 * 2 ^ 36) = some (laneWord .lsr 0 false 1 2 9 1) := by
  decide +kernel

/-- Table 12-2: SHA.Q A2, #-3 holds its count in bits 13 to 7 of the slot. -/
theorem test_decode_sha : decodeWord (0x1A * 2 ^ 58 + 2 * 2 ^ 50 + 125 * 2 ^ 43) = some (aWord (.sha 0 false 2 125 0)) := by decide +kernel

/-- Table 12-2: SSUB S1, S2, S3. -/
theorem test_decode_ssub : decodeWord (0x21 * 2 ^ 58 + 1 * 2 ^ 54 + 2 * 2 ^ 50 + 3 * 2 ^ 46) = some (aWord (.scal .ssub 1 2 3 false 0 0)) := by
  decide +kernel

/-- Table 12-2: SADDI S4, -1. -/
theorem test_decode_saddi : decodeWord (0x2C * 2 ^ 58 + 4 * 2 ^ 54 + 0xFFFF * 2 ^ 36) = some (aWord (.simm .saddi 4 0 0xFFFF)) := by decide +kernel

/-- Table 12-4: SWR LC0, S7 names special register 0x23. -/
theorem test_decode_swr : decodeWord (0x2E * 2 ^ 58 + 0x23 * 2 ^ 52 + 7 * 2 ^ 48) = some (aWord (.swr 0x23 7 0)) := by decide +kernel

/-- Table 12-5: STAV A1, (P6)+ in format 2 from the X slot, and LDS S3, (P2+S5) from the Y slot. -/
theorem test_decode_moves :
    decodeWord (7 * 2 ^ 33 + 1 * 2 ^ 28 + 6 * 2 ^ 25 + 1 * 2 ^ 24 + 2 * 2 ^ 22) = some (xWord { k := .stav, reg := 1, p := 6, pm := true, lf := 2, idx := 0 }) ∧
    decodeWord (5 * 2 ^ 14 + 3 * 2 ^ 9 + 2 * 2 ^ 6 + 1 * 2 ^ 3 + 5) = some (yWord (.mem { k := .lds, reg := 3, p := 2, pm := false, lf := 1, idx := 5 })) := by
  decide +kernel

/-- Table 12-6: DUTY.V X9 to port 0x10, EXT store of S1 at S2 with post-increment and side bits, LOOP S3 of 7 words, BR Z to the word before,
JMP 0x155, RET, LDAG P5, 20. -/
theorem test_decode_control :
    decodeWord (8 * 2 ^ 14 + 9 * 2 ^ 9 + 0x10 * 2 ^ 3 + 1 * 2 ^ 2) = some (yWord (.duty 9 0x10 true 0)) ∧
    decodeWord (9 * 2 ^ 14 + 1 * 2 ^ 10 + 2 * 2 ^ 6 + 1 * 2 ^ 5 + 1 * 2 ^ 4 + 1 * 2 ^ 3) = some (yWord (.ext 1 2 true true true 0)) ∧
    decodeWord (10 * 2 ^ 14 + 1 * 2 ^ 12 + 6 * 2 ^ 4 + 3) = some (yWord (.loopS false 6 3)) ∧
    decodeWord (11 * 2 ^ 14 + 1 * 2 ^ 10 + 1023) = some (yWord (.br 1 1023)) ∧ decodeWord (12 * 2 ^ 14 + 0x155) = some (yWord (.jmp false 0x155)) ∧
    decodeWord (13 * 2 ^ 14) = some (yWord (.ret 0)) ∧ decodeWord (14 * 2 ^ 14 + 5 * 2 ^ 11 + 20) = some (yWord (.ldag 5 20)) := by decide +kernel

/-! ### Witnesses: the hypotheses of each statement are met -/

theorem witness_RegisterAndMemoryWrites :
    (let m : Fin 10 := 0
     let a : BitVec 30 := 0x04000000
     let s : State := inMode mRun
     (Performs s m.val kWrite (4 * a.toNat)) ∧
     (memAddress (4 * a.toNat))) ∧
    (let m : Fin 10 := 0
     let a : BitVec 30 := 0x10000400
     let s : State := inMode mRun
     (Performs s m.val kWrite (4 * a.toNat)) ∧
     (memAddress (4 * a.toNat))) ∧
    (let m : Fin 10 := 0
     let a : BitVec 30 := 402752512
     let s : State := inMode mRun
     (Performs s m.val kWrite (4 * a.toNat)) ∧
     (0x60000000 ≤ 4 * a.toNat ∧ findReg (4 * a.toNat) = some ((findReg 1611010048).get (by decide)) ∧ ((findReg 1611010048).get (by decide)).active = false ∧ ((findReg 1611010048).get (by decide)).row.inst.isSome = true ∧ ((findReg 1611010048).get (by decide)).blk = .prof)) := by
  refine ⟨?_, ?_, ?_⟩ <;> (dsimp only [Performs, MoverPoint, AxisBoundary, memAddress, idFits, Loads]; decide +kernel)

theorem witness_CommitArms :
    (let m : Fin 10 := 0
     let a : BitVec 30 := 402751492
     let s : State := inMode mRun
     let h : RegHit := ((findReg 1611005968).get (by decide))
     (Performs s m.val kWrite (4 * a.toNat)) ∧
     (0x60000000 ≤ 4 * a.toNat) ∧
     (findReg (4 * a.toNat) = some h) ∧
     (h.active = false) ∧
     (isCommit h = true) ∧
     ((h.blk = .prof ∨ h.blk = .home ∨ h.blk = .loop ∨ h.blk = .pwm))) := by
  dsimp only [Performs, MoverPoint, AxisBoundary, memAddress, idFits, Loads]; decide +kernel

theorem witness_SnapshotReads :
    (let m : Fin 10 := 0
     let a : BitVec 30 := 402752656
     let s : State := inMode mRun
     let h : RegHit := ((findReg 1611010624).get (by decide))
     let r : Nat × Nat := (576, 2)
     (Performs s m.val kRead (4 * a.toNat)) ∧
     (0x60000000 ≤ 4 * a.toNat) ∧
     (findReg (4 * a.toNat) = some h) ∧
     ((h.blk = .prof ∨ h.blk = .home ∨ h.blk = .enc ∨ h.blk = .chron)) ∧
     (snapRec h (hitOff h) = some r) ∧
     (hitOff h = r.1 ∧ 1 < r.2 ∧ (findReg (4 * a.toNat + 4)).isSome = true)) ∧
    (let m : Fin 10 := 0
     let a : BitVec 30 := 402752657
     let s : State := { inMode mRun with snaps := [(1611010628, 7#32)] }
     let h : RegHit := ((findReg 1611010628).get (by decide))
     let r : Nat × Nat := (576, 2)
     (Performs s m.val kRead (4 * a.toNat)) ∧
     (0x60000000 ≤ 4 * a.toNat) ∧
     (findReg (4 * a.toNat) = some h) ∧
     ((h.blk = .prof ∨ h.blk = .home ∨ h.blk = .enc ∨ h.blk = .chron)) ∧
     (snapRec h (hitOff h) = some r) ∧
     (hitOff h ≠ r.1 ∧ (s.snaps.find? (fun x => x.1 == 4 * a.toNat)).map (·.2) = some 7#32)) := by
  refine ⟨?_, ?_⟩ <;> (dsimp only [Performs, MoverPoint, AxisBoundary, memAddress, idFits, Loads]; decide +kernel)

theorem witness_ChartWrites :
    (let m : Fin 10 := 0
     let i : BitVec 17 := 8192
     let s : State := plainPt 8192 (inMode mRun)
     (Performs s m.val kWrite (ptAddr i.toNat)) ∧
     (wrOk (attr s i.toNat) m.val = true ∧ isI64 (attr s i.toNat) = false ∧ heldOf s m.val = none)) ∧
    (let m : Fin 10 := 0
     let i : BitVec 17 := 8192
     let s : State := setAttr (inMode mRun) 8192 5#32
     (Performs s m.val kWrite (ptAddr i.toNat)) ∧
     (wrOk (attr s i.toNat) m.val = true ∧ isI64 (attr s i.toNat) = true ∧ i.toNat % 2 = 0 ∧ heldOf s m.val = none)) ∧
    (let m : Fin 10 := 0
     let i : BitVec 17 := 8193
     let s : State := { setAttr (setAttr (inMode mRun) 8192 5#32) 8193 5#32 with held := [(0, (8192, 9#32))] }
     (Performs s m.val kWrite (ptAddr i.toNat)) ∧
     (wrOk (attr s i.toNat) m.val = true ∧ isI64 (attr s i.toNat) = true ∧ i.toNat = 8192 + 1 ∧ heldOf s m.val = some (8192, 9#32))) ∧
    (let m : Fin 10 := 0
     let i : BitVec 17 := 1700
     let s : State := inMode mRun
     (Performs s m.val kWrite (ptAddr i.toNat)) ∧
     (wrOk (attr s i.toNat) m.val = false ∧ heldOf s m.val = none ∧ i.toNat ≠ 70)) := by
  refine ⟨?_, ?_, ?_, ?_⟩ <;> (dsimp only [Performs, MoverPoint, AxisBoundary, memAddress, idFits, Loads]; decide +kernel)

theorem witness_ChartReads :
    (let m : Fin 10 := 0
     let k : BitVec 16 := 4096
     let s : State := setPt (setAttr (inMode mRun) 8192 5#32) 8193 9#32
     (Performs s m.val kRead (ptAddr (2 * k.toNat))) ∧
     (badAt s (ptAddr (2 * k.toNat)) = 0) ∧
     (isI64 (attr s (2 * k.toNat)) = true)) := by
  dsimp only [Performs, MoverPoint, AxisBoundary, memAddress, idFits, Loads]; decide +kernel

theorem witness_ControlRegisterWrites :
    (let m : Fin 10 := 0
     let s : State := bw State.reset .chron 0x28 9#32
     (Performs s m.val kWrite (bAddr .chron 0x2C)) ∧
     (mode s = mBoot) ∧
     (bit (br s .chron 0) 10 = false) ∧
     ((ringEn s = true ∨ bit (ir s .ring 0 0) 0 = true → isMaster s = true))) ∧
    (let m : Fin 10 := 0
     let s : State := inMode mRun
     let x : Fin 16 := 3
     (Performs s m.val kWrite (iAddr .prof x.val 0x2E4))) ∧
    (let m : Fin 10 := 0
     let v : Word := 1#32
     let s : State := inMode mRun
     (Performs s m.val kWrite 0x60040014) ∧
     (bit v 0 = true)) ∧
    (let m : Fin 10 := 0
     let g : Fin 4 := 1
     let s : State := inMode mRun
     (Performs s m.val kWrite (sxAddr g.val 0))) ∧
    (let m : Fin 10 := 0
     let g : Fin 4 := 1
     let s : State := modClu 1 (fun c => { c with state := .halted }) (inMode mRun)
     (Performs s m.val kWrite (sxAddr g.val 0)) ∧
     (s.clu[g].state = .halted)) ∧
    (let m : Fin 10 := 0
     let g : Fin 4 := 1
     let s : State := inMode mRun
     (Performs s m.val kWrite (sxAddr g.val 0x38))) := by
  refine ⟨?_, ?_, ?_, ?_, ?_, ?_⟩ <;> (dsimp only [Performs, MoverPoint, AxisBoundary, memAddress, idFits, Loads]; decide +kernel)

theorem witness_ExternalPort :
    (let g : Fin 4 := 0
     let s : State := writeWord (open_ 1 (modClu 0 (fun c => { c with state := .running, chain := some { trig := { src := 6, sel := 0 }, rest := [], entry := 0 }, posted := [{ addr := 0x10000000, word := 0#32, side := none, read := some 0 }], reads := [{ addr := 0x10000000, reg := 3, sb := false, prio := 0, data := none, t0 := 0 }] }) (inMode mRun))) 0x10000000 77#32
     let p : Posted := { addr := 0x10000000, word := 0#32, side := none, read := some 0 }
     let rest : List Posted := []
     let r : ExtRead := { addr := 0x10000000, reg := 3, sb := false, prio := 0, data := none, t0 := 0 }
     let lvl : Nat := 0
     (s.clu[g].posted = p :: rest) ∧
     (memAddress p.addr) ∧
     (p.read = some lvl) ∧
     (s.clu[g].readOf lvl = some r) ∧
     (r.addr = p.addr) ∧
     (r.reg < 16) ∧
     (r.sb = false) ∧
     (s.clu[g].state = .running) ∧
     (s.clu[g].prio = lvl) ∧
     (r.prio = lvl) ∧
     (Performs s (g.val + 1) kRead p.addr) ∧
     (badAt s p.addr = 0)) ∧
    (let g : Fin 4 := 0
     let s : State := open_ 1 (modClu 0 (fun c => { c with posted := [{ addr := 0x10000000, word := 9#32, side := none, read := none }] }) (inMode mRun))
     let p : Posted := { addr := 0x10000000, word := 9#32, side := none, read := none }
     let rest : List Posted := []
     (s.clu[g].posted = p :: rest) ∧
     (memAddress p.addr) ∧
     (p.read = none) ∧
     (p.side = none) ∧
     (Performs s (g.val + 1) kWrite p.addr)) := by
  refine ⟨?_, ?_⟩ <;> (dsimp only [Performs, MoverPoint, AxisBoundary, memAddress, idFits, Loads]; decide +kernel)

theorem witness_ScrubAndRefresh :
    (let w : BitVec 30 := 0x04000000
     let s : State := inMode mRun
     (mode s ≠ mSleep) ∧
     (mode s ≠ mBoot) ∧
     (eccAddr (4 * w.toNat) = true) ∧
     (badAt s (4 * w.toNat) = 0) ∧
     (4 * w.toNat ≠ lastWord (eccMem (4 * w.toNat)))) := by
  dsimp only [Performs, MoverPoint, AxisBoundary, memAddress, idFits, Loads]; decide +kernel

theorem witness_QueuePush :
    (let m : Fin 10 := 0
     let q : Fin 64 := 20
     let prio : Fin 8 := 0
     let s : State := aw (inMode mRun) .que 20 4 32#32
     (q ≠ 2) ∧
     (keyed q = false) ∧
     (Performs s m.val kWrite (queAddr q (0x300 + 8 * prio.val))) ∧
     (Performs s m.val kWrite (queAddr q (0x304 + 8 * prio.val))) ∧
     (qCap s q ≠ 0) ∧
     (qWriter q m.val = true) ∧
     (qRoom s q 1 = true) ∧
     (((s.queues[q]).opens.filter (fun o => o.1 == m.val)).length ≤ 1)) ∧
    (let m : Fin 10 := 0
     let q : Fin 64 := 20
     let prio : Fin 8 := 0
     let s : State := aw (inMode mRun) .que 20 4 32#32
     let x := s.queues[q]
     let open_ := (x.openOf m.val).map (·.word)
     (q ≠ 2) ∧
     (keyed q = false) ∧
     (Performs s m.val kWrite (queAddr q (0x300 + 8 * prio.val))) ∧
     (Performs s m.val kWrite (queAddr q (0x304 + 8 * prio.val))) ∧
     (qCap s q ≠ 0) ∧
     (qWriter q m.val = true) ∧
     (qRoom s q 1 = true) ∧
     (((s.queues[q]).opens.filter (fun o => o.1 == m.val)).length ≤ 1) ∧
     (open_.length < 255)) := by
  refine ⟨?_, ?_⟩ <;> (dsimp only [Performs, MoverPoint, AxisBoundary, memAddress, idFits, Loads]; decide +kernel)

theorem witness_QueuePop :
    (let m : Fin 10 := 0
     let q : Fin 64 := 20
     let s : State := holding 20 [[item 1#32 false, item 2#32 true]] (aw (inMode mRun) .que 20 4 32#32)
     let x := s.queues[q]
     (Performs s m.val kRead (queAddr q 0x340)) ∧
     (qCap s q ≠ 0) ∧
     (x.rest = [] ∧ x.pkts.getD (bestPkt (keyed q) x.pkts) [] = [item 1#32 false, item 2#32 true])) ∧
    (let m : Fin 10 := 0
     let q : Fin 64 := 20
     let s : State := aw (aw (inMode mRun) .que 20 4 32#32) .que 20 0 1#32
     let x := s.queues[q]
     (Performs s m.val kRead (queAddr q 0x340)) ∧
     (qCap s q ≠ 0) ∧
     (x.nothing = true ∧ bit (ar s .que q.val 0) 0 = true)) ∧
    (let m : Fin 10 := 0
     let q : Fin 64 := 20
     let s : State := aw (aw (inMode mRun) .que 20 4 32#32) .que 20 0 0#32
     let x := s.queues[q]
     (Performs s m.val kRead (queAddr q 0x340)) ∧
     (qCap s q ≠ 0) ∧
     (x.nothing = true ∧ bit (ar s .que q.val 0) 0 = false)) ∧
    (let m : Fin 10 := 0
     let q : Fin 64 := 20
     let s : State := { setQ (aw (inMode mRun) .que 20 4 32#32) 20 { pkts := [], opens := [], rest := [item 5#32 true] } with stalls := [{ master := 0, queue := 20 }] }
     let x := s.queues[q]
     (Performs s m.val kRead (queAddr q 0x340)) ∧
     (qCap s q ≠ 0) ∧
     (x.rest = [item 5#32 true] ∧ s.stalls = [{ master := m.val, queue := q.val }])) ∧
    (let m : Fin 10 := 0
     let q : Fin 64 := 20
     let s : State := setQ (aw (inMode mRun) .que 20 4 32#32) 20 { pkts := [], opens := [], rest := [item 5#32 true] }
     let x := s.queues[q]
     (Performs s m.val kRead (queAddr q 0x340)) ∧
     (qCap s q ≠ 0) ∧
     (x.rest = [item 5#32 true])) := by
  refine ⟨?_, ?_, ?_, ?_, ?_⟩ <;> (dsimp only [Performs, MoverPoint, AxisBoundary, memAddress, idFits, Loads]; decide +kernel)

theorem witness_QueueMover :
    (let q : Fin 64 := 20
     let k : Fin 9 := 2
     let s : State := holding 20 [(List.range 12).map (fun k => { item (wd k) (k == 11) with place := if k < 8 then Place.head else Place.tail })] (aw (inMode mRun) .que 20 4 32#32)
     let x := s.queues[q]
     (moverOn s q = true) ∧
     (8 ≤ x.settle.inPlace .head)) ∧
    (let q : Fin 64 := 20
     let k : Fin 9 := 2
     let s : State := holding 20 [(List.range 12).map (fun k => { item (wd k) (k == 11) with place := if k < 8 then Place.spill else Place.tail })] (aw (inMode mRun) .que 20 4 32#32)
     let x := s.queues[q]
     (moverOn s q = true) ∧
     (x.inPlace .spill ≠ 0) ∧
     (x.nothing = false)) := by
  refine ⟨?_, ?_⟩ <;> (dsimp only [Performs, MoverPoint, AxisBoundary, memAddress, idFits, Loads]; decide +kernel)

theorem witness_ModeRequests :
    (let t : Nat := 50000
     let s : State := setPt (bw (inMode mRun) .boot 0 5#32) 1 (wd 1)
     (helmOn s = true) ∧
     (isDevB s t = true) ∧
     (s.helm.toStandby = false) ∧
     (s.helm.toSleep = false) ∧
     (modeReq s = 1) ∧
     (mode s = mRun ∧ allOff s = true)) ∧
    (let t : Nat := 50000
     let s : State := setPt (bw (inMode mStandby) .boot 0 5#32) 1 (wd 1)
     (helmOn s = true) ∧
     (isDevB s t = true) ∧
     (s.helm.toStandby = false) ∧
     (s.helm.toSleep = false) ∧
     (modeReq s = 1) ∧
     (mode s ≠ mRun)) ∧
    (let t : Nat := 50000
     let s : State := seqOf .ready (setPt (bw (inMode mRun) .boot 0 5#32) 1 (wd 1))
     (helmOn s = true) ∧
     (isDevB s t = true) ∧
     (s.helm.toStandby = false) ∧
     (s.helm.toSleep = false) ∧
     (modeReq s = 1) ∧
     (mode s = mRun ∧ allOff s = false)) ∧
    (let t : Nat := 50000
     let s : State := bw (setPt (bw (inMode mStandby) .boot 0 5#32) 1 (wd 2)) .safe 0 0x4000#32
     (helmOn s = true) ∧
     (isDevB s t = true) ∧
     (s.helm.toStandby = false) ∧
     (s.helm.toSleep = false) ∧
     (modeReq s = 2) ∧
     (mode s = mStandby) ∧
     (waveWaits s t = false) ∧
     (runOk s = true)) ∧
    (let t : Nat := 50000
     let s : State := modHelm (fun h => { h with runWait := true }) (bw (setPt (bw (inMode mStandby) .boot 0 5#32) 1 (wd 2)) .safe 0 0x4000#32)
     (helmOn s = true) ∧
     (isDevB s t = true) ∧
     (s.helm.toStandby = false) ∧
     (s.helm.toSleep = false) ∧
     (modeReq s = 2) ∧
     (mode s = mStandby) ∧
     (waveWaits s t = false) ∧
     (runOk s = true) ∧
     (s.helm.runWait = true)) ∧
    (let t : Nat := 50000
     let s : State := setPt (bw (inMode mStandby) .boot 0 5#32) 1 (wd 3)
     (helmOn s = true) ∧
     (isDevB s t = true) ∧
     (s.helm.toStandby = false) ∧
     (s.helm.toSleep = false) ∧
     (modeReq s = 3) ∧
     (mode s = mStandby) ∧
     (lvlStands 3 s = false) ∧
     (sleepOk s = true)) ∧
    (let t : Nat := 50000
     let s : State := modHelm (fun h => { h with latched := [flt 1 0x5022#16 1#16] }) (setPt (bw (inMode mRun) .boot 0 5#32) 1 (wd 4))
     (helmOn s = true) ∧
     (isDevB s t = true) ∧
     (s.helm.toStandby = false) ∧
     (s.helm.toSleep = false) ∧
     (modeReq s = 4) ∧
     (mode s ≠ mBoot) ∧
     (mode s ≠ mHalt) ∧
     ((∀ f ∈ s.helm.latched, f.time < t ∧ causePresent (atTime t s) f = false))) ∧
    (let t : Nat := 50000
     let s : State := bw (setPt (bw (inMode mRun) .boot 0 5#32) 1 (wd (5 + 256 * 3))) .sys 0x28 0x00080008#32
     let m : Nat := 3
     (helmOn s = true) ∧
     (isDevB s t = true) ∧
     (s.helm.toStandby = false) ∧
     (s.helm.toSleep = false) ∧
     (modeReq s = 5) ∧
     (mode s ≠ mBoot) ∧
     (fld (pt s 1) 8 4 = m) ∧
     (m ≤ 9) ∧
     (bit (br s .sys 0x28) (16 + m) = true)) ∧
    (let t : Nat := 50000
     let s : State := setPt (bw (inMode mRun) .boot 0 5#32) 1 (wd 9)
     (helmOn s = true) ∧
     (isDevB s t = true) ∧
     (s.helm.toStandby = false) ∧
     (s.helm.toSleep = false) ∧
     (5 < modeReq s)) := by
  refine ⟨?_, ?_, ?_, ?_, ?_, ?_, ?_, ?_, ?_⟩ <;> (dsimp only [Performs, MoverPoint, AxisBoundary, memAddress, idFits, Loads]; decide +kernel)

theorem witness_HelmDuties :
    (let t : Nat := 50000000
     let s : State := bw (bw (inMode mRun) .boot 0 5#32) .sys 0x20 0x05000001#32
     (helmOn s = true) ∧
     (t % 1000000 = 0) ∧
     (fld (br s .sys 0x20) 24 8 ≠ 0) ∧
     ((mode s = mRun ∨ mode s = mComm)) ∧
     (s.helm.ownerFrom + fld (br s .sys 0x20) 24 8 * 1000000 ≤ t) ∧
     (s.helm.ownerOut = false)) ∧
    (let s : State := modHelm (fun h => { h with latched := [flt 2 0x6002#16 0xF#16] }) (holding 0 [[item (faultWord (flt 2 0x6002#16 0xF#16)) true]] (bw (inMode mRun) .boot 0 5#32))
     let i : QItem := item (faultWord (flt 2 0x6002#16 0xF#16)) true
     let ps : List (List QItem) := ([] : List (List QItem))
     let f : FaultRec := flt 2 0x6002#16 0xF#16
     (helmOn s = true) ∧
     ((s.queues[(0 : Fin 64)]).rest = []) ∧
     ((s.queues[(0 : Fin 64)]).pkts = [i] :: ps) ∧
     (bestPkt false ([i] :: ps) = 0) ∧
     (i.place ≠ .spill) ∧
     (qCap s 0 ≠ 0) ∧
     (recOf s i.word = some f) ∧
     (f.level = 2) ∧
     (f.axes &&& grpMask 0 ≠ 0#16)) ∧
    (let s : State := bw (bw (inMode mRun) .boot 0 5#32) .safe 0 0x20#32
     let g : Fin 4 := 1
     (helmOn s = true) ∧
     (ss1On s g = true) ∧
     ((mode s = mRun ∨ mode s = mComm))) ∧
    (let t : Nat := 50000000
     let s : State := setPt (bw (inMode mRun) .boot 0 5#32) 5890 1#32
     (helmOn s = true) ∧
     (t % 1000000 = 0) ∧
     (s.safe.cmd = 0#32)) ∧
    (let s : State := holding 2 [(List.range 8).map (fun (k : Nat) => item (if k = 2 then 0x00FF0502#32 else wd (k + 1)) (k == 7))] (bw (inMode mRun) .boot 0 5#32)
     let p : List QItem := (List.range 8).map (fun (k : Nat) => item (if k = 2 then 0x00FF0502#32 else wd (k + 1)) (k == 7))
     let ps : List (List QItem) := []
     let x := s.queues[(2 : Fin 64)]
     let code := BitVec.ofNat 16 (fld ((p.map (·.word)).getD 2 0#32) 0 16)
     (helmOn s = true) ∧
     (x.rest = []) ∧
     (x.pkts = p :: ps) ∧
     (bestPkt false x.pkts = 0) ∧
     (p.length = 8) ∧
     ((∀ j, j < 8 → (p.getD j (headItem [])).fin = decide (j = 7))) ∧
     ((∀ j, j < 8 → (p.getD j (headItem [])).place ≠ .spill)) ∧
     (x.inPlace .spill = 0) ∧
     (qCap s 2 ≠ 0) ∧
     (codeCls code ≠ 3) ∧
     (codeCls code ≠ 6)) ∧
    (let s : State := setPt (bw (inMode mRun) .boot 0 5#32) 67 1#32
     (helmOn s = true) ∧
     (fld (pt s 67) 0 3 ≠ 0)) := by
  refine ⟨?_, ?_, ?_, ?_, ?_, ?_⟩ <;> (dsimp only [Performs, MoverPoint, AxisBoundary, memAddress, idFits, Loads]; decide +kernel)

theorem witness_AxisEvents :
    (let clocks : Nat := 63
     (clocks < 64)) ∧
    (let x : Fin 16 := 0
     let k : Fin 3 := 1
     let clocks : Nat := 64
     let s : State := aw (aw (aw readyRun .sdm 0 0 7#32) .sdm 16 0 0x28#32) .loop 0 0 1#32
     (64 ≤ clocks) ∧
     (sdClkOn s x = true) ∧
     (s.sdm[x].stuck[k] = false) ∧
     (readsInput s x k = true ∧ axActive s x = true ∧ 3 * x.val + k.val < 32)) ∧
    (let x : Fin 16 := 15
     let k : Fin 3 := 2
     let clocks : Nat := 64
     let s : State := aw (aw (aw readyRun .sdm 0 0 7#32) .sdm 23 0 0x28#32) .loop 0 0 1#32
     (64 ≤ clocks) ∧
     (sdClkOn s x = true) ∧
     (s.sdm[x].stuck[k] = false) ∧
     (32 ≤ 3 * x.val + k.val)) ∧
    (let c : Fin 24 := 0
     let s : State := aw (inMode mRun) .hk 3 0 1#32
     (mode s ≠ mSleep) ∧
     (hkTurn s = c)) ∧
    (let c : Fin 24 := 3
     let s : State := { aw (inMode mRun) .hk 3 0 1#32 with hk := (inMode mRun).hk.set 2 { (inMode mRun).hk[2] with last := true } }
     (mode s ≠ mSleep) ∧
     (hkTurn s = c)) ∧
    (let x : Fin 16 := 0
     let t : Nat := 5000000
     let t0 : Nat := 0
     let s : State := modStp 0 (fun x => { x with still := some 0 }) (aw (inMode mRun) .step 0 0 0x00050001#32)
     (stepOn s x = true) ∧
     (s.stp[x].vy = 0) ∧
     (s.stp[x].still = some t0) ∧
     (fld (ar s .step x.val 0) 16 16 ≠ 0) ∧
     (t0 + fld (ar s .step x.val 0) 16 16 * 1000000 ≤ t)) ∧
    (let x : Fin 16 := 0
     let t : Nat := 9000000
     let s : State := modEnv 0 (fun e => { e with vy := 5 }) (modAx 0 (fun a => { a with faultStop := true }) (aw readyRun .prof 0 0x14 5#32))
     (s.ax[x].faultStop = true) ∧
     (fld (ar s .prof x.val 0x14) 0 16 ≠ 0) ∧
     (axStill s x = false) ∧
     (s.ax[x].stopSince + fld (ar s .prof x.val 0x14) 0 16 * 1000000 ≤ t) ∧
     (s.helm.latched.any (fun f => f.code == mkCode 0 x.val 7) = false)) ∧
    (let x : Fin 16 := 0
     let s : State := modAx 0 (fun a => { a with faultStop := true }) readyRun
     (fld (ar s .prof x.val 0x14) 0 16 = 0)) ∧
    (let x : Fin 16 := 0
     let t : Nat := 50000000
     let s : State := modHom 0 (fun h => { h with state := 1 }) (aw readyRun .home 0 0x44 5#32)
     let h := s.homing[x]
     (AxisBoundary s x t) ∧
     (homingOn s x = true) ∧
     (fld (ar s .home x.val 0x44) 0 16 ≠ 0) ∧
     (h.t0 + fld (ar s .home x.val 0x44) 0 16 * 1000000 < t)) ∧
    (let x : Fin 16 := 0
     let t : Nat := 50000
     let s : State := (modHom 0 (fun h => { h with state := 1, from_ := -65536 * 9 }) (aw readyRun .home 0 0x1C 5#32))
     let z := motAt x t (atTime t s)
     let h := s.homing[x]
     (AxisBoundary s x t) ∧
     (1 ≤ h.state) ∧
     (h.state ≤ 5) ∧
     (h.sub = 0) ∧
     (ar s .home x.val 0x1C ≠ 0#32) ∧
     ((ar s .home x.val 0x1C).toNat * 65536 < (z.mot[x].p - h.from_).natAbs)) ∧
    (let x : Fin 16 := 0
     let t : Nat := 50000
     let s : State := modHom 0 (fun h => { h with state := 6 }) (aw readyRun .home 0 0x40 5#32)
     let h := s.homing[x]
     (AxisBoundary s x t) ∧
     (h.state = 6) ∧
     ((ap s x 8).toInt.natAbs < (ar s .home x.val 0x40).toInt.natAbs)) ∧
    (let x : Fin 16 := 0
     let t : Nat := 50000
     let s : State := setAp (modHom 0 (fun h => { h with state := 6 }) (aw readyRun .home 0 0x40 5#32)) 0 8 9#32
     let h := s.homing[x]
     (AxisBoundary s x t) ∧
     (h.state = 6) ∧
     ((ar s .home x.val 0x40).toInt.natAbs ≤ (ap s x 8).toInt.natAbs ∧ fld (ar s .home x.val 0) 16 8 ≤ h.hsCount)) ∧
    (let x : Fin 16 := 0
     let t : Nat := 50000
     let s : State := modSup 0 (fun g => { g with on := true, age := 3 }) (aw readyRun .prof 0 0xAC 2#32)
     (AxisBoundary s x t) ∧
     (s.sup[x].on = true) ∧
     (fld (ar s .prof x.val 0xAC) 0 4 ≠ 0) ∧
     (fld (ar s .prof x.val 0xAC) 0 4 < s.sup[x].age) ∧
     (s.sup[x].held = false)) := by
  refine ⟨?_, ?_, ?_, ?_, ?_, ?_, ?_, ?_, ?_, ?_, ?_, ?_, ?_⟩ <;> (dsimp only [Performs, MoverPoint, AxisBoundary, memAddress, idFits, Loads]; decide +kernel)

theorem witness_AxisCommands :
    (let x : Fin 16 := 0
     let t : Nat := 50000
     let s : State := setAp (noSto (inMode mRun)) 0 1 1#32
     let on := fun (b : Nat) => bit (axCmd s x) b = true
     (AxisBoundary s x t) ∧
     (on 0) ∧
     (s.ax[x].lastEnable = false) ∧
     (s.ax[x].seq = .disabled)) ∧
    (let x : Fin 16 := 0
     let t : Nat := 50000
     let s : State := setAp (modMot 0 (fun m => { m with committed := true }) (aw (noSto (inMode mRun)) .loop 0 0 9#32)) 0 1 1#32
     let on := fun (b : Nat) => bit (axCmd s x) b = true
     (AxisBoundary s x t) ∧
     (on 0) ∧
     (s.ax[x].lastEnable = false) ∧
     (s.ax[x].seq = .disabled)) ∧
    (let x : Fin 16 := 0
     let t : Nat := 50000
     let s : State := setAp (readyRun) 0 1 0#32
     let z := motAt x t (atTime t s)
     let off := fun (b : Nat) => bit (axCmd s x) b = false
     (AxisBoundary s x t) ∧
     (off 0) ∧
     ((s.ax[x].seq = .enabling ∨ s.ax[x].seq ≠ .disabled ∧ axStill z x = true))) ∧
    (let x : Fin 16 := 0
     let t : Nat := 50000
     let s : State := setAp (seqOf .enabling readyRun) 0 1 0#32
     let z := motAt x t (atTime t s)
     let off := fun (b : Nat) => bit (axCmd s x) b = false
     (AxisBoundary s x t) ∧
     (off 0) ∧
     ((s.ax[x].seq = .enabling ∨ s.ax[x].seq ≠ .disabled ∧ axStill z x = true))) ∧
    (let x : Fin 16 := 0
     let t : Nat := 50000
     let s : State := setAp (modHelm (fun h => { h with latched := [flt 1 0x5022#16 1#16] }) readyRun) 0 1 2#32
     let on := fun (b : Nat) => bit (axCmd s x) b = true
     (AxisBoundary s x t) ∧
     (on 1) ∧
     ((∀ f ∈ s.helm.latched, f.hits x = true → (f.level = 1 ∨ f.level = 2) ∧ f.time < t ∧ causePresent (atTime t s) f = false))) ∧
    (let x : Fin 16 := 0
     let t : Nat := 50000
     let s : State := setAp (readyRun) 0 1 5#32
     (AxisBoundary s x t) ∧
     (stopHeld s x = true) ∧
     (s.mot[x].qstop = false) ∧
     (s.ax[x].seq ≠ .disabled) ∧
     (s.ax[x].seq ≠ .enabling)) ∧
    (let x : Fin 16 := 0
     let t : Nat := 50000
     let s : State := setAp (modMot 0 (fun m => { m with qstop := true }) readyRun) 0 1 1#32
     let z := motAt x t (atTime t s)
     (AxisBoundary s x t) ∧
     (stopHeld s x = false) ∧
     (s.mot[x].qstop = true) ∧
     (s.ax[x].faultStop = false) ∧
     (s.ax[x].offAtRest = false) ∧
     (axStill z x = true)) ∧
    (let x : Fin 16 := 0
     let t : Nat := 50000
     let s : State := setAp (readyRun) 0 1 9#32
     let z := motAt x t (atTime t s)
     let on := fun (b : Nat) => bit (axCmd s x) b = true
     let leads := ∀ i : Fin 4, igOf s x = some i → igLeads s i x = true
     let free := readyOrMoving z x = true ∧ (motQ s x).qstop = false ∧ homingOn s x = false ∧ leads
     (AxisBoundary s x t) ∧
     (on 3) ∧
     (free)) ∧
    (let x : Fin 16 := 0
     let t : Nat := 50000
     let s : State := setAp (modMot 0 (fun m => { m with hold := true }) readyRun) 0 1 1#32
     let z := motAt x t (atTime t s)
     let off := fun (b : Nat) => bit (axCmd s x) b = false
     let leads := ∀ i : Fin 4, igOf s x = some i → igLeads s i x = true
     let free := readyOrMoving z x = true ∧ (motQ s x).qstop = false ∧ homingOn s x = false ∧ leads
     (AxisBoundary s x t) ∧
     (off 3) ∧
     (free)) ∧
    (let x : Fin 16 := 0
     let t : Nat := 50000
     let s : State := setAp (aw readyRun .prof 0 0x80 3#32) 0 1 65#32
     let z := motAt x t (atTime t s)
     let on := fun (b : Nat) => bit (axCmd s x) b = true
     (AxisBoundary s x t) ∧
     (on 6) ∧
     (s.gear[x].phase = 0) ∧
     (s.gear[x].armed = true) ∧
     (fld (ar s .prof x.val 0x80) 0 3 ≠ 0) ∧
     (readyOrMoving z x = true)) ∧
    (let x : Fin 16 := 0
     let t : Nat := 50000
     let s : State := setAp (modGear 0 (fun g => { g with phase := 2 }) readyRun) 0 1 1#32
     let off := fun (b : Nat) => bit (axCmd s x) b = false
     (AxisBoundary s x t) ∧
     (off 6) ∧
     ((s.gear[x].phase = 1 ∨ s.gear[x].phase = 2)) ∧
     (s.gear[x].mark ≠ 2) ∧
     (¬ 0 < gDdist s x)) ∧
    (let x : Fin 16 := 0
     let t : Nat := 50000
     let s : State := setAp (modGear 0 (fun g => { g with phase := 2 }) (aw readyRun .prof 0 0x98 100#32)) 0 1 1#32
     let off := fun (b : Nat) => bit (axCmd s x) b = false
     (AxisBoundary s x t) ∧
     (off 6) ∧
     ((s.gear[x].phase = 1 ∨ s.gear[x].phase = 2)) ∧
     (s.gear[x].mark ≠ 2) ∧
     (0 < gDdist s x)) ∧
    (let x : Fin 16 := 0
     let t : Nat := 50000
     let s : State := setAp (readyRun) 0 1 129#32
     let z := motAt x t (atTime t s)
     let on := fun (b : Nat) => bit (axCmd s x) b = true
     (AxisBoundary s x t) ∧
     (on 7) ∧
     (s.sup[x].on = false) ∧
     (s.sup[x].armed = true) ∧
     (readyOrMoving z x = true)) ∧
    (let x : Fin 16 := 0
     let t : Nat := 50000
     let s : State := setAp (modSup 0 (fun g => { g with on := true }) readyRun) 0 1 1#32
     let off := fun (b : Nat) => bit (axCmd s x) b = false
     (AxisBoundary s x t) ∧
     (off 7)) ∧
    (let x : Fin 16 := 0
     let t : Nat := 50000
     let s : State := setAp (readyRun) 0 1 33#32
     let z := motAt x t (atTime t s)
     let on := fun (b : Nat) => bit (axCmd s x) b = true
     (AxisBoundary s x t) ∧
     (on 5) ∧
     (s.homing[x].state = 0) ∧
     (homeReason z x ≠ 0)) ∧
    (let x : Fin 16 := 0
     let t : Nat := 50000
     let s : State := setAp (modMot 0 (fun x => { x with committed := true }) (aw (aw readyRun .enc 2 0 0x1001#32) .home 0 0 1#32)) 0 1 33#32
     let z := motAt x t (atTime t s)
     let on := fun (b : Nat) => bit (axCmd s x) b = true
     (AxisBoundary s x t) ∧
     (on 5) ∧
     (s.homing[x].state = 0) ∧
     (homeReason z x = 0 ∧ homeMethod s x = 1)) ∧
    (let x : Fin 16 := 0
     let t : Nat := 50000
     let s : State := setAp (modMot 0 (fun x => { x with committed := true }) (aw (aw readyRun .enc 2 0 0x1001#32) .home 0 0 7#32)) 0 1 33#32
     let z := motAt x t (atTime t s)
     let on := fun (b : Nat) => bit (axCmd s x) b = true
     (AxisBoundary s x t) ∧
     (on 5) ∧
     (s.homing[x].state = 0) ∧
     (homeReason z x = 0 ∧ homeMethod s x = 7)) ∧
    (let x : Fin 16 := 0
     let t : Nat := 50000
     let s : State := setAp (modMot 0 (fun x => { x with committed := true }) (aw (aw readyRun .enc 2 0 0x1001#32) .home 0 0 8#32)) 0 1 33#32
     let z := motAt x t (atTime t s)
     let on := fun (b : Nat) => bit (axCmd s x) b = true
     (AxisBoundary s x t) ∧
     (on 5) ∧
     (s.homing[x].state = 0) ∧
     (homeReason z x = 0 ∧ homeMethod s x = 8)) ∧
    (let x : Fin 16 := 0
     let t : Nat := 50000
     let s : State := setAp (modMot 0 (fun x => { x with committed := true }) (aw (aw readyRun .enc 2 0 0x1001#32) .home 0 0 3#32)) 0 1 33#32
     let z := motAt x t (atTime t s)
     let on := fun (b : Nat) => bit (axCmd s x) b = true
     (AxisBoundary s x t) ∧
     (on 5) ∧
     (s.homing[x].state = 0) ∧
     (homeReason z x = 0 ∧ homeMethod s x = 3)) ∧
    (let x : Fin 16 := 0
     let t : Nat := 50000
     let s : State := setAp (modHom 0 (fun h => { h with state := 8 }) readyRun) 0 1 1#32
     let off := fun (b : Nat) => bit (axCmd s x) b = false
     (AxisBoundary s x t) ∧
     (off 5)) := by
  refine ⟨?_, ?_, ?_, ?_, ?_, ?_, ?_, ?_, ?_, ?_, ?_, ?_, ?_, ?_, ?_, ?_, ?_, ?_, ?_, ?_⟩ <;> (dsimp only [Performs, MoverPoint, AxisBoundary, memAddress, idFits, Loads]; decide +kernel)

theorem witness_AxisSubmissions :
    (let x : Fin 16 := 0
     let t : Nat := 50000
     let s : State := setAp (readyRun) 0 1 17#32
     (AxisBoundary s x t) ∧
     (bit (axCmd s x) 4 = true) ∧
     ((∀ i : Fin 4, igOf s x = some i → igLeads s i x = true))) ∧
    (let x : Fin 16 := 0
     let t : Nat := 50000
     let s : State := setAp (setAp (setAp (setAp (setAp (setAp (aw readyRun .prof 0 0x14 0x00040000#32) 0 20 0x447A0000#32) 0 21 0x447A0000#32) 0 22 0x447A0000#32) 0 23 0x447A0000#32) 0 18 1000#32) 0 16 (wd (256 + 7 * 65536))
     let sub := readSub s x
     (AxisBoundary s x t) ∧
     (sub.act = 1)) ∧
    (let x : Fin 16 := 0
     let t : Nat := 50000
     let s : State := setAp (setAp (setAp (setAp (setAp (setAp (aw readyRun .prof 0 0x14 0x00040000#32) 0 20 0x447A0000#32) 0 21 0x447A0000#32) 0 22 0x447A0000#32) 0 23 0x447A0000#32) 0 18 1000#32) 0 16 (wd (512 + 7 * 65536))
     let sub := readSub s x
     (AxisBoundary s x t) ∧
     (sub.act = 2)) ∧
    (let x : Fin 16 := 0
     let t : Nat := 50000
     let s : State := setAp (setAp (setAp (setAp (setAp (setAp (aw readyRun .prof 0 0x14 0x00040000#32) 0 20 0x447A0000#32) 0 21 0x447A0000#32) 0 22 0x447A0000#32) 0 23 0x447A0000#32) 0 18 1000#32) 0 16 (wd (768 + 7 * 65536))
     let sub := readSub s x
     (AxisBoundary s x t) ∧
     (sub.act = 3)) ∧
    (let x : Fin 16 := 0
     let t : Nat := 50000
     let s : State := setAp (setAp (setAp (setAp (setAp (setAp (aw readyRun .prof 0 0x14 0x00040000#32) 0 20 0x447A0000#32) 0 21 0x447A0000#32) 0 22 0x447A0000#32) 0 23 0x447A0000#32) 0 18 1000#32) 0 16 (wd (256 + 9 + 7 * 65536))
     let sub := readSub s x
     (AxisBoundary s x t) ∧
     (sub.act = 1)) := by
  refine ⟨?_, ?_, ?_, ?_, ?_⟩ <;> (dsimp only [Performs, MoverPoint, AxisBoundary, memAddress, idFits, Loads]; decide +kernel)

theorem witness_LoopEngine :
    (let g : Fin 4 := 0
     let s : State := wr (modClu 0 (fun c => { c with waiting := [{ src := 6, sel := 2 }] }) (aw (aw (inMode mRun) .loop 16 8 0x00070006#32) .loop 16 0x28 55#32)) (sxAddr 0 0) 1#32
     let tr : Trig := { src := 6, sel := 2 }
     let e : Nat := 2
     let es : List Nat := []
     (s.clu[g].chain = none) ∧
     (s.clu[g].state = .idle) ∧
     (bit (sr s g 0) 0 = true) ∧
     (bestTrig s g = some tr) ∧
     (tr.src ≠ 1) ∧
     (tr.src ≠ 2) ∧
     (chainEntries s g tr = e :: es)) ∧
    (let g : Fin 4 := 0
     let s : State := wr (aw (inMode mRun) .loop 16 8 0x00070006#32) (sxAddr 0 0) 1#32
     let takes := trigMode s = true ∧ s.clu[g].state ≠ .frozen ∧ s.clu[g].state ≠ .halted ∧ bit (sr s g 0) 0 = true
     let v : Word := 4#32
     let e : Nat := 2
     (e < 8) ∧
     (bit v (8 * g.val + e) = true) ∧
     (fld (trigWord s g e) 0 3 = 6) ∧
     (takes)) ∧
    (let s : State := inMode mRun
     (helmUp s = true)) ∧
    (let g : Fin 4 := 0
     let t : Nat := 25400
     let s : State := wr (running 0 (inMode mRun)) (sxAddr 0 0) 1#32
     let takes := trigMode s = true ∧ s.clu[g].state ≠ .frozen ∧ s.clu[g].state ≠ .halted ∧ bit (sr s g 0) 0 = true
     (afterPb s g t (gT s g / 2 + 400) = true) ∧
     (takes)) ∧
    (let g : Fin 4 := 0
     let t : Nat := 50400
     let s : State := wr (modPg 0 (fun g => { g with lastWb := some 50000, trigDue := true, served := 50400 }) (running 0 (inMode mRun))) (sxAddr 0 0) 1#32
     let takes := trigMode s = true ∧ s.clu[g].state ≠ .frozen ∧ s.clu[g].state ≠ .halted ∧ bit (sr s g 0) 0 = true
     let w : Nat := 50000
     (s.pwmG[g].lastWb = some w) ∧
     (gOn s g = true) ∧
     (s.pwmG[g].trigDue = true) ∧
     (t = s.pwmG[g].served) ∧
     (s.pwmG[g].start ≤ w) ∧
     (takes)) ∧
    (let g : Fin 4 := 0
     let s : State := modLoop 0 (fun l => { l with watchMiss := 2 }) readyRun
     (bit (br s .loop 0) (20 + g.val) = false) ∧
     ((grpAxes g).any (fun a => decide (2 ≤ s.loop[a].watchMiss) && axActive s a) = true)) := by
  refine ⟨?_, ?_, ?_, ?_, ?_, ?_⟩ <;> (dsimp only [Performs, MoverPoint, AxisBoundary, memAddress, idFits, Loads]; decide +kernel)

theorem witness_Boundaries :
    (let g : Fin 4 := 0
     let t : Nat := 50000
     let s : State := aw (inMode mRun) .pwm 16 0 0x020061A8#32
     (isPb s g t = true ∧ s.pwmG[g].lastPb ≠ some t)) ∧
    (let g : Fin 4 := 0
     let t : Nat := 25000
     let s : State := aw (running 0 (inMode mRun)) .enc 2 0 1#32
     (afterPb s g t (gT s g / 2) = true ∧ encRuns s 2 = true ∧ sdOn s (axOf g 0) 0 = false)) ∧
    (let s : State := running 0 (inMode mRun)
     (helmUp s = true)) ∧
    (let s : State := setAttr (inMode mRun) 1700 0x20000001#32
     (helmUp s = true)) := by
  refine ⟨?_, ?_, ?_, ?_⟩ <;> (dsimp only [Performs, MoverPoint, AxisBoundary, memAddress, idFits, Loads]; decide +kernel)

theorem witness_EncoderCounting :
    (let c : Fin 16 := 2
     let held : Nat := 1
     let t : Nat := 5
     let s : State := aw (inMode mRun) .enc 2 0 0x201#32
     (held < encHold (encTime t s) c)) ∧
    (let c : Fin 16 := 2
     let lines : BitVec 3 := 0
     let held : Nat := 2
     let t : Nat := 100
     let s : State := aw (inMode mRun) .enc 2 0 0x201#32
     let z := wireClear c t (atSample c t s)
     let up := (quadPos lines.toNat + 4 - quadPos z.enc[c].lines) % 4
     (encHold (encTime t s) c ≤ held) ∧
     (encRuns z c = true ∧ encMode z c = 1 ∧ stepDir z c = false ∧ up = 0)) ∧
    (let c : Fin 16 := 2
     let lines : BitVec 3 := 1
     let held : Nat := 2
     let t : Nat := 100
     let s : State := aw (inMode mRun) .enc 2 0 0x201#32
     let z := wireClear c t (atSample c t s)
     let up := (quadPos lines.toNat + 4 - quadPos z.enc[c].lines) % 4
     (encHold (encTime t s) c ≤ held) ∧
     (encRuns z c = true ∧ encMode z c = 1 ∧ stepDir z c = false ∧ up = 1)) ∧
    (let c : Fin 16 := 2
     let lines : BitVec 3 := 2
     let held : Nat := 2
     let t : Nat := 100
     let s : State := aw (inMode mRun) .enc 2 0 0x201#32
     let z := wireClear c t (atSample c t s)
     let up := (quadPos lines.toNat + 4 - quadPos z.enc[c].lines) % 4
     (encHold (encTime t s) c ≤ held) ∧
     (encRuns z c = true ∧ encMode z c = 1 ∧ stepDir z c = false ∧ up = 3)) ∧
    (let c : Fin 16 := 2
     let lines : BitVec 3 := 3
     let held : Nat := 2
     let t : Nat := 100
     let s : State := aw (inMode mRun) .enc 2 0 0x201#32
     let z := wireClear c t (atSample c t s)
     let up := (quadPos lines.toNat + 4 - quadPos z.enc[c].lines) % 4
     (encHold (encTime t s) c ≤ held) ∧
     (encRuns z c = true ∧ encMode z c = 1 ∧ stepDir z c = false ∧ up = 2)) ∧
    (let c : Fin 16 := 2
     let lines : BitVec 3 := 1
     let held : Nat := 0
     let t : Nat := 5
     let s : State := aw (inMode mRun) .enc 2 0 0x11#32
     let z := wireClear c t (atSample c t s)
     let up := (quadPos lines.toNat + 4 - quadPos z.enc[c].lines) % 4
     (encHold (encTime t s) c ≤ held) ∧
     (encRuns z c = true ∧ encMode z c = 1 ∧ stepDir z c = false ∧ up = 1)) ∧
    (let c : Fin 16 := 2
     let held : Nat := 0
     let t : Nat := 5
     let s : State := inMode mRun
     let z := wireClear c t (atSample c t s)
     (encHold (encTime t s) c ≤ held) ∧
     (encRuns z c = false)) := by
  refine ⟨?_, ?_, ?_, ?_, ?_, ?_, ?_⟩ <;> (dsimp only [Performs, MoverPoint, AxisBoundary, memAddress, idFits, Loads]; decide +kernel)

theorem witness_LatchCaptures :
    (let m : Fin 8 := 3
     let held : Nat := 2
     let t : Nat := 5
     let s : State := bw (iw (aw (aw (inMode mRun) .enc 2 0 1#32) .enc 2 0x20 0x199#32) .enc 2 0x280 0x800#32) .enc 0x2C 3#32
     let z := encTime t s
     (held < fld (br z .enc (0x20 + 4 * m.val)) 0 8)) ∧
    (let c : Fin 16 := 2
     let u : Fin 2 := 0
     let cfg := fun (s : State) => latchCfg s c u.val
     let open_ := fun (s : State) => encRuns s c && bit (encStat s c) (11 + u.val)
     let m : Fin 8 := 3
     let rising : Bool := true
     let held : Nat := 3
     let t : Nat := 500
     let s : State := bw (iw (aw (aw (inMode mRun) .enc 2 0 1#32) .enc 2 0x20 0x199#32) .enc 2 0x280 0x800#32) .enc 0x2C 3#32
     let z := encTime t s
     let up := xor rising (bit (br z .enc (0x20 + 4 * m.val)) 8)
     (fld (br z .enc (0x20 + 4 * m.val)) 0 8 ≤ held) ∧
     (open_ z = true) ∧
     (fld (cfg z) 0 3 = 1) ∧
     (fld (cfg z) 3 3 = m.val) ∧
     ((fld (cfg z) 6 2 = 2 ∨ fld (cfg z) 6 2 = 0 ∧ up = true ∨ fld (cfg z) 6 2 = 1 ∧ up = false))) ∧
    (let c : Fin 16 := 2
     let u : Fin 2 := 0
     let cfg := fun (s : State) => latchCfg s c u.val
     let open_ := fun (s : State) => encRuns s c && bit (encStat s c) (11 + u.val)
     let m : Fin 8 := 3
     let rising : Bool := false
     let held : Nat := 0
     let t : Nat := 500
     let s : State := iw (aw (aw (inMode mRun) .enc 2 0 1#32) .enc 2 0x20 0x199#32) .enc 2 0x280 0x800#32
     let z := encTime t s
     let up := xor rising (bit (br z .enc (0x20 + 4 * m.val)) 8)
     (fld (br z .enc (0x20 + 4 * m.val)) 0 8 ≤ held) ∧
     (open_ z = true) ∧
     (fld (cfg z) 0 3 = 1) ∧
     (fld (cfg z) 3 3 = m.val) ∧
     ((fld (cfg z) 6 2 = 2 ∨ fld (cfg z) 6 2 = 0 ∧ up = true ∨ fld (cfg z) 6 2 = 1 ∧ up = false))) ∧
    (let c : Fin 16 := 2
     let u : Fin 2 := 0
     let cfg := fun (s : State) => latchCfg s c u.val
     let open_ := fun (s : State) => encRuns s c && bit (encStat s c) (11 + u.val)
     let v : Word := 0x10#32
     let s : State := iw (aw (aw (inMode mRun) .enc 2 0 1#32) .enc 2 0x20 0x105#32) .enc 2 0x280 0x800#32
     (open_ s = true) ∧
     (fld (cfg s) 0 3 = 5) ∧
     (bit v (2 * c.val + u.val) = true)) := by
  refine ⟨?_, ?_, ?_, ?_⟩ <;> (dsimp only [Performs, MoverPoint, AxisBoundary, memAddress, idFits, Loads]; decide +kernel)

theorem witness_EncoderWiresAndFrames :
    (let m : Fin 8 := 1
     let t : Nat := 9
     let e : Nat := 5
     let s : State := { inMode mRun with cmpPins := (inMode mRun).cmpPins.set 1 { on := true, ends := some 5 } }
     let z := encTime t s
     (z.cmpPins[m].ends = some e) ∧
     (e ≤ t)) ∧
    (let c : Fin 16 := 2
     let pair : Fin 3 := 1
     let run : Nat := 6
     let t : Nat := 5
     let s : State := aw (aw (inMode mRun) .enc 2 0 1#32) .enc 2 0x18 5#32
     let z := encOrder c t .quiet (encTime t s)
     let wdt := fld (ar z .enc c.val 0x18) 0 8
     (wireChecked z c pair = true ∧ wdt < run)) ∧
    (let c : Fin 16 := 2
     let pair : Fin 3 := 1
     let run : Nat := 5
     let t : Nat := 5
     let s : State := aw (aw (inMode mRun) .enc 2 0 1#32) .enc 2 0x18 5#32
     let z := encOrder c t .quiet (encTime t s)
     let wdt := fld (ar z .enc c.val 0x18) 0 8
     (wireChecked z c pair = true ∧ run ≤ wdt)) ∧
    (let c : Fin 16 := 2
     let run : Nat := 0
     let t : Nat := 1500000
     let s : State := modEnc 2 (fun e => { e with wirePairs := 2, wireAt := #v[some 0, some 0, some 0] }) (iw (aw (aw (inMode mRun) .enc 2 0 1#32) .enc 2 0x18 5#32) .enc 2 0x280 6#32)
     let y := atSample c t s
     let z := encOrder c t .quiet (encTime t s)
     let wdt := fld (ar z .enc c.val 0x18) 0 8
     (bit (encStat y c) 2 = true ∧ wireOk y c t = true ∧ run ≤ wdt)) ∧
    (let c : Fin 16 := 2
     let t : Nat := 25000
     let s : State := wr (running 0 (aw (aw (inMode mRun) .enc 2 0 3#32) .enc 2 0xC 0x400#32)) (sxAddr 0 0) 1#32
     let z := encOrder c t .quiet (encTime t s)
     (encRuns z c = true) ∧
     ((encMode z c = 3 ∨ encMode z c = 4)) ∧
     (pollDue z c t = true) ∧
     (z.enc[c].frame = none)) ∧
    (let c : Fin 16 := 2
     let t : Nat := 25000
     let s : State := modEnc 2 (fun e => { e with frame := some { start := 5, ser := 0x400#32, sert := 0#32 } }) (wr (running 0 (aw (aw (inMode mRun) .enc 2 0 3#32) .enc 2 0xC 0x400#32)) (sxAddr 0 0) 1#32)
     let z := encOrder c t .quiet (encTime t s)
     let f : SerialRun := { start := 5, ser := 0x400#32, sert := 0#32 }
     (encRuns z c = true) ∧
     ((encMode z c = 3 ∨ encMode z c = 4)) ∧
     (pollDue z c t = true) ∧
     (z.enc[c].frame = some f)) ∧
    (let c : Fin 16 := 2
     let t : Nat := 9
     let r : SerialFrame := { ready := false, start := none, bits := [] }
     let f : SerialRun := { start := 5, ser := 0x400#32, sert := 0#32 }
     let s : State := modEnc 2 (fun e => { e with frame := some { start := 5, ser := 0x400#32, sert := 0#32 } }) (aw (inMode mRun) .enc 2 0 3#32)
     let z := encOrder c t .quiet (encTime t s)
     let cause : Nat := 1
     let w : Option Nat := none
     (z.enc[c].frame = some f) ∧
     (frameRead (encMode z c) f.ser r = .fail cause w)) ∧
    (let c : Fin 16 := 2
     let t : Nat := 305
     let r : SerialFrame := { ready := true, start := none, bits := [true, false, true, true] }
     let f : SerialRun := { start := 5, ser := 0x400#32, sert := 0#32 }
     let s : State := modEnc 2 (fun e => { e with frame := some { start := 5, ser := 0x400#32, sert := 0#32 } }) (aw (inMode mRun) .enc 2 0 3#32)
     let z := encOrder c t .quiet (encTime t s)
     let inTime := t ≤ f.start + fld f.sert 0 16 + 300
     let raw : Nat := bitsNum [true, false, true, true]
     let w : Option Nat := none
     (z.enc[c].frame = some f) ∧
     (frameRead (encMode z c) f.ser r = .good raw w) ∧
     (z.enc[c].u = none) ∧
     (inTime)) ∧
    (let c : Fin 16 := 2
     let t : Nat := 306
     let r : SerialFrame := { ready := true, start := none, bits := [true, false, true, true] }
     let f : SerialRun := { start := 5, ser := 0x400#32, sert := 0#32 }
     let s : State := modEnc 2 (fun e => { e with frame := some { start := 5, ser := 0x400#32, sert := 0#32 } }) (aw (inMode mRun) .enc 2 0 3#32)
     let z := encOrder c t .quiet (encTime t s)
     let inTime := t ≤ f.start + fld f.sert 0 16 + 300
     let raw : Nat := bitsNum [true, false, true, true]
     let w : Option Nat := none
     (z.enc[c].frame = some f) ∧
     (frameRead (encMode z c) f.ser r = .good raw w) ∧
     (z.enc[c].u = none) ∧
     (¬inTime)) ∧
    (let c : Fin 16 := 2
     let t : Nat := 305
     let r : SerialFrame := { ready := true, start := none, bits := [true, false, true, true] }
     let f : SerialRun := { start := 5, ser := 0x400#32, sert := 0#32 }
     let s : State := modEnc 2 (fun e => { e with u := some 15 }) (modEnc 2 (fun e => { e with frame := some { start := 5, ser := 0x400#32, sert := 0#32 } }) (aw (inMode mRun) .enc 2 0 3#32))
     let z := encOrder c t .quiet (encTime t s)
     let bits := fld f.ser 8 5 + fld f.ser 13 6
     let inTime := t ≤ f.start + fld f.sert 0 16 + 300
     let raw : Nat := bitsNum [true, false, true, true]
     let w : Option Nat := none
     let u := if bit f.ser 19 then grayDec raw bits else raw
     let u0 : Nat := 15
     let d := sext bits (u + 2 ^ bits - u0)
     (z.enc[c].frame = some f) ∧
     (frameRead (encMode z c) f.ser r = .good raw w) ∧
     (z.enc[c].u = some u0) ∧
     ((ar z .enc c.val 0x14 = 0#32 ∨ d.natAbs ≤ (ar z .enc c.val 0x14).toNat)) ∧
     (inTime)) ∧
    (let c : Fin 16 := 2
     let t : Nat := 306
     let r : SerialFrame := { ready := true, start := none, bits := [true, false, true, true] }
     let f : SerialRun := { start := 5, ser := 0x400#32, sert := 0#32 }
     let s : State := aw (modEnc 2 (fun e => { e with u := some 15 }) (modEnc 2 (fun e => { e with frame := some { start := 5, ser := 0x400#32, sert := 0#32 } }) (aw (inMode mRun) .enc 2 0 3#32))) .enc 2 0x14 4#32
     let z := encOrder c t .quiet (encTime t s)
     let bits := fld f.ser 8 5 + fld f.ser 13 6
     let inTime := t ≤ f.start + fld f.sert 0 16 + 300
     let raw : Nat := bitsNum [true, false, true, true]
     let w : Option Nat := none
     let u := if bit f.ser 19 then grayDec raw bits else raw
     let u0 : Nat := 15
     let d := sext bits (u + 2 ^ bits - u0)
     (z.enc[c].frame = some f) ∧
     (frameRead (encMode z c) f.ser r = .good raw w) ∧
     (z.enc[c].u = some u0) ∧
     ((ar z .enc c.val 0x14 = 0#32 ∨ d.natAbs ≤ (ar z .enc c.val 0x14).toNat)) ∧
     (¬inTime)) := by
  refine ⟨?_, ?_, ?_, ?_, ?_, ?_, ?_, ?_, ?_, ?_, ?_⟩ <;> (dsimp only [Performs, MoverPoint, AxisBoundary, memAddress, idFits, Loads]; decide +kernel)

theorem witness_PwmEdgeComputation :
    (let g : Fin 4 := 0
     let t : Nat := 74700
     let s : State := modPa 0 (fun p => { p with frozen := p.frozen.set 0 0x40000000#32 }) (running 0 (inMode mRun))
     let j : Fin 4 := 0
     let k : Fin 4 := 0
     let x := axOf g j
     let w := s.pwmA[x].frozen[k]
     (afterPb s g t (gT s g / 2 + gT s g - 300) = true) ∧
     (mode s ≠ mService) ∧
     (dutyCode w = 1)) ∧
    (let g : Fin 4 := 0
     let t : Nat := 74700
     let s : State := modPa 0 (fun p => { p with frozen := p.frozen.set 0 0x80000000#32 }) (running 0 (inMode mRun))
     let j : Fin 4 := 0
     let k : Fin 4 := 0
     let x := axOf g j
     let w := s.pwmA[x].frozen[k]
     (afterPb s g t (gT s g / 2 + gT s g - 300) = true) ∧
     (mode s ≠ mService) ∧
     (dutyCode w = 2)) ∧
    (let g : Fin 4 := 0
     let t : Nat := 74700
     let s : State := modPa 0 (fun p => { p with frozen := p.frozen.set 0 0x00002000#32 }) (running 0 (inMode mRun))
     let j : Fin 4 := 0
     let k : Fin 4 := 0
     let x := axOf g j
     let w := s.pwmA[x].frozen[k]
     (afterPb s g t (gT s g / 2 + gT s g - 300) = true) ∧
     (mode s ≠ mService) ∧
     (dutyCode w = 0)) := by
  refine ⟨?_, ?_, ?_⟩ <;> (dsimp only [Performs, MoverPoint, AxisBoundary, memAddress, idFits, Loads]; decide +kernel)

theorem witness_DutyDeadlineFreezes :
    (let g : Fin 4 := 0
     let t : Nat := 74500
     let s : State := modPa 0 (fun p => { p with mark := true, shadow := p.shadow.set 1 5#32 }) (running 0 (inMode mRun))
     let j : Fin 4 := 0
     let x := axOf g j
     (afterPb s g t (gT s g / 2 + gT s g - 500) = true) ∧
     (s.pwmA[x].mark = true)) ∧
    (let g : Fin 4 := 0
     let t : Nat := 74500
     let s : State := aw (running 0 (inMode mRun)) .loop 0 0 1#32
     let j : Fin 4 := 0
     let x := axOf g j
     (afterPb s g t (gT s g / 2 + gT s g - 500) = true) ∧
     (s.pwmA[x].mark = false ∧ counted s x = true ∧ s.helm.bootLeft ≤ t + 500 - gT s g)) := by
  refine ⟨?_, ?_⟩ <;> (dsimp only [Performs, MoverPoint, AxisBoundary, memAddress, idFits, Loads]; decide +kernel)

theorem witness_LateDutiesStopTheGroup :
    (let g : Fin 4 := 0
     let s : State := modPa 0 (fun p => { p with miss := 2 }) readyRun
     ((grpAxes g).any (fun a => decide (2 ≤ s.pwmA[a].miss) && axActive s a) = true)) ∧
    (let g : Fin 4 := 0
     let s : State := modPa 0 (fun p => { p with wd := 3 }) (aw readyRun .pwm 16 0xC 3#32)
     let x : Fin 16 := 0
     (bit (br s .pwm 0) (24 + g.val) = false) ∧
     (wdLim s g ≠ 0) ∧
     ((grpAxes g).find? (fun a => decide (wdLim s g ≤ s.pwmA[a].wd)) = some x) ∧
     (grpActive s g = true)) := by
  refine ⟨?_, ?_⟩ <;> (dsimp only [Performs, MoverPoint, AxisBoundary, memAddress, idFits, Loads]; decide +kernel)

theorem witness_PwmForceAndTrips :
    (let v : Word := 0x155#32
     let s : State := inMode mService
     (mode s = mService ∧ forceBad v = false)) ∧
    (let v : Word := 3#32
     let s : State := inMode mService
     (mode s = mService ∧ forceBad v = true)) ∧
    (let s : State := inMode mRun
     (mode s ≠ mService)) ∧
    (let v : Word := 0x20#32
     let u : Fin 20 := 5
     let s : State := bw (inMode mRun) .pwm 0 0x20#32
     (bit v u.val = true) ∧
     (latched s u = true) ∧
     (srcOn s u = false)) ∧
    (let v : Word := 0x20#32
     let u : Fin 20 := 5
     let s : State := bw (bw (inMode mRun) .pwm 0 0x20#32) .pwm 0x24 0x20#32
     (bit v u.val = true) ∧
     (latched s u = true) ∧
     (srcOn s u = true)) ∧
    (let u : Fin 20 := 5
     let held : Nat := 2
     let s : State := aw (inMode mRun) .pwm 5 0x10 0x203#32
     (held < fld (tripCfg s u) 0 8)) ∧
    (let u : Fin 20 := 5
     let v : Bool := true
     let held : Nat := 3
     let s : State := aw (inMode mRun) .pwm 5 0x10 0x203#32
     (fld (tripCfg s u) 0 8 ≤ held ∧ bit (tripCfg s u) 9 = true ∧ v ≠ bit (tripCfg s u) 8 ∧ mode s ≠ mSleep ∧ mode s ≠ mBoot ∧ acting s u = false ∧ latched s u = false ∧ tcnt s u = fld (tripCfg s u) 16 8)) ∧
    (let u : Fin 20 := 17
     let v : Bool := false
     let held : Nat := 0
     let s : State := aw (inMode mRun) .pwm 17 8 0x300#32
     (fld (tripCfg s u) 0 8 ≤ held ∧ bit (tripCfg s u) 9 = true ∧ v ≠ bit (tripCfg s u) 8 ∧ mode s ≠ mSleep ∧ mode s ≠ mBoot ∧ acting s u = false ∧ latched s u = false ∧ tcnt s u = fld (tripCfg s u) 16 8)) := by
  refine ⟨?_, ?_, ?_, ?_, ?_, ?_, ?_, ?_⟩ <;> (dsimp only [Performs, MoverPoint, AxisBoundary, memAddress, idFits, Loads]; decide +kernel)

theorem witness_DriveFrames :
    (let s : State := modDrv (fun d => { d with locked := true }) (inMode mRun)
     let bytes : List Byte := schedBytes { rel := true, forced := false, seq := 0, pidx := 0, slots := List.replicate 16 recOff }
     let up := hasDrive s = true ∧ s.drv.lost = false ∧ s.drv.locked = true
     (up ∧ frameOk 1 213 bytes = true)) ∧
    (let s : State := modDrv (fun d => { d with locked := true }) (inMode mRun)
     let bytes : List Byte := [1]
     let up := hasDrive s = true ∧ s.drv.lost = false ∧ s.drv.locked = true
     (up ∧ frameOk 1 213 bytes = false)) ∧
    (let s : State := inMode mRun
     let up := hasDrive s = true ∧ s.drv.lost = false ∧ s.drv.locked = true
     (¬up)) ∧
    (let s : State := modDrv (fun d => { d with locked := true }) (inMode mRun)
     let bytes : List Byte := withCrc8 (3#8 :: List.replicate 51 0#8)
     let up := hasDrive s = true ∧ s.drv.lost = false ∧ s.drv.locked = true
     (up ∧ frameOk 3 53 bytes = true)) ∧
    (let s : State := modDrv (fun d => { d with locked := true }) (inMode mRun)
     let bytes : List Byte := [1]
     let up := hasDrive s = true ∧ s.drv.lost = false ∧ s.drv.locked = true
     (up ∧ frameOk 3 53 bytes = false)) ∧
    (let s : State := modDrv (fun d => { d with locked := true }) (inMode mRun)
     let bytes : List Byte := withCrc8 (4#8 :: List.replicate 3 0#8)
     let up := hasDrive s = true ∧ s.drv.lost = false ∧ s.drv.locked = true
     (up ∧ gOn s 0 = false ∧ frameOk 4 5 bytes = true)) ∧
    (let s : State := modDrv (fun d => { d with locked := true }) (inMode mRun)
     let bytes : List Byte := [1]
     let up := hasDrive s = true ∧ s.drv.lost = false ∧ s.drv.locked = true
     (up ∧ gOn s 0 = false ∧ frameOk 4 5 bytes = false)) ∧
    (let s : State := modDrv (fun d => { d with locked := true }) (inMode mRun)
     let bytes : List Byte := withCrc8 (8#8 :: List.replicate 34 0#8)
     (hasDrive s = true ∧ frameOk 8 36 bytes = true)) ∧
    (let bytes : List Byte := [1]
     (frameOk 8 36 bytes = false)) ∧
    (let s : State := modDrv (fun d => { d with locked := true }) (inMode mRun)
     let bytes : List Byte := offBytes 5 0x11
     let copy : List Byte := offBytes 5 0x11
     let up := hasDrive s = true ∧ s.drv.lost = false ∧ s.drv.locked = true
     (up ∧ offOk bytes = true ∧ offOk copy = true)) ∧
    (let s : State := modDrv (fun d => { d with locked := true }) (inMode mRun)
     let bytes : List Byte := [1]
     let copy : List Byte := offBytes 5 2
     let up := hasDrive s = true ∧ s.drv.lost = false ∧ s.drv.locked = true
     let c := if offOk bytes then bytes else copy
     (up ∧ offOk bytes = false ∧ offOk c = true)) ∧
    (let s : State := modDrv (fun d => { d with locked := true }) (inMode mRun)
     let bytes : List Byte := [1]
     let copy : List Byte := [2]
     let up := hasDrive s = true ∧ s.drv.lost = false ∧ s.drv.locked = true
     let c := if offOk bytes then bytes else copy
     (up ∧ offOk c = false)) := by
  refine ⟨?_, ?_, ?_, ?_, ?_, ?_, ?_, ?_, ?_, ?_, ?_, ?_⟩ <;> (dsimp only [Performs, MoverPoint, AxisBoundary, memAddress, idFits, Loads]; decide +kernel)

theorem witness_DriveLink :
    (let s : State := inMode mRun
     (s.drv.locked = false ∧ mode s ≠ mBoot)) ∧
    (let s : State := State.reset
     (hasDrive s = true ∧ s.drv.locked = false ∧ mode s = mBoot)) ∧
    (let s : State := modDrv (fun d => { d with locked := true }) readyRun
     let clock : Bool := true
     (hasDrive s = true ∧ s.drv.locked = true ∧ s.drv.lost = false ∧ clock = true ∧ grpActive s 0 = true)) ∧
    (let t : Nat := 30000
     let s : State := modDrv (fun d => { d with locked := true }) readyRun
     (s.drv.locked = true ∧ s.drv.lost = false ∧ gOn s 0 = false ∧ s.drv.idleAt + 30000 ≤ t)) ∧
    (let t : Nat := 29999
     let s : State := modDrv (fun d => { d with locked := true }) readyRun
     (t < s.drv.idleAt + 30000)) := by
  refine ⟨?_, ?_, ?_, ?_, ?_⟩ <;> (dsimp only [Performs, MoverPoint, AxisBoundary, memAddress, idFits, Loads]; decide +kernel)

theorem witness_DriveProtection :
    (let t : Nat := 5
     let s : State := modDrv (fun d => { d with enabled := true, replay := List.replicate 16 { recOff with sth := true } }) (aw (aw (aw readyRun .drv 0 0 0xFF#32) .drv 0 8 0xF#32) .drv 0 4 0#32)
     let die := hasDrive s = true
     let x : Fin 4 := 0
     let b : Fin 8 := 0
     let mv : Nat := 501
     let dur : Nat := 40
     (die ∧ desatSeen s x b mv dur t = true ∧ s.drv.dsCnt[x][b] = fld (ar s .drv x.val 4) 0 4 ∧ Nat.testBit s.drv.dsLat[x] b.val = false ∧ grpActive s 0 = true)) ∧
    (let t : Nat := 5
     let s : State := modDrv (fun d => { d with enabled := true, replay := List.replicate 16 { recOff with sth := true } }) (aw (aw (aw readyRun .drv 0 0 0xFF#32) .drv 0 8 0xF#32) .drv 0 4 0#32)
     let x : Fin 4 := 0
     let b : Fin 8 := 0
     let mv : Nat := 500
     let dur : Nat := 40
     (desatSeen s x b mv dur t = false)) ∧
    (let t : Nat := 5
     let s : State := modDrv (fun d => { d with enabled := true, replay := List.replicate 16 { recOff with sth := true } }) (aw (aw (aw readyRun .drv 0 0 0xFF#32) .drv 0 8 0xF#32) .drv 0 4 0#32)
     let die := hasDrive s = true
     let x : Fin 4 := 0
     let k : Fin 4 := 1
     let mv : Nat := 5999
     let dur : Nat := 200
     (die ∧ bit (ar s .drv x.val 8) k.val = true ∧ mv < 6000 + 250 * fld (ar s .drv x.val 8) 8 4 ∧ 200 ≤ dur ∧ drvSwitch s x ⟨2 * k.val, by omega⟩ t = true)) ∧
    (let s : State := modDrv (fun d => { d with enabled := true, replay := List.replicate 16 { recOff with sth := true } }) (aw (aw (aw readyRun .drv 0 0 0xFF#32) .drv 0 8 0xF#32) .drv 0 4 0#32)
     let x : Fin 4 := 0
     let mv : Nat := 6000
     (6000 + 250 * fld (ar s .drv x.val 8) 8 4 ≤ mv)) ∧
    (let t : Nat := 5
     let s : State := modDrv (fun d => { d with pre := d.pre.set 0 1 }) (seqOf .enabling (aw (aw readyRun .drv 0 0 0xFF#32) .drv 0 8 0xF#32))
     let die := hasDrive s = true
     let x : Fin 4 := 0
     let volts : List Nat := [80, 80, 80, 80]
     let c := ar s .drv x.val 8
     let low := fun (k : Fin 4) => bit c k.val = true ∧ 4 * volts.getD k.val 0 < 240 + 10 * fld c 8 4 + 10 * (fld c 12 2 + 1)
     let ends := s.ax[ax4 x].seq = .enabling ∧ s.drv.pre[x] = 1 ∧ s.drv.preAt[x] + 1000 * fld c 16 16 ≤ t
     (die ∧ ends ∧ (∀ k, ¬ low k))) ∧
    (let t : Nat := 5
     let s : State := modDrv (fun d => { d with pre := d.pre.set 0 1 }) (seqOf .enabling (aw (aw readyRun .drv 0 0 0xFF#32) .drv 0 8 0xF#32))
     let die := hasDrive s = true
     let x : Fin 4 := 0
     let volts : List Nat := [62, 63, 62, 62]
     let c := ar s .drv x.val 8
     let low := fun (k : Fin 4) => bit c k.val = true ∧ 4 * volts.getD k.val 0 < 240 + 10 * fld c 8 4 + 10 * (fld c 12 2 + 1)
     let ends := s.ax[ax4 x].seq = .enabling ∧ s.drv.pre[x] = 1 ∧ s.drv.preAt[x] + 1000 * fld c 16 16 ≤ t
     (die ∧ ends ∧ (∃ k, low k))) ∧
    (let t : Nat := 5
     let s : State := aw (aw readyRun .drv 0 0 0xFF#32) .drv 0 8 0xF#32
     let x : Fin 4 := 0
     let c := ar s .drv x.val 8
     let ends := s.ax[ax4 x].seq = .enabling ∧ s.drv.pre[x] = 1 ∧ s.drv.preAt[x] + 1000 * fld c 16 16 ≤ t
     (¬ends)) ∧
    (let s : State := aw (aw readyRun .drv 0 0 0xFF#32) .drv 0 8 0xF#32
     let v : Word := 1#32
     (bit v 0 = true ∧ s.drv.vgd = 0)) ∧
    (let s : State := aw (aw readyRun .drv 0 0 0xFF#32) .drv 0 8 0xF#32
     let v : Word := 0#32
     (bit v 0 = false ∧ grpTq s 0 = false)) ∧
    (let s : State := modDrv (fun d => { d with rbOn := true }) (aw (aw readyRun .drv 0 0 0xFF#32) .drv 0 8 0xF#32)
     let die := hasDrive s = true
     let dv : Nat := 79
     let dur : Nat := 10000
     (die ∧ s.drv.rbOn = true ∧ dv < 80 ∧ 10000 ≤ dur)) ∧
    (let dv : Nat := 80
     (80 ≤ dv)) ∧
    (let dur : Nat := 9999
     (dur < 10000)) := by
  refine ⟨?_, ?_, ?_, ?_, ?_, ?_, ?_, ?_, ?_, ?_, ?_, ?_⟩ <;> (dsimp only [Performs, MoverPoint, AxisBoundary, memAddress, idFits, Loads]; decide +kernel)

theorem witness_StartAdmission :
    (let t : Nat := 10000
     let s : State := modAdm (fun a => { a with raised := [{ src := 17, cost := 100, settle := 1000, tmo := 5000, t0 := 10000 }] }) (inMode mRun)
     let r : AdmReq := { src := 17, cost := 100, settle := 1000, tmo := 5000, t0 := 10000 }
     let alive := s.adm.held.filter (fun g => decide (t < g.until_))
     let used := (alive.map (·.cost)).foldl (· + ·) 0
     let budget := fld (br s .pmu 0x20) 0 16
     (t % 10000 = 0) ∧
     (s.adm.queue = []) ∧
     (s.adm.raised = [r]) ∧
     (fld (br s .pmu 0x10) 0 16 = 0) ∧
     ((r.tmo = 0 ∨ t < r.t0 + r.tmo)) ∧
     (budget = 0 ∨ used + r.cost ≤ budget ∨ used = 0)) ∧
    (let t : Nat := 10000
     let s : State := modAdm (fun a => { a with raised := [{ src := 17, cost := 100, settle := 1000, tmo := 5000, t0 := 10000 }], held := [{ src := 16, cost := 50, until_ := 20000 }] }) (bw (inMode mRun) .pmu 0x20 100#32)
     let r : AdmReq := { src := 17, cost := 100, settle := 1000, tmo := 5000, t0 := 10000 }
     let alive := s.adm.held.filter (fun g => decide (t < g.until_))
     let used := (alive.map (·.cost)).foldl (· + ·) 0
     let budget := fld (br s .pmu 0x20) 0 16
     (t % 10000 = 0) ∧
     (s.adm.queue = []) ∧
     (s.adm.raised = [r]) ∧
     (fld (br s .pmu 0x10) 0 16 = 0) ∧
     ((r.tmo = 0 ∨ t < r.t0 + r.tmo)) ∧
     (budget ≠ 0 ∧ budget < used + r.cost ∧ used ≠ 0)) ∧
    (let t : Nat := 20000
     let s : State := modAdm (fun a => { a with queue := [{ src := 17, cost := 100, settle := 1000, tmo := 5000, t0 := 10000 }] }) (inMode mRun)
     let r : AdmReq := { src := 17, cost := 100, settle := 1000, tmo := 5000, t0 := 10000 }
     let x : Fin 16 := 1
     (s.adm.queue = [r]) ∧
     (s.adm.raised = []) ∧
     (r.src = srcAx x) ∧
     (r.tmo ≠ 0) ∧
     (r.t0 + r.tmo ≤ t)) := by
  refine ⟨?_, ?_, ?_⟩ <;> (dsimp only [Performs, MoverPoint, AxisBoundary, memAddress, idFits, Loads]; decide +kernel)

theorem witness_RingOperation :
    (let s : State := modAdm (fun a => { a with islands := 32 }) State.reset
     let p : Fin 2 := 1
     (canTrain s = true) ∧
     (mode s ≠ mSleep) ∧
     (p = 1 ∧ s.ring.stage = 0)) ∧
    (let s : State := bw State.reset .ring 0 0x40#32
     let p : Fin 2 := 0
     (canTrain s = true) ∧
     (mode s ≠ mSleep) ∧
     (p ≠ 1 ∧ s.ring.stage = 0 ∧ bit (br s .ring 0) (6 - p.val) = true)) ∧
    (let s : State := ringStart 2#32 1
     let devs : List RingDev := [{ slot := 64, npts := 0, tr := 1000000, heal := false }, { slot := 64, npts := 0, tr := 1000000, heal := false }]
     (ringBoot s = true) ∧
     (s.ring.stage = 1) ∧
     (isMaster s = true) ∧
     ((fld (ar s .ring 0 8) 0 13 = 0 ∨ fld (ar s .ring 0 8) 0 13 = devs.length)) ∧
     ((∀ d ∈ devs, d.tr = trOf s)) ∧
     (minTR 48 devs ≤ trOf s) ∧
     ((devs.any (·.heal) = true → minTR 96 devs ≤ trOf s))) ∧
    (let s : State := ringStart 0#32 1
     let addr : Nat := 0
     let d : RingDev := { slot := 64, npts := 0, tr := 1000000, heal := false }
     (ringBoot s = true) ∧
     (s.ring.stage = 1) ∧
     (isMaster s = false) ∧
     (addr < 4095) ∧
     (d.tr = trOf s)) ∧
    (let s : State := ringStart 0#32 2
     (ringBoot s = true) ∧
     (s.ring.stage = 2) ∧
     (isMaster s = false)) ∧
    (let t : Nat := 7000000
     let s : State := modRing (fun r => { r with rw0 := 7000000 }) (ringStart 2#32 3)
     (ringBoot s = true) ∧
     (s.ring.stage = 3) ∧
     (t = s.ring.rw0)) ∧
    (let t : Nat := 5000000
     let s : State := ringStart 2#32 1
     (ringBoot s = true) ∧
     (s.ring.stage < 4) ∧
     (fld (ar s .ring 0 0xC) 16 16 ≠ 0) ∧
     (s.boot.t0 + fld (ar s .ring 0 0xC) 16 16 * 1000000 ≤ t)) ∧
    (let t : Nat := 2000000
     let s : State := ringRun 3#32
     (s.ring.stage = 4) ∧
     (mode s ≠ mSleep) ∧
     (isMaster s = true) ∧
     (trOf s ≠ 0) ∧
     (t % trOf s = 0) ∧
     (¬(bit (br s .ring 0) 4 = true ∧ bit (br s .ring 0) 2 = true))) ∧
    (let s : State := ringRun 0x1001#32
     let f : RingFrame := headSum { j := 5, back := false, fold := false, unfold := false, wave := false, tM := 1, tw := 0, crc := 0#32, slots := (List.range 3).map emptySlot, mail := [] }
     (s.ring.stage = 4) ∧
     (mode s ≠ mSleep) ∧
     (isMaster s = false) ∧
     (frozen s 6 = false) ∧
     (ringUp s = true) ∧
     (headOk f = true)) ∧
    (let s : State := ringRun 0x1001#32
     let f : RingFrame := headSum { j := 5, back := true, fold := false, unfold := false, wave := false, tM := 1, tw := 0, crc := 0#32, slots := (List.range 3).map emptySlot, mail := [] }
     (s.ring.stage = 4) ∧
     (mode s ≠ mSleep) ∧
     (isMaster s = false) ∧
     (frozen s 6 = false) ∧
     (ringUp s = true) ∧
     (headOk f = true)) ∧
    (let s : State := modRing (fun r => { r with badU := 3 }) (ringRun 0x1061#32)
     let p : Fin 2 := 0
     let f : RingFrame := { j := 5, back := false, fold := false, unfold := false, wave := false, tM := 1, tw := 0, crc := 0#32, slots := (List.range 3).map emptySlot, mail := [] }
     (s.ring.stage = 4) ∧
     (mode s ≠ mSleep) ∧
     (headOk f = false) ∧
     ((if p.val = 0 then s.ring.badU else s.ring.badD) + 1 = 4)) ∧
    (let s : State := modRing (fun r => { r with badD := 3 }) (ringRun 0x1061#32)
     let p : Fin 2 := 1
     let f : RingFrame := { j := 5, back := false, fold := false, unfold := false, wave := false, tM := 1, tw := 0, crc := 0#32, slots := (List.range 3).map emptySlot, mail := [] }
     (s.ring.stage = 4) ∧
     (mode s ≠ mSleep) ∧
     (headOk f = false) ∧
     ((if p.val = 0 then s.ring.badU else s.ring.badD) + 1 = 4)) ∧
    (let t : Nat := 2000000
     let s : State := ringRun 0x1001#32
     (s.ring.stage = 4) ∧
     (mode s ≠ mSleep) ∧
     (trOf s ≠ 0) ∧
     (t % trOf s = 0) ∧
     (s.ring.cfgAt < t) ∧
     (s.ring.hdr = false)) ∧
    (let s : State := holding 6 [[item 0x00010002#32 false, item 9#32 true]] (modRing (fun r => { r with mcfg := 0x00040101#32 }) (ringRun 0x1001#32))
     let i0 : QItem := item 0x00010002#32 false
     let i1 : QItem := item 9#32 true
     (ringUp s = true) ∧
     (frozen s 6 = false) ∧
     (qCap s 6 ≠ 0) ∧
     ((s.queues[(6 : Fin 64)]).rest = []) ∧
     ((s.queues[(6 : Fin 64)]).pkts = [[i0, i1]]) ∧
     (i0.fin = false) ∧
     (i1.fin = true) ∧
     (i0.place ≠ .spill) ∧
     (i1.place ≠ .spill) ∧
     (fld i0.word 16 6 = 1) ∧
     (bit i0.word 12 = false) ∧
     (fld i0.word 13 3 < 2) ∧
     (fld i0.word 0 12 < ringCount s) ∧
     (fld i0.word 0 12 ≠ ownAddr s) ∧
     (12 ≤ mboxBytes s)) ∧
    (let s : State := ringRun 0x0007#32
     (isMaster s = true ∧ bit (br s .ring 0) 2 = true)) ∧
    (let s : State := modRing (fun r => { r with noHdr := 2 }) (ringRun 0x1009#32)
     (s.ring.stage = 4) ∧
     (rlostN s < s.ring.noHdr) ∧
     (s.ring.lost = false) ∧
     (isMaster s = false)) ∧
    (let s : State := modRing (fun r => { r with unused := [(2, 2)] }) (ringRun 0x1001#32)
     let a : BitVec 12 := 2
     (s.ring.stage = 4) ∧
     (frozen s 6 = false) ∧
     (a.toNat < ringCount s) ∧
     (a.toNat ≠ ownAddr s) ∧
     (staleN s < sget (fun _ => 0) s.ring.unused a.toNat) ∧
     (bit (pt s (4880 + a.toNat / 32)) (a.toNat % 32) = false)) ∧
    (let s : State := modRing (fun r => { r with okRun := 64 }) (ringRun 0x1001#32)
     (64 ≤ s.ring.okRun) ∧
     (isMaster s = false) ∧
     (ringUp s = true)) ∧
    (let s : State := modRing (fun r => { r with badRun := 8 }) (ringRun 0x1009#32)
     (8 ≤ s.ring.badRun) ∧
     (bit (br s .ring 0) 3 = true)) := by
  refine ⟨?_, ?_, ?_, ?_, ?_, ?_, ?_, ?_, ?_, ?_, ?_, ?_, ?_, ?_, ?_, ?_, ?_, ?_, ?_⟩ <;> (dsimp only [Performs, MoverPoint, AxisBoundary, memAddress, idFits, Loads]; decide +kernel)

theorem witness_CanFramesAndStates :
    (let c : Fin 2 := 0
     let s : State := aw (plainPt 8192 (plainPt 8193 (plainPt 8194 (plainPt 8195 (plainPt 8196 (plainPt 8197 (open_ 7 (canUp 0x00080001#32 0x123#32 8192#32 (inMode mRun))))))))) .can0 1 8 0x7FF#32
     let f : CanFrame := { id := 0x123, rtr := false, xtd := false, fdf := false, brs := false, esi := false, dlc := 8, data := (List.range 8).map (fun k => BitVec.ofNat 8 k), sof := 99 }
     let o : Nat := 0
     let b := pbase (objAt s c f.sof o 3)
     let len := cfgLen (objAt s c f.sof o 0)
     (canOn s c = true) ∧
     (f.rtr = false) ∧
     ((List.range 128).find? (objTakes s c f) = some o) ∧
     (frozen s (cm c) = false) ∧
     (8192 ≤ b) ∧
     ((∀ k, k < 4 + dataPts len → MoverPoint s (cm c) (b + k)))) ∧
    (let c : Fin 2 := 0
     let s : State := aw (plainPt 8192 (plainPt 8193 (plainPt 8194 (plainPt 8195 (plainPt 8196 (plainPt 8197 (open_ 7 (canUp 0x00080001#32 0x123#32 8192#32 (inMode mRun))))))))) .can0 1 8 0x7FF#32
     let f : CanFrame := { id := 0x123, rtr := true, xtd := false, fdf := false, brs := false, esi := false, dlc := 8, data := (List.range 8).map (fun k => BitVec.ofNat 8 k), sof := 99 }
     (canOn s c = true) ∧
     (f.rtr = true ∨ (List.range 128).find? (objTakes s c f) = none)) ∧
    (let c : Fin 2 := 0
     let s : State := modCan 0 (fun x => { x with pend := [0] }) (setPt (setPt (plainPt 8192 (plainPt 8193 (plainPt 8194 (plainPt 8195 (plainPt 8196 (plainPt 8197 (open_ 7 (canUp 0x00080402#32 0x123#32 8192#32 (inMode mRun))))))))) 8192 2#32) 8196 7#32)
     let o : Nat := 0
     let b := pbase (objW s c o 3)
     (canOn s c = true) ∧
     (frozen s (cm c) = false) ∧
     (br s (cb c) 0x10 = 0#32) ∧
     (firstPkt s c = none) ∧
     (bestObj s c = some o) ∧
     (seqAt s b % 2 = 0) ∧
     ((∀ k, k < 4 + dataPts (cfgLen (objW s c o 0)) → Performs s (cm c) kRead (ptAddr (b + k))))) ∧
    (let c : Fin 2 := 0
     let s : State := modCan 0 (fun x => { x with busy := true, tx := some { obj := some 0, seq := 2, info := 0x123#32, notify := false, prio := 0, tag := 2, data := [] }, pend := [0] }) (bw (plainPt 8192 (plainPt 8193 (plainPt 8194 (plainPt 8195 (plainPt 8196 (plainPt 8197 (open_ 7 (canUp 0x00080402#32 0x123#32 8192#32 (inMode mRun))))))))) .can0 4 9#32)
     let x : CanTx := { obj := some 0, seq := 2, info := 0x123#32, notify := false, prio := 0, tag := 2, data := [] }
     let o : Nat := 0
     let b := pbase (objW s c o 3)
     (s.can[c].tx = some x) ∧
     (x.obj = some o) ∧
     ((∀ k, k < 3 → MoverPoint s (cm c) (b + 1 + k))) ∧
     (8192 ≤ b)) ∧
    (let c : Fin 2 := 0
     let s : State := modCan 0 (fun x => { x with busy := true, tx := some { obj := some 0, seq := 2, info := 0x123#32, notify := false, prio := 0, tag := 2, data := [] }, pend := [0] }) (bw (setPt (plainPt 8192 (plainPt 8193 (plainPt 8194 (plainPt 8195 (plainPt 8196 (plainPt 8197 (open_ 7 (canUp 0x00080402#32 0x123#32 8192#32 (inMode mRun))))))))) 8192 2#32) .can0 4 9#32)
     let x : CanTx := { obj := some 0, seq := 2, info := 0x123#32, notify := false, prio := 0, tag := 2, data := [] }
     let o : Nat := 0
     let b := pbase (objW s c o 3)
     (s.can[c].tx = some x) ∧
     (x.obj = some o) ∧
     ((∀ k, k < 3 → MoverPoint s (cm c) (b + 1 + k))) ∧
     (8192 ≤ b)) ∧
    (let c : Fin 2 := 0
     let s : State := aw (plainPt 8192 (plainPt 8193 (plainPt 8194 (plainPt 8195 (plainPt 8196 (plainPt 8197 (open_ 7 (canUp 0x00080001#32 0x123#32 8192#32 (inMode mRun))))))))) .can0 1 8 0x7FF#32
     (canOn s c = true)) ∧
    (let c : Fin 2 := 0
     let t : Nat := 2000000
     let s : State := canUp 0x00280202#32 0#32 8192#32 (inMode mRun)
     let o : Nat := 0
     (o < 128) ∧
     (cfgDir (objW s c o 0) = 2) ∧
     (fld (objW s c o 0) 9 2 = 1) ∧
     (fld (objW s c o 0) 20 12 ≠ 0) ∧
     (t % (fld (objW s c o 0) 20 12 * 1000000) = 0)) ∧
    (let c : Fin 2 := 0
     let s : State := canUp 0x00080002#32 0#32 8192#32 (inMode mRun)
     let ctrl := Performs s
     let m : Fin 10 := 0
     let k : Fin 4 := 0
     let v : Word := 1#32
     let b : Nat := 0
     (ctrl m.val kWrite (bAddr (cb c) (0x30 + 4 * k.val))) ∧
     (b < 32) ∧
     (bit v b = true) ∧
     (cfgDir (objW s c (32 * k.val + b) 0) = 2) ∧
     (fld (objW s c (32 * k.val + b) 0) 9 2 = 0)) ∧
    (let c : Fin 2 := 0
     let s : State := canUp 0#32 0#32 0#32 (inMode mRun)
     let ctrl := Performs s
     let m : Fin 10 := 0
     (ctrl m.val kWrite (bAddr (cb c) 8)) ∧
     (canState s c ≠ 3) ∧
     (s.can[c].busy = false)) ∧
    (let c : Fin 2 := 0
     let s : State := bw (inMode mRun) .can0 8 1#32
     let ctrl := Performs s
     let m : Fin 10 := 0
     (ctrl m.val kWrite (bAddr (cb c) 8)) ∧
     (canState s c = 0) ∧
     (canStb s c = false)) ∧
    (let c : Fin 2 := 0
     let s : State := bw (inMode mRun) .can0 0 3#32
     let ctrl := Performs s
     let m : Fin 10 := 0
     (ctrl m.val kWrite (bAddr (cb c) 8)) ∧
     (canState s c = 3)) ∧
    (let c : Fin 2 := 0
     let s : State := canUp 0#32 0#32 0#32 (inMode mRun)
     let ctrl := Performs s
     let m : Fin 10 := 0
     (ctrl m.val kWrite (bAddr (cb c) 8)) ∧
     (canState s c ≠ 3 ∧ s.can[c].busy = false)) ∧
    (let c : Fin 2 := 0
     let s : State := bw (inMode mRun) .can0 8 4#32
     let ctrl := Performs s
     let m : Fin 10 := 0
     (ctrl m.val kWrite (bAddr (cb c) 8))) ∧
    (let c : Fin 2 := 0
     let s : State := modCan 0 (fun x => { x with initDue := true }) (canUp 0#32 0#32 0#32 (inMode mRun))
     (s.can[c].initDue = true)) ∧
    (let c : Fin 2 := 0
     let s : State := modCan 0 (fun x => { x with joining := true }) (inMode mRun)
     (s.can[c].joining = true)) ∧
    (let c : Fin 2 := 0
     let s : State := bw (bw (inMode mRun) .can0 0 7#32) .can0 4 0xFF#32
     (canState s c = 3) ∧
     (bit (br s (cb c) 0) 2 = true) ∧
     (canStb s c = false)) := by
  refine ⟨?_, ?_, ?_, ?_, ?_, ?_, ?_, ?_, ?_, ?_, ?_, ?_, ?_, ?_, ?_, ?_⟩ <;> (dsimp only [Performs, MoverPoint, AxisBoundary, memAddress, idFits, Loads]; decide +kernel)

theorem witness_FieldInputs :
    (let s : State := bw (inMode mRun) .fio 0 1#32
     let dv : Nat := 240
     let bytes : List Byte := withCrc8 [1, 2, 3]
     (fioUp s = true ∧ crc8Ok bytes.length bytes = true ∧ vNext s.fio.vstate dv ≠ 1)) ∧
    (let s : State := bw (inMode mRun) .fio 0 1#32
     let dv : Nat := 100
     let bytes : List Byte := withCrc8 [1, 2, 3]
     (fioUp s = true ∧ crc8Ok bytes.length bytes = true ∧ vNext s.fio.vstate dv = 1 ∧ s.fio.vstate = 0)) ∧
    (let s : State := modFio (fun x => { x with missUp := 2 }) (bw (inMode mRun) .fio 0 1#32)
     let bytes : List Byte := [1]
     (fioUp s = true ∧ crc8Ok bytes.length bytes = false ∧ s.fio.missUp = 2 ∧ bit (br s .fio 0) 1 = false)) ∧
    (let s : State := inMode mRun
     (fioUp s = false)) ∧
    (let s : State := modFio (fun x => { x with missUp := 2 }) (bw (inMode mRun) .fio 0 1#32)
     (s.fio.missUp = 2 ∧ bit (br s .fio 0) 1 = false)) ∧
    (let t : Nat := 10000000
     let s : State := modFio (fun x => { x with goodSince := some 0, settled := false }) (bw (inMode mRun) .fio 0 1#32)
     (s.fio.goodSince = some 0 ∧ 10000000 ≤ t)) ∧
    (let t : Nat := 9999999
     let s : State := modFio (fun x => { x with goodSince := some 0, settled := false }) (bw (inMode mRun) .fio 0 1#32)
     (s.fio.goodSince = some 0 ∧ t < 10000000)) ∧
    (let s : State := aw (bw (inMode mRun) .fio 0 1#32) .fio 3 0 3#32
     let i : Fin 32 := 3
     let samples : List Bool := [true, true, true]
     let k : Nat := 3
     let b : Bool := true
     let f := fld (ar s .fio i.val 0) 0 8
     (mode s ≠ mSleep) ∧
     (samples = List.replicate k b ∧ f ≤ k ∧ 0 < k ∧ s.fio.cnt[i] ≤ f)) ∧
    (let s : State := aw (bw (inMode mRun) .fio 0 1#32) .fio 3 0 3#32
     let i : Fin 32 := 3
     let samples : List Bool := [true, true]
     let k : Nat := 2
     let b : Bool := true
     let f := fld (ar s .fio i.val 0) 0 8
     let on := b != bit (ar s .fio i.val 0) 9
     (mode s ≠ mSleep) ∧
     (samples = List.replicate k b ∧ on = true ∧ s.fio.cnt[i] + k < f)) := by
  refine ⟨?_, ?_, ?_, ?_, ?_, ?_, ?_, ?_, ?_⟩ <;> (dsimp only [Performs, MoverPoint, AxisBoundary, memAddress, idFits, Loads]; decide +kernel)

theorem witness_FieldOutputs :
    (let o : Fin 16 := 2
     let s : State := setPt (modFio (fun x => { x with silent := false }) (bw (inMode mRun) .fio 0 1#32)) 6146 4#32
     (doWant s o = true ∧ s.fio.outs[o] = 0 ∧ fld (ar s .fio (32 + o.val) 4) 0 12 = 0)) ∧
    (let o : Fin 16 := 2
     let s : State := modFio (fun x => { x with silent := false }) (bw (inMode mRun) .fio 0 1#32)
     (doWant s o = false)) ∧
    (let o : Fin 16 := 2
     let s : State := modFio (fun x => { x with outs := x.outs.set 2 2 }) (aw (modFio (fun x => { x with silent := false }) (bw (inMode mRun) .fio 0 1#32)) .fio 34 0 0xF#32)
     let dur : Nat := 1000000
     (doOn s o = true ∧ 1000000 ≤ dur)) ∧
    (let dur : Nat := 999999
     (dur < 1000000)) ∧
    (let o : Fin 16 := 2
     let s : State := modFio (fun x => { x with outs := x.outs.set 2 2 }) (aw (modFio (fun x => { x with silent := false }) (bw (inMode mRun) .fio 0 1#32)) .fio 34 0 0xF#32)
     (doOn s o = true)) ∧
    (let o : Fin 16 := 2
     let s : State := aw (modFio (fun x => { x with silent := false }) (bw (inMode mRun) .fio 0 1#32)) .fio 34 0 0xF#32
     (doOn s o = false)) ∧
    (let o : Fin 16 := 2
     let s : State := modFio (fun x => { x with outs := x.outs.set 2 2 }) (aw (modFio (fun x => { x with silent := false }) (bw (inMode mRun) .fio 0 1#32)) .fio 34 0 0xF#32)
     let cur : Nat := 4
     let dur : Nat := 50000000
     (doOn s o = true ∧ bit (ar s .fio (32 + o.val) 0) 2 = true ∧ cur < 5 ∧ 50000000 ≤ dur)) ∧
    (let cur : Nat := 5
     (5 ≤ cur)) ∧
    (let o : Fin 16 := 2
     let s : State := aw (modFio (fun x => { x with silent := false }) (bw (inMode mRun) .fio 0 1#32)) .fio 34 0 0xF#32
     let dv : Nat := 20
     let dur : Nat := 50000000
     (doOn s o = false ∧ bit (ar s .fio (32 + o.val) 0) 3 = true ∧ 20 ≤ dv ∧ dv ≤ 120 ∧ 50000000 ≤ dur)) ∧
    (let o : Fin 16 := 2
     let s : State := aw (modFio (fun x => { x with silent := false }) (bw (inMode mRun) .fio 0 1#32)) .fio 34 0 0xF#32
     let dv : Nat := 120
     let dur : Nat := 50000000
     (doOn s o = false ∧ bit (ar s .fio (32 + o.val) 0) 3 = true ∧ 20 ≤ dv ∧ dv ≤ 120 ∧ 50000000 ≤ dur)) ∧
    (let dv : Nat := 121
     (120 < dv)) ∧
    (let o : Fin 16 := 2
     let s : State := aw (modFio (fun x => { x with silent := false }) (bw (inMode mRun) .fio 0 1#32)) .fio 34 0 0xF#32
     let dv : Nat := 121
     let dur : Nat := 1000000
     (doOn s o = false ∧ 120 < dv ∧ 1000000 ≤ dur)) ∧
    (let dv : Nat := 120
     (dv ≤ 120)) ∧
    (let o : Fin 16 := 2
     let s : State := iw (modFio (fun x => { x with outs := x.outs.set 2 2 }) (aw (modFio (fun x => { x with silent := false }) (bw (inMode mRun) .fio 0 1#32)) .fio 34 0 0xF#32)) .fio 34 0x240 0xFF#32
     let d : Fin 5 := 0
     let x : Nat := 0
     let dur : Nat := 1000000
     (diagClears s o d x dur = true ∧ d ≠ 1)) ∧
    (let o : Fin 16 := 2
     let s : State := iw (modFio (fun x => { x with silent := false }) (bw (inMode mRun) .fio 0 1#32)) .fio 34 0x240 0xFF#32
     let d : Fin 5 := 1
     let x : Nat := 149
     let dur : Nat := 0
     (diagClears s o d x dur = true ∧ d = 1)) ∧
    (let o : Fin 16 := 2
     let s : State := iw (modFio (fun x => { x with outs := x.outs.set 2 2 }) (aw (modFio (fun x => { x with silent := false }) (bw (inMode mRun) .fio 0 1#32)) .fio 34 0 0xF#32)) .fio 34 0x240 0xFF#32
     let d : Fin 5 := 2
     let x : Nat := 5
     let dur : Nat := 0
     (diagClears s o d x dur = true ∧ d ≠ 1)) ∧
    (let o : Fin 16 := 2
     let s : State := iw (modFio (fun x => { x with outs := x.outs.set 2 2 }) (aw (modFio (fun x => { x with silent := false }) (bw (inMode mRun) .fio 0 1#32)) .fio 34 0 0xF#32)) .fio 34 0x240 0xFF#32
     let d : Fin 5 := 2
     let x : Nat := 4
     let dur : Nat := 100000000
     (diagClears s o d x dur = false)) ∧
    (let o : Fin 16 := 2
     let s : State := iw (aw (modFio (fun x => { x with silent := false }) (bw (inMode mRun) .fio 0 1#32)) .fio 34 0 0xF#32) .fio 34 0x240 0xFF#32
     let d : Fin 5 := 3
     let x : Nat := 19
     let dur : Nat := 0
     (diagClears s o d x dur = true ∧ d ≠ 1)) ∧
    (let o : Fin 16 := 2
     let s : State := iw (aw (modFio (fun x => { x with silent := false }) (bw (inMode mRun) .fio 0 1#32)) .fio 34 0 0xF#32) .fio 34 0x240 0xFF#32
     let d : Fin 5 := 4
     let x : Nat := 119
     let dur : Nat := 1000000
     (diagClears s o d x dur = true ∧ d ≠ 1)) ∧
    (let k : Fin 4 := 1
     let s : State := bw (modFio (fun x => { x with silent := false }) (bw (inMode mRun) .fio 0 1#32)) .safe 0x430 0x10000#32
     let dur : Nat := 1000000
     (tpsOn s k = true ∧ 1000000 ≤ dur)) ∧
    (let k : Fin 4 := 1
     let t : Nat := 100000000
     let s : State := bw (modFio (fun x => { x with silent := false }) (bw (inMode mRun) .fio 0 1#32)) .fio 0 0xF1#32
     (s.fio.tpsAt[k] + 100000000 ≤ t)) ∧
    (let k : Fin 4 := 1
     let t : Nat := 99999999
     let s : State := bw (modFio (fun x => { x with silent := false }) (bw (inMode mRun) .fio 0 1#32)) .fio 0 0xF1#32
     (t < s.fio.tpsAt[k] + 100000000)) := by
  refine ⟨?_, ?_, ?_, ?_, ?_, ?_, ?_, ?_, ?_, ?_, ?_, ?_, ?_, ?_, ?_, ?_, ?_, ?_, ?_, ?_, ?_, ?_⟩ <;> (dsimp only [Performs, MoverPoint, AxisBoundary, memAddress, idFits, Loads]; decide +kernel)

theorem witness_SafetyFaultsApplySto :
    (let g : Fin 4 := 0
     let s : State := modSafe (fun x => { x with offCnt := x.offCnt.set 3 200 }) (bw (bw (noSto (inMode mRun)) .safe 0x404 0xF00#32) .safe 0x418 0x0120#32)
     let k : Fin 8 := 3
     (sActs s = true) ∧
     (bit (safeBlk s (3 + k.val)) 5 = true) ∧
     (bit (br s .safe 4) (8 + k.val) = false) ∧
     (fld (safeBlk s (3 + k.val)) 12 4 + 1 ≤ s.safe.offCnt[k]) ∧
     (bit (safeBlk s (3 + k.val)) (8 + g.val) = true)) ∧
    (let g : Fin 4 := 1
     let s : State := modSafe (fun x => { x with ramps := x.ramps.set 1 (some { ts := 0, v0 := [], still := 256 }) }) (bw (noSto (inMode mRun)) .safe 0x404 0xF00#32)
     let r : Ramp := { ts := 0, v0 := [], still := 256 }
     (s.safe.ramps[g] = some r) ∧
     (fld (safeBlk s (35 + g.val)) 8 8 + 1 ≤ r.still)) ∧
    (let g : Fin 4 := 1
     let s : State := modSafe (fun x => { x with ramps := x.ramps.set 1 (some { ts := 0, v0 := [], still := 0 }) }) (bw (noSto (inMode mRun)) .safe 0x404 0xF00#32)
     let r : Ramp := { ts := 0, v0 := [], still := 0 }
     (s.safe.ramps[g] = some r) ∧
     (4 * fld (safeBlk s (35 + g.val)) 16 16 ≤ s.safe.cyc - r.ts)) ∧
    (let s : State := modSafe (fun x => { x with cyc := 100000 }) (bw (noSto (inMode mRun)) .safe 0x404 0xF00#32)
     (sActs s = true) ∧
     (mode s ≠ mBoot) ∧
     (helmLate s = true)) ∧
    (let s : State := bw (noSto (inMode mRun)) .safe 0x404 0xF00#32
     let lost : Bool := true
     let dev : Nat := 0
     let dur : Nat := 0
     (mode s ≠ mSleep) ∧
     ((lost = true ∨ 50 < dev ∧ 10000 ≤ dur))) ∧
    (let s : State := bw (noSto (inMode mRun)) .safe 0x404 0xF00#32
     let lost : Bool := false
     let dev : Nat := 51
     let dur : Nat := 10000
     (mode s ≠ mSleep) ∧
     ((lost = true ∨ 50 < dev ∧ 10000 ≤ dur))) ∧
    (let s : State := bw (noSto (inMode mRun)) .safe 0x404 0xF00#32
     let w : Fin 128 := 5
     let x : Word := 0x100#32
     (sActs s = true) ∧
     ((let z := bw s .safe (0x400 + 4 * w.val) (safeBlk s w.val ^^^ x); crc32c ((useBlk z).take 127) ≠ safeBlk z 127))) ∧
    (let g : Fin 4 := 1
     let s : State := modSafe (fun x => { x with cyc := 100000 }) (bw (bw (noSto (inMode mRun)) .safe 0x404 0xF00#32) .safe 0x404 0xF00#32)
     let level : Bool := false
     (sActs s = true) ∧
     (bit (safeBlk s 1) (8 + g.val) = true) ∧
     (level = stoOn s g) ∧
     (4 * fld (safeBlk s 2) 8 8 ≤ s.safe.cyc - s.safe.outAt[g])) ∧
    (let s : State := modSafe (fun x => { x with cyc := 100000 }) (bw (noSto (inMode mRun)) .safe 0x404 0xF00#32)
     let level : Bool := true
     (sActs s = true) ∧
     (hasDrive s = true) ∧
     (level ≠ s.drv.enabled) ∧
     (0 < s.safe.cyc - s.safe.outAt[(0 : Fin 4)])) ∧
    (let g : Fin 4 := 1
     let s : State := modSafe (fun x => { x with cyc := 100000, sbcAt := x.sbcAt.set 1 (0, false) }) (bw (bw (bw (bw (bw (noSto (inMode mRun)) .safe 0x404 0xF00#32) .safe 0x4A0 0x000000B0#32) .safe 4 0x02000000#32) .safe 0x4A0 0x00000092#32) .fio 0x28 1#32)
     let lvl : Bool := false
     (sActs s = true) ∧
     (bit (safeBlk s (39 + g.val)) 4 = true) ∧
     (bit (safeBlk s (39 + g.val)) 7 = true) ∧
     (lvl = (s.fio.outs[(Fin.ofNat 16 (fld (safeBlk s (39 + g.val)) 0 4) : Fin 16)] == 2)) ∧
     (s.safe.sbcAt[g].2 = lvl) ∧
     (bit (br s .fio 0x28) (fld (safeBlk s (39 + g.val)) 16 5) ≠ lvl) ∧
     (0 < s.safe.cyc - s.safe.sbcAt[g].1) ∧
     (4 * fld (safeBlk s (39 + g.val)) 24 8 ≤ s.safe.cyc - s.safe.sbcAt[g].1)) ∧
    (let g : Fin 4 := 1
     let s : State := modSafe (fun x => { x with sbcOff := x.sbcOff.set 1 (some 0) }) (bw (bw (bw (bw (noSto (inMode mRun)) .safe 0x404 0xF00#32) .safe 0x4A0 0x000000B0#32) .safe 4 0x02000000#32) .safe 0 0x200F#32)
     let c : Fin 16 := 0
     (s.safe.sbcOff[g] = some c) ∧
     (c ≤ s.safe.cyc) ∧
     ((∀ h : Fin 4, stoOn s h = true))) ∧
    (let g : Fin 4 := 1
     let t : Nat := 5000000
     let s : State := modSafe (fun x => { x with cyc := 100000 }) (modFio (fun x => { x with silent := false, vstate := 0 }) (bw (bw (bw (noSto (inMode mRun)) .safe 0x404 0xF00#32) .safe 0x430 0x10101#32) .fio 0 1#32))
     (pulseMay s g t = true)) ∧
    (let g : Fin 4 := 1
     let t : Nat := 5000000
     let s : State := modFio (fun x => { x with tpsWin := 2#4, tpsFrom := x.tpsFrom.set 1 (some 0) }) (bw (modSafe (fun x => { x with cyc := 100000 }) (modFio (fun x => { x with silent := false, vstate := 0 }) (bw (bw (bw (noSto (inMode mRun)) .safe 0x404 0xF00#32) .safe 0x430 0x10101#32) .fio 0 1#32))) .safe 0x40C 0x60#32)
     (pulseRan s g t = true) ∧
     (tpsOn s g = true) ∧
     (sValid s = true)) := by
  refine ⟨?_, ?_, ?_, ?_, ?_, ?_, ?_, ?_, ?_, ?_, ?_, ?_, ?_⟩ <;> (dsimp only [Performs, MoverPoint, AxisBoundary, memAddress, idFits, Loads]; decide +kernel)

theorem witness_SafetyResetTestsAndEdits :
    (let s : State := bw (noSto (inMode mRun)) .safe 0x404 0xF00#32
     let healthy := (List.range 8).all (fun k => !(bit (br s .safe 4) (8 + k)) || !(sinOff s k)) && s.safe.causes.isEmpty && !s.safe.newDem
     (sValid s = true ∧ healthy = true)) ∧
    (let s : State := bw (inMode mStandby) .safe 0 0x200F#32
     let healthy := (List.range 8).all (fun k => !(bit (br s .safe 4) (8 + k)) || !(sinOff s k)) && s.safe.causes.isEmpty && !s.safe.newDem
     (sValid s = true ∧ healthy = true ∧ s.safe.faults = [] ∧ mode s = mStandby ∧ recovery s = false ∧ s.safe.haltReq = false ∧ s.safe.test = 0#4)) ∧
    (let s : State := inMode mRun
     (sValid s = false)) ∧
    (let s : State := bw (noSto (inMode mRun)) .safe 0x404 0xF00#32
     (mode s ≠ mSleep)) ∧
    (let s : State := modSafe (fun x => { x with sealPin := 1, sealRun := 7 }) (bw (noSto (inMode mRun)) .safe 0x404 0xF00#32)
     (mode s ≠ mSleep)) ∧
    (let g : Fin 4 := 1
     let s : State := noSto (inMode mStandby)
     let m : BitVec 4 := 2
     (m.getLsbD g.val = true) ∧
     (mode s = mStandby) ∧
     ((∀ h x : Fin 4, m.getLsbD h.val = true → shown s (axOf h x) = 0))) ∧
    (let g : Fin 4 := 1
     let s : State := modSafe (fun x => { x with test := 2#4 }) (bw (bw (noSto (inMode mRun)) .safe 0x404 0xF00#32) .safe 0 0x2000#32)
     (s.safe.test.getLsbD g.val = true) ∧
     (s.safe.testEnd ≤ s.safe.cyc) ∧
     (fbGood s g = true)) ∧
    (let s : State := bw (bw (noSto (inMode mRun)) .safe 0x404 0xF00#32) .safe 0x408 0x50000#32
     (sActs s = true) ∧
     (fld (safeBlk s 2) 16 8 ≠ 0)) ∧
    (let s : State := modSafe (fun x => { x with testAge := x.testAge.set 1 72000000 }) (bw (bw (noSto (inMode mRun)) .safe 0x404 0xF00#32) .safe 0x408 0x50000#32)
     (sActs s = true) ∧
     (fld (safeBlk s 2) 16 8 ≠ 0)) ∧
    (let s : State := modSafe (fun x => { x with copy := true }) (bw (inMode mComm) .safe 0 0xA000#32)
     let ctl : Word := 0x00050009#32
     let i := fld ctl 0 7
     (sSeal s = 1) ∧
     (s.safe.copy = true) ∧
     (i ≠ 0) ∧
     (i ≠ 127) ∧
     (s.safe.writing = 0)) ∧
    (let s : State := (putWork (let w := 1#32 :: 0#32 :: 10#32 :: List.replicate 124 0#32; w ++ [crc32c w]) (modSafe (fun x => { x with copy := true }) (bw (inMode mComm) .safe 0 0xA000#32)))
     let v : Word := br (putWork (let w := 1#32 :: 0#32 :: 10#32 :: List.replicate 124 0#32; w ++ [crc32c w]) (modSafe (fun x => { x with copy := true }) (bw (inMode mComm) .safe 0 0xA000#32))) .safe 0x28
     (sSeal s = 1) ∧
     (s.safe.copy = true) ∧
     (s.safe.writing = 0) ∧
     (v = br s .safe 0x28) ∧
     (blkBad (workBlk s) = none)) ∧
    (let s : State := modSafe (fun x => { x with writing := 1, tag := 5 }) (modSafe (fun x => { x with copy := true }) (bw (inMode mComm) .safe 0 0xA000#32))
     (s.safe.writing = 1)) := by
  refine ⟨?_, ?_, ?_, ?_, ?_, ?_, ?_, ?_, ?_, ?_, ?_, ?_⟩ <;> (dsimp only [Performs, MoverPoint, AxisBoundary, memAddress, idFits, Loads]; decide +kernel)

theorem witness_BootAndUpdate :
    (let s : State := State.reset
     let v : BootView := view0
     (mayRelease s = true) ∧
     (tapDrives s = false) ∧
     (idFits (br s .sys 0)) ∧
     (v.romOk = true)) ∧
    (let s : State := wr State.reset (bAddr .sys 0) 0#32
     (mayRelease s = true) ∧
     (tapDrives s = false) ∧
     (¬ idFits (br s .sys 0))) ∧
    (let s : State := modPins (fun p => { p with ir := 3 }) State.reset
     (mayRelease s = true) ∧
     (tapDrives s = true)) ∧
    (let s : State := bw State.reset .boot 0 1#32
     let st : Fin 3 := 1
     (st ≠ 0) ∧
     (mode s = mBoot) ∧
     (stageOf s = 1)) ∧
    (let s : State := bw State.reset .boot 0 1#32
     let code : BitVec 3 := 1
     (s.safe.sealPin ≠ code.toNat ∨ s.safe.sealRun ≠ 8)) ∧
    (let s : State := modSafe (fun x => { x with sealPin := 1, sealRun := 8 }) (bw State.reset .boot 0 1#32)
     let code : BitVec 3 := 2
     (s.safe.sealPin ≠ code.toNat ∨ s.safe.sealRun ≠ 8)) ∧
    (let s : State := modSafe (fun x => { x with sealPin := 1, sealRun := 8 }) (bw State.reset .boot 0 1#32)
     let code : BitVec 3 := 1
     (mode s ≠ mSleep) ∧
     (inReset s = false) ∧
     (s.safe.sealPin = code.toNat) ∧
     (s.safe.sealRun = 8) ∧
     (mode s = mBoot) ∧
     (s.boot.code = none) ∧
     (code ≠ 3#3) ∧
     (code.toNat < 5)) ∧
    (let s : State := modSafe (fun x => { x with sealPin := 4, sealRun := 8 }) (bw State.reset .boot 0 1#32)
     let code : BitVec 3 := 4
     (mode s ≠ mSleep) ∧
     (inReset s = false) ∧
     (s.safe.sealPin = code.toNat) ∧
     (s.safe.sealRun = 8) ∧
     (mode s = mBoot) ∧
     (s.boot.code = none) ∧
     (code ≠ 3#3) ∧
     (code.toNat < 5)) ∧
    (let s : State := modSafe (fun x => { x with sealPin := 3, sealRun := 8 }) (bw State.reset .boot 0 1#32)
     let code : BitVec 3 := 3
     (mode s ≠ mSleep) ∧
     (inReset s = false) ∧
     (s.safe.sealPin = code.toNat) ∧
     (s.safe.sealRun = 8) ∧
     (mode s = mBoot) ∧
     (s.boot.code = none) ∧
     ((code = 3#3 ∨ 5 ≤ code.toNat))) ∧
    (let s : State := modSafe (fun x => { x with sealPin := 5, sealRun := 8 }) (bw State.reset .boot 0 1#32)
     let code : BitVec 3 := 5
     (mode s ≠ mSleep) ∧
     (inReset s = false) ∧
     (s.safe.sealPin = code.toNat) ∧
     (s.safe.sealRun = 8) ∧
     (mode s = mBoot) ∧
     (s.boot.code = none) ∧
     ((code = 3#3 ∨ 5 ≤ code.toNat))) ∧
    (let s : State := modSafe (fun x => { x with sealPin := 0, sealRun := 8 }) (bw (inMode mRun) .boot 0 5#32)
     let code : BitVec 3 := 0
     (mode s ≠ mSleep) ∧
     (inReset s = false) ∧
     (s.safe.sealPin = code.toNat) ∧
     (s.safe.sealRun = 8) ∧
     (mode s ≠ mBoot) ∧
     (code.toNat = sSeal s)) ∧
    (let t : Nat := 5
     let s : State := modBoot (fun b => { b with view := some { view0 with slotA := hdrOf 0x4C (5#32) } }) loadingState
     let h : RecHead := headFor (modBoot (fun b => { b with view := some { view0 with slotA := hdrOf 0x4C (5#32) } }) loadingState) 0xFF 0 []
     let z := stage 3 (readBytes (headRec s 0xFF h []) (atTime t s))
     (loading s = true) ∧
     (h.before = []) ∧
     (recReason (headRec s 0xFF h []) s = 0) ∧
     (endReason z ≠ 0)) ∧
    (let t : Nat := 5
     let s : State := modBoot (fun b => { b with view := some { view0 with slotA := hdrOf 0x4C (crc32 end0) }, block := List.replicate 128 0#32 }) loadingState
     let h : RecHead := headFor (modBoot (fun b => { b with view := some { view0 with slotA := hdrOf 0x4C (crc32 end0) }, block := List.replicate 128 0#32 }) loadingState) 0xFF 0 []
     let z := stage 3 (readBytes (headRec s 0xFF h []) (atTime t s))
     (loading s = true) ∧
     (h.before = []) ∧
     (recReason (headRec s 0xFF h []) s = 0) ∧
     (endReason z = 0)) ∧
    (let s : State := bw (bw (inMode mStandby) .boot 0 5#32) .boot 0x24 0x100000#32
     let len : Word := 0x1000#32
     (s.boot.upd = none) ∧
     (higherWork s = false) ∧
     ((mode s = mStandby ∨ mode s = mRun ∨ mode s = mSafeStop)) ∧
     (frozen s 9 = false) ∧
     (0x48 ≤ len.toNat) ∧
     (len.toNat ≤ (br s .boot 0x24).toNat)) ∧
    (let s : State := bw (bw (inMode mStandby) .boot 0 5#32) .boot 0x24 0x100000#32
     let len : Word := 0x48#32
     (s.boot.upd = none) ∧
     (higherWork s = false) ∧
     ((mode s = mStandby ∨ mode s = mRun ∨ mode s = mSafeStop)) ∧
     (frozen s 9 = false) ∧
     (0x48 ≤ len.toNat) ∧
     (len.toNat ≤ (br s .boot 0x24).toNat)) ∧
    (let s : State := modBoot (fun b => { b with upd := some { len := 0x1000, crc := 9#32, seq := 7, ofs := 0x40, hdr := [], body := [], blocks := 1, last := 0 } }) (bw (bw (inMode mStandby) .boot 0 5#32) .boot 0x24 0x100000#32)
     let u : Upd := { len := 0x1000, crc := 9#32, seq := 7, ofs := 0x40, hdr := [], body := [], blocks := 1, last := 0 }
     let seq : BitVec 16 := 8
     let ofs : Word := 0x40#32
     let cnt : Word := 20#32
     (s.boot.upd = some u) ∧
     (seq.toNat = (u.seq + 1) % 65536) ∧
     (higherWork s = false) ∧
     (ofs.toNat = u.ofs) ∧
     (cnt.toNat ≤ (if ownerRing s then 232 else 52)) ∧
     (ofs.toNat + cnt.toNat ≤ u.len)) ∧
    (let s : State := modBoot (fun b => { b with upd := some { len := 0x1000, crc := 9#32, seq := 7, ofs := 0, hdr := [], body := [], blocks := 1, last := 0 } }) (bw (bw (inMode mStandby) .boot 0 5#32) .boot 0x24 0x100000#32)
     let u : Upd := { len := 0x1000, crc := 9#32, seq := 7, ofs := 0, hdr := [], body := [], blocks := 1, last := 0 }
     let seq : BitVec 16 := 8
     let ofs : Word := 0#32
     let cnt : Word := 52#32
     (s.boot.upd = some u) ∧
     (seq.toNat = (u.seq + 1) % 65536) ∧
     (higherWork s = false) ∧
     (ofs.toNat = u.ofs) ∧
     (cnt.toNat ≤ (if ownerRing s then 232 else 52)) ∧
     (ofs.toNat + cnt.toNat ≤ u.len)) ∧
    (let s : State := modBoot (fun b => { b with upd := some { len := 0x1000, crc := 9#32, seq := 7, ofs := 0x1000, hdr := [], body := [], blocks := 1, last := 0 } }) (bw (bw (inMode mStandby) .boot 0 5#32) .boot 0x24 0x100000#32)
     let u : Upd := { len := 0x1000, crc := 9#32, seq := 7, ofs := 0x1000, hdr := [], body := [], blocks := 1, last := 0 }
     let seq : BitVec 16 := 8
     (s.boot.upd = some u) ∧
     (seq.toNat = (u.seq + 1) % 65536) ∧
     (higherWork s = false) ∧
     (u.ofs = u.len)) ∧
    (let s : State := modBoot (fun b => { b with upd := some { len := 0x1000, crc := 9#32, seq := 7, ofs := 0x1000, hdr := [], body := [], blocks := 1, last := 0 } }) (bw (bw (inMode mStandby) .boot 0 5#32) .boot 0x24 0x100000#32)
     let u : Upd := { len := 0x1000, crc := 9#32, seq := 7, ofs := 0x1000, hdr := [], body := [], blocks := 1, last := 0 }
     let seq : BitVec 16 := 8
     (s.boot.upd = some u) ∧
     (seq.toNat = (u.seq + 1) % 65536)) ∧
    (let t : Nat := 60000000000
     let s : State := modBoot (fun b => { b with upd := some { len := 0x1000, crc := 9#32, seq := 7, ofs := 0x1000, hdr := [], body := [], blocks := 1, last := 0 } }) (bw (bw (inMode mStandby) .boot 0 5#32) .boot 0x24 0x100000#32)
     let u : Upd := { len := 0x1000, crc := 9#32, seq := 7, ofs := 0x1000, hdr := [], body := [], blocks := 1, last := 0 }
     (s.boot.upd = some u) ∧
     (u.last + 60000000000 ≤ t)) ∧
    (let s : State := modBoot (fun b => { b with jobs := [.upd 3 8] }) (modBoot (fun b => { b with upd := some { len := 0x1000, crc := 9#32, seq := 7, ofs := 0x1000, hdr := [], body := [], blocks := 1, last := 0 } }) (bw (bw (inMode mStandby) .boot 0 5#32) .boot 0x24 0x100000#32))
     let u : Upd := { len := 0x1000, crc := 9#32, seq := 7, ofs := 0x1000, hdr := [], body := [], blocks := 1, last := 0 }
     let seq : Nat := 8
     let rest : List FlashJob := ([] : List FlashJob)
     let k := slotCheck u.hdr u.body (br s .boot 0x24).toNat (fld (br s .sys 0) 24 8) s.helm.build (fuseBlank s) (keyHash s) u.crc
     (s.boot.upd = some u) ∧
     (s.boot.jobs = .upd 3 seq :: rest) ∧
     (frozen s 9 = false) ∧
     (k ≠ 0)) ∧
    (let s : State := modBoot (fun b => { b with jobs := [.upd 3 8] }) (modBoot (fun b => { b with upd := some { len := 0x4C, crc := crc32 end0, seq := 7, ofs := 0x4C, hdr := hdrOf 0x4C (crc32 end0), body := end0, blocks := 1, last := 0 } }) (bw (bw (inMode mStandby) .boot 0 5#32) .boot 0x24 0x100000#32))
     let u : Upd := { len := 0x4C, crc := crc32 end0, seq := 7, ofs := 0x4C, hdr := hdrOf 0x4C (crc32 end0), body := end0, blocks := 1, last := 0 }
     let seq : Nat := 8
     let rest : List FlashJob := ([] : List FlashJob)
     let k := slotCheck u.hdr u.body (br s .boot 0x24).toNat (fld (br s .sys 0) 24 8) s.helm.build (fuseBlank s) (keyHash s) u.crc
     (s.boot.upd = some u) ∧
     (s.boot.jobs = .upd 3 seq :: rest) ∧
     (frozen s 9 = false) ∧
     (k = 0)) ∧
    (let s : State := modBoot (fun b => { b with jobs := [.pm] }) (bw (bw (inMode mStandby) .boot 0 5#32) .boot 0x24 0x100000#32)
     (s.boot.jobs.head? = some .pm) ∧
     (frozen s 9 = false)) := by
  refine ⟨?_, ?_, ?_, ?_, ?_, ?_, ?_, ?_, ?_, ?_, ?_, ?_, ?_, ?_, ?_, ?_, ?_, ?_, ?_, ?_, ?_, ?_, ?_⟩ <;> (dsimp only [Performs, MoverPoint, AxisBoundary, memAddress, idFits, Loads]; decide +kernel)

theorem witness_ImageRecords :
    (let h : RecHead := headFor (loads0) 1 0 ([1611010048#32, 0x12345678#32])
     let p : List Word := [1611010048#32, 0x12345678#32]
     let s : State := loads0
     let a : Word := 1611010048#32
     let v : Word := 0x12345678#32
     let x : RegHit := ((findReg 1611010048).get (by decide))
     (Loads s 1 h p) ∧
     (p = [a, v]) ∧
     (regAllowed a.toNat = true) ∧
     (findReg a.toNat = some x) ∧
     (isCommit x = false) ∧
     (x.row.inst.isSome = true) ∧
     ((x.blk = .prof ∨ x.blk = .home ∨ x.blk = .loop))) ∧
    (let h : RecHead := headFor (loads0) 2 0 ([0x10040000#32, 7#32])
     let p : List Word := [0x10040000#32, 7#32]
     let s : State := loads0
     let a : Word := 0x10040000#32
     let v : Word := 7#32
     (Loads s 2 h p) ∧
     (p = [a, v]) ∧
     (memAllowed a.toNat = true) ∧
     (memAddress a.toNat)) ∧
    (let h : RecHead := headFor (loads0) 3 0 ([0x00020001#32, 7#32, 9#32])
     let p : List Word := [0x00020001#32, 7#32, 9#32]
     let s : State := loads0
     let w : Word := 0x00020001#32
     let lo : Word := 7#32
     let hi : Word := 9#32
     let g : Fin 4 := 1
     (Loads s 3 h p) ∧
     (p = [w, lo, hi]) ∧
     (fld w 0 2 = g.val) ∧
     (fld w 2 14 = 0) ∧
     (fld w 29 3 = 0) ∧
     (fld w 16 13 < 8192) ∧
     (progOpen s g = true)) ∧
    (let h : RecHead := headFor (loads0) 4 0 ([8192#32, 1#32, 0x25#32, 9#32])
     let p : List Word := [8192#32, 1#32, 0x25#32, 9#32]
     let s : State := loads0
     let i : Word := 8192#32
     let a : Word := 0x25#32
     let v : Word := 9#32
     (Loads s 4 h p) ∧
     (p = [i, 1#32, a, v]) ∧
     (8192 ≤ i.toNat) ∧
     (i.toNat < 131072) ∧
     (fld a 0 3 < 6) ∧
     (s.pwr.warm = false)) ∧
    (let h : RecHead := headFor (loads0) 5 0 (List.replicate 256 0x25#32)
     let p : List Word := List.replicate 256 0x25#32
     let s : State := loads0
     (Loads s 5 h p) ∧
     (p.length = 256) ∧
     (locked s = false) ∧
     ((∀ (k : Fin 8) (q : Fin 16), regionBad (k.val + 1) (p.getD (32 * k.val + 2 * q.val) 0#32) (p.getD (32 * k.val + 2 * q.val + 1) 0#32) = false))) ∧
    (let h : RecHead := headFor (loads0) 5 0 (List.replicate 256 0#32)
     let p : List Word := List.replicate 256 0#32
     let s : State := loads0
     (Loads s 5 h p) ∧
     (p.length = 256) ∧
     (locked s = false) ∧
     ((∀ (k : Fin 8) (q : Fin 16), regionBad (k.val + 1) (p.getD (32 * k.val + 2 * q.val) 0#32) (p.getD (32 * k.val + 2 * q.val + 1) 0#32) = false))) ∧
    (let h : RecHead := headFor (loads0) 6 0 ([20#32, 1#32, 100#32, 0#32, 9#32])
     let p : List Word := [20#32, 1#32, 100#32, 0#32, 9#32]
     let s : State := loads0
     let q : Word := 20#32
     let c : Word := 1#32
     let k : Word := 100#32
     let b : Word := 0#32
     let i : Word := 9#32
     (Loads s 6 h p) ∧
     (p = [q, c, k, b, i]) ∧
     (16 ≤ q.toNat) ∧
     (q.toNat < 64)) ∧
    (let h : RecHead := headFor (loads0) 7 0 ([1#32, 1#32, 100#32, 0#32])
     let p : List Word := [1#32, 1#32, 100#32, 0#32]
     let s : State := loads0
     let c : Word := 1#32
     let a : Word := 1#32
     let d : Word := 100#32
     let e : Word := 0#32
     (Loads s 7 h p) ∧
     (p = [c, a, d, e]) ∧
     (c.toNat < 2)) ∧
    (let h : RecHead := headFor (loads0) 8 0 ([1#32, 1000#32, 0#32, 0#32, 0#32, 0#32, 0#32])
     let p : List Word := [1#32, 1000#32, 0#32, 0#32, 0#32, 0#32, 0#32]
     let s : State := loads0
     (Loads s 8 h p) ∧
     (p.length = 7)) ∧
    (let h : RecHead := headFor (loads0) 9 0 ([1#32, 1000#32, 5#32])
     let p : List Word := [1#32, 1000#32, 5#32]
     let s : State := loads0
     (Loads s 9 h p)) ∧
    (let h : RecHead := headFor (loads0) 0xA 0 ([1#32, 1000#32, 5#32])
     let p : List Word := [1#32, 1000#32, 5#32]
     let s : State := loads0
     (Loads s 0xA h p)) ∧
    (let h : RecHead := headFor (loads0) 0xB 0 ([0#32, 0#32, 5#32])
     let p : List Word := [0#32, 0#32, 5#32]
     let s : State := loads0
     (Loads s 0xB h p) ∧
     (p.getD 0 0#32 = s.helm.build) ∧
     (s.boot.patch + (p.length - 2) ≤ 8192) ∧
     ((p.getD 1 0#32).toNat + 4 * (p.length - 2) ≤ 32768)) ∧
    (let h : RecHead := headFor (loads0) 0xC 0 ([1#32, 1000#32, 5#32])
     let p : List Word := [1#32, 1000#32, 5#32]
     let s : State := loads0
     (Loads s 0xC h p)) ∧
    (let h : RecHead := headFor (loads0) 0xFE 0 (List.replicate 32 1#32)
     let p : List Word := List.replicate 32 1#32
     let s : State := loads0
     (Loads s 0xFE h p)) := by
  refine ⟨?_, ?_, ?_, ?_, ?_, ?_, ?_, ?_, ?_, ?_, ?_, ?_, ?_, ?_⟩ <;> (dsimp only [Performs, MoverPoint, AxisBoundary, memAddress, idFits, Loads]; decide +kernel)

theorem witness_SupplyResetSleepAndTestPort :
    (let s : State := modPwr (fun p => { p with up := false }) State.reset
     (s.pwr.up = false)) ∧
    (let s : State := State.reset
     (s.pwr.up = true) ∧
     (inReset s = true)) ∧
    (let s : State := modPwr (fun p => { p with up := false }) State.reset
     (s.pwr.up = false) ∧
     (s.pwr.dead = false) ∧
     (s.pwr.ovp = false)) ∧
    (let s : State := inMode mRun
     (s.pwr.up = true)) ∧
    (let s : State := modPwr (fun p => { p with ovp := true, up := false }) State.reset
     (s.pwr.ovp = true) ∧
     (s.pwr.dead = false)) ∧
    (let s : State := bw (inMode mRun) .boot 0 5#32
     (s.pwr.up = true)) ∧
    (let s : State := modHelm (fun h => { h with toSleep := true }) (noSto (bw (inMode mStandby) .boot 0 5#32))
     (s.helm.toSleep = true) ∧
     (mode s = mStandby)) ∧
    (let s : State := bw (inMode mSleep) .pmu 0x34 1#32
     (wakeArmed s = true) ∧
     (s.pwr.woken = 0)) ∧
    (let s : State := bw (inMode mSleep) .pmu 0x34 0x103#32
     (wakeArmed s = true) ∧
     (s.pwr.woken = 0)) ∧
    (let s : State := bw (inMode mSleep) .can1 0x40 3#32
     let c : Fin 2 := 1
     let held : Nat := 3000
     (wakeArmed s = true) ∧
     (s.pwr.woken = 0) ∧
     (fld (br s (cb c) 0x40) 0 8 ≠ 0) ∧
     (fld (br s (cb c) 0x40) 0 8 * 1000 ≤ held)) ∧
    (let s : State := modPwr (fun p => { p with ringAddr := some 3 }) (modRing (fun r => { r with step := 2 }) (bw (inMode mSleep) .pmu 0x34 4#32))
     (wakeArmed s = true) ∧
     (s.pwr.woken = 0) ∧
     (bit (br s .pmu 0x34) 2 = true) ∧
     (mode s = mSleep ∧ s.pwr.ringAddr = some 3 ∧ 3 * s.ring.step * 10000 ≠ 0)) ∧
    (let t : Nat := 9
     let s : State := modPwr (fun p => { p with wakeStep := some 5 }) (inMode mSleep)
     let u : Nat := 5
     (s.pwr.wakeStep = some u) ∧
     (u ≤ t)) ∧
    (let s : State := bw (bw (inMode mRun) .boot 0 5#32) .chron 0 0x3FF#32
     (clocksRun s = true) ∧
     (bit (br s .chron 0) 9 = true) ∧
     (s.helm.toSleep = false)) ∧
    (let s : State := bw (bw (inMode mRun) .boot 0 5#32) .chron 0 0x3FF#32
     let i : Fin 9 := 3
     (clocksRun s = true) ∧
     (bit (br s .chron 0) 9 = true) ∧
     (bit (br s .chron 0) i.val = true)) := by
  refine ⟨?_, ?_, ?_, ?_, ?_, ?_, ?_, ?_, ?_, ?_, ?_, ?_, ?_, ?_⟩ <;> (dsimp only [Performs, MoverPoint, AxisBoundary, memAddress, idFits, Loads]; decide +kernel)

/-- A front command and an empty rest. -/
theorem witness_StepTakesFrontCommand : ({ State.reset with pending := [.powerUp] } : State).pending = [.powerUp] := rfl
/-- An empty queue. -/
theorem witness_IdleStepTicksTheChronometer : State.reset.pending = [] := rfl
/-- Reset is canonical and steps. -/
theorem witness_StepKeepsCanonicalForm : Canon State.reset ∧ ∃ t, step State.reset = .next t := ⟨reset_canon, _, rfl⟩
/-- A command that answers a next state. -/
theorem witness_MemoryAndQueueFrame : ∃ t, exec .powerUp State.reset = .next t := ⟨_, rfl⟩

/-- A chain of two entries. -/
def chainOf (rest : List Nat) : Chain := { trig := { src := 6, sel := 0 }, rest := rest, entry := 0 }
/-- Cluster 0 at program word 0, which spells w. -/
def atWord (w : SxWord) : State := issuing (BitVec.ofNat 64 (encodeWord w)) (inMode mRun)
/-- The loop register of a level that ends at the word. -/
def atEndOf (w : SxWord) : State := modClu 0 (fun c => { c with st := 0x400#32, lc := #v[3, 0], le := #v[0, 0] }) (atWord w)

/-- Lane words for each operation that writes a lane register, masked in lanes 1 to 3. -/
theorem witness_SextantLaneResults : ∀ k ∈ ([.add, .sub, .abs, .neg, .max, .min, .mov, .and, .or, .xor, .lsl, .lsr, .asr, .sel, .mpyr, .movxa, .exp, .bcast] : List LaneK),
    rowOf (laneWord k 1 true 3 2 5 0) 0 5 (match k with
      | .add => .add 0 5 | .sub => .sub 0 5 | .abs => .abs 0 5 | .neg => .neg 0 5 | .max => .max 0 5 | .min => .min 0 5 | .mov => .mov 0 5
      | .and => .and 0 5 | .or => .or 0 5 | .xor => .xor 0 5 | .lsl => .lsl 0 5 | .lsr => .lsr 0 5 | .asr => .asr 0 5 | .sel => .sel 0 5
      | .mpyr => .mpyr 0 5 | .movxa => .movxa 0 5 | .exp => .exp 0 5 | _ => .bcast 0 5) ∧
    Issues (atWord (laneWord k 1 true 3 2 5 0)) 0 (laneWord k 1 true 3 2 5 0) ∧ stays (laneWord k 1 true 3 2 5 0) ∧ writesLane k = true := by
  intro k hk
  refine ⟨Or.inr (Or.inl ⟨k, 1, true, 3, 2, 5, 0, rfl, ?_⟩), ?_, (by intro n h; cases h), ?_⟩
  · fin_cases hk <;> rfl
  · unfold Issues; revert k; decide +kernel
  · revert k; decide +kernel

/-- Words for each operation with an accumulator destination, and SHA. -/
theorem witness_SextantAccumulatorResults :
    (rowOf (aWord (.sha 0 false 2 125 0)) 0 5 (.sha 0 5) ∧ Issues (atWord (aWord (.sha 0 false 2 125 0))) 0 (aWord (.sha 0 false 2 125 0)) ∧
      stays (aWord (.sha 0 false 2 125 0))) ∧
    ∀ k ∈ ([.mpy, .mac, .msu, .clra, .lda, .adda, .suba, .norm] : List LaneK),
      rowOf (laneWord k 0 false 3 2 5 0) 0 5 (match k with
        | .mpy => .mpy 0 5 | .mac => .mac 0 5 | .msu => .msu 0 5 | .clra => .clra 0 5 | .lda => .lda 0 5 | .adda => .adda 0 5
        | .suba => .suba 0 5 | _ => .norm 0 5) ∧
      Issues (atWord (laneWord k 0 false 3 2 5 0)) 0 (laneWord k 0 false 3 2 5 0) ∧ stays (laneWord k 0 false 3 2 5 0) ∧ (k.toAcc = true ∨ k = .norm) := by
  refine ⟨⟨Or.inr (Or.inr (Or.inl ⟨0, false, 2, 125, 0, rfl, rfl⟩)), by unfold Issues; decide +kernel, (by intro n h; cases h)⟩, ?_⟩
  intro k hk
  refine ⟨Or.inr (Or.inl ⟨k, 0, false, 3, 2, 5, 0, rfl, ?_⟩), ?_, (by intro n h; cases h), ?_⟩
  · fin_cases hk <;> rfl
  · unfold Issues; revert k; decide +kernel
  · revert k; decide +kernel

/-- A compare and an EXTR. -/
theorem witness_SextantCompareAndExtract : ∀ k ∈ ([.cmpeq, .cmplt, .cmple, .extr] : List LaneK),
    rowOf (laneWord k 0 false 3 2 5 0) 0 5 (match k with | .cmpeq => .cmpeq 0 5 | .cmplt => .cmplt 0 5 | .cmple => .cmple 0 5 | _ => .extr 0 5) ∧
    Issues (atWord (laneWord k 0 false 3 2 5 0)) 0 (laneWord k 0 false 3 2 5 0) ∧ stays (laneWord k 0 false 3 2 5 0) ∧ k.noLane = true := by
  intro k hk
  refine ⟨Or.inr (Or.inl ⟨k, 0, false, 3, 2, 5, 0, rfl, ?_⟩), ?_, (by intro n h; cases h), ?_⟩
  · fin_cases hk <;> rfl
  · unfold Issues; revert k; decide +kernel
  · revert k; decide +kernel

/-- Every scalar operation, the shifts by the immediate 0 and by S3. -/
theorem witness_SextantScalarResults : ∀ k ∈ ([.sadd, .ssub, .sand, .sor, .sxor, .slsl, .slsr, .sasr, .scmp, .smov] : List ScalK),
    rowOf (aWord (.scal k 1 2 3 false 0 0)) 0 5 (match k with
      | .sadd => .sadd 0 5 | .ssub => .ssub 0 5 | .sand => .sand 0 5 | .sor => .sor 0 5 | .sxor => .sxor 0 5 | .slsl => .slsl 0 5
      | .slsr => .slsr 0 5 | .sasr => .sasr 0 5 | .scmp => .scmp 0 5 | _ => .smov 0 5) ∧
    Issues (atWord (aWord (.scal k 1 2 3 false 0 0))) 0 (aWord (.scal k 1 2 3 false 0 0)) ∧ stays (aWord (.scal k 1 2 3 false 0 0)) := by
  intro k hk
  refine ⟨Or.inr (Or.inr (Or.inr (Or.inl ⟨k, 1, 2, 3, false, 0, 0, rfl, ?_⟩))), ?_, (by intro n h; cases h)⟩
  · fin_cases hk <;> rfl
  · unfold Issues; revert k; decide +kernel

/-- SADDI, and SRD of the last special register, QSB. -/
theorem witness_SextantImmediateAndReadSpecial :
    (rowOf (aWord (.simm .saddi 4 0 0xFFFF)) 0 5 (.saddi 0 5) ∧ Issues (atWord (aWord (.simm .saddi 4 0 0xFFFF))) 0 (aWord (.simm .saddi 4 0 0xFFFF)) ∧
      stays (aWord (.simm .saddi 4 0 0xFFFF))) ∧
    rowOf (aWord (.srd 0x29 4 0)) 0 5 (.srd 0 5) ∧ Issues (atWord (aWord (.srd 0x29 4 0))) 0 (aWord (.srd 0x29 4 0)) ∧ stays (aWord (.srd 0x29 4 0)) :=
  ⟨⟨Or.inr (Or.inr (Or.inr (Or.inr (Or.inl ⟨.saddi, 4, 0, 0xFFFF, rfl, rfl⟩)))), by unfold Issues; decide +kernel, (by intro n h; cases h)⟩,
    Or.inr (Or.inr (Or.inr (Or.inr (Or.inr (Or.inl ⟨0x29, 4, 0, rfl, rfl⟩))))), by unfold Issues; decide +kernel, (by intro n h; cases h)⟩

/-- SWR of P0 and SWRI of L7, QSB and ST. -/
theorem witness_SextantWriteSpecial :
    (rowOf (aWord (.swr 0 7 0)) 0 5 (.swr 0 5) ∧ Issues (atWord (aWord (.swr 0 7 0))) 0 (aWord (.swr 0 7 0)) ∧ stays (aWord (.swr 0 7 0))) ∧
    ∀ r ∈ ([0x0F, 0x17, 0x1F, 0x29, 0x20] : List (Fin 64)), rowOf (aWord (.swri r 5)) 0 5 (.swri 0 5) ∧
      Issues (atWord (aWord (.swri r 5))) 0 (aWord (.swri r 5)) ∧ stays (aWord (.swri r 5)) := by
  refine ⟨⟨Or.inr (Or.inr (Or.inr (Or.inr (Or.inr (Or.inr (Or.inl ⟨0, 7, 0, rfl, rfl⟩)))))), by unfold Issues; decide +kernel, (by intro n h; cases h)⟩, ?_⟩
  intro r hr
  refine ⟨Or.inr (Or.inr (Or.inr (Or.inr (Or.inr (Or.inr (Or.inr (Or.inl ⟨r, 5, rfl, rfl⟩))))))), ?_, (by intro n h; cases h)⟩
  unfold Issues; revert r; decide +kernel

/-- Each memory operation, in the X slot. -/
theorem witness_SextantMemory : ∀ k ∈ ([.ldb, .ldv, .stl, .stv, .lds, .sts, .stav] : List MemK),
    rowOf (xWord { k := k, reg := 1, p := 2, pm := true, lf := 0, idx := 0 }) 0 5 (match k with
      | .ldb => .ldb 0 5 | .ldv => .ldv 0 5 | .stl => .stl 0 5 | .stv => .stv 0 5 | .lds => .lds 0 5 | .sts => .sts 0 5 | .stav => .stav 0 5) ∧
    Issues (atWord (xWord { k := k, reg := 1, p := 2, pm := true, lf := 0, idx := 0 })) 0 (xWord { k := k, reg := 1, p := 2, pm := true, lf := 0, idx := 0 }) ∧
    stays (xWord { k := k, reg := 1, p := 2, pm := true, lf := 0, idx := 0 }) := by
  intro k hk
  refine ⟨Or.inr (Or.inr (Or.inr (Or.inr (Or.inr (Or.inr (Or.inr (Or.inr (Or.inl ⟨{ k := k, reg := 1, p := 2, pm := true, lf := 0, idx := 0 }, ?_, ?_⟩)))))))),
    ?_, (by intro n h; cases h)⟩
  · exact List.mem_cons_self ..
  · fin_cases hk <;> rfl
  · unfold Issues; revert k; decide +kernel

/-- A post-modifying load, and LDAG. -/
theorem witness_SextantAddressRegisters :
    (Issues (atWord (xWord { k := .ldb, reg := 1, p := 7, pm := true, lf := 0, idx := 0 })) 0 (xWord { k := .ldb, reg := 1, p := 7, pm := true, lf := 0, idx := 0 })) ∧
    rowOf (yWord (.ldag 5 20)) 0 5 (.ldag 0 5) ∧ Issues (atWord (yWord (.ldag 5 20))) 0 (yWord (.ldag 5 20)) ∧ stays (yWord (.ldag 5 20)) :=
  ⟨by unfold Issues; decide +kernel,
    Or.inr (Or.inr (Or.inr (Or.inr (Or.inr (Or.inr (Or.inr (Or.inr (Or.inr (Or.inr (Or.inr (Or.inr (Or.inr (Or.inr (Or.inr (Or.inr (Or.inr ⟨5, 20, rfl, rfl⟩)))))))))))))))),
    by unfold Issues; decide +kernel, (by intro n h; cases h)⟩

/-- A branch taken and one that is not, a jump, LOOP with a count and with 0, and a word at the end of a level with LC 3. -/
theorem witness_SextantControl : ∀ y ∈ ([.br 0 5, .br 1 5, .jmp false 9, .loopI true 3 2, .loopI false 0 2] : List YSlot),
    Issues (atWord (yWord y)) 0 (yWord y) ∧ Issues (atEndOf (yWord .none)) 0 (yWord .none) ∧ (atEndOf (yWord .none)).clu[0].atEnd 0 = true := by
  unfold Issues; decide +kernel

/-- DUTY of a lane and of all, EXT both ways. -/
theorem witness_SextantPorts : ∀ y ∈ ([.duty 3 0 false 1, .duty 3 19 false 1, .duty 3 3 true 0, .duty 3 16 true 0, .ext 1 2 true true true 0, .ext 1 2 false true false 0] :
    List YSlot), Issues (atWord (yWord y)) 0 (yWord y) := by
  unfold Issues; decide +kernel

/-- A NOP. -/
theorem witness_SextantWordFrame : rowOf (yWord .none) 0 5 (.nop 0 5) ∧ Issues (atWord (yWord .none)) 0 (yWord .none) ∧ stays (yWord .none) :=
  ⟨Or.inl ⟨0, rfl, rfl⟩, by unfold Issues; decide +kernel, (by intro n h; cases h)⟩

/-- RET of the last entry, and of another one. -/
theorem witness_SextantReturn :
    (Issues (atWord (yWord (.ret 0))) 0 (yWord (.ret 0)) ∧ (atWord (yWord (.ret 0))).clu[0].chain = some (chainOf []) ∧ (atWord (yWord (.ret 0))).clu[0].frames = []) ∧
    (let s := modClu 0 (fun c => { c with chain := some (chainOf [3]) }) (atWord (yWord (.ret 0)))
     Issues s 0 (yWord (.ret 0)) ∧ s.clu[0].chain = some (chainOf [3])) := by
  unfold Issues; decide +kernel

/-- An undefined word, and a load at an address beyond X memory. -/
theorem witness_SextantFaultsHalt :
    (canIssue (issuing 0xC000000000000000 (inMode mRun)) 0 = true ∧ decodeWord (nextWord (issuing 0xC000000000000000 (inMode mRun)) 0).toNat = none) ∧
    (let w := xWord { k := .ldb, reg := 1, p := 2, pm := true, lf := 0, idx := 0 }
     let s := modClu 0 (fun c => { c with p := c.p.set 2 0xFFFF#16 }) (atWord w)
     rowOf w 0 5 (.ldb 0 5) ∧ canIssue s 0 = true ∧ decodeWord (nextWord s 0).toNat = some w ∧ loopClash s.clu[0] w = false ∧ (addrFault s.clu[0] w).isSome = true) := by
  refine ⟨by decide +kernel, Or.inr (Or.inr (Or.inr (Or.inr (Or.inr (Or.inr (Or.inr (Or.inr (Or.inl ⟨_, List.mem_cons_self .., rfl⟩)))))))), ?_⟩
  decide +kernel

/-- A defined word. -/
theorem witness_SextantDecodeOfEncode : (laneWord .extr 0 false 15 31 0 3).wf = true := by decide

/-- 12 R302: an accumulator that holds 0.09375 has r = 11, and NORM with AUX[3] shifts it left by 3, to 0.75. -/
theorem test_exp_norm : accExp 0 (BitVec.ofNat 72 (0x0C000000 * 2 ^ 32)) = 11#32 ∧
    (accNorm 0 (BitVec.ofNat 72 (0x0C000000 * 2 ^ 32)) 11#32 true).1 = BitVec.ofNat 72 (0x60000000 * 2 ^ 32) := by decide +kernel

/-- 08 R193: in mode 1 with DIRINV the count goes down where A leads B. -/
theorem test_dirinv : (match execEncEdge 2 1 0 5 (aw (inMode mRun) .enc 2 0 0x11#32) with | .next n => n.enc[2].c | _ => 0) = -1 := by decide +kernel

/-- 04 R108: whatever the master's watch is, an age beyond every bound. -/
theorem witness_AxisEvents_stale :
    let x : Fin 16 := 0
    let t : Nat := 50000000 * (Config.masterWatch 0 0 + 1)
    let s : State := modGear 0 (fun g => { g with phase := 2, missed := 3, recd := some { t := 0, p := 0, v := 0, a := 0, st := 0#32 } })
      (aw (aw readyRun .prof 0 0x80 0x02000004#32) .ring 0 4 1000000#32)
    AxisBoundary s x t ∧ geared s x = true ∧ fld (ar s .prof x.val 0x80) 0 3 = 4 ∧ staleBound s x < recAge s x t ∧ s.gear[x].stale = false := by
  intro x t s
  have h0 : gOn s 0 = false := by decide +kernel
  have hb : isAxB s (grpOf x) t = true := by
    have : t % 25000 = 0 := by simp only [t]; omega
    have hg : gOn s (grpOf x) = false := by decide +kernel
    simp only [isAxB, isDevB, hg, h0, this]; decide
  have h1 : fld (ar s .prof x.val 0x80) 8 12 = 0 := by decide +kernel
  have h2 : fld (ar s .prof x.val 0x80) 20 4 = 0 := by decide +kernel
  have h3 : fld (ar s .prof x.val 0x80) 24 4 = 2 := by decide +kernel
  have h4 : trOf s = 1000000 := by decide +kernel
  have h5 : recAge s x t = t := rfl
  refine ⟨⟨hb, by decide +kernel⟩, by decide +kernel, by decide +kernel, ?_, by decide +kernel⟩
  simp only [staleBound, h1, h2, h3, h4, h5]
  omega


end Sys2Proof.Machine.Tests
end

section
/-!
PROOFS. What reporting a fault or an event leaves (02 R50, R54 to R56; 14 R352; 23 R554): the registers that it may write are few, the points of the
axes' bands stay, and a fault of level 1 or above joins the standing ones.
-/
namespace Sys2Proof.Machine

/-! ### The registers that reporting writes -/

/-- The registers that the reporting of faults, events and plans writes: Q0LOST and the refusals of the queues, the lost log entries, the overruns
of triggers, the reduced and starved moves, and the lost triggers of the clusters. -/
def reportRegs : List Nat :=
  [bAddr .que 0, bAddr .log 0x28, bAddr .loop 0x24, bAddr .prof 0x20, bAddr .prof 0x24] ++
    (List.finRange 64).map (fun q => iAddr .que q.val 0x248) ++ (List.finRange 4).map (fun g => sxAddr g.val 0x24)

/-- A register of unit n of a block outside QUE and SX is none of them. -/
theorem iAddr_notMem_reportRegs {b : Blk} {n o : Nat} (hb : b ≠ .que ∧ b ≠ .sx) (hn : n < 32) (ho : o < 0x400) : iAddr b n o ∉ reportRegs := by
  have hout : ∀ a ∈ reportRegs, a < 0x60000000 ∨ a % 0x10000 < 0x1000 ∨ a / 0x10000 = 0x6005 := by decide
  have hbase : b.base % 0x10000 = 0 ∧ 0x60000000 ≤ b.base ∧ b.base ≠ 0x60050000 ∧ b.instStride = 0x400 := by
    revert hb; cases b <;> decide
  obtain ⟨hmod, hlow, hque, hstr⟩ := hbase
  intro hm
  have := hout _ hm
  unfold iAddr at this
  rw [hstr] at this
  omega

/-- The registers of one unit at two offsets are two. -/
theorem iAddr_ne (b : Blk) (n : Nat) {o o' : Nat} (h : o ≠ o') : iAddr b n o ≠ iAddr b n o' := by
  unfold iAddr; omega

/-- From s to t only what reporting writes has changed: registers outside `reportRegs` and points outside the first 512 read as before. -/
def Reports (s t : State) : Prop := (∀ a, a ∉ reportRegs → rd t a = rd s a) ∧ ∀ i, 512 ≤ i → pt t i = pt s i

section
variable {s t u : State} {P : List Part}

theorem Reports.refl : Reports s s := ⟨fun _ _ => rfl, fun _ _ => rfl⟩

theorem Reports.trans (h : Reports s t) (g : Reports t u) : Reports s u :=
  ⟨fun a ha => (g.1 a ha).trans (h.1 a ha), fun i hi => (g.2 i hi).trans (h.2 i hi)⟩

/-- Where the registers and points are the same, nothing is reported. -/
theorem Reports.upd (h : Reports s t) (hr : u.regs = t.regs) (hp : u.pts = t.pts) : Reports s u :=
  h.trans ⟨fun a _ => by unfold rd; rw [hr], fun i _ => by unfold pt; rw [hp]⟩

theorem Keeps.reports (hk : Keeps P t u) (hr : Part.regs ∉ P) (hp : Part.pts ∉ P) (h : Reports s t) : Reports s u :=
  h.upd (hk.1 _ hr) (hk.1 _ hp)

theorem Reports.ite {c : Prop} [Decidable c] {a b : State} (ha : Reports s a) (hb : Reports s b) : Reports s (if c then a else b) := by
  split <;> assumption

theorem forEach_reports {α : Type} {l : List α} {f : α → State → State} (hf : ∀ a x, Reports s x → Reports s (f a x)) (h : Reports s t) :
    Reports s (forEach l f t) := by
  induction l generalizing t with
  | nil => exact h
  | cons a l ih => exact ih (hf a t h)

/-- An active register of a unit outside QUE and SX. -/
theorem Reports.ar_eq (h : Reports s t) {b : Blk} {n o : Nat} (hb : b ≠ .que ∧ b ≠ .sx) (hn : n < 32) (ho : o < 0x200) :
    ar t b n o = ar s b n o := h.1 _ (iAddr_notMem_reportRegs hb hn (by omega))

/-- A register of a unit outside QUE and SX. -/
theorem Reports.ir_eq (h : Reports s t) {b : Blk} {n o : Nat} (hb : b ≠ .que ∧ b ≠ .sx) (hn : n < 32) (ho : o < 0x400) :
    ir t b n o = ir s b n o := h.1 _ (iAddr_notMem_reportRegs hb hn ho)

/-- A point of an axis's band. -/
theorem Reports.ap_eq (h : Reports s t) (x : Fin 16) (o : Nat) : ap t x o = ap s x o := h.2 _ (by unfold axPt; omega)

/-! ### One rule per operation -/

theorem wr_reports {a : Nat} {v : Word} (ha : a ∈ reportRegs) (h : Reports s t) : Reports s (wr t a v) :=
  h.trans ⟨fun _ hb => rd_wr_other _ _ fun e => hb (e ▸ ha), fun _ _ => rfl⟩

theorem setPt_reports {i : Nat} {v : Word} (hi : i < 512) (h : Reports s t) : Reports s (setPt t i v) :=
  h.trans ⟨fun _ _ => rfl, fun _ hj => pt_setPt_other _ _ (by omega)⟩

theorem pushRaw_reports {q : Fin 64} {m prio : Nat} {ws : List Word} (h : Reports s t) : Reports s (pushRaw q m prio ws t).2 := by
  unfold pushRaw
  split
  · exact h.upd rfl rfl
  · exact wr_reports (by unfold reportRegs; simp) h

theorem enterRaw_reports {q : Fin 64} {m : Nat} {f : FaultRec} {ws : List Word} (h : Reports s t) : Reports s (enterRaw q m f ws t).2 := by
  have hp := pushRaw_reports (q := q) (m := m) (prio := 0) (ws := ws) h
  unfold enterRaw
  dsimp only
  split
  · exact hp.upd rfl rfl
  · exact hp

theorem logRaw_reports {f : FaultRec} (h : Reports s t) : Reports s (logRaw f t) := by
  have he := enterRaw_reports (q := 2) (m := 10) (f := f) (ws := logWords f) h
  unfold logRaw
  exact Reports.ite he (setPt_reports (by decide) (wr_reports (by decide) he))

/-- A trigger reports no more than its log does. -/
theorem raiseTrigBy_reports {log : FaultRec → State → State} {g : Fin 4} {tr : Trig} (hlog : ∀ f x, Reports s x → Reports s (log f x))
    (h : Reports s t) : Reports s (raiseTrigBy log g tr t) := by
  unfold raiseTrigBy
  have hlost : Reports s (sw t g 0x24 (setBit (sr t g 0x24) 1 true)) := wr_reports (by unfold reportRegs; simp) h
  exact Reports.ite h (Reports.ite h (Reports.ite hlost (Reports.ite (hlog _ _ (wr_reports (by decide) h)) (h.upd rfl rfl))))

theorem logRec_reports {f : FaultRec} (h : Reports s t) : Reports s (logRec f t) := by
  unfold logRec
  exact Reports.ite (forEach_reports (fun _ _ => raiseTrigBy_reports fun _ _ => logRaw_reports) (logRaw_reports h)) (logRaw_reports h)

theorem raiseQueue_reports {q : Fin 64} (h : Reports s t) : Reports s (raiseQueue q t) :=
  forEach_reports (fun _ _ => raiseTrigBy_reports fun _ _ => logRec_reports) h

theorem enterFault_reports {q : Fin 64} {m : Nat} {f : FaultRec} (h : Reports s t) : Reports s (enterFault q m f t).2 := by
  have he := enterRaw_reports (q := q) (m := m) (f := f) (ws := [faultWord f]) h
  unfold enterFault
  exact Reports.ite (raiseQueue_reports he) he

theorem toQueue0_reports {f : FaultRec} (h : Reports s t) : Reports s (toQueue0 f t) := by
  have he := enterFault_reports (q := 0) (m := 10) (f := f) h
  unfold toQueue0
  exact Reports.ite (he.upd rfl rfl) (Reports.ite (wr_reports (by decide) he) (he.upd rfl rfl))

theorem firstPut_reports {f : FaultRec} (h : Reports s t) : Reports s (firstPut f t) :=
  Reports.ite ((setPt_reports (by decide) h).upd rfl rfl) h

theorem sumUpd_reports (h : Reports s t) : Reports s (sumUpd t) := Reports.ite (setPt_reports (by decide) h) h

theorem raiseRec_reports {f : FaultRec} (h : Reports s t) : Reports s (raiseRec f t) := by
  unfold raiseRec
  refine Reports.ite (logRec_reports h) (sumUpd_reports (firstPut_reports (Reports.ite ?_ ?_)))
  · exact enterFault_reports (logRec_reports (h.upd rfl rfl))
  · exact toQueue0_reports (logRec_reports (h.upd rfl rfl))

/-- Every fault and every event is raised by `raise`. -/
theorem raise_reports {lvl : Nat} {code axes : BitVec 16} {axis : Nat} {data : List Word} (h : Reports s t) :
    Reports s (raise lvl code axes axis data t) := raiseRec_reports h

theorem planEvents_reports {x : Fin 16} {evs : List MEv} (h : Reports s t) : Reports s (planEvents x evs t) := by
  refine forEach_reports (fun e y hy => ?_) h
  cases e with
  | reduced tag v => exact raise_reports (wr_reports (by decide) hy)
  | starved tag => exact raise_reports (wr_reports (by decide) hy)

theorem igDo_reports {i : Fin 4} {f : Motion → MRes} (h : Reports s t) : Reports s (igDo i f t) :=
  (igMirror_keeps (Within.refl _) Keeps.refl).reports (by decide) (by decide) (planEvents_reports (h.upd rfl rfl))

theorem motDo_reports {x : Fin 16} {f : Motion → MRes} (h : Reports s t) : Reports s (motDo x f t) := by
  unfold motDo
  split
  · exact Reports.ite (igDo_reports h) h
  · exact planEvents_reports (h.upd rfl rfl)

/-- The planned state at a boundary costs no register but those of reporting, and no point of an axis's band. -/
theorem motAt_reports {x : Fin 16} {w : Nat} (h : Reports s t) : Reports s (motAt x w t) := by
  unfold motAt
  split
  · exact Reports.ite (igDo_reports h) h
  · exact motDo_reports h

end

/-! ### The faults that stand -/

section
variable {s : State} {f : FaultRec}

theorem enterFault_helm (q : Fin 64) (m : Nat) (f : FaultRec) (s : State) : (enterFault q m f s).2.helm = s.helm :=
  (enterFault_keeps (Within.refl _) (Keeps.refl (s := s))).1 .helm (by decide)

theorem logRec_helm (f : FaultRec) (s : State) : (logRec f s).helm = s.helm :=
  (logRec_keeps (Within.refl _) (Keeps.refl (s := s))).1 .helm (by decide)

theorem toQueue0_latched (f : FaultRec) (s : State) : (toQueue0 f s).helm.latched = s.helm.latched := by
  have he : (enterFault 0 10 f s).2.helm.latched = s.helm.latched := by rw [enterFault_helm]
  unfold toQueue0
  dsimp only
  split
  · exact he
  split
  · exact he
  · exact he

theorem firstPut_latched (f : FaultRec) (s : State) : (firstPut f s).helm.latched = s.helm.latched := by
  unfold firstPut; split <;> rfl

theorem sumUpd_helm (s : State) : (sumUpd s).helm = s.helm := by
  unfold sumUpd; split <;> rfl

/-- A record whose level is not 0 joins the standing faults, at the level the image gives it. -/
theorem raiseRec_latched (hf : (atLevel s f).level ≠ 0) : (raiseRec f s).helm.latched = s.helm.latched ++ [atLevel s f] := by
  unfold raiseRec
  dsimp only
  rw [if_neg hf, sumUpd_helm, firstPut_latched]
  split
  · rw [enterFault_helm, logRec_helm]
  · rw [toQueue0_latched, logRec_helm]

/-- A fault of level 1 or above stands once it is raised (02 R50). -/
theorem raise_stands {lvl : Nat} (hl : lvl ≠ 0) (code axes : BitVec 16) (axis : Nat) (data : List Word) (s : State) :
    Stands lvl code axes s (raise lvl code axes axis data s) := by
  refine ⟨_, rfl, rfl, fun e => ?_, raiseRec_latched ?_⟩
  · exact if_pos e
  · show max lvl _ ≠ 0
    omega

/-- What a raised fault or event may touch. -/
theorem raise_frame (lvl : Nat) (code axes : BitVec 16) (axis : Nat) (data : List Word) (s : State) :
    Keeps [.regs, .pts, .queues, .q0pend, .helm, .ax, .clu] s (raise lvl code axes axis data s) := raise_keeps (Within.refl _) Keeps.refl

theorem raise_homing (lvl : Nat) (code axes : BitVec 16) (axis : Nat) (data : List Word) (s : State) :
    (raise lvl code axes axis data s).homing = s.homing := (raise_frame ..).1 .homing (by decide)
theorem raise_gear (lvl : Nat) (code axes : BitVec 16) (axis : Nat) (data : List Word) (s : State) :
    (raise lvl code axes axis data s).gear = s.gear := (raise_frame ..).1 .gear (by decide)
theorem raise_sup (lvl : Nat) (code axes : BitVec 16) (axis : Nat) (data : List Word) (s : State) :
    (raise lvl code axes axis data s).sup = s.sup := (raise_frame ..).1 .sup (by decide)
theorem raise_sdm (lvl : Nat) (code axes : BitVec 16) (axis : Nat) (data : List Word) (s : State) :
    (raise lvl code axes axis data s).sdm = s.sdm := (raise_frame ..).1 .sdm (by decide)

/-- What stands is counted from the image's levels and the Helm's records alone. -/
theorem Stands.of_eq {lvl : Nat} {code axes : BitVec 16} {z n : State} (h : Stands lvl code axes z n) (hb : z.boot = s.boot)
    (hh : z.helm = s.helm) : Stands lvl code axes s n := by
  unfold Stands imgLevel at *
  rwa [hb, hh] at h

end

end Sys2Proof.Machine
end

section
/-!
PROOFS. Axis events (02 R52; 04 R108, R117; 05 R136, R138, R147; 07 R180, R184): one section per event, each assembled from what `Reports` and `Keeps`
say of the operations that the event is made of.
-/
namespace Sys2Proof.Machine

/-! ### A timed command and a boundary -/

/-- A timed command changes the instant and nothing else. -/
theorem atTime_eq (t : Nat) (s : State) : atTime t s = { s with now := max s.now t } := by
  unfold atTime
  split
  next h => rw [Nat.max_eq_right (Nat.le_of_lt h)]
  next h => rw [Nat.max_eq_left (Nat.le_of_not_lt h)]

theorem ar_atTime (t : Nat) (s : State) (b : Blk) (n o : Nat) : ar (atTime t s) b n o = ar s b n o := by rw [atTime_eq]; rfl

theorem isAxB_atTime (g : Fin 4) (w t : Nat) (s : State) : isAxB (atTime t s) g w = isAxB s g w := by rw [atTime_eq]; rfl

theorem helmUp_atTime (t : Nat) (s : State) : helmUp (atTime t s) = helmUp s := by rw [atTime_eq]; rfl

section
variable {s : State} {x : Fin 16} {t : Nat}

/-- At a boundary the Helm acts on the planned state. -/
theorem atAxB_of_boundary (hB : AxisBoundary s x t) (f : State → State) : atAxB x t f s = .next (f (motAt x t (atTime t s))) := by
  obtain ⟨hb, hh⟩ := hB
  unfold atAxB
  dsimp only
  rw [isAxB_atTime, helmUp_atTime, hb, hh]
  rfl

/-- What planning up to a boundary reports. -/
theorem motAt_atTime_reports : Reports s (motAt x t (atTime t s)) := motAt_reports (Reports.refl.upd (by simp) (by simp))

/-- What planning up to a boundary may touch. -/
theorem motAt_atTime_keeps :
    Keeps [.now, .regs, .pts, .queues, .q0pend, .helm, .mot, .ax, .igrp, .clu] s (motAt x t (atTime t s)) :=
  motAt_keeps (Within.of (Within.refl _) (by decide)) (atTime_keeps (Within.of (Within.refl _) (by decide)) Keeps.refl)

theorem motAt_atTime_homing : (motAt x t (atTime t s)).homing = s.homing := motAt_atTime_keeps.1 .homing (by decide)
theorem motAt_atTime_gear : (motAt x t (atTime t s)).gear = s.gear := motAt_atTime_keeps.1 .gear (by decide)
theorem motAt_atTime_sup : (motAt x t (atTime t s)).sup = s.sup := motAt_atTime_keeps.1 .sup (by decide)

/-- Active registers outside QUE and SX are those of before. -/
theorem motAt_atTime_ar {b : Blk} {n o : Nat} (hb : b ≠ .que ∧ b ≠ .sx) (hn : n < 32) (ho : o < 0x200) :
    ar (motAt x t (atTime t s)) b n o = ar s b n o := motAt_atTime_reports.ar_eq hb hn ho

end

/-! ### Sigma-delta inputs (07 R180) -/

/-- A register of a unit is no block-level register. -/
theorem iAddr_ne_bAddr (b b' : Blk) {n o o' : Nat} (hn : n < 32) (ho : o < 0x400) (ho' : o' < 0x1000) : iAddr b n o ≠ bAddr b' o' := by
  have hb : ∀ b : Blk, b.base % 0x10000 = 0 ∧ b.instStride ≤ 0x400 := by intro b; cases b <;> decide
  have hmul := Nat.mul_le_mul_left n (hb b).2
  have h1 := (hb b).1
  have h2 := (hb b').1
  unfold iAddr bAddr
  omega

theorem ar_bwBit (s : State) (b b' : Blk) {n o o' i : Nat} {v : Bool} (hn : n < 32) (ho : o < 0x200) (ho' : o' < 0x1000) :
    ar (bwBit s b' o' i v) b n o = ar s b n o := rd_wr_other _ _ (iAddr_ne_bAddr b b' hn (by omega) ho')

/-- A bit of a block-level register after it is put. -/
theorem bit_br_bwBit (s : State) (b : Blk) (o : Nat) {i : Nat} (v : Bool) (hi : i < 32) : bit (br (bwBit s b o i v) b o) i = v := by
  unfold br bwBit bw
  rw [rd_wr_same, bit_setBit _ _ _ _ hi, if_pos rfl]

section
variable (x : Fin 16) (k : Fin 3) (s : State)

/-- The mark of an input after it is put. -/
theorem modSdm_stuck (v : Bool) : (modSdm x (fun y => { y with stuck := y.stuck.set k.val v }) s).sdm[x].stuck[k] = v := by
  rw [modSdm_sdm, if_pos rfl]
  exact Vector.getElem_set_self ..

/-- Input k of axis x is marked as stuck, in the model's record and in SDM_STUCK. -/
def sdMark : State :=
  let i := 3 * x.val + k.val
  let s := modSdm x (fun y => { y with stuck := y.stuck.set k.val true }) s
  if i < 32 then bwBit s .sdm 0x24 i true else bwBit s .sdm 0x28 (i - 32) true

theorem sdMark_cases : ∃ o i, (o = 0x24 ∨ o = 0x28) ∧
    sdMark x k s = bwBit (modSdm x (fun y => { y with stuck := y.stuck.set k.val true }) s) .sdm o i true := by
  unfold sdMark
  dsimp only
  split
  · exact ⟨_, _, .inl rfl, rfl⟩
  · exact ⟨_, _, .inr rfl, rfl⟩

theorem sdMark_stuck : (sdMark x k s).sdm[x].stuck[k] = true := by
  obtain ⟨o, i, -, e⟩ := sdMark_cases x k s
  rw [e]
  exact modSdm_stuck x k s true

theorem sdMark_helm : (sdMark x k s).helm = s.helm := by
  obtain ⟨o, i, -, e⟩ := sdMark_cases x k s
  rw [e]; rfl

theorem sdMark_boot : (sdMark x k s).boot = s.boot := by
  obtain ⟨o, i, -, e⟩ := sdMark_cases x k s
  rw [e]; rfl

/-- The mark moves no configuration, so the inputs that a kernel reads stay. -/
theorem sdMark_readsInput : readsInput (sdMark x k s) x k = readsInput s x k := by
  obtain ⟨o, i, ho, e⟩ := sdMark_cases x k s
  have hsame : ∀ b : Blk, ar (sdMark x k s) b x.val 0 = ar s b x.val 0 := fun b => by
    rw [e, ar_bwBit _ _ _ (by omega) (by omega) (by omega)]; rfl
  unfold readsInput ckind
  rw [hsame, hsame]

theorem sdMark_axActive : axActive (sdMark x k s) x = axActive s x := by
  obtain ⟨o, i, ho, e⟩ := sdMark_cases x k s
  have hsafe : br (sdMark x k s) .safe 0 = br s .safe 0 := by
    rw [e]
    exact rd_wr_other _ _ (by rcases ho with rfl | rfl <;> decide)
  have hax : (sdMark x k s).ax = s.ax := by rw [e]; rfl
  unfold axActive shown stoOn l2Stands
  rw [hsafe, hax, sdMark_helm]

theorem sdMark_bit_low (h : 3 * x.val + k.val < 32) : bit (br (sdMark x k s) .sdm 0x24) (3 * x.val + k.val) = true := by
  unfold sdMark
  dsimp only
  rw [if_pos h, bit_br_bwBit _ _ _ _ h]

theorem sdMark_bit_high (h : 32 ≤ 3 * x.val + k.val) : bit (br (sdMark x k s) .sdm 0x28) (3 * x.val + k.val - 32) = true := by
  unfold sdMark
  dsimp only
  rw [if_neg (by omega), bit_br_bwBit _ _ _ _ (by omega)]

variable {x k s}

/-- 64 clocks without a transition mark the input, and raise what the axis's state asks for. -/
theorem sdStuck_of_long {clocks : Nat} (hc : 64 ≤ clocks) (hon : sdClkOn s x = true) (hs : s.sdm[x].stuck[k] = false) :
    sdStuck x k clocks s =
      if readsInput s x k && axActive s x then raiseAx 2 8 1 x [wd k.val, wd (3 * x.val + k.val)] (sdMark x k s)
      else ev 8 x.val 1 x.val [wd k.val, wd (3 * x.val + k.val)] (sdMark x k s) := by
  rw [← sdMark_readsInput, ← sdMark_axActive]
  unfold sdStuck
  rw [if_neg (by omega), if_neg (by simp only [hon, hs]; decide)]
  rfl

/-- Either report leaves the mark and the bit. -/
theorem sdStuck_raises {clocks : Nat} (hc : 64 ≤ clocks) (hon : sdClkOn s x = true) (hs : s.sdm[x].stuck[k] = false) :
    Reports (sdMark x k s) (sdStuck x k clocks s) ∧ (sdStuck x k clocks s).sdm = (sdMark x k s).sdm := by
  rw [sdStuck_of_long hc hon hs]
  split
  · exact ⟨raise_reports Reports.refl, raise_sdm ..⟩
  · exact ⟨raise_reports Reports.refl, raise_sdm ..⟩

theorem sdStuck_stands {clocks : Nat} (hc : 64 ≤ clocks) (hon : sdClkOn s x = true) (hs : s.sdm[x].stuck[k] = false)
    (hr : readsInput s x k = true) (ha : axActive s x = true) :
    Stands 2 (mkCode 8 x.val 1) (grpMask (grpOf x)) s (sdStuck x k clocks s) := by
  rw [sdStuck_of_long hc hon hs, if_pos (by rw [hr, ha]; rfl)]
  exact (raise_stands (by decide) _ _ _ _ _).of_eq (sdMark_boot x k s) (sdMark_helm x k s)

/-- Fewer than 64 clocks end the condition, and nothing else happens. -/
theorem exec_sdStuck_short {clocks t : Nat} (hc : clocks < 64) :
    ∃ n, exec (.sdStuck x k clocks t) s = .next n ∧ n.sdm[x].stuck[k] = false ∧ Only [.now, .sdm] s n := by
  refine ⟨_, rfl, ?_, ?_⟩
  · unfold sdStuck
    rw [if_pos hc]
    exact modSdm_stuck x k _ false
  · unfold sdStuck
    rw [if_pos hc]
    exact (modSdm_keeps (Within.of (Within.refl _) (by decide)) (atTime_keeps (Within.of (Within.refl _) (by decide)) Keeps.refl)).1

theorem exec_sdStuck_long {clocks t : Nat} (hc : 64 ≤ clocks) (hon : sdClkOn s x = true) (hs : s.sdm[x].stuck[k] = false) :
    ∃ n, exec (.sdStuck x k clocks t) s = .next n ∧ n.sdm[x].stuck[k] = true ∧
      (3 * x.val + k.val < 32 → bit (br n .sdm 0x24) (3 * x.val + k.val) = true) ∧
      (32 ≤ 3 * x.val + k.val → bit (br n .sdm 0x28) (3 * x.val + k.val - 32) = true) ∧
      (readsInput s x k = true → axActive s x = true → Stands 2 (mkCode 8 x.val 1) (grpMask (grpOf x)) s n) := by
  have hon' : sdClkOn (atTime t s) x = true := by rw [atTime_eq]; exact hon
  have hs' : (atTime t s).sdm[x].stuck[k] = false := by simpa using hs
  obtain ⟨hrep, hsdm⟩ := sdStuck_raises hc hon' hs'
  refine ⟨_, rfl, ?_, fun h => ?_, fun h => ?_, fun hr ha => ?_⟩
  · rw [hsdm]; exact sdMark_stuck x k _
  · rw [show br _ .sdm 0x24 = _ from hrep.1 _ (by decide)]; exact sdMark_bit_low x k _ h
  · rw [show br _ .sdm 0x28 = _ from hrep.1 _ (by decide)]; exact sdMark_bit_high x k _ h
  · rw [atTime_eq] at hon' hs' ⊢
    exact (sdStuck_stands hc hon' hs' hr ha).of_eq rfl rfl

end

/-! ### Housekeeping conversions (07 R184) -/

/-- A whole number needs no rounding. -/
theorem roundFree_natCast (site n : Nat) : roundFree site (n : Rat) = n := by
  unfold roundFree
  rw [if_pos (Rat.den_natCast n), Rat.num_natCast]

/-- The field at bit 0 of a word made from a number. -/
theorem fld_wd {n k : Nat} (hk : k ≤ 32) : fld (wd n) 0 k = n % 2 ^ k := by
  unfold fld wd
  rw [BitVec.toNat_ofNat, Nat.shiftRight_zero, Nat.mod_mod_of_dvd _ (Nat.pow_dvd_pow 2 hk)]

section
variable (c : Fin 24) (raw : Nat) (s : State)

theorem hkRaise_reports {u t : State} {num r : Nat} (h : Reports u t) : Reports u (hkRaise c num r t) := by
  unfold hkRaise
  dsimp only
  split
  · exact raise_reports h
  split
  · exact raise_reports h
  · exact raise_reports h

/-- The reports of a result: outside a limit, or too hot. -/
def hkChecks (low high hot : Bool) (r : Nat) (s : State) : State :=
  let s := if low then hkRaise c 0x10 r s else s
  let s := if high then hkRaise c 0x11 r s else s
  if hot then raiseDev 3 8 0 0x12 [wd c.val, wd r] s else s

theorem hkChecks_reports (low high hot : Bool) (r : Nat) : Reports s (hkChecks c low high hot r s) := by
  have h1 := Reports.ite (c := low = true) (hkRaise_reports c (num := 0x10) (r := r) (Reports.refl (s := s))) Reports.refl
  have h2 := Reports.ite (c := high = true) (hkRaise_reports c (num := 0x11) (r := r) h1) h1
  exact Reports.ite (raise_reports h2) h2

theorem hkChecks_hk (low high hot : Bool) (r : Nat) : (hkChecks c low high hot r s).hk = s.hk := by
  have w {l : List Part} := Within.of (a := l) (Within.refl eventParts)
  have h1 := Keeps.ite (c := low = true) (hkRaise_keeps (a1 := c) (a2 := 0x10) (a3 := r) (w (by decide)) (Keeps.refl (s := s))) Keeps.refl
  have h2 := Keeps.ite (c := high = true) (hkRaise_keeps (a1 := c) (a2 := 0x11) (a3 := r) (w (by decide)) h1) h1
  exact (Keeps.ite (raiseDev_keeps (w (by decide)) h2) h2).1 .hk (by decide)

/-- The result of a converted channel that the part has: the conversion is remembered, HK_RAW and HK_VAL are put, and the checks report. With no
averaging HK_RAW shows the conversion. -/
theorem hkResult_of_present (h : hkAbsent s c = false) : ∃ (hot r : Nat) (low high tooHot : Bool) (w v : Word),
    hkResult c raw s =
      hkChecks c low high tooHot r (iw (iw (modHk c (fun x => { x with hist := (raw :: s.hk[c].hist).take 16, hot := hot }) s) .hk c.val 0x240 w)
        .hk c.val 0x244 v) ∧
      (fld (ar s .hk c.val 0) 1 2 = 0 → fld w 0 12 = raw % 4096) := by
  unfold hkResult
  rw [if_neg (by rw [h]; decide)]
  extract_lets k hist l r hot z lim lo hi was low high w
  refine ⟨hot, r, low && !(bit was 16), high && !(bit was 17), decide (hot = 2) && decide (c.val < 3), w,
    toF32 702 ((hkScale c.val).2 + r * (hkScale c.val).1), ?_, fun havg => ?_⟩
  · unfold hkChecks
    simp only [Bool.and_eq_true, decide_eq_true_eq]
    rfl
  · have hr : r = raw := by
      have hl : l = [raw] := by simp only [l, hist, k, havg]; rfl
      simp only [r, hl]
      simp [roundFree_natCast]
    have hw : fld w 0 12 = fld (wd (r % 4096)) 0 12 := by
      simp only [w, setBit]
      rw [fld_setFld_other _ _ _ _ _ _ (by omega), fld_setFld_other _ _ _ _ _ _ (by omega)]
    rw [hw, hr, fld_wd (by decide)]
    exact Nat.mod_mod raw 4096

theorem hkResult_of_absent (h : hkAbsent s c = true) : hkResult c raw s = iw (iw s .hk c.val 0x240 0#32) .hk c.val 0x244 0#32 := if_pos h

/-- The turn of channel c: the mark of the last conversion is its own. -/
def hkTaken : State := modHk c (fun x => { x with last := true }) { s with hk := s.hk.map fun x => { x with last := false } }

theorem hkTaken_last (k : Fin 24) : (hkTaken c s).hk[k].last = decide (k = c) := by
  unfold hkTaken
  rw [modHk_hk]
  split
  next h => simp [h]
  next h => simp [Ne.symm h]

theorem hkTaken_ar (b : Blk) (n o : Nat) : ar (hkTaken c s) b n o = ar s b n o := rfl

theorem hkTaken_hist : (hkTaken c s).hk[c].hist = s.hk[c].hist := by
  unfold hkTaken
  rw [modHk_hk, if_pos rfl]
  simp

variable {c raw s}

/-- The conversion whose turn has come; channel 0 starts a scan with the commits. -/
theorem hkConversion_of_turn (hm : mode s ≠ mSleep) (ht : hkTurn s = c) :
    hkConversion c raw s = hkResult c raw (hkTaken c (if c = 0 then hkCommits s else s)) := by
  unfold hkConversion
  rw [if_neg (by simp [hm, ht])]
  rfl

/-- Commits come before channel 0 alone, which every part has. -/
theorem hkAbsent_after_commits : hkAbsent (if c = 0 then hkCommits s else s) c = hkAbsent s c := by
  split
  next h => subst h; unfold hkAbsent; simp
  next => rfl

theorem hk_after_commits : (if c = 0 then hkCommits s else s).hk = s.hk :=
  have h := Keeps.ite (c := c = 0) (hkCommits_keeps (Within.refl _) (Keeps.refl (s := s))) Keeps.refl
  h.1 .hk (by decide)

/-- The last conversion's mark after a result is the one before it. -/
theorem hkResult_last (k : Fin 24) : (hkResult c raw s).hk[k].last = s.hk[k].last := by
  cases h : hkAbsent s c with
  | true => rw [hkResult_of_absent c raw s h, iw_hk, iw_hk]
  | false =>
    obtain ⟨hot, r, low, high, tooHot, w, v, e, -⟩ := hkResult_of_present c raw s h
    rw [e, hkChecks_hk, iw_hk, iw_hk, modHk_hk]
    split
    next hk => rw [hk]
    next => rfl

/-- HK_RAW of a channel that the part lacks. -/
theorem hkResult_raw_of_absent (h : hkAbsent s c = true) : ir (hkResult c raw s) .hk c.val 0x240 = 0#32 := by
  rw [hkResult_of_absent c raw s h]
  exact (rd_wr_other _ _ (iAddr_ne .hk c.val (by decide))).trans (rd_wr_same _ _ _)

theorem hkResult_hist (h : hkAbsent s c = false) : (hkResult c raw s).hk[c].hist = (raw :: s.hk[c].hist).take 16 := by
  obtain ⟨hot, r, low, high, tooHot, w, v, e, -⟩ := hkResult_of_present c raw s h
  rw [e, hkChecks_hk, iw_hk, iw_hk, modHk_hk, if_pos rfl]

/-- HK_RAW of a channel that is not averaged shows the conversion. -/
theorem hkResult_raw (h : hkAbsent s c = false) (havg : fld (ar s .hk c.val 0) 1 2 = 0) :
    fld (ir (hkResult c raw s) .hk c.val 0x240) 0 12 = raw % 4096 := by
  obtain ⟨hot, r, low, high, tooHot, w, v, e, hw⟩ := hkResult_of_present c raw s h
  rw [e, (hkChecks_reports ..).ir_eq (by decide) (by omega) (by decide)]
  have hput : ir (iw (iw (modHk c (fun x => { x with hist := (raw :: s.hk[c].hist).take 16, hot := hot }) s) .hk c.val 0x240 w) .hk c.val 0x244 v)
      .hk c.val 0x240 = w := (rd_wr_other _ _ (iAddr_ne .hk c.val (by decide))).trans (rd_wr_same _ _ _)
  rw [hput, hw havg]

end

theorem exec_hkConversion (c : Fin 24) (raw : BitVec 12) (t : Nat) (s : State) (hm : mode s ≠ mSleep) (ht : hkTurn s = c) :
    ∃ n, exec (.hkConversion c raw t) s = .next n ∧ (∀ k : Fin 24, n.hk[k].last = decide (k = c)) ∧
      (hkAbsent s c = true → ir n .hk c.val 0x240 = 0#32) ∧
      (hkAbsent s c = false → n.hk[c].hist = (raw.toNat :: s.hk[c].hist).take 16 ∧
        (fld (ar (if c = 0 then hkCommits (atTime t s) else s) .hk c.val 0) 1 2 = 0 → fld (ir n .hk c.val 0x240) 0 12 = raw.toNat)) := by
  have hm' : mode (atTime t s) ≠ mSleep := by rw [atTime_eq]; exact hm
  have ht' : hkTurn (atTime t s) = c := by rw [atTime_eq]; exact ht
  have habs : hkAbsent (hkTaken c (if c = 0 then hkCommits (atTime t s) else atTime t s)) c = hkAbsent s c :=
    hkAbsent_after_commits.trans (by rw [atTime_eq]; rfl)
  have hex : exec (.hkConversion c raw t) s = .next (hkConversion c raw.toNat (atTime t s)) := rfl
  rw [hkConversion_of_turn hm' ht'] at hex
  refine ⟨_, hex, fun k => ?_, fun h => ?_, fun h => ⟨?_, fun havg => ?_⟩⟩
  · rw [hkResult_last, hkTaken_last]
  · exact hkResult_raw_of_absent (habs.trans h)
  · rw [hkResult_hist (habs.trans h), hkTaken_hist, hk_after_commits, atTime_hk]
  · refine (hkResult_raw (habs.trans h) ?_).trans (Nat.mod_eq_of_lt raw.isLt)
    rw [hkTaken_ar]
    split at havg
    next h => rwa [if_pos h]
    next h => rwa [if_neg h, ar_atTime]

/-! ### The hold current (05 R147) -/

/-- The hold current begins HOLDT ms after vy became 0. -/
theorem stepHold_of_due {x : Fin 16} {t t0 : Nat} {s : State} (hvy : s.stp[x].vy = 0) (hst : s.stp[x].still = some t0)
    (hh : fld (ar s .step x.val 0) 16 16 ≠ 0) (ht : t0 + fld (ar s .step x.val 0) 16 16 * 1000000 ≤ t) :
    (stepHold x t s).stp[x].holdCur = true ∧ bit (ir (stepHold x t s) .step x.val 0x240) 10 = true := by
  unfold stepHold
  extract_lets y z hold z'
  have hstill : z.stp[x].still = some t0 := by
    simp only [z, y, modStp_stp, hvy, hst]
    rfl
  have hcfg : ar z .step x.val 0 = ar s .step x.val 0 := rfl
  have hdue : holdDue z x t = true := by
    unfold holdDue
    rw [hstill, hcfg]
    simp only [bne_iff_ne, ne_eq, hh, not_false_eq_true, decide_eq_true ht, Bool.and_true]
  have hhold : hold = true := by
    simp only [hold, hdue, y, hvy]
    rfl
  rw [hhold]
  constructor
  · rw [iw_stp]
    simp only [z', modStp_stp, if_pos, hhold]
  · unfold ir iw
    rw [rd_wr_same, bit_setBit _ _ _ _ (by decide), if_pos rfl]

theorem exec_stepHoldCurrent (x : Fin 16) (t t0 : Nat) (s : State) (hon : stepOn s x = true) (hvy : s.stp[x].vy = 0)
    (hst : s.stp[x].still = some t0) (hh : fld (ar s .step x.val 0) 16 16 ≠ 0) (ht : t0 + fld (ar s .step x.val 0) 16 16 * 1000000 ≤ t) :
    ∃ n, exec (.stepHoldCurrent x t) s = .next n ∧ n.stp[x].holdCur = true ∧ bit (ir n .step x.val 0x240) 10 = true := by
  have hon' : stepOn (atTime t s) x = true := by rw [atTime_eq]; exact hon
  have hex : exec (.stepHoldCurrent x t) s = .next (stepHold x t (atTime t s)) := by
    show Host.Outcome.next (if stepOn (atTime t s) x = true then _ else _) = _
    rw [if_pos hon']
  rw [← ar_atTime t] at hh ht
  exact ⟨_, hex, stepHold_of_due (by rwa [atTime_stp]) (by rwa [atTime_stp]) hh ht⟩

/-! ### The stop timeout (02 R52) -/

section
variable {x : Fin 16} {t : Nat} {s : State}

theorem stopTimeout_of_due (hf : s.ax[x].faultStop = true) (hcfg : fld (ar s .prof x.val 0x14) 0 16 ≠ 0) (hs : axStill s x = false)
    (ht : s.ax[x].stopSince + fld (ar s .prof x.val 0x14) 0 16 * 1000000 ≤ t)
    (hn : s.helm.latched.any (fun f => f.code == mkCode 0 x.val 7) = false) : stopTimeout x t s = raiseAx 2 0 7 x [] s := by
  unfold stopTimeout
  exact if_pos (by simp only [hf, hs, hn, decide_eq_true ht, bne_iff_ne.mpr hcfg]; rfl)

/-- STOP_TMO = 0 is no timeout. -/
theorem stopTimeout_of_off (hcfg : fld (ar s .prof x.val 0x14) 0 16 = 0) : stopTimeout x t s = s := by
  unfold stopTimeout
  exact if_neg (by simp [hcfg])

theorem exec_axisStopTimeout_due (hf : s.ax[x].faultStop = true) (hcfg : fld (ar s .prof x.val 0x14) 0 16 ≠ 0) (hs : axStill s x = false)
    (ht : s.ax[x].stopSince + fld (ar s .prof x.val 0x14) 0 16 * 1000000 ≤ t)
    (hn : s.helm.latched.any (fun f => f.code == mkCode 0 x.val 7) = false) :
    ∃ n, exec (.axisStopTimeout x t) s = .next n ∧ Stands 2 (mkCode 0 x.val 7) (grpMask (grpOf x)) s n := by
  have hs' : axStill (atTime t s) x = false := by rw [atTime_eq]; exact hs
  refine ⟨_, rfl, ?_⟩
  rw [stopTimeout_of_due (by rwa [atTime_ax]) (by rwa [ar_atTime]) hs' (by rwa [atTime_ax, ar_atTime]) (by rwa [atTime_helm])]
  exact (raise_stands (by decide) _ _ _ _ _).of_eq (atTime_boot ..) (atTime_helm ..)

theorem exec_axisStopTimeout_off (hcfg : fld (ar s .prof x.val 0x14) 0 16 = 0) :
    ∃ n, exec (.axisStopTimeout x t) s = .next n ∧ Only [.now] s n := by
  refine ⟨_, rfl, ?_⟩
  rw [stopTimeout_of_off (by rwa [ar_atTime])]
  exact (atTime_keeps (Within.refl _) Keeps.refl).1

/-! ### The end of homing (05 R136) -/

theorem homeEnd_state (st : Nat) : (homeEnd st x s).homing[x].state = st := by
  unfold homeEnd
  rw [modHom_homing, if_pos rfl]

/-- What the end of homing may touch. -/
theorem homeEnd_keeps_parts (st : Nat) : Keeps [.regs, .homing] s (homeEnd st x s) := homeEnd_keeps (Within.refl _) Keeps.refl

/-- An abort is ABORTED, and its fault stands. -/
theorem homeAbort_state (num : Nat) (data : List Word) : (homeAbort num data x s).homing[x].state = 9 := by
  unfold homeAbort raiseAx
  rw [raise_homing, homeEnd_state]

theorem homeAbort_stands (num : Nat) (data : List Word) :
    Stands 1 (mkCode 5 x.val num) (1#16 <<< x.val) s (homeAbort num data x s) :=
  (raise_stands (by decide) _ _ _ _ _).of_eq ((homeEnd_keeps_parts 9).1 .boot (by decide)) ((homeEnd_keeps_parts 9).1 .helm (by decide))

theorem exec_homeTimeout (hB : AxisBoundary s x t) (hon : homingOn s x = true) (hcfg : fld (ar s .home x.val 0x44) 0 16 ≠ 0)
    (ht : s.homing[x].t0 + fld (ar s .home x.val 0x44) 0 16 * 1000000 < t) :
    ∃ n, exec (.homeTimeout x t) s = .next n ∧ n.homing[x].state = 9 ∧
      Stands 1 (mkCode 5 x.val 0x44) (1#16 <<< x.val) (motAt x t (atTime t s)) n := by
  have hdue : homeTimeout x t (motAt x t (atTime t s)) = homeAbort 0x44 [wd s.homing[x].state] x (motAt x t (atTime t s)) := by
    unfold homeTimeout homingOn at *
    rw [motAt_atTime_ar (by decide) (by omega) (by decide), motAt_atTime_homing]
    exact if_pos ⟨hon, hcfg, ht⟩
  refine ⟨_, (atAxB_of_boundary hB _).trans (congrArg _ hdue), homeAbort_state _ _, homeAbort_stands _ _⟩

theorem exec_homeNotFound (hB : AxisBoundary s x t) (hlow : 1 ≤ s.homing[x].state) (hhigh : s.homing[x].state ≤ 5) (hsub : s.homing[x].sub = 0)
    (hcfg : ar s .home x.val 0x1C ≠ 0#32)
    (hfar : (ar s .home x.val 0x1C).toNat * 65536 < ((motAt x t (atTime t s)).mot[x].p - s.homing[x].from_).natAbs) :
    ∃ n, exec (.homeNotFound x t) s = .next n ∧ n.homing[x].state = 9 ∧
      Stands 1 (mkCode 5 x.val 0x43) (1#16 <<< x.val) (motAt x t (atTime t s)) n := by
  have hlim : (ar s .home x.val 0x1C).toNat ≠ 0 := fun h => hcfg (BitVec.eq_of_toNat_eq h)
  have hdue : ∃ data, homeNotFound x (motAt x t (atTime t s)) = homeAbort 0x43 data x (motAt x t (atTime t s)) := by
    unfold homeNotFound
    rw [motAt_atTime_ar (by decide) (by omega) (by decide), motAt_atTime_homing]
    exact ⟨_, if_pos ⟨hlow, hhigh, hsub, hlim, hfar⟩⟩
  obtain ⟨data, hdue⟩ := hdue
  refine ⟨_, (atAxB_of_boundary hB _).trans (congrArg _ hdue), homeAbort_state _ _, homeAbort_stands _ _⟩

/-! ### The hard stop (05 R138) -/

/-- A readback pair is no active register. -/
theorem ar_iw64 (b : Blk) (n : Nat) {o o' : Nat} (v : Int) (h : o' + 0x200 ≠ o ∧ o' + 0x200 ≠ o + 4) :
    ar (iw64 s b n o v) b n o' = ar s b n o' :=
  (rd_wr_other _ _ (iAddr_ne b n h.2)).trans (rd_wr_other _ _ (iAddr_ne b n h.1))

/-- The shift of coordinates writes HOME_SHIFT alone. -/
theorem homeShift_regs (d : Int) : (homeShift d x s).regs = (iw64 s .home x.val 0x288 (ir64 s .home x.val 0x288 + d)).regs := by
  unfold homeShift setPt64
  dsimp only
  rw [modHom_regs, modLoop_regs, modStp_regs, modEnv_regs, modMot_regs, setPt_regs, setPt_regs]

theorem ar_homeShift (d : Int) {o : Nat} (ho : o < 0x80) : ar (homeShift d x s) .home x.val o = ar s .home x.val o := by
  have h := ar_iw64 (s := s) .home x.val (o := 0x288) (o' := o) (ir64 s .home x.val 0x288 + d) (by omega)
  unfold ar rd at *
  rw [homeShift_regs, h]

theorem homeState_state (st sub : Nat) : (homeState st sub x s).homing[x].state = st := by
  unfold homeState
  rw [modHom_homing, if_pos rfl]

theorem homeGo_homing (mv : Move) : (homeGo x t mv s).homing = s.homing := rfl

theorem homeDone_state : (homeDone x s).homing[x].state = 8 := by
  unfold homeDone
  rw [modHom_homing, if_pos rfl]
  exact homeEnd_state 8

/-- After the reference is used comes FINAL, with HOME_TGT to go to, or DONE. -/
theorem homeFinish_cases (ref : Int) : ∃ (z : State) (mv : Move),
    homeFinish ref x t s = if bit (ar s .home x.val 0) 6 then homeGo x t mv (homeState 7 0 x z) else homeDone x z := by
  unfold homeFinish
  dsimp only
  rw [ar_homeShift _ (by decide), ar_iw64 _ _ _ (by decide)]
  exact ⟨_, _, rfl⟩

theorem homeFinish_state (ref : Int) : (homeFinish ref x t s).homing[x].state = if bit (ar s .home x.val 0) 6 then 7 else 8 := by
  obtain ⟨z, mv, e⟩ := homeFinish_cases (x := x) (t := t) (s := s) ref
  rw [e]
  by_cases h : bit (ar s .home x.val 0) 6 = true
  · rw [if_pos h, if_pos h, homeGo_homing, homeState_state]
  · rw [if_neg h, if_neg h, homeDone_state]

/-- HARDSTOP counts the watches at the current of HOME_HSCUR, and ends homing once HSTIME is passed. -/
theorem hardStop_spec (hst : s.homing[x].state = 6) :
    ((ap s x 8).toInt.natAbs < (ar s .home x.val 0x40).toInt.natAbs →
      (hardStop x t s).homing[x].state = 6 ∧ (hardStop x t s).homing[x].hsCount = 0) ∧
    ((ar s .home x.val 0x40).toInt.natAbs ≤ (ap s x 8).toInt.natAbs →
      (s.homing[x].hsCount < fld (ar s .home x.val 0) 16 8 →
        (hardStop x t s).homing[x].state = 6 ∧ (hardStop x t s).homing[x].hsCount = s.homing[x].hsCount + 1) ∧
      (fld (ar s .home x.val 0) 16 8 ≤ s.homing[x].hsCount →
        (hardStop x t s).homing[x].state = if bit (ar s .home x.val 0) 6 then 7 else 8)) := by
  unfold hardStop
  dsimp only
  rw [if_neg (fun h => h hst)]
  refine ⟨fun hlow => ?_, fun hhigh => ?_⟩
  · rw [if_pos hlow, modHom_homing, if_pos rfl]
    exact ⟨hst, rfl⟩
  · rw [if_neg (Nat.not_lt.mpr hhigh)]
    refine ⟨fun hc => ?_, fun hc => ?_⟩
    · rw [if_pos hc, modHom_homing, if_pos rfl]
      exact ⟨hst, rfl⟩
    · rw [if_neg (Nat.not_lt.mpr hc), homeFinish_state]
      rfl

theorem exec_hardstopDetect (hB : AxisBoundary s x t) (hst : s.homing[x].state = 6) :
    ∃ n, exec (.hardstopDetect x t) s = .next n ∧
      ((ap s x 8).toInt.natAbs < (ar s .home x.val 0x40).toInt.natAbs → n.homing[x].state = 6 ∧ n.homing[x].hsCount = 0) ∧
      ((ar s .home x.val 0x40).toInt.natAbs ≤ (ap s x 8).toInt.natAbs →
        (s.homing[x].hsCount < fld (ar s .home x.val 0) 16 8 → n.homing[x].state = 6 ∧ n.homing[x].hsCount = s.homing[x].hsCount + 1) ∧
        (fld (ar s .home x.val 0) 16 8 ≤ s.homing[x].hsCount → n.homing[x].state = if bit (ar s .home x.val 0) 6 then 7 else 8)) := by
  have h := hardStop_spec (x := x) (t := t) (s := motAt x t (atTime t s)) (by rwa [motAt_atTime_homing])
  rw [motAt_atTime_reports.ap_eq x 8, motAt_atTime_ar (o := 0x40) (by decide) (by omega) (by decide),
    motAt_atTime_ar (o := 0) (by decide) (by omega) (by decide), motAt_atTime_homing] at h
  exact ⟨_, atAxB_of_boundary hB _, h⟩

/-! ### A master or a superposition that stays away (04 R108, R117) -/

theorem gearStale_of_due (hg : geared s x = true) (hk : fld (ar s .prof x.val 0x80) 0 3 = 4) (hage : staleBound s x < recAge s x t)
    (hs : s.gear[x].stale = false) :
    (gearStale x t s).gear[x].stale = true ∧ Stands 1 (mkCode 5 x.val 0x21) (1#16 <<< x.val) s (gearStale x t s) := by
  unfold gearStale
  dsimp only
  rw [if_pos (by simp only [hg, hk, hs, decide_eq_true hage]; rfl)]
  refine ⟨?_, (raise_stands (by decide) _ _ _ _ _).of_eq rfl rfl⟩
  unfold raiseAx
  rw [raise_gear, modGear_gear, if_pos rfl]

theorem exec_gearMasterStale (hB : AxisBoundary s x t) (hg : geared s x = true) (hk : fld (ar s .prof x.val 0x80) 0 3 = 4)
    (hage : staleBound s x < recAge s x t) (hs : s.gear[x].stale = false) :
    ∃ n, exec (.gearMasterStale x t) s = .next n ∧ n.gear[x].stale = true ∧
      Stands 1 (mkCode 5 x.val 0x21) (1#16 <<< x.val) (motAt x t (atTime t s)) n := by
  have hsrc : ar (motAt x t (atTime t s)) .prof x.val 0x80 = ar s .prof x.val 0x80 := motAt_atTime_ar (by decide) (by omega) (by decide)
  have hbound : staleBound (motAt x t (atTime t s)) x = staleBound s x := by
    unfold staleBound trOf gW gN gT gTicks
    rw [hsrc, motAt_atTime_ar (b := .ring) (by decide) (by omega) (by decide), motAt_atTime_ar (b := .pwm) (by decide) (by omega) (by decide)]
  refine ⟨_, atAxB_of_boundary hB _, gearStale_of_due ?_ (by rwa [hsrc]) ?_ (by rwa [motAt_atTime_gear])⟩
  · unfold geared at *
    rwa [motAt_atTime_gear]
  · rw [hbound]
    unfold recAge at *
    rwa [motAt_atTime_gear]

theorem superStale_of_due (hon : s.sup[x].on = true) (hcfg : fld (ar s .prof x.val 0xAC) 0 4 ≠ 0)
    (hage : fld (ar s .prof x.val 0xAC) 0 4 < s.sup[x].age) (hh : s.sup[x].held = false) :
    (superStale x s).sup[x].held = true ∧ (superStale x s).sup[x].s = s.sup[x].s := by
  unfold superStale ev
  dsimp only
  rw [if_pos ⟨hon, hcfg, hage, by rw [hh]; rfl⟩, raise_sup, modSup_sup, if_pos rfl]
  exact ⟨rfl, rfl⟩

theorem exec_superStale (hB : AxisBoundary s x t) (hon : s.sup[x].on = true) (hcfg : fld (ar s .prof x.val 0xAC) 0 4 ≠ 0)
    (hage : fld (ar s .prof x.val 0xAC) 0 4 < s.sup[x].age) (hh : s.sup[x].held = false) :
    ∃ n, exec (.superStale x t) s = .next n ∧ n.sup[x].held = true ∧ n.sup[x].s = s.sup[x].s := by
  have h := superStale_of_due (x := x) (s := motAt x t (atTime t s))
  rw [motAt_atTime_ar (by decide) (by omega) (by decide), motAt_atTime_sup] at h
  exact ⟨_, atAxB_of_boundary hB _, h hon hcfg hage hh⟩

end

/-- Settles O21: every event does what its rule says, each by the lemma of its own section. -/
theorem axisEvents : Obligations.AxisEvents := by
  refine ⟨fun x k clocks t s => ⟨exec_sdStuck_short, exec_sdStuck_long⟩, exec_hkConversion, exec_stepHoldCurrent,
    fun x t s => exec_axisStopTimeout_due, fun x t s => exec_axisStopTimeout_off, fun x t s hB => ?_⟩
  exact ⟨exec_homeTimeout hB, exec_homeNotFound hB, exec_hardstopDetect hB, exec_gearMasterStale hB, exec_superStale hB⟩

end Sys2Proof.Machine
end

section
/-!
PROOFS. The address registers of a Sextant cluster through a word (11 R283; 12 R305, R306, R311): the arithmetic slot writes a pointer only by its
special-register number, the moves step the pointers that they post-modify, and LDAG loads one pointer with its modifier, base and length.
-/
namespace Sys2Proof.Machine

/-! ### Pointers that the arithmetic slot leaves -/

section Arith
variable (c0 c : Cluster)

theorem sticky_p (i : Nat) (h : Bool) : (sticky i h c).p = c.p := congrArg Prod.fst (sticky_ptrs c i h)

theorem overLanes_p {f : Fin 4 → Cluster → Cluster} (hf : ∀ l d, (f l d).p = d.p) : (overLanes f c).p = c.p := by
  rw [overLanes_eq, hf, hf, hf, hf]

/-- A write under the mask of R303, with the sticky flag that a held result sets. -/
theorem overLanes_masked_p {on : Fin 4 → Bool} {i : Nat} {hit : Fin 4 → Bool} {put : Fin 4 → Cluster → Cluster} (hp : ∀ l d, (put l d).p = d.p) :
    (overLanes (fun l d => if on l then sticky i (hit l) (put l d) else d) c).p = c.p := by
  refine overLanes_p c fun l d => ?_
  split
  · rw [sticky_p, hp]
  · rfl

theorem laneOp_p (k : LaneK) (fmt : Nat) (msk : Bool) (d a b : Fin 32) (aux k0 : Nat) : (laneOp k fmt msk d a b aux k0 c0 c).p = c.p := by
  unfold laneOp
  dsimp only
  split_ifs
  · exact overLanes_p c fun _ _ => rfl
  · rfl
  · exact overLanes_masked_p c fun _ _ => rfl
  · exact overLanes_masked_p c fun _ _ => rfl
  · exact overLanes_masked_p c fun _ _ => rfl

theorem shaOp_p (fmt : Nat) (msk : Bool) (d cnt : Nat) : (shaOp fmt msk d cnt c0 c).p = c.p :=
  overLanes_masked_p c fun _ _ => rfl

theorem scalOp_p (k : ScalK) (sd sa sb : Nat) (i : Bool) (imm : Nat) : (scalOp k sd sa sb i imm c0 c).p = c.p := by
  unfold scalOp
  dsimp only
  split <;> rfl

theorem immOp_p (k : ImmK) (sd imm : Nat) : (immOp k sd imm c0 c).p = c.p := by cases k <;> rfl

/-- Table 12-4: the number of pointer j is j; a write of another number leaves it. -/
theorem spWrite_p_other {n : Nat} (v : Word) {j : Fin 8} (h : n ≠ j.val) : (c.spWrite n v).p[j] = c.p[j] := by
  unfold Cluster.spWrite
  dsimp only
  split_ifs with hn
  · have e : (Fin.ofNat 8 n : Fin 8).val = n := Nat.mod_eq_of_lt hn
    simp only [e, Fin.getElem_fin, Vector.getElem_set_ne _ _ h]
  · rfl
  · rfl
  · rfl
  · split <;> rfl

theorem arithOp_p_keep (a : Arith) (k0 : Nat) {j : Fin 8} (h : SxReg.sp j.val ∉ a.writes) : (arithOp a k0 c0 c).p[j] = c.p[j] := by
  have hne : ∀ {r : Fin 64}, SxReg.sp j.val ∉ [SxReg.sp r.val] → r.val ≠ j.val := fun hr e => hr (e ▸ List.mem_cons_self ..)
  cases a with
  | nop => rfl
  | lane k fmt msk d a b aux => exact congrArg (·[j]) (laneOp_p c0 c k fmt.val msk d a b aux.val k0)
  | sha fmt msk d cnt => exact congrArg (·[j]) (shaOp_p c0 c fmt.val msk d.val cnt.val)
  | scal k sd sa sb i imm => exact congrArg (·[j]) (scalOp_p c0 c k sd.val sa.val sb.val i imm.val)
  | simm k sd gap imm => exact congrArg (·[j]) (immOp_p c0 c k sd.val imm.val)
  | srd => rfl
  | swr r sa => exact spWrite_p_other c _ (hne h)
  | swri r imm => exact spWrite_p_other c _ (hne h)

end Arith

/-! ### LDAG -/

/-- The four words of Y memory at a, their low halves in the order P, M, B, L. -/
theorem yMove_ldag (c0 c : Cluster) (j : Fin 8) (a : Fin 2048) :
    let d := (yMove (.ldag j a) c0 c).1
    let h := fun k => (sget xyDefault c0.y (a.val + k)).setWidth 16
    d.p[j] = h 0 ∧ d.m[j] = h 1 ∧ d.b[j] = h 2 ∧ d.l[j] = h 3 := by
  simp only [yMove, Fin.getElem_fin, Vector.getElem_set_self, BitVec.ofNat_toNat, and_self]

/-! ### The word -/

section Word
variable (g : Fin 4) (raw : DWord) {w : SxWord} (s : State)

/-- A pointer that neither the arithmetic slot nor LDAG writes: the X-move's step, then the Y-move's, by the modifiers that the word found. -/
theorem word_p {j : Fin 8} (ha : SxReg.sp j.val ∉ w.ar.writes) (hy : SxReg.sp j.val ∉ w.ys.writes) :
    let c := s.clu[g]
    let step := fun p => stepPtr p c.m[j] c.b[j] c.l[j]
    let px := if w.xs.post = some j.val then step c.p[j] else c.p[j]
    (wordCluster g raw w s).p[j] = if w.ys.post = some j.val then step px else px := by
  dsimp only
  rw [(word_ptrs g raw s w).1, yMove_p _ _ _ j hy, xMove_p, arithOp_p_keep _ _ _ _ ha]

theorem word_ldag {j : Fin 8} {a : Fin 2048} (hy : w.ys = .ldag j a) :
    let d := wordCluster g raw w s
    let h := fun k => (sget xyDefault s.clu[g].y (a.val + k)).setWidth 16
    d.p[j] = h 0 ∧ d.m[j] = h 1 ∧ d.b[j] = h 2 ∧ d.l[j] = h 3 := by
  obtain ⟨hp, hm, hb, hl, -⟩ := word_ptrs g raw s w
  dsimp only
  rw [hp, hm, hb, hl, hy]
  exact yMove_ldag ..

/-- The row of a word that stays in its entry answers the state whose cluster the word leaves. -/
theorem rowOf_clu {g : Fin 4} {s : State} {t : Nat} {i : Instr} (r : rowOf w g t i) (h : Issues s g w) (st : stays w) :
    ∃ n, exec i s = .next n ∧ n.clu[g] = wordCluster g (nextWord s g) w (atTime t s) := by
  refine ⟨_, rowOf_runs r h, ?_⟩
  rw [runWord_clu st, Fin.getElem_fin, Vector.getElem_set_self]

end Word

/-- Settles O44: one post-modify steps a pointer once, none leaves it, and LDAG loads from the Y memory that the word found. -/
theorem sextantAddressRegisters : Obligations.SextantAddressRegisters := by
  intro w g t i s r h st
  obtain ⟨n, hn, hclu⟩ := rowOf_clu r h st
  refine ⟨n, hn, ?_⟩
  dsimp only
  rw [hclu, ← atTime_clu (t := t) (s := s)]
  refine ⟨fun j ⟨ha, hy⟩ hpost => ?_, fun j ⟨ha, hy⟩ hx hyp => ?_, fun j a hy => word_ldag g _ _ hy⟩
  · rw [word_p g _ _ ha hy]
    obtain ⟨hx, hyp⟩ | ⟨hx, hyp⟩ := hpost
    · rw [if_neg hyp, if_pos hx]
      rfl
    · rw [if_pos hyp, if_neg hx]
      rfl
  · rw [word_p g _ _ ha hy, if_neg hyp, if_neg hx]

end Sys2Proof.Machine
end

section
/-!
PROOFS. The MODE point and the STO bits (02 R34; 18 R438, R439): reporting a fault leaves every point but three, removing torque turns no group's STO
off, and the STO decisions of SLEEP leave every group in STO.
-/
namespace Sys2Proof.Machine

/-! ### The points that reporting writes -/

/-- The points that the reporting of faults and events writes: FAULT_SUMMARY, FIRST, and the lost log entries. -/
def reportPts : List Nat := [2, 3, 70]

section
variable {s t : State} {i : Nat}

/-- A fold of changes that leave a point leaves it. -/
theorem pt_forEach {α : Type} {l : List α} {f : α → State → State} (hf : ∀ a x, pt (f a x) i = pt x i) : pt (forEach l f s) i = pt s i := by
  induction l generalizing s with
  | nil => rfl
  | cons a l ih => exact (ih (s := f a s)).trans (hf a s)

theorem Keeps.pt_eq {P : List Part} (h : Keeps P s t) (hp : Part.pts ∉ P) (i : Nat) : pt t i = pt s i := by
  have hpts : t.pts = s.pts := h.1 .pts hp
  unfold pt
  rw [hpts]

theorem pt_enterRaw (q : Fin 64) (m : Nat) (f : FaultRec) (ws : List Word) : pt (enterRaw q m f ws s).2 i = pt s i :=
  (enterRaw_keeps (Within.refl _) Keeps.refl).pt_eq (by decide) i

theorem pt_wr (a : Nat) (v : Word) : pt (wr s a v) i = pt s i := rfl

/-- A trigger leaves the points that its log leaves. -/
theorem pt_raiseTrigBy {log : FaultRec → State → State} (hlog : ∀ f x, pt (log f x) i = pt x i) (g : Fin 4) (tr : Trig) :
    pt (raiseTrigBy log g tr s) i = pt s i := by
  unfold raiseTrigBy
  dsimp only
  split_ifs
  · rfl
  · rfl
  · exact pt_wr _ _
  · exact (hlog _ _).trans (pt_wr _ _)
  · rfl

section
variable (hi : i ∉ reportPts)
include hi

theorem pt_setPt_report {j : Nat} {v : Word} (hj : j ∈ reportPts) : pt (setPt s j v) i = pt s i :=
  pt_setPt_other _ _ fun e => hi (e ▸ hj)

theorem pt_logRaw (f : FaultRec) : pt (logRaw f s) i = pt s i := by
  have he := pt_enterRaw (s := s) (i := i) 2 10 f (logWords f)
  unfold logRaw
  dsimp only
  split
  · exact he
  · exact (pt_setPt_report hi (by decide)).trans he

theorem pt_logRec (f : FaultRec) : pt (logRec f s) i = pt s i := by
  unfold logRec
  dsimp only
  split
  · exact (pt_forEach fun _ _ => pt_raiseTrigBy (fun f _ => pt_logRaw hi f) _ _).trans (pt_logRaw hi f)
  · exact pt_logRaw hi f

theorem pt_enterFault (q : Fin 64) (m : Nat) (f : FaultRec) : pt (enterFault q m f s).2 i = pt s i := by
  have he := pt_enterRaw (s := s) (i := i) q m f [faultWord f]
  unfold enterFault
  dsimp only
  split
  · exact (pt_forEach fun _ _ => pt_raiseTrigBy (fun f _ => pt_logRec hi f) _ _).trans he
  · exact he

theorem pt_toQueue0 (f : FaultRec) : pt (toQueue0 f s) i = pt s i := by
  have he := pt_enterFault (s := s) hi 0 10 f
  unfold toQueue0
  dsimp only
  split_ifs
  · exact he
  · exact he
  · exact he

theorem pt_firstPut (f : FaultRec) : pt (firstPut f s) i = pt s i := by
  unfold firstPut
  split
  · exact pt_setPt_report (s := s) hi (by decide)
  · rfl

theorem pt_sumUpd : pt (sumUpd s) i = pt s i := by
  unfold sumUpd
  split
  · exact pt_setPt_report hi (by decide)
  · rfl

theorem pt_raiseRec (f : FaultRec) : pt (raiseRec f s) i = pt s i := by
  unfold raiseRec
  dsimp only
  split_ifs
  · exact pt_logRec hi _
  · rw [pt_sumUpd hi, pt_firstPut hi, pt_enterFault hi, pt_logRec hi]
    rfl
  · rw [pt_sumUpd hi, pt_firstPut hi, pt_toQueue0 hi, pt_logRec hi]
    rfl

end
end

/-! ### STO that is applied stays -/

/-- From s to t the MODE point stays, and STO goes off on no group. -/
def StoHolds (s t : State) : Prop := pt t 0 = pt s 0 ∧ ∀ g, stoOn s g = true → stoOn t g = true

section
variable {s t u : State}

theorem StoHolds.refl : StoHolds s s := ⟨rfl, fun _ h => h⟩

theorem StoHolds.trans (h : StoHolds s t) (k : StoHolds t u) : StoHolds s u := ⟨k.1.trans h.1, fun g hg => k.2 g (h.2 g hg)⟩

theorem StoHolds.mode_eq (h : StoHolds s t) : mode t = mode s := by
  unfold mode
  rw [h.1]

/-- STO is read from the registers, the mode from the points. -/
theorem StoHolds.upd (h : StoHolds s t) (hr : u.regs = t.regs) (hp : u.pts = t.pts) : StoHolds s u :=
  h.trans ⟨by unfold pt; rw [hp], fun g hg => by unfold stoOn br rd at *; rwa [hr]⟩

theorem Keeps.stoHolds {P : List Part} (hk : Keeps P t u) (hr : Part.regs ∉ P) (hp : Part.pts ∉ P) (h : StoHolds s t) : StoHolds s u :=
  h.upd (hk.1 _ hr) (hk.1 _ hp)

theorem StoHolds.ite {c : Prop} [Decidable c] {a b : State} (ha : StoHolds s a) (hb : StoHolds s b) : StoHolds s (if c then a else b) := by
  split <;> assumption

theorem forEach_stoHolds {α : Type} {l : List α} {f : α → State → State} (hf : ∀ a x, StoHolds s x → StoHolds s (f a x)) (h : StoHolds s t) :
    StoHolds s (forEach l f t) := by
  induction l generalizing t with
  | nil => exact h
  | cons a l ih => exact ih (hf a t h)

/-- A write outside SAFE_STATUS. -/
theorem wr_stoHolds {a : Nat} {v : Word} (ha : bAddr .safe 0 ≠ a) (h : StoHolds s t) : StoHolds s (wr t a v) :=
  h.trans ⟨rfl, fun g hg => by unfold stoOn br at *; rwa [rd_wr_other _ _ ha]⟩

theorem iwBit_stoHolds {b : Blk} {n o i : Nat} {v : Bool} (hn : n < 32) (ho : o < 0x400) (h : StoHolds s t) : StoHolds s (iwBit t b n o i v) :=
  wr_stoHolds (iAddr_ne_bAddr b .safe hn ho (by decide)).symm h

/-- A bit of SAFE_STATUS that is set, or that is none of STO. -/
theorem sstat_stoHolds {i : Nat} {v : Bool} (hv : v = true ∨ 4 ≤ i) (h : StoHolds s t) : StoHolds s (sstat i v t) := by
  refine h.trans ⟨rfl, fun g hg => ?_⟩
  unfold stoOn sstat br bwBit bw at *
  rw [rd_wr_same, bit_setBit _ _ _ _ (by omega)]
  split
  next e =>
    rcases hv with hv | hv
    · exact hv
    · omega
  next => exact hg

theorem raise_stoHolds {lvl : Nat} {code axes : BitVec 16} {axis : Nat} {data : List Word} (h : StoHolds s t) :
    StoHolds s (raise lvl code axes axis data t) := by
  have hr := (raise_reports (lvl := lvl) (code := code) (axes := axes) (axis := axis) (data := data) (Reports.refl (s := t))).1
    (bAddr .safe 0) (by decide)
  refine h.trans ⟨pt_raiseRec (by decide) _, fun g hg => ?_⟩
  unfold stoOn br at *
  rwa [hr]

/-! ### One rule per operation -/

theorem rbCheck_stoHolds (h : StoHolds s t) : StoHolds s (rbCheck t) :=
  StoHolds.ite (wr_stoHolds (by decide) (wr_stoHolds (by decide) (h.upd rfl rfl))) h

theorem satEnd_stoHolds {n : Fin 16} (h : StoHolds s t) : StoHolds s (satEnd n t) :=
  StoHolds.ite (raise_stoHolds (h.upd rfl rfl)) (h.upd rfl rfl)

theorem homedLost_stoHolds {c : Nat} {n : Fin 16} (h : StoHolds s t) : StoHolds s (homedLost c n t) :=
  StoHolds.ite (raise_stoHolds (iwBit_stoHolds (by omega) (by decide) (wr_stoHolds (by decide) (h.upd rfl rfl)))) h

theorem torqueOff_stoHolds {n : Fin 16} (h : StoHolds s t) : StoHolds s (torqueOff n t) := by
  unfold torqueOff
  extract_lets due x1 x2 x3 adm1 x4 x5 x6 drv1 x7 w x8
  have h1 : StoHolds s x1 := (pathOff_keeps (Within.refl _) Keeps.refl).stoHolds (by decide) (by decide) (h.upd rfl rfl)
  clear_value x1
  have h5 : StoHolds s x5 := h1.upd rfl rfl
  clear_value x5
  have h6 : StoHolds s x6 := (satEnd_stoHolds h5).upd (modLoop_regs ..) (modLoop_pts ..)
  clear_value x6
  have h7 : StoHolds s x7 := by
    unfold x7
    split
    · exact h6.upd rfl rfl
    · exact h6
  clear_value x7
  have h8 : StoHolds s x8 := StoHolds.ite (homedLost_stoHolds h7) h7
  clear_value x8
  exact rbCheck_stoHolds (wr_stoHolds (by decide) h8)

/-- STO applied to a group is on there, and goes off nowhere. -/
theorem stoApply_stoHolds (g : Fin 4) : StoHolds s (stoApply g s) ∧ stoOn (stoApply g s) g = true := by
  unfold stoApply
  extract_lets x1 x2 x3 x4
  have h1 : StoHolds s x1 :=
    StoHolds.ite (sstat_stoHolds (.inr (by omega)) (StoHolds.refl.upd rfl rfl)) StoHolds.refl
  have h2 : StoHolds s x2 := (sstat_stoHolds (.inl rfl) h1).upd rfl rfl
  have on2 : stoOn x2 g = true := bit_br_bwBit x1 .safe 0 true (by omega)
  have later : ∀ z, StoHolds z x2 → StoHolds z (forEach (sbcOfGrp x4 g) (fun b s =>
      let d := fld (safeBlk s (39 + b.val)) 8 8
      if d = 0 then sdem (24 + b.val) false s
      else modSafe (fun x => { x with sbcOff := x.sbcOff.set b.val (some (x.cyc + 4 * d)) }) s) x4) := fun z hz =>
    forEach_stoHolds (fun _ _ hx => StoHolds.ite (wr_stoHolds (by decide) hx) (hx.upd rfl rfl))
      (forEach_stoHolds (fun _ _ => torqueOff_stoHolds) (StoHolds.ite (hz.upd rfl rfl) hz))
  exact ⟨later s h2, (later x2 StoHolds.refl).2 g on2⟩

/-! ### The STO decisions of SLEEP (18 R439) -/

/-- SLEEP calls for STO on every group. -/
theorem stoGrp_of_sleep (hm : mode s = mSleep) (g : Fin 4) : StoHolds s (stoGrp g s) ∧ stoOn (stoGrp g s) g = true := by
  have hw : stoWant s g = true := by simp [stoWant, hm]
  unfold stoGrp
  rw [if_pos hw]
  split
  next h => exact ⟨StoHolds.refl, h⟩
  next => exact stoApply_stoHolds g

theorem forEach_stoGrp_of_sleep {l : List (Fin 4)} (hm : mode s = mSleep) :
    StoHolds s (forEach l stoGrp s) ∧ ∀ g ∈ l, stoOn (forEach l stoGrp s) g = true := by
  induction l generalizing s with
  | nil => exact ⟨StoHolds.refl, by simp⟩
  | cons a l ih =>
    obtain ⟨hs, hon⟩ := stoGrp_of_sleep hm a
    obtain ⟨hs', hon'⟩ := ih (hs.mode_eq.trans hm)
    refine ⟨hs.trans hs', fun g hg => ?_⟩
    rcases List.mem_cons.mp hg with rfl | hg
    · exact hs'.2 g hon
    · exact hon' g hg

theorem stoDecide_of_sleep (hm : mode s = mSleep) : StoHolds s (stoDecide s) ∧ ∀ g, stoOn (stoDecide s) g = true := by
  obtain ⟨hs, hon⟩ := forEach_stoGrp_of_sleep (l := allGroups) hm
  exact ⟨hs, fun g => hon g (List.mem_finRange g)⟩

end

end Sys2Proof.Machine
end

section
/-!
PROOFS. What a cold reset leaves, and the supply's events (20 R491 to R494, R508): every register but the kept ones at its reset value, BOOT held in reset,
and the cause in PMU_RESETCAUSE.
-/
namespace Sys2Proof.Machine

/-! ### The state that a cold reset leaves -/

section
variable {s : State}

theorem rd_keepRegs_of_notMem {l : List Nat} {old : State} {a : Nat} (ha : a ∉ l) : rd (keepRegs l old s) a = rd s a := by
  unfold keepRegs
  induction l generalizing s with
  | nil => rfl
  | cons b l ih =>
    exact (ih (s := wr s b (rd old b)) (List.not_mem_of_not_mem_cons ha)).trans (rd_wr_other _ _ (List.ne_of_not_mem_cons ha))

/-- The reset state with the parts that a cold reset takes over, before the kept registers are copied. -/
def coldBase (s : State) : State :=
  let r := State.reset
  { r with
    fresh := s.fresh, pending := s.pending, pins := s.pins,
    pwr := { s.pwr with sleepFrom := none, wakeStep := none, warm := false, sealed := false },
    boot := { r.boot with pms := s.boot.pms, jobs := eraseLeft s, wasHomed := s.boot.wasHomed ||| axMask (fun n => s.homing[n].homed) },
    safe := { r.safe with record := s.safe.record, recCrc := s.safe.recCrc } }

/-- A cold reset writes registers alone after that: the kept ones, and STO on every group. -/
theorem resetState_cold (s : State) :
    resetState false s =
      bw (keepRegs (keptRegs false) s (coldBase s)) .safe 0 (setFld (br (keepRegs (keptRegs false) s (coldBase s)) .safe 0) 0 4 15) := rfl

theorem resetState_cold_keeps (s : State) : Keeps [.regs] (coldBase s) (resetState false s) := by
  rw [resetState_cold]
  exact bw_keeps (Within.refl _) (keepRegs_keeps (Within.refl _) Keeps.refl)

theorem resetState_cold_pwr (s : State) :
    (resetState false s).pwr = { s.pwr with sleepFrom := none, wakeStep := none, warm := false, sealed := false } :=
  (resetState_cold_keeps s).1 .pwr (by decide)

theorem resetState_cold_ax (s : State) : (resetState false s).ax = State.reset.ax := (resetState_cold_keeps s).1 .ax (by decide)

theorem resetState_cold_mode (s : State) : mode (resetState false s) = mBoot := by
  unfold mode
  rw [(resetState_cold_keeps s).pt_eq (by decide)]
  rfl

/-- A register that is not kept has its reset value. -/
theorem rd_resetState_cold {a : Nat} (hk : a ∉ keptRegs false) (hs : a ≠ bAddr .safe 0) : rd (resetState false s) a = regReset a := by
  rw [resetState_cold]
  exact (rd_wr_other _ _ hs).trans (rd_keepRegs_of_notMem hk)

theorem inReset_of_cold (s : State) : inReset (resetState false s) = true := by
  unfold inReset br
  rw [rd_resetState_cold (by decide) (by decide)]
  decide

/-- Any reset leaves the straps and the test access port. -/
theorem resetState_pins (warm : Bool) (s : State) : (resetState warm s).pins = s.pins :=
  (resetState_keeps (Within.refl _) (Keeps.refl (s := s))).1 .pins (by decide)

end

/-! ### PMU_RESETCAUSE -/

section
variable (s : State)

theorem bit_cause {v : Word} {i : Nat} (h : bit v i = true) : bit (br (cause v s) .pmu 0x30) i = true := by
  have hput : br (cause v s) .pmu 0x30 = br s .pmu 0x30 ||| v := rd_wr_same _ _ _
  unfold bit at *
  rw [hput, BitVec.getLsbD_or, h, Bool.or_true]

/-- The cause of a rail is marked, and RAIL names it. -/
theorem causeRail_spec {i r : Nat} (hi : i < 6) (hr : r < 8) :
    bit (br (causeRail i r s) .pmu 0x30) i = true ∧ fld (br (causeRail i r s) .pmu 0x30) 6 3 = r := by
  have hput : br (causeRail i r s) .pmu 0x30 = setFld (setBit (br s .pmu 0x30) i true) 6 3 r := rd_wr_same _ _ _
  rw [hput]
  constructor
  · rw [bit_setFld _ _ _ _ _ (by omega), if_neg (by omega), bit_setBit _ _ _ _ (by omega), if_pos rfl]
  · rw [fld_setFld_same _ _ _ _ (by decide)]
    exact Nat.mod_eq_of_lt hr

/-! ### The rails -/

theorem railsUp_pgood : br (railsUp s) .pmu 0 = 0x1F#32 := rd_wr_same _ _ _

/-- PMU_RESETCAUSE stands while the rails come up. -/
theorem railsUp_cause : br (railsUp s) .pmu 0x30 = br s .pmu 0x30 := rd_wr_other _ _ (by decide)

theorem railsDown_pwr :
    (railsDown s).pwr = { s.pwr with up := false, sleepFrom := none, wakeStep := none, warm := false, sealed := false } :=
  congrArg (fun p : Power => { p with up := false }) (resetState_cold_pwr s)

theorem railsDown_mode : mode (railsDown s) = mBoot := by
  have hm := resetState_cold_mode s
  unfold railsDown
  generalize resetState false s = z at hm ⊢
  exact hm

/-! ### The supply's events -/

variable {s}

/-- R493: the cause is a power-up, and the count of timeouts begins anew. -/
theorem exec_powerUp (h : s.pwr.up = false) :
    ∃ n, exec .powerUp s = .next n ∧ n.pwr.up = true ∧ n.pwr.fails = 0 ∧ n.pwr.dead = false ∧ br n .pmu 0 = 0x1F#32 ∧
      bit (br n .pmu 0x30) 0 = true := by
  have hex : exec .powerUp s = .next (if s.pwr.up then s
    else railsUp (bw (cause 1#32 (modPwr (fun p => { p with dead := false, fails := 0, ovp := false }) s)) .pmu 0x3C 0#32)) := rfl
  rw [if_neg (by simp [h])] at hex
  refine ⟨_, hex, rfl, rfl, rfl, railsUp_pgood _, ?_⟩
  rw [railsUp_cause]
  unfold br bw
  rw [rd_wr_other _ _ (by decide)]
  exact bit_cause _ (by decide)

/-- R493: a rail that is not good in time. -/
theorem exec_railTmo (r : Fin 5) (hup : s.pwr.up = true) (hr : inReset s = true) :
    ∃ n, exec (.railTmo r) s = .next n ∧ n.pwr.up = false ∧ n.pwr.fails = s.pwr.fails + 1 ∧
      n.pwr.dead = decide (2 ≤ s.pwr.fails) ∧ bit (br n .pmu 0x30) 5 = true ∧ fld (br n .pmu 0x30) 6 3 = r.val := by
  have hex : exec (.railTmo r) s = .next (if s.pwr.up ∧ inReset s then
      causeRail 5 r.val (railsDown (modPwr (fun p => { p with fails := p.fails + 1, dead := decide (2 ≤ p.fails) }) s))
    else s) := rfl
  rw [if_pos ⟨hup, hr⟩] at hex
  refine ⟨_, hex, ?_⟩
  have hpwr := railsDown_pwr (modPwr (fun p => { p with fails := p.fails + 1, dead := decide (2 ≤ p.fails) }) s)
  have hcause := causeRail_spec (railsDown (modPwr (fun p => { p with fails := p.fails + 1, dead := decide (2 ≤ p.fails) }) s))
    (i := 5) (r := r.val) (by decide) (by omega)
  generalize railsDown _ = z at hpwr hcause
  refine ⟨?_, ?_, ?_, hcause⟩
  · exact congrArg Power.up hpwr
  · exact congrArg Power.fails hpwr
  · exact congrArg Power.dead hpwr

theorem exec_railSequenceRestart (hup : s.pwr.up = false) (hdead : s.pwr.dead = false) (hovp : s.pwr.ovp = false) :
    ∃ n, exec .railSequenceRestart s = .next n ∧ n.pwr.up = true := by
  have hex : exec .railSequenceRestart s = .next (if s.pwr.up ∨ s.pwr.dead ∨ s.pwr.ovp then s else railsUp s) := rfl
  rw [if_neg (by simp [hup, hdead, hovp])] at hex
  exact ⟨_, hex, rfl⟩

/-- What a brownout of any cause leaves before its cause is recorded. -/
def brownedOut (s : State) : State := railsDown (modPwr (fun p => { p with browned := true }) s)

theorem brownedOut_up : (brownedOut s).pwr.up = false := congrArg Power.up (railsDown_pwr _)
theorem brownedOut_browned : (brownedOut s).pwr.browned = true := congrArg Power.browned (railsDown_pwr _)
theorem brownedOut_mode : mode (brownedOut s) = mBoot := railsDown_mode _

theorem brownout_of_up {c r : Nat} (hup : s.pwr.up = true) :
    brownout c r s =
      if c = 0 then cause 4#32 (brownedOut s)
      else if c = 1 then causeRail 3 r (brownedOut s)
      else bwBit (cause 16#32 (modPwr (fun p => { p with ovp := true }) (brownedOut s))) .pmu 0 6 true := by
  unfold brownout
  rw [if_pos hup]
  rfl

/-- R491, R494: VSUP too low, a rail, or VSUP too high. -/
theorem exec_brownout (c : Fin 3) (r : Fin 5) (hup : s.pwr.up = true) :
    ∃ n, exec (.brownout c r) s = .next n ∧ n.pwr.up = false ∧ mode n = mBoot ∧ n.pwr.browned = true ∧
      bit (br n .pmu 0x30) (2 + c.val) = true ∧ (c = 1 → fld (br n .pmu 0x30) 6 3 = r.val) ∧
      (c = 2 → n.pwr.ovp = true ∧ bit (br n .pmu 0) 6 = true) := by
  refine ⟨_, congrArg Host.Outcome.next (brownout_of_up hup), ?_⟩
  have hoff := brownedOut_up (s := s)
  have hm := brownedOut_mode (s := s)
  have hb := brownedOut_browned (s := s)
  generalize brownedOut s = z at hoff hm hb ⊢
  match c with
  | 0 => exact ⟨hoff, hm, hb, bit_cause z (by decide), by simp, by simp⟩
  | 1 =>
    obtain ⟨hbit, hrail⟩ := causeRail_spec z (i := 3) (r := r.val) (by decide) (by omega)
    exact ⟨hoff, hm, hb, hbit, fun _ => hrail, by simp⟩
  | 2 =>
    refine ⟨hoff, hm, hb, ?_, by simp, fun _ => ⟨rfl, bit_br_bwBit _ _ _ _ (by decide)⟩⟩
    have hput := bit_cause (modPwr (fun p => { p with ovp := true }) z) (v := 16#32) (i := 4) (by decide)
    unfold br at hput ⊢
    exact (congrArg (bit · 4) (rd_wr_other _ _ (by decide))).trans hput

/-- R491: VSUP is back in range. -/
theorem exec_ovpRelease (hovp : s.pwr.ovp = true) (hdead : s.pwr.dead = false) :
    ∃ n, exec .ovpRelease s = .next n ∧ n.pwr.ovp = false ∧ n.pwr.up = true := by
  have hex : exec .ovpRelease s = .next (if s.pwr.ovp then
      let s := bwBit (modPwr (fun p => { p with ovp := false }) s) .pmu 0 6 false
      if s.pwr.dead then s else railsUp s
    else s) := rfl
  have hdead' : (bwBit (modPwr (fun p => { p with ovp := false }) s) .pmu 0 6 false).pwr.dead = false := hdead
  rw [if_pos hovp] at hex
  dsimp only at hex
  rw [if_neg (by rw [hdead']; decide)] at hex
  exact ⟨_, hex, rfl, rfl⟩

/-- R493: RESETN driven low from outside is a cold reset. -/
theorem exec_resetnExternalLow (hup : s.pwr.up = true) :
    ∃ n, exec .resetnExternalLow s = .next n ∧ n.pwr.resetLow = true ∧ mode n = mBoot ∧ inReset n = true ∧
      bit (br n .pmu 0x30) 1 = true ∧ ∀ x : Fin 16, n.ax[x].seq = .disabled := by
  have hex : exec .resetnExternalLow s =
      .next (if s.pwr.up then cause 2#32 (modPwr (fun p => { p with resetLow := true }) (resetState false s)) else s) := rfl
  rw [if_pos hup] at hex
  refine ⟨_, hex, ?_⟩
  have hm := resetState_cold_mode s
  have hr := inReset_of_cold s
  have hax := resetState_cold_ax s
  generalize resetState false s = z at hm hr hax ⊢
  refine ⟨rfl, hm, ?_, bit_cause _ (by decide), fun x => ?_⟩
  · unfold inReset br at hr ⊢
    exact (congrArg (fun w => fld w 0 3 == 0) (rd_wr_other _ _ (by decide))).trans hr
  · have hz : (cause 2#32 (modPwr (fun p => { p with resetLow := true }) z)).ax = State.reset.ax := hax
    rw [hz]
    revert x
    decide

/-- 21 R525: TESTEN holds the controller in reset. -/
theorem exec_testenHigh (s : State) :
    ∃ n, exec .testenHigh s = .next n ∧ n.pins.testen = true ∧ (s.pwr.up = true → mode n = mBoot ∧ inReset n = true) := by
  have hex : exec .testenHigh s = .next (if s.pwr.up then resetState false (modPins (fun p => { p with testen := true }) s)
    else modPins (fun p => { p with testen := true }) s) := rfl
  refine ⟨_, hex, ?_, fun hup => ?_⟩
  · split
    · rw [resetState_pins]
      rfl
    · rfl
  · rw [if_pos hup]
    exact ⟨resetState_cold_mode _, inReset_of_cold _⟩

end

end Sys2Proof.Machine
end

section
/-!
PROOFS. SLEEP and wake (20 R500, R501; 15 R385; 16 R409), and the clocks (20 R495, R496).
-/
namespace Sys2Proof.Machine

/-! ### The modulator clocks stop (07 R176) -/

section
variable {s t : State}

theorem Keeps.mode_eq {P : List Part} (h : Keeps P s t) (hp : Part.pts ∉ P) : mode t = mode s := by
  unfold mode
  rw [h.pt_eq hp]

/-- No trip acts in SLEEP, so a changed source shows in PWM_TRIPIN at most (09 R242). -/
theorem srcChange_of_sleep (hm : mode s = mSleep) (u : TripUnit) (held : Nat) :
    srcChange u held s = if held < fld (tripCfg s u) 0 8 then s else tinUpd u s := by
  have hm' : mode (tinUpd u s) = mSleep := ((tinUpd_keeps (Within.refl _) Keeps.refl).mode_eq (by decide)).trans hm
  have hact : tripAct u (tinUpd u s) = tinUpd u s := if_pos (by simp [hm'])
  unfold srcChange
  dsimp only
  rw [hact, ite_self]

theorem ocPut_stoHolds {n : Fin 16} {k : Fin 3} {v : Nat} (h : StoHolds s t) : StoHolds s (ocPut n k v t) := by
  unfold ocPut
  extract_lets cfg v x1 x2 on
  have h1 : StoHolds s x1 := h.upd rfl rfl
  have h2 : StoHolds s x2 := StoHolds.ite (wr_stoHolds (by decide) h1) (StoHolds.ite (wr_stoHolds (by decide) h1) h1)
  exact h2.upd rfl rfl

theorem tinUpd_stoHolds {u : TripUnit} (h : StoHolds s t) : StoHolds s (tinUpd u t) :=
  iwBit_stoHolds (by omega) (by decide) (wr_stoHolds (by decide) h)

theorem sdClkAgain_keeps_of_sleep {n : Fin 16} (hm : mode s = mSleep) (h : Keeps [.regs, .sdm, .pwmA] s t) :
    Keeps [.regs, .sdm, .pwmA] s (sdClkAgain n t) := by
  unfold sdClkAgain ocAgain
  extract_lets on x1
  have h1 : Keeps [.regs, .sdm, .pwmA] s x1 := modSdm_keeps (Within.of (Within.refl _) (by decide)) h
  have h2 := forEach_keeps (l := List.finRange 3) (f := fun k s => ocPut n k s.sdm[n].oc[k] s)
    (fun _ _ => ocPut_keeps (Within.of (Within.refl _) (by decide))) h1
  rw [srcChange_of_sleep ((h2.mode_eq (by decide)).trans hm)]
  exact Keeps.ite h2 (tinUpd_keeps (Within.of (Within.refl _) (by decide)) h2)

theorem sdClkAgain_stoHolds_of_sleep {n : Fin 16} (hm : mode s = mSleep) (h : StoHolds s t) : StoHolds s (sdClkAgain n t) := by
  unfold sdClkAgain ocAgain
  extract_lets on x1
  have h1 : StoHolds s x1 := h.upd rfl rfl
  have h2 := forEach_stoHolds (l := List.finRange 3) (f := fun k s => ocPut n k s.sdm[n].oc[k] s) (fun _ _ => ocPut_stoHolds) h1
  rw [srcChange_of_sleep (h2.mode_eq.trans hm)]
  exact StoHolds.ite h2 (tinUpd_stoHolds h2)

/-- In SLEEP the clocks stop without a fault: nothing but the sensing inputs and the trip sources changes. -/
theorem sdmSleep_of_sleep (hm : mode s = mSleep) : Keeps [.regs, .sdm, .pwmA] s (sdmSleep s) ∧ StoHolds s (sdmSleep s) :=
  ⟨forEach_keeps (fun _ _ => sdClkAgain_keeps_of_sleep hm) Keeps.refl, forEach_stoHolds (fun _ _ => sdClkAgain_stoHolds_of_sleep hm) StoHolds.refl⟩

/-! ### SLEEP entry -/

theorem setMode_mode {m : Nat} (hm : m < 256) : mode (setMode m s) = m := by
  unfold mode setMode
  rw [pt_setPt_same, fld_setFld_same _ _ _ _ (by decide)]
  exact Nat.mod_eq_of_lt hm

theorem sleepEnter_spec (s : State) :
    mode (sleepEnter s) = mSleep ∧ (sleepEnter s).pinsLow = true ∧ (sleepEnter s).drv.locked = false ∧ (∀ g, stoOn (sleepEnter s) g = true) ∧
      (sleepEnter s).pwr.sleepFrom = none := by
  unfold sleepEnter
  extract_lets x1 x2 x3 x4 x5 x6 x7
  have hfrom : x2.pwr.sleepFrom = none := rfl
  have hdec : StoHolds (setMode mSleep x2) x3 ∧ ∀ g, stoOn x3 g = true := stoDecide_of_sleep (setMode_mode (by decide))
  obtain ⟨hdec, hon⟩ := hdec
  have hk : Keeps _ x2 x3 := stoDecide_keeps (Within.refl _) (setMode_keeps (Within.of (Within.refl _) (by decide)) Keeps.refl)
  have hm : mode x3 = mSleep := hdec.mode_eq.trans (setMode_mode (by decide))
  have hpwr : x3.pwr = x2.pwr := hk.1 .pwr (by decide)
  rw [← hpwr] at hfrom
  clear_value x3
  have h5 : StoHolds x3 x5 := wr_stoHolds (by decide) (wr_stoHolds (by decide) (wr_stoHolds (by decide) (StoHolds.refl.upd rfl rfl)))
  have h6 : StoHolds x3 x6 := (wr_stoHolds (by decide) h5).upd rfl rfl
  have h7 : StoHolds x3 x7 := (wr_stoHolds (t := x6) (by decide) h6).upd rfl rfl
  have h8 : StoHolds x3 { x7 with pinsLow := true } := h7.upd rfl rfl
  have hlocked : ({ x7 with pinsLow := true } : State).drv.locked = false := rfl
  have hfrom' : ({ x7 with pinsLow := true } : State).pwr.sleepFrom = none := hfrom
  have hlow : ({ x7 with pinsLow := true } : State).pinsLow = true := rfl
  generalize ({ x7 with pinsLow := true } : State) = y at h8 hlocked hfrom' hlow ⊢
  obtain ⟨hclk, hsto⟩ := sdmSleep_of_sleep (h8.mode_eq.trans hm)
  have hdrv : (sdmSleep y).drv = y.drv := hclk.1 .drv (by decide)
  have hpins : (sdmSleep y).pinsLow = y.pinsLow := hclk.1 .pinsLow (by decide)
  have hpwr' : (sdmSleep y).pwr = y.pwr := hclk.1 .pwr (by decide)
  rw [hdrv, hpins, hpwr']
  exact ⟨(h8.trans hsto).mode_eq.trans hm, hlow, hlocked, fun g => (h8.trans hsto).2 g (hon g), hfrom'⟩

theorem exec_sleepEntered (t : Nat) (hs : s.helm.toSleep = true) (hm : mode s = mStandby) :
    ∃ n, exec (.sleepEntered t) s = .next n ∧ mode n = mSleep ∧ n.pinsLow = true ∧ n.drv.locked = false ∧
      (∀ g : Fin 4, stoOn n g = true) ∧ n.pwr.sleepFrom = none := by
  have hex : exec (.sleepEntered t) s =
      .next (if (atTime t s).helm.toSleep ∧ mode (atTime t s) = mStandby then sleepEnter (atTime t s) else atTime t s) := rfl
  have hm' : mode (atTime t s) = mStandby := by rw [atTime_eq]; exact hm
  rw [if_pos ⟨by rw [atTime_helm, hs], hm'⟩] at hex
  exact ⟨_, hex, sleepEnter_spec _⟩

/-! ### Wake (R501) -/

/-- The first wake event that is armed is recorded; a ring wake in SLEEP waits for the step of the member's address (15 R385). -/
theorem wake_of_armed (src t : Nat) (ha : wakeArmed s = true) (hw : s.pwr.woken = 0) :
    (wake src t s).pwr.woken = 2 ^ src ∧
      ∀ a, src = 3 → mode s = mSleep → s.pwr.ringAddr = some a → a * s.ring.step * 10000 ≠ 0 →
        (wake src t s).pwr.wakeStep = some (t + a * s.ring.step * 10000) := by
  unfold wake
  rw [if_neg (by simp [ha, hw])]
  refine ⟨rfl, fun a h3 hm haddr hd => ?_⟩
  dsimp only [modPwr]
  rw [if_pos hm, haddr]
  exact if_pos ⟨h3, hd⟩

/-- A timed command arms no wake source and disarms none. -/
theorem wakeArmed_atTime (t : Nat) (s : State) : wakeArmed (atTime t s) = wakeArmed s := by rw [atTime_eq]; rfl

section
variable (t : Nat) (ha : wakeArmed s = true) (hw : s.pwr.woken = 0)
include ha hw

theorem wake_atTime (src : Nat) :
    (wake src t (atTime t s)).pwr.woken = 2 ^ src ∧
      ∀ a, src = 3 → mode s = mSleep → s.pwr.ringAddr = some a → a * s.ring.step * 10000 ≠ 0 →
        (wake src t (atTime t s)).pwr.wakeStep = some (t + a * s.ring.step * 10000) := by
  obtain ⟨hwoken, hstep⟩ := wake_of_armed (s := atTime t s) src t ((wakeArmed_atTime t s).trans ha) (by rw [atTime_pwr, hw])
  refine ⟨hwoken, fun a h3 hm haddr hd => ?_⟩
  rw [atTime_ring, atTime_pwr] at hstep
  exact hstep a h3 (by rw [atTime_eq]; exact hm) haddr hd

/-- The wake ball at its active level for its filter time. -/
theorem exec_wakePin (level : Bool) (held : Nat) :
    ∃ n, exec (.wakePin level held t) s = .next n ∧
      n.pwr.woken = if bit (br s .pmu 0x34) 0 = true ∧ level ≠ bit (br s .pmu 0x34) 1 ∧ fld (br s .pmu 0x34) 8 8 * 10000 ≤ held then 1 else 0 := by
  have hreg : br (atTime t s) .pmu 0x34 = br s .pmu 0x34 := by rw [atTime_eq]; rfl
  have hex : exec (.wakePin level held t) s = .next (
      if bit (br (atTime t s) .pmu 0x34) 0 && (level != bit (br (atTime t s) .pmu 0x34) 1) && decide (fld (br (atTime t s) .pmu 0x34) 8 8 * 10000 ≤ held)
      then wake 0 t (atTime t s) else atTime t s) := rfl
  rw [hreg] at hex
  refine ⟨_, hex, ?_⟩
  simp only [Bool.and_eq_true, bne_iff_ne, decide_eq_true_eq, and_assoc]
  split
  · exact (wake_atTime t ha hw 0).1
  · rw [atTime_pwr, hw]

/-- A CAN receive line held low for its filter time. -/
theorem exec_canWake (c : Fin 2) (held : Nat) (hon : fld (br s (cb c) 0x40) 0 8 ≠ 0) (hheld : fld (br s (cb c) 0x40) 0 8 * 1000 ≤ held) :
    ∃ n, exec (.canWake c held t) s = .next n ∧ n.pwr.woken = 2 ^ (1 + c.val) := by
  have hreg : br (atTime t s) (cb c) 0x40 = br s (cb c) 0x40 := by rw [atTime_eq]; rfl
  have hex : exec (.canWake c held t) s = .next (
      if fld (br (atTime t s) (cb c) 0x40) 0 8 ≠ 0 ∧ fld (br (atTime t s) (cb c) 0x40) 0 8 * 1000 ≤ held then wake (1 + c.val) t (atTime t s)
      else atTime t s) := rfl
  rw [hreg, if_pos ⟨hon, hheld⟩] at hex
  exact ⟨_, hex, (wake_atTime t ha hw _).1⟩

/-- The ring's wake pattern. -/
theorem exec_ringWakePattern (hon : bit (br s .pmu 0x34) 2 = true) :
    ∃ n, exec (.ringWakePattern t) s = .next n ∧ n.pwr.woken = 8 ∧
      ∀ a, mode s = mSleep → s.pwr.ringAddr = some a → a * s.ring.step * 10000 ≠ 0 → n.pwr.wakeStep = some (t + a * s.ring.step * 10000) := by
  have hreg : br (atTime t s) .pmu 0x34 = br s .pmu 0x34 := by rw [atTime_eq]; rfl
  have hex : exec (.ringWakePattern t) s = .next (if bit (br (atTime t s) .pmu 0x34) 2 then wake 3 t (atTime t s) else atTime t s) := rfl
  rw [hreg, if_pos hon] at hex
  obtain ⟨hwoken, hstep⟩ := wake_atTime t ha hw 3
  exact ⟨_, hex, hwoken, fun a => hstep a rfl⟩

end

theorem exec_wakeStepElapsed {t u : Nat} (hu : s.pwr.wakeStep = some u) (ht : u ≤ t) :
    ∃ n, exec (.wakeStepElapsed t) s = .next n ∧ n.pwr.wakeStep = none ∧ Only [.now, .pwr] s n := by
  have hex : exec (.wakeStepElapsed t) s = .next (modPwr (fun p => { p with wakeStep := none }) (atTime t s)) := by
    have hrun : exec (.wakeStepElapsed t) s = .next (match (atTime t s).pwr.wakeStep with
      | some u => if u ≤ t then modPwr (fun p => { p with wakeStep := none }) (atTime t s) else atTime t s
      | none => atTime t s) := rfl
    rw [hrun, atTime_pwr, hu]
    exact congrArg Host.Outcome.next (if_pos ht)
  exact ⟨_, hex, rfl, (modPwr_keeps (Within.of (Within.refl _) (by decide)) (atTime_keeps (Within.of (Within.refl _) (by decide)) Keeps.refl)).1⟩

/-! ### Reference and DPLLs (R495, R496) -/

/-- A bit of CHRON_STATUS is cleared and a level-3 fault of the device raised: the bit stays cleared and the fault stands. -/
theorem clockFault_spec (t i num : Nat) (hi : i < 32) (inst : Nat) :
    bit (br (raiseDev 3 1 inst num [] (bwBit (atTime t s) .chron 0 i false)) .chron 0) i = false ∧
      Stands 3 (mkCode 1 inst num) 0xFFFF#16 s (raiseDev 3 1 inst num [] (bwBit (atTime t s) .chron 0 i false)) := by
  constructor
  · have hreg : br (raiseDev 3 1 inst num [] (bwBit (atTime t s) .chron 0 i false)) .chron 0 = br (bwBit (atTime t s) .chron 0 i false) .chron 0 :=
      (raise_reports Reports.refl).1 _ (by decide)
    rw [hreg, bit_br_bwBit _ _ _ _ hi]
  · exact (raise_stands (by decide) _ _ _ _ _).of_eq (atTime_boot s t) (atTime_helm s t)

section
variable {t : Nat} (hrun : clocksRun s = true) (href : bit (br s .chron 0) 9 = true)
include hrun href

/-- R495: the reference is lost while the device is not on its way to SLEEP. -/
theorem exec_refclkLost (hs : s.helm.toSleep = false) :
    ∃ n, exec (.refclkLost t) s = .next n ∧ bit (br n .chron 0) 9 = false ∧ Stands 3 (mkCode 1 0 2) 0xFFFF#16 s n := by
  have hex : exec (.refclkLost t) s = .next (
      if clocksRun (atTime t s) ∧ !(atTime t s).helm.toSleep ∧ bit (br (atTime t s) .chron 0) 9 then
        raiseDev 3 1 0 2 [] (bwBit (atTime t s) .chron 0 9 false)
      else atTime t s) := rfl
  have hcond : clocksRun (atTime t s) = true ∧ (!(atTime t s).helm.toSleep) = true ∧ bit (br (atTime t s) .chron 0) 9 = true := by
    rw [atTime_eq]
    exact ⟨hrun, by simp [hs], href⟩
  rw [if_pos hcond] at hex
  exact ⟨_, hex, clockFault_spec t 9 2 (by decide) 0⟩

/-- R496: a DPLL loses lock while its reference is present; the code names its island. -/
theorem exec_dpllUnlock (i : Fin 9) (hi : bit (br s .chron 0) i.val = true) :
    ∃ n, exec (.dpllUnlock i t) s = .next n ∧ bit (br n .chron 0) i.val = false ∧ Stands 3 (mkCode 1 i.val 3) 0xFFFF#16 s n := by
  have hex : exec (.dpllUnlock i t) s = .next (
      if clocksRun (atTime t s) ∧ bit (br (atTime t s) .chron 0) 9 ∧ bit (br (atTime t s) .chron 0) i.val then
        raiseDev 3 1 i.val 3 [] (bwBit (atTime t s) .chron 0 i.val false)
      else atTime t s) := rfl
  have hcond : clocksRun (atTime t s) = true ∧ bit (br (atTime t s) .chron 0) 9 = true ∧ bit (br (atTime t s) .chron 0) i.val = true := by
    rw [atTime_eq]
    exact ⟨hrun, href, hi⟩
  rw [if_pos hcond] at hex
  exact ⟨_, hex, clockFault_spec t i.val 3 (by omega) i.val⟩

end
end

end Sys2Proof.Machine
end

section
/-!
PROOFS. The test access port (21 R525, R527 to R529), and the statement on supply, reset, SLEEP and the test port.
-/
namespace Sys2Proof.Machine

section
variable (s : State)

/-- A start of BOOT takes the ring strap anew and ends the port's hold; instruction, registers and cells stay. -/
theorem startBoot_pins (v : BootView) : (startBoot v s).pins = { s.pins with ringMaster := v.ringMaster, tapHold := false } := by
  have w {l : List Part} := Within.of (a := l) (Within.refl (partsBut [.fresh, .pins, .pending]))
  unfold startBoot
  extract_lets warm cause x3 pins pwr x6 x7 x8 x9 gen x11 ra rb x14 x15 x16 x17
  have hbase : x6.pins = { s.pins with ringMaster := v.ringMaster, tapHold := false } := by
    have h3 : x3.pins = s.pins := resetState_pins warm s
    rw [← h3]
  have h9 : Keeps _ x6 x9 := bw_keeps (w (by decide)) (bw_keeps (w (by decide)) (ringBit_keeps (w (by decide))
    (bw_keeps (w (by decide)) (bw_keeps (w (by decide)) (modHelm_keeps (w (by decide)) (modBoot_keeps (w (by decide)) Keeps.refl))))))
  have h16 : Keeps _ x6 x16 := bw_keeps (w (by decide)) (bw_keeps (w (by decide)) (putValid_keeps (w (by decide))
    (putValid_keeps (w (by decide)) (bw_keeps (w (by decide)) (bw_keeps (w (by decide)) h9)))))
  have h17 : Keeps _ x6 x17 := resetUnhomed_keeps (w (by decide)) (bootRequests_keeps (w (by decide)) (busyUpd_keeps (w (by decide))
    (writeFixed_keeps (w (by decide)) (stage_keeps (w (by decide)) h16))))
  have h := Keeps.ite (c := (!(idAgrees (br x17 .sys 0))) = true) (bootFail_keeps (a1 := 0) (a2 := 0) (a3 := 8) (a4 := [br x17 .sys 0]) (w (by decide)) h17)
    (Keeps.ite (c := (!v.romOk) = true) (bootFail_keeps (a1 := 0) (a2 := 0) (a3 := 6) (a4 := []) (w (by decide)) h17) h17)
  exact (h.1 .pins (by decide)).trans hbase

/-- An instruction that the port takes: its code and its register, and the cells as before, whether or not BOOT starts upon it. -/
theorem tapLoad_pins (ir : Nat) (dr : Word) : ∃ m h, (tapLoad ir dr s).pins = { s.pins with ir := ir, dr := dr, ringMaster := m, tapHold := h } := by
  unfold tapLoad
  dsimp only
  split
  · split
    · split
      · exact ⟨_, _, startBoot_pins _ _⟩
      · exact ⟨_, _, rfl⟩
    · exact ⟨_, _, rfl⟩
  · exact ⟨_, _, rfl⟩

theorem tapDrive_pins (ir : Nat) :
    ∃ m h, (tapDrive ir s).pins = { s.pins with ir := if inReset s then ir else 0xF, dr := 0#32, ringMaster := m, tapHold := h } :=
  tapLoad_pins ..

/-- EXTEST loads its cells only where it acts, under reset. -/
theorem exec_extest (cells : List Bool) :
    ∃ n, exec (.extest cells) s = .next n ∧ n.pins.ir = (if inReset s then 0 else 0xF) ∧
      n.pins.preload = (if inReset s then cells else s.pins.preload) := by
  refine ⟨_, rfl, ?_⟩
  by_cases hr : inReset s = true
  · obtain ⟨m, h, e⟩ := tapDrive_pins (modPins (fun p => { p with preload := cells }) s) 0
    rw [if_pos hr, if_pos hr, if_pos hr, e]
    exact ⟨if_pos hr, rfl⟩
  · obtain ⟨m, h, e⟩ := tapDrive_pins s 0
    rw [if_neg hr, if_neg hr, if_neg hr, e]
    exact ⟨if_neg hr, rfl⟩

theorem exec_samplePreload (cap cells : List Bool) :
    ∃ n, exec (.samplePreload cap cells) s = .next n ∧ n.pins.ir = 2 ∧ n.pins.captured = cap ∧ n.pins.preload = cells := by
  obtain ⟨m, h, e⟩ := tapLoad_pins (modPins (fun p => { p with captured := cap, preload := cells }) s) 2 0#32
  exact ⟨_, rfl, by rw [e], by rw [e]; rfl, by rw [e]; rfl⟩

theorem exec_clamp : ∃ n, exec .clamp s = .next n ∧ n.pins.ir = (if inReset s then 3 else 0xF) := by
  obtain ⟨m, h, e⟩ := tapDrive_pins s 3
  exact ⟨_, rfl, by rw [e]⟩

theorem exec_highz : ∃ n, exec .highz s = .next n ∧ n.pins.ir = (if inReset s then 4 else 0xF) := by
  obtain ⟨m, h, e⟩ := tapDrive_pins s 4
  exact ⟨_, rfl, by rw [e]⟩

theorem tapLoad_ir_dr (ir : Nat) (dr : Word) : (tapLoad ir dr s).pins.ir = ir ∧ (tapLoad ir dr s).pins.dr = dr := by
  obtain ⟨m, h, e⟩ := tapLoad_pins s ir dr
  rw [e]
  exact ⟨rfl, rfl⟩

theorem exec_testenRelease : ∃ n, exec .testenRelease s = .next n ∧ n.pins.testen = false ∧ Only [.pins] s n :=
  ⟨_, rfl, rfl, (modPins_keeps (Within.refl _) Keeps.refl).1⟩

end

/-- Settles O60: every event and every instruction of the port does what its rule says, each by the lemma of its own section. -/
theorem supplyResetSleepAndTestPort : Obligations.SupplyResetSleepAndTestPort := by
  intro t s
  refine ⟨exec_powerUp, exec_railTmo, exec_railSequenceRestart, exec_brownout, exec_ovpRelease, exec_resetnExternalLow, exec_sleepEntered t,
    fun ha hw => ⟨exec_wakePin t ha hw, exec_canWake t ha hw, exec_ringWakePattern t ha hw⟩, fun _ => exec_wakeStepElapsed,
    fun hrun href => ⟨exec_refclkLost hrun href, exec_dpllUnlock hrun href⟩, exec_testenHigh s, exec_testenRelease s,
    fun cells cap => ⟨exec_extest s cells, exec_samplePreload s cap cells⟩, exec_clamp s, exec_highz s, ?_, ?_, ?_⟩
  · exact ⟨_, rfl, tapLoad_ir_dr s 1 (idcode s)⟩
  · exact ⟨_, rfl, tapLoad_ir_dr s 0xF 0#32⟩
  · exact ⟨_, rfl, tapLoad_ir_dr s 1 (idcode s)⟩

end Sys2Proof.Machine
end
